-- ==== Sys2Proof/Word.lean ====
section
/-! DEFINITION. The word types, the sparse map that holds every large storage of the machine in one canonical
form, and the plainest arithmetic on words. -/

namespace Sys2Proof

/-- One byte of memory. -/
abbrev Byte := BitVec 8

/-- A lane word, an instruction word. -/
abbrev Word := BitVec 32

/-- A uniform register, a 64-bit value. -/
abbrev Word64 := BitVec 64

/-- A set of lanes, one bit per lane. -/
abbrev Mask := BitVec 32

/-- A sparse map from numbers: keys strictly rising, no entry that equals what an unlisted key reads as. -/
abbrev Sparse (α : Type) := List (Nat × α)

namespace Sparse

/-- What key `k` reads as; `d` is what an unlisted key reads as. -/
def get {α : Type} (d : α) (k : Nat) : Sparse α → α
  | [] => d
  | (k', v) :: l => if k = k' then v else get d k l

/-- `m` with an entry for key `k` at its place in the order. -/
def insert {α : Type} (k : Nat) (v : α) : Sparse α → Sparse α
  | [] => [(k, v)]
  | (k', w) :: l =>
    if k < k' then (k, v) :: (k', w) :: l
    else if k = k' then (k, v) :: l
    else (k', w) :: insert k v l

/-- `m` with no entry for key `k`. -/
def erase {α : Type} (k : Nat) : Sparse α → Sparse α
  | [] => []
  | (k', w) :: l => if k = k' then erase k l else (k', w) :: erase k l

/-- `m` with key `k` holding `v`; writing the default removes the entry. -/
def set {α : Type} [DecidableEq α] (d : α) (k : Nat) (v : α) (m : Sparse α) : Sparse α :=
  if v = d then erase k m else insert k v m

/-- Keys strictly rising from `lo`, no entry equal to the default. -/
def wfFrom {α : Type} [DecidableEq α] (d : α) : Nat → Sparse α → Bool
  | _, [] => true
  | lo, (k, v) :: l => decide (lo ≤ k) && decide (v ≠ d) && wfFrom d (k + 1) l

/-- The canonical form. -/
def wf {α : Type} [DecidableEq α] (d : α) (m : Sparse α) : Bool := wfFrom d 0 m

/-- Replace what key `k` holds by its image under `f`. -/
def modify {α : Type} [DecidableEq α] (d : α) (k : Nat) (f : α → α) (m : Sparse α) : Sparse α :=
  set d k (f (get d k m)) m

end Sparse

/-- The number of one bits among the `n` low bits of `x`. -/
def popcount (n x : Nat) : Nat := ((List.range n).filter (fun i => x.testBit i)).length

/-- The lanes of a mask, ascending. -/
def lanesOf (m : Mask) : List Nat := (List.range 32).filter (fun i => m.getLsbD i)

/-- The mask of a list of lanes. -/
def maskOf (l : List Nat) : Mask := l.foldl (fun m i => m ||| BitVec.ofNat 32 (2 ^ i)) 0

/-- Every lane. -/
def allLanes : Mask := BitVec.ofNat 32 0xFFFFFFFF

/-- The lowest lane of a mask, none of an empty one. -/
def lowestLane (m : Mask) : Option Nat := (lanesOf m).head?

/-- `n` bytes of `x`, the least significant first (R8). -/
def toBytes (n x : Nat) : List Byte := (List.range n).map (fun i => BitVec.ofNat 8 (x / 2 ^ (8 * i)))

/-- The number a list of bytes holds, the first byte least significant (R8). -/
def ofBytes : List Byte → Nat
  | [] => 0
  | b :: l => b.toNat + 256 * ofBytes l

/-- Bits `[hi:lo]` of a number. -/
def bits (x hi lo : Nat) : Nat := x / 2 ^ lo % 2 ^ (hi + 1 - lo)

/-- A number of `w` bits read as two's complement. -/
def toSigned (w x : Nat) : Int := if x % 2 ^ w < 2 ^ (w - 1) then (x % 2 ^ w : Nat) else ((x % 2 ^ w : Nat) : Int) - (2 ^ w : Nat)

/-- The low `w` bits of an integer. -/
def wrap (w : Nat) (x : Int) : Nat := (x % ((2 ^ w : Nat) : Int)).toNat

end Sys2Proof
end

