-- ==== Sys2Proof/Config.lean ====
section
/-! DEFINITION. What one implementation fixes (R1), and the free values: opaque constants that no proof can see. -/

namespace Sys2Proof

/-- What a message of the fabric is (R366, R367, R369). -/
inductive FabricKind where
  | read
  | write
  | atomic (op : Nat) (wide : Bool) (x y : Word64)
  | answer
  | ack
  | seize (pod : Nat) (nonce : Word64) (sig : Nat)
  | deadLink (link : Nat)
  | lostPeer (m : Nat)
  | heartbeat
deriving DecidableEq, Repr

/-- A message of the fabric (R367): its kind, the command's address, byte mask, PASID and tag, its data bytes, and whether its check value holds (R273). -/
structure FabricMsg where
  kind : FabricKind
  addr : Nat
  mask : Nat
  pasid : Nat
  tag : Nat
  data : List Byte
  sound : Bool
deriving DecidableEq, Repr

namespace Config

/-- Cores of the module (R1). -/
def cores : Nat := 144

/-- Warp slots of a core (R1). -/
def slots : Nat := 16

/-- The hub timestamp in nanoseconds at a reading (R311, R343): any value. -/
opaque hubTime : Nat → Word64

/-- Whether the signature of a seize request over a pod and a nonce verifies by a registered seizer key (R366): any verdict. -/
opaque seizeOk : (pod : Nat) → (nonce : Word64) → (sig : Nat) → Bool

/-- Whether the consent record for a frozen context verifies by its owner's registered key (R360): any verdict. -/
opaque consentOk : (pasid : Nat) → (consent : Nat) → Bool

/-- Whether the signature of an image, as one number, verifies by the image key (R372): any verdict. -/
opaque imageOk : Nat → Bool

/-- The certificate chain, digests, measurements and signatures that SPDM answers carry (R372): any value. -/
opaque spdmData : Nat → Nat → Nat

/-- Whether the link check of a flit holds (R367 gives no function): any verdict. -/
opaque linkCheckOk : Nat → Bool

/-- The messages of a flit's payload (R367 names the parts of a message and places none of them): any messages. -/
opaque fabricMessages : Nat → List FabricMsg

/-- The link of this module at whose other end link `l` of module `m` stands, plus one; 0 for none (the wiring of the pod): any. -/
opaque wiring : (m l : Nat) → Nat

/-- What a reading of a sensor has crossed (R371 gives no thresholds): 0 nothing, else a severity plus one. -/
opaque sensorCrossing : (sensor before now : Nat) → Nat

/-- Whether a new command-processor image knows the format of the state table (R289): any verdict. -/
opaque knowsTable : Nat → Bool

/-- How many clocks the value of the hang register stands for (R356, R393): any. -/
opaque hangClocks : (hang : Nat) → Nat

/-- The value of a register's bits that the spec calls undefined, or of a result that it does not state: any value. -/
opaque freeWord : Nat → Word64

end Config

end Sys2Proof
end

