-- ==== Sys2Proof/Syntax.lean ====
section
/-! DEFINITION. The instructions and the device events of the Treljan T9: one constructor per row of the opcode
table. The fields of an encoded instruction are the fields of its word (R46 to R67); an immediate, an offset or a
displacement that prefix K can extend is held whole (R51). The operands of an event name the object it acts on. -/

namespace Sys2Proof

/-- The attributes that prefix X gives an instruction (R49); all clear without one. -/
structure Attr where
  /-- switch on stall -/
  sos : Bool
  /-- gap in clocks -/
  gap : BitVec 3
  /-- yield -/
  yield : Bool
  /-- guard enable -/
  ge : Bool
  /-- guard negated -/
  gn : Bool
  /-- guard predicate -/
  gp : BitVec 4
deriving DecidableEq, Repr

/-- No prefix X: guard p15, nothing else set (R49). -/
def Attr.none : Attr := ⟨false, 0, false, false, false, 0⟩

/-- An instruction of the Ngafort set, or an event of the device. -/
inductive Instr where
  /-- ADD (R83). Adds a and b, in each active lane (vector form) or once in a uniform. -/
  | add (v : Bool) (d : BitVec 7) (a : BitVec 7) (b : BitVec 7) (u : Bool)
  /-- ADDC (R82). Adds a, b and the p13 carry and writes the carry-out to p13. -/
  | addc (v : Bool) (d : BitVec 7) (a : BitVec 7) (b : BitVec 7) (u : Bool)
  /-- SUB (R83). Subtracts b from a. -/
  | sub (v : Bool) (d : BitVec 7) (a : BitVec 7) (b : BitVec 7) (u : Bool)
  /-- SUBB (R82). Subtracts b and the p13 borrow from a and writes the borrow-out to p13. -/
  | subb (v : Bool) (d : BitVec 7) (a : BitVec 7) (b : BitVec 7) (u : Bool)
  /-- MUL (R83). Writes the low half of a times b. -/
  | mul (v : Bool) (d : BitVec 7) (a : BitVec 7) (b : BitVec 7) (u : Bool)
  /-- MULHI_I (R83). Writes the high half of the signed product of a and b. -/
  | mulhiI (v : Bool) (d : BitVec 7) (a : BitVec 7) (b : BitVec 7) (u : Bool)
  /-- MULHI_N (R83). Writes the high half of the unsigned product of a and b. -/
  | mulhiN (v : Bool) (d : BitVec 7) (a : BitVec 7) (b : BitVec 7) (u : Bool)
  /-- MAD (R83). Computes d := a times b plus d. -/
  | mad (v : Bool) (d : BitVec 7) (a : BitVec 7) (b : BitVec 7) (u : Bool)
  /-- MAD_W_I (R83). Adds the signed 64-bit product of a and b to the pair d (vector only). -/
  | madWI (d : BitVec 7) (a : BitVec 7) (b : BitVec 7) (u : Bool)
  /-- MAD_W_N (R83). Adds the unsigned 64-bit product of a and b to the pair d (vector only). -/
  | madWN (d : BitVec 7) (a : BitVec 7) (b : BitVec 7) (u : Bool)
  /-- DIV_I (R84). Performs signed division truncating towards zero; a zero divisor gives all ones. -/
  | divI (v : Bool) (d : BitVec 7) (a : BitVec 7) (b : BitVec 7) (u : Bool)
  /-- DIV_N (R84). Performs unsigned division; a zero divisor gives all ones. -/
  | divN (v : Bool) (d : BitVec 7) (a : BitVec 7) (b : BitVec 7) (u : Bool)
  /-- REM_I (R84). Writes the signed remainder; a zero divisor returns a. -/
  | remI (v : Bool) (d : BitVec 7) (a : BitVec 7) (b : BitVec 7) (u : Bool)
  /-- REM_N (R84). Writes the unsigned remainder; a zero divisor returns a. -/
  | remN (v : Bool) (d : BitVec 7) (a : BitVec 7) (b : BitVec 7) (u : Bool)
  /-- ADD64 (R83). Adds b to the 64-bit pair a and writes the pair d (vector only). -/
  | add64 (d : BitVec 7) (a : BitVec 7) (b : BitVec 7) (u : Bool)
  /-- SUB64 (R83). Subtracts b from the 64-bit pair a (vector only). -/
  | sub64 (d : BitVec 7) (a : BitVec 7) (b : BitVec 7) (u : Bool)
  /-- AND (R85). Writes the bitwise and of a and b. -/
  | and (v : Bool) (d : BitVec 7) (a : BitVec 7) (b : BitVec 7) (u : Bool)
  /-- OR (R85). Writes the bitwise or of a and b. -/
  | or (v : Bool) (d : BitVec 7) (a : BitVec 7) (b : BitVec 7) (u : Bool)
  /-- XOR (R85). Writes the bitwise exclusive or of a and b. -/
  | xor (v : Bool) (d : BitVec 7) (a : BitVec 7) (b : BitVec 7) (u : Bool)
  /-- ANDN (R85). Writes a and not b. -/
  | andn (v : Bool) (d : BitVec 7) (a : BitVec 7) (b : BitVec 7) (u : Bool)
  /-- SHL (R85). Shifts a left by the register count. -/
  | shl (v : Bool) (d : BitVec 7) (a : BitVec 7) (b : BitVec 7) (u : Bool)
  /-- SHR (R85). Shifts a right with zero fill by the register count. -/
  | shr (v : Bool) (d : BitVec 7) (a : BitVec 7) (b : BitVec 7) (u : Bool)
  /-- SAR (R85). Shifts a right with sign fill by the register count. -/
  | sar (v : Bool) (d : BitVec 7) (a : BitVec 7) (b : BitVec 7) (u : Bool)
  /-- ROTL (R85). Rotates a left by the count modulo the width. -/
  | rotl (v : Bool) (d : BitVec 7) (a : BitVec 7) (b : BitVec 7) (u : Bool)
  /-- POPC (R85). Counts the 1 bits of a. -/
  | popc (v : Bool) (d : BitVec 7) (a : BitVec 7) (u : Bool)
  /-- CLZ (R85). Counts the leading zero bits of a. -/
  | clz (v : Bool) (d : BitVec 7) (a : BitVec 7) (u : Bool)
  /-- BREV (R85). Reverses the bits of a. -/
  | brev (v : Bool) (d : BitVec 7) (a : BitVec 7) (u : Bool)
  /-- MIN_I (R85). Writes the signed minimum of a and b. -/
  | minI (v : Bool) (d : BitVec 7) (a : BitVec 7) (b : BitVec 7) (u : Bool)
  /-- MIN_N (R85). Writes the unsigned minimum of a and b. -/
  | minN (v : Bool) (d : BitVec 7) (a : BitVec 7) (b : BitVec 7) (u : Bool)
  /-- MAX_I (R85). Writes the signed maximum of a and b. -/
  | maxI (v : Bool) (d : BitVec 7) (a : BitVec 7) (b : BitVec 7) (u : Bool)
  /-- MAX_N (R85). Writes the unsigned maximum of a and b. -/
  | maxN (v : Bool) (d : BitVec 7) (a : BitVec 7) (b : BitVec 7) (u : Bool)
  /-- ABS (R85). Writes the signed absolute value of a. -/
  | abs (v : Bool) (d : BitVec 7) (a : BitVec 7) (u : Bool)
  /-- BFX_I (R86). Extracts a bit field of a and sign-extends it. -/
  | bfxI (v : Bool) (d : BitVec 7) (a : BitVec 7) (b : BitVec 7) (u : Bool)
  /-- BFX_N (R86). Extracts a bit field of a and zero-extends it. -/
  | bfxN (v : Bool) (d : BitVec 7) (a : BitVec 7) (b : BitVec 7) (u : Bool)
  /-- BFI (R86). Inserts the low bits of a into a field of d. -/
  | bfi (v : Bool) (d : BitVec 7) (a : BitVec 7) (b : BitVec 7) (u : Bool)
  /-- PRMT (R87). Permutes the bytes of a and b under the selector held in d. -/
  | prmt (v : Bool) (d : BitVec 7) (a : BitVec 7) (b : BitVec 7) (u : Bool)
  /-- MOV (R86). Copies b to d. -/
  | mov (v : Bool) (d : BitVec 7) (b : BitVec 7) (u : Bool)
  /-- LEA_1 (R86). Computes the address a plus b. -/
  | lea1 (v : Bool) (d : BitVec 7) (a : BitVec 7) (b : BitVec 7) (u : Bool)
  /-- LEA_2 (R86). Computes the address a plus 2b. -/
  | lea2 (v : Bool) (d : BitVec 7) (a : BitVec 7) (b : BitVec 7) (u : Bool)
  /-- LEA_4 (R86). Computes the address a plus 4b. -/
  | lea4 (v : Bool) (d : BitVec 7) (a : BitVec 7) (b : BitVec 7) (u : Bool)
  /-- LEA_8 (R86). Computes the address a plus 8b. -/
  | lea8 (v : Bool) (d : BitVec 7) (a : BitVec 7) (b : BitVec 7) (u : Bool)
  /-- ADD_IMM (R88). Adds a signed immediate to a. -/
  | addImm (v : Bool) (d : BitVec 7) (a : BitVec 7) (i : BitVec 38)
  /-- MOVI (R88). Loads an immediate into d. -/
  | movi (v : Bool) (d : BitVec 7) (i : BitVec 38)
  /-- SHL_IMM (R88). Shifts a left by an immediate count. -/
  | shlImm (v : Bool) (d : BitVec 7) (a : BitVec 7) (c : BitVec 6)
  /-- SHR_IMM (R88). Shifts a right with zero fill by an immediate count. -/
  | shrImm (v : Bool) (d : BitVec 7) (a : BitVec 7) (c : BitVec 6)
  /-- SAR_IMM (R88). Shifts a right with sign fill by an immediate count. -/
  | sarImm (v : Bool) (d : BitVec 7) (a : BitVec 7) (c : BitVec 6)
  /-- ROTL_IMM (R88). Rotates a left by an immediate count. -/
  | rotlImm (v : Bool) (d : BitVec 7) (a : BitVec 7) (c : BitVec 6)
  /-- ICVT (R89). Converts between integer types, optionally saturating. -/
  | icvt (v : Bool) (d : BitVec 7) (a : BitVec 7) (s : Bool) (x : BitVec 4) (y : BitVec 4)
  /-- SEL (R90). Selects a or b in each lane by a predicate. -/
  | sel (d : BitVec 7) (a : BitVec 7) (b : BitVec 7) (u : Bool) (p : BitVec 4)
  /-- SETP (R91). Compares a with b in each active lane and writes a predicate. -/
  | setp (w : BitVec 3) (p : BitVec 4) (a : BitVec 7) (b : BitVec 7) (u : Bool) (c : BitVec 4)
  /-- PAND (R92). Writes the and of two predicates. -/
  | pand (d : BitVec 4) (a : BitVec 4) (b : BitVec 4)
  /-- POR (R92). Writes the or of two predicates. -/
  | por (d : BitVec 4) (a : BitVec 4) (b : BitVec 4)
  /-- PXOR (R92). Writes the exclusive or of two predicates. -/
  | pxor (d : BitVec 4) (a : BitVec 4) (b : BitVec 4)
  /-- PNOT (R92). Writes the negation of a predicate. -/
  | pnot (d : BitVec 4) (a : BitVec 4)
  /-- PMOV (R92). Copies a predicate. -/
  | pmov (d : BitVec 4) (a : BitVec 4)
  /-- SHFL (R94). Reads another lane's register in at, rot, slide or mirror mode. -/
  | shfl (d : BitVec 7) (a : BitVec 7) (b : BitVec 7) (u : Bool) (m : BitVec 2)
  /-- QSWAP (R95). Exchanges values within each quad horizontally, vertically or diagonally. -/
  | qswap (d : BitVec 7) (a : BitVec 7) (m : BitVec 2)
  /-- VOTE_ALL (R96). Sets a predicate when a predicate holds in every active lane. -/
  | voteAll (d : BitVec 4) (a : BitVec 4)
  /-- VOTE_ANY (R96). Sets a predicate when a predicate holds in some active lane. -/
  | voteAny (d : BitVec 4) (a : BitVec 4)
  /-- VOTE_BALLOT (R96). Writes the mask of active lanes in which a predicate holds to a uniform. -/
  | voteBallot (d : BitVec 7) (a : BitVec 4)
  /-- REDUX (R97). Reduces a vector register over the active lanes into a uniform. -/
  | redux (d : BitVec 7) (a : BitVec 7) (o : BitVec 3)
  /-- RDLANE (R97). Copies one lane's value of a vector register to a uniform. -/
  | rdlane (d : BitVec 7) (a : BitVec 7) (b : BitVec 7)
  /-- WRLANE (R97). Writes a uniform into one lane of a vector register. -/
  | wrlane (d : BitVec 7) (a : BitVec 7) (b : BitVec 7)
  /-- BR (R98). Moves the lanes in which the condition holds to the target as a new frontier entry. -/
  | br (p : BitVec 4) (c : BitVec 4) (n : Bool) (o : BitVec 42)
  /-- JMP (R98). Moves the whole entry to the target when the condition holds in its lowest lane. -/
  | jmp (p : BitVec 4) (c : BitVec 4) (n : Bool) (o : BitVec 42)
  /-- CALL (R100). Writes the next address to a link pair and moves the active lanes to the target. -/
  | call (p : BitVec 4) (l : BitVec 5) (o : BitVec 42)
  /-- BRX (R101). Branches each active lane to the target held in a vector pair. -/
  | brx (a : BitVec 7) (p : BitVec 4)
  /-- RET (R101). Returns through a vector pair, with the effect of BRX. -/
  | ret (a : BitVec 7) (p : BitVec 4)
  /-- EXIT (R102). Retires the active lanes and strikes them from every rejoin mask. -/
  | exit 
  /-- NOP (R102). Changes no state. -/
  | nop 
  /-- FSW (R107). Ends the fibre's turn and passes the slot to the next ready fibre. -/
  | fsw 
  /-- FBAR (R108). Waits for the fibre's own writes to land, then arrives at the slot barrier and blocks until release. -/
  | fbar 
  /-- JEN (R103). Enrols the active lanes in a rejoin mask. -/
  | jen (j : BitVec 3)
  /-- JWT (R24). Parks enrolled active lanes at a rejoin mask and releases them when all have arrived. -/
  | jwt (j : BitVec 3)
  /-- JSTR (R24). Strikes the active lanes from a rejoin mask, possibly completing a release. -/
  | jstr (j : BitVec 3)
  /-- WBASE (R104). Sets the fibre's window base. -/
  | wbase (b : BitVec 6)
  /-- GROW (R105). Adds granules to the top of the window, blocking or unpicking a task when they are not free. -/
  | grow (n : BitVec 5)
  /-- SHRINK (R106). Removes granules from the top of the window. -/
  | shrink (n : BitVec 5)
  /-- FADD (R129). Adds two floating-point values with one rounding. -/
  | fadd (t : BitVec 2) (r : Bool) (d : BitVec 7) (a : BitVec 7) (b : BitVec 7) (u : Bool)
  /-- FSUB (R129). Subtracts two floating-point values. -/
  | fsub (t : BitVec 2) (r : Bool) (d : BitVec 7) (a : BitVec 7) (b : BitVec 7) (u : Bool)
  /-- FMUL (R129). Multiplies two floating-point values. -/
  | fmul (t : BitVec 2) (r : Bool) (d : BitVec 7) (a : BitVec 7) (b : BitVec 7) (u : Bool)
  /-- FMA (R129). Computes a times b plus d with one rounding. -/
  | fma (t : BitVec 2) (r : Bool) (d : BitVec 7) (a : BitVec 7) (b : BitVec 7) (u : Bool)
  /-- FMIN (R131). Returns the smaller operand with NaN handling. -/
  | fmin (t : BitVec 2) (r : Bool) (d : BitVec 7) (a : BitVec 7) (b : BitVec 7) (u : Bool)
  /-- FMAX (R131). Returns the larger operand with NaN handling. -/
  | fmax (t : BitVec 2) (r : Bool) (d : BitVec 7) (a : BitVec 7) (b : BitVec 7) (u : Bool)
  /-- FDIV (R132). Divides with correct rounding. -/
  | fdiv (t : BitVec 2) (r : Bool) (d : BitVec 7) (a : BitVec 7) (b : BitVec 7) (u : Bool)
  /-- FRCP (R132). Computes the correctly rounded reciprocal. -/
  | frcp (t : BitVec 2) (r : Bool) (d : BitVec 7) (a : BitVec 7)
  /-- FRSQ (R132). Computes the correctly rounded reciprocal square root in f32. -/
  | frsq (d : BitVec 7) (a : BitVec 7)
  /-- FSQRT (R132). Computes the correctly rounded square root. -/
  | fsqrt (t : BitVec 2) (r : Bool) (d : BitVec 7) (a : BitVec 7)
  /-- FEXP2 (R133). Computes 2 to the power a in f32. -/
  | fexp2 (d : BitVec 7) (a : BitVec 7)
  /-- FLOG2 (R133). Computes log2 of a in f32. -/
  | flog2 (d : BitVec 7) (a : BitVec 7)
  /-- FSINPI (R133). Computes sin(pi a) in f32. -/
  | fsinpi (d : BitVec 7) (a : BitVec 7)
  /-- FCOSPI (R133). Computes cos(pi a) in f32. -/
  | fcospi (d : BitVec 7) (a : BitVec 7)
  /-- FCLASS (R134). Writes a one-hot class mask of a. -/
  | fclass (t : BitVec 2) (r : Bool) (d : BitVec 7) (a : BitVec 7)
  /-- FRND (R135). Rounds a to an integral value under its own mode field. -/
  | frnd (t : BitVec 2) (r : Bool) (d : BitVec 7) (a : BitVec 7) (m : BitVec 3)
  /-- FSETP (R136). Compares floating-point values and writes a predicate. -/
  | fsetp (w : BitVec 3) (p : BitVec 4) (a : BitVec 7) (b : BitVec 7) (u : Bool) (c : BitVec 4)
  /-- FCVT (R137). Converts one element between floating, narrow and integer types. -/
  | fcvt (d : BitVec 7) (a : BitVec 7) (s : Bool) (r : BitVec 3) (x : BitVec 4) (y : BitVec 4)
  /-- DOT4 (R140). Adds the dot product of four 8-bit elements to d. -/
  | dot4 (d : BitVec 7) (a : BitVec 7) (b : BitVec 7) (u : Bool) (t : BitVec 2)
  /-- DOT8 (R140). Adds the dot product of eight 4-bit elements to d. -/
  | dot8 (d : BitVec 7) (a : BitVec 7) (b : BitVec 7) (u : Bool) (t : BitVec 2)
  /-- WRING (R146). Computes the wring random function of a key and a counter. -/
  | wring (d : BitVec 7) (a : BitVec 7) (b : BitVec 7) (u : Bool)
  /-- SCL (R142). Multiplies an f32 register by its block's e8m0 scale. -/
  | scl (d : BitVec 7) (a : BitVec 7) (s : BitVec 2) (f : BitVec 3)
  /-- QNT (R143). Quantises f32 blocks into a narrow format, raising scales up to a limit. -/
  | qnt (d : BitVec 7) (a : BitVec 7) (s : BitVec 2) (l : BitVec 2) (f : BitVec 3)
  /-- DQNT (R144). Dequantises packed narrow elements to f32 with the block scale. -/
  | dqnt (d : BitVec 7) (a : BitVec 7) (s : BitVec 2) (f : BitVec 3)
  /-- P6X (R145). Packs or unpacks 6-bit elements between container and packed form. -/
  | p6x (d : BitVec 7) (r : BitVec 2) (f : BitVec 3)
  /-- LD (R156). Loads from global memory, weak or relaxed, in each active lane. -/
  | ld (d : BitVec 7) (b : BitVec 7) (l : BitVec 4) (w : BitVec 3) (o : Bool) (c : BitVec 3) (ofs : BitVec 26)
  /-- LDACQ (R158). Loads with acquire semantics at a scope. -/
  | ldacq (d : BitVec 7) (b : BitVec 7) (l : BitVec 4) (w : BitVec 3) (c : BitVec 3) (ofs : BitVec 26)
  /-- ST (R156). Stores to global memory in each active lane. -/
  | st (d : BitVec 7) (b : BitVec 7) (l : BitVec 4) (w : BitVec 3) (o : Bool) (c : BitVec 3) (ofs : BitVec 26)
  /-- STREL (R158). Stores with release semantics at a scope. -/
  | strel (d : BitVec 7) (b : BitVec 7) (l : BitVec 4) (w : BitVec 3) (c : BitVec 3) (ofs : BitVec 26)
  /-- LDS (R159). Loads from the scratchpad once the lines are present. -/
  | lds (d : BitVec 7) (b : BitVec 7) (l : BitVec 4) (w : BitVec 3) (k : Bool) (ofs : BitVec 26)
  /-- STS (R159). Stores to the scratchpad once the lines are present. -/
  | sts (d : BitVec 7) (b : BitVec 7) (l : BitVec 4) (w : BitVec 3) (k : Bool) (ofs : BitVec 26)
  /-- LDK (R161). Loads one value into a uniform, once per fibre. -/
  | ldk (d : BitVec 7) (b : BitVec 7) (l : BitVec 4) (w : BitVec 3) (o : BitVec 2) (c : BitVec 3) (ofs : BitVec 26)
  /-- LD6 (R162). Loads a packed 6-bit block of 12 bytes into three registers. -/
  | ld6 (d : BitVec 7) (b : BitVec 7) (l : BitVec 4) (o : BitVec 2) (c : BitVec 3) (ofs : BitVec 26)
  /-- ATOM (R164). Performs a 32-bit atomic at the home and returns the old value. -/
  | atom (d : BitVec 7) (b : BitVec 7) (l : BitVec 4) (w : BitVec 3) (o : BitVec 2) (x : Bool) (s : BitVec 2) (ofs : BitVec 26)
  /-- ATOM_64 (R164). Performs a 64-bit atomic at the home and returns the old value. -/
  | atom64 (d : BitVec 7) (b : BitVec 7) (l : BitVec 4) (w : BitVec 3) (o : BitVec 2) (x : Bool) (s : BitVec 2) (ofs : BitVec 26)
  /-- ATOMP (R165). Performs a packed value-and-index max or min at the home. -/
  | atomp (d : BitVec 7) (b : BitVec 7) (l : BitVec 4) (m : Bool) (o : BitVec 2) (s : BitVec 2) (ofs : BitVec 26)
  /-- RED (R166). Performs an atomic reduction at the home without returning a value. -/
  | red (d : BitVec 7) (b : BitVec 7) (l : BitVec 4) (w : BitVec 3) (z : Bool) (r : Bool) (x : Bool) (s : BitVec 2) (ofs : BitVec 26)
  /-- LDFUT (R170). Reads a future granule, is held until it is filled, or is refused with p14. -/
  | ldfut (d : BitVec 7) (b : BitVec 7) (l : BitVec 4) (w : Bool) (ofs : BitVec 26)
  /-- STFUT (R171). Releases, fills a future granule and answers its held requests. -/
  | stfut (d : BitVec 7) (b : BitVec 7) (l : BitVec 4) (w : Bool) (ofs : BitVec 26)
  /-- STG (R228). Appends a staged store to the task's staging area, or stores outside a task. -/
  | stg (d : BitVec 7) (b : BitVec 7) (l : BitVec 4) (w : BitVec 3) (ofs : BitVec 26)
  /-- QPUSH (R175). Waits for room, then appends the active lanes' values to a channel queue. -/
  | qpush (q : BitVec 3) (a : BitVec 7)
  /-- QPOP (R175). Waits for enough elements, then removes one per active lane. -/
  | qpop (d : BitVec 7) (q : BitVec 3)
  /-- QLEN (R175). Writes a queue's occupancy to a uniform. -/
  | qlen (d : BitVec 7) (q : BitVec 3)
  /-- FENCE (R179). Performs an acquire, a release or both at a scope. -/
  | fence (p : BitVec 3) (k : BitVec 2) (l : BitVec 4)
  /-- ACQR (R180). Sends a drain probe to a line's last writer, then acquires at device scope. -/
  | acqr (s : BitVec 7) (l : BitVec 4)
  /-- CINV (R181). Invalidates every line of the core's L1. -/
  | cinv (l : BitVec 4)
  /-- PREF (R182). Prefetches a line into L2, or into L2 and L1. -/
  | pref (s : BitVec 7) (v : Bool) (l : BitVec 4)
  /-- ALLOC (R183). Bumps a heap descriptor at its home and returns the address. -/
  | alloc (s : BitVec 7) (d : BitVec 7) (l : BitVec 4)
  /-- SIG (R184). Releases and then adds to or writes a timeline counter. -/
  | sig (s : BitVec 7) (l : BitVec 4)
  /-- CWAIT (R185). Waits until an engine counter falls to n, optionally with an acquire. -/
  | cwait (c : BitVec 2) (q : Bool) (n : BitVec 6) (l : BitVec 4)
  /-- SPRES (R186). Writes a 64-line presence mask to a uniform. -/
  | spres (s : BitVec 7) (d : BitVec 7) (l : BitVec 4)
  /-- GATH (R167). Gathers up to eight indexed elements per lane from L2. -/
  | gath (s : BitVec 7) (d : BitVec 7) (l : BitVec 4)
  /-- TLD (R193). Hands rows of memory or scratchpad into a tile to the engine. -/
  | tld (s : BitVec 7) (l : BitVec 4)
  /-- TST (R193). Hands a tile's rows to the engine to store to memory. -/
  | tst (s : BitVec 7) (l : BitVec 4)
  /-- TZERO (R195). Zeroes a tile register. -/
  | tzero (t : BitVec 5) (l : BitVec 4)
  /-- MMA (R198). Hands a tile matrix product, optionally sparse and scaled, into an accumulator to the engine. -/
  | mma (s : BitVec 7) (l : BitVec 4)
  /-- MMAJ (R200). Joins a cluster-wide matrix product that starts when all four members have issued. -/
  | mmaj (s : BitVec 7) (l : BitVec 4)
  /-- ALD (R202). Loads a rectangle of an accumulator from memory. -/
  | ald (s : BitVec 7) (l : BitVec 4)
  /-- AST (R202). Stores a rectangle of an accumulator to memory. -/
  | ast (s : BitVec 7) (l : BitVec 4)
  /-- AQ (R204). Quantises accumulator rows into a packed tile with block scales. -/
  | aq (s : BitVec 7) (l : BitVec 4)
  /-- AZERO (R195). Zeroes an accumulator. -/
  | azero (a : BitVec 5) (l : BitVec 4)
  /-- CPY (R205). Starts a tensor copy into a scratchpad, clearing presence and counting bytes on a barrier. -/
  | cpy (s : BitVec 7) (b : BitVec 7) (l : BitVec 4)
  /-- CPYT (R205). Starts a tensor copy into a tile. -/
  | cpyt (s : BitVec 7) (b : BitVec 7) (l : BitVec 4)
  /-- BARR (R210). Arrives at a named barrier after a core-scope release. -/
  | barr (b : BitVec 7) (l : BitVec 4)
  /-- BEXP (R210). Adds expected bytes and arrivals to a named barrier. -/
  | bexp (s : BitVec 7) (b : BitVec 7) (l : BitVec 4)
  /-- BWAIT (R211). Waits for a barrier phase flip, then acquires at core scope. -/
  | bwait (b : BitVec 7) (l : BitVec 4)
  /-- BTRY (R211). Tests a barrier phase without blocking and writes p14. -/
  | btry (b : BitVec 7) (l : BitVec 4)
  /-- SSLD (R214). Copies a state-store entry's live state into an accumulator quadrant. -/
  | ssld (s : BitVec 7) (l : BitVec 4)
  /-- SSST (R214). Copies an accumulator quadrant into an entry's live state, creating the entry. -/
  | ssst (s : BitVec 7) (l : BitVec 4)
  /-- SSNAP (R215). Snapshots the live state into the ring under a token position. -/
  | ssnap (s : BitVec 7) (l : BitVec 4)
  /-- SSRB (R216). Rolls the live state back to a snapshot and writes p14. -/
  | ssrb (s : BitVec 7) (l : BitVec 4)
  /-- SSCOPY (R217). Copies an entry's live state and ring to another sequence slot. -/
  | sscopy (s : BitVec 7) (l : BitVec 4)
  /-- SSQRY (R217). Writes an entry's ring description into five uniforms. -/
  | ssqry (s : BitVec 7) (d : BitVec 7) (l : BitVec 4)
  /-- SSFREE (R217). Releases a state-store entry. -/
  | ssfree (s : BitVec 7) (l : BitVec 4)
  /-- TKSPAWN (R227). Places, or stages inside a task, a copy of a task record in the pool. -/
  | tkspawn (s : BitVec 7) (l : BitVec 4)
  /-- TKEND (R231). Retires the active lanes as EXIT and marks the task for commit. -/
  | tkend (l : BitVec 4)
  /-- TKSPLIT (R236). Unpicks the issuing task as a trigger does unless it would be parked. -/
  | tksplit (l : BitVec 4)
  /-- TKINFO (R226). Writes a word of the running task record or a task count to a uniform. -/
  | tkinfo (s : BitVec 7) (d : BitVec 7) (l : BitVec 4)
  /-- SALLOC (R230). Sets the presence bits of a scratchpad range. -/
  | salloc (s : BitVec 7) (l : BitVec 4)
  /-- SFREE (R230). Clears the presence bits of a scratchpad range. -/
  | sfree (s : BitVec 7) (l : BitVec 4)
  /-- FPQRY (R238). Queries a footprint record into a uniform. -/
  | fpqry (s : BitVec 7) (d : BitVec 7) (l : BitVec 4)
  /-- FPDON (R239). Copies a footprint record to a destination record. -/
  | fpdon (s : BitVec 7) (l : BitVec 4)
  /-- FPVOID (R238). Sets a footprint record to VOID with perm 0. -/
  | fpvoid (s : BitVec 7) (l : BitVec 4)
  /-- SUCC (R241). Marks the workgroup so that the next launch may become resident. -/
  | succ (l : BitVec 4)
  /-- WPRED (R242). Waits for every earlier launch of the stream to complete, then acquires. -/
  | wpred (l : BitVec 4)
  /-- SVC (R244). Releases, writes request entries to the host ring and parks the calling lanes. -/
  | svc (s : BitVec 7) (x : BitVec 7)
  /-- BRK (R247). Parks the active lanes at the BRK and reports to the debugger. -/
  | brk (c : BitVec 7) (l : BitVec 4)
  /-- TRAP (R247). Parks the active lanes after the TRAP and reports to the handler. -/
  | trap (c : BitVec 7) (l : BitVec 4)
  /-- RDSR_VECTOR (R248). Reads a special register into a vector register. -/
  | rdsrVector (d : BitVec 7) (x : BitVec 7)
  /-- RDSR_UNIFORM (R248). Reads a special register into a uniform. -/
  | rdsrUniform (d : BitVec 7) (x : BitVec 7)
  /-- WRSR (R249). Writes role, fpctl or fpstat from a uniform. -/
  | wrsr (s : BitVec 7) (x : BitVec 7)
  /-- SLEEP (R250). Blocks the fibre for a number of clocks. -/
  | sleep (s : BitVec 7) (l : BitVec 4)
  /-- SLEEP_EXPIRE (R250). Event: The sleep count runs out and the fibre becomes ready. -/
  | sleepExpire (f : Nat)
  /-- LOAD_DATA_ARRIVAL (R152). Event: A lane's load data returns and lands, or raises the data-check fault. -/
  | loadDataArrival (f : Nat) (p : Nat)
  /-- WRITE_ACKNOWLEDGE (R266). Event: A write is performed at its home and acknowledged, letting waiting releases proceed. -/
  | writeAcknowledge (c : Nat) (i : Nat)
  /-- RED_PERFORMED (R166). Event: A RED is performed at its home and cnt.coll falls. -/
  | redPerformed (c : Nat) (i : Nat)
  /-- TRANSLATION_WALK_DONE (R349). Event: A page-table walk completes and waiting accesses issue or fault. -/
  | translationWalkDone (c : Nat) (i : Nat)
  /-- COPY_SECTOR_ARRIVAL (R206). Event: A copy sector is written, counted on the barrier and the line made present. -/
  | copySectorArrival (c : Nat) (i : Nat) (n : Nat)
  /-- ENGINE_OP_COMPLETE (R189). Event: An engine operation completes and its class counter falls. -/
  | engineOpComplete (c : Nat) (i : Nat)
  /-- BARRIER_BYTE_EVALUATION (R209). Event: A barrier is evaluated in the cycle after bytes arrive and may release. -/
  | barrierByteEvaluation (c : Nat) (b : Nat)
  /-- WORKGROUP_END (R389). Event: A workgroup's fibres have exited and its operations are performed; its resources are freed. -/
  | workgroupEnd (w : Nat)
  /-- OFFCORE_MOVE (R385). Event: A fibre parked by SVC is written to its off-core image and frees its slot position. -/
  | offcoreMove (f : Nat)
  /-- OFFCORE_RETURN (R385). Event: An off-core fibre returns to its core when its replies are in and a place is free. -/
  | offcoreReturn (f : Nat)
  /-- SVC_REPLY (R246). Event: A host reply entry is accepted or rejected and may resume the call's lanes. -/
  | svcReply (p : Nat)
  /-- SVC_REPLY_TAIL_WRITE (R381). Event: The host writes the reply ring's tail, and the device reads the new entries. -/
  | svcReplyTailWrite (p : Nat) (tail : Word64)
  /-- LAUNCH (R296). Event: A LAUNCH packet runs one kernel over a grid. -/
  | launch (q : Nat)
  /-- GRAPH_LOAD (R303). Event: Copies and checks a graph image into a graph slot. -/
  | graphLoad (q : Nat)
  /-- GRAPH_RUN (R303). Event: Executes a loaded graph in the queue's stream. -/
  | graphRun (q : Nat)
  /-- GRAPH_UNLOAD (R303). Event: Frees a graph slot. -/
  | graphUnload (q : Nat)
  /-- GRAPH_NODE (R305). Event: A graph run executes its next node after any wait for confirmation. -/
  | graphNode (g : Nat)
  /-- TASKS (R306). Event: Checks and places an array of task records in the pool. -/
  | tasks (q : Nat)
  /-- WAIT (R300). Event: Compares a timeline counter with a threshold and parks the queue if below. -/
  | wait (q : Nat)
  /-- SIGNAL_ADD (R301). Event: Releases and adds a value to a timeline counter. -/
  | signalAdd (q : Nat)
  /-- SIGNAL_WRITE (R301). Event: Releases and writes a value to a timeline counter. -/
  | signalWrite (q : Nat)
  /-- LGIVE (R302). Event: Adds tokens to a queue link. -/
  | lgive (q : Nat)
  /-- LTAKE (R302). Event: Takes tokens from a queue link or parks the queue until they are there. -/
  | ltake (q : Nat)
  /-- FOOTPRINT_QUERY (R308). Event: Writes a footprint record image to memory. -/
  | footprintQuery (q : Nat)
  /-- FOOTPRINT_VOID (R308). Event: Voids a footprint record as FPVOID does. -/
  | footprintVoid (q : Nat)
  /-- FOOTPRINT_DONATE (R308). Event: Donates a footprint record as FPDON does. -/
  | footprintDonate (q : Nat)
  /-- FOOTPRINT_RESET_ALL (R308). Event: Sets every footprint record of the context to EMPTY. -/
  | footprintResetAll (q : Nat)
  /-- COPY (R309). Event: Drives a hub-die system copy and writes a completion record and signal. -/
  | copy (q : Nat)
  /-- MARKER (R311). Event: Writes the queue, ring index and hub timestamp to an address. -/
  | marker (q : Nat)
  /-- DOORBELL (R291). Event: A write of a queue's write index makes packets pending or puts the queue in error. -/
  | doorbell (q : Nat) (wi : Word)
  /-- QUEUE_ENABLE (R295). Event: Enabling a queue clears its error and makes it idle or runnable. -/
  | queueEnable (q : Nat)
  /-- QUEUE_DISABLE (R295). Event: Disabling a queue puts it in state 5. -/
  | queueDisable (q : Nat)
  /-- QUEUE_MAP (R292). Event: The scheduler maps a runnable queue to a free hardware queue slot. -/
  | queueMap (q : Nat)
  /-- QUEUE_QUANTUM_EXPIRY (R292). Event: A mapped queue's quantum runs out and it may lose its slot at its next packet boundary. -/
  | queueQuantumExpiry (q : Nat)
  /-- LAUNCH_ADMISSION (R327). Event: A launch reaches the head of its stream, its record is read and early start is tested. -/
  | launchAdmission (l : Nat)
  /-- WORKGROUP_DISPATCH (R298). Event: A workgroup is placed on a core with free resources and starts. -/
  | workgroupDispatch (l : Nat) (c : Nat)
  /-- LAUNCH_CONFIRM (R328). Event: A launch's completion is confirmed, its learning compacted and its signal applied. -/
  | launchConfirm (l : Nat)
  /-- DARNING_START (R335). Event: A launch marked for darning discards its first run and runs again in full. -/
  | darningStart (l : Nat)
  /-- TASK_DISPATCH (R225). Event: A task is taken from the pool and started on one workgroup, or parked. -/
  | taskDispatch (p : Nat) (c : Nat)
  /-- TASK_COMMIT (R231). Event: A finished task drains its staging area, applies SIGs, places records and decrements its counter. -/
  | taskCommit (w : Nat)
  /-- TASK_TIME_EXPIRY (R232). Event: A task's time count reaches its allowance and triggers unpicking. -/
  | taskTimeExpiry (w : Nat)
  /-- TASK_UNPICK (R232). Event: A triggered task stops, waits for its operations and discards its staged results. -/
  | taskUnpick (w : Nat)
  /-- BATCH_ITERATION (R313). Event: The batch core snapshots the table and issues the template launch. -/
  | batchIteration (p : Nat)
  /-- BATCH_COMMIT (R314). Event: After the launch confirms, each included entry is committed or held. -/
  | batchCommit (p : Nat)
  /-- ROLE_MONITOR_WINDOW (R317). Event: At the end of a window the role monitor may flip one fibre's role. -/
  | roleMonitorWindow (c : Nat) (t : Nat)
  /-- FORWARD_PROGRESS_SWAP (R318). Event: After N idle clocks a workgroup is swapped out to admit a waiting one. -/
  | forwardProgressSwap (c : Nat)
  /-- SWAP_READMIT (R318). Event: A swapped workgroup is readmitted ahead of new work when a core can hold it. -/
  | swapReadmit (w : Nat) (c : Nat)
  /-- SERVICE_REPLAY (R340). Event: A service entry replays the named lanes. -/
  | serviceReplay (p : Nat)
  /-- SERVICE_SKIP (R346). Event: A service entry resumes the named lanes at a given address without replay. -/
  | serviceSkip (p : Nat)
  /-- SERVICE_END_LANES (R346). Event: A service entry makes the named lanes exit. -/
  | serviceEndLanes (p : Nat)
  /-- SERVICE_EXTRACT (R346). Event: A service entry saves the fibre off-core to an image. -/
  | serviceExtract (p : Nat)
  /-- SERVICE_RESTORE (R347). Event: A service entry restores an extracted fibre from its image. -/
  | serviceRestore (p : Nat)
  /-- SERVICE_REPLAY_SECTORS (R346). Event: A service entry makes an engine deliver its sectors still due or retries a counter access. -/
  | serviceReplaySectors (p : Nat)
  /-- SERVICE_END_WORKGROUP (R346). Event: A service entry ends the workgroup and fails its launch. -/
  | serviceEndWorkgroup (p : Nat)
  /-- SERVICE_RESPAWN (R346). Event: A service entry replaces a parked task with a checked record. -/
  | serviceRespawn (p : Nat)
  /-- SERVICE_DISCARD (R346). Event: A service entry removes a parked task, optionally decrementing its counter. -/
  | serviceDiscard (p : Nat)
  /-- SERVICE_END_CONTEXT (R346). Event: A service entry ends the context as its teardown does. -/
  | serviceEndContext (p : Nat)
  /-- PAGE_REQUEST_RESPONSE (R349). Event: A PRI response replays waiting lanes and sectors or writes a sub 4 record. -/
  | pageRequestResponse (p : Nat) (prg : Nat) (ok : Bool)
  /-- ATS_INVALIDATION (R351). Event: A host ATS invalidation request removes cached translations and is answered. -/
  | atsInvalidation (p : Nat) (lo : Nat) (hi : Nat)
  /-- TRANSLATION_INVALIDATE (R351). Event: System software invalidates a PASID address range, writing back and unlocking on a home change. -/
  | translationInvalidate (p : Nat) (lo : Nat) (hi : Nat)
  /-- RING_DESCRIPTOR_WRITE (R310). Event: System software rewrites a faulting ring's descriptor and the device tries again. -/
  | ringDescriptorWrite (p : Nat) (r : Nat) (base : Word64) (size : Word)
  /-- HANG_WATCHDOG_EXPIRY (R356). Event: A queue slot's hang watchdog expires; its contexts are pre-empted and the queue errs. -/
  | hangWatchdogExpiry (q : Nat)
  /-- SAVE_WATCHDOG_EXPIRY (R357). Event: A context save's watchdog expires; the context is lost and its cores reset. -/
  | saveWatchdogExpiry (p : Nat)
  /-- PREEMPT_PASID (R353). Event: Mailbox command that pre-empts a context and saves its images. -/
  | preemptPasid (p : Nat)
  /-- RESUME_PASID (R355). Event: Mailbox command that restores and resumes a context. -/
  | resumePasid (p : Nat)
  /-- SEIZE_POD (R366). Event: Mailbox command that checks a signed seize request and starts the press. -/
  | seizePod (pod : Nat) (nonce : Word64) (sig : Nat)
  /-- RELEASE_POD (R360). Event: Mailbox command that restores frozen contexts in the order they were pressed. -/
  | releasePod 
  /-- DISCARD_FROZEN (R360). Event: Mailbox command that discards a frozen context with a valid consent record. -/
  | discardFrozen (p : Nat) (consent : Nat)
  /-- TEARDOWN_PASID (R352). Event: Mailbox command that tears down a PASID in order. -/
  | teardownPasid (p : Nat)
  /-- READ_SENSORS (R370). Event: Mailbox command that returns sensor readings. -/
  | readSensors 
  /-- READ_EVENT_LOG (R371). Event: Mailbox command that returns or restores the event log from an index. -/
  | readEventLog (idx : Nat) (restore : Bool)
  /-- STAGE_IMAGE (R372). Event: Mailbox command that stages a firmware image into the inactive bank. -/
  | stageImage (kind : Nat) (version : Nat) (rollback : Nat) (sig : Nat)
  /-- ACTIVATE_IMAGE (R372). Event: Mailbox command that activates a verified staged image. -/
  | activateImage (kind : Nat)
  /-- SEIZE_REQUEST_MESSAGE (R366). Event: A seize request arriving over VC3 or MCTP is checked and presses the module once. -/
  | seizeRequestMessage (pod : Nat) (nonce : Word64) (sig : Nat)
  /-- EGRESS_LOCK (R364). Event: Setting the lock bit fixes the host-write egress windows. -/
  | egressLock 
  /-- HOST_COUNTER_WRITE (R363). Event: A host write to a timeline counter through BAR0 is applied or refused. -/
  | hostCounterWrite (pf : Bool) (i : Nat) (v : Word64)
  /-- REGISTER_WRITE (R362). Event: A write to any other BAR0 register field takes effect as its layout gives. -/
  | registerWrite (vf : Nat) (off : Nat) (v : Word64)
  /-- FUNCTION_LEVEL_RESET (R364). Event: A function-level reset of PF0 unlocks the egress windows. -/
  | functionLevelReset 
  /-- HOST_POSTED_WRITE (R284). Event: A host posted write is performed at its home in port arrival order. -/
  | hostPostedWrite (port : Nat) (a : Nat) (data : List Byte)
  /-- HOST_ATOMIC_OP (R361). Event: A PCIe AtomicOp from the host is completed at the device's home. -/
  | hostAtomicOp (op : Nat) (wide : Bool) (a : Nat) (x : Word64) (y : Word64)
  /-- GET_VERSION (R372). Event: SPDM request answered with the supported version. -/
  | getVersion 
  /-- GET_CAPABILITIES (R372). Event: SPDM request answered with the device's capabilities. -/
  | getCapabilities 
  /-- NEGOTIATE_ALGORITHMS (R372). Event: SPDM request that settles on ECDSA P-521 with SHA-512. -/
  | negotiateAlgorithms (offer : Nat)
  /-- GET_DIGESTS (R372). Event: SPDM request answered with certificate digests. -/
  | getDigests 
  /-- GET_CERTIFICATE (R372). Event: SPDM request answered with the certificate chain. -/
  | getCertificate (off : Nat) (len : Nat)
  /-- CHALLENGE (R372). Event: SPDM challenge answered with a signed response. -/
  | challenge (nonce : Nat)
  /-- GET_MEASUREMENTS (R372). Event: SPDM request answered with the measurement blocks. -/
  | getMeasurements (idx : Nat)
  /-- MCTP_SENSOR_READ (R370). Event: A sensor read over MCTP is answered. -/
  | mctpSensorRead (smbus : Bool)
  /-- FABRIC_FLIT (R367). Event: A fabric flit is received, checked and its messages taken, or refused and resent. -/
  | fabricFlit (link : Nat) (flit : List Byte)
  /-- LINK_SILENCE_TIMEOUT (R369). Event: A link sees no flit for 20 ms and goes down. -/
  | linkSilenceTimeout (link : Nat)
  /-- IDLE_FLIT_TIMER (R369). Event: An idle flit is sent on a link every microsecond. -/
  | idleFlitTimer (link : Nat)
  /-- PEER_HEARTBEAT_TIMEOUT (R369). Event: A peer misses its VC3 heartbeat for 50 ms and is declared hung. -/
  | peerHeartbeatTimeout (m : Nat)
  /-- LINK_EVENT_BROADCAST (R369). Event: A link or peer loss broadcast on VC3 updates routes and presses affected contexts. -/
  | linkEventBroadcast (m : Nat) (link : Nat) (hung : Bool)
  /-- CP_HEARTBEAT_TIMEOUT (R289). Event: The active command processor misses its heartbeat for 10 ms and the standby takes over. -/
  | cpHeartbeatTimeout 
  /-- CP_TAKEOVER (R289). Event: The standby complex takes over at a quiescent packet boundary. -/
  | cpTakeover 
  /-- SENSOR_SAMPLE (R370). Event: The management core samples every sensor each millisecond. -/
  | sensorSample (vals : List Nat)
  /-- POWER_LIMIT_EXCESS (R373). Event: Module power exceeds its limit and the limiter lowers the clock. -/
  | powerLimitExcess 
  /-- THERMAL_TRIP (R373). Event: Junction temperature reaches 110 C and core power is removed. -/
  | thermalTrip 
  /-- SCRUB (R271). Event: The base die scrubs every sector once in 24 hours. -/
  | scrub (sector : Nat) (ecc : Nat)
  /-- POWER_ON (R374). Event: The device tests itself and enters normal or safe state. -/
  | powerOn (failed : Nat)
  /-- DEVICE_RESET (R271). Event: A device reset clears counters and sideband and scrubs memory. -/
  | deviceReset 
  /-- MANAGEMENT_CORE_RESET (R372). Event: A reset of the management core alone takes up a new management image. -/
  | managementCoreReset 
  /-- ILLEGAL_INSTRUCTION (R68). Event: A fibre issues a word sequence the opcode map does not assign, such as major 0x0F or 0xFFFF_FFFF, and takes the precise illegal-instruction fault at decode. -/
  | illegalInstruction 
  /-- INSTRUCTION_FETCH_FAULT (R99). Event: A lane fetches at a non-canonical or unmapped target, or past a kernel's last word, and becomes a fault-parked entry with replay and resume both at the target. -/
  | instructionFetchFault 
  /-- L1_SECTOR_EVICTION (R262). Event: The L1 evicts a valid sector at a moment of its own, ending the life of a stale copy that weak loads could return. -/
  | l1SectorEviction (c : Nat) (sector : Nat)
  /-- ATS_TRANSLATION_COMPLETION (R349). Event: A PCIe ATS translation completion for a host page returns, letting waiting accesses proceed, or reports the page absent so that a PRI page request is sent. -/
  | atsTranslationCompletion (c : Nat) (p : Nat) (vpn : Nat) (present : Bool) (frame : Nat)
  /-- ECC_ERROR (R276). Event: An SRAM word of a core or the L2 suffers a bit error, which is later corrected and counted or, if uncorrectable, causes invalidation, poison or a data-check fault. -/
  | eccError (unit : Nat) (c : Nat) (k : Nat) (correctable : Bool)
  /-- POWER_LOSS (R372). Event: Module power is lost, abandoning any staging operation so that the active flash bank stays in use. -/
  | powerLoss 
deriving DecidableEq, Repr

namespace Instr

/-- The constructor is an event of the device and no instruction of a program. -/
def isEvent : Instr → Bool
  | .add _ _ _ _ _ => false
  | .addc _ _ _ _ _ => false
  | .sub _ _ _ _ _ => false
  | .subb _ _ _ _ _ => false
  | .mul _ _ _ _ _ => false
  | .mulhiI _ _ _ _ _ => false
  | .mulhiN _ _ _ _ _ => false
  | .mad _ _ _ _ _ => false
  | .madWI _ _ _ _ => false
  | .madWN _ _ _ _ => false
  | .divI _ _ _ _ _ => false
  | .divN _ _ _ _ _ => false
  | .remI _ _ _ _ _ => false
  | .remN _ _ _ _ _ => false
  | .add64 _ _ _ _ => false
  | .sub64 _ _ _ _ => false
  | .and _ _ _ _ _ => false
  | .or _ _ _ _ _ => false
  | .xor _ _ _ _ _ => false
  | .andn _ _ _ _ _ => false
  | .shl _ _ _ _ _ => false
  | .shr _ _ _ _ _ => false
  | .sar _ _ _ _ _ => false
  | .rotl _ _ _ _ _ => false
  | .popc _ _ _ _ => false
  | .clz _ _ _ _ => false
  | .brev _ _ _ _ => false
  | .minI _ _ _ _ _ => false
  | .minN _ _ _ _ _ => false
  | .maxI _ _ _ _ _ => false
  | .maxN _ _ _ _ _ => false
  | .abs _ _ _ _ => false
  | .bfxI _ _ _ _ _ => false
  | .bfxN _ _ _ _ _ => false
  | .bfi _ _ _ _ _ => false
  | .prmt _ _ _ _ _ => false
  | .mov _ _ _ _ => false
  | .lea1 _ _ _ _ _ => false
  | .lea2 _ _ _ _ _ => false
  | .lea4 _ _ _ _ _ => false
  | .lea8 _ _ _ _ _ => false
  | .addImm _ _ _ _ => false
  | .movi _ _ _ => false
  | .shlImm _ _ _ _ => false
  | .shrImm _ _ _ _ => false
  | .sarImm _ _ _ _ => false
  | .rotlImm _ _ _ _ => false
  | .icvt _ _ _ _ _ _ => false
  | .sel _ _ _ _ _ => false
  | .setp _ _ _ _ _ _ => false
  | .pand _ _ _ => false
  | .por _ _ _ => false
  | .pxor _ _ _ => false
  | .pnot _ _ => false
  | .pmov _ _ => false
  | .shfl _ _ _ _ _ => false
  | .qswap _ _ _ => false
  | .voteAll _ _ => false
  | .voteAny _ _ => false
  | .voteBallot _ _ => false
  | .redux _ _ _ => false
  | .rdlane _ _ _ => false
  | .wrlane _ _ _ => false
  | .br _ _ _ _ => false
  | .jmp _ _ _ _ => false
  | .call _ _ _ => false
  | .brx _ _ => false
  | .ret _ _ => false
  | .exit => false
  | .nop => false
  | .fsw => false
  | .fbar => false
  | .jen _ => false
  | .jwt _ => false
  | .jstr _ => false
  | .wbase _ => false
  | .grow _ => false
  | .shrink _ => false
  | .fadd _ _ _ _ _ _ => false
  | .fsub _ _ _ _ _ _ => false
  | .fmul _ _ _ _ _ _ => false
  | .fma _ _ _ _ _ _ => false
  | .fmin _ _ _ _ _ _ => false
  | .fmax _ _ _ _ _ _ => false
  | .fdiv _ _ _ _ _ _ => false
  | .frcp _ _ _ _ => false
  | .frsq _ _ => false
  | .fsqrt _ _ _ _ => false
  | .fexp2 _ _ => false
  | .flog2 _ _ => false
  | .fsinpi _ _ => false
  | .fcospi _ _ => false
  | .fclass _ _ _ _ => false
  | .frnd _ _ _ _ _ => false
  | .fsetp _ _ _ _ _ _ => false
  | .fcvt _ _ _ _ _ _ => false
  | .dot4 _ _ _ _ _ => false
  | .dot8 _ _ _ _ _ => false
  | .wring _ _ _ _ => false
  | .scl _ _ _ _ => false
  | .qnt _ _ _ _ _ => false
  | .dqnt _ _ _ _ => false
  | .p6x _ _ _ => false
  | .ld _ _ _ _ _ _ _ => false
  | .ldacq _ _ _ _ _ _ => false
  | .st _ _ _ _ _ _ _ => false
  | .strel _ _ _ _ _ _ => false
  | .lds _ _ _ _ _ _ => false
  | .sts _ _ _ _ _ _ => false
  | .ldk _ _ _ _ _ _ _ => false
  | .ld6 _ _ _ _ _ _ => false
  | .atom _ _ _ _ _ _ _ _ => false
  | .atom64 _ _ _ _ _ _ _ _ => false
  | .atomp _ _ _ _ _ _ _ => false
  | .red _ _ _ _ _ _ _ _ _ => false
  | .ldfut _ _ _ _ _ => false
  | .stfut _ _ _ _ _ => false
  | .stg _ _ _ _ _ => false
  | .qpush _ _ => false
  | .qpop _ _ => false
  | .qlen _ _ => false
  | .fence _ _ _ => false
  | .acqr _ _ => false
  | .cinv _ => false
  | .pref _ _ _ => false
  | .alloc _ _ _ => false
  | .sig _ _ => false
  | .cwait _ _ _ _ => false
  | .spres _ _ _ => false
  | .gath _ _ _ => false
  | .tld _ _ => false
  | .tst _ _ => false
  | .tzero _ _ => false
  | .mma _ _ => false
  | .mmaj _ _ => false
  | .ald _ _ => false
  | .ast _ _ => false
  | .aq _ _ => false
  | .azero _ _ => false
  | .cpy _ _ _ => false
  | .cpyt _ _ _ => false
  | .barr _ _ => false
  | .bexp _ _ _ => false
  | .bwait _ _ => false
  | .btry _ _ => false
  | .ssld _ _ => false
  | .ssst _ _ => false
  | .ssnap _ _ => false
  | .ssrb _ _ => false
  | .sscopy _ _ => false
  | .ssqry _ _ _ => false
  | .ssfree _ _ => false
  | .tkspawn _ _ => false
  | .tkend _ => false
  | .tksplit _ => false
  | .tkinfo _ _ _ => false
  | .salloc _ _ => false
  | .sfree _ _ => false
  | .fpqry _ _ _ => false
  | .fpdon _ _ => false
  | .fpvoid _ _ => false
  | .succ _ => false
  | .wpred _ => false
  | .svc _ _ => false
  | .brk _ _ => false
  | .trap _ _ => false
  | .rdsrVector _ _ => false
  | .rdsrUniform _ _ => false
  | .wrsr _ _ => false
  | .sleep _ _ => false
  | .sleepExpire _ => true
  | .loadDataArrival _ _ => true
  | .writeAcknowledge _ _ => true
  | .redPerformed _ _ => true
  | .translationWalkDone _ _ => true
  | .copySectorArrival _ _ _ => true
  | .engineOpComplete _ _ => true
  | .barrierByteEvaluation _ _ => true
  | .workgroupEnd _ => true
  | .offcoreMove _ => true
  | .offcoreReturn _ => true
  | .svcReply _ => true
  | .svcReplyTailWrite _ _ => true
  | .launch _ => true
  | .graphLoad _ => true
  | .graphRun _ => true
  | .graphUnload _ => true
  | .graphNode _ => true
  | .tasks _ => true
  | .wait _ => true
  | .signalAdd _ => true
  | .signalWrite _ => true
  | .lgive _ => true
  | .ltake _ => true
  | .footprintQuery _ => true
  | .footprintVoid _ => true
  | .footprintDonate _ => true
  | .footprintResetAll _ => true
  | .copy _ => true
  | .marker _ => true
  | .doorbell _ _ => true
  | .queueEnable _ => true
  | .queueDisable _ => true
  | .queueMap _ => true
  | .queueQuantumExpiry _ => true
  | .launchAdmission _ => true
  | .workgroupDispatch _ _ => true
  | .launchConfirm _ => true
  | .darningStart _ => true
  | .taskDispatch _ _ => true
  | .taskCommit _ => true
  | .taskTimeExpiry _ => true
  | .taskUnpick _ => true
  | .batchIteration _ => true
  | .batchCommit _ => true
  | .roleMonitorWindow _ _ => true
  | .forwardProgressSwap _ => true
  | .swapReadmit _ _ => true
  | .serviceReplay _ => true
  | .serviceSkip _ => true
  | .serviceEndLanes _ => true
  | .serviceExtract _ => true
  | .serviceRestore _ => true
  | .serviceReplaySectors _ => true
  | .serviceEndWorkgroup _ => true
  | .serviceRespawn _ => true
  | .serviceDiscard _ => true
  | .serviceEndContext _ => true
  | .pageRequestResponse _ _ _ => true
  | .atsInvalidation _ _ _ => true
  | .translationInvalidate _ _ _ => true
  | .ringDescriptorWrite _ _ _ _ => true
  | .hangWatchdogExpiry _ => true
  | .saveWatchdogExpiry _ => true
  | .preemptPasid _ => true
  | .resumePasid _ => true
  | .seizePod _ _ _ => true
  | .seizeRequestMessage _ _ _ => true
  | .releasePod => true
  | .discardFrozen _ _ => true
  | .teardownPasid _ => true
  | .readSensors => true
  | .readEventLog _ _ => true
  | .stageImage _ _ _ _ => true
  | .activateImage _ => true
  | .egressLock => true
  | .hostCounterWrite _ _ _ => true
  | .registerWrite _ _ _ => true
  | .functionLevelReset => true
  | .hostPostedWrite _ _ _ => true
  | .hostAtomicOp _ _ _ _ _ => true
  | .getVersion => true
  | .getCapabilities => true
  | .negotiateAlgorithms _ => true
  | .getDigests => true
  | .getCertificate _ _ => true
  | .challenge _ => true
  | .getMeasurements _ => true
  | .mctpSensorRead _ => true
  | .fabricFlit _ _ => true
  | .linkSilenceTimeout _ => true
  | .idleFlitTimer _ => true
  | .peerHeartbeatTimeout _ => true
  | .linkEventBroadcast _ _ _ => true
  | .cpHeartbeatTimeout => true
  | .cpTakeover => true
  | .sensorSample _ => true
  | .powerLimitExcess => true
  | .thermalTrip => true
  | .scrub _ _ => true
  | .powerOn _ => true
  | .deviceReset => true
  | .managementCoreReset => true
  | .illegalInstruction => false
  | .instructionFetchFault => false
  | .l1SectorEviction _ _ => true
  | .atsTranslationCompletion _ _ _ _ _ => true
  | .eccError _ _ _ _ => true
  | .powerLoss => true

end Instr

end Sys2Proof
end

