-- ==== Sys2Proof/WellFormed.lean ====
section
/-! DEFINITION. Which field values an instruction may hold: the illegal-instruction cases of R33, R47, R48 and R57 to
R68 that depend on the word alone. -/

namespace Sys2Proof

/-- A uniform source under an integer or bit type: a register, or one of the constants 64 and 65 (R33, R47). -/
def srcI (x : BitVec 7) : Bool := decide (x.toNat ≤ 65)

/-- A uniform source under a floating type: a register or a constant 64 to 69 (R33). -/
def srcF (x : BitVec 7) : Bool := decide (x.toNat ≤ 69)

/-- A uniform destination (R47). -/
def dstU (x : BitVec 7) : Bool := decide (x.toNat ≤ 63)

/-- A parameter block of `n` uniforms from `s` that stays within s63 (R189). -/
def blk (n : Nat) (s : BitVec 7) : Bool := decide (s.toNat + n ≤ 64)

/-- A group of registers aligned to `n` (R48). -/
def aligned (n : Nat) (x : BitVec 7) : Bool := decide (x.toNat % n = 0)

/-- The operands of a twin with sources a and b (R57): f[4] is 1 in the odd major, where every field is a uniform. -/
def twin (v : Bool) (d a b : BitVec 7) (u : Bool) : Bool :=
  if v then u && dstU d && srcI a && srcI b else !u || srcI b

/-- The operands of a unary twin (R57): f[4] is 0 in the even major and 1 in the odd one. -/
def twin1 (v : Bool) (d a : BitVec 7) (u : Bool) : Bool :=
  if v then u && dstU d && srcI a else !u

/-- Vector LEA has address pairs in d and a (R57). -/
def twinLea (v : Bool) (d a b : BitVec 7) (u : Bool) : Bool :=
  twin v d a b u && (v || (aligned 2 d && aligned 2 a))

/-- ADD64 and SUB64: pairs in d and a, b a pair or a uniform (R83). -/
def pairOps (d a b : BitVec 7) (u : Bool) : Bool :=
  aligned 2 d && aligned 2 a && (if u then srcI b else aligned 2 b)

/-- The operands of a floating-point function with sources a and b, type t (R48, R61, R127). -/
def fpOps (t : BitVec 2) (d a b : BitVec 7) (u : Bool) : Bool :=
  (t.toNat ≠ 1 || (aligned 2 d && aligned 2 a && (u || aligned 2 b))) && (!u || srcF b)

/-- The operands of a unary floating-point function that exists for .f32 and .f64 (R61). -/
def fpOps1 (t : BitVec 2) (d a : BitVec 7) : Bool :=
  decide (t.toNat ≤ 1) && (t.toNat ≠ 1 || (aligned 2 d && aligned 2 a))

/-- A data operand of width code w: a pair for b64, a group of four for b128 (R155). -/
def dataW (w : BitVec 3) (d : BitVec 7) : Bool :=
  if w.toNat = 3 then aligned 2 d else if w.toNat = 4 then aligned 4 d else true

/-- A width code a load accepts (R64). -/
def loadW (w : BitVec 3) : Bool := decide (w.toNat ≠ 7)

/-- A width code a store accepts (R64). -/
def storeW (w : BitVec 3) : Bool := decide (w.toNat ≤ 4)

/-- The registers of a block-scale group (R141): one for SCL, four or eight for QNT and DQNT. -/
def qGroup (f : BitVec 3) : Nat := if f.toNat = 4 then 8 else 4

/-- The scale register lies outside the group of d (R141). -/
def scaleOutside (n : Nat) (d a : BitVec 7) : Bool := decide (a.toNat < d.toNat ∨ d.toNat + n ≤ a.toNat)

/-- The atomic operation code of R65. -/
def atomCode (x : Bool) (w : BitVec 3) : Nat := x.toNat * 8 + w.toNat

/-- FCVT types that take a register pair (R137). -/
def cvtPair (t : BitVec 4) : Bool := decide (t.toNat = 0 ∨ t.toNat = 12 ∨ t.toNat = 13)

/-- ICVT types of 64 bits (R58). -/
def icvtPair (t : BitVec 4) : Bool := decide (t.toNat = 3 ∨ t.toNat = 7)

/-- The field values of an instruction are legal; an event is always well formed. An ICVT in its uniform form takes a constant 64 or 65 whatever its source type,
so that a type of 8 or 16 bits is no narrow or sub-word format here (DESIGN CHOICE, log 49: R33 leaves it open). -/
def WellFormed : Instr → Bool
  | .add v d a b u | .addc v d a b u | .sub v d a b u | .subb v d a b u | .mul v d a b u | .mulhiI v d a b u
  | .mulhiN v d a b u | .mad v d a b u | .divI v d a b u | .divN v d a b u | .remI v d a b u | .remN v d a b u
  | .and v d a b u | .or v d a b u | .xor v d a b u | .andn v d a b u | .shl v d a b u | .shr v d a b u
  | .sar v d a b u | .rotl v d a b u | .minI v d a b u | .minN v d a b u | .maxI v d a b u | .maxN v d a b u
  | .bfxI v d a b u | .bfxN v d a b u | .bfi v d a b u | .prmt v d a b u => twin v d a b u
  | .madWI d _ b u | .madWN d _ b u => aligned 2 d && (!u || srcI b)
  | .add64 d a b u | .sub64 d a b u => pairOps d a b u
  | .popc v d a u | .clz v d a u | .brev v d a u | .abs v d a u => twin1 v d a u
  | .mov v d b u => if v then u && dstU d && srcI b else !u || srcI b
  | .lea1 v d a b u | .lea2 v d a b u | .lea4 v d a b u | .lea8 v d a b u => twinLea v d a b u
  | .addImm v d a _ => !v || (dstU d && srcI a)
  | .movi v d _ => !v || dstU d
  | .shlImm v d a c | .shrImm v d a c | .sarImm v d a c | .rotlImm v d a c =>
    if v then dstU d && srcI a else decide (c.toNat < 32)
  | .icvt v d a _ x y =>
    decide (x.toNat < 8) && decide (y.toNat < 8) &&
      (if v then dstU d && srcI a else (!icvtPair y || aligned 2 d) && (!icvtPair x || aligned 2 a))
  | .sel _ _ b u _ => !u || srcI b
  | .setp w _ a b u c =>
    decide (w.toNat ≤ 1) && decide (c.toNat ≤ 9) && (!u || srcI b) &&
      (w.toNat ≠ 1 || (aligned 2 a && (u || aligned 2 b)))
  | .shfl _ _ b u _ => !u || srcI b
  | .qswap _ _ m => decide (m.toNat ≤ 2)
  | .voteBallot d _ => dstU d
  | .redux d _ _ => dstU d
  | .rdlane d _ b => dstU d && srcI b
  | .wrlane _ a b => srcI a && srcI b
  | .brx a _ | .ret a _ => aligned 2 a
  | .fadd t _ d a b u | .fsub t _ d a b u | .fmul t _ d a b u | .fma t _ d a b u | .fmin t _ d a b u
  | .fmax t _ d a b u => fpOps t d a b u
  | .fdiv t _ d a b u => decide (t.toNat ≤ 1) && fpOps t d a b u
  | .frcp t _ d a | .fsqrt t _ d a => fpOps1 t d a
  | .fclass t _ _ a => decide (t.toNat ≤ 1) && (t.toNat ≠ 1 || aligned 2 a)
  | .frnd t _ d a m => fpOps1 t d a && decide (m.toNat ≤ 3 ∨ m.toNat = 5)
  | .fsetp w _ a b u c =>
    decide (w.toNat ≤ 1) && decide (c.toNat ≤ 13) && (!u || srcF b) &&
      (w.toNat ≠ 1 || (aligned 2 a && (u || aligned 2 b)))
  | .fcvt d a _ r x y =>
    decide (r.toNat ≤ 5) && decide (x.toNat ≤ 13) && decide (y.toNat ≤ 13) && decide (x ≠ y) &&
      decide (x.toNat < 10 ∨ y.toNat < 10) && (!cvtPair y || aligned 2 d) && (!cvtPair x || aligned 2 a)
  | .dot4 _ _ b u _ => !u || dstU b
  | .dot8 _ _ b u t => decide (t.toNat ≤ 2) && (!u || dstU b)
  | .wring _ _ b u => if u then srcI b else aligned 2 b
  | .scl d a _ f => decide (f.toNat ≤ 4) && scaleOutside 1 d a
  | .qnt d a _ _ f | .dqnt d a _ f =>
    decide (f.toNat ≤ 4) && aligned (qGroup f) d && scaleOutside (qGroup f) d a
  | .p6x d r f => decide (r.toNat ≤ 1) && decide (f.toNat = 2 ∨ f.toNat = 3) && aligned 4 d
  | .ld d b _ w _ c _ => loadW w && decide (c.toNat ≤ 3) && aligned 2 b && dataW w d
  | .ldacq d b _ w c _ => loadW w && decide (c.toNat ≤ 4) && aligned 2 b && dataW w d
  | .st d b _ w _ c _ => storeW w && decide (c.toNat ≤ 3) && aligned 2 b && dataW w d
  | .strel d b _ w c _ => storeW w && decide (c.toNat ≤ 4) && aligned 2 b && dataW w d
  | .lds d b _ w k _ => loadW w && dataW w d && (!k || srcI b)
  | .sts d b _ w k _ => storeW w && dataW w d && (!k || srcI b)
  | .ldk d b _ w o c _ =>
    decide (w.toNat ≠ 4 ∧ w.toNat ≠ 7) && decide (o.toNat ≤ 1) && decide (c.toNat ≤ 3) && dstU d && srcI b
  | .ld6 _ b _ o c _ => decide (o.toNat ≤ 1) && decide (c.toNat ≤ 3) && aligned 2 b
  | .atom d b _ w _ x _ _ =>
    decide (atomCode x w ≤ 13) && aligned 2 b && (atomCode x w ≠ 9 || aligned 2 d)
  | .atom64 d b _ w _ x _ _ =>
    decide (atomCode x w ≤ 11) && aligned 2 b && aligned 2 d && (atomCode x w ≠ 9 || aligned 4 d)
  | .atomp d b _ _ _ _ _ => aligned 2 b && aligned 2 d
  | .red d b _ w z _ x _ _ =>
    decide (atomCode x w ≤ 7 ∨ atomCode x w = 12 ∨ atomCode x w = 13) && aligned 2 b && (!z || aligned 2 d)
  | .ldfut d b _ w _ | .stfut d b _ w _ => aligned 2 b && (!w || aligned 2 d)
  | .stg d b _ w _ => storeW w && aligned 2 b && dataW w d
  | .qlen d _ => dstU d
  | .fence p k _ => decide (p.toNat ≤ 4) && decide (k.toNat ≠ 0)
  | .acqr s _ => srcI s
  | .pref s _ _ => srcI s
  | .alloc s d _ => blk 2 s && dstU d
  | .sig s _ => blk 2 s
  | .spres s d _ => srcI s && dstU d
  | .gath s _ _ => blk 2 s
  | .tld s _ | .tst s _ | .ald s _ | .ast s _ => blk 2 s
  | .mma s _ | .mmaj s _ | .aq s _ => blk 1 s
  | .cpy s _ _ | .cpyt s _ _ => blk 4 s
  | .bexp s _ _ => srcI s
  | .ssld s _ | .ssfree s _ => blk 1 s
  | .ssqry s d _ => blk 1 s && decide (d.toNat ≤ 59)
  | .ssst s _ | .ssnap s _ | .ssrb s _ | .sscopy s _ => blk 2 s
  | .tkspawn s _ | .salloc s _ | .sfree s _ | .sleep s _ => srcI s
  | .tkinfo s d _ => srcI s && dstU d
  | .fpqry s d _ => blk 2 s && dstU d
  | .fpvoid s _ => blk 2 s
  | .fpdon s _ => blk 4 s
  | .svc s x => srcI s && aligned 8 x
  | .rdsrVector d x => decide (x.toNat ≤ 0x16) && ((x.toNat ≠ 0x0A && x.toNat ≠ 0x0D) || aligned 2 d)
  | .rdsrUniform d x => decide (x.toNat ≤ 0x16) && decide (x.toNat ≠ 0 ∧ x.toNat ≠ 0x0F) && dstU d
  | .wrsr s x => srcI s && decide (x.toNat = 0x09 ∨ x.toNat = 0x0B ∨ x.toNat = 0x0C)
  | _ => true

end Sys2Proof
end

