-- ==== Sys2Proof/Decode.lean ====
section
/-! DEFINITION. The decoder, total on any words, and after it the encoder, both written from the encoding tables of
R46 to R69. A word sequence that is no instruction is refused by name. -/

namespace Sys2Proof

/-- The low `n` bits of `x`, sign-extended to `m` bits (R46, R51). -/
def sextField (n m x : Nat) : BitVec m :=
  BitVec.ofNat m (if x % 2 ^ n < 2 ^ (n - 1) then x % 2 ^ n else x % 2 ^ n + (2 ^ m - 2 ^ n))

/-- Majors 0x00, 0x01 (R56): MAD_W_I, MAD_W_N, ADD64, SUB64, ADD, ADDC, SUB, SUBB, MUL, MULHI_I, MULHI_N, MAD, DIV_I, DIV_N, REM_I, REM_N. -/
def decodeMajor00 (w : Nat) : Option Instr :=
  if bits w 3 0 = 8 ∧ bits w 31 26 = 0 then some (.madWI (BitVec.ofNat 7 (bits w 25 19)) (BitVec.ofNat 7 (bits w 18 12)) (BitVec.ofNat 7 (bits w 11 5)) (bits w 4 4 == 1))
  else if bits w 3 0 = 9 ∧ bits w 31 26 = 0 then some (.madWN (BitVec.ofNat 7 (bits w 25 19)) (BitVec.ofNat 7 (bits w 18 12)) (BitVec.ofNat 7 (bits w 11 5)) (bits w 4 4 == 1))
  else if bits w 3 0 = 14 ∧ bits w 31 26 = 0 then some (.add64 (BitVec.ofNat 7 (bits w 25 19)) (BitVec.ofNat 7 (bits w 18 12)) (BitVec.ofNat 7 (bits w 11 5)) (bits w 4 4 == 1))
  else if bits w 3 0 = 15 ∧ bits w 31 26 = 0 then some (.sub64 (BitVec.ofNat 7 (bits w 25 19)) (BitVec.ofNat 7 (bits w 18 12)) (BitVec.ofNat 7 (bits w 11 5)) (bits w 4 4 == 1))
  else if bits w 3 0 = 0 then some (.add (bits w 26 26 == 1) (BitVec.ofNat 7 (bits w 25 19)) (BitVec.ofNat 7 (bits w 18 12)) (BitVec.ofNat 7 (bits w 11 5)) (bits w 4 4 == 1))
  else if bits w 3 0 = 1 then some (.addc (bits w 26 26 == 1) (BitVec.ofNat 7 (bits w 25 19)) (BitVec.ofNat 7 (bits w 18 12)) (BitVec.ofNat 7 (bits w 11 5)) (bits w 4 4 == 1))
  else if bits w 3 0 = 2 then some (.sub (bits w 26 26 == 1) (BitVec.ofNat 7 (bits w 25 19)) (BitVec.ofNat 7 (bits w 18 12)) (BitVec.ofNat 7 (bits w 11 5)) (bits w 4 4 == 1))
  else if bits w 3 0 = 3 then some (.subb (bits w 26 26 == 1) (BitVec.ofNat 7 (bits w 25 19)) (BitVec.ofNat 7 (bits w 18 12)) (BitVec.ofNat 7 (bits w 11 5)) (bits w 4 4 == 1))
  else if bits w 3 0 = 4 then some (.mul (bits w 26 26 == 1) (BitVec.ofNat 7 (bits w 25 19)) (BitVec.ofNat 7 (bits w 18 12)) (BitVec.ofNat 7 (bits w 11 5)) (bits w 4 4 == 1))
  else if bits w 3 0 = 5 then some (.mulhiI (bits w 26 26 == 1) (BitVec.ofNat 7 (bits w 25 19)) (BitVec.ofNat 7 (bits w 18 12)) (BitVec.ofNat 7 (bits w 11 5)) (bits w 4 4 == 1))
  else if bits w 3 0 = 6 then some (.mulhiN (bits w 26 26 == 1) (BitVec.ofNat 7 (bits w 25 19)) (BitVec.ofNat 7 (bits w 18 12)) (BitVec.ofNat 7 (bits w 11 5)) (bits w 4 4 == 1))
  else if bits w 3 0 = 7 then some (.mad (bits w 26 26 == 1) (BitVec.ofNat 7 (bits w 25 19)) (BitVec.ofNat 7 (bits w 18 12)) (BitVec.ofNat 7 (bits w 11 5)) (bits w 4 4 == 1))
  else if bits w 3 0 = 10 then some (.divI (bits w 26 26 == 1) (BitVec.ofNat 7 (bits w 25 19)) (BitVec.ofNat 7 (bits w 18 12)) (BitVec.ofNat 7 (bits w 11 5)) (bits w 4 4 == 1))
  else if bits w 3 0 = 11 then some (.divN (bits w 26 26 == 1) (BitVec.ofNat 7 (bits w 25 19)) (BitVec.ofNat 7 (bits w 18 12)) (BitVec.ofNat 7 (bits w 11 5)) (bits w 4 4 == 1))
  else if bits w 3 0 = 12 then some (.remI (bits w 26 26 == 1) (BitVec.ofNat 7 (bits w 25 19)) (BitVec.ofNat 7 (bits w 18 12)) (BitVec.ofNat 7 (bits w 11 5)) (bits w 4 4 == 1))
  else if bits w 3 0 = 13 then some (.remN (bits w 26 26 == 1) (BitVec.ofNat 7 (bits w 25 19)) (BitVec.ofNat 7 (bits w 18 12)) (BitVec.ofNat 7 (bits w 11 5)) (bits w 4 4 == 1))
  else none

/-- Majors 0x02, 0x03 (R56): POPC, CLZ, BREV, ABS, AND, OR, XOR, ANDN, SHL, SHR, SAR, ROTL, MIN_I, MIN_N, MAX_I, MAX_N. -/
def decodeMajor02 (w : Nat) : Option Instr :=
  if bits w 3 0 = 8 ∧ bits w 11 5 = 0 then some (.popc (bits w 26 26 == 1) (BitVec.ofNat 7 (bits w 25 19)) (BitVec.ofNat 7 (bits w 18 12)) (bits w 4 4 == 1))
  else if bits w 3 0 = 9 ∧ bits w 11 5 = 0 then some (.clz (bits w 26 26 == 1) (BitVec.ofNat 7 (bits w 25 19)) (BitVec.ofNat 7 (bits w 18 12)) (bits w 4 4 == 1))
  else if bits w 3 0 = 10 ∧ bits w 11 5 = 0 then some (.brev (bits w 26 26 == 1) (BitVec.ofNat 7 (bits w 25 19)) (BitVec.ofNat 7 (bits w 18 12)) (bits w 4 4 == 1))
  else if bits w 3 0 = 15 ∧ bits w 11 5 = 0 then some (.abs (bits w 26 26 == 1) (BitVec.ofNat 7 (bits w 25 19)) (BitVec.ofNat 7 (bits w 18 12)) (bits w 4 4 == 1))
  else if bits w 3 0 = 0 then some (.and (bits w 26 26 == 1) (BitVec.ofNat 7 (bits w 25 19)) (BitVec.ofNat 7 (bits w 18 12)) (BitVec.ofNat 7 (bits w 11 5)) (bits w 4 4 == 1))
  else if bits w 3 0 = 1 then some (.or (bits w 26 26 == 1) (BitVec.ofNat 7 (bits w 25 19)) (BitVec.ofNat 7 (bits w 18 12)) (BitVec.ofNat 7 (bits w 11 5)) (bits w 4 4 == 1))
  else if bits w 3 0 = 2 then some (.xor (bits w 26 26 == 1) (BitVec.ofNat 7 (bits w 25 19)) (BitVec.ofNat 7 (bits w 18 12)) (BitVec.ofNat 7 (bits w 11 5)) (bits w 4 4 == 1))
  else if bits w 3 0 = 3 then some (.andn (bits w 26 26 == 1) (BitVec.ofNat 7 (bits w 25 19)) (BitVec.ofNat 7 (bits w 18 12)) (BitVec.ofNat 7 (bits w 11 5)) (bits w 4 4 == 1))
  else if bits w 3 0 = 4 then some (.shl (bits w 26 26 == 1) (BitVec.ofNat 7 (bits w 25 19)) (BitVec.ofNat 7 (bits w 18 12)) (BitVec.ofNat 7 (bits w 11 5)) (bits w 4 4 == 1))
  else if bits w 3 0 = 5 then some (.shr (bits w 26 26 == 1) (BitVec.ofNat 7 (bits w 25 19)) (BitVec.ofNat 7 (bits w 18 12)) (BitVec.ofNat 7 (bits w 11 5)) (bits w 4 4 == 1))
  else if bits w 3 0 = 6 then some (.sar (bits w 26 26 == 1) (BitVec.ofNat 7 (bits w 25 19)) (BitVec.ofNat 7 (bits w 18 12)) (BitVec.ofNat 7 (bits w 11 5)) (bits w 4 4 == 1))
  else if bits w 3 0 = 7 then some (.rotl (bits w 26 26 == 1) (BitVec.ofNat 7 (bits w 25 19)) (BitVec.ofNat 7 (bits w 18 12)) (BitVec.ofNat 7 (bits w 11 5)) (bits w 4 4 == 1))
  else if bits w 3 0 = 11 then some (.minI (bits w 26 26 == 1) (BitVec.ofNat 7 (bits w 25 19)) (BitVec.ofNat 7 (bits w 18 12)) (BitVec.ofNat 7 (bits w 11 5)) (bits w 4 4 == 1))
  else if bits w 3 0 = 12 then some (.minN (bits w 26 26 == 1) (BitVec.ofNat 7 (bits w 25 19)) (BitVec.ofNat 7 (bits w 18 12)) (BitVec.ofNat 7 (bits w 11 5)) (bits w 4 4 == 1))
  else if bits w 3 0 = 13 then some (.maxI (bits w 26 26 == 1) (BitVec.ofNat 7 (bits w 25 19)) (BitVec.ofNat 7 (bits w 18 12)) (BitVec.ofNat 7 (bits w 11 5)) (bits w 4 4 == 1))
  else if bits w 3 0 = 14 then some (.maxN (bits w 26 26 == 1) (BitVec.ofNat 7 (bits w 25 19)) (BitVec.ofNat 7 (bits w 18 12)) (BitVec.ofNat 7 (bits w 11 5)) (bits w 4 4 == 1))
  else none

/-- Majors 0x04, 0x05 (R56): MOV, BFX_I, BFX_N, BFI, PRMT, LEA_1, LEA_2, LEA_4, LEA_8. -/
def decodeMajor04 (w : Nat) : Option Instr :=
  if bits w 3 0 = 4 ∧ bits w 18 12 = 0 then some (.mov (bits w 26 26 == 1) (BitVec.ofNat 7 (bits w 25 19)) (BitVec.ofNat 7 (bits w 11 5)) (bits w 4 4 == 1))
  else if bits w 3 0 = 0 then some (.bfxI (bits w 26 26 == 1) (BitVec.ofNat 7 (bits w 25 19)) (BitVec.ofNat 7 (bits w 18 12)) (BitVec.ofNat 7 (bits w 11 5)) (bits w 4 4 == 1))
  else if bits w 3 0 = 1 then some (.bfxN (bits w 26 26 == 1) (BitVec.ofNat 7 (bits w 25 19)) (BitVec.ofNat 7 (bits w 18 12)) (BitVec.ofNat 7 (bits w 11 5)) (bits w 4 4 == 1))
  else if bits w 3 0 = 2 then some (.bfi (bits w 26 26 == 1) (BitVec.ofNat 7 (bits w 25 19)) (BitVec.ofNat 7 (bits w 18 12)) (BitVec.ofNat 7 (bits w 11 5)) (bits w 4 4 == 1))
  else if bits w 3 0 = 3 then some (.prmt (bits w 26 26 == 1) (BitVec.ofNat 7 (bits w 25 19)) (BitVec.ofNat 7 (bits w 18 12)) (BitVec.ofNat 7 (bits w 11 5)) (bits w 4 4 == 1))
  else if bits w 3 0 = 5 then some (.lea1 (bits w 26 26 == 1) (BitVec.ofNat 7 (bits w 25 19)) (BitVec.ofNat 7 (bits w 18 12)) (BitVec.ofNat 7 (bits w 11 5)) (bits w 4 4 == 1))
  else if bits w 3 0 = 6 then some (.lea2 (bits w 26 26 == 1) (BitVec.ofNat 7 (bits w 25 19)) (BitVec.ofNat 7 (bits w 18 12)) (BitVec.ofNat 7 (bits w 11 5)) (bits w 4 4 == 1))
  else if bits w 3 0 = 7 then some (.lea4 (bits w 26 26 == 1) (BitVec.ofNat 7 (bits w 25 19)) (BitVec.ofNat 7 (bits w 18 12)) (BitVec.ofNat 7 (bits w 11 5)) (bits w 4 4 == 1))
  else if bits w 3 0 = 8 then some (.lea8 (bits w 26 26 == 1) (BitVec.ofNat 7 (bits w 25 19)) (BitVec.ofNat 7 (bits w 18 12)) (BitVec.ofNat 7 (bits w 11 5)) (bits w 4 4 == 1))
  else none

/-- Majors 0x06, 0x07 (R56): ADD_IMM. -/
def decodeMajor06 (w : Nat) : Option Instr :=
  some (.addImm (bits w 26 26 == 1) (BitVec.ofNat 7 (bits w 25 19)) (BitVec.ofNat 7 (bits w 18 12)) (sextField 12 38 (bits w 11 0)))

/-- Majors 0x08, 0x09 (R56): MOVI. -/
def decodeMajor08 (w : Nat) : Option Instr :=
  if bits w 18 12 = 0 then some (.movi (bits w 26 26 == 1) (BitVec.ofNat 7 (bits w 25 19)) (sextField 12 38 (bits w 11 0)))
  else none

/-- Majors 0x0A, 0x0B (R56): SHL_IMM, SHR_IMM, SAR_IMM, ROTL_IMM. -/
def decodeMajor0A (w : Nat) : Option Instr :=
  if bits w 11 6 = 0 then some (.shlImm (bits w 26 26 == 1) (BitVec.ofNat 7 (bits w 25 19)) (BitVec.ofNat 7 (bits w 18 12)) (BitVec.ofNat 6 (bits w 5 0)))
  else if bits w 11 6 = 4 then some (.shrImm (bits w 26 26 == 1) (BitVec.ofNat 7 (bits w 25 19)) (BitVec.ofNat 7 (bits w 18 12)) (BitVec.ofNat 6 (bits w 5 0)))
  else if bits w 11 6 = 8 then some (.sarImm (bits w 26 26 == 1) (BitVec.ofNat 7 (bits w 25 19)) (BitVec.ofNat 7 (bits w 18 12)) (BitVec.ofNat 6 (bits w 5 0)))
  else if bits w 11 6 = 12 then some (.rotlImm (bits w 26 26 == 1) (BitVec.ofNat 7 (bits w 25 19)) (BitVec.ofNat 7 (bits w 18 12)) (BitVec.ofNat 6 (bits w 5 0)))
  else none

/-- Majors 0x0C, 0x0D (R56): ICVT. -/
def decodeMajor0C (w : Nat) : Option Instr :=
  if bits w 11 9 = 0 then some (.icvt (bits w 26 26 == 1) (BitVec.ofNat 7 (bits w 25 19)) (BitVec.ofNat 7 (bits w 18 12)) (bits w 8 8 == 1) (BitVec.ofNat 4 (bits w 7 4)) (BitVec.ofNat 4 (bits w 3 0)))
  else none

/-- Major 0x0E (R56): SEL. -/
def decodeMajor0E (w : Nat) : Option Instr :=
  some (.sel (BitVec.ofNat 7 (bits w 25 19)) (BitVec.ofNat 7 (bits w 18 12)) (BitVec.ofNat 7 (bits w 11 5)) (bits w 4 4 == 1) (BitVec.ofNat 4 (bits w 3 0)))

/-- Major 0x10 (R56): SETP. -/
def decodeMajor10 (w : Nat) : Option Instr :=
  some (.setp (BitVec.ofNat 3 (bits w 25 23)) (BitVec.ofNat 4 (bits w 22 19)) (BitVec.ofNat 7 (bits w 18 12)) (BitVec.ofNat 7 (bits w 11 5)) (bits w 4 4 == 1) (BitVec.ofNat 4 (bits w 3 0)))

/-- Major 0x11 (R56): PNOT, PMOV, PAND, POR, PXOR. -/
def decodeMajor11 (w : Nat) : Option Instr :=
  if bits w 11 0 = 3 ∧ bits w 18 16 = 0 ∧ bits w 25 23 = 0 then some (.pnot (BitVec.ofNat 4 (bits w 22 19)) (BitVec.ofNat 4 (bits w 15 12)))
  else if bits w 11 0 = 4 ∧ bits w 18 16 = 0 ∧ bits w 25 23 = 0 then some (.pmov (BitVec.ofNat 4 (bits w 22 19)) (BitVec.ofNat 4 (bits w 15 12)))
  else if bits w 4 0 = 0 ∧ bits w 11 9 = 0 ∧ bits w 18 16 = 0 ∧ bits w 25 23 = 0 then some (.pand (BitVec.ofNat 4 (bits w 22 19)) (BitVec.ofNat 4 (bits w 15 12)) (BitVec.ofNat 4 (bits w 8 5)))
  else if bits w 4 0 = 1 ∧ bits w 11 9 = 0 ∧ bits w 18 16 = 0 ∧ bits w 25 23 = 0 then some (.por (BitVec.ofNat 4 (bits w 22 19)) (BitVec.ofNat 4 (bits w 15 12)) (BitVec.ofNat 4 (bits w 8 5)))
  else if bits w 4 0 = 2 ∧ bits w 11 9 = 0 ∧ bits w 18 16 = 0 ∧ bits w 25 23 = 0 then some (.pxor (BitVec.ofNat 4 (bits w 22 19)) (BitVec.ofNat 4 (bits w 15 12)) (BitVec.ofNat 4 (bits w 8 5)))
  else none

/-- Major 0x12 (R56): SHFL. -/
def decodeMajor12 (w : Nat) : Option Instr :=
  if bits w 3 2 = 0 then some (.shfl (BitVec.ofNat 7 (bits w 25 19)) (BitVec.ofNat 7 (bits w 18 12)) (BitVec.ofNat 7 (bits w 11 5)) (bits w 4 4 == 1) (BitVec.ofNat 2 (bits w 1 0)))
  else none

/-- Major 0x13 (R56): QSWAP. -/
def decodeMajor13 (w : Nat) : Option Instr :=
  if bits w 11 2 = 0 then some (.qswap (BitVec.ofNat 7 (bits w 25 19)) (BitVec.ofNat 7 (bits w 18 12)) (BitVec.ofNat 2 (bits w 1 0)))
  else none

/-- Major 0x14 (R56): VOTE_ALL, VOTE_ANY, VOTE_BALLOT. -/
def decodeMajor14 (w : Nat) : Option Instr :=
  if bits w 11 0 = 0 ∧ bits w 18 16 = 0 ∧ bits w 25 23 = 0 then some (.voteAll (BitVec.ofNat 4 (bits w 22 19)) (BitVec.ofNat 4 (bits w 15 12)))
  else if bits w 11 0 = 1 ∧ bits w 18 16 = 0 ∧ bits w 25 23 = 0 then some (.voteAny (BitVec.ofNat 4 (bits w 22 19)) (BitVec.ofNat 4 (bits w 15 12)))
  else if bits w 11 0 = 2 ∧ bits w 18 16 = 0 then some (.voteBallot (BitVec.ofNat 7 (bits w 25 19)) (BitVec.ofNat 4 (bits w 15 12)))
  else none

/-- Major 0x15 (R56): REDUX. -/
def decodeMajor15 (w : Nat) : Option Instr :=
  if bits w 11 3 = 0 then some (.redux (BitVec.ofNat 7 (bits w 25 19)) (BitVec.ofNat 7 (bits w 18 12)) (BitVec.ofNat 3 (bits w 2 0)))
  else none

/-- Major 0x16 (R56): RDLANE, WRLANE. -/
def decodeMajor16 (w : Nat) : Option Instr :=
  if bits w 4 0 = 16 then some (.rdlane (BitVec.ofNat 7 (bits w 25 19)) (BitVec.ofNat 7 (bits w 18 12)) (BitVec.ofNat 7 (bits w 11 5)))
  else if bits w 4 0 = 17 then some (.wrlane (BitVec.ofNat 7 (bits w 25 19)) (BitVec.ofNat 7 (bits w 18 12)) (BitVec.ofNat 7 (bits w 11 5)))
  else none

/-- Major 0x18 (R56): BR, JMP. -/
def decodeMajor18 (w : Nat) : Option Instr :=
  if bits w 25 25 = 0 then some (.br (BitVec.ofNat 4 (bits w 24 21)) (BitVec.ofNat 4 (bits w 20 17)) (bits w 16 16 == 1) (sextField 16 42 (bits w 15 0)))
  else if bits w 25 25 = 1 then some (.jmp (BitVec.ofNat 4 (bits w 24 21)) (BitVec.ofNat 4 (bits w 20 17)) (bits w 16 16 == 1) (sextField 16 42 (bits w 15 0)))
  else none

/-- Major 0x19 (R56): CALL. -/
def decodeMajor19 (w : Nat) : Option Instr :=
  if bits w 25 25 = 0 then some (.call (BitVec.ofNat 4 (bits w 24 21)) (BitVec.ofNat 5 (bits w 20 16)) (sextField 16 42 (bits w 15 0)))
  else none

/-- Major 0x1A (R56): EXIT, NOP, FSW, FBAR, JEN, JWT, JSTR, BRX, RET. -/
def decodeMajor1A (w : Nat) : Option Instr :=
  if bits w 25 0 = 2 then some (.exit)
  else if bits w 25 0 = 3 then some (.nop)
  else if bits w 25 0 = 4 then some (.fsw)
  else if bits w 25 0 = 5 then some (.fbar)
  else if bits w 18 0 = 6 ∧ bits w 25 22 = 0 then some (.jen (BitVec.ofNat 3 (bits w 21 19)))
  else if bits w 18 0 = 7 ∧ bits w 25 22 = 0 then some (.jwt (BitVec.ofNat 3 (bits w 21 19)))
  else if bits w 18 0 = 8 ∧ bits w 25 22 = 0 then some (.jstr (BitVec.ofNat 3 (bits w 21 19)))
  else if bits w 4 0 = 0 ∧ bits w 11 9 = 0 ∧ bits w 25 19 = 0 then some (.brx (BitVec.ofNat 7 (bits w 18 12)) (BitVec.ofNat 4 (bits w 8 5)))
  else if bits w 4 0 = 1 ∧ bits w 11 9 = 0 ∧ bits w 25 19 = 0 then some (.ret (BitVec.ofNat 7 (bits w 18 12)) (BitVec.ofNat 4 (bits w 8 5)))
  else none

/-- Major 0x1B (R56): WBASE. -/
def decodeMajor1B (w : Nat) : Option Instr :=
  if bits w 25 6 = 0 then some (.wbase (BitVec.ofNat 6 (bits w 5 0)))
  else none

/-- Major 0x1C (R56): GROW. -/
def decodeMajor1C (w : Nat) : Option Instr :=
  if bits w 25 5 = 0 then some (.grow (BitVec.ofNat 5 (bits w 4 0)))
  else none

/-- Major 0x1D (R56): SHRINK. -/
def decodeMajor1D (w : Nat) : Option Instr :=
  if bits w 25 5 = 0 then some (.shrink (BitVec.ofNat 5 (bits w 4 0)))
  else none

/-- Majors 0x20, 0x21, 0x22, 0x23, 0x24, 0x25, 0x26, 0x27 (R56): FRSQ, FEXP2, FLOG2, FSINPI, FCOSPI, FRCP, FSQRT, FCLASS, FRND, FADD, FSUB, FMUL, FMA, FMIN, FMAX, FDIV. -/
def decodeMajor20 (w : Nat) : Option Instr :=
  if bits w 11 0 = 8 ∧ bits w 31 26 = 32 then some (.frsq (BitVec.ofNat 7 (bits w 25 19)) (BitVec.ofNat 7 (bits w 18 12)))
  else if bits w 11 0 = 10 ∧ bits w 31 26 = 32 then some (.fexp2 (BitVec.ofNat 7 (bits w 25 19)) (BitVec.ofNat 7 (bits w 18 12)))
  else if bits w 11 0 = 11 ∧ bits w 31 26 = 32 then some (.flog2 (BitVec.ofNat 7 (bits w 25 19)) (BitVec.ofNat 7 (bits w 18 12)))
  else if bits w 11 0 = 12 ∧ bits w 31 26 = 32 then some (.fsinpi (BitVec.ofNat 7 (bits w 25 19)) (BitVec.ofNat 7 (bits w 18 12)))
  else if bits w 11 0 = 13 ∧ bits w 31 26 = 32 then some (.fcospi (BitVec.ofNat 7 (bits w 25 19)) (BitVec.ofNat 7 (bits w 18 12)))
  else if bits w 11 0 = 7 then some (.frcp (BitVec.ofNat 2 (bits w 28 27)) (bits w 26 26 == 1) (BitVec.ofNat 7 (bits w 25 19)) (BitVec.ofNat 7 (bits w 18 12)))
  else if bits w 11 0 = 9 then some (.fsqrt (BitVec.ofNat 2 (bits w 28 27)) (bits w 26 26 == 1) (BitVec.ofNat 7 (bits w 25 19)) (BitVec.ofNat 7 (bits w 18 12)))
  else if bits w 11 0 = 14 then some (.fclass (BitVec.ofNat 2 (bits w 28 27)) (bits w 26 26 == 1) (BitVec.ofNat 7 (bits w 25 19)) (BitVec.ofNat 7 (bits w 18 12)))
  else if bits w 4 0 = 15 ∧ bits w 11 8 = 0 then some (.frnd (BitVec.ofNat 2 (bits w 28 27)) (bits w 26 26 == 1) (BitVec.ofNat 7 (bits w 25 19)) (BitVec.ofNat 7 (bits w 18 12)) (BitVec.ofNat 3 (bits w 7 5)))
  else if bits w 3 0 = 0 then some (.fadd (BitVec.ofNat 2 (bits w 28 27)) (bits w 26 26 == 1) (BitVec.ofNat 7 (bits w 25 19)) (BitVec.ofNat 7 (bits w 18 12)) (BitVec.ofNat 7 (bits w 11 5)) (bits w 4 4 == 1))
  else if bits w 3 0 = 1 then some (.fsub (BitVec.ofNat 2 (bits w 28 27)) (bits w 26 26 == 1) (BitVec.ofNat 7 (bits w 25 19)) (BitVec.ofNat 7 (bits w 18 12)) (BitVec.ofNat 7 (bits w 11 5)) (bits w 4 4 == 1))
  else if bits w 3 0 = 2 then some (.fmul (BitVec.ofNat 2 (bits w 28 27)) (bits w 26 26 == 1) (BitVec.ofNat 7 (bits w 25 19)) (BitVec.ofNat 7 (bits w 18 12)) (BitVec.ofNat 7 (bits w 11 5)) (bits w 4 4 == 1))
  else if bits w 3 0 = 3 then some (.fma (BitVec.ofNat 2 (bits w 28 27)) (bits w 26 26 == 1) (BitVec.ofNat 7 (bits w 25 19)) (BitVec.ofNat 7 (bits w 18 12)) (BitVec.ofNat 7 (bits w 11 5)) (bits w 4 4 == 1))
  else if bits w 3 0 = 4 then some (.fmin (BitVec.ofNat 2 (bits w 28 27)) (bits w 26 26 == 1) (BitVec.ofNat 7 (bits w 25 19)) (BitVec.ofNat 7 (bits w 18 12)) (BitVec.ofNat 7 (bits w 11 5)) (bits w 4 4 == 1))
  else if bits w 3 0 = 5 then some (.fmax (BitVec.ofNat 2 (bits w 28 27)) (bits w 26 26 == 1) (BitVec.ofNat 7 (bits w 25 19)) (BitVec.ofNat 7 (bits w 18 12)) (BitVec.ofNat 7 (bits w 11 5)) (bits w 4 4 == 1))
  else if bits w 3 0 = 6 then some (.fdiv (BitVec.ofNat 2 (bits w 28 27)) (bits w 26 26 == 1) (BitVec.ofNat 7 (bits w 25 19)) (BitVec.ofNat 7 (bits w 18 12)) (BitVec.ofNat 7 (bits w 11 5)) (bits w 4 4 == 1))
  else none

/-- Major 0x28 (R56): FSETP. -/
def decodeMajor28 (w : Nat) : Option Instr :=
  some (.fsetp (BitVec.ofNat 3 (bits w 25 23)) (BitVec.ofNat 4 (bits w 22 19)) (BitVec.ofNat 7 (bits w 18 12)) (BitVec.ofNat 7 (bits w 11 5)) (bits w 4 4 == 1) (BitVec.ofNat 4 (bits w 3 0)))

/-- Major 0x29 (R56): FCVT. -/
def decodeMajor29 (w : Nat) : Option Instr :=
  some (.fcvt (BitVec.ofNat 7 (bits w 25 19)) (BitVec.ofNat 7 (bits w 18 12)) (bits w 11 11 == 1) (BitVec.ofNat 3 (bits w 10 8)) (BitVec.ofNat 4 (bits w 7 4)) (BitVec.ofNat 4 (bits w 3 0)))

/-- Major 0x2A (R56): P6X, SCL, DQNT, QNT, WRING, DOT4, DOT8. -/
def decodeMajor2A (w : Nat) : Option Instr :=
  if bits w 4 0 = 11 ∧ bits w 18 10 = 0 then some (.p6x (BitVec.ofNat 7 (bits w 25 19)) (BitVec.ofNat 2 (bits w 9 8)) (BitVec.ofNat 3 (bits w 7 5)))
  else if bits w 4 0 = 8 ∧ bits w 9 8 = 0 then some (.scl (BitVec.ofNat 7 (bits w 25 19)) (BitVec.ofNat 7 (bits w 18 12)) (BitVec.ofNat 2 (bits w 11 10)) (BitVec.ofNat 3 (bits w 7 5)))
  else if bits w 4 0 = 10 ∧ bits w 9 8 = 0 then some (.dqnt (BitVec.ofNat 7 (bits w 25 19)) (BitVec.ofNat 7 (bits w 18 12)) (BitVec.ofNat 2 (bits w 11 10)) (BitVec.ofNat 3 (bits w 7 5)))
  else if bits w 4 0 = 9 then some (.qnt (BitVec.ofNat 7 (bits w 25 19)) (BitVec.ofNat 7 (bits w 18 12)) (BitVec.ofNat 2 (bits w 11 10)) (BitVec.ofNat 2 (bits w 9 8)) (BitVec.ofNat 3 (bits w 7 5)))
  else if bits w 3 0 = 7 then some (.wring (BitVec.ofNat 7 (bits w 25 19)) (BitVec.ofNat 7 (bits w 18 12)) (BitVec.ofNat 7 (bits w 11 5)) (bits w 4 4 == 1))
  else if bits w 3 2 = 0 then some (.dot4 (BitVec.ofNat 7 (bits w 25 19)) (BitVec.ofNat 7 (bits w 18 12)) (BitVec.ofNat 7 (bits w 11 5)) (bits w 4 4 == 1) (BitVec.ofNat 2 (bits w 1 0)))
  else if bits w 3 2 = 1 then some (.dot8 (BitVec.ofNat 7 (bits w 25 19)) (BitVec.ofNat 7 (bits w 18 12)) (BitVec.ofNat 7 (bits w 11 5)) (bits w 4 4 == 1) (BitVec.ofNat 2 (bits w 1 0)))
  else none

/-- Major 0x2C (R56): LDACQ, LD. -/
def decodeMajor2C (w : Nat) : Option Instr :=
  if bits w 4 3 = 2 then some (.ldacq (BitVec.ofNat 7 (bits w 25 19)) (BitVec.ofNat 7 (bits w 18 12)) (BitVec.ofNat 4 (bits w 11 8)) (BitVec.ofNat 3 (bits w 7 5)) (BitVec.ofNat 3 (bits w 2 0)) 0)
  else if bits w 4 4 = 0 then some (.ld (BitVec.ofNat 7 (bits w 25 19)) (BitVec.ofNat 7 (bits w 18 12)) (BitVec.ofNat 4 (bits w 11 8)) (BitVec.ofNat 3 (bits w 7 5)) (bits w 3 3 == 1) (BitVec.ofNat 3 (bits w 2 0)) 0)
  else none

/-- Major 0x2D (R56): STREL, ST. -/
def decodeMajor2D (w : Nat) : Option Instr :=
  if bits w 4 3 = 3 then some (.strel (BitVec.ofNat 7 (bits w 25 19)) (BitVec.ofNat 7 (bits w 18 12)) (BitVec.ofNat 4 (bits w 11 8)) (BitVec.ofNat 3 (bits w 7 5)) (BitVec.ofNat 3 (bits w 2 0)) 0)
  else if bits w 4 4 = 0 then some (.st (BitVec.ofNat 7 (bits w 25 19)) (BitVec.ofNat 7 (bits w 18 12)) (BitVec.ofNat 4 (bits w 11 8)) (BitVec.ofNat 3 (bits w 7 5)) (bits w 3 3 == 1) (BitVec.ofNat 3 (bits w 2 0)) 0)
  else none

/-- Major 0x2E (R56): LDS. -/
def decodeMajor2E (w : Nat) : Option Instr :=
  if bits w 4 1 = 0 then some (.lds (BitVec.ofNat 7 (bits w 25 19)) (BitVec.ofNat 7 (bits w 18 12)) (BitVec.ofNat 4 (bits w 11 8)) (BitVec.ofNat 3 (bits w 7 5)) (bits w 0 0 == 1) 0)
  else none

/-- Major 0x2F (R56): STS. -/
def decodeMajor2F (w : Nat) : Option Instr :=
  if bits w 4 1 = 0 then some (.sts (BitVec.ofNat 7 (bits w 25 19)) (BitVec.ofNat 7 (bits w 18 12)) (BitVec.ofNat 4 (bits w 11 8)) (BitVec.ofNat 3 (bits w 7 5)) (bits w 0 0 == 1) 0)
  else none

/-- Major 0x30 (R56): LDK. -/
def decodeMajor30 (w : Nat) : Option Instr :=
  some (.ldk (BitVec.ofNat 7 (bits w 25 19)) (BitVec.ofNat 7 (bits w 18 12)) (BitVec.ofNat 4 (bits w 11 8)) (BitVec.ofNat 3 (bits w 7 5)) (BitVec.ofNat 2 (bits w 4 3)) (BitVec.ofNat 3 (bits w 2 0)) 0)

/-- Major 0x31 (R56): LD6. -/
def decodeMajor31 (w : Nat) : Option Instr :=
  if bits w 7 5 = 0 then some (.ld6 (BitVec.ofNat 7 (bits w 25 19)) (BitVec.ofNat 7 (bits w 18 12)) (BitVec.ofNat 4 (bits w 11 8)) (BitVec.ofNat 2 (bits w 4 3)) (BitVec.ofNat 3 (bits w 2 0)) 0)
  else none

/-- Major 0x32 (R56): ATOM. -/
def decodeMajor32 (w : Nat) : Option Instr :=
  some (.atom (BitVec.ofNat 7 (bits w 25 19)) (BitVec.ofNat 7 (bits w 18 12)) (BitVec.ofNat 4 (bits w 11 8)) (BitVec.ofNat 3 (bits w 7 5)) (BitVec.ofNat 2 (bits w 4 3)) (bits w 2 2 == 1) (BitVec.ofNat 2 (bits w 1 0)) 0)

/-- Major 0x33 (R56): ATOMP, ATOM_64. -/
def decodeMajor33 (w : Nat) : Option Instr :=
  if bits w 2 2 = 1 ∧ bits w 7 6 = 2 then some (.atomp (BitVec.ofNat 7 (bits w 25 19)) (BitVec.ofNat 7 (bits w 18 12)) (BitVec.ofNat 4 (bits w 11 8)) (bits w 5 5 == 1) (BitVec.ofNat 2 (bits w 4 3)) (BitVec.ofNat 2 (bits w 1 0)) 0)
  else some (.atom64 (BitVec.ofNat 7 (bits w 25 19)) (BitVec.ofNat 7 (bits w 18 12)) (BitVec.ofNat 4 (bits w 11 8)) (BitVec.ofNat 3 (bits w 7 5)) (BitVec.ofNat 2 (bits w 4 3)) (bits w 2 2 == 1) (BitVec.ofNat 2 (bits w 1 0)) 0)

/-- Major 0x34 (R56): RED. -/
def decodeMajor34 (w : Nat) : Option Instr :=
  some (.red (BitVec.ofNat 7 (bits w 25 19)) (BitVec.ofNat 7 (bits w 18 12)) (BitVec.ofNat 4 (bits w 11 8)) (BitVec.ofNat 3 (bits w 7 5)) (bits w 4 4 == 1) (bits w 3 3 == 1) (bits w 2 2 == 1) (BitVec.ofNat 2 (bits w 1 0)) 0)

/-- Major 0x35 (R56): LDFUT, STFUT. -/
def decodeMajor35 (w : Nat) : Option Instr :=
  if bits w 4 0 = 0 ∧ bits w 7 6 = 1 then some (.ldfut (BitVec.ofNat 7 (bits w 25 19)) (BitVec.ofNat 7 (bits w 18 12)) (BitVec.ofNat 4 (bits w 11 8)) (bits w 5 5 == 1) 0)
  else if bits w 4 0 = 8 ∧ bits w 7 6 = 1 then some (.stfut (BitVec.ofNat 7 (bits w 25 19)) (BitVec.ofNat 7 (bits w 18 12)) (BitVec.ofNat 4 (bits w 11 8)) (bits w 5 5 == 1) 0)
  else none

/-- Major 0x3D (R56): STG. -/
def decodeMajor3D (w : Nat) : Option Instr :=
  if bits w 4 0 = 0 then some (.stg (BitVec.ofNat 7 (bits w 25 19)) (BitVec.ofNat 7 (bits w 18 12)) (BitVec.ofNat 4 (bits w 11 8)) (BitVec.ofNat 3 (bits w 7 5)) 0)
  else none

/-- Major 0x36 (R56): QPUSH, QPOP, QLEN. -/
def decodeMajor36 (w : Nat) : Option Instr :=
  if bits w 11 0 = 0 ∧ bits w 25 22 = 0 then some (.qpush (BitVec.ofNat 3 (bits w 21 19)) (BitVec.ofNat 7 (bits w 18 12)))
  else if bits w 11 0 = 1 ∧ bits w 18 15 = 0 then some (.qpop (BitVec.ofNat 7 (bits w 25 19)) (BitVec.ofNat 3 (bits w 14 12)))
  else if bits w 11 0 = 2 ∧ bits w 18 15 = 0 then some (.qlen (BitVec.ofNat 7 (bits w 25 19)) (BitVec.ofNat 3 (bits w 14 12)))
  else none

/-- Major 0x37 (R56): CINV, FENCE, ACQR, SIG, PREF, CWAIT, ALLOC, SPRES, GATH. -/
def decodeMajor37 (w : Nat) : Option Instr :=
  if bits w 7 0 = 2 ∧ bits w 25 12 = 0 then some (.cinv (BitVec.ofNat 4 (bits w 11 8)))
  else if bits w 7 0 = 0 ∧ bits w 25 17 = 0 then some (.fence (BitVec.ofNat 3 (bits w 16 14)) (BitVec.ofNat 2 (bits w 13 12)) (BitVec.ofNat 4 (bits w 11 8)))
  else if bits w 7 0 = 1 ∧ bits w 18 12 = 0 then some (.acqr (BitVec.ofNat 7 (bits w 25 19)) (BitVec.ofNat 4 (bits w 11 8)))
  else if bits w 7 0 = 5 ∧ bits w 18 12 = 0 then some (.sig (BitVec.ofNat 7 (bits w 25 19)) (BitVec.ofNat 4 (bits w 11 8)))
  else if bits w 7 0 = 3 ∧ bits w 18 13 = 0 then some (.pref (BitVec.ofNat 7 (bits w 25 19)) (bits w 12 12 == 1) (BitVec.ofNat 4 (bits w 11 8)))
  else if bits w 7 0 = 6 ∧ bits w 25 21 = 0 then some (.cwait (BitVec.ofNat 2 (bits w 20 19)) (bits w 18 18 == 1) (BitVec.ofNat 6 (bits w 17 12)) (BitVec.ofNat 4 (bits w 11 8)))
  else if bits w 7 0 = 4 then some (.alloc (BitVec.ofNat 7 (bits w 25 19)) (BitVec.ofNat 7 (bits w 18 12)) (BitVec.ofNat 4 (bits w 11 8)))
  else if bits w 7 0 = 7 then some (.spres (BitVec.ofNat 7 (bits w 25 19)) (BitVec.ofNat 7 (bits w 18 12)) (BitVec.ofNat 4 (bits w 11 8)))
  else if bits w 7 0 = 8 then some (.gath (BitVec.ofNat 7 (bits w 25 19)) (BitVec.ofNat 7 (bits w 18 12)) (BitVec.ofNat 4 (bits w 11 8)))
  else none

/-- Major 0x38 (R56): TZERO, AZERO, TLD, TST, MMA, MMAJ, ALD, AST, AQ. -/
def decodeMajor38 (w : Nat) : Option Instr :=
  if bits w 7 0 = 2 ∧ bits w 25 17 = 0 then some (.tzero (BitVec.ofNat 5 (bits w 16 12)) (BitVec.ofNat 4 (bits w 11 8)))
  else if bits w 7 0 = 8 ∧ bits w 25 17 = 0 then some (.azero (BitVec.ofNat 5 (bits w 16 12)) (BitVec.ofNat 4 (bits w 11 8)))
  else if bits w 7 0 = 0 ∧ bits w 18 12 = 0 then some (.tld (BitVec.ofNat 7 (bits w 25 19)) (BitVec.ofNat 4 (bits w 11 8)))
  else if bits w 7 0 = 1 ∧ bits w 18 12 = 0 then some (.tst (BitVec.ofNat 7 (bits w 25 19)) (BitVec.ofNat 4 (bits w 11 8)))
  else if bits w 7 0 = 3 ∧ bits w 18 12 = 0 then some (.mma (BitVec.ofNat 7 (bits w 25 19)) (BitVec.ofNat 4 (bits w 11 8)))
  else if bits w 7 0 = 4 ∧ bits w 18 12 = 0 then some (.mmaj (BitVec.ofNat 7 (bits w 25 19)) (BitVec.ofNat 4 (bits w 11 8)))
  else if bits w 7 0 = 5 ∧ bits w 18 12 = 0 then some (.ald (BitVec.ofNat 7 (bits w 25 19)) (BitVec.ofNat 4 (bits w 11 8)))
  else if bits w 7 0 = 6 ∧ bits w 18 12 = 0 then some (.ast (BitVec.ofNat 7 (bits w 25 19)) (BitVec.ofNat 4 (bits w 11 8)))
  else if bits w 7 0 = 7 ∧ bits w 18 12 = 0 then some (.aq (BitVec.ofNat 7 (bits w 25 19)) (BitVec.ofNat 4 (bits w 11 8)))
  else none

/-- Major 0x39 (R56): CPY, CPYT. -/
def decodeMajor39 (w : Nat) : Option Instr :=
  if bits w 7 0 = 0 then some (.cpy (BitVec.ofNat 7 (bits w 25 19)) (BitVec.ofNat 7 (bits w 18 12)) (BitVec.ofNat 4 (bits w 11 8)))
  else if bits w 7 0 = 1 then some (.cpyt (BitVec.ofNat 7 (bits w 25 19)) (BitVec.ofNat 7 (bits w 18 12)) (BitVec.ofNat 4 (bits w 11 8)))
  else none

/-- Major 0x3A (R56): BARR, BWAIT, BTRY, BEXP. -/
def decodeMajor3A (w : Nat) : Option Instr :=
  if bits w 7 0 = 0 ∧ bits w 25 19 = 0 then some (.barr (BitVec.ofNat 7 (bits w 18 12)) (BitVec.ofNat 4 (bits w 11 8)))
  else if bits w 7 0 = 2 ∧ bits w 25 19 = 0 then some (.bwait (BitVec.ofNat 7 (bits w 18 12)) (BitVec.ofNat 4 (bits w 11 8)))
  else if bits w 7 0 = 3 ∧ bits w 25 19 = 0 then some (.btry (BitVec.ofNat 7 (bits w 18 12)) (BitVec.ofNat 4 (bits w 11 8)))
  else if bits w 7 0 = 1 then some (.bexp (BitVec.ofNat 7 (bits w 25 19)) (BitVec.ofNat 7 (bits w 18 12)) (BitVec.ofNat 4 (bits w 11 8)))
  else none

/-- Major 0x3B (R56): SSLD, SSST, SSNAP, SSRB, SSCOPY, SSFREE, SSQRY. -/
def decodeMajor3B (w : Nat) : Option Instr :=
  if bits w 7 0 = 0 ∧ bits w 18 12 = 0 then some (.ssld (BitVec.ofNat 7 (bits w 25 19)) (BitVec.ofNat 4 (bits w 11 8)))
  else if bits w 7 0 = 1 ∧ bits w 18 12 = 0 then some (.ssst (BitVec.ofNat 7 (bits w 25 19)) (BitVec.ofNat 4 (bits w 11 8)))
  else if bits w 7 0 = 2 ∧ bits w 18 12 = 0 then some (.ssnap (BitVec.ofNat 7 (bits w 25 19)) (BitVec.ofNat 4 (bits w 11 8)))
  else if bits w 7 0 = 3 ∧ bits w 18 12 = 0 then some (.ssrb (BitVec.ofNat 7 (bits w 25 19)) (BitVec.ofNat 4 (bits w 11 8)))
  else if bits w 7 0 = 4 ∧ bits w 18 12 = 0 then some (.sscopy (BitVec.ofNat 7 (bits w 25 19)) (BitVec.ofNat 4 (bits w 11 8)))
  else if bits w 7 0 = 6 ∧ bits w 18 12 = 0 then some (.ssfree (BitVec.ofNat 7 (bits w 25 19)) (BitVec.ofNat 4 (bits w 11 8)))
  else if bits w 7 0 = 5 then some (.ssqry (BitVec.ofNat 7 (bits w 25 19)) (BitVec.ofNat 7 (bits w 18 12)) (BitVec.ofNat 4 (bits w 11 8)))
  else none

/-- Major 0x3C (R56): TKEND, TKSPLIT, SUCC, WPRED, TKSPAWN, SALLOC, SFREE, FPDON, FPVOID, BRK, TRAP, SLEEP, SVC, RDSR_VECTOR, RDSR_UNIFORM, WRSR. -/
def decodeMajor3C (w : Nat) : Option Instr :=
  if bits w 7 0 = 1 ∧ bits w 25 12 = 0 then some (.tkend (BitVec.ofNat 4 (bits w 11 8)))
  else if bits w 7 0 = 2 ∧ bits w 25 12 = 0 then some (.tksplit (BitVec.ofNat 4 (bits w 11 8)))
  else if bits w 7 0 = 11 ∧ bits w 25 12 = 0 then some (.succ (BitVec.ofNat 4 (bits w 11 8)))
  else if bits w 7 0 = 12 ∧ bits w 25 12 = 0 then some (.wpred (BitVec.ofNat 4 (bits w 11 8)))
  else if bits w 7 0 = 0 ∧ bits w 18 12 = 0 then some (.tkspawn (BitVec.ofNat 7 (bits w 25 19)) (BitVec.ofNat 4 (bits w 11 8)))
  else if bits w 7 0 = 4 ∧ bits w 18 12 = 0 then some (.salloc (BitVec.ofNat 7 (bits w 25 19)) (BitVec.ofNat 4 (bits w 11 8)))
  else if bits w 7 0 = 5 ∧ bits w 18 12 = 0 then some (.sfree (BitVec.ofNat 7 (bits w 25 19)) (BitVec.ofNat 4 (bits w 11 8)))
  else if bits w 7 0 = 9 ∧ bits w 18 12 = 0 then some (.fpdon (BitVec.ofNat 7 (bits w 25 19)) (BitVec.ofNat 4 (bits w 11 8)))
  else if bits w 7 0 = 10 ∧ bits w 18 12 = 0 then some (.fpvoid (BitVec.ofNat 7 (bits w 25 19)) (BitVec.ofNat 4 (bits w 11 8)))
  else if bits w 7 0 = 17 ∧ bits w 25 19 = 0 then some (.brk (BitVec.ofNat 7 (bits w 18 12)) (BitVec.ofNat 4 (bits w 11 8)))
  else if bits w 7 0 = 18 ∧ bits w 25 19 = 0 then some (.trap (BitVec.ofNat 7 (bits w 18 12)) (BitVec.ofNat 4 (bits w 11 8)))
  else if bits w 7 0 = 22 ∧ bits w 18 12 = 0 then some (.sleep (BitVec.ofNat 7 (bits w 25 19)) (BitVec.ofNat 4 (bits w 11 8)))
  else if bits w 11 0 = 16 then some (.svc (BitVec.ofNat 7 (bits w 25 19)) (BitVec.ofNat 7 (bits w 18 12)))
  else if bits w 11 0 = 19 then some (.rdsrVector (BitVec.ofNat 7 (bits w 25 19)) (BitVec.ofNat 7 (bits w 18 12)))
  else if bits w 11 0 = 20 then some (.rdsrUniform (BitVec.ofNat 7 (bits w 25 19)) (BitVec.ofNat 7 (bits w 18 12)))
  else if bits w 11 0 = 21 then some (.wrsr (BitVec.ofNat 7 (bits w 25 19)) (BitVec.ofNat 7 (bits w 18 12)))
  else if bits w 7 0 = 3 then some (.tkinfo (BitVec.ofNat 7 (bits w 25 19)) (BitVec.ofNat 7 (bits w 18 12)) (BitVec.ofNat 4 (bits w 11 8)))
  else if bits w 7 0 = 8 then some (.fpqry (BitVec.ofNat 7 (bits w 25 19)) (BitVec.ofNat 7 (bits w 18 12)) (BitVec.ofNat 4 (bits w 11 8)))
  else none

/-- The instruction of one base word (R46, R56); none where the map assigns the word none (R68). -/
def decodeBase (w : Nat) : Option Instr :=
  match bits w 31 26 with
  | 0 => decodeMajor00 w
  | 1 => decodeMajor00 w
  | 2 => decodeMajor02 w
  | 3 => decodeMajor02 w
  | 4 => decodeMajor04 w
  | 5 => decodeMajor04 w
  | 6 => decodeMajor06 w
  | 7 => decodeMajor06 w
  | 8 => decodeMajor08 w
  | 9 => decodeMajor08 w
  | 10 => decodeMajor0A w
  | 11 => decodeMajor0A w
  | 12 => decodeMajor0C w
  | 13 => decodeMajor0C w
  | 14 => decodeMajor0E w
  | 16 => decodeMajor10 w
  | 17 => decodeMajor11 w
  | 18 => decodeMajor12 w
  | 19 => decodeMajor13 w
  | 20 => decodeMajor14 w
  | 21 => decodeMajor15 w
  | 22 => decodeMajor16 w
  | 24 => decodeMajor18 w
  | 25 => decodeMajor19 w
  | 26 => decodeMajor1A w
  | 27 => decodeMajor1B w
  | 28 => decodeMajor1C w
  | 29 => decodeMajor1D w
  | 32 => decodeMajor20 w
  | 33 => decodeMajor20 w
  | 34 => decodeMajor20 w
  | 35 => decodeMajor20 w
  | 36 => decodeMajor20 w
  | 37 => decodeMajor20 w
  | 38 => decodeMajor20 w
  | 39 => decodeMajor20 w
  | 40 => decodeMajor28 w
  | 41 => decodeMajor29 w
  | 42 => decodeMajor2A w
  | 44 => decodeMajor2C w
  | 45 => decodeMajor2D w
  | 46 => decodeMajor2E w
  | 47 => decodeMajor2F w
  | 48 => decodeMajor30 w
  | 49 => decodeMajor31 w
  | 50 => decodeMajor32 w
  | 51 => decodeMajor33 w
  | 52 => decodeMajor34 w
  | 53 => decodeMajor35 w
  | 54 => decodeMajor36 w
  | 55 => decodeMajor37 w
  | 56 => decodeMajor38 w
  | 57 => decodeMajor39 w
  | 58 => decodeMajor3A w
  | 59 => decodeMajor3B w
  | 60 => decodeMajor3C w
  | 61 => decodeMajor3D w
  | _ => none

/-- Field value `x` placed at bit `lo` of the word `w` under construction. -/
def put (x lo w : Nat) : Nat := w + x * 2 ^ lo

/-- The base word of an instruction (R46 to R67); 0 for an event, which has none. -/
def encodeBase : Instr → Nat
  | .add v d a b u => put u.toNat 4 (put b.toNat 5 (put a.toNat 12 (put d.toNat 19 (put v.toNat 26 0x00000000))))
  | .addc v d a b u => put u.toNat 4 (put b.toNat 5 (put a.toNat 12 (put d.toNat 19 (put v.toNat 26 0x00000001))))
  | .sub v d a b u => put u.toNat 4 (put b.toNat 5 (put a.toNat 12 (put d.toNat 19 (put v.toNat 26 0x00000002))))
  | .subb v d a b u => put u.toNat 4 (put b.toNat 5 (put a.toNat 12 (put d.toNat 19 (put v.toNat 26 0x00000003))))
  | .mul v d a b u => put u.toNat 4 (put b.toNat 5 (put a.toNat 12 (put d.toNat 19 (put v.toNat 26 0x00000004))))
  | .mulhiI v d a b u => put u.toNat 4 (put b.toNat 5 (put a.toNat 12 (put d.toNat 19 (put v.toNat 26 0x00000005))))
  | .mulhiN v d a b u => put u.toNat 4 (put b.toNat 5 (put a.toNat 12 (put d.toNat 19 (put v.toNat 26 0x00000006))))
  | .mad v d a b u => put u.toNat 4 (put b.toNat 5 (put a.toNat 12 (put d.toNat 19 (put v.toNat 26 0x00000007))))
  | .madWI d a b u => put u.toNat 4 (put b.toNat 5 (put a.toNat 12 (put d.toNat 19 0x00000008)))
  | .madWN d a b u => put u.toNat 4 (put b.toNat 5 (put a.toNat 12 (put d.toNat 19 0x00000009)))
  | .divI v d a b u => put u.toNat 4 (put b.toNat 5 (put a.toNat 12 (put d.toNat 19 (put v.toNat 26 0x0000000A))))
  | .divN v d a b u => put u.toNat 4 (put b.toNat 5 (put a.toNat 12 (put d.toNat 19 (put v.toNat 26 0x0000000B))))
  | .remI v d a b u => put u.toNat 4 (put b.toNat 5 (put a.toNat 12 (put d.toNat 19 (put v.toNat 26 0x0000000C))))
  | .remN v d a b u => put u.toNat 4 (put b.toNat 5 (put a.toNat 12 (put d.toNat 19 (put v.toNat 26 0x0000000D))))
  | .add64 d a b u => put u.toNat 4 (put b.toNat 5 (put a.toNat 12 (put d.toNat 19 0x0000000E)))
  | .sub64 d a b u => put u.toNat 4 (put b.toNat 5 (put a.toNat 12 (put d.toNat 19 0x0000000F)))
  | .and v d a b u => put u.toNat 4 (put b.toNat 5 (put a.toNat 12 (put d.toNat 19 (put v.toNat 26 0x08000000))))
  | .or v d a b u => put u.toNat 4 (put b.toNat 5 (put a.toNat 12 (put d.toNat 19 (put v.toNat 26 0x08000001))))
  | .xor v d a b u => put u.toNat 4 (put b.toNat 5 (put a.toNat 12 (put d.toNat 19 (put v.toNat 26 0x08000002))))
  | .andn v d a b u => put u.toNat 4 (put b.toNat 5 (put a.toNat 12 (put d.toNat 19 (put v.toNat 26 0x08000003))))
  | .shl v d a b u => put u.toNat 4 (put b.toNat 5 (put a.toNat 12 (put d.toNat 19 (put v.toNat 26 0x08000004))))
  | .shr v d a b u => put u.toNat 4 (put b.toNat 5 (put a.toNat 12 (put d.toNat 19 (put v.toNat 26 0x08000005))))
  | .sar v d a b u => put u.toNat 4 (put b.toNat 5 (put a.toNat 12 (put d.toNat 19 (put v.toNat 26 0x08000006))))
  | .rotl v d a b u => put u.toNat 4 (put b.toNat 5 (put a.toNat 12 (put d.toNat 19 (put v.toNat 26 0x08000007))))
  | .popc v d a u => put u.toNat 4 (put a.toNat 12 (put d.toNat 19 (put v.toNat 26 0x08000008)))
  | .clz v d a u => put u.toNat 4 (put a.toNat 12 (put d.toNat 19 (put v.toNat 26 0x08000009)))
  | .brev v d a u => put u.toNat 4 (put a.toNat 12 (put d.toNat 19 (put v.toNat 26 0x0800000A)))
  | .minI v d a b u => put u.toNat 4 (put b.toNat 5 (put a.toNat 12 (put d.toNat 19 (put v.toNat 26 0x0800000B))))
  | .minN v d a b u => put u.toNat 4 (put b.toNat 5 (put a.toNat 12 (put d.toNat 19 (put v.toNat 26 0x0800000C))))
  | .maxI v d a b u => put u.toNat 4 (put b.toNat 5 (put a.toNat 12 (put d.toNat 19 (put v.toNat 26 0x0800000D))))
  | .maxN v d a b u => put u.toNat 4 (put b.toNat 5 (put a.toNat 12 (put d.toNat 19 (put v.toNat 26 0x0800000E))))
  | .abs v d a u => put u.toNat 4 (put a.toNat 12 (put d.toNat 19 (put v.toNat 26 0x0800000F)))
  | .bfxI v d a b u => put u.toNat 4 (put b.toNat 5 (put a.toNat 12 (put d.toNat 19 (put v.toNat 26 0x10000000))))
  | .bfxN v d a b u => put u.toNat 4 (put b.toNat 5 (put a.toNat 12 (put d.toNat 19 (put v.toNat 26 0x10000001))))
  | .bfi v d a b u => put u.toNat 4 (put b.toNat 5 (put a.toNat 12 (put d.toNat 19 (put v.toNat 26 0x10000002))))
  | .prmt v d a b u => put u.toNat 4 (put b.toNat 5 (put a.toNat 12 (put d.toNat 19 (put v.toNat 26 0x10000003))))
  | .mov v d b u => put u.toNat 4 (put b.toNat 5 (put d.toNat 19 (put v.toNat 26 0x10000004)))
  | .lea1 v d a b u => put u.toNat 4 (put b.toNat 5 (put a.toNat 12 (put d.toNat 19 (put v.toNat 26 0x10000005))))
  | .lea2 v d a b u => put u.toNat 4 (put b.toNat 5 (put a.toNat 12 (put d.toNat 19 (put v.toNat 26 0x10000006))))
  | .lea4 v d a b u => put u.toNat 4 (put b.toNat 5 (put a.toNat 12 (put d.toNat 19 (put v.toNat 26 0x10000007))))
  | .lea8 v d a b u => put u.toNat 4 (put b.toNat 5 (put a.toNat 12 (put d.toNat 19 (put v.toNat 26 0x10000008))))
  | .addImm v d a i => put (i.toNat % 2 ^ 12) 0 (put a.toNat 12 (put d.toNat 19 (put v.toNat 26 0x18000000)))
  | .movi v d i => put (i.toNat % 2 ^ 12) 0 (put d.toNat 19 (put v.toNat 26 0x20000000))
  | .shlImm v d a c => put c.toNat 0 (put a.toNat 12 (put d.toNat 19 (put v.toNat 26 0x28000000)))
  | .shrImm v d a c => put c.toNat 0 (put a.toNat 12 (put d.toNat 19 (put v.toNat 26 0x28000100)))
  | .sarImm v d a c => put c.toNat 0 (put a.toNat 12 (put d.toNat 19 (put v.toNat 26 0x28000200)))
  | .rotlImm v d a c => put c.toNat 0 (put a.toNat 12 (put d.toNat 19 (put v.toNat 26 0x28000300)))
  | .icvt v d a s x y => put y.toNat 0 (put x.toNat 4 (put s.toNat 8 (put a.toNat 12 (put d.toNat 19 (put v.toNat 26 0x30000000)))))
  | .sel d a b u p => put p.toNat 0 (put u.toNat 4 (put b.toNat 5 (put a.toNat 12 (put d.toNat 19 0x38000000))))
  | .setp w p a b u c => put c.toNat 0 (put u.toNat 4 (put b.toNat 5 (put a.toNat 12 (put p.toNat 19 (put w.toNat 23 0x40000000)))))
  | .pand d a b => put b.toNat 5 (put a.toNat 12 (put d.toNat 19 0x44000000))
  | .por d a b => put b.toNat 5 (put a.toNat 12 (put d.toNat 19 0x44000001))
  | .pxor d a b => put b.toNat 5 (put a.toNat 12 (put d.toNat 19 0x44000002))
  | .pnot d a => put a.toNat 12 (put d.toNat 19 0x44000003)
  | .pmov d a => put a.toNat 12 (put d.toNat 19 0x44000004)
  | .shfl d a b u m => put m.toNat 0 (put u.toNat 4 (put b.toNat 5 (put a.toNat 12 (put d.toNat 19 0x48000000))))
  | .qswap d a m => put m.toNat 0 (put a.toNat 12 (put d.toNat 19 0x4C000000))
  | .voteAll d a => put a.toNat 12 (put d.toNat 19 0x50000000)
  | .voteAny d a => put a.toNat 12 (put d.toNat 19 0x50000001)
  | .voteBallot d a => put a.toNat 12 (put d.toNat 19 0x50000002)
  | .redux d a o => put o.toNat 0 (put a.toNat 12 (put d.toNat 19 0x54000000))
  | .rdlane d a b => put b.toNat 5 (put a.toNat 12 (put d.toNat 19 0x58000010))
  | .wrlane d a b => put b.toNat 5 (put a.toNat 12 (put d.toNat 19 0x58000011))
  | .br p c n o => put (o.toNat % 2 ^ 16) 0 (put n.toNat 16 (put c.toNat 17 (put p.toNat 21 0x60000000)))
  | .jmp p c n o => put (o.toNat % 2 ^ 16) 0 (put n.toNat 16 (put c.toNat 17 (put p.toNat 21 0x62000000)))
  | .call p l o => put (o.toNat % 2 ^ 16) 0 (put l.toNat 16 (put p.toNat 21 0x64000000))
  | .brx a p => put p.toNat 5 (put a.toNat 12 0x68000000)
  | .ret a p => put p.toNat 5 (put a.toNat 12 0x68000001)
  | .exit => 0x68000002
  | .nop => 0x68000003
  | .fsw => 0x68000004
  | .fbar => 0x68000005
  | .jen j => put j.toNat 19 0x68000006
  | .jwt j => put j.toNat 19 0x68000007
  | .jstr j => put j.toNat 19 0x68000008
  | .wbase b => put b.toNat 0 0x6C000000
  | .grow n => put n.toNat 0 0x70000000
  | .shrink n => put n.toNat 0 0x74000000
  | .fadd t r d a b u => put u.toNat 4 (put b.toNat 5 (put a.toNat 12 (put d.toNat 19 (put r.toNat 26 (put t.toNat 27 0x80000000)))))
  | .fsub t r d a b u => put u.toNat 4 (put b.toNat 5 (put a.toNat 12 (put d.toNat 19 (put r.toNat 26 (put t.toNat 27 0x80000001)))))
  | .fmul t r d a b u => put u.toNat 4 (put b.toNat 5 (put a.toNat 12 (put d.toNat 19 (put r.toNat 26 (put t.toNat 27 0x80000002)))))
  | .fma t r d a b u => put u.toNat 4 (put b.toNat 5 (put a.toNat 12 (put d.toNat 19 (put r.toNat 26 (put t.toNat 27 0x80000003)))))
  | .fmin t r d a b u => put u.toNat 4 (put b.toNat 5 (put a.toNat 12 (put d.toNat 19 (put r.toNat 26 (put t.toNat 27 0x80000004)))))
  | .fmax t r d a b u => put u.toNat 4 (put b.toNat 5 (put a.toNat 12 (put d.toNat 19 (put r.toNat 26 (put t.toNat 27 0x80000005)))))
  | .fdiv t r d a b u => put u.toNat 4 (put b.toNat 5 (put a.toNat 12 (put d.toNat 19 (put r.toNat 26 (put t.toNat 27 0x80000006)))))
  | .frcp t r d a => put a.toNat 12 (put d.toNat 19 (put r.toNat 26 (put t.toNat 27 0x80000007)))
  | .frsq d a => put a.toNat 12 (put d.toNat 19 0x80000008)
  | .fsqrt t r d a => put a.toNat 12 (put d.toNat 19 (put r.toNat 26 (put t.toNat 27 0x80000009)))
  | .fexp2 d a => put a.toNat 12 (put d.toNat 19 0x8000000A)
  | .flog2 d a => put a.toNat 12 (put d.toNat 19 0x8000000B)
  | .fsinpi d a => put a.toNat 12 (put d.toNat 19 0x8000000C)
  | .fcospi d a => put a.toNat 12 (put d.toNat 19 0x8000000D)
  | .fclass t r d a => put a.toNat 12 (put d.toNat 19 (put r.toNat 26 (put t.toNat 27 0x8000000E)))
  | .frnd t r d a m => put m.toNat 5 (put a.toNat 12 (put d.toNat 19 (put r.toNat 26 (put t.toNat 27 0x8000000F))))
  | .fsetp w p a b u c => put c.toNat 0 (put u.toNat 4 (put b.toNat 5 (put a.toNat 12 (put p.toNat 19 (put w.toNat 23 0xA0000000)))))
  | .fcvt d a s r x y => put y.toNat 0 (put x.toNat 4 (put r.toNat 8 (put s.toNat 11 (put a.toNat 12 (put d.toNat 19 0xA4000000)))))
  | .dot4 d a b u t => put t.toNat 0 (put u.toNat 4 (put b.toNat 5 (put a.toNat 12 (put d.toNat 19 0xA8000000))))
  | .dot8 d a b u t => put t.toNat 0 (put u.toNat 4 (put b.toNat 5 (put a.toNat 12 (put d.toNat 19 0xA8000004))))
  | .wring d a b u => put u.toNat 4 (put b.toNat 5 (put a.toNat 12 (put d.toNat 19 0xA8000007)))
  | .scl d a s f => put f.toNat 5 (put s.toNat 10 (put a.toNat 12 (put d.toNat 19 0xA8000008)))
  | .qnt d a s l f => put f.toNat 5 (put l.toNat 8 (put s.toNat 10 (put a.toNat 12 (put d.toNat 19 0xA8000009))))
  | .dqnt d a s f => put f.toNat 5 (put s.toNat 10 (put a.toNat 12 (put d.toNat 19 0xA800000A)))
  | .p6x d r f => put f.toNat 5 (put r.toNat 8 (put d.toNat 19 0xA800000B))
  | .ld d b l w o c _ => put c.toNat 0 (put o.toNat 3 (put w.toNat 5 (put l.toNat 8 (put b.toNat 12 (put d.toNat 19 0xB0000000)))))
  | .ldacq d b l w c _ => put c.toNat 0 (put w.toNat 5 (put l.toNat 8 (put b.toNat 12 (put d.toNat 19 0xB0000010))))
  | .st d b l w o c _ => put c.toNat 0 (put o.toNat 3 (put w.toNat 5 (put l.toNat 8 (put b.toNat 12 (put d.toNat 19 0xB4000000)))))
  | .strel d b l w c _ => put c.toNat 0 (put w.toNat 5 (put l.toNat 8 (put b.toNat 12 (put d.toNat 19 0xB4000018))))
  | .lds d b l w k _ => put k.toNat 0 (put w.toNat 5 (put l.toNat 8 (put b.toNat 12 (put d.toNat 19 0xB8000000))))
  | .sts d b l w k _ => put k.toNat 0 (put w.toNat 5 (put l.toNat 8 (put b.toNat 12 (put d.toNat 19 0xBC000000))))
  | .ldk d b l w o c _ => put c.toNat 0 (put o.toNat 3 (put w.toNat 5 (put l.toNat 8 (put b.toNat 12 (put d.toNat 19 0xC0000000)))))
  | .ld6 d b l o c _ => put c.toNat 0 (put o.toNat 3 (put l.toNat 8 (put b.toNat 12 (put d.toNat 19 0xC4000000))))
  | .atom d b l w o x s _ => put s.toNat 0 (put x.toNat 2 (put o.toNat 3 (put w.toNat 5 (put l.toNat 8 (put b.toNat 12 (put d.toNat 19 0xC8000000))))))
  | .atom64 d b l w o x s _ => put s.toNat 0 (put x.toNat 2 (put o.toNat 3 (put w.toNat 5 (put l.toNat 8 (put b.toNat 12 (put d.toNat 19 0xCC000000))))))
  | .atomp d b l m o s _ => put s.toNat 0 (put o.toNat 3 (put m.toNat 5 (put l.toNat 8 (put b.toNat 12 (put d.toNat 19 0xCC000084)))))
  | .red d b l w z r x s _ => put s.toNat 0 (put x.toNat 2 (put r.toNat 3 (put z.toNat 4 (put w.toNat 5 (put l.toNat 8 (put b.toNat 12 (put d.toNat 19 0xD0000000)))))))
  | .ldfut d b l w _ => put w.toNat 5 (put l.toNat 8 (put b.toNat 12 (put d.toNat 19 0xD4000040)))
  | .stfut d b l w _ => put w.toNat 5 (put l.toNat 8 (put b.toNat 12 (put d.toNat 19 0xD4000048)))
  | .stg d b l w _ => put w.toNat 5 (put l.toNat 8 (put b.toNat 12 (put d.toNat 19 0xF4000000)))
  | .qpush q a => put a.toNat 12 (put q.toNat 19 0xD8000000)
  | .qpop d q => put q.toNat 12 (put d.toNat 19 0xD8000001)
  | .qlen d q => put q.toNat 12 (put d.toNat 19 0xD8000002)
  | .fence p k l => put l.toNat 8 (put k.toNat 12 (put p.toNat 14 0xDC000000))
  | .acqr s l => put l.toNat 8 (put s.toNat 19 0xDC000001)
  | .cinv l => put l.toNat 8 0xDC000002
  | .pref s v l => put l.toNat 8 (put v.toNat 12 (put s.toNat 19 0xDC000003))
  | .alloc s d l => put l.toNat 8 (put d.toNat 12 (put s.toNat 19 0xDC000004))
  | .sig s l => put l.toNat 8 (put s.toNat 19 0xDC000005)
  | .cwait c q n l => put l.toNat 8 (put n.toNat 12 (put q.toNat 18 (put c.toNat 19 0xDC000006)))
  | .spres s d l => put l.toNat 8 (put d.toNat 12 (put s.toNat 19 0xDC000007))
  | .gath s d l => put l.toNat 8 (put d.toNat 12 (put s.toNat 19 0xDC000008))
  | .tld s l => put l.toNat 8 (put s.toNat 19 0xE0000000)
  | .tst s l => put l.toNat 8 (put s.toNat 19 0xE0000001)
  | .tzero t l => put l.toNat 8 (put t.toNat 12 0xE0000002)
  | .mma s l => put l.toNat 8 (put s.toNat 19 0xE0000003)
  | .mmaj s l => put l.toNat 8 (put s.toNat 19 0xE0000004)
  | .ald s l => put l.toNat 8 (put s.toNat 19 0xE0000005)
  | .ast s l => put l.toNat 8 (put s.toNat 19 0xE0000006)
  | .aq s l => put l.toNat 8 (put s.toNat 19 0xE0000007)
  | .azero a l => put l.toNat 8 (put a.toNat 12 0xE0000008)
  | .cpy s b l => put l.toNat 8 (put b.toNat 12 (put s.toNat 19 0xE4000000))
  | .cpyt s b l => put l.toNat 8 (put b.toNat 12 (put s.toNat 19 0xE4000001))
  | .barr b l => put l.toNat 8 (put b.toNat 12 0xE8000000)
  | .bexp s b l => put l.toNat 8 (put b.toNat 12 (put s.toNat 19 0xE8000001))
  | .bwait b l => put l.toNat 8 (put b.toNat 12 0xE8000002)
  | .btry b l => put l.toNat 8 (put b.toNat 12 0xE8000003)
  | .ssld s l => put l.toNat 8 (put s.toNat 19 0xEC000000)
  | .ssst s l => put l.toNat 8 (put s.toNat 19 0xEC000001)
  | .ssnap s l => put l.toNat 8 (put s.toNat 19 0xEC000002)
  | .ssrb s l => put l.toNat 8 (put s.toNat 19 0xEC000003)
  | .sscopy s l => put l.toNat 8 (put s.toNat 19 0xEC000004)
  | .ssqry s d l => put l.toNat 8 (put d.toNat 12 (put s.toNat 19 0xEC000005))
  | .ssfree s l => put l.toNat 8 (put s.toNat 19 0xEC000006)
  | .tkspawn s l => put l.toNat 8 (put s.toNat 19 0xF0000000)
  | .tkend l => put l.toNat 8 0xF0000001
  | .tksplit l => put l.toNat 8 0xF0000002
  | .tkinfo s d l => put l.toNat 8 (put d.toNat 12 (put s.toNat 19 0xF0000003))
  | .salloc s l => put l.toNat 8 (put s.toNat 19 0xF0000004)
  | .sfree s l => put l.toNat 8 (put s.toNat 19 0xF0000005)
  | .fpqry s d l => put l.toNat 8 (put d.toNat 12 (put s.toNat 19 0xF0000008))
  | .fpdon s l => put l.toNat 8 (put s.toNat 19 0xF0000009)
  | .fpvoid s l => put l.toNat 8 (put s.toNat 19 0xF000000A)
  | .succ l => put l.toNat 8 0xF000000B
  | .wpred l => put l.toNat 8 0xF000000C
  | .svc s x => put x.toNat 12 (put s.toNat 19 0xF0000010)
  | .brk c l => put l.toNat 8 (put c.toNat 12 0xF0000011)
  | .trap c l => put l.toNat 8 (put c.toNat 12 0xF0000012)
  | .rdsrVector d x => put x.toNat 12 (put d.toNat 19 0xF0000013)
  | .rdsrUniform d x => put x.toNat 12 (put d.toNat 19 0xF0000014)
  | .wrsr s x => put x.toNat 12 (put s.toNat 19 0xF0000015)
  | .sleep s l => put l.toNat 8 (put s.toNat 19 0xF0000016)
  | .sleepExpire _ => 0
  | .loadDataArrival _ _ => 0
  | .writeAcknowledge _ _ => 0
  | .redPerformed _ _ => 0
  | .translationWalkDone _ _ => 0
  | .copySectorArrival _ _ _ => 0
  | .engineOpComplete _ _ => 0
  | .barrierByteEvaluation _ _ => 0
  | .workgroupEnd _ => 0
  | .offcoreMove _ => 0
  | .offcoreReturn _ => 0
  | .svcReply _ => 0
  | .svcReplyTailWrite _ _ => 0
  | .launch _ => 0
  | .graphLoad _ => 0
  | .graphRun _ => 0
  | .graphUnload _ => 0
  | .graphNode _ => 0
  | .tasks _ => 0
  | .wait _ => 0
  | .signalAdd _ => 0
  | .signalWrite _ => 0
  | .lgive _ => 0
  | .ltake _ => 0
  | .footprintQuery _ => 0
  | .footprintVoid _ => 0
  | .footprintDonate _ => 0
  | .footprintResetAll _ => 0
  | .copy _ => 0
  | .marker _ => 0
  | .doorbell _ _ => 0
  | .queueEnable _ => 0
  | .queueDisable _ => 0
  | .queueMap _ => 0
  | .queueQuantumExpiry _ => 0
  | .launchAdmission _ => 0
  | .workgroupDispatch _ _ => 0
  | .launchConfirm _ => 0
  | .darningStart _ => 0
  | .taskDispatch _ _ => 0
  | .taskCommit _ => 0
  | .taskTimeExpiry _ => 0
  | .taskUnpick _ => 0
  | .batchIteration _ => 0
  | .batchCommit _ => 0
  | .roleMonitorWindow _ _ => 0
  | .forwardProgressSwap _ => 0
  | .swapReadmit _ _ => 0
  | .serviceReplay _ => 0
  | .serviceSkip _ => 0
  | .serviceEndLanes _ => 0
  | .serviceExtract _ => 0
  | .serviceRestore _ => 0
  | .serviceReplaySectors _ => 0
  | .serviceEndWorkgroup _ => 0
  | .serviceRespawn _ => 0
  | .serviceDiscard _ => 0
  | .serviceEndContext _ => 0
  | .pageRequestResponse _ _ _ => 0
  | .atsInvalidation _ _ _ => 0
  | .translationInvalidate _ _ _ => 0
  | .ringDescriptorWrite _ _ _ _ => 0
  | .hangWatchdogExpiry _ => 0
  | .saveWatchdogExpiry _ => 0
  | .preemptPasid _ => 0
  | .resumePasid _ => 0
  | .seizePod _ _ _ => 0
  | .seizeRequestMessage _ _ _ => 0
  | .releasePod => 0
  | .discardFrozen _ _ => 0
  | .teardownPasid _ => 0
  | .readSensors => 0
  | .readEventLog _ _ => 0
  | .stageImage _ _ _ _ => 0
  | .activateImage _ => 0
  | .egressLock => 0
  | .hostCounterWrite _ _ _ => 0
  | .registerWrite _ _ _ => 0
  | .functionLevelReset => 0
  | .hostPostedWrite _ _ _ => 0
  | .hostAtomicOp _ _ _ _ _ => 0
  | .getVersion => 0
  | .getCapabilities => 0
  | .negotiateAlgorithms _ => 0
  | .getDigests => 0
  | .getCertificate _ _ => 0
  | .challenge _ => 0
  | .getMeasurements _ => 0
  | .mctpSensorRead _ => 0
  | .fabricFlit _ _ => 0
  | .linkSilenceTimeout _ => 0
  | .idleFlitTimer _ => 0
  | .peerHeartbeatTimeout _ => 0
  | .linkEventBroadcast _ _ _ => 0
  | .cpHeartbeatTimeout => 0
  | .cpTakeover => 0
  | .sensorSample _ => 0
  | .powerLimitExcess => 0
  | .thermalTrip => 0
  | .scrub _ _ => 0
  | .powerOn _ => 0
  | .deviceReset => 0
  | .managementCoreReset => 0
  | .illegalInstruction => 0
  | .instructionFetchFault => 0
  | .l1SectorEviction _ _ => 0
  | .atsTranslationCompletion _ _ _ _ _ => 0
  | .eccError _ _ _ _ => 0
  | .powerLoss => 0

/-- Why a word sequence is no instruction (R68). -/
inductive DecodeError where
  /-- an unassigned major or function, or a nonzero field that the tables mark zero -/
  | unassigned
  /-- a field value that the field's class or code does not allow -/
  | illegalField
  /-- a nonzero bit of X[14:0], or gn or gp with ge = 0 -/
  | reservedPrefix
  /-- two prefixes of one kind, or a third prefix word -/
  | repeatedPrefix
  /-- K before a base word that R51 does not list -/
  | extensionNotAllowed
  /-- X with ge = 1 before format B -/
  | guardOnBranch
  /-- the words end before the base word -/
  | truncated
deriving DecidableEq, Repr

/-- One decoded instruction: its prefix X, its base word's meaning with the immediate whole, and its words. -/
structure Decoded where
  /-- the attributes of prefix X -/
  attr : Attr
  /-- the instruction -/
  instr : Instr
  /-- the words it takes, prefixes included -/
  words : Nat
deriving DecidableEq, Repr

/-- The immediate of K joined with the base word's own immediate (R51); none for a base word that K may not precede. -/
def applyK (k : Nat) : Instr → Option Instr
  | .addImm v d a i => some (.addImm v d a (BitVec.ofNat 38 (k % 2 ^ 26 * 2 ^ 12 + i.toNat % 2 ^ 12)))
  | .movi v d i => some (.movi v d (BitVec.ofNat 38 (k % 2 ^ 26 * 2 ^ 12 + i.toNat % 2 ^ 12)))
  | .br p c n o => some (.br p c n (BitVec.ofNat 42 (k % 2 ^ 26 * 2 ^ 16 + o.toNat % 2 ^ 16)))
  | .jmp p c n o => some (.jmp p c n (BitVec.ofNat 42 (k % 2 ^ 26 * 2 ^ 16 + o.toNat % 2 ^ 16)))
  | .call p l o => some (.call p l (BitVec.ofNat 42 (k % 2 ^ 26 * 2 ^ 16 + o.toNat % 2 ^ 16)))
  | .ld d b l w o c _ => some (.ld d b l w o c (BitVec.ofNat 26 k))
  | .ldacq d b l w c _ => some (.ldacq d b l w c (BitVec.ofNat 26 k))
  | .st d b l w o c _ => some (.st d b l w o c (BitVec.ofNat 26 k))
  | .strel d b l w c _ => some (.strel d b l w c (BitVec.ofNat 26 k))
  | .lds d b l w c _ => some (.lds d b l w c (BitVec.ofNat 26 k))
  | .sts d b l w c _ => some (.sts d b l w c (BitVec.ofNat 26 k))
  | .ldk d b l w o c _ => some (.ldk d b l w o c (BitVec.ofNat 26 k))
  | .ld6 d b l o c _ => some (.ld6 d b l o c (BitVec.ofNat 26 k))
  | .atom d b l w o x s _ => some (.atom d b l w o x s (BitVec.ofNat 26 k))
  | .atom64 d b l w o x s _ => some (.atom64 d b l w o x s (BitVec.ofNat 26 k))
  | .atomp d b l m o s _ => some (.atomp d b l m o s (BitVec.ofNat 26 k))
  | .red d b l w z r x s _ => some (.red d b l w z r x s (BitVec.ofNat 26 k))
  | .ldfut d b l w _ => some (.ldfut d b l w (BitVec.ofNat 26 k))
  | .stfut d b l w _ => some (.stfut d b l w (BitVec.ofNat 26 k))
  | .stg d b l w _ => some (.stg d b l w (BitVec.ofNat 26 k))
  | _ => none

/-- A format B instruction: it carries its own condition and takes no guard (R50). -/
def isFormatB : Instr → Bool
  | .br _ _ _ _ | .jmp _ _ _ _ | .call _ _ _ => true
  | _ => false

/-- The attributes of an X word; none where a reserved bit, or gn or gp with ge = 0, is set (R49, R68). -/
def decodeX (w : Nat) : Option Attr :=
  if bits w 14 0 = 0 ∧ (bits w 20 20 = 1 ∨ bits w 19 15 = 0) then
    some ⟨bits w 25 25 == 1, BitVec.ofNat 3 (bits w 24 22), bits w 21 21 == 1, bits w 20 20 == 1,
      bits w 19 19 == 1, BitVec.ofNat 4 (bits w 18 15)⟩
  else none

/-- The base word under its prefixes, with the checks of R50, R51 and R68. -/
def decodeUnder (x : Option Attr) (k : Option Nat) (n w : Nat) : Except DecodeError Decoded :=
  match decodeBase w with
  | none => .error .unassigned
  | some i =>
    match (match k with | none => some i | some k => applyK k i) with
    | none => .error .extensionNotAllowed
    | some j =>
      if isFormatB j && (x.getD Attr.none).ge then .error .guardOnBranch
      else if WellFormed j then .ok ⟨x.getD Attr.none, j, n⟩
      else .error .illegalField

/-- One instruction from a sequence of words: at most one prefix of each kind, in either order, then a base word
(R44). `x` and `k` are the prefixes read so far and `n` their number. -/
def decodeFrom (x : Option Attr) (k : Option Nat) (n : Nat) : List Nat → Except DecodeError Decoded
  | [] => .error .truncated
  | w :: l =>
    if bits w 31 26 = 0x3F then
      (if x.isSome || decide (n ≥ 2) then .error .repeatedPrefix
       else match decodeX w with
         | none => .error .reservedPrefix
         | some a => decodeFrom (some a) k (n + 1) l)
    else if bits w 31 26 = 0x3E then
      (if k.isSome || decide (n ≥ 2) then .error .repeatedPrefix
       else decodeFrom x (some (bits w 25 0)) (n + 1) l)
    else decodeUnder x k (n + 1) w

/-- One instruction from a sequence of words. -/
def decodeWords (l : List Nat) : Except DecodeError Decoded := decodeFrom none none 0 l

/-- The words that bytes in memory hold, little-endian (R8, R44); bytes short of a word are left out. -/
def wordsOfBytes : List Byte → List Nat
  | a :: b :: c :: d :: l => ofBytes [a, b, c, d] :: wordsOfBytes l
  | _ => []

/-- One instruction from bytes as they lie in memory, with the bytes after it. -/
def decodeBytes (l : List Byte) : Except DecodeError (Decoded × List Byte) :=
  match decodeWords (wordsOfBytes l) with
  | .error e => .error e
  | .ok d => .ok (d, l.drop (4 * d.words))

/-- The three words, least significant first, of an instruction of `nbits` bits given as one number; bits above are zero. -/
def tableWords (nbits w : Nat) : List Nat :=
  let x := w % 2 ^ nbits
  [bits x 31 0, bits x 63 32, bits x 95 64]

/-- What the decoder reads from an instruction numbered as the opcode table numbers its bits. -/
def decodeTableWord (nbits w : Nat) : Option Instr :=
  match decodeWords (tableWords nbits w) with
  | .ok d => some d.instr
  | .error _ => none

/-- The K word an instruction needs: its immediate, offset or displacement does not fit the base field (R51, R77). -/
def encodeK : Instr → List Nat
  | .addImm _ _ _ i | .movi _ _ i =>
    if sextField 12 38 i.toNat = i then [] else [0xF8000000 + i.toNat / 2 ^ 12]
  | .br _ _ _ o | .jmp _ _ _ o | .call _ _ o =>
    if sextField 16 42 o.toNat = o then [] else [0xF8000000 + o.toNat / 2 ^ 16]
  | .ld _ _ _ _ _ _ k | .ldacq _ _ _ _ _ k | .st _ _ _ _ _ _ k | .strel _ _ _ _ _ k | .lds _ _ _ _ _ k
  | .sts _ _ _ _ _ k | .ldk _ _ _ _ _ _ k | .ld6 _ _ _ _ _ k | .atom _ _ _ _ _ _ _ k | .atom64 _ _ _ _ _ _ _ k
  | .atomp _ _ _ _ _ _ k | .red _ _ _ _ _ _ _ _ k | .ldfut _ _ _ _ k | .stfut _ _ _ _ k | .stg _ _ _ _ k =>
    if k = 0 then [] else [0xF8000000 + k.toNat]
  | _ => []

/-- The X word of the attributes; none is needed when all hold their defaults (R49, R77). -/
def encodeX (a : Attr) : List Nat :=
  if a = Attr.none then []
  else [0xFC000000 + a.sos.toNat * 2 ^ 25 + a.gap.toNat * 2 ^ 22 + a.yield.toNat * 2 ^ 21 + a.ge.toNat * 2 ^ 20
    + a.gn.toNat * 2 ^ 19 + a.gp.toNat * 2 ^ 15]

/-- An attribute group that decoding can give: gn and gp are clear without ge (R49). -/
def Attr.wf (a : Attr) : Bool := a.ge || (!a.gn && decide (a.gp = 0))

/-- The words of an instruction: X, then K, then the base word (R77). -/
def encode (a : Attr) (i : Instr) : List Nat := encodeX a ++ encodeK i ++ [encodeBase i]

/-- The bytes of an instruction as memory holds them (R8, R44). -/
def encodeBytes (a : Attr) (i : Instr) : List Byte := (encode a i).flatMap (fun w => toBytes 4 w)

end Sys2Proof
end

