-- ==== Sys2Proof/Machine/State.lean ====
section
/-! DEFINITION. The state of one Treljan T9 module as plain data: everything the spec gives it, and the model's own
agenda, issue latch and counters. Large storages are sparse maps whose unlisted keys read zero. -/

namespace Sys2Proof

namespace Machine

/-- The kind of a frontier entry (R18). -/
inductive EKind where
  | run
  | parked
deriving DecidableEq, Repr

/-- A frontier entry (R18, R384). The program counter is kept in 64 bits so that a non-canonical target is seen at fetch (R60, R99). -/
structure Entry where
  kind : EKind
  /-- next address, or the replay address of a parked entry -/
  pc : Word64
  /-- parked only: the address after replay -/
  resume : Word64
  prio : BitVec 4
  mask : Mask
  /-- creation sequence number within the fibre -/
  age : Word
  /-- made by an SVC (R245) -/
  svc : Bool
  /-- its call tag -/
  tag : Word
  /-- place of a parked entry, 0 to 3 (R343) -/
  park : Nat
  /-- a run entry made by a replay that has not issued yet (R340) -/
  replay : Bool
  /-- identity of the held destinations of the faulted instruction (R339) -/
  hold : Nat
deriving DecidableEq, Repr

/-- A rejoin mask (R23). -/
structure Rejoin where
  enrolled : Mask
  arrived : Mask
  wpc : Word64
  /-- the next address of the JWT at wpc (R24) -/
  wnext : Word64
  wprio : BitVec 4
deriving DecidableEq, Repr

/-- A rejoin mask at start (R42). -/
def Rejoin.zero : Rejoin := ⟨0, 0, 0, 0, 0⟩

/-- A register as the scoreboard names it: physical vector registers, uniforms, predicates (R52, R104). -/
inductive Reg where
  | v (phys : Nat)
  | u (n : Nat)
  | p (n : Nat)
deriving DecidableEq, Repr

/-- One value that a pending write will land: register, lane (0 for a uniform) and value. -/
structure PVal where
  reg : Reg
  lane : Nat
  val : Word64
deriving DecidableEq, Repr

/-- The pending write of one lane of a long-latency instruction (R52 to R54). -/
structure Pend where
  id : Nat
  /-- the instruction, shared by its lanes -/
  op : Nat
  /-- lane, or 32 for a fibre-level write -/
  lane : Nat
  vals : List PVal
  /-- remaining count of its shadow -/
  shadow : Nat
  /-- its data has arrived -/
  arrived : Bool
  /-- awaits a STFUT to this granule (R170) -/
  fut : Option Nat
  /-- awaits the engine operation of this number -/
  eng : Option Nat
  /-- a load-type access (R152) -/
  load : Bool
  /-- counted by cnt.gath -/
  gath : Bool
  /-- the returning data fails its check (R275) -/
  bad : Bool
  /-- the lanes that then take the data-check fault: its own, or every lane that was active (R161, R183) -/
  flanes : Mask
  /-- request places it takes, one for each sector (R268) -/
  places : Nat
  /-- address accessed, address of the instruction and its next address, for a data-check fault at arrival -/
  addr : Nat
  pc : Word64
  npc : Word64
deriving DecidableEq, Repr

/-- Destinations held by a faulted instruction (R339). -/
structure Held where
  id : Nat
  regs : List Reg
  pc : Word64
  shadow : Nat
deriving DecidableEq, Repr

/-- The classes of the engine counters (R36). -/
inductive Cls where
  | copy
  | mat
  | gath
  | coll
deriving DecidableEq, Repr

/-- One outstanding operation of a class, in issue order (R36). -/
structure OutOp where
  cls : Cls
  id : Nat
  done : Bool
deriving DecidableEq, Repr

/-- Why an instruction has not issued. -/
inductive Wait where
  | scoreboard
  | counter
  | queue
  | presence
  | barrier
  /-- a GROW by so many granules -/
  | grow (n : Nat)
  | acknowledge
  | acquire
  | translation
  | requestPlace
  | recordRoom
  | parkPlace
  | predecessors
  | preImages
  | poolRoom
  | ringRoom
  | partners
  | writeHold
  /-- every lane that is not parked waits in a rejoin mask (R24, R339) -/
  | rejoin
deriving DecidableEq, Repr

/-- The state of a resident fibre (R15); issuing is ready with the slot's issue. -/
inductive FStatus where
  | ready
  | blocked (w : Wait)
  | sleeping
  | atFbar
  | faultStopped
  | exited
deriving DecidableEq, Repr

/-- A fibre: its lanes' state and its own (01, R13 to R42). -/
structure Fibre where
  /-- its workgroup and its index in it -/
  wg : Nat
  fibid : Nat
  /-- its place -/
  core : Nat
  slot : Nat
  pos : Nat
  /-- false while it is off-core (R245) -/
  resident : Bool
  /-- saved by service op 4 until op 5 (R346) -/
  extracted : Bool
  status : FStatus
  /-- entries on chip (R18) -/
  frontier : List Entry
  /-- entries in the spill area (R20) -/
  spilled : List Entry
  nextAge : Word
  masks : Sparse Rejoin
  base : Nat
  size : Nat
  granted : BitVec 64
  ureg : Sparse Word64
  pred : Sparse Mask
  role : BitVec 2
  rm : BitVec 3
  fpstat : BitVec 6
  outst : List OutOp
  waitPhase : BitVec 128
  pend : List Pend
  held : List Held
  /-- counter for the identities of pending writes, holds and operations -/
  nextId : Nat
  present : Mask
  helper : Mask
  /-- the clock at which a sleep ends (R250); its remaining count while the context is saved -/
  sleep : Nat
  /-- acquire parts that are not complete (R178, R211): the bound on the identities of the earlier loads, and the scope -/
  acqs : List (Nat × Nat)
  /-- a write of it failed at a bad sector; its next release takes the data-check fault (R274, R275) -/
  wfail : Bool
  /-- one more than the clock of its last WRSR of `role`, which beats a flip of that clock (R39) -/
  roleAt : Nat
  /-- its GROW is to take the grow-deadlock fault, which has found no parked place or no room for its record yet (R319) -/
  deadlock : Bool
  /-- the BWAIT that blocks: barrier, creation number and address of its entry, and whether a release has freed it (R211) -/
  bwait : Option (Nat × Word × Word64 × Bool)
  /-- a move off the core was abandoned and no later call has parked the fibre (R385) -/
  noMove : Bool
  /-- its place of the off-core area: 64 × core + 4 × slot + position when it left (R383) -/
  home : Nat
  /-- address of its image while it is off the core -/
  imageAt : Nat
deriving DecidableEq, Repr

/-- An absent fibre: no lanes, no registers. -/
def Fibre.zero : Fibre :=
  ⟨0, 0, 0, 0, 0, false, false, .exited, [], [], 0, [], 0, 0, 0, [], [], 0, 0, 0, [], 0, [], [], 0, 0, 0, 0, [], false, 0, false, none, false, 0, 0⟩

/-- A push that has issued and waits for the writes before it to land (R175, R176). -/
structure Push where
  q : Nat
  fib : Nat
  /-- writes with a smaller identity are before it -/
  bound : Nat
  data : List Word
deriving DecidableEq, Repr

/-- A warp slot (R26, R35, R108, R315 to R317). -/
structure Slot where
  vreg : Sparse Word
  queues : Sparse (List Word)
  /-- pushes that have issued and are not appended yet, in issue order -/
  pushes : List Push
  /-- fibres that have arrived at the slot barrier -/
  fbarIn : List Nat
  fbarGen : Bool
  /-- the issuing fibre -/
  issuing : Option Nat
  /-- the position that issued last; the round robin goes on after it (R316) -/
  last : Nat
  /-- moment of the last issue; the least recently issued slot has the least -/
  lastIssue : Nat
  gapUntil : Nat
  yield : Bool
  wg : Option Nat
  /-- the role monitor's window: its start, and whether every sample so far lay below the low mark or above the high mark -/
  monStart : Nat
  monLow : Bool
  monHigh : Bool
deriving DecidableEq, Repr

/-- A free slot; the round robin of R316 begins at position 0. -/
def Slot.zero : Slot := ⟨[], [], [], [], false, none, 3, 0, 0, false, none, 0, true, true⟩

/-- A named barrier (R37). -/
structure Barrier where
  bexp : Word
  bgot : Word
  atgt : BitVec 6
  agot : BitVec 6
  phase : Bool
deriving DecidableEq, Repr

/-- A barrier at start (R37). -/
def Barrier.zero : Barrier := ⟨0, 0, 0, 0, false⟩

/-- What a core knows of a page: a translation, or that there is none. -/
inductive TlbSt where
  | ok
  /-- no mapping (sub 0) -/
  | none_
  /-- a bad entry (sub 3) -/
  | bad
  /-- a host page that ATS reports absent (sub 2) -/
  | absent
deriving DecidableEq, Repr

/-- A cached translation (R349): the leaf entry of a 4 KiB page number, and the 4 KiB frame it gives (for a host page the
frame ATS gave). -/
structure Tlb where
  pasid : Nat
  vpn : Nat
  st : TlbSt
  leaf : Word64
  frame : Nat
deriving DecidableEq, Repr

/-- A walk, an ATS request or a page request that a core has outstanding (R349). -/
structure Walk where
  pasid : Nat
  vpn : Nat
  /-- 0 a table walk; 1 an ATS request -/
  stage : Nat
  write : Bool
deriving DecidableEq, Repr

/-- What a request to a home is (R325). -/
inductive Req where
  | read
  | write
  | cause
deriving DecidableEq, Repr

/-- A store that its home has not yet performed (R177, R266). -/
structure WBuf where
  id : Nat
  fib : Nat
  wg : Nat
  /-- memory key and bytes -/
  key : Nat
  data : List Byte
  va : Nat
  /-- sets the future bit and answers held requests (R171) -/
  fut : Bool
  /-- a scratchpad store to another core -/
  spad : Bool
  /-- its line goes through L2: device memory with home 00 or 11 (R259) -/
  l2 : Bool
  /-- the check value that its packet carries (R272, R273) -/
  check : Word
deriving DecidableEq, Repr

/-- A reduction that its home has not yet performed (R166). -/
structure RedOp where
  id : Nat
  fib : Nat
  wg : Nat
  op : Nat
  key : Nat
  va : Nat
  code : Nat
  wide : Bool
  val : Word64
  /-- its line goes through L2 (R259) -/
  l2 : Bool
  /-- the check value that its packet carries (R272, R273) -/
  check : Word
deriving DecidableEq, Repr

/-- The engine operations of majors 0x38 and 0x3B. -/
inductive EngK where
  | tld | tst | tzero | mma | mmaj | ald | ast | aq | azero
  | ssld | ssst | ssnap | ssrb | sscopy | ssqry | ssfree
deriving DecidableEq, Repr

/-- An issued engine operation: its block as read at issue, its scales and bitmap, and what it reads and writes in the
tile order (R189, R190, R197). Tile t is resource t, accumulator a is resource 32 + a, state-store entry e is 64 + e. -/
structure EngOp where
  id : Nat
  fib : Nat
  wg : Nat
  kind : EngK
  blk : List Nat
  sa : List Word
  sb : List Word
  bm : List Nat
  reads : List Nat
  writes : List Nat
  /-- sectors still due of a memory transfer (R207) -/
  due : List Nat
  /-- sectors whose fault awaits service -/
  stalled : List Nat
  /-- identity of the state-store entry, and of the destination of SSCOPY -/
  ent : Option Nat
  ent2 : Option Nat
  created : Bool
  /-- MMAJ: rendezvous number within the workgroup, and cores that have still to consume the B tile (R200) -/
  turn : Nat
  left : Nat
  pc : Word64
  /-- an MMAJ whose four accumulators are written while other cores still read its B tile (R200) -/
  done : Bool
  /-- it read a tile, an accumulator or an entry with an error that cannot be corrected (R276) -/
  broken : Bool
  /-- it has found no room among the pre-images, and waits for its predecessors (R334) -/
  preHeld : Bool
deriving DecidableEq, Repr

/-- A copy in flight (R205 to R207). -/
structure CopyOp where
  id : Nat
  fib : Nat
  wg : Nat
  tile : Bool
  src : Nat
  /-- extents of the dimensions in use and strides of dimensions 1 and up -/
  ext : List Nat
  str : List Nat
  /-- memory key of the first destination byte -/
  dst : Nat
  /-- core and workgroup it delivers into, and its scratchpad offset there -/
  tcore : Nat
  twg : Nat
  off : Nat
  bar : Nat
  total : Nat
  due : List Nat
  stalled : List Nat
  /-- it replays: its sectors come in ascending order (R377) -/
  ordered : Bool
  pc : Word64
deriving DecidableEq, Repr

/-- A state-store entry (R43, R212 to R218). -/
structure SSEntry where
  /-- identity, by which issued operations name it (the model's own) -/
  uid : Nat
  /-- entry index: its nine blocks of the state store -/
  idx : Nat
  /-- freed at issue; its earlier operations are not all performed -/
  dead : Bool
  sslot : Nat
  layer : Nat
  /-- valid ring places, oldest first: token position and block 1 to 8 -/
  ring : List (Nat × Nat)
  spill : Nat
deriving DecidableEq, Repr

/-- An SRAM word with an error that its code cannot correct (R276). -/
inductive Ecc where
  | vec (slot phys lane : Nat)
  | uni (fib n : Nat)
  | prd (fib n : Nat)
  | line (n : Nat)
  | tile (t : Nat)
  | acc (a : Nat)
  | ss (idx : Nat)
deriving DecidableEq, Repr

/-- A core (01 R37, 07, 08, 10). Scratchpad, tiles and accumulators lie in the memory of the state. -/
structure Core where
  l1 : Sparse (List Byte)
  /-- cached instruction words, each plus one -/
  icache : Sparse Nat
  tlb : List Tlb
  walks : List Walk
  wbuf : List WBuf
  reds : List RedOp
  /-- presence bits, held as absence: an unlisted line is present -/
  absent : Sparse Bool
  barriers : Sparse Barrier
  /-- barriers to which bytes came that the next evaluation must see (R209) -/
  evals : List Nat
  eng : List EngOp
  copies : List CopyOp
  ss : List SSEntry
  /-- stores issued before the most recent core-scope release have a smaller number (R180) -/
  rel : Nat
  nextId : Nat
  lastPasid : Option Nat
  lastLaunch : Option Nat
  clock0 : Nat
  lastSwap : Nat
  poweredOff : Bool
  ecc : List Ecc
  /-- fibres with posted host writes that no flushing read has followed, with the host port that carried each (R284) -/
  posted : List (Nat × Bool)
  /-- the next packet that the core has performed at once, of an atomic, an engine or a drain, fails its check in transit for good (R274) -/
  lost : Bool
deriving DecidableEq, Repr

/-- A core after reset. -/
def Core.zero : Core := ⟨[], [], [], [], [], [], [], [], [], [], [], [], 0, 0, none, none, 0, 0, false, [], [], false⟩

/-- A staged store of a task (R228). -/
structure Staged where
  va : Nat
  data : List Byte
  pc : Word64
deriving DecidableEq, Repr

/-- A held signal (R184). -/
structure HeldSig where
  ctr : Nat
  op : Nat
  val : Word64
deriving DecidableEq, Repr

/-- How far a workgroup has come. -/
inductive WgState where
  | running
  | committing
  | unpicking
  | swapped
  | saved
  | ended
deriving DecidableEq, Repr

/-- A workgroup (R2, R225, R298, R389). -/
structure Workgroup where
  id : Nat
  pasid : Nat
  /-- its launch, none for a task -/
  launch : Option Nat
  core : Nat
  state : WgState
  firstSlot : Nat
  nslots : Nat
  nfib : Nat
  kps : Nat
  nlane : Nat
  x : Nat
  y : Nat
  z : Nat
  /-- scratchpad allocation and staging area, in bytes from the core's scratchpad -/
  sbase : Nat
  ssize : Nat
  stageSize : Nat
  tbase : Nat
  ntile : Nat
  abase : Nat
  nacc : Nat
  bbase : Nat
  nbar : Nat
  succ : Bool
  bound : Bool
  /-- kernel marked .task, and the running record with its pool place -/
  isTask : Bool
  task : Nat
  place : Nat
  staged : List Staged
  stagedUsed : Nat
  stagedRecs : List Nat
  sigs : List HeldSig
  /-- clocks of the time count up to a moment, and that moment (R225) -/
  timeAcc : Nat
  timeSince : Nat
  tkend : Bool
  trigger : Option Word64
  /-- commit step reached (R231) -/
  step : Nat
  /-- the commit or the split waits for the service of a fault at that step (R231, R233) -/
  waits : Bool
  admitted : Nat
  /-- cluster group: its first workgroup and its size; MMAJs issued -/
  cg : Nat
  cgSize : Nat
  mmajs : Nat
  /-- the 512 bits of its kernel's descriptor -/
  descr : Nat
  /-- while it is saved or swapped out: its core and its state before (R386), and the number of its image in the save area (R354) -/
  home : Nat
  was : WgState
  image : Nat
deriving DecidableEq, Repr

/-- An absent workgroup. -/
def Workgroup.zero : Workgroup :=
  ⟨0, 0, none, 0, .ended, 0, 0, 0, 1, 0, 0, 0, 0, 0, 0, 0, 0, 0, 0, 0, 0, 0, false, false, false, 0, 0, [], 0, [], [], 0, 0,
    false, none, 0, false, 0, 0, 1, 0, 0, 0, .running, 0⟩

/-- An extent of a footprint record, or a run of tiles: argument index, first tile, count (R323). -/
structure Extent where
  arg : Nat
  first : Nat
  count : Nat
deriving DecidableEq, Repr

/-- How the footprint of a launch was admitted (R324, R329). -/
inductive FpMode where
  | strict
  | learning
  | checked
deriving DecidableEq, Repr

/-- A launch (R296, R327, R328, R335). -/
structure Launch where
  id : Nat
  pasid : Nat
  queue : Nat
  pidx : Word
  user : Word
  launchid : Word
  tag : BitVec 8
  hint : Bool
  strict : Bool
  desc : Nat
  args : Nat
  nx : Nat
  ny : Nat
  nz : Nat
  cg : Nat
  sctr : Nat
  sop : Nat
  ssc : Bool
  sval : Word64
  men : Bool
  lw : Nat
  hw : Nat
  wlog : Nat
  /-- reached the head of its stream (R327) -/
  admitted : Bool
  /-- may run: passed the early test or its predecessors are done -/
  started : Bool
  fp : FpMode
  /-- place of its record in the table, none without one -/
  fprec : Option Nat
  /-- virtual tiles of the admitted sets, as first tile and count -/
  rset : List (Nat × Nat)
  wset : List (Nat × Nat)
  /-- unconfirmed predecessors it is early with respect to -/
  early : List Nat
  learnR : List Nat
  learnW : List Nat
  sawAtomic : Bool
  sawHost : Bool
  sawRemote : Bool
  overflow : Bool
  strayed : Bool
  causeOnly : Bool
  /-- workgroups started and ended -/
  begun : Nat
  ended : Nat
  failed : Bool
  darnMarked : Bool
  darning : Bool
  sigs : List HeldSig
  /-- the kernel descriptor and the argument map as read when the packet began: 512 bits, and 16 bits for each argument -/
  kern : Nat
  amap : Nat
  /-- the values of its arguments as read when it started (R326, R375) -/
  argVals : List Word64
  /-- the graph slot whose run issued it, none for a packet's launch -/
  graph : Option Nat
  /-- it started early, until it is darned -/
  wasEarly : Bool
  /-- key hash (R320) -/
  hash : Word
deriving DecidableEq, Repr

/-- An absent launch. -/
def Launch.zero : Launch :=
  ⟨0, 0, 0, 0, 0, 0, 0, false, false, 0, 0, 0, 0, 0, 0, 0, 0, false, 0, false, 0, 0, 0, false, false, .strict, none, [], [], [],
    [], [], false, false, false, false, false, false, 0, 0, false, false, false, [], 0, 0, [], none, false, 0⟩

/-- A ring descriptor (R310). -/
structure Ring where
  base : Word64
  size : Word
  tail : Word64
  head : Word64
deriving DecidableEq, Repr

/-- A ring that nothing has configured. -/
def Ring.zero : Ring := ⟨0, 0, 0, 0⟩

/-- States of a footprint record (R322). -/
inductive FpState where
  | empty
  | learning
  | valid
  | void
deriving DecidableEq, Repr

/-- A footprint record (R322). -/
structure FpRec where
  kern : Nat
  hash : Word
  state : FpState
  perm : Bool
  atomics : Bool
  host : Bool
  overlap : Bool
  reason : Nat
  uses : Nat
  voids : Nat
  llaunch : Word
  read : List Extent
  write : List Extent
deriving DecidableEq, Repr

/-- A place of the table that holds no key (R321). -/
def FpRec.zero : FpRec := ⟨0, 0, .empty, false, false, false, false, 0, 0, 0, 0, [], []⟩

/-- An outstanding service call (R245, R246). -/
structure Call where
  tag : Word
  fib : Nat
  /-- first of its eight physical vector registers -/
  reg : Nat
  lanes : Mask
  answered : Mask
deriving DecidableEq, Repr

/-- A record of the task pool, or of the parked list: its place and its 512 bits (R307, R235). -/
structure PoolRec where
  place : Nat
  image : Nat
deriving DecidableEq, Repr

/-- An outstanding page request (R349, R377). -/
structure Prg where
  idx : Nat
  vpn : Nat
  write : Bool
  /-- a write faulted while the request asked for read only -/
  again : Bool
deriving DecidableEq, Repr

/-- A pre-image (R333). -/
structure PreImage where
  launch : Nat
  sector : Nat
  data : List Byte
  mask : BitVec 64
  /-- the check value of the data -/
  check : Word
deriving DecidableEq, Repr

/-- A mark of an early launch on a tile at its check slice (R330, R331). -/
structure Mark where
  launch : Nat
  tile : Nat
  read : Bool
  written : Bool
  /-- predecessors whose stray writes hold the tile until they confirm -/
  held : List Nat
deriving DecidableEq, Repr

/-- What a written fault record stands for, so that a service entry can act on it (R345, R346). -/
structure RecInfo where
  ridx : Word64
  kind : Nat
  src : Nat
  acc : Nat
  fib : Nat
  wg : Nat
  pc : Word64
  resume : Word64
  lanes : Mask
  left : Mask
  /-- page, engine operation or copy, pool place, page-request index -/
  page : Nat
  op : Nat
  place : Nat
  prg : Option Nat
  served : Bool
  /-- 1 an engine operation or a copy, 2 a task's commit or split, 3 a parked task, 0 anything else -/
  what : Nat
  /-- the 512 bits written -/
  image : Nat
deriving DecidableEq, Repr

/-- A fault record that waits for room in its ring (R342): its eight words as one number, and what it stands for. -/
structure WaitRec where
  image : Nat
  info : RecInfo
deriving DecidableEq, Repr

/-- How a context stands. -/
inductive CtxState where
  | active
  | preempted
  | saving
  | frozen
  | lost
  /-- a teardown runs -/
  | ended
  /-- torn down, until system software configures the PASID again -/
  | gone
deriving DecidableEq, Repr

/-- Batching configuration and the iteration in progress (R312, R313). -/
structure Batch where
  table : Word64
  count : Word64
  snap : Word64
  templ : Word64
  queue : BitVec 12
  ctr : BitVec 12
  /-- launch of the running iteration, entries included with the versions read -/
  launch : Option Nat
  included : List (Nat × Word64)
  /-- included entries that the commit has dealt with (R313 step 3) -/
  next : Nat
deriving DecidableEq, Repr

/-- No batching. -/
def Batch.zero : Batch := ⟨0, 0, 0, 0, 0, 0, none, [], 0⟩

/-- A context (R392 and the records of 09, 12, 13, 14). -/
structure Ctx where
  root : Nat
  faultRing : Ring
  serviceRing : Ring
  reqRing : Ring
  repRing : Ring
  offcore : Word64
  save : Word64
  fptab : Word64
  preBase : Word64
  preUnits : BitVec 7
  taskBase : Word64
  taskPlaces : BitVec 21
  vectors : Word64
  egress : List (Word64 × Word64)
  batch : Batch
  callCtr : Word
  calls : List Call
  fp : Sparse FpRec
  nextLaunch : Word
  pool : List PoolRec
  parked : List PoolRec
  prgs : List Prg
  /-- what ATS answered for host pages: frame plus two, or one for an absent page (R349) -/
  ats : Sparse Nat
  /-- pages that the hub die has asked ATS for and got no answer yet -/
  asked : List Nat
  nextPrg : Nat
  pre : List PreImage
  marks : List Mark
  waiting : List WaitRec
  /-- rings of the context whose memory faults, until their descriptor is written (R310): 0 fault, 1 service, 2 requests, 3 replies -/
  ringBad : List Nat
  recs : List RecInfo
  state : CtxState
  /-- service or PRI events that arrived while the context was saved (R358) -/
  deferred : List Instr
  /-- cores whose pinned reserves the context owned when it left the cores, to be reloaded on resumption (R256, R355) -/
  pins : List Nat
  /-- the part of the press region that holds its pages, plus one; 0 for none (R359, R360) -/
  pressed : Nat
deriving DecidableEq, Repr

/-- A context that nothing has configured; the pre-image pool holds 4 units of 64 MiB and the call counter is 1 (R334, R382). -/
def Ctx.zero : Ctx :=
  ⟨0, Ring.zero, Ring.zero, Ring.zero, Ring.zero, 0, 0, 0, 0, 4, 0, 0, 0, [], Batch.zero, 1, [], [], 1, [], [], [], [], [], 0, [], [],
    [], [], [], .active, [], [], 0⟩

/-- States of a queue (R290). -/
inductive QState where
  | idle
  | mapped
  | onWait
  | onLtake
  | error
  | disabled
deriving DecidableEq, Repr

/-- A software queue: its descriptor (R290) and what the command processor keeps of it. -/
structure Queue where
  ring : Word64
  lsize : BitVec 5
  qprio : BitVec 4
  pasid : BitVec 20
  en : Bool
  wi : Word
  ri : Word
  state : QState
  err : BitVec 8
  /-- holds a hardware queue slot (R292) -/
  mapped : Bool
  readySince : Nat
  /-- loses its slot at the next packet boundary -/
  yieldSlot : Bool
  /-- counter and threshold of the WAIT it is parked on -/
  waitCtr : Nat
  waitThr : Word64
  /-- non-LAUNCH packets begun and not complete: ring indices -/
  open_ : List Word
  /-- last ring index whose effects a unit applied (R289) -/
  applied : Option Word
  /-- state before its context was pressed (R359, R360) -/
  former : QState
  /-- the clock at which it was mapped or a packet of it last completed: its hang watchdog counts from there (R356) -/
  progress : Nat
deriving DecidableEq, Repr

/-- A queue after reset (R290). -/
def Queue.zero : Queue := ⟨0, 0, 0, 0, false, 0, 0, .idle, 0, false, 0, false, 0, 0, [], none, .idle, 0⟩

/-- A queue link (R302, R362). -/
structure QLink where
  giver : BitVec 12
  taker : BitVec 12
  tokens : Word
deriving DecidableEq, Repr

/-- A link that nothing has configured. -/
def QLink.zero : QLink := ⟨0, 0, 0⟩

/-- A graph slot (R303 to R305): nodes as 512-bit numbers, active loops, run state. -/
structure Graph where
  owner : Option Nat
  nodes : List Nat
  running : Option Nat
  node : Nat
  active : List Nat
  hint : Bool
  strict : Bool
  user : Word
  pidx : Word
deriving DecidableEq, Repr

/-- An empty graph slot. -/
def Graph.zero : Graph := ⟨none, [], none, 0, [], false, false, 0, 0⟩

/-- A hub-die copy (R309). -/
structure HubCopy where
  id : Nat
  queue : Nat
  pidx : Word
  user : Word
  pasid : Nat
  src : Nat
  dst : Nat
  len : Nat
  cring : Nat
  uw : Word64
  sctr : Nat
  sop : Nat
  ssc : Bool
  sval : Word64
  /-- bytes written -/
  done : Nat
  /-- it has ended and its record and signal are due -/
  finished : Bool
  /-- its ring's memory faulted, which is logged once (R310) -/
  warned : Bool
  status : Nat
  fcode : Nat
  faddr : Nat
deriving DecidableEq, Repr

/-- A TASKS packet whose records are not all placed, or that drains (R306). -/
structure TasksPkt where
  queue : Nat
  pidx : Word
  pasid : Nat
  recs : List Nat
  drain : Bool
deriving DecidableEq, Repr

/-- A held request of the deferral buffer (R170). -/
structure Defer where
  granule : Nat
  fib : Nat
  op : Nat
deriving DecidableEq, Repr

/-- Per-core device configuration (R393). -/
structure CoreCfg where
  pb : BitVec 40
  p : BitVec 4
  g : BitVec 5
deriving DecidableEq, Repr

/-- No pinned reserve and no state store. -/
def CoreCfg.zero : CoreCfg := ⟨0, 0, 0⟩

/-- Device configuration (R393). -/
structure DevCfg where
  lock : Bool
  swapN : BitVec 25
  quantum : Word
  hang : Word
  saveWd : Word
  modIdx : BitVec 8
  peers : BitVec 256
  pressBase : Word64
  pressSize : Word64
  cores : Sparse CoreCfg
  routes : Sparse (BitVec 19)
deriving DecidableEq, Repr

/-- Defaults of the device configuration (R393). -/
def DevCfg.zero : DevCfg := ⟨false, 65536, 2000, 4000, 250, 0, 0, 0, 0, [], []⟩

/-- The management mailbox (R365). -/
structure Mailbox where
  /-- set by a write of 1, until the command is done (R9) -/
  go : Bool
  busy : Bool
  done : Bool
  result : BitVec 8
  rlen : BitVec 16
  req : Sparse Byte
  resp : Sparse Byte
deriving DecidableEq, Repr

/-- The mailbox after reset (R365). -/
def Mailbox.zero : Mailbox := ⟨false, false, false, 0, 0, [], []⟩

/-- A message that the module has sent, or has to send, on a link (R367): virtual channel, destination, kind and data. -/
structure Msg where
  vc : Nat
  dst : Nat
  /-- the address it is about, whose line chooses the link (R368) -/
  addr : Nat
  code : Nat
  data : Nat
deriving DecidableEq, Repr

/-- A fabric link (R367 to R369). -/
structure FLink where
  down : Bool
  seqOut : BitVec 16
  seqIn : BitVec 16
  fails : Nat
  /-- messages sent and not yet acknowledged, the replay buffer -/
  replay : List Msg
  /-- credits in hand for each virtual channel; an unlisted channel has those of `linkCredits` -/
  credits : Sparse Nat
  /-- messages that wait for a credit of their channel, oldest first -/
  waiting : List Msg
deriving DecidableEq, Repr

/-- A link after training. -/
def FLink.zero : FLink := ⟨false, 0, 0, 0, [], [], []⟩

/-- An event-log entry (R371): kind, severity, source, timestamp and detail. -/
structure LogEntry where
  kind : Nat
  severity : Nat
  source : Nat
  time : Word64
  detail : Nat
deriving DecidableEq, Repr

/-- A firmware image (R372): kind (0 command processor, 1 base die, 2 management), version, anti-rollback number, signature. -/
structure Image where
  kind : Nat
  version : Nat
  rollback : Nat
  sig : Nat
deriving DecidableEq, Repr

/-- Management state (R366, R370 to R374). -/
structure Mgmt where
  nonce : Word64
  /-- the last samples, in the order of R370's table -/
  sensors : List Nat
  /-- corrected and uncorrectable errors of each class: 0 vector, 1 uniform, 2 predicate, 3 scratchpad, 4 tile, 5 accumulator, 6 state store, 7 L1,
  8 instruction cache, 9 L2, 10 HBM (R276, R370) -/
  eccCorrected : Sparse Nat
  eccUncorrectable : Sparse Nat
  /-- per core: matrix words processed, words skipped by the zero flag, blocks skipped (R31, R370) -/
  power : Sparse (List Nat)
  log : List LogEntry
  /-- entries written since reset, those of them that the host buffer mirrors, and the buffer's address, 0 for none (R371) -/
  logCount : Nat
  mirrored : Nat
  logBuf : Nat
  images : List Image
  staged : List Image
  /-- activated and waiting for its moment (R372) -/
  activated : List Image
  fusedMin : Nat
  safe : Bool
  /-- the unit whose self-test failed: 0 none, 1 firmware, 2 an SRAM, 3 a PHY, 4 HBM (R374) -/
  failedUnit : Nat
  tested : Bool
  clockStep : Nat
  limit : Nat
  tripped : Bool
  /-- active command-processor complex and state-table version (R288, R289) -/
  complex : Bool
  tableVersion : Nat
  takeover : Bool
  /-- doorbells latched during a takeover -/
  latched : List (Nat × Word)
  seized : Bool
  /-- contexts that a press has still to freeze, and the reports that follow: 0 no press, 1 pressed, 3 recovered, 4 both
(R359, R369) -/
  toFreeze : List Nat
  pressing : Nat
  /-- frozen contexts in press order (R360), and those of them whose pages the press has still to copy -/
  frozen : List Nat
  toCopy : List Nat
  /-- peers declared hung -/
  hung : List Nat
  recovered : Bool
deriving DecidableEq, Repr

/-- Management state after reset. -/
def Mgmt.zero : Mgmt :=
  ⟨0, [], [], [], [], [], 0, 0, 0, [], [], [], 0, false, 0, true, 0, 2000, false, false, 0, false, [], false, [], 0, [], [], [], false⟩

/-- What leaves the device: the outside world sees these, in order. -/
inductive Out where
  /-- an interrupt vector is raised (R342, R381) -/
  | interrupt (pasid vector : Nat)
  /-- a page request message (R377) -/
  | pageRequest (pasid vpn prg : Nat) (write : Bool)
  /-- an ATS translation request (R349) -/
  | atsRequest (pasid vpn : Nat)
  /-- an ATS invalidation is answered (R351) -/
  | atsInvalidated (pasid lo hi : Nat)
  /-- a flushing read on a host port (R284) -/
  | flush (port : Bool)
  /-- an SPDM answer (R372) -/
  | spdm (code data : Nat)
  /-- sensor readings over MCTP (R370) -/
  | sensors (vals : List Nat)
  /-- pressed, unarmed or recovered is reported (R359, R369) -/
  | report (code : Nat)
  /-- a message, by kind, or an idle flit, kind 1, on a fabric link (R367, R369) -/
  | fabric (link code data : Nat)
  /-- an error that AER reports: 0 an unsupported request, 1 a completer abort (R361) -/
  | aer (code : Nat)
  /-- the answer to a host AtomicOp (R361) -/
  | atomicDone (old : Word64)
  /-- a teardown is acknowledged (R352) -/
  | tornDown (pasid : Nat)
deriving DecidableEq, Repr

/-- Device-wide state. -/
structure Dev where
  queues : Sparse Queue
  counters : Sparse Word64
  links : Sparse QLink
  /-- counter, link and graph-slot grants as pairs of number and PASID (R299, R362); donation grants as pairs (from, to) -/
  ctrGrant : List (Nat × Nat)
  linkGrant : List (Nat × Nat)
  graphGrant : List (Nat × Nat)
  donGrant : List (Nat × Nat)
  graphs : Sparse Graph
  copies : List HubCopy
  cfg : DevCfg
  select : BitVec 20
  mbox : Mailbox
  /-- future bits per granule, poison per sector, difference of the stored check value from the computed one (R271) -/
  fut : Sparse Bool
  poison : Sparse Bool
  chk : Sparse Word
  /-- lines that a slice holds: valid bits of the sectors in [7:0], dirty bits in [15:8] (R265) -/
  l2 : Sparse (BitVec 16)
  /-- last-writing core + 1 of a line in L2 (R265) -/
  lastWriter : Sparse Nat
  /-- cache hints of lines in L2: 1 first for eviction, 2 kept in preference (R157) -/
  hint : Sparse Nat
  /-- locked lines, with the page whose access locked them: 2^45 × PASID + page number + 1 (R267) -/
  locked : Sparse Nat
  defer : List Defer
  flinks : Sparse FLink
  mgmt : Mgmt
  out : List Out
  /-- owners of the pinned reserves: core to PASID + 1 (R256) -/
  pinOwner : Sparse Nat
  /-- VF assignment of queues, counters and links: key to the VF's number from 1; the context of each VF as PASID + 1 (R362, R363) -/
  vfQueue : Sparse Nat
  vfCtr : Sparse Nat
  vfLink : Sparse Nat
  vfCtx : Sparse Nat
  nextLaunch : Nat
  nextWg : Nat
  nextId : Nat
  tasks : List TasksPkt
  /-- invalidations that wait for writes through the old translations: of ATS or not, PASID, first and last page (R351) -/
  invals : List (Bool × Nat × Nat × Nat)
deriving DecidableEq, Repr

/-- The device after reset (R290, R299, R393, R271). -/
def Dev.zero : Dev :=
  ⟨[], [], [], [], [], [], [], [], [], DevCfg.zero, 0, Mailbox.zero, [], [], [], [], [], [], [], [], [], Mgmt.zero, [], [], [], [], [], [],
    0, 1, 0, [], []⟩

/-- The issue latch: what the running instruction needs to know of its fibre, its entry and its prefixes. -/
structure Cur where
  fib : Nat
  /-- the issuing entry's creation number -/
  age : Word
  pc : Word64
  /-- the next address (R45) -/
  npc : Word64
  /-- the lanes of the issuing entry -/
  mask : Mask
  /-- those whose guard is true (R14, R49) -/
  active : Mask
  prio : BitVec 4
  attr : Attr
  /-- the guard's predicate has an error that its code cannot correct (R276) -/
  gbad : Bool
deriving DecidableEq, Repr

/-- Nothing latched. -/
def Cur.zero : Cur := ⟨0, 0, 0, 0, 0, 0, 0, Attr.none, false⟩

/-- The machine. -/
structure State where
  /-- every byte: device, host and peer memory, scratchpads, tiles, accumulators, by key (see Machine/Ops.lean) -/
  mem : List Host.Cell
  /-- fibres by 32 × workgroup + index -/
  fibres : Sparse Fibre
  /-- slots by 16 × core + slot -/
  slots : Sparse Slot
  cores : Sparse Core
  wgs : Sparse Workgroup
  launches : Sparse Launch
  ctxs : Sparse Ctx
  dev : Dev
  /-- events from outside and moments the spec leaves open, in the order in which they happen (the model's own) -/
  agenda : List Instr
  /-- the issue latch (the model's own) -/
  cur : Cur
  /-- fibres whose next instruction stalled since the machine last changed (the model's own) -/
  stalled : List Nat
  /-- arithmetic clocks since reset -/
  clock : Nat
  /-- the quarter whose turn it is (the model's own) -/
  turn : Nat
  /-- counter of the free values (the model's own) -/
  tick : Nat
deriving DecidableEq, Repr

/-- The machine right after reset: nothing resident, device memory zero (R271, R374), every register of R290, R299 and
R393 at its reset value. -/
def State.reset : State :=
  { mem := [], fibres := [], slots := [], cores := [], wgs := [], launches := [], ctxs := [], dev := Dev.zero,
    agenda := [], cur := Cur.zero, stalled := [], clock := 0, turn := 0, tick := 0 }

/-- Why the machine stops with a fault. Nothing the spec describes stops it: faults of the spec are next states. -/
inductive Fault where
  /-- A key that lies in no memory of the module, its host or its pod. No meaning raises it: an access to an address that does not exist takes the
  fault the spec gives it, which is a next state; safe. -/
  | noSuchMemory (key : Nat)
deriving DecidableEq, Repr

/-- Why an instruction has no meaning here. -/
inductive Refusal where
  /-- Raised by exec for an instruction that has no meaning yet; safe. -/
  | notModelled (mnemonic : String)
deriving DecidableEq, Repr

end Machine

end Sys2Proof
end

