-- ==== Sys2Proof/Machine/Ops.lean ====
section
/-! DEFINITION. The named operations over memory, registers, the frontier and pending writes; taking a fault and the
return from one; the issue of an instruction from its checks to its finish. -/

namespace Sys2Proof

namespace Machine

/-! ### Memory: one list of bytes under tagged keys (R251) -/

/-- A tag of the key space. -/
def keyTag (t off : Nat) : Nat := t * 2 ^ 64 + off

/-- Host memory at a frame address ATS gave (R349). -/
def hostKey (a : Nat) : Nat := keyTag 1 a

/-- Memory of peer module `m` (R259). -/
def peerKey (m pa : Nat) : Nat := keyTag (2 + m) pa

/-- Scratchpad of core `c`, from its physical offset 0 (R252). -/
def spadKey (c off : Nat) : Nat := keyTag (512 + 3 * c) off

/-- Byte `b` of tile `t` of core `c` (R192). -/
def tileKey (c t b : Nat) : Nat := keyTag (513 + 3 * c) (t * 16384 + b)

/-- Byte `b` of granule `a` of the accumulator store of core `c` (R269). -/
def accKey (c a b : Nat) : Nat := keyTag (514 + 3 * c) (a * 65536 + b)

/-- The memory a key belongs to. -/
def keyOf (k : Nat) : Nat := k / 2 ^ 64

/-- Device memory: 768 GiB (R270). -/
def deviceBytes : Nat := 0xC000000000

/-- The key is a byte of device memory. -/
def isDevice (k : Nat) : Bool := k < deviceBytes

/-- The key is a byte of host memory. -/
def isHost (k : Nat) : Bool := keyOf k == 1

/-- The key is a byte of a peer module's memory. -/
def isPeer (k : Nat) : Bool := 2 ≤ keyOf k && keyOf k < 258

/-- The canonical form of memory. -/
def Memory.wf (m : List Host.Cell) : Bool := Sparse.wf (0 : Byte) m

/-- The byte at a key; an unlisted byte reads 0 (R271, log 2). -/
def rd8 (m : List Host.Cell) (k : Nat) : Byte := Sparse.get 0 k m

/-- Write one byte. -/
def wr8 (m : List Host.Cell) (k : Nat) (b : Byte) : List Host.Cell := Sparse.set 0 k b m

/-- `n` bytes from key `k`, ascending. -/
def rdBytes (m : List Host.Cell) (k n : Nat) : List Byte := (List.range n).map (fun i => rd8 m (k + i))

/-- Write bytes from key `k` upward. -/
def wrBytes (m : List Host.Cell) (k : Nat) : List Byte → List Host.Cell
  | [] => m
  | b :: l => wrBytes (wr8 m k b) (k + 1) l

/-- The number in `n` bytes from key `k` (R8). -/
def rdNum (m : List Host.Cell) (k n : Nat) : Nat := ofBytes (rdBytes m k n)

/-- Write zero to `n` bytes from key `k`: drop the entries. -/
def clearBytes (m : List Host.Cell) (k n : Nat) : List Host.Cell := m.filter (fun e => e.1 < k || k + n ≤ e.1)

/-- Cut `n` bytes at address `a` where 4 KiB pages meet; `n` is at most 4,096. -/
def segs (a n : Nat) : List (Nat × Nat) :=
  let room := 4096 - a % 4096
  if n ≤ room then [(a, n)] else [(a, room), (a + room, n - room)]

/-! ### Accessors -/

namespace State

/-- Fibre `f`. -/
def fibre (s : State) (f : Nat) : Fibre := Sparse.get Fibre.zero f s.fibres

/-- Replace fibre `f`. -/
def setFibre (s : State) (f : Nat) (x : Fibre) : State := { s with fibres := Sparse.set Fibre.zero f x s.fibres }

/-- Change fibre `f`. -/
def modFibre (s : State) (f : Nat) (g : Fibre → Fibre) : State := s.setFibre f (g (s.fibre f))

/-- Slot `k`, that is 16 × core + slot. -/
def slot (s : State) (k : Nat) : Slot := Sparse.get Slot.zero k s.slots

/-- Replace slot `k`. -/
def setSlot (s : State) (k : Nat) (x : Slot) : State := { s with slots := Sparse.set Slot.zero k x s.slots }

/-- Change slot `k`. -/
def modSlot (s : State) (k : Nat) (g : Slot → Slot) : State := s.setSlot k (g (s.slot k))

/-- Core `c`. -/
def core (s : State) (c : Nat) : Core := Sparse.get Core.zero c s.cores

/-- Replace core `c`. -/
def setCore (s : State) (c : Nat) (x : Core) : State := { s with cores := Sparse.set Core.zero c x s.cores }

/-- Change core `c`. -/
def modCore (s : State) (c : Nat) (g : Core → Core) : State := s.setCore c (g (s.core c))

/-- Workgroup `w`. -/
def wg (s : State) (w : Nat) : Workgroup := Sparse.get Workgroup.zero w s.wgs

/-- Replace workgroup `w`. -/
def setWg (s : State) (w : Nat) (x : Workgroup) : State := { s with wgs := Sparse.set Workgroup.zero w x s.wgs }

/-- Change workgroup `w`. -/
def modWg (s : State) (w : Nat) (g : Workgroup → Workgroup) : State := s.setWg w (g (s.wg w))

/-- Launch `l`. -/
def launch (s : State) (l : Nat) : Launch := Sparse.get Launch.zero l s.launches

/-- Replace launch `l`. -/
def setLaunch (s : State) (l : Nat) (x : Launch) : State := { s with launches := Sparse.set Launch.zero l x s.launches }

/-- Change launch `l`. -/
def modLaunch (s : State) (l : Nat) (g : Launch → Launch) : State := s.setLaunch l (g (s.launch l))

/-- The context of PASID `p`. -/
def ctx (s : State) (p : Nat) : Ctx := Sparse.get Ctx.zero p s.ctxs

/-- Replace the context of PASID `p`. -/
def setCtx (s : State) (p : Nat) (x : Ctx) : State := { s with ctxs := Sparse.set Ctx.zero p x s.ctxs }

/-- Change the context of PASID `p`. -/
def modCtx (s : State) (p : Nat) (g : Ctx → Ctx) : State := s.setCtx p (g (s.ctx p))

/-- Change the device-wide state. -/
def modDev (s : State) (g : Dev → Dev) : State := { s with dev := g s.dev }

/-- The device sends something out. -/
def emit (s : State) (o : Out) : State := s.modDev (fun d => { d with out := d.out ++ [o] })

/-- The issuing fibre. -/
def me (s : State) : Fibre := s.fibre s.cur.fib

/-- Change the issuing fibre. -/
def modMe (s : State) (g : Fibre → Fibre) : State := s.modFibre s.cur.fib g

/-- Key of the slot of fibre `f`. -/
def slotOf (s : State) (f : Nat) : Nat := 16 * (s.fibre f).core + (s.fibre f).slot

/-- The slot of the issuing fibre. -/
def mySlot (s : State) : Slot := s.slot (s.slotOf s.cur.fib)

/-- The workgroup of the issuing fibre. -/
def myWg (s : State) : Workgroup := s.wg s.me.wg

/-- The PASID of the issuing fibre. -/
def myPasid (s : State) : Nat := s.myWg.pasid

/-- The launch of a workgroup; an absent launch for a task. -/
def launchOf (s : State) (w : Nat) : Launch := match (s.wg w).launch with | some l => s.launch l | none => Launch.zero

/-- A free value, and the counter advanced. -/
def fresh (s : State) : Word64 × State := (Config.freeWord s.tick, { s with tick := s.tick + 1 })

/-- The hub timestamp (R343), and the counter advanced. -/
def stamp (s : State) : Word64 × State := (Config.hubTime s.tick, { s with tick := s.tick + 1 })

/-- Something changed: stalled instructions may be tried again. -/
def wake (s : State) : State := { s with stalled := [] }

end State

/-! ### Registers (R26 to R34) -/

/-- Take the pending values of a register off the lanes of a mask (R53 rule 2). -/
def Pend.cancel (r : Reg) (m : Mask) (p : Pend) : Pend :=
  { p with vals := p.vals.filter (fun x => !(x.reg == r && m.getLsbD x.lane)) }

/-- Physical vector register `ph` of a slot in a lane. -/
def Slot.getV (x : Slot) (ph lane : Nat) : Word := Sparse.get 0 (32 * ph + lane) x.vreg

/-- Write the lanes of a list of a physical vector register. -/
def Slot.setV (x : Slot) (ph : Nat) (f : Nat → Word) : List Nat → Slot
  | [] => x
  | l :: ls => Slot.setV { x with vreg := Sparse.set 0 (32 * ph + l) (f l) x.vreg } ph f ls

namespace State

/-- V[n] of the issuing fibre in a lane (R26). -/
def rv (s : State) (n lane : Nat) : Word := s.mySlot.getV (8 * s.me.base + n) lane

/-- V[n] and V[n+1] in a lane as 64 bits (R48). -/
def rv2 (s : State) (n lane : Nat) : Word64 := s.rv (n + 1) lane ++ s.rv n lane

/-- S[n] of the issuing fibre. -/
def ru (s : State) (n : Nat) : Word64 := Sparse.get 0 n s.me.ureg

/-- P[n] of a fibre as a lane mask; p15 is true (R34). -/
def predMask (f : Fibre) (n : Nat) : Mask := if n = 15 then allLanes else Sparse.get 0 n f.pred

/-- P[n] of the issuing fibre in a lane. -/
def rp (s : State) (n lane : Nat) : Bool := (predMask s.me n).getLsbD lane

/-- Write V[n] in the lanes of a mask; pending writes to them are cancelled. -/
def wv (n : Nat) (m : Mask) (f : Nat → Word) (s : State) : State :=
  let ph := 8 * s.me.base + n
  (s.modSlot (s.slotOf s.cur.fib) (fun x => x.setV ph f (lanesOf m))).modMe
    (fun x => { x with pend := x.pend.map (Pend.cancel (.v ph) m) })

/-- Write the pair V[n], V[n+1] in the lanes of a mask. -/
def wv2 (n : Nat) (m : Mask) (f : Nat → Word64) (s : State) : State :=
  wv (n + 1) m (fun l => (f l).extractLsb' 32 32) (wv n m (fun l => (f l).extractLsb' 0 32) s)

/-- Write S[n]; a pending write to it is cancelled. -/
def wu (n : Nat) (v : Word64) (s : State) : State :=
  s.modMe (fun x => { x with ureg := Sparse.set 0 n v x.ureg, pend := x.pend.map (Pend.cancel (.u n) allLanes) })

/-- A mask with the lanes of `m` taken from `f`. -/
def blend (old m : Mask) (f : Nat → Bool) : Mask := (old &&& ~~~m) ||| maskOf ((lanesOf m).filter f)

/-- Write P[n] in the lanes of a mask; a write to p15 is discarded (R34). -/
def wp (n : Nat) (m : Mask) (f : Nat → Bool) (s : State) : State :=
  if n = 15 then s
  else s.modMe (fun x => { x with pred := Sparse.set 0 n (blend (predMask x n) m f) x.pred,
                                  pend := x.pend.map (Pend.cancel (.p n) m) })

end State

/-! ### The frontier (R17 to R20) -/

/-- The run entry with a creation number. -/
def Fibre.runEntry (f : Fibre) (age : Word) : Option Entry := f.frontier.find? (fun e => e.kind == .run && e.age == age)

/-- Put `e` in the place of the run entries with its creation number. -/
def Fibre.putEntry (f : Fibre) (e : Entry) : Fibre :=
  { f with frontier := f.frontier.map (fun x => if x.kind == .run && x.age == e.age then e else x) }

/-- Remove the run entry with a creation number. -/
def Fibre.dropRun (f : Fibre) (age : Word) : Fibre :=
  { f with frontier := f.frontier.filter (fun x => !(x.kind == .run && x.age == age)) }

/-- The order of refill and issue: higher prio, then lower pc (R19, R20). -/
def Entry.before (a b : Entry) : Bool := b.prio < a.prio || (a.prio == b.prio && a.pc < b.pc)

/-- The first entry under an order. -/
def bestEntry (lt : Entry → Entry → Bool) : List Entry → Option Entry
  | [] => none
  | e :: l => match bestEntry lt l with
    | none => some e
    | some b => if lt b e then some b else some e

/-- The entry that is spilled first: lowest prio, then lowest age (R20). -/
def Entry.spillsBefore (a b : Entry) : Bool := a.prio < b.prio || (a.prio == b.prio && a.age < b.age)

/-- The on-chip run entry to spill. -/
def Fibre.spillee (f : Fibre) : Option Entry := bestEntry Entry.spillsBefore (f.frontier.filter (fun e => e.kind == .run))

/-- Move the lowest on-chip run entry to the spill area when the eight places are taken (R20). -/
def Fibre.makeRoom (f : Fibre) : Fibre :=
  if f.frontier.length < 8 then f
  else match f.spillee with
    | none => f
    | some e => { f.dropRun e.age with spilled := f.spilled ++ [e] }

/-- The run entry of an address that a new one merges with (R19 rule 4); the entry of a replay that has not issued stays
apart (R340). -/
def Fibre.runAt (f : Fibre) (pc : Word64) : Option Entry :=
  f.frontier.find? (fun e => e.kind == .run && !e.replay && e.pc == pc)

/-- Add lanes as a run entry at an address, merging (R19 rule 4). -/
def Fibre.addRun (f : Fibre) (pc : Word64) (prio : BitVec 4) (m : Mask) (age : Word) : Fibre :=
  if m = 0 then f
  else match f.runAt pc with
    | some e =>
      let a := if age < e.age then age else e.age
      let g := f.dropRun e.age
      { g with frontier := g.frontier ++
          [{ e with prio := if e.prio < prio then prio else e.prio, mask := e.mask ||| m, age := a }] }
    | none =>
      let g := f.makeRoom
      { g with frontier := g.frontier ++ [⟨.run, pc, 0, prio, m, age, false, 0, 0, false, 0⟩] }

/-- Add lanes as a new run entry, with the next creation number. -/
def Fibre.newRun (f : Fibre) (pc : Word64) (prio : BitVec 4) (m : Mask) : Fibre :=
  { f.addRun pc prio m f.nextAge with nextAge := f.nextAge + 1 }

/-- Take lanes out of the run entry with a creation number. -/
def Fibre.leave (f : Fibre) (age : Word) (m : Mask) : Fibre :=
  match f.runEntry age with
  | none => f
  | some e => if e.mask &&& ~~~m = 0 then f.dropRun age else f.putEntry { e with mask := e.mask &&& ~~~m }

/-- Refill free places from the spill area, then exchange while a spilled entry outranks the lowest on-chip run entry
(R20); each pass settles one entry. -/
def Fibre.settle : Nat → Fibre → Fibre
  | 0, f => f
  | n + 1, f =>
    match bestEntry Entry.before f.spilled with
    | none => f
    | some b =>
      let rest := f.spilled.filter (fun e => e.age != b.age)
      if f.frontier.length < 8 then
        Fibre.settle n (({ f with spilled := rest } : Fibre).addRun b.pc b.prio b.mask b.age)
      else match f.spillee with
        | none => f
        | some low =>
          if low.prio < b.prio then
            Fibre.settle n (({ f.dropRun low.age with spilled := rest ++ [low] } : Fibre).addRun b.pc b.prio b.mask b.age)
          else f

/-- The 16 bytes of a spilled entry (R21). -/
def Entry.spillBytes (e : Entry) : List Byte :=
  toBytes 16 (bits e.pc.toNat 56 2 + e.prio.toNat * 2 ^ 55 + e.mask.toNat * 2 ^ 64 + e.age.toNat * 2 ^ 96)

/-- Key of the spill area of a fibre: 512 bytes of the slot reserve (R20, R22). -/
def spillKey (f : Fibre) : Nat := spadKey f.core (0x1F8000 + 2048 * f.slot + 512 * f.pos)

/-- Settle the frontier of fibre `f`, and write its spill area when it changed. -/
def State.settleFrontier (s : State) (f : Nat) : State :=
  let x := s.fibre f
  if x.spilled = [] then s
  else
    let y := x.settle 40
    { s.setFibre f y with mem := wrBytes s.mem (spillKey y) (y.spilled.flatMap Entry.spillBytes) }

/-- The lanes that stand in some entry or in some arrived set. -/
def Fibre.lanes (f : Fibre) : Mask :=
  ((f.frontier ++ f.spilled).foldl (fun m e => m ||| e.mask) 0) ||| (f.masks.foldl (fun m j => m ||| j.2.arrived) 0)

/-- Release rejoin mask `j` when its arrived set is complete (R24). -/
def Fibre.tryRelease (j : Nat) (f : Fibre) : Fibre :=
  let r := Sparse.get Rejoin.zero j f.masks
  if r.arrived ≠ 0 ∧ r.arrived = r.enrolled then
    ({ f with masks := Sparse.set Rejoin.zero j Rejoin.zero f.masks } : Fibre).newRun r.wnext r.wprio r.arrived
  else f

/-- Strike lanes from rejoin mask `j`, with the release that this completes (R24, R25). -/
def Fibre.strike (m : Mask) (f : Fibre) (j : Nat) : Fibre :=
  let r := Sparse.get Rejoin.zero j f.masks
  if (r.enrolled ||| r.arrived) &&& m = 0 then f
  else
    let r' := { r with enrolled := r.enrolled &&& ~~~m, arrived := r.arrived &&& ~~~m }
    let r' := if r'.arrived = 0 then { r' with wpc := 0, wnext := 0, wprio := 0 } else r'
    ({ f with masks := Sparse.set Rejoin.zero j r' f.masks } : Fibre).tryRelease j

/-- Strike lanes from every rejoin mask. -/
def Fibre.strikeAll (m : Mask) (f : Fibre) : Fibre := (List.range 8).foldl (Fibre.strike m) f

/-! ### Slots (R4, R15, R316) -/

/-- The fibres of a slot, by key. -/
def State.slotFibres (s : State) (k : Nat) : List Nat :=
  (s.fibres.filter (fun e => 16 * e.2.core + e.2.slot == k && e.2.resident)).map (·.1)

/-- The slot of fibre `f` passes issue, if the fibre has it (R316). -/
def State.pass (s : State) (f : Nat) : State :=
  s.modSlot (s.slotOf f) (fun x => if x.issuing = some f then { x with issuing := none, last := (s.fibre f).pos } else x)

/-- Set the status of fibre `f`. -/
def State.setStatus (s : State) (f : Nat) (st : FStatus) : State := s.modFibre f (fun x => { x with status := st })

/-- The instruction does not issue: the fibre is blocked, and under switch on stall the slot passes issue (R49). -/
def State.stall (w : Wait) (s : State) : State :=
  let s := s.setStatus s.cur.fib (.blocked w)
  let s := { s with stalled := s.cur.fib :: s.stalled }
  if s.cur.attr.sos then s.pass s.cur.fib else s

/-- The fibre becomes fault-stopped and the slot passes issue (R339). -/
def State.faultStop (s : State) : State := (s.setStatus s.cur.fib .faultStopped).pass s.cur.fib

/-- The fibres of a slot that have not exited, on the core or off it: the participants of its barrier (R108). -/
def State.partsOf (s : State) (k : Nat) : List Nat :=
  (s.fibres.filter (fun e => 16 * e.2.core + e.2.slot == k && e.2.status != .exited
    && (e.2.resident || (s.slot k).wg == some e.2.wg))).map (·.1)

/-- Some lane of the fibre stands in a run entry, on chip or spilled. -/
def Fibre.hasRun (x : Fibre) : Bool := x.frontier.any (fun e => e.kind == .run) || !x.spilled.isEmpty

/-- Some lane waits in a rejoin mask. -/
def Fibre.waitsJwt (x : Fibre) : Bool := x.masks.any (fun j => j.2.arrived != 0)

/-- A fibre without a run entry issues no more until a lane of it comes back: it is blocked while lanes wait at a JWT, and fault-stopped when
every lane is parked; the slot passes issue (R4, R15, R339). A fibre that has exited, waits at FBAR or is off the core stays as it is. -/
def State.rest (f : Nat) (s : State) : State :=
  let x := s.fibre f
  if !x.resident ∨ x.extracted ∨ x.status = .exited ∨ x.status = .atFbar ∨ x.hasRun ∨ x.lanes = 0 then s
  else (s.setStatus f (if x.waitsJwt then .blocked .rejoin else .faultStopped)).pass f

/-- A fibre that the slot barrier lets go is ready, while a lane of it can run (R108, R339). -/
def State.leaveFbar (s : State) (f : Nat) : State :=
  let x := s.fibre f
  if x.resident && !x.extracted then (s.setStatus f .ready).rest f else s.setStatus f (if x.resident then .faultStopped else .blocked .partners)

/-- Release the slot barrier when every participant has arrived (R108). -/
def State.fbarCheck (s : State) (k : Nat) : State :=
  let parts := s.partsOf k
  let x := s.slot k
  if parts ≠ [] ∧ parts.all (fun f => x.fbarIn.contains f) then
    parts.foldl State.leaveFbar (s.setSlot k { x with fbarIn := [], fbarGen := !x.fbarGen })
  else s

/-- A fibre stops in a state, but one that waits at FBAR waits on (R110). -/
def State.stopAs (f : Nat) (st : FStatus) (s : State) : State := if (s.fibre f).status = .atFbar then s else s.setStatus f st

/-- A fibre that has a run entry again may issue again. -/
def State.revive (f : Nat) (s : State) : State :=
  let x := s.fibre f
  if x.hasRun ∧ (x.status = .faultStopped ∨ x.status = .blocked .rejoin) then s.setStatus f .ready else s

/-- What remains of a fibre's sleep while it is off the core or saved, and its end when it is back (R250, R347). -/
def Fibre.stopClock (clock : Nat) (f : Fibre) : Fibre := { f with sleep := f.sleep - clock }
def Fibre.startClock (clock : Nat) (f : Fibre) : Fibre := { f with sleep := if f.sleep = 0 then 0 else f.sleep + clock }

/-! ### Engine counters (R36) -/

/-- The value of a counter. -/
def Fibre.count (x : Fibre) (c : Cls) : Nat := (x.outst.filter (fun o => o.cls == c)).length

/-- Drop the oldest operations of a class while they are done: completion in issue order. -/
def popDone (c : Cls) : List OutOp → List OutOp
  | [] => []
  | o :: l => if o.cls == c then (if o.done then popDone c l else o :: l) else o :: popDone c l

/-- Issue counts an operation. -/
def Fibre.countUp (x : Fibre) (c : Cls) (id : Nat) : Fibre := { x with outst := x.outst ++ [⟨c, id, false⟩] }

/-- An operation completes. -/
def Fibre.countDone (x : Fibre) (c : Cls) (id : Nat) : Fibre :=
  { x with outst := popDone c (x.outst.map (fun o => if o.cls == c && o.id == id then { o with done := true } else o)) }

/-! ### Pending writes (R52 to R54) -/

/-- Write one value that lands for fibre `f`. -/
def State.landVal (f : Nat) (s : State) (x : PVal) : State :=
  match x.reg with
  | .v ph => s.modSlot (s.slotOf f) (fun t => { t with vreg := Sparse.set 0 (32 * ph + x.lane) (x.val.extractLsb' 0 32) t.vreg })
  | .u n => s.modFibre f (fun t => { t with ureg := Sparse.set 0 n x.val t.ureg })
  | .p n => if n = 15 then s else
      s.modFibre f (fun t => { t with pred := Sparse.set 0 n (State.blend (State.predMask t n) (maskOf [x.lane]) (fun _ => x.val != 0)) t.pred })

/-- The pending write may land (R53 rule 3). -/
def Pend.due (p : Pend) : Bool := p.arrived && !p.bad && p.shadow == 0

/-- Gathers of which no element is pending any more are complete (R167). -/
def Fibre.gathDone (x : Fibre) (ops : List Nat) : Fibre :=
  ops.foldl (fun y o => if y.pend.any (fun p => p.gath && p.op == o) then y else y.countDone .gath o) x

/-- Append the pushes of a slot whose earlier writes have landed, keeping the issue order of each queue (R176). -/
def State.pushDue (k : Nat) (s : State) : State :=
  let go := fun (a : State × List Nat) (p : Push) =>
    if a.2.contains p.q || ((a.1.fibre p.fib).pend.any (fun x => x.id < p.bound && !x.vals.isEmpty)) then (a.1, p.q :: a.2)
    else (a.1.modSlot k (fun x => { x with queues := Sparse.modify [] p.q (fun l => l ++ p.data) x.queues,
                                           pushes := x.pushes.erase p }), a.2)
  if (s.slot k).pushes = [] then s else ((s.slot k).pushes.foldl go (s, [])).1

/-- Land every pending write of fibre `f` that is due. -/
def State.landDue (f : Nat) (s : State) : State :=
  if (s.fibre f).pend.any Pend.due then
    let due := (s.fibre f).pend.filter Pend.due
    let s := (due.flatMap (·.vals)).foldl (State.landVal f)
      (s.modFibre f (fun x => { x with pend := x.pend.filter (fun p => !p.due) }))
    (s.modFibre f (fun x => x.gathDone ((due.filter (·.gath)).map (·.op)))).pushDue (s.slotOf f)
  else s

/-- One instruction of the fibre has issued: every open shadow counts it (R52). -/
def Fibre.tickShadows (x : Fibre) : Fibre :=
  { x with pend := x.pend.map (fun p => { p with shadow := p.shadow - 1 }),
           held := x.held.map (fun h => { h with shadow := h.shadow - 1 }) }

/-- Close every open shadow, of pending writes and of faulted instructions (R108, R176). -/
def Fibre.closeShadows (x : Fibre) : Fibre :=
  { x with pend := x.pend.map (fun p => { p with shadow := 0 }), held := x.held.map (fun h => { h with shadow := 0 }) }

/-! ### Exit (R16, R25, R102) -/

/-- A fibre of which no lane is left exits: its shadows close, so that its pending writes land as their data arrives, and the slot passes issue
(R16, R102). -/
def State.exitCheck (f : Nat) (s : State) : State :=
  if (s.fibre f).lanes = 0 then
    ((((s.modFibre f Fibre.closeShadows).landDue f).setStatus f .exited).pass f).fbarCheck (s.slotOf f)
  else s

/-- Retire lanes of fibre `f` (R25, R102): out of the frontier and of every rejoin mask, with the releases that this completes; the fibre exits
when no lane of it is left (R16). -/
def State.exitLanes (f : Nat) (m : Mask) (s : State) : State :=
  let out := fun (l : List Entry) => (l.map (fun e => { e with mask := e.mask &&& ~~~m })).filter (fun e => e.mask != 0)
  let s := s.modFibre f (fun x => ({ x with frontier := out x.frontier, spilled := out x.spilled } : Fibre).strikeAll m)
  (((s.settleFrontier f).revive f).rest f).exitCheck f

/-- The core's record of operations numbers: take the next identity of fibre `f`. -/
def State.takeId (f : Nat) (s : State) : Nat × State :=
  ((s.fibre f).nextId, s.modFibre f (fun x => { x with nextId := x.nextId + 1 }))

/-! ### Translation by the device's tables (R257, R258, R350) -/

/-- Bits of an entry or a record. -/
def fieldB (x : Word64) (hi lo : Nat) : Nat := bits x.toNat hi lo

/-- Whether a leaf of 2^sz bytes is a bad entry (R258). -/
def leafBad (cfg : DevCfg) (e : Word64) (sz : Nat) : Bool :=
  let home := fieldB e 5 4
  let loc := fieldB e 7 6
  let fr := fieldB e 51 12 * 4096
  let node := fieldB e 59 52
  fieldB e 11 8 != 0 || fieldB e 63 60 != 0
  || (node != 0 && home != 2 && loc != 2)
  || ((loc == 0 || loc == 2) && (fr % 2 ^ sz != 0 || deviceBytes < fr + 2 ^ sz))
  || loc == 3
  || ((home == 2 || home == 3) && loc == 1)
  || (home == 2 && loc == 2)
  || (home == 2 && sz != 12)
  || (home == 2 && (143 < node ||
      let cc := Sparse.get CoreCfg.zero node cfg.cores
      fr < cc.pb.toNat || cc.pb.toNat + cc.p.toNat * 65536 < fr + 4096))
  || (loc == 2 && !(cfg.peers.getLsbD node))

/-- Walk the table at physical address `t` for virtual page `vpn` (R350); `lv` counts the levels still to read. -/
def walkFrom (mem : List Host.Cell) (cfg : DevCfg) (vpn : Nat) : Nat → Nat → TlbSt × Word64 × Nat
  | 0, _ => (.none_, 0, 0)
  | lv + 1, t =>
    let e : Word64 := BitVec.ofNat 64 (rdNum mem (t + 8 * (vpn / 512 ^ lv % 512)) 8)
    if !e.getLsbD 0 then (.none_, 0, 0)
    else if fieldB e 3 1 = 0 then
      if lv = 0 ∨ e &&& BitVec.ofNat 64 0xFFF0000000000FFE ≠ 0 then (.bad, 0, 0)
      else walkFrom mem cfg vpn lv (fieldB e 51 12 * 4096)
    else if 3 ≤ lv then (.bad, 0, 0)
    else if leafBad cfg e (12 + 9 * lv) then (.bad, 0, 0)
    else (.ok, e, fieldB e 51 12 + vpn % 512 ^ lv)

/-- The walk of a context's tables. -/
def State.walk (s : State) (pasid vpn : Nat) : TlbSt × Word64 × Nat :=
  walkFrom s.mem s.dev.cfg vpn 5 (s.ctx pasid).root

/-- The pinned reserve of core `c`: the key of its first byte in the core's scratchpad, and its length (R252). -/
def DevCfg.reserve (g : DevCfg) (c : Nat) : Nat × Nat :=
  let n := (Sparse.get CoreCfg.zero c g.cores).p.toNat * 65536
  (spadKey c (0x1F8000 - n), n)

/-- Where byte `a` of device memory lies under home 10 of core `c`: in the core's reserve while a context owns it, else in the window that the reserve
mirrors (R256). -/
def Dev.pinKey (d : Dev) (c a : Nat) : Nat :=
  let pb := (Sparse.get CoreCfg.zero c d.cfg.cores).pb.toNat
  if Sparse.get 0 c d.pinOwner = 0 ∨ a < pb ∨ pb + (d.cfg.reserve c).2 ≤ a then a else (d.cfg.reserve c).1 + (a - pb)

/-- Where a page lies, from its leaf and frame: the key of its first byte. -/
def Dev.pageKey (d : Dev) (leaf : Word64) (frame : Nat) : Nat :=
  match fieldB leaf 7 6 with
  | 0 => if fieldB leaf 5 4 = 2 then d.pinKey (fieldB leaf 59 52) (frame * 4096) else frame * 4096
  | 1 => hostKey (frame * 4096)
  | _ => peerKey (fieldB leaf 59 52) (frame * 4096)

/-- Copy the listed bytes of `n` bytes at a key to another key; the source keeps them. -/
def copyBytes (m : List Host.Cell) (src dst n : Nat) : List Host.Cell :=
  (m.filter (fun e => decide (src ≤ e.1) && decide (e.1 < src + n))).foldl (fun a e => wr8 a (e.1 - src + dst) e.2) (clearBytes m dst n)

/-! ### Links to peers (R367, R368) -/

/-- Link `l`. -/
def State.flink (s : State) (l : Nat) : FLink := Sparse.get FLink.zero l s.dev.flinks

/-- Change a link. -/
def State.modFlink (l : Nat) (g : FLink → FLink) (s : State) : State := s.modDev (fun d => { d with flinks := Sparse.modify FLink.zero l g d.flinks })

/-- Links of a module (R1). -/
def linkCount : Nat := 16

/-- The links of a route entry, in order (R368). -/
def routeLinks (r : BitVec 19) : List Nat := (List.range (bits r.toNat 18 16)).map (fun i => bits r.toNat (4 * i + 3) (4 * i))

/-- The live links of the route to module `m`. -/
def State.linksTo (s : State) (m : Nat) : List Nat := (routeLinks (Sparse.get 0 m s.dev.cfg.routes)).filter (fun l => !(s.flink l).down)

/-- The link that a message about an address takes: line address[15:9] modulo the live links of the entry (R368). -/
def linkFor (ls : List Nat) (addr : Nat) : Option Nat := ls[bits addr 15 9 % ls.length]?

/-- Credits of a channel after training (DESIGN CHOICE, log 36: R367 gives no number). -/
def linkCredits : Nat := 64

/-- A message goes out on a link: it takes a sequence number and a credit of its channel, and stays in the replay buffer until the other side has
returned the credit (R367). -/
def State.putLink (l : Nat) (x : Msg) (s : State) : State :=
  (s.modFlink l (fun y => { y with seqOut := y.seqOut + 1, replay := y.replay ++ [x],
                                   credits := Sparse.set linkCredits x.vc (Sparse.get linkCredits x.vc y.credits - 1) y.credits })).emit
    (.fabric l x.code x.data)

/-- Send a message: never to a module outside the peer set. One that finds no credit of its channel, or an older message of it that waits, waits at its
link (R367, R368). -/
def State.send (x : Msg) (s : State) : State :=
  if !s.dev.cfg.peers.getLsbD x.dst then s
  else match linkFor (s.linksTo x.dst) x.addr with
    | none => s
    | some l =>
      if Sparse.get linkCredits x.vc (s.flink l).credits = 0 ∨ (s.flink l).waiting.any (fun y => y.vc == x.vc) then
        s.modFlink l (fun y => { y with waiting := y.waiting ++ [x] })
      else s.putLink l x

/-- Messages of a channel that wait at a link go out while it has credits; `fuel` bounds them. -/
def State.drainLink (l vc : Nat) : Nat → State → State
  | 0, s => s
  | n + 1, s => match (s.flink l).waiting.find? (fun y => y.vc == vc) with
    | none => s
    | some x =>
      if Sparse.get linkCredits vc (s.flink l).credits = 0 then s
      else State.drainLink l vc n ((s.modFlink l (fun y => { y with waiting := y.waiting.erase x })).putLink l x)

/-- No live link leads to the module of a peer's key, or it is hung: requests to it end without data (R368, R369). -/
def State.peerCut (s : State) (k : Nat) : Bool :=
  isPeer k && (s.dev.mgmt.hung.contains (keyOf k - 2) || (s.linksTo (keyOf k - 2)).isEmpty)

/-- A request about a peer's memory goes to it on VC0 (R367, R368): 9 a read, 10 a write, 11 an atomic. Its answer's moment is that of the access here
(DESIGN CHOICE, log 36). -/
def State.reqPeer (code k : Nat) (s : State) : State := if isPeer k then s.send ⟨0, keyOf k - 2, k % 2 ^ 64, code, k % 2 ^ 64⟩ else s

/-! ### The home (R164, R168, R264 to R275) -/

/-- The sector of a key. -/
def sectorOf (k : Nat) : Nat := k / 64

/-- One bit of the CRC-32C, reflected. -/
def crcBit (c : Word) : Word := if c.getLsbD 0 then (c >>> 1) ^^^ BitVec.ofNat 32 0x82F63B78 else c >>> 1

/-- One byte. -/
def crcByte (c : Word) (b : Byte) : Word :=
  crcBit (crcBit (crcBit (crcBit (crcBit (crcBit (crcBit (crcBit (c ^^^ b.zeroExtend 32))))))))

/-- CRC-32C of bytes in ascending order. -/
def crc32c (l : List Byte) : Word := (l.foldl crcByte (BitVec.ofNat 32 0xFFFFFFFF)) ^^^ BitVec.ofNat 32 0xFFFFFFFF

/-- The check value that the sideband holds for a sector (R271, R272). -/
def State.checkOf (s : State) (sec : Nat) : Word := crc32c (rdBytes s.mem (64 * sec) 64) ^^^ Sparse.get 0 sec s.dev.chk

/-- The byte mask that a write packet of bytes at a key carries in its sector (R272). -/
def packetMask (key : Nat) (data : List Byte) : Nat := (2 ^ data.length - 1) * 2 ^ (key % 64)

/-- The home accepts a packet: its bytes give the check value that it carries (R272 to R274). -/
def packetOk (data : List Byte) (check : Word) : Bool := crc32c data == check

/-- A check value that a packet with these bytes does not have: what an error in transit leaves of it (R274). -/
def spoilt (data : List Byte) : Word := ~~~(crc32c data)

/-- A stored sector is bad: poisoned, or its check value fails (R275); a request to a peer that is hung or that no link reaches ends without data
(R369). -/
def State.sectorBad (s : State) (sec : Nat) : Bool :=
  Sparse.get false sec s.dev.poison || Sparse.get 0 sec s.dev.chk != 0 || s.peerCut (64 * sec)

/-- Some sector of a byte range is bad. -/
def State.rangeBad (s : State) (k n : Nat) : Bool :=
  (List.range ((k + n - 1) / 64 - k / 64 + 1)).any (fun i => s.sectorBad (k / 64 + i))

/-- Clear the future bits of the granules of a range (R168). -/
def clearFut (fut : Sparse Bool) (k n : Nat) : Sparse Bool :=
  if fut = [] then fut
  else (List.range ((k + n - 1) / 8 - k / 8 + 1)).foldl (fun m i => Sparse.erase (k / 8 + i) m) fut

/-- Perform a write of bytes that lie in one sector: a partial write to a bad sector is not performed and poisons it, a whole
one makes it good (R275). A write to a peer out of reach ends without effect (R369). -/
def State.writeSector (s : State) (k : Nat) (data : List Byte) : State :=
  if s.peerCut k then s
  else if s.sectorBad (sectorOf k) then
    if data.length = 64 then
      { s with mem := wrBytes s.mem k data,
               dev := { s.dev with poison := Sparse.erase (sectorOf k) s.dev.poison, chk := Sparse.erase (sectorOf k) s.dev.chk,
                                   fut := clearFut s.dev.fut k 64 } }
    else { s with dev := { s.dev with poison := Sparse.set false (sectorOf k) true s.dev.poison } }
  else { s with mem := wrBytes s.mem k data, dev := { s.dev with fut := clearFut s.dev.fut k data.length } }

/-- Perform a write at its home, sector by sector; `fuel` bounds the number of sectors. -/
def State.homeWriteN : Nat → State → Nat → List Byte → State
  | 0, s, _, _ => s
  | n + 1, s, k, data =>
    if data.isEmpty then s
    else
      let room := 64 - k % 64
      State.homeWriteN n (s.writeSector k (data.take room)) (k + room) (data.drop room)

/-- Perform a write at its home. -/
def State.homeWrite (s : State) (k : Nat) (data : List Byte) : State := s.homeWriteN (data.length / 64 + 2) k data

/-! ### Copies of spans with their sideband; the pinned reserves (R256, R271, R359) -/

/-- The marks of `n` bytes at a key, one mark for each `unit` bytes, take the place of those at another key. -/
def copyMarks {α : Type} (unit src dst n : Nat) (m : Sparse α) : Sparse α :=
  let at' := fun (k : Nat) (e : Nat × α) => decide (k / unit ≤ e.1) && decide (e.1 < (k + n) / unit)
  let moved := (m.filter (at' src)).map (fun e => (e.1 - src / unit + dst / unit, e.2))
  let rest := m.filter (fun e => !at' dst e)
  rest.filter (fun e => decide (e.1 < dst / unit)) ++ moved ++ rest.filter (fun e => decide (dst / unit ≤ e.1))

/-- Copy `n` bytes with their check values, poison and future bits (R271, R359). -/
def State.copySpan (src dst n : Nat) (s : State) : State :=
  { s with mem := copyBytes s.mem src dst n,
           dev := { s.dev with poison := copyMarks 64 src dst n s.dev.poison, chk := copyMarks 64 src dst n s.dev.chk, fut := copyMarks 8 src dst n s.dev.fut } }

/-- Core `c` writes its pinned reserve to the window, which then is the copy that counts; bad sectors stay bad there (R256, R275). -/
def State.pinSave (s : State) (c : Nat) : State :=
  if Sparse.get 0 c s.dev.pinOwner = 0 then s
  else
    let r := s.dev.cfg.reserve c
    (s.copySpan r.1 (Sparse.get CoreCfg.zero c s.dev.cfg.cores).pb.toNat r.2).modDev (fun d => { d with pinOwner := Sparse.erase c d.pinOwner })

/-- A context becomes the owner of core `c`'s reserve, which it loads from the window unless another owner's is there (R256). -/
def State.pinLoad (p c : Nat) (s : State) : State :=
  let r := s.dev.cfg.reserve c
  let s := if Sparse.get 0 c s.dev.pinOwner = 0 then s.copySpan (Sparse.get CoreCfg.zero c s.dev.cfg.cores).pb.toNat r.1 r.2 else s
  s.modDev (fun d => { d with pinOwner := Sparse.set 0 c (p + 1) d.pinOwner })

/-- A context leaves the cores: the reserves that it owns go to their windows (R256). -/
def State.pinsOut (p : Nat) (s : State) : State :=
  let cs := (s.dev.pinOwner.filter (fun e => e.2 == p + 1)).map (·.1)
  if cs = [] then s else (cs.foldl State.pinSave s).modCtx p (fun x => { x with pins := x.pins ++ cs })

/-- A context comes back to the cores: its reserves are loaded before any access (R256, R355). -/
def State.pinsIn (p : Nat) (s : State) : State :=
  if (s.ctx p).pins = [] then s else ((s.ctx p).pins.foldl (fun t c => t.pinLoad p c) s).modCtx p (fun x => { x with pins := [] })

/-! ### The event log (R371) -/

/-- What the event log records; the codes are the model's (R371 gives none). -/
inductive LogKind where
  | sensor | limiter | trip | selfTest | lockOverflow | link | press | activation | firmware | ring
deriving DecidableEq, Repr

/-- The code of a kind. -/
def LogKind.code : LogKind → Nat
  | .sensor => 1 | .limiter => 2 | .trip => 3 | .selfTest => 4 | .lockOverflow => 5 | .link => 6 | .press => 7
  | .activation => 8 | .firmware => 9 | .ring => 10

/-- The 64 bytes of a log entry (R371). -/
def LogEntry.bytes (e : LogEntry) : List Byte :=
  toBytes 64 (e.kind % 2 ^ 16 + e.severity % 16 * 2 ^ 16 + e.source % 2 ^ 12 * 2 ^ 20 + e.time.toNat * 2 ^ 32 + e.detail * 2 ^ 96)

/-- Write an entry to the event log, a ring of 16,384 (R371). -/
def State.logEvent (k : LogKind) (source detail : Nat) (s : State) : State :=
  let p := s.stamp
  let e := LogEntry.mk k.code 0 source p.1 detail
  p.2.modDev (fun d => { d with mgmt := { d.mgmt with
    log := (d.mgmt.log ++ [e]).drop (d.mgmt.log.length + 1 - 16384), logCount := d.mgmt.logCount + 1 } })

/-! ### L2 (R259, R265) -/

/-- The home slice of a device address (R264). -/
def sliceOf (pa : Nat) : Nat :=
  Nat.xor (bits pa 14 9) (Nat.xor (bits pa 20 15) (Nat.xor (bits pa 26 21) (Nat.xor (bits pa 32 27)
    (Nat.xor (bits pa 38 33) (bits pa 39 39)))))

/-- The home slice keeps the line: device memory with home 00 or 11 (R259). -/
def l2Page (leaf : Word64) (key : Nat) : Bool := isDevice key && (fieldB leaf 5 4 == 0 || fieldB leaf 5 4 == 3)

/-- The bits of the sectors of a line that `n` bytes from a key touch. -/
def lineBits (key n : Nat) : BitVec 16 :=
  BitVec.ofNat 16 ((List.range 8).foldl (fun m i => if key < key / 512 * 512 + 64 * (i + 1) ∧ key / 512 * 512 + 64 * i < key + n then m + 2 ^ i else m) 0)

/-- How a line ranks for eviction by its cache hint: one marked first, one without a hint, one kept in preference (R157). -/
def Dev.evictRank (d : Dev) (line : Nat) : Nat := match Sparse.get 0 line d.hint with | 1 => 0 | 2 => 2 | _ => 1

/-- The line of a list to evict: of those that are not locked, the lowest of the lowest rank (R157; DESIGN CHOICE, log 50). -/
def Dev.evictee (d : Dev) (lines : List Nat) : Option Nat :=
  let free := lines.filter (fun l => Sparse.get 0 l d.locked == 0)
  (free.find? (fun l => d.evictRank l == 0)).or ((free.find? (fun l => d.evictRank l == 1)).or free.head?)

/-- Some slice's place for a new line: a line leaves a slice that holds 8,192 (R265). -/
def Dev.roomL2 (d : Dev) (line : Nat) : Dev :=
  if d.l2.length < 8192 then d
  else
    let same := d.l2.filter (fun e => sliceOf (512 * e.1) == sliceOf (512 * line))
    if same.length < 8192 then d
    else match d.evictee (same.map (·.1)) with
      | none => d
      | some l => { d with l2 := Sparse.erase l d.l2, lastWriter := Sparse.erase l d.lastWriter, hint := Sparse.erase l d.hint }

/-- An access of a core, numbered from 1, or of another party, 0, reaches bytes of one line in L2: their sectors are valid, and after a write dirty, with
the core as the last writer; after a write by another party no core is (R265). -/
def State.touchL2 (core : Nat) (write : Bool) (key n : Nat) (s : State) : State :=
  let line := key / 512
  s.modDev (fun d =>
    let d := if Sparse.get 0 line d.l2 = 0 then d.roomL2 line else d
    let b := lineBits key n
    { d with l2 := Sparse.set 0 line (Sparse.get 0 line d.l2 ||| b ||| (if write then b <<< 8 else 0)) d.l2,
             lastWriter := if write then Sparse.set 0 line core d.lastWriter else d.lastWriter })

/-- The same under a page's attributes. -/
def State.noteL2 (leaf : Word64) (core : Nat) (write : Bool) (key n : Nat) (s : State) : State :=
  if l2Page leaf key then s.touchL2 core write key n else s

/-- The lines that a byte range touches: first byte and count in each. -/
def lineParts (key n : Nat) : List (Nat × Nat) :=
  if n = 0 then []
  else (List.range ((key + n - 1) / 512 - key / 512 + 1)).map (fun i =>
    let lo := max key (512 * (key / 512 + i))
    (lo, min (key + n) (512 * (key / 512 + i + 1)) - lo))

/-- A page of a context, as one number. -/
def pageNo (pasid vpn : Nat) : Nat := pasid * 2 ^ 45 + vpn

/-- The first access to a line of a page with home 11 locks it in its slice, unless the slice's quota is full (R267). -/
def State.lockLine (page key : Nat) (leaf : Word64) (s : State) : State :=
  let line := key / 512
  if fieldB leaf 5 4 ≠ 3 || !isDevice key || Sparse.get 0 line s.dev.locked != 0 then s
  else if (s.dev.locked.filter (fun e => sliceOf (512 * e.1) == sliceOf key)).length < 2048 then
    s.modDev (fun d => { d with locked := Sparse.set 0 line (page + 1) d.locked })
  else s.logEvent .lockOverflow (sliceOf key) line

/-- The hub die or an instruction fetch reaches `n` bytes of one page at a key: they meet the line's home slice like any access (R264, R265, R267). `page`
is the page's number of `pageNo`, `core` 0 or the core that fetches plus one. -/
def State.touchPage (page core : Nat) (leaf : Word64) (write : Bool) (key n : Nat) (s : State) : State :=
  (lineParts key n).foldl (fun t p => (t.lockLine page p.1 leaf).noteL2 leaf core write p.1 p.2) s

/-! ### The hub die's own accesses (R310, R364) -/

/-- The first address from `a` that no window of a list holds, first and last addresses included; `fuel` bounds the windows. -/
def windowEnd (ws : List (Word64 × Word64)) : Nat → Nat → Nat
  | 0, a => a
  | fuel + 1, a => match ws.find? (fun w => decide (w.1.toNat ≤ a) && decide (a ≤ w.2.toNat)) with
    | none => a
    | some w => windowEnd ws fuel (w.2.toNat + 1)

/-- Bytes from a host address that the egress windows of a context hold (R364, R392). -/
def State.egressRoom (s : State) (pasid a : Nat) : Nat := windowEnd (s.ctx pasid).egress 8 a - a

/-- `n` bytes from a host address lie in the egress windows of the context (R364, R392). -/
def State.egressOk (s : State) (pasid a n : Nat) : Bool := n ≤ s.egressRoom pasid a

/-- `n` bytes from a host address lie in the egress windows of some context: the bound of the port for a write that is made for no context (R364, R373;
DESIGN CHOICE, log 15). -/
def State.portOk (s : State) (a n : Nat) : Bool := s.ctxs.any (fun e => decide (n ≤ windowEnd e.2.egress 8 a - a))

/-- The key of the first of `n` bytes of one page for the hub die's own accesses under a context's addresses, whatever the data there; none where the access
would fault or waits for ATS (R310). -/
def State.hubPlace (s : State) (pasid va : Nat) (write : Bool) (n : Nat := 1) : Option Nat :=
  if 2 ^ 57 ≤ va then none
  else match s.walk pasid (va / 4096) with
    | (.ok, leaf, frame) =>
      if !(leaf.getLsbD (if write then 2 else 1)) then none
      else if fieldB leaf 7 6 = 1 then
        let h := Sparse.get 0 (va / 4096) (s.ctx pasid).ats
        if h < 2 then none
        else if write && !s.egressOk pasid ((h - 2) * 4096 + va % 4096) n then none
        else some (hostKey ((h - 2) * 4096 + va % 4096))
      else some (s.dev.pageKey leaf frame + va % 4096)
    | _ => none

/-- The same for an access that also must not read a bad sector (R273, R275). -/
def State.hubKey (s : State) (pasid va : Nat) (write : Bool) (n : Nat := 1) : Option Nat :=
  (s.hubPlace pasid va write n).filter (fun k => write || !s.rangeBad k n)

/-- The slices note an access of the hub die to `n` bytes of one page under a context's address (R265, R267), and a peer's memory takes a request (R368). -/
def State.hubTouch (pasid va : Nat) (write : Bool) (key n : Nat) (s : State) : State :=
  match s.walk pasid (va / 4096) with
  | (.ok, leaf, _) => (s.touchPage (pageNo pasid (va / 4096)) 0 leaf write key n).reqPeer (if write then 10 else 9) key
  | _ => s

/-- The keys of `n` bytes for the hub die; none when some part would fault. -/
def State.hubKeys (s : State) (pasid va n : Nat) (write : Bool) : Option (List (Nat × Nat)) :=
  (segs va n).mapM (fun p => (s.hubKey pasid p.1 write p.2).map (fun k => (k, p.2)))

/-- Read `n` bytes for the hub die. -/
def State.hubRead (s : State) (pasid va n : Nat) : Option (List Byte) :=
  (s.hubKeys pasid va n false).map (fun l => l.flatMap (fun p => rdBytes s.mem p.1 p.2))

/-- Write bytes for the hub die; none when some part would fault. -/
def State.hubWrite (s : State) (pasid va : Nat) (data : List Byte) : Option State :=
  (s.hubKeys pasid va data.length true).map (fun l =>
    (l.foldl (fun (a : State × List Byte × Nat) p =>
      ((a.1.homeWrite p.1 (a.2.1.take p.2)).hubTouch pasid a.2.2 true p.1 p.2, a.2.1.drop p.2, a.2.2 + p.2)) (s, data, va)).1)

/-- The management core mirrors the entries written since it last did in the host buffer that the driver has named,
as far as the windows of the port let it (R371, R373). -/
def State.mirrorLog (s : State) : State :=
  let m := s.dev.mgmt
  if m.logBuf = 0 ∨ m.mirrored = m.logCount then s
  else
    let new := m.log.drop (m.log.length - (m.logCount - m.mirrored))
    let at_ := fun (i : Nat) => m.logBuf + 64 * ((m.logCount - new.length + i) % 16384)
    let s := new.zipIdx.foldl (fun (t : State) x => if s.portOk (at_ x.2) 64 then t.homeWrite (hostKey (at_ x.2)) x.1.bytes else t) s
    s.modDev (fun d => { d with mgmt := { d.mgmt with mirrored := m.logCount } })

/-- What names a context and a ring, or the address of its descriptor, in a log entry: the PASID from bit 64 (R310, R371). -/
def ringDetail (pasid r : Nat) : Nat := r + pasid * 2 ^ 64

/-! ### Rings (R310) -/

/-- A ring is full. -/
def Ring.full (r : Ring) : Bool := r.size.toNat ≤ (r.tail - r.head).toNat

/-- Append an entry to a ring of a context; none when it is full or its memory faults, which counts as full. -/
def State.ringPut (s : State) (pasid : Nat) (r : Ring) (data : List Byte) : Option (State × Ring) :=
  if r.full then none
  else
    (s.hubWrite pasid (r.base.toNat % 2 ^ 57 + data.length * (r.tail.toNat % r.size.toNat)) data).map
      (fun t => (t, { r with tail := r.tail + 1 }))

/-! ### Fault records (R342 to R344) -/

/-- The kinds of record (R344). -/
inductive FKind where
  | misaligned | translation | protection | unsupported | dataCheck | scratchpadRange | instructionFetch
  | illegalInstruction | illegalRegister | illegalRejoin | stateStore | taskRecord | grain | taskUncommitted | growDeadlock
  | breakpoint | trap | svcRejected | queueError | timeline | linkSaturated | hangWatchdog | contextLost | successor | darning
deriving DecidableEq, Repr

/-- The code of a kind (R344). -/
def FKind.code : FKind → Nat
  | .misaligned => 0x01 | .translation => 0x02 | .protection => 0x03 | .unsupported => 0x04 | .dataCheck => 0x05
  | .scratchpadRange => 0x06 | .instructionFetch => 0x07 | .illegalInstruction => 0x08 | .illegalRegister => 0x09
  | .illegalRejoin => 0x0A | .stateStore => 0x0B | .taskRecord => 0x0C | .grain => 0x0D | .taskUncommitted => 0x0E
  | .growDeadlock => 0x0F | .breakpoint => 0x10 | .trap => 0x11 | .svcRejected => 0x12 | .queueError => 0x20
  | .timeline => 0x21 | .linkSaturated => 0x22 | .hangWatchdog => 0x23 | .contextLost => 0x24 | .successor => 0x25
  | .darning => 0x30

/-- The fields of a record (R343). -/
structure FRec where
  kind : FKind
  src : Nat := 0
  acc : Nat := 0
  sub : Nat := 0
  pasid : Nat := 0
  ltag : Nat := 0
  addr : Nat := 0
  core : Nat := 0
  slot : Nat := 0
  fibpos : Nat := 0
  park : Nat := 0
  lanes : Mask := 0
  queue : Nat := 0
  pc : Word64 := 0
  launch : Nat := 0
  sfirst : Nat := 0
  scount : Nat := 0
  code : Nat := 0
  user : Nat := 0
  detail : Nat := 0
deriving DecidableEq, Repr

/-- The 512 bits of a record (R343). -/
def FRec.image (r : FRec) (time : Word64) : Nat :=
  r.kind.code + r.src * 2 ^ 8 + r.acc * 2 ^ 10 + r.sub * 2 ^ 12 + r.pasid * 2 ^ 16 + r.ltag * 2 ^ 40
  + r.addr % 2 ^ 57 * 2 ^ 64 + r.core * 2 ^ 128 + r.slot * 2 ^ 136 + r.fibpos * 2 ^ 140 + r.park * 2 ^ 142
  + r.lanes.toNat * 2 ^ 144 + r.queue * 2 ^ 176 + r.pc.toNat % 2 ^ 57 * 2 ^ 192 + r.launch * 2 ^ 256
  + r.sfirst * 2 ^ 288 + r.scount * 2 ^ 304 + r.code * 2 ^ 320 + r.user * 2 ^ 352 + r.detail * 2 ^ 384
  + time.toNat * 2 ^ 448

/-- Why the device cannot reach `n` bytes of one page of a context, if it cannot: kind and sub code (R150, R275, R349, R364). -/
def State.hubFault (s : State) (pasid va : Nat) (write : Bool) (n : Nat := 1) : Option (FKind × Nat) :=
  if 2 ^ 57 ≤ va then some (.translation, 1)
  else match s.walk pasid (va / 4096) with
    | (.ok, leaf, _) =>
      if !(leaf.getLsbD (if write then 2 else 1)) then some (.protection, 0)
      else if (s.hubKey pasid va write n).isSome then none
      else if (s.hubPlace pasid va write n).isSome then some (.dataCheck, 0)
      else if fieldB leaf 7 6 = 1 ∧ 2 ≤ Sparse.get 0 (va / 4096) (s.ctx pasid).ats then some (.protection, 0)
      else some (.translation, 2)
    | (.none_, _, _) => some (.translation, 0)
    | _ => some (.translation, 3)

/-- The page request of a page of a context, if one is outstanding (R377). -/
def Ctx.prgOf (x : Ctx) (vpn : Nat) : Option Prg := x.prgs.find? (fun p => p.vpn == vpn)

/-- Page requests outstanding in the device (R349). -/
def State.prgCount (s : State) : Nat := (s.ctxs.map (fun e => e.2.prgs.length)).foldl (· + ·) 0

/-- Make sure that a page request for an absent page is outstanding (R377); none while all 512 places are taken. -/
def State.ensurePrg (pasid vpn : Nat) (write : Bool) (s : State) : Option State :=
  match (s.ctx pasid).prgOf vpn with
  | some p =>
    some (if write && !p.write then
      s.modCtx pasid (fun x => { x with prgs := x.prgs.map (fun q => if q.idx == p.idx then { q with again := true } else q) })
    else s)
  | none =>
    if 512 ≤ s.prgCount then none
    else
      let i := (s.ctx pasid).nextPrg
      some ((s.modCtx pasid (fun x => { x with prgs := x.prgs ++ [⟨i, vpn, write, false⟩], nextPrg := (i + 1) % 512 })).emit
        (.pageRequest pasid vpn i write))

/-- A host page whose ATS answer is not known is asked for; an absent one gets a page request (R310, R349). -/
def State.askHost (pasid va : Nat) (write : Bool) (s : State) : State :=
  match s.walk pasid (va / 4096) with
  | (.ok, leaf, _) =>
    if fieldB leaf 7 6 = 1 then
      let a := Sparse.get 0 (va / 4096) (s.ctx pasid).ats
      if a = 0 then
        (if (s.ctx pasid).asked.contains (va / 4096) then s
          else (s.modCtx pasid (fun x => { x with asked := x.asked ++ [va / 4096] })).emit (.atsRequest pasid (va / 4096)))
      else if a = 1 then (s.ensurePrg pasid (va / 4096) write).getD s else s
    else s
  | _ => s

/-! ### Rings whose memory faults (R310) -/

/-- The address of entry `i` of a ring of 64-byte entries. -/
def Ring.place (r : Ring) (i : Nat) : Nat := r.base.toNat % 2 ^ 57 + 64 * (i % r.size.toNat)

/-- Raise a vector of a context unless it is masked; a VF has 64 vectors and no others (R361). -/
def State.raiseVector (p v : Nat) (masked : Bool) (s : State) : State :=
  if masked || (decide (64 ≤ v) && s.dev.vfCtx.any (fun e => e.2 == p + 1)) then s else s.emit (.interrupt p v)

/-- The fault vector of a context is raised unless it is masked (R342, R392). -/
def State.raiseFault (p : Nat) (s : State) : State := s.raiseVector p (fieldB (s.ctx p).vectors 10 0) ((s.ctx p).vectors.getLsbD 16)

/-- An answer of ATS is outstanding or has not been asked for: no fault yet. -/
def State.atsOpen (s : State) (p va : Nat) (write : Bool) (n : Nat := 1) : Bool :=
  s.hubFault p va write n == some (.translation, 2) && Sparse.get 0 (va / 4096) (s.ctx p).ats == 0

/-- Ring `r` of a context could not be reached at an address. An unknown host page is asked for; memory that faults is logged and the fault vector
raised, once until the descriptor is written or a page request succeeds, and an absent host page is requested (R310, R371). -/
def State.ringTrouble (p r va : Nat) (write : Bool) (s : State) : State :=
  if (s.ctx p).ringBad.contains r then s
  else if s.atsOpen p va write then s.askHost p va write
  else if write && s.hubFault p va write 64 == none then s
  else (((s.askHost p va write).logEvent .ring 0 (ringDetail p r)).raiseFault p).modCtx p (fun c => { c with ringBad := r :: c.ringBad })

/-- Write an entry of 64 bytes to the fault queue of a context, remember what it stands for, and raise the vector unless it is
masked (R342); none when the ring has no room. -/
def State.putRecord (s : State) (pasid image : Nat) (info : RecInfo) : Option State :=
  let c := s.ctx pasid
  match s.ringPut pasid c.faultRing (toBytes 64 image) with
  | none => none
  | some (t, r) =>
    let t := t.modCtx pasid (fun x => { x with faultRing := r, recs := x.recs ++ [{ info with ridx := c.faultRing.tail, image := image }] })
    some (t.raiseFault pasid)

/-- The fault queue's next entry cannot be written: it is full, or its memory faults. -/
def State.faultRingWaits (p : Nat) (s : State) : State :=
  let r := (s.ctx p).faultRing
  if r.full then s else s.ringTrouble p 0 (r.place r.tail.toNat) true

/-- Records of a context wait for room in their ring. -/
def State.putOrWait (s : State) (pasid image : Nat) (info : RecInfo) : State :=
  match (if (s.ctx pasid).waiting = [] then s.putRecord pasid image info else none) with
  | some t => t
  | none => (s.modCtx pasid (fun x => { x with waiting := x.waiting ++ [⟨image, info⟩] })).faultRingWaits pasid

/-- Records that wait are written while their ring has room; `fuel` bounds their number. -/
def State.flushWaiting (p : Nat) : Nat → State → State
  | 0, s => s
  | n + 1, s => match (s.ctx p).waiting with
    | [] => s
    | w :: l => match s.putRecord p w.image w.info with
      | none => s.faultRingWaits p
      | some t => State.flushWaiting p n (t.modCtx p (fun c => { c with waiting := l, recs := c.recs.filter (fun i => !i.served) })).wake

/-- The fault ring has room or a new place: waiting records go out. -/
def State.flushRecords (p : Nat) (s : State) : State := (s.flushWaiting p (s.ctx p).waiting.length).wake

/-- What a record stands for, with nothing in it yet. -/
def RecInfo.zero : RecInfo := ⟨0, 0, 0, 0, 0, 0, 0, 0, 0, 0, 0, 0, 0, none, false, 0, 0⟩

/-- Write a record that no lane takes (engines, queues, counters); it waits when the ring is full. -/
def State.report (s : State) (r : FRec) (info : RecInfo) : State :=
  let p := s.stamp
  p.2.putOrWait r.pasid (r.image p.1) { info with kind := r.kind.code, src := r.src, acc := r.acc, pc := r.pc, lanes := r.lanes, left := r.lanes }

/-- The identity fields of a record of fibre `f` (R343). -/
def State.fibreRec (s : State) (f : Nat) (k : FKind) : FRec :=
  let x := s.fibre f
  let w := s.wg x.wg
  let l := s.launchOf x.wg
  { kind := k, pasid := w.pasid, ltag := l.tag.toNat, core := x.core, slot := x.slot, fibpos := x.pos, queue := l.queue,
    launch := l.launchid.toNat, user := l.user.toNat }

/-! ### Taking a fault (R19 rules 5 and 6, R338 to R341) -/

/-- One lane's fault. -/
structure LFault where
  lane : Nat
  kind : FKind
  sub : Nat
  acc : Nat
  addr : Nat
  detail : Nat
deriving DecidableEq, Repr

/-- The places of the fault-parked entries in use (R343). -/
def Fibre.parkPlaces (x : Fibre) : List Nat := (x.frontier.filter (fun e => e.kind == .parked)).map (·.park)

/-- The lowest free place, none when four are held (R19 rule 6). -/
def Fibre.freePark (x : Fibre) : Option Nat := (List.range 4).find? (fun i => !x.parkPlaces.contains i)

/-- The fault-made parked entry that lanes with these addresses join (R19 rule 5). -/
def Fibre.parkedAt (x : Fibre) (pc resume : Word64) : Option Entry :=
  x.frontier.find? (fun e => e.kind == .parked && !e.svc && e.pc == pc && e.resume == resume)

/-- A record of one parked entry and one page: its lanes and its lowest address (R343). -/
structure FGroup where
  kind : FKind
  sub : Nat
  acc : Nat
  page : Nat
  addr : Nat
  lanes : Mask
  detail : Nat
deriving DecidableEq, Repr

/-- Put a lane's fault to the group of its kind and page. -/
def addGroup (g : List FGroup) (f : LFault) : List FGroup :=
  let m := maskOf [f.lane]
  match g with
  | [] => [⟨f.kind, f.sub, f.acc, f.addr / 4096, f.addr, m, f.detail⟩]
  | x :: l =>
    if x.kind = f.kind ∧ x.sub = f.sub ∧ x.page = f.addr / 4096 then
      { x with addr := min x.addr f.addr, lanes := x.lanes ||| m } :: l
    else x :: addGroup l f

/-- The records of a list of lane faults. -/
def groups (fs : List LFault) : List FGroup := fs.foldl addGroup []

/-- Move lanes of the issuing entry to a fault-parked entry with these addresses; none when four are held and none fits. -/
def Fibre.park (x : Fibre) (age : Word) (m : Mask) (pc resume : Word64) (prio : BitVec 4) (hold : Nat) : Option (Fibre × Nat) :=
  let y := x.leave age m
  match y.parkedAt pc resume with
  | some e =>
    some ({ y with frontier := y.frontier.map (fun z => if z.kind == .parked && z.park == e.park then
              { z with mask := z.mask ||| m } else z) }, e.park)
  | none =>
    match y.freePark with
    | none => none
    | some p =>
      let z := y.makeRoom
      some ({ z with frontier := z.frontier ++ [⟨.parked, pc, resume, prio, m, z.nextAge, false, 0, p, false, hold⟩],
                     nextAge := z.nextAge + 1 }, p)

/-- Write the records of the parked lanes of the issuing fibre, in order; none when the ring has no room for all of them. -/
def State.putGroups (pc resume : Word64) (place : Nat) : List FGroup → State → Option State
  | [], s => some s
  | g :: gs, s =>
    let f := s.cur.fib
    let stop := g.kind = .breakpoint ∨ g.kind = .trap
    let r : FRec := { s.fibreRec f g.kind with acc := g.acc, sub := g.sub, addr := g.addr, park := place, lanes := g.lanes, pc := pc,
                                               code := if stop then g.detail else 0, detail := if stop then 0 else g.detail }
    let p := s.stamp
    let info : RecInfo :=
      { RecInfo.zero with kind := g.kind.code, acc := g.acc, fib := f, wg := (s.fibre f).wg, pc := pc, resume := resume, lanes := g.lanes,
                          left := g.lanes, page := g.page, place := place,
                          prg := if g.kind = .translation ∧ g.sub = 2 then some g.detail else none }
    match p.2.putRecord r.pasid (r.image p.1) info with
    | none => none
    | some t => State.putGroups pc resume place gs t

/-- Lanes of the issuing entry take faults (R338): they join a fault-parked entry with the replay and resume addresses given, one
record per page. None when they stay in their run entry: four entries are held (R19 rule 6) or the ring is full (R342). -/
def State.parkLanes (fs : List LFault) (pc resume : Word64) (hold : Nat) (s : State) : Option State :=
  let m := maskOf (fs.map (·.lane))
  match s.me.park s.cur.age m pc resume s.cur.prio hold with
  | none => none
  | some (x, p) => State.putGroups pc resume p (groups fs) (s.setFibre s.cur.fib x)

/-- The lanes could not be parked: fault-stopped while four entries are held, otherwise waiting for room in the ring. -/
def State.noPark (s : State) : State :=
  if s.me.freePark = none then s.faultStop else (s.faultRingWaits s.myPasid).stall .ringRoom

/-- The whole issuing entry takes a fault that is precise for the fibre, with both addresses at the instruction (R69, R341). -/
def State.precise (k : FKind) (detail : Nat) (s : State) : State :=
  let fs := (lanesOf s.cur.mask).map (fun l => (⟨l, k, 0, 0, 0, detail⟩ : LFault))
  match s.parkLanes fs s.cur.pc s.cur.pc 0 with
  | some t => (t.settleFrontier t.cur.fib).faultStop.wake
  | none => s.noPark

/-! ### Finish of an instruction -/

/-- Move the issuing entry, but for the lanes that stay, to the next address (R19 rule 2). -/
def Fibre.advance (x : Fibre) (c : Cur) (stay : Mask) : Fibre :=
  match x.runEntry c.age with
  | none => x
  | some e =>
    let go := e.mask &&& ~~~stay
    if stay &&& e.mask = 0 then (x.dropRun c.age).addRun c.npc e.prio go c.age
    else (x.putEntry { e with mask := e.mask &&& stay }).newRun c.npc e.prio go

/-- Release the held destinations of instructions of which no entry is left (R339, R340). -/
def Fibre.releaseHeld (x : Fibre) : Fibre :=
  if x.held = [] then x
  else { x with held := x.held.filter (fun h => x.frontier.any (fun e => e.hold == h.id)) }

/-- The instruction has issued: open shadows count it, what is due lands, the slot's gap, yield and recency are set, a fibre without a run entry
rests (R15, R49, R52, R315), and stalled fibres may try again. -/
def State.done (s : State) : State :=
  let f := s.cur.fib
  let s := s.modMe (fun x => { (x.tickShadows).releaseHeld with status := .ready })
  let s := s.settleFrontier f
  let s := s.landDue f
  let s := s.modSlot (s.slotOf f) (fun t =>
    { t with lastIssue := s.clock + 1,
             gapUntil := if s.cur.attr.gap = 0 then t.gapUntil else s.clock + 1 + s.cur.attr.gap.toNat,
             yield := s.cur.attr.yield })
  (s.rest f).wake

/-- The instruction has issued; the issuing entry advances, but for the lanes that stay, and then the fibre changes as the instruction says (R19
rule 2). -/
def State.finishWith (stay : Mask) (g : Fibre → Fibre) (s : State) : State := (s.modMe (fun x => g (x.advance s.cur stay))).done

/-- The instruction has issued; the issuing entry advances, but for the lanes that stay. -/
def State.finishStay (stay : Mask) (s : State) : State := s.finishWith stay id

/-- The instruction has issued in every lane. -/
def State.finish (s : State) : State := s.finishStay 0

/-- A task's trigger of unpicking: only the first counts, and none once the commit has begun (R232, R237). Its fibres stop. -/
def State.trigger (w : Nat) (pc : Word64) (s : State) : State :=
  if (s.wg w).state = .running then (s.modWg w (fun x => { x with state := .unpicking, trigger := some pc })).wake else s

/-! ### Issue -/

/-- The registers an instruction uses, named by window-relative number: groups that must lie in the window (first register and
count), read and written lane by lane, and single lanes of registers with the lanes that read them (R93, R118). -/
structure Uses where
  win : List (Nat × Nat)
  rd : List Reg
  wr : List Reg
  all : List (Reg × Nat × Mask)
  /-- the lookahead count (R52) -/
  la : Nat := 0
  /-- single lanes written, with the lanes that write them (R97, R143) -/
  wrl : List (Reg × Nat × Mask) := []
deriving DecidableEq, Repr

namespace Uses

/-- No register. -/
def none : Uses := ⟨[], [], [], [], 0, []⟩

/-- Both uses. -/
def and (a b : Uses) : Uses := ⟨a.win ++ b.win, a.rd ++ b.rd, a.wr ++ b.wr, a.all ++ b.all, max a.la b.la, a.wrl ++ b.wrl⟩

/-- The registers of a group. -/
def grp (n k : Nat) : List Reg := (List.range k).map (fun i => Reg.v (n + i))

/-- Read `k` vector registers from `n`. -/
def rdV (n k : Nat) : Uses := ⟨[(n, k)], grp n k, [], [], 0, []⟩

/-- Write `k` vector registers from `n`. -/
def wrV (n k : Nat) : Uses := ⟨[(n, k)], [], grp n k, [], 0, []⟩

/-- Read lanes of a vector register, each for the lanes of a mask (R93). -/
def lanesV (n : Nat) (l : List (Nat × Mask)) : Uses := ⟨[(n, 1)], [], [], l.map (fun e => (Reg.v n, e.1, e.2)), 0, []⟩

/-- Read a vector register in every lane, for every lane (R93). -/
def allV (n : Nat) : Uses := lanesV n ((List.range 32).map (fun j => (j, allLanes)))

/-- Each lane reads a register in the lane that a function gives, if any. -/
def fromV (n : Nat) (src : Nat → Option Nat) : Uses :=
  lanesV n ((List.range 32).filterMap (fun l => (src l).map (fun j => (j, maskOf [l]))))

/-- Write one lane of a vector register (R97). -/
def wrLane (n j : Nat) : Uses := ⟨[(n, 1)], [], [.v n], [], 0, [(.v n, j, allLanes)]⟩

/-- Read a uniform source; constants depend on nothing. -/
def rdU (n : Nat) : Uses := if n < 64 then ⟨[], [.u n], [], [], 0, []⟩ else none

/-- Write a uniform. -/
def wrU (n : Nat) : Uses := ⟨[], [], [.u n], [], 0, []⟩

/-- Read a predicate. -/
def rdP (n : Nat) : Uses := if n < 15 then ⟨[], [.p n], [], [], 0, []⟩ else none

/-- Write a predicate. -/
def wrP (n : Nat) : Uses := if n < 15 then ⟨[], [], [.p n], [], 0, []⟩ else none

end Uses

/-- The physical name of a register for a window base (R104). -/
def Reg.phys (b : Nat) : Reg → Reg
  | .v n => .v (8 * b + n)
  | r => r

/-- A register of one lane only counts in the lanes of a mask; a uniform always counts. -/
def PVal.inLanes (x : PVal) (m : Mask) : Bool := match x.reg with | .u _ => true | _ => m.getLsbD x.lane

/-- Some group lies beyond the window (R27, R48). -/
def State.outside (s : State) (u : Uses) : Bool := u.win.any (fun p => 8 * s.me.size < p.1 + p.2)

/-- A value is read by an active lane through a cross-lane read. -/
def PVal.readBy (x : PVal) (m : Mask) (r : Reg × Nat × Mask) : Bool := r.1 == x.reg && r.2.1 == x.lane && r.2.2 &&& m != 0

/-- A pending write outside every shadow blocks these registers (R52, R53 rule 4). -/
def Pend.blocks (p : Pend) (m : Mask) (rs : List Reg) (all : List (Reg × Nat × Mask)) : Bool :=
  p.shadow == 0 && p.vals.any (fun x => (rs.contains x.reg && x.inLanes m) || all.any (x.readBy m))

/-- The hold of the entry that issues, when it is a replay (R340). -/
def State.replayHold (s : State) : Nat := match s.me.runEntry s.cur.age with | some e => e.hold | none => 0

/-- Cross-lane reads or writes, by physical register. -/
def physLanes (b : Nat) (l : List (Reg × Nat × Mask)) : List (Reg × Nat × Mask) := l.map (fun r => (r.1.phys b, r.2))

/-- Why the registers are not ready: the scoreboard, or destinations held by a faulted instruction (R339). -/
def State.hazard (s : State) (u : Uses) : Option Bool :=
  let x := s.me
  let b := x.base
  let rs := (u.rd ++ u.wr).map (Reg.phys b)
  let al := physLanes b (u.all ++ u.wrl)
  if x.held.any (fun h => h.shadow == 0 && h.id != s.replayHold && h.regs.any (fun r => rs.contains r || al.any (fun a => a.1 == r))) then some true
  else if x.pend.any (fun p => p.blocks s.cur.active rs al) then some false
  else none

/-- The lanes in which a source register word has an error its code cannot correct; every lane for a uniform (R276). -/
def State.eccLanes (s : State) (u : Uses) : Mask :=
  let x := s.me
  let rs := u.rd.map (Reg.phys x.base)
  let al := physLanes x.base u.all
  (s.core x.core).ecc.foldl (fun m e => match e with
    | .vec t ph l => if t = x.slot then
        (al.filter (fun a => a.1 == .v ph && a.2.1 == l)).foldl (fun m a => m ||| a.2.2) (if rs.contains (.v ph) then m ||| maskOf [l] else m)
      else m
    | .uni f n => if f = s.cur.fib ∧ rs.contains (.u n) then allLanes else m
    | .prd f n => if f = s.cur.fib ∧ rs.contains (.p n) then s.cur.active else m
    | _ => m) 0 &&& s.cur.active

/-- A destination is written anew: its error is gone. -/
def State.eccClear (u : Uses) (s : State) : State :=
  let x := s.me
  let ws := u.wr.map (Reg.phys x.base)
  let wl := physLanes x.base u.wrl
  let hit := fun (r : Reg) (l : Nat) =>
    if wl.any (fun a => a.1 == r) then wl.any (fun a => a.1 == r && a.2.1 == l && a.2.2 &&& s.cur.active != 0)
    else ws.contains r && s.cur.active.getLsbD l
  s.modCore x.core (fun c => { c with ecc := c.ecc.filter (fun e => match e with
    | .vec t ph l => !(t == x.slot && hit (.v ph) l)
    | .uni f n => !(f == s.cur.fib && ws.contains (.u n))
    | .prd f n => !(f == s.cur.fib && ws.contains (.p n))
    | _ => true) })

/-- Park lanes of the issuing entry whose destinations stay held (R338, R339); none when they cannot be parked. -/
def State.parkHeld (fs : List LFault) (u : Uses) (s : State) : Option State :=
  let x := s.me
  let old := match x.parkedAt s.cur.pc s.cur.npc with | some e => e.hold | none => s.replayHold
  let h := if u.wr.isEmpty then 0 else if old = 0 then x.nextId + 1 else old
  (s.parkLanes fs s.cur.pc s.cur.npc h).map (fun t => t.modMe (fun y =>
    { y with nextId := y.nextId + 2,
             held := if h = 0 then y.held
               else y.held.filter (fun z => z.id != h) ++ [⟨h, u.wr.map (Reg.phys y.base), s.cur.pc, u.la + 1⟩] }))

/-- Issue with register errors about: the lanes that read one take the data-check fault, the others go on (R276). -/
def State.eccIssue (u : Uses) (body : State → State) (s : State) : State :=
  let bad := s.eccLanes u
  if bad = 0 then body (s.eccClear u)
  else match s.parkHeld ((lanesOf bad).map (fun l => ⟨l, .dataCheck, 0, 0, 0, 0⟩)) u with
    | none => s.noPark
    | some t =>
      let good := s.cur.active &&& ~~~bad
      if good = 0 then t.finish
      else
        let t := { t with cur := { t.cur with active := good } }
        body (t.eccClear u)

/-- The guard's predicate has an error that its code cannot correct: the lanes that read it take the data-check fault, and the instruction's
destinations stay held (R276, R339). -/
def State.guardFault (u : Uses) (s : State) : State :=
  match s.parkHeld ((lanesOf s.cur.mask).map (fun l => ⟨l, .dataCheck, 0, 0, 0, 0⟩)) u with
  | none => s.noPark
  | some t => t.finish

/-- Issue an instruction: decode checks on its window, an unreadable guard, an empty active set, the scoreboard, then its body, which finishes
or stalls it (R27, R49, R69). -/
def State.issue (u : Uses) (body : State → State) (s : State) : State :=
  if s.outside u then s.precise .illegalRegister 0
  else if s.cur.gbad then s.guardFault u
  else if s.cur.active = 0 then s.finish
  else match s.hazard u with
    | some true => s.faultStop
    | some false => s.stall .scoreboard
    | none => if (s.core s.me.core).ecc = [] then body s else s.eccIssue u body

/-- Issue an instruction that decode refuses with a precise fault, whether or not a lane is active (R69). -/
def State.issueIf (bad : Option FKind) (u : Uses) (body : State → State) (s : State) : State :=
  match bad with
  | some k => s.precise k 0
  | none => s.issue u body

/-- Issue an instruction whose effect is one change of state. -/
def State.plain (u : Uses) (eff : State → State) (s : State) : State := s.issue u (fun t => (eff t).finish)

/-- The instruction faults in some lanes and takes effect in the others; its destinations stay held while a lane is parked
(R339). Lanes that cannot be parked stay at the instruction (R19 rule 6, R342). -/
def State.splitFaults (fs : List LFault) (u : Uses) (eff : Mask → State → State) (s : State) : State :=
  if fs.isEmpty then (eff s.cur.active s).finish
  else
    let m := maskOf (fs.map (·.lane))
    let good := s.cur.active &&& ~~~m
    match s.parkHeld fs u with
    | some t => (if good = 0 then t else eff good t).finish
    | none =>
      if good = 0 then s.noPark
      else
        let t := (eff good s).finishStay m
        if s.me.freePark = none then t.faultStop else t

/-- Return from a fault (R340): lanes of a parked entry become a run entry at an address; as a replay it executes the
replayed instruction alone first. The fibre may issue again. -/
def State.unpark (f : Nat) (place : Nat) (m : Mask) (dst : Option Word64) (s : State) : State :=
  let x := s.fibre f
  match x.frontier.find? (fun e => e.kind == .parked && e.park == place) with
  | none => s
  | some e =>
    let go := e.mask &&& m
    if go = 0 then s
    else
      let rest := e.mask &&& ~~~m
      let cut := fun (z : Entry) => if z.kind == .parked && z.park == place then { z with mask := rest } else z
      let x : Fibre := { x with frontier := (x.frontier.map cut).filter (fun z => z.mask != 0) }
      let x : Fibre := match dst with
        | some pc => x.newRun pc e.prio go
        | none =>
          let y := x.makeRoom
          let r : Entry := ⟨.run, e.pc, e.resume, e.prio, go, y.nextAge, false, 0, 0, true, e.hold⟩
          ({ y with frontier := y.frontier ++ [r], nextAge := y.nextAge + 1 } : Fibre)
      (((s.setFibre f x.releaseHeld).settleFrontier f).revive f).wake

end Machine

end Sys2Proof
end

