-- ==== Sys2Proof/Machine/Operands.lean ====
section
/-! DEFINITION. Every operand form: vector and uniform sources, the constants of R33, pairs, 64-bit operands, and the shapes
that instructions share. -/

namespace Sys2Proof

namespace Machine

/-- The types that give a constant its value (R33). -/
inductive CTy where
  | int | f64 | f32 | f16 | bf16
deriving DecidableEq, Repr

/-- The constant of a uniform field value 64 to 69 (R33); other values name no constant. -/
def constant (t : CTy) (n : Nat) : Word64 :=
  match t, n with
  | _, 64 => 0
  | .int, 65 => BitVec.ofNat 64 0xFFFFFFFFFFFFFFFF
  | .f64, 65 => BitVec.ofNat 64 0xFFFFFFFFFFFFFFFF
  | _, 65 => BitVec.ofNat 64 0xFFFFFFFF
  | .f64, 66 => BitVec.ofNat 64 0x3FF0000000000000
  | .f64, 67 => BitVec.ofNat 64 0xBFF0000000000000
  | .f64, 68 => BitVec.ofNat 64 0x3FE0000000000000
  | .f64, 69 => BitVec.ofNat 64 0x4000000000000000
  | .f32, 66 => BitVec.ofNat 64 0x3F800000
  | .f32, 67 => BitVec.ofNat 64 0xBF800000
  | .f32, 68 => BitVec.ofNat 64 0x3F000000
  | .f32, 69 => BitVec.ofNat 64 0x40000000
  | .f16, 66 => BitVec.ofNat 64 0x3C003C00
  | .f16, 67 => BitVec.ofNat 64 0xBC00BC00
  | .f16, 68 => BitVec.ofNat 64 0x38003800
  | .f16, 69 => BitVec.ofNat 64 0x40004000
  | .bf16, 66 => BitVec.ofNat 64 0x3F803F80
  | .bf16, 67 => BitVec.ofNat 64 0xBF80BF80
  | .bf16, 68 => BitVec.ofNat 64 0x3F003F00
  | .bf16, 69 => BitVec.ofNat 64 0x40004000
  | _, _ => 0

namespace State

/-- A uniform source: a register, or a constant of a type (R33, R47). -/
def usrcT (s : State) (t : CTy) (n : Nat) : Word64 := if n < 64 then s.ru n else constant t n

/-- A uniform source of an integer or bit type. -/
def usrc (s : State) (n : Nat) : Word64 := s.usrcT .int n

/-- Opb(L) of 32 bits under a type (R81). -/
def opbT (s : State) (t : CTy) (b : BitVec 7) (u : Bool) (lane : Nat) : Word :=
  if u then (s.usrcT t b.toNat).extractLsb' 0 32 else s.rv b.toNat lane

/-- Opb(L) of 32 bits (R81). -/
def opb (s : State) (b : BitVec 7) (u : Bool) (lane : Nat) : Word := s.opbT .int b u lane

/-- A 64-bit b operand under a type: a pair or a uniform (R48). -/
def opb2T (s : State) (t : CTy) (b : BitVec 7) (u : Bool) (lane : Nat) : Word64 :=
  if u then s.usrcT t b.toNat else s.rv2 b.toNat lane

/-- A 64-bit b operand. -/
def opb2 (s : State) (b : BitVec 7) (u : Bool) (lane : Nat) : Word64 := s.opb2T .int b u lane

end State

namespace Uses

/-- Read the b operand: a uniform source or `k` vector registers. -/
def rdB (b : BitVec 7) (u : Bool) (k : Nat) : Uses := if u then rdU b.toNat else rdV b.toNat k

end Uses

/-- An operation of two operands at a width. -/
abbrev BinOp := (w : Nat) → BitVec w → BitVec w → BitVec w

/-- An operation of two operands and the old destination at a width: a, b, d. -/
abbrev TriOp := (w : Nat) → BitVec w → BitVec w → BitVec w → BitVec w

/-- An operation of one operand at a width. -/
abbrev UnOp := (w : Nat) → BitVec w → BitVec w

/-- d := f(a, b) in vector form on 32-bit lanes or in uniform form on 64 bits (R57, R81). -/
def State.binary (f : BinOp) (v : Bool) (d a b : BitVec 7) (u : Bool) (s : State) : State :=
  if !v then
    s.plain (((Uses.rdV a.toNat 1).and (Uses.rdB b u 1)).and (Uses.wrV d.toNat 1))
      (fun t => t.wv d.toNat t.cur.active (fun l => f 32 (t.rv a.toNat l) (t.opb b u l)))
  else
    s.plain (((Uses.rdU a.toNat).and (Uses.rdU b.toNat)).and (Uses.wrU d.toNat))
      (fun t => t.wu d.toNat (f 64 (t.usrc a.toNat) (t.usrc b.toNat)))

/-- d := f(a, b, d) in vector (v clear) or uniform form. -/
def State.ternary (f : TriOp) (v : Bool) (d a b : BitVec 7) (u : Bool) (s : State) : State :=
  if !v then
    s.plain ((((Uses.rdV a.toNat 1).and (Uses.rdB b u 1)).and (Uses.rdV d.toNat 1)).and (Uses.wrV d.toNat 1))
      (fun t => t.wv d.toNat t.cur.active (fun l => f 32 (t.rv a.toNat l) (t.opb b u l) (t.rv d.toNat l)))
  else
    s.plain ((((Uses.rdU a.toNat).and (Uses.rdU b.toNat)).and (Uses.rdU d.toNat)).and (Uses.wrU d.toNat))
      (fun t => t.wu d.toNat (f 64 (t.usrc a.toNat) (t.usrc b.toNat) (t.ru d.toNat)))

/-- d := f(a) in vector (v clear) or uniform form. -/
def State.unary (f : UnOp) (v : Bool) (d a : BitVec 7) (s : State) : State :=
  if !v then
    s.plain ((Uses.rdV a.toNat 1).and (Uses.wrV d.toNat 1))
      (fun t => t.wv d.toNat t.cur.active (fun l => f 32 (t.rv a.toNat l)))
  else
    s.plain ((Uses.rdU a.toNat).and (Uses.wrU d.toNat)) (fun t => t.wu d.toNat (f 64 (t.usrc a.toNat)))

/-- d := an immediate or constant value in vector (v clear) or uniform form. -/
def State.load0 (x : Word64) (v : Bool) (d : BitVec 7) (s : State) : State :=
  if !v then s.plain (Uses.wrV d.toNat 1) (fun t => t.wv d.toNat t.cur.active (fun _ => x.extractLsb' 0 32))
  else s.plain (Uses.wrU d.toNat) (fun t => t.wu d.toNat x)

/-- Pair d := f(pair a, 64-bit b), vector only. -/
def State.pairBinary (f : Word64 → Word64 → Word64) (d a b : BitVec 7) (u : Bool) (s : State) : State :=
  s.plain (((Uses.rdV a.toNat 2).and (Uses.rdB b u 2)).and (Uses.wrV d.toNat 2))
    (fun t => t.wv2 d.toNat t.cur.active (fun l => f (t.rv2 a.toNat l) (t.opb2 b u l)))

/-- Pair d := f(a, b, pair d) with 32-bit a and b, vector only. -/
def State.pairMad (f : Word → Word → Word64 → Word64) (d a b : BitVec 7) (u : Bool) (s : State) : State :=
  s.plain ((((Uses.rdV a.toNat 1).and (Uses.rdB b u 1)).and (Uses.rdV d.toNat 2)).and (Uses.wrV d.toNat 2))
    (fun t => t.wv2 d.toNat t.cur.active (fun l => f (t.rv a.toNat l) (t.opb b u l) (t.rv2 d.toNat l)))

/-- A predicate is computed in each active lane. -/
def State.setPred (u : Uses) (p : Nat) (f : State → Nat → Bool) (s : State) : State :=
  s.plain (u.and (Uses.wrP p)) (fun t => t.wp p t.cur.active (f t))

end Machine

end Sys2Proof
end

