-- ==== Sys2Proof/Machine/Flags.lean ====
section
/-! DEFINITION. Every flag computation: carry and borrow (R82), the comparison conditions (R59), the status predicate p14
(R55), and the sticky floating-point status with its flags (R41). -/

namespace Sys2Proof

namespace Machine

/-- The carry-out of a + b + cin at width w: bit w of the exact sum (R82). -/
def carryOut (w : Nat) (a b : BitVec w) (cin : Bool) : Bool := 2 ^ w ≤ a.toNat + b.toNat + cin.toNat

/-- The borrow-out of a − b − bin: a < b + bin, unsigned (R82). -/
def borrowOut (w : Nat) (a b : BitVec w) (bin : Bool) : Bool := a.toNat < b.toNat + bin.toNat

/-- The conditions of SETP, by function code (R59). -/
def cmpCond (c : Nat) {w : Nat} (a b : BitVec w) : Bool :=
  match c with
  | 0 => a == b
  | 1 => a != b
  | 2 => a.slt b
  | 3 => a.sle b
  | 4 => b.slt a
  | 5 => b.sle a
  | 6 => a.ult b
  | 7 => a.ule b
  | 8 => b.ult a
  | _ => b.ule a

/-- The flags an operation raises: invalid, division by zero, overflow, underflow, inexact, quantiser saturation (R41). -/
abbrev FpFlags := BitVec 6

namespace FpFlags

def inv : FpFlags := 1
def dz : FpFlags := 2
def ovf : FpFlags := 4
def unf : FpFlags := 8
def inx : FpFlags := 16
def qsat : FpFlags := 32

/-- A flag when a condition holds. -/
def when (c : Bool) (f : FpFlags) : FpFlags := if c then f else 0

end FpFlags

namespace State

/-- OR flags into the fibre's sticky status (R41). -/
def raise (fl : FpFlags) (s : State) : State := s.modMe (fun x => { x with fpstat := x.fpstat ||| fl })

/-- The flags of every lane of a mask. -/
def orFlags (m : Mask) (f : Nat → FpFlags) : FpFlags := (lanesOf m).foldl (fun a l => a ||| f l) 0

/-- ADDC and SUBB: the result and p13, per lane or once (R82). -/
def carryOp (f : (w : Nat) → BitVec w → BitVec w → Bool → BitVec w) (co : (w : Nat) → BitVec w → BitVec w → Bool → Bool)
    (v : Bool) (d a b : BitVec 7) (u : Bool) (s : State) : State :=
  if !v then
    s.plain (((((Uses.rdV a.toNat 1).and (Uses.rdB b u 1)).and (Uses.rdP 13)).and (Uses.wrV d.toNat 1)).and (Uses.wrP 13))
      (fun t => (t.wv d.toNat t.cur.active (fun l => f 32 (t.rv a.toNat l) (t.opb b u l) (t.rp 13 l))).wp 13 t.cur.active
        (fun l => co 32 (t.rv a.toNat l) (t.opb b u l) (t.rp 13 l)))
  else
    s.plain (((((Uses.rdU a.toNat).and (Uses.rdU b.toNat)).and (Uses.rdP 13)).and (Uses.wrU d.toNat)).and (Uses.wrP 13))
      (fun t =>
        let cin := t.rp 13 ((lowestLane t.cur.active).getD 0)
        (t.wu d.toNat (f 64 (t.usrc a.toNat) (t.usrc b.toNat) cin)).wp 13 t.cur.active
          (fun _ => co 64 (t.usrc a.toNat) (t.usrc b.toNat) cin))

end State

end Machine

end Sys2Proof
end

