-- ==== Sys2Proof/Machine/Integer.lean ====
section
/-! DEFINITION. Integer, immediate, conversion, selection and predicate instructions (R81 to R92). -/

namespace Sys2Proof

namespace Machine

/-! ### Operations at a width -/

/-- The high half of the signed product. -/
def mulhS (w : Nat) (a b : BitVec w) : BitVec w := BitVec.ofInt w (a.toInt * b.toInt / (2 ^ w : Nat))

/-- The high half of the unsigned product. -/
def mulhU (w : Nat) (a b : BitVec w) : BitVec w := BitVec.ofNat w (a.toNat * b.toNat / 2 ^ w)

/-- Signed division truncating towards zero; a zero divisor gives all ones (R84). -/
def divS (w : Nat) (a b : BitVec w) : BitVec w := if b = 0 then BitVec.allOnes w else BitVec.ofInt w (a.toInt.tdiv b.toInt)

/-- Unsigned division; a zero divisor gives all ones (R84). -/
def divU (w : Nat) (a b : BitVec w) : BitVec w := if b = 0 then BitVec.allOnes w else BitVec.ofNat w (a.toNat / b.toNat)

/-- Signed remainder with the sign of a; a zero divisor returns a (R83, R84). -/
def remS (w : Nat) (a b : BitVec w) : BitVec w := if b = 0 then a else BitVec.ofInt w (a.toInt.tmod b.toInt)

/-- Unsigned remainder; a zero divisor returns a (R84). -/
def remU (w : Nat) (a b : BitVec w) : BitVec w := if b = 0 then a else BitVec.ofNat w (a.toNat % b.toNat)

/-- Left shift; a count of the width or more gives 0 (R85). -/
def shlOp (w : Nat) (a : BitVec w) (c : Nat) : BitVec w := if w ≤ c then 0 else a <<< c

/-- Right shift with zero fill (R85). -/
def shrOp (w : Nat) (a : BitVec w) (c : Nat) : BitVec w := if w ≤ c then 0 else a >>> c

/-- Right shift with sign fill; a count of the width or more gives copies of the sign (R85). -/
def sarOp (w : Nat) (a : BitVec w) (c : Nat) : BitVec w := if w ≤ c then (if a.msb then BitVec.allOnes w else 0) else a.sshiftRight c

/-- Left rotation by the count modulo the width (R85). -/
def rotlOp (w : Nat) (a : BitVec w) (c : Nat) : BitVec w := a.rotateLeft (c % w)

/-- The number of one bits (R85). -/
def popcOp (w : Nat) (a : BitVec w) : BitVec w := BitVec.ofNat w (popcount w a.toNat)

/-- The number of leading zero bits; the width for 0 (R85). -/
def clzOp (w : Nat) (a : BitVec w) : BitVec w := BitVec.ofNat w (if a = 0 then w else w - 1 - Nat.log2 a.toNat)

/-- The bits in reverse order (R85). -/
def brevOp (w : Nat) (a : BitVec w) : BitVec w := a.reverse

/-- |a|; the most negative value returns itself (R85). -/
def absOp (w : Nat) (a : BitVec w) : BitVec w := if a.msb then -a else a

/-- Position and length of a bit field (R86). -/
def fieldPos (b : Nat) : Nat := b % 256

/-- Length of a bit field at a width (R86). -/
def fieldLen (w b : Nat) : Nat := min (b / 256 % 256) (w - fieldPos b)

/-- BFX: extract a field, with or without sign extension (R86). -/
def bfxOp (sign : Bool) (w : Nat) (a b : BitVec w) : BitVec w :=
  let pos := fieldPos b.toNat
  let len := fieldLen w b.toNat
  if len = 0 ∨ w ≤ pos then 0
  else if sign then BitVec.ofInt w (toSigned len (bits a.toNat (pos + len - 1) pos))
  else BitVec.ofNat w (bits a.toNat (pos + len - 1) pos)

/-- BFI: insert the low bits of a into a field of d (R86). -/
def bfiOp (w : Nat) (a b d : BitVec w) : BitVec w :=
  let pos := fieldPos b.toNat
  let len := fieldLen w b.toNat
  if len = 0 ∨ w ≤ pos then d
  else BitVec.ofNat w (d.toNat - bits d.toNat (pos + len - 1) pos * 2 ^ pos + a.toNat % 2 ^ len * 2 ^ pos)

/-- One byte of PRMT: `src` holds the source bytes, `sel` is the selector byte, `idx` its source number (R87). -/
def prmtByte (src idx sel : Nat) : Nat :=
  let b := src / 2 ^ (8 * idx) % 256
  if sel.testBit 4 then 0 else if sel.testBit 5 then (if b.testBit 7 then 255 else 0) else b

/-- PRMT: the bytes of a and b, steered by the selector in the old d (R87). -/
def prmtOp (w : Nat) (a b d : BitVec w) : BitVec w :=
  let src := a.toNat + b.toNat * 2 ^ w
  BitVec.ofNat w (ofBytes ((List.range (w / 8)).map (fun i =>
    let sel := d.toNat / 2 ^ (8 * i) % 256
    BitVec.ofNat 8 (prmtByte src (sel % (w / 4)) sel))))

/-- LEA on a 64-bit base: a + b × k (R86). -/
def leaOp (k : Nat) (a b : Word64) : Word64 := a + b * BitVec.ofNat 64 k

/-- LEA in vector form on pairs with a 32-bit index, or in uniform form on 64 bits (R86). -/
def State.lea (k : Nat) (v : Bool) (d a b : BitVec 7) (u : Bool) (s : State) : State :=
  if !v then
    s.plain (((Uses.rdV a.toNat 2).and (Uses.rdB b u 1)).and (Uses.wrV d.toNat 2))
      (fun t => t.wv2 d.toNat t.cur.active (fun l => leaOp k (t.rv2 a.toNat l) ((t.opb b u l).setWidth 64)))
  else
    s.plain (((Uses.rdU a.toNat).and (Uses.rdU b.toNat)).and (Uses.wrU d.toNat))
      (fun t => t.wu d.toNat (leaOp k (t.usrc a.toNat) (t.usrc b.toNat)))

/-- The width of an ICVT type code (R58). -/
def icvtWidth (c : Nat) : Nat := 8 * 2 ^ (c % 4)

/-- An ICVT type code is signed (R58). -/
def icvtSigned (c : Nat) : Bool := c < 4

/-- The value of the low bits of a source under a type (R89 step 1). -/
def icvtRead (c x : Nat) : Int := if icvtSigned c then toSigned (icvtWidth c) x else (x % 2 ^ icvtWidth c : Nat)

/-- ICVT on the source bits, to 64 bits (R89). -/
def icvtOp (sat : Bool) (src dst x : Nat) : Word64 :=
  let v := icvtRead src x
  let w := icvtWidth dst
  let lo : Int := if icvtSigned dst then -((2 ^ (w - 1) : Nat) : Int) else 0
  let hi : Int := if icvtSigned dst then ((2 ^ (w - 1) : Nat) : Int) - 1 else ((2 ^ w : Nat) : Int) - 1
  let y : Int := if sat then (if v < lo then lo else if hi < v then hi else v) else v
  BitVec.ofInt 64 (icvtRead dst (wrap w y))

/-- ICVT in vector form, where 64-bit types use pairs, or in uniform form (R58, R89). -/
def State.icvt (v : Bool) (d a : BitVec 7) (sat : Bool) (src dst : BitVec 4) (s : State) : State :=
  let f := icvtOp sat src.toNat dst.toNat
  if v then
    s.plain ((Uses.rdU a.toNat).and (Uses.wrU d.toNat)) (fun t => t.wu d.toNat (f (t.usrc a.toNat).toNat))
  else
    let wide := fun (c : BitVec 4) => icvtWidth c.toNat = 64
    let rd := fun (t : State) (l : Nat) => if wide src then (t.rv2 a.toNat l).toNat else (t.rv a.toNat l).toNat
    let ru := Uses.rdV a.toNat (if wide src then 2 else 1)
    if wide dst then s.plain (ru.and (Uses.wrV d.toNat 2)) (fun t => t.wv2 d.toNat t.cur.active (fun l => f (rd t l)))
    else s.plain (ru.and (Uses.wrV d.toNat 1))
      (fun t => t.wv d.toNat t.cur.active (fun l => (f (rd t l)).extractLsb' 0 32))

/-- An immediate shift in either form (R88). -/
def State.shiftImm (f : (w : Nat) → BitVec w → Nat → BitVec w) (v : Bool) (d a : BitVec 7) (c : BitVec 6) (s : State) : State :=
  s.unary (fun w x => f w x c.toNat) v d a

/-- A predicate operation on two predicates (R92). -/
def State.pred2 (f : Bool → Bool → Bool) (d a b : BitVec 4) (s : State) : State :=
  s.setPred ((Uses.rdP a.toNat).and (Uses.rdP b.toNat)) d.toNat (fun t l => f (t.rp a.toNat l) (t.rp b.toNat l))

/-! ### Majors 0x00 and 0x01 -/

abbrev Out' := Host.Outcome State Fault Refusal

/-- ADD (R83). -/
def execAdd (v : Bool) (d a b : BitVec 7) (u : Bool) (s : State) : Out' := .next (s.binary (fun _ x y => x + y) v d a b u)

/-- ADDC (R82). -/
def execAddc (v : Bool) (d a b : BitVec 7) (u : Bool) (s : State) : Out' :=
  .next (s.carryOp (fun w x y c => x + y + BitVec.ofNat w c.toNat) (fun w => carryOut w) v d a b u)

/-- SUB (R83). -/
def execSub (v : Bool) (d a b : BitVec 7) (u : Bool) (s : State) : Out' := .next (s.binary (fun _ x y => x - y) v d a b u)

/-- SUBB (R82). -/
def execSubb (v : Bool) (d a b : BitVec 7) (u : Bool) (s : State) : Out' :=
  .next (s.carryOp (fun w x y c => x - y - BitVec.ofNat w c.toNat) (fun w => borrowOut w) v d a b u)

/-- MUL (R83). -/
def execMul (v : Bool) (d a b : BitVec 7) (u : Bool) (s : State) : Out' := .next (s.binary (fun _ x y => x * y) v d a b u)

/-- MULHI.i (R83). -/
def execMulhiI (v : Bool) (d a b : BitVec 7) (u : Bool) (s : State) : Out' := .next (s.binary mulhS v d a b u)

/-- MULHI.n (R83). -/
def execMulhiN (v : Bool) (d a b : BitVec 7) (u : Bool) (s : State) : Out' := .next (s.binary mulhU v d a b u)

/-- MAD (R83). -/
def execMad (v : Bool) (d a b : BitVec 7) (u : Bool) (s : State) : Out' := .next (s.ternary (fun _ x y z => x * y + z) v d a b u)

/-- MAD.W.i (R83). -/
def execMadWI (d a b : BitVec 7) (u : Bool) (s : State) : Out' :=
  .next (s.pairMad (fun x y z => x.signExtend 64 * y.signExtend 64 + z) d a b u)

/-- MAD.W.n (R83). -/
def execMadWN (d a b : BitVec 7) (u : Bool) (s : State) : Out' :=
  .next (s.pairMad (fun x y z => x.setWidth 64 * y.setWidth 64 + z) d a b u)

/-- DIV.i (R84). -/
def execDivI (v : Bool) (d a b : BitVec 7) (u : Bool) (s : State) : Out' := .next (s.binary divS v d a b u)

/-- DIV.n (R84). -/
def execDivN (v : Bool) (d a b : BitVec 7) (u : Bool) (s : State) : Out' := .next (s.binary divU v d a b u)

/-- REM.i (R84). -/
def execRemI (v : Bool) (d a b : BitVec 7) (u : Bool) (s : State) : Out' := .next (s.binary remS v d a b u)

/-- REM.n (R84). -/
def execRemN (v : Bool) (d a b : BitVec 7) (u : Bool) (s : State) : Out' := .next (s.binary remU v d a b u)

/-- ADD64 (R83). -/
def execAdd64 (d a b : BitVec 7) (u : Bool) (s : State) : Out' := .next (s.pairBinary (fun x y => x + y) d a b u)

/-- SUB64 (R83). -/
def execSub64 (d a b : BitVec 7) (u : Bool) (s : State) : Out' := .next (s.pairBinary (fun x y => x - y) d a b u)

/-! ### Majors 0x02 and 0x03 -/

/-- AND (R85). -/
def execAnd (v : Bool) (d a b : BitVec 7) (u : Bool) (s : State) : Out' := .next (s.binary (fun _ x y => x &&& y) v d a b u)

/-- OR (R85). -/
def execOr (v : Bool) (d a b : BitVec 7) (u : Bool) (s : State) : Out' := .next (s.binary (fun _ x y => x ||| y) v d a b u)

/-- XOR (R85). -/
def execXor (v : Bool) (d a b : BitVec 7) (u : Bool) (s : State) : Out' := .next (s.binary (fun _ x y => x ^^^ y) v d a b u)

/-- ANDN (R85). -/
def execAndn (v : Bool) (d a b : BitVec 7) (u : Bool) (s : State) : Out' := .next (s.binary (fun _ x y => x &&& ~~~y) v d a b u)

/-- SHL (R85). -/
def execShl (v : Bool) (d a b : BitVec 7) (u : Bool) (s : State) : Out' := .next (s.binary (fun w x y => shlOp w x y.toNat) v d a b u)

/-- SHR (R85). -/
def execShr (v : Bool) (d a b : BitVec 7) (u : Bool) (s : State) : Out' := .next (s.binary (fun w x y => shrOp w x y.toNat) v d a b u)

/-- SAR (R85). -/
def execSar (v : Bool) (d a b : BitVec 7) (u : Bool) (s : State) : Out' := .next (s.binary (fun w x y => sarOp w x y.toNat) v d a b u)

/-- ROTL (R85). -/
def execRotl (v : Bool) (d a b : BitVec 7) (u : Bool) (s : State) : Out' := .next (s.binary (fun w x y => rotlOp w x y.toNat) v d a b u)

/-- POPC (R85). -/
def execPopc (v : Bool) (d a : BitVec 7) (_u : Bool) (s : State) : Out' := .next (s.unary popcOp v d a)

/-- CLZ (R85). -/
def execClz (v : Bool) (d a : BitVec 7) (_u : Bool) (s : State) : Out' := .next (s.unary clzOp v d a)

/-- BREV (R85). -/
def execBrev (v : Bool) (d a : BitVec 7) (_u : Bool) (s : State) : Out' := .next (s.unary brevOp v d a)

/-- MIN.i (R85). -/
def execMinI (v : Bool) (d a b : BitVec 7) (u : Bool) (s : State) : Out' := .next (s.binary (fun _ x y => if y.slt x then y else x) v d a b u)

/-- MIN.n (R85). -/
def execMinN (v : Bool) (d a b : BitVec 7) (u : Bool) (s : State) : Out' := .next (s.binary (fun _ x y => if y.ult x then y else x) v d a b u)

/-- MAX.i (R85). -/
def execMaxI (v : Bool) (d a b : BitVec 7) (u : Bool) (s : State) : Out' := .next (s.binary (fun _ x y => if x.slt y then y else x) v d a b u)

/-- MAX.n (R85). -/
def execMaxN (v : Bool) (d a b : BitVec 7) (u : Bool) (s : State) : Out' := .next (s.binary (fun _ x y => if x.ult y then y else x) v d a b u)

/-- ABS (R85). -/
def execAbs (v : Bool) (d a : BitVec 7) (_u : Bool) (s : State) : Out' := .next (s.unary absOp v d a)

/-! ### Majors 0x04 and 0x05 -/

/-- BFX.i (R86). -/
def execBfxI (v : Bool) (d a b : BitVec 7) (u : Bool) (s : State) : Out' := .next (s.binary (bfxOp true) v d a b u)

/-- BFX.n (R86). -/
def execBfxN (v : Bool) (d a b : BitVec 7) (u : Bool) (s : State) : Out' := .next (s.binary (bfxOp false) v d a b u)

/-- BFI (R86). -/
def execBfi (v : Bool) (d a b : BitVec 7) (u : Bool) (s : State) : Out' := .next (s.ternary bfiOp v d a b u)

/-- PRMT (R87). -/
def execPrmt (v : Bool) (d a b : BitVec 7) (u : Bool) (s : State) : Out' := .next (s.ternary prmtOp v d a b u)

/-- MOV (R86). -/
def execMov (v : Bool) (d b : BitVec 7) (u : Bool) (s : State) : Out' :=
  .next (if !v then s.plain ((Uses.rdB b u 1).and (Uses.wrV d.toNat 1)) (fun t => t.wv d.toNat t.cur.active (fun l => t.opb b u l))
    else s.unary (fun _ x => x) v d b)

/-- LEA.1 (R86). -/
def execLea1 (v : Bool) (d a b : BitVec 7) (u : Bool) (s : State) : Out' := .next (s.lea 1 v d a b u)

/-- LEA.2 (R86). -/
def execLea2 (v : Bool) (d a b : BitVec 7) (u : Bool) (s : State) : Out' := .next (s.lea 2 v d a b u)

/-- LEA.4 (R86). -/
def execLea4 (v : Bool) (d a b : BitVec 7) (u : Bool) (s : State) : Out' := .next (s.lea 4 v d a b u)

/-- LEA.8 (R86). -/
def execLea8 (v : Bool) (d a b : BitVec 7) (u : Bool) (s : State) : Out' := .next (s.lea 8 v d a b u)

/-! ### Immediates, conversion, selection, predicates -/

/-- ADD with an immediate (R88): truncated to 32 bits or sign-extended to 64. -/
def execAddImm (v : Bool) (d a : BitVec 7) (i : BitVec 38) (s : State) : Out' := .next (s.unary (fun w x => x + i.signExtend w) v d a)

/-- MOVI (R88). -/
def execMovi (v : Bool) (d : BitVec 7) (i : BitVec 38) (s : State) : Out' := .next (s.load0 (i.signExtend 64) v d)

/-- SHL by an immediate (R88). -/
def execShlImm (v : Bool) (d a : BitVec 7) (c : BitVec 6) (s : State) : Out' := .next (s.shiftImm shlOp v d a c)

/-- SHR by an immediate (R88). -/
def execShrImm (v : Bool) (d a : BitVec 7) (c : BitVec 6) (s : State) : Out' := .next (s.shiftImm shrOp v d a c)

/-- SAR by an immediate (R88). -/
def execSarImm (v : Bool) (d a : BitVec 7) (c : BitVec 6) (s : State) : Out' := .next (s.shiftImm sarOp v d a c)

/-- ROTL by an immediate (R88). -/
def execRotlImm (v : Bool) (d a : BitVec 7) (c : BitVec 6) (s : State) : Out' := .next (s.shiftImm rotlOp v d a c)

/-- ICVT (R89). -/
def execIcvt (v : Bool) (d a : BitVec 7) (sat : Bool) (x y : BitVec 4) (s : State) : Out' := .next (s.icvt v d a sat x y)

/-- SEL (R90). -/
def execSel (d a b : BitVec 7) (u : Bool) (p : BitVec 4) (s : State) : Out' :=
  .next (s.plain ((((Uses.rdV a.toNat 1).and (Uses.rdB b u 1)).and (Uses.rdP p.toNat)).and (Uses.wrV d.toNat 1))
    (fun t => t.wv d.toNat t.cur.active (fun l => if t.rp p.toNat l then t.rv a.toNat l else t.opb b u l)))

/-- SETP (R91): w is 0 for 32 bits, 1 for 64. -/
def execSetp (w : BitVec 3) (p : BitVec 4) (a b : BitVec 7) (u : Bool) (c : BitVec 4) (s : State) : Out' :=
  .next (if w = 0 then s.setPred ((Uses.rdV a.toNat 1).and (Uses.rdB b u 1)) p.toNat
      (fun t l => cmpCond c.toNat (t.rv a.toNat l) (t.opb b u l))
    else s.setPred ((Uses.rdV a.toNat 2).and (Uses.rdB b u 2)) p.toNat
      (fun t l => cmpCond c.toNat (t.rv2 a.toNat l) (t.opb2 b u l)))

/-- PAND (R92). -/
def execPand (d a b : BitVec 4) (s : State) : Out' := .next (s.pred2 (fun x y => x && y) d a b)

/-- POR (R92). -/
def execPor (d a b : BitVec 4) (s : State) : Out' := .next (s.pred2 (fun x y => x || y) d a b)

/-- PXOR (R92). -/
def execPxor (d a b : BitVec 4) (s : State) : Out' := .next (s.pred2 (fun x y => x != y) d a b)

/-- PNOT (R92). -/
def execPnot (d a : BitVec 4) (s : State) : Out' := .next (s.setPred (Uses.rdP a.toNat) d.toNat (fun t l => !t.rp a.toNat l))

/-- PMOV (R92). -/
def execPmov (d a : BitVec 4) (s : State) : Out' := .next (s.setPred (Uses.rdP a.toNat) d.toNat (fun t l => t.rp a.toNat l))

end Machine

end Sys2Proof
end

