-- ==== Sys2Proof/Machine/Lane.lean ====
section
/-! DEFINITION. Lane exchange, votes and reductions (R93 to R97). -/

namespace Sys2Proof

namespace Machine

/-- Lane(n, j): V[n][j] of a present lane, 0 of an absent one (R93). -/
def State.laneVal (s : State) (n j : Nat) : Word := if s.me.present.getLsbD j then s.rv n j else 0

/-- The source lane of SHFL, none when a slide leaves the fibre (R94). -/
def shflLane (m : Nat) (lane : Nat) (k : Word) : Option Nat :=
  match m with
  | 0 => some (k.toNat % 32)
  | 1 => some ((lane + k.toNat % 32) % 32)
  | 2 => if 0 ≤ (lane : Int) + k.toInt ∧ (lane : Int) + k.toInt ≤ 31 then some ((lane : Int) + k.toInt).toNat else none
  | _ => some (Nat.xor lane (k.toNat % 32))

/-- SHFL (R94): mode at, rot, slide or mirror; slide also reads d. A lane of a slide that is out of range counts as one that the instruction
writes, with its old value, so that a write pending there inside a shadow is cancelled (DESIGN CHOICE, log 49: R94 and R53 leave it open). -/
def execShfl (d a b : BitVec 7) (u : Bool) (m : BitVec 2) (s : State) : Out' :=
  .next (s.plain
    ((((Uses.fromV a.toNat (fun l => shflLane m.toNat l (s.opb b u l))).and (Uses.rdB b u 1)).and (if m = 2 then Uses.rdV d.toNat 1 else Uses.none)).and (Uses.wrV d.toNat 1))
    (fun t => t.wv d.toNat t.cur.active (fun l => match shflLane m.toNat l (t.opb b u l) with
      | some j => t.laneVal a.toNat j
      | none => t.rv d.toNat l)))

/-- QSWAP (R95): h, v or d. -/
def execQswap (d a : BitVec 7) (m : BitVec 2) (s : State) : Out' :=
  .next (s.plain ((Uses.fromV a.toNat (fun l => some (Nat.xor l (m.toNat + 1)))).and (Uses.wrV d.toNat 1))
    (fun t => t.wv d.toNat t.cur.active (fun l => t.laneVal a.toNat (Nat.xor l (m.toNat + 1)))))

/-- The active lanes in which a predicate holds. -/
def State.votes (s : State) (a : Nat) : Mask := s.cur.active &&& State.predMask s.me a

/-- VOTE.all (R96). -/
def execVoteAll (d a : BitVec 4) (s : State) : Out' :=
  .next (s.setPred (Uses.rdP a.toNat) d.toNat (fun t _ => t.votes a.toNat == t.cur.active))

/-- VOTE.any (R96). -/
def execVoteAny (d a : BitVec 4) (s : State) : Out' :=
  .next (s.setPred (Uses.rdP a.toNat) d.toNat (fun t _ => t.votes a.toNat != 0))

/-- VOTE.ballot (R96). -/
def execVoteBallot (d : BitVec 7) (a : BitVec 4) (s : State) : Out' :=
  .next (s.plain ((Uses.rdP a.toNat).and (Uses.wrU d.toNat)) (fun t => t.wu d.toNat ((t.votes a.toNat).setWidth 64)))

/-- The operation of REDUX (R59, R97). -/
def reduxOp (o : Nat) (x y : Word) : Word :=
  match o with
  | 0 => x + y
  | 1 => if y.slt x then y else x
  | 2 => if x.slt y then y else x
  | 3 => if y.ult x then y else x
  | 4 => if x.ult y then y else x
  | 5 => x &&& y
  | 6 => x ||| y
  | _ => x ^^^ y

/-- A reduction of a list of lane values. -/
def reduxFold (o : Nat) : List Word → Word
  | [] => 0
  | x :: l => l.foldl (reduxOp o) x

/-- REDUX (R97): ADD and the signed minimum and maximum are sign-extended. -/
def execRedux (d a : BitVec 7) (o : BitVec 3) (s : State) : Out' :=
  .next (s.plain ((Uses.rdV a.toNat 1).and (Uses.wrU d.toNat))
    (fun t =>
      let r := reduxFold o.toNat ((lanesOf t.cur.active).map (fun l => t.rv a.toNat l))
      t.wu d.toNat (if o.toNat ≤ 2 then r.signExtend 64 else r.setWidth 64)))

/-- RDLANE (R97). -/
def execRdlane (d a b : BitVec 7) (s : State) : Out' :=
  .next (s.plain (((Uses.lanesV a.toNat [((s.usrc b.toNat).toNat % 32, allLanes)]).and (Uses.rdU b.toNat)).and (Uses.wrU d.toNat))
    (fun t => t.wu d.toNat ((t.laneVal a.toNat ((t.usrc b.toNat).toNat % 32)).setWidth 64)))

/-- WRLANE (R97): writes lane S[b][4:0] even when it is inactive; nothing when it is absent. -/
def execWrlane (d a b : BitVec 7) (s : State) : Out' :=
  .next (s.plain (((Uses.rdU a.toNat).and (Uses.rdU b.toNat)).and (Uses.wrLane d.toNat ((s.usrc b.toNat).toNat % 32)))
    (fun t =>
      let j := (t.usrc b.toNat).toNat % 32
      if t.me.present.getLsbD j then t.wv d.toNat (maskOf [j]) (fun _ => (t.usrc a.toNat).extractLsb' 0 32) else t))

end Machine

end Sys2Proof
end

