-- ==== Sys2Proof/Machine/Numeric.lean ====
section
/-! DEFINITION. Number formats and rounding (R111 to R122), exact arithmetic on them, the elementary functions, Wring. -/

namespace Sys2Proof

namespace Machine

/-! ### Formats (R111, R112) -/

/-- What the all-ones exponent means: infinity and NaN; one NaN code (e4m3); a normal value. -/
inductive Spec where
  | ieee | e4m3 | finite
deriving DecidableEq, Repr

/-- A floating format: width, mantissa bits, bias, specials, whether a NaN can be signalling (R113), maximum and canonical NaN. -/
structure Fmt where
  w : Nat
  m : Nat
  bias : Nat
  spec : Spec
  sig : Bool
  maxBits : Nat
  nan : Nat
deriving DecidableEq, Repr

namespace Fmt

def f64 : Fmt := ⟨64, 52, 1023, .ieee, true, 0x7FEFFFFFFFFFFFFF, 0x7FF8000000000000⟩
def f32 : Fmt := ⟨32, 23, 127, .ieee, true, 0x7F7FFFFF, 0x7FC00000⟩
def f16 : Fmt := ⟨16, 10, 15, .ieee, true, 0x7BFF, 0x7E00⟩
def bf16 : Fmt := ⟨16, 7, 127, .ieee, true, 0x7F7F, 0x7FC0⟩
def e4m3 : Fmt := ⟨8, 3, 7, .e4m3, false, 0x7E, 0x7F⟩
def e5m2 : Fmt := ⟨8, 2, 15, .ieee, false, 0x7B, 0x7E⟩
def e3m2 : Fmt := ⟨6, 2, 3, .finite, false, 0x1F, 0⟩
def e2m3 : Fmt := ⟨6, 3, 1, .finite, false, 0x1F, 0⟩
def e2m1 : Fmt := ⟨4, 1, 1, .finite, false, 0x7, 0⟩

/-- Bits of the exponent field. -/
def ebits (f : Fmt) : Nat := f.w - 1 - f.m

/-- The sign bit of the format. -/
def signBit (f : Fmt) : Nat := 2 ^ (f.w - 1)

/-- The exponent of the minimum normal. -/
def emin (f : Fmt) : Int := 1 - (f.bias : Int)

/-- The infinity's bits, sign clear. -/
def infBits (f : Fmt) : Nat := (2 ^ f.ebits - 1) * 2 ^ f.m

end Fmt

/-- A value: a NaN (signalling or not), an infinity, or the exact ±m × 2^e, zero with its sign. -/
inductive FVal where
  | nan (sig : Bool)
  | inf (neg : Bool)
  | fin (neg : Bool) (m : Nat) (e : Int)
deriving DecidableEq, Repr

namespace FVal

def isNan : FVal → Bool | .nan _ => true | _ => false
def isSig : FVal → Bool | .nan b => b | _ => false
def isZero : FVal → Bool | .fin _ m _ => m == 0 | _ => false
def neg : FVal → Bool | .nan _ => false | .inf n => n | .fin n _ _ => n
/-- The value with its sign changed. -/
def flip : FVal → FVal | .nan b => .nan b | .inf n => .inf (!n) | .fin n m e => .fin (!n) m e

end FVal

/-- The value of an encoding (R112). -/
def Fmt.decode (f : Fmt) (x : Nat) : FVal :=
  let neg := x.testBit (f.w - 1)
  let e := x / 2 ^ f.m % 2 ^ f.ebits
  let m := x % 2 ^ f.m
  let top := 2 ^ f.ebits - 1
  if f.spec = .ieee ∧ e = top then (if m = 0 then .inf neg else .nan (f.sig && !m.testBit (f.m - 1)))
  else if f.spec = .e4m3 ∧ e = top ∧ m = 2 ^ f.m - 1 then .nan false
  else if e = 0 then .fin neg m (f.emin - f.m)
  else .fin neg (m + 2 ^ f.m) (f.emin - f.m + (e : Int) - 1)

/-! ### Rounding (R119 to R122) -/

/-- The modes of R119. -/
inductive RMode where
  | rne | rz | ru | rd | sr
deriving DecidableEq, Repr

/-- A mode by its code (R41, R62). -/
def RMode.ofCode : Nat → RMode | 1 => .rz | 2 => .ru | 3 => .rd | 4 => .sr | _ => .rne

/-- m × 2^e, with more below it when `sticky`, rounded to a multiple k of 2^g: k and whether the result is inexact. `rb` are the 16 random
bits of R121. -/
def roundAt (mode : RMode) (rb : Nat) (neg : Bool) (m : Nat) (e : Int) (sticky : Bool) (g : Int) : Nat × Bool :=
  if g ≤ e then (m * 2 ^ (e - g).toNat, sticky)
  else
    let sh := (g - e).toNat
    let k := m / 2 ^ sh
    let r := m % 2 ^ sh
    let inexact := r != 0 || sticky
    let up := match mode with
      | .rne => 2 ^ sh < 2 * r || (2 * r == 2 ^ sh && (sticky || k % 2 == 1))
      | .rz => false
      | .ru => inexact && !neg
      | .rd => inexact && neg
      | .sr => 2 ^ 16 ≤ r * 2 ^ 16 / 2 ^ sh + rb
    (if up then k + 1 else k, inexact)

/-- The grid exponent of a format for a magnitude m × 2^e, its exponent without an upper bound (R119). -/
def Fmt.grid (f : Fmt) (m : Nat) (e : Int) : Int := max (e + (Nat.log2 m : Nat) - f.m) (f.emin - f.m)

/-- The encoding of k × 2^g, a value of the format's grid not above its maximum. -/
def Fmt.enc (f : Fmt) (k : Nat) (g : Int) : Nat :=
  if k = 0 then 0
  else
    let c := if 2 ^ (f.m + 1) ≤ k then (k / 2, g + 1) else (k, g)
    if c.1 < 2 ^ f.m then c.1 else (c.2 - (f.emin - f.m) + 1).toNat * 2 ^ f.m + (c.1 - 2 ^ f.m)

/-- k × 2^g lies above the maximum of the format. -/
def Fmt.above (f : Fmt) (k : Nat) (g : Int) : Bool :=
  match f.decode f.maxBits with
  | .fin _ mm me => if g ≤ me then mm * 2 ^ (me - g).toNat < k else mm < k * 2 ^ (g - me).toNat
  | _ => false

/-- Set the sign bit. -/
def Fmt.signed (f : Fmt) (neg : Bool) (x : Nat) : Nat := if neg then x + f.signBit else x

/-- The result of an overflow (R120, R122). -/
def Fmt.overflow (f : Fmt) (mode : RMode) (sat neg : Bool) : Nat :=
  let toInf := match mode with | .rne => true | .sr => true | .rz => false | .ru => !neg | .rd => neg
  if sat || !toInf || f.spec == .finite then f.signed neg f.maxBits
  else if f.spec = .e4m3 then 0x7F
  else f.signed neg f.infBits

/-- Round a finite exact magnitude into a format, with flags (R119, R120). -/
def Fmt.roundMag (f : Fmt) (mode : RMode) (rb : Nat) (sat neg : Bool) (m : Nat) (e : Int) (sticky : Bool) : Nat × FpFlags :=
  if m = 0 then (f.signed neg 0, 0)
  else
    let g := f.grid m e
    let r := roundAt mode rb neg m e sticky g
    if f.above r.1 g then (f.overflow mode sat neg, FpFlags.ovf ||| FpFlags.inx)
    else
      (f.signed neg (f.enc r.1 g),
        FpFlags.when r.2 FpFlags.inx ||| FpFlags.when (r.2 && r.1 < 2 ^ f.m && g == f.emin - f.m) FpFlags.unf)

/-- Place a value in a format (R120, R122): the flags for a NaN into a format without one included. -/
def Fmt.place (f : Fmt) (mode : RMode) (rb : Nat) (sat : Bool) (x : FVal) : Nat × FpFlags :=
  match x with
  | .nan _ => (f.nan, FpFlags.when (f.spec == .finite) FpFlags.inv)
  | .inf neg =>
    if sat || f.spec == .finite then (f.signed neg f.maxBits, 0)
    else if f.spec = .e4m3 then (0x7F, 0)
    else (f.signed neg f.infBits, 0)
  | .fin neg m e => f.roundMag mode rb sat neg m e false

/-! ### Exact operations (R129, R130) -/

/-- The flag of a signalling operand (R113). -/
def sigFlag (l : List FVal) : FpFlags := FpFlags.when (l.any FVal.isSig) FpFlags.inv

/-- ±m × 2^e as an integer multiple of 2^g, g ≤ e. -/
def scaledInt (neg : Bool) (m : Nat) (e g : Int) : Int :=
  let v : Int := ((m * 2 ^ (e - g).toNat : Nat) : Int)
  if neg then -v else v

/-- An exact sum; a zero sum from terms that are not zeros of one sign takes the sign of the mode (R130). -/
def FVal.add (mode : RMode) (x y : FVal) : FVal × FpFlags :=
  match x, y with
  | .nan a, .nan b => (.nan (a || b), 0)
  | .nan a, _ => (.nan a, 0)
  | _, .nan b => (.nan b, 0)
  | .inf a, .inf b => if a = b then (.inf a, 0) else (.nan false, FpFlags.inv)
  | .inf a, _ => (.inf a, 0)
  | _, .inf b => (.inf b, 0)
  | .fin na ma ea, .fin nb mb eb =>
    if ma = 0 ∧ mb = 0 then (.fin (if na = nb then na else mode == .rd) 0 0, 0)
    else
      let g := min ea eb
      let t := scaledInt na ma ea g + scaledInt nb mb eb g
      if t = 0 then (.fin (mode == .rd) 0 0, 0) else (.fin (t < 0) t.natAbs g, 0)

/-- An exact product. -/
def FVal.mul (x y : FVal) : FVal × FpFlags :=
  let s := x.neg != y.neg
  match x, y with
  | .nan a, .nan b => (.nan (a || b), 0)
  | .nan a, _ => (.nan a, 0)
  | _, .nan b => (.nan b, 0)
  | .inf _, .inf _ => (.inf s, 0)
  | .inf _, .fin _ m _ => if m = 0 then (.nan false, FpFlags.inv) else (.inf s, 0)
  | .fin _ m _, .inf _ => if m = 0 then (.nan false, FpFlags.inv) else (.inf s, 0)
  | .fin _ ma ea, .fin _ mb eb => (.fin s (ma * mb) (ea + eb), 0)

/-- An operation on encodings: mode, random bits, a, b, d. -/
abbrev FpOp := Fmt → RMode → Nat → Nat → Nat → Nat → Nat × FpFlags

/-- Round an exact result into the format of its operands and join the flags. -/
def finishFp (f : Fmt) (mode : RMode) (rb : Nat) (ops : List FVal) (r : FVal × FpFlags) : Nat × FpFlags :=
  let p := f.place mode rb false r.1
  (p.1, p.2 ||| r.2 ||| sigFlag ops)

/-- a + b (R129). -/
def fpAdd : FpOp := fun f mode rb a b _ =>
  let x := f.decode a
  let y := f.decode b
  finishFp f mode rb [x, y] (x.add mode y)

/-- a − b: the addition of a and −b (R130). -/
def fpSub : FpOp := fun f mode rb a b _ =>
  let x := f.decode a
  let y := f.decode b
  finishFp f mode rb [x, y] (x.add mode y.flip)

/-- a × b (R129). -/
def fpMul : FpOp := fun f mode rb a b _ =>
  let x := f.decode a
  let y := f.decode b
  finishFp f mode rb [x, y] (x.mul y)

/-- a × b + d with one rounding; 0 × ∞ is invalid whatever d (R130). -/
def fpFma : FpOp := fun f mode rb a b d =>
  let x := f.decode a
  let y := f.decode b
  let z := f.decode d
  let p := x.mul y
  let r := p.1.add mode z
  finishFp f mode rb [x, y, z] (r.1, p.2 ||| r.2)

/-- The order of FMIN and FMAX on values that are not NaN: −0 below +0 (R131). -/
def FVal.lt (x y : FVal) : Bool :=
  match x, y with
  | .inf a, .inf b => a && !b
  | .inf a, _ => a
  | _, .inf b => !b
  | .fin na ma ea, .fin nb mb eb =>
    let g := min ea eb
    let s := scaledInt na ma ea g
    let t := scaledInt nb mb eb g
    s < t || (s == t && ma == 0 && na && !nb)
  | _, _ => false

/-- FMIN or FMAX (R131). -/
def fpMinMax (isMax : Bool) : FpOp := fun f _ _ a b _ =>
  let x := f.decode a
  let y := f.decode b
  let r := if x.isNan && y.isNan then f.nan else if x.isNan then b else if y.isNan then a
    else if isMax then (if x.lt y then b else a) else (if y.lt x then b else a)
  (r, sigFlag [x, y])

/-- The magnitude of a quotient: 192 bits below the point, and whether more lies below. -/
def quotient (ma mb : Nat) : Nat × Bool := (ma * 2 ^ 192 / mb, ma * 2 ^ 192 % mb != 0)

/-- a / b, exactly rounded (R132). An infinity by a finite value, zero included, gives the infinity with the sign of the quotient and no flag (DESIGN
CHOICE, log 49: no row of R132 speaks of it). -/
def fpDiv : FpOp := fun f mode rb a b _ =>
  let x := f.decode a
  let y := f.decode b
  let s := x.neg != y.neg
  match x, y with
  | .nan _, _ => (f.nan, sigFlag [x, y])
  | _, .nan _ => (f.nan, sigFlag [x, y])
  | .inf _, .inf _ => (f.nan, FpFlags.inv)
  | .inf _, _ => (f.signed s f.infBits, 0)
  | .fin _ _ _, .inf _ => (f.signed s 0, 0)
  | .fin _ ma ea, .fin _ mb eb =>
    if mb = 0 then (if ma = 0 then (f.nan, FpFlags.inv) else (f.signed s f.infBits, FpFlags.dz))
    else
      let q := quotient ma mb
      f.roundMag mode rb false s q.1 (ea - eb - 192) q.2

/-- 1 / a (R132). -/
def fpRcp : FpOp := fun f mode rb a _ _ => fpDiv f mode rb (f.bias * 2 ^ f.m) a 0

/-- The integer square root, bit by bit from bit `n` down. -/
def isqrt (x : Nat) : Nat → Nat → Nat
  | 0, r => r
  | n + 1, r => isqrt x n (if (r + 2 ^ n) * (r + 2 ^ n) ≤ x then r + 2 ^ n else r)

/-- √a (R132). -/
def fpSqrt : FpOp := fun f mode rb a _ _ =>
  match f.decode a with
  | .nan s => (f.nan, FpFlags.when s FpFlags.inv)
  | .inf neg => if neg then (f.nan, FpFlags.inv) else (f.infBits, 0)
  | .fin neg m e =>
    if m = 0 then (f.signed neg 0, 0)
    else if neg then (f.nan, FpFlags.inv)
    else
      let sh : Nat := if e % 2 = 0 then 256 else 257
      let x := m * 2 ^ sh
      let r := isqrt x 160 0
      f.roundMag mode rb false false r ((e - sh) / 2) (r * r != x)

/-- 1 / √a, correctly rounded (R132). -/
def fpRsq : FpOp := fun f mode rb a _ _ =>
  match f.decode a with
  | .nan s => (f.nan, FpFlags.when s FpFlags.inv)
  | .inf neg => if neg then (f.nan, FpFlags.inv) else (0, 0)
  | .fin neg m e =>
    if m = 0 then (f.signed neg f.infBits, FpFlags.dz)
    else if neg then (f.nan, FpFlags.inv)
    else
      let k : Nat := if e % 2 = 0 then 300 else 301
      let x := 2 ^ k / m
      let r := isqrt x 160 0
      f.roundMag mode rb false false r ((-e - k) / 2) (r * r * m != 2 ^ k)

/-! ### Elementary functions (R133): fixed point with 320 bits below the point (log 9) -/

/-- One, in fixed point. -/
def fixOne : Nat := 2 ^ 320

/-- Σ 1 / (k 2^k) for k from `i` up, `n` terms: ln 2. -/
def ln2Sum : Nat → Nat → Nat
  | 0, _ => 0
  | n + 1, i => fixOne / (i * 2 ^ i) + ln2Sum n (i + 1)

/-- ln 2. -/
def ln2 : Nat := ln2Sum 340 1

/-- Σ (−1)^k t / ((2k+1) q^(2k)) for arctan(1/q), `n` terms; `t` is 1 / q^(2k+1). -/
def atanSum (q : Nat) : Nat → Nat → Nat → Int
  | 0, _, _ => 0
  | n + 1, k, t => ((t / (2 * k + 1) : Nat) : Int) - atanSum q n (k + 1) (t / (q * q))

/-- π, by Machin's formula. -/
def piFix : Nat := (16 * atanSum 5 150 0 (fixOne / 5) - 4 * atanSum 239 150 0 (fixOne / 239)).toNat

/-- Σ t^k / k! from term `u` of number `k`, `n` terms. -/
def expSum (t : Nat) : Nat → Nat → Nat → Nat
  | 0, _, _ => 0
  | n + 1, k, u => u + expSum t n (k + 1) (u * t / fixOne / (k + 1))

/-- Σ (−1)^k t^(2k+1) / (2k+1)! from term `u` of number `k`, `n` terms. -/
def sinSum (t2 : Nat) : Nat → Nat → Nat → Int
  | 0, _, _ => 0
  | n + 1, k, u => (u : Int) - sinSum t2 n (k + 1) (u * t2 / fixOne / ((2 * k + 2) * (2 * k + 3)))

/-- Σ z^(2k+1) / (2k+1) from power `u`, `n` terms: half of ln((1+z)/(1−z)). -/
def atanhSum (z2 : Nat) : Nat → Nat → Nat → Nat
  | 0, _, _ => 0
  | n + 1, k, u => u / (2 * k + 1) + atanhSum z2 n (k + 1) (u * z2 / fixOne)

/-- 2^a rounded to f32. -/
def fpExp2 : FpOp := fun f mode rb a _ _ =>
  match f.decode a with
  | .nan s => (f.nan, FpFlags.when s FpFlags.inv)
  | .inf neg => (if neg then 0 else f.infBits, 0)
  | .fin neg m e =>
    if m = 0 then (f.bias * 2 ^ f.m, 0)
    else if 10 < e + (Nat.log2 m : Nat) then
      if neg then f.roundMag mode rb false false 1 (-400) true else f.roundMag mode rb false false 1 400 true
    else
      let x := scaledInt neg m e (min e (-320))
      let sc := (-(min e (-320))).toNat
      let n := x / ((2 ^ sc : Nat) : Int)
      let fr := (x % ((2 ^ sc : Nat) : Int)).toNat
      if fr = 0 then f.roundMag mode rb false false 1 n false
      else
        let t := fr * ln2 / 2 ^ sc
        f.roundMag mode rb false false (expSum t 80 0 fixOne) (n - 320) true

/-- log2 of a positive m × 2^e that is no power of two, in fixed point. -/
def log2Fix (m : Nat) (e : Int) : Int :=
  let l := Nat.log2 m
  let y := m * 2 ^ 320 / 2 ^ l
  let z := (y - fixOne) * fixOne / (y + fixOne)
  (e + (l : Nat)) * ((fixOne : Nat) : Int) + ((2 * atanhSum (z * z / fixOne) 110 0 z * fixOne / ln2 : Nat) : Int)

/-- log2(a) rounded to f32. -/
def fpLog2 : FpOp := fun f mode rb a _ _ =>
  match f.decode a with
  | .nan s => (f.nan, FpFlags.when s FpFlags.inv)
  | .inf neg => if neg then (f.nan, FpFlags.inv) else (f.infBits, 0)
  | .fin neg m e =>
    if m = 0 then (f.signed true f.infBits, FpFlags.dz)
    else if neg then (f.nan, FpFlags.inv)
    else
      let l := Nat.log2 m
      if m = 2 ^ l then
        let v := e + (l : Nat)
        f.roundMag mode rb false (v < 0) v.natAbs 0 false
      else
        let v := log2Fix m e
        f.roundMag mode rb false (v < 0) v.natAbs (-320) true

/-- sin(πr) in fixed point for r in fixed point from 0 to 1/2. -/
def sinPiFix (r : Nat) : Nat :=
  let t := r * piFix / fixOne
  (sinSum (t * t / fixOne) 60 0 t).toNat

/-- |a| mod 2 in fixed point; a is no integer, so its bits reach at most 2^−149. -/
def mod2Fix (m : Nat) (e : Int) : Nat := m * 2 ^ (e + 320).toNat % (2 * fixOne)

/-- A f32 value is an integer. -/
def isInt (m : Nat) (e : Int) : Bool := 0 ≤ e || m % 2 ^ (-e).toNat == 0

/-- sin(πa) rounded to f32. -/
def fpSinPi : FpOp := fun f mode rb a _ _ =>
  match f.decode a with
  | .nan s => (f.nan, FpFlags.when s FpFlags.inv)
  | .inf _ => (f.nan, FpFlags.inv)
  | .fin neg m e =>
    if isInt m e then (f.signed neg 0, 0)
    else
      let x := mod2Fix m e
      let half := fixOne / 2
      let s := fixOne ≤ x
      let r := x % fixOne
      let q := if half < r then fixOne - r else r
      if q = half then f.roundMag mode rb false (neg != s) 1 0 false
      else f.roundMag mode rb false (neg != s) (sinPiFix q) (-320) true

/-- cos(πa) rounded to f32. -/
def fpCosPi : FpOp := fun f mode rb a _ _ =>
  match f.decode a with
  | .nan s => (f.nan, FpFlags.when s FpFlags.inv)
  | .inf _ => (f.nan, FpFlags.inv)
  | .fin _ m e =>
    if isInt m e then
      let odd := e ≤ 0 && m / 2 ^ (-e).toNat % 2 == 1
      (f.signed odd (f.bias * 2 ^ f.m), 0)
    else
      let x := mod2Fix m e
      let half := fixOne / 2
      let y := if fixOne < x then 2 * fixOne - x else x
      if y = half then (0, 0)
      else f.roundMag mode rb false (half < y) (sinPiFix (if half < y then y - half else half - y)) (-320) true

/-! ### Classification, integral rounding, comparison, conversion -/

/-- FCLASS (R134). -/
def fclassBits (f : Fmt) (a : Nat) : Nat :=
  match f.decode a with
  | .nan s => if s then 2 ^ 8 else 2 ^ 9
  | .inf neg => if neg then 2 ^ 0 else 2 ^ 7
  | .fin neg m _ =>
    if m = 0 then (if neg then 2 ^ 3 else 2 ^ 4)
    else if m < 2 ^ f.m then (if neg then 2 ^ 2 else 2 ^ 5)
    else if neg then 2 ^ 1 else 2 ^ 6

/-- FRND: an integral value in the same format (R135). -/
def fpRnd : FpOp := fun f mode rb a _ _ =>
  match f.decode a with
  | .nan s => (f.nan, FpFlags.when s FpFlags.inv)
  | .inf neg => (f.signed neg f.infBits, 0)
  | .fin neg m e =>
    if m = 0 || 0 ≤ e then (a, 0)
    else
      let k := (roundAt mode rb neg m e false 0).1
      ((f.roundMag .rne 0 false neg k 0 false).1, 0)

/-- The conditions of FSETP (R136). -/
def fpCond (c : Nat) (x y : FVal) : Bool :=
  let un := x.isNan || y.isNan
  let eq := !un && !(x.lt y) && !(y.lt x) || (x.isZero && y.isZero)
  let lt := !un && x.lt y && !eq
  let gt := !un && y.lt x && !eq
  match c with
  | 0 => eq
  | 1 => !un && !eq
  | 2 => lt
  | 3 => lt || eq
  | 4 => gt
  | 5 => gt || eq
  | 6 => !un
  | 7 => un
  | 8 => un || eq
  | 9 => un || !eq
  | 10 => un || lt
  | 11 => un || lt || eq
  | 12 => un || gt
  | _ => un || gt || eq

/-- The types of FCVT (R62). -/
inductive CvtTy where
  | flt (f : Fmt)
  | e8m0
  | int (w : Nat) (signed : Bool)
deriving DecidableEq, Repr

/-- A type by its code. -/
def CvtTy.ofCode : Nat → CvtTy
  | 0 => .flt .f64 | 1 => .flt .f32 | 2 => .flt .f16 | 3 => .flt .bf16 | 4 => .flt .e4m3 | 5 => .flt .e5m2 | 6 => .flt .e3m2
  | 7 => .flt .e2m3 | 8 => .flt .e2m1 | 9 => .e8m0 | 10 => .int 32 true | 11 => .int 32 false | 12 => .int 64 true
  | _ => .int 64 false

/-- The value of an e8m0 scale (R114). -/
def e8m0Val (x : Nat) : FVal := if x % 256 = 255 then .nan false else .fin false 1 ((x % 256 : Nat) - 127)

/-- The exact source value of a conversion (R137, R139). -/
def CvtTy.read (t : CvtTy) (x : Nat) : FVal :=
  match t with
  | .flt f => f.decode (x % 2 ^ f.w)
  | .e8m0 => e8m0Val x
  | .int w s =>
    let v : Int := if s then toSigned w x else ((x % 2 ^ w : Nat) : Int)
    .fin (v < 0) v.natAbs 0

/-- A conversion to e8m0 (R139). -/
def toE8m0 (mode : RMode) (rb : Nat) (sat : Bool) (x : FVal) : Nat × FpFlags :=
  match x with
  | .nan _ => (0xFF, FpFlags.inv)
  | .inf neg => if neg then (0xFF, FpFlags.inv) else (if sat then 0xFE else 0xFF, 0)
  | .fin neg m e =>
    if m = 0 then (0, FpFlags.inv)
    else if neg then (0xFF, FpFlags.inv)
    else
      let l := Nat.log2 m
      let top := e + (l : Nat)
      if top < -127 then (0, FpFlags.unf ||| FpFlags.inx)
      else
        let exact := m == 2 ^ l
        let r := m - 2 ^ l
        let up := !exact && (match mode with
          | .rz => false
          | .rd => false
          | .ru => true
          | .rne => 2 ^ l ≤ 2 * r
          | .sr => 2 ^ 16 ≤ r * 2 ^ 16 / 2 ^ l + rb)
        let p := if up then top + 1 else top
        if 127 < p then (if sat then 0xFE else 0xFF, FpFlags.ovf ||| FpFlags.inx)
        else ((p + 127).toNat, FpFlags.when (!exact) FpFlags.inx)

/-- A conversion to an integer type: rounded and clamped; a NaN gives 0 with `inv` (R138). -/
def toInt (w : Nat) (signed : Bool) (mode : RMode) (rb : Nat) (x : FVal) : Nat × FpFlags :=
  let lo : Int := if signed then -((2 ^ (w - 1) : Nat) : Int) else 0
  let hi : Int := if signed then ((2 ^ (w - 1) : Nat) : Int) - 1 else ((2 ^ w : Nat) : Int) - 1
  match x with
  | .nan _ => (0, FpFlags.inv)
  | .inf neg => (wrap w (if neg then lo else hi), 0)
  | .fin neg m e =>
    let k : Int := ((roundAt mode rb neg m (if 200 < e then 200 else e) false 0).1 : Nat)
    let v := if neg then -k else k
    (wrap w (if v < lo then lo else if hi < v then hi else v), 0)

/-- FCVT (R137 to R139). -/
def fcvt (src dst : CvtTy) (mode : RMode) (rb : Nat) (sat : Bool) (x : Nat) : Nat × FpFlags :=
  let v := src.read x
  match dst with
  | .flt f => let p := f.place mode rb sat v; (p.1, p.2 ||| sigFlag [v])
  | .e8m0 => toE8m0 mode rb sat v
  | .int w s => toInt w s mode rb v

/-! ### Exact sums (R123 to R125) -/

/-- The running state of an exact sum: a NaN, its `inv`, infinities seen, the finite total as a multiple of 2^−2300, and whether every term
so far is −0. -/
structure Acc where
  nan : Bool
  inv : Bool
  pos : Bool
  neg : Bool
  tot : Int
  allNegZero : Bool
deriving DecidableEq, Repr

/-- Nothing summed yet. -/
def Acc.zero : Acc := ⟨false, false, false, false, 0, true⟩

/-- The exponent of the sum's unit: below every product of two values of the formats, scales included. -/
def sumUnit : Int := -2600

/-- Add one term. -/
def Acc.add (a : Acc) (x : FVal) (fl : FpFlags) : Acc :=
  let a := { a with inv := a.inv || fl != 0 }
  match x with
  | .nan _ => { a with nan := true, allNegZero := false }
  | .inf n => { a with pos := a.pos || !n, neg := a.neg || n, allNegZero := false }
  | .fin n m e => { a with tot := a.tot + scaledInt n m e sumUnit, allNegZero := a.allNegZero && n && m == 0 }

/-- The value of the sum, with its flags (R125). -/
def Acc.value (a : Acc) : FVal × FpFlags :=
  if a.nan then (.nan false, FpFlags.when (a.inv || (a.pos && a.neg)) FpFlags.inv)
  else if a.pos && a.neg then (.nan false, FpFlags.inv)
  else if a.pos then (.inf false, FpFlags.when a.inv FpFlags.inv)
  else if a.neg then (.inf true, FpFlags.when a.inv FpFlags.inv)
  else if a.tot = 0 then (.fin a.allNegZero 0 0, 0)
  else (.fin (a.tot < 0) a.tot.natAbs sumUnit, 0)

/-! ### Wring (R121) -/

/-- One round of Wring on a, b, k. -/
def wringRound (x : Word × Word × Word) : Word × Word × Word :=
  let a := x.1 * BitVec.ofNat 32 0x85EBCA77 + x.2.2
  let b := x.2.1 ^^^ a.rotateLeft 11
  (a ^^^ (b * BitVec.ofNat 32 0xC2B2AE3D), b, x.2.2 + BitVec.ofNat 32 0x27D4EB2F)

/-- Wring(key, ctr). -/
def wring (key : Word) (ctr : Word64) : Word :=
  let r := wringRound (wringRound (wringRound (wringRound (ctr.extractLsb' 0 32, ctr.extractLsb' 32 32, key))))
  r.1 ^^^ r.2.1

/-- The 16 random bits of element `e` of a lane (R121). -/
def State.rbits (s : State) (lane e : Nat) : Nat :=
  (wring ((s.ru 62).extractLsb' 0 32) (s.ru 63 + BitVec.ofNat 64 (8 * lane + e))).toNat / 2 ^ 16

end Machine

end Sys2Proof
end

