-- ==== Sys2Proof/Machine/Float.lean ====
section
/-! DEFINITION. Floating-point and narrow-format instructions (R127 to R146). -/

namespace Sys2Proof

namespace Machine

/-- The format of a type code of majors 0x20 to 0x27 (R61). -/
def fpFmt : Nat → Fmt | 0 => .f32 | 1 => .f64 | 2 => .f16 | _ => .bf16

/-- The constant type of a type code (R33). -/
def fpCTy : Nat → CTy | 0 => .f32 | 1 => .f64 | 2 => .f16 | _ => .bf16

/-- The rounding of a major: RNE, or the mode of `fpctl.rm` (R128). -/
def State.rmode (s : State) (dyn : Bool) : RMode := if dyn then RMode.ofCode s.me.rm.toNat else .rne

/-- The counter and key that a dynamic or stochastic rounding reads (R121). -/
def Uses.rounds (c : Bool) : Uses := if c then (Uses.rdU 62).and (Uses.rdU 63) else Uses.none

/-- An operation on one lane word: the whole word, or its two halves independently (R127). -/
def State.fpWord (s : State) (op : FpOp) (t : Nat) (mode : RMode) (lane a b d : Nat) : Nat × FpFlags :=
  if t < 2 then op (fpFmt t) mode (s.rbits lane 0) a b d
  else
    let lo := op (fpFmt t) mode (s.rbits lane 0) (a % 65536) (b % 65536) (d % 65536)
    let hi := op (fpFmt t) mode (s.rbits lane 1) (a / 65536) (b / 65536) (d / 65536)
    (lo.1 + hi.1 * 65536, lo.2 ||| hi.2)

/-- d := op(a, b, d) in a type, with flags (R127 to R129). `two` says that b is read, `acc` that d is. In an odd major s62 and s63 count as sources of FMIN and FMAX too,
and not of FCLASS, though none of them rounds (R121, R131; DESIGN CHOICE, log 49). -/
def State.fpOp (op : FpOp) (two acc : Bool) (t : BitVec 2) (r : Bool) (d a b : BitVec 7) (u : Bool) (s : State) : State :=
  let k := if t = 1 then 2 else 1
  let uses := ((((Uses.rdV a.toNat k).and (if two then Uses.rdB b u k else Uses.none)).and
    (if acc then Uses.rdV d.toNat k else Uses.none)).and (Uses.rounds r)).and (Uses.wrV d.toNat k)
  s.plain uses (fun q =>
    let mode := q.rmode r
    if t = 1 then
      let f := fun l => q.fpWord op 1 mode l (q.rv2 a.toNat l).toNat (q.opb2T .f64 b u l).toNat (q.rv2 d.toNat l).toNat
      (q.wv2 d.toNat q.cur.active (fun l => BitVec.ofNat 64 (f l).1)).raise (State.orFlags q.cur.active (fun l => (f l).2))
    else
      let f := fun l => q.fpWord op t.toNat mode l (q.rv a.toNat l).toNat (q.opbT (fpCTy t.toNat) b u l).toNat (q.rv d.toNat l).toNat
      (q.wv d.toNat q.cur.active (fun l => BitVec.ofNat 32 (f l).1)).raise (State.orFlags q.cur.active (fun l => (f l).2)))

/-- FADD (R129). -/
def execFadd (t : BitVec 2) (r : Bool) (d a b : BitVec 7) (u : Bool) (s : State) : Out' := .next (s.fpOp fpAdd true false t r d a b u)

/-- FSUB (R129). -/
def execFsub (t : BitVec 2) (r : Bool) (d a b : BitVec 7) (u : Bool) (s : State) : Out' := .next (s.fpOp fpSub true false t r d a b u)

/-- FMUL (R129). -/
def execFmul (t : BitVec 2) (r : Bool) (d a b : BitVec 7) (u : Bool) (s : State) : Out' := .next (s.fpOp fpMul true false t r d a b u)

/-- FMA (R129). -/
def execFma (t : BitVec 2) (r : Bool) (d a b : BitVec 7) (u : Bool) (s : State) : Out' := .next (s.fpOp fpFma true true t r d a b u)

/-- FMIN (R131). -/
def execFmin (t : BitVec 2) (r : Bool) (d a b : BitVec 7) (u : Bool) (s : State) : Out' := .next (s.fpOp (fpMinMax false) true false t r d a b u)

/-- FMAX (R131). -/
def execFmax (t : BitVec 2) (r : Bool) (d a b : BitVec 7) (u : Bool) (s : State) : Out' := .next (s.fpOp (fpMinMax true) true false t r d a b u)

/-- FDIV (R132). -/
def execFdiv (t : BitVec 2) (r : Bool) (d a b : BitVec 7) (u : Bool) (s : State) : Out' := .next (s.fpOp fpDiv true false t r d a b u)

/-- FRCP (R132). -/
def execFrcp (t : BitVec 2) (r : Bool) (d a : BitVec 7) (s : State) : Out' := .next (s.fpOp fpRcp false false t r d a 0 true)

/-- FRSQ (R132). -/
def execFrsq (d a : BitVec 7) (s : State) : Out' := .next (s.fpOp fpRsq false false 0 false d a 0 true)

/-- FSQRT (R132). -/
def execFsqrt (t : BitVec 2) (r : Bool) (d a : BitVec 7) (s : State) : Out' := .next (s.fpOp fpSqrt false false t r d a 0 true)

/-- FEXP2 (R133). -/
def execFexp2 (d a : BitVec 7) (s : State) : Out' := .next (s.fpOp fpExp2 false false 0 false d a 0 true)

/-- FLOG2 (R133). -/
def execFlog2 (d a : BitVec 7) (s : State) : Out' := .next (s.fpOp fpLog2 false false 0 false d a 0 true)

/-- FSINPI (R133). -/
def execFsinpi (d a : BitVec 7) (s : State) : Out' := .next (s.fpOp fpSinPi false false 0 false d a 0 true)

/-- FCOSPI (R133). -/
def execFcospi (d a : BitVec 7) (s : State) : Out' := .next (s.fpOp fpCosPi false false 0 false d a 0 true)

/-- FCLASS (R134): d is one register in both types. -/
def execFclass (t : BitVec 2) (_r : Bool) (d a : BitVec 7) (s : State) : Out' :=
  .next (s.plain ((Uses.rdV a.toNat (if t = 1 then 2 else 1)).and (Uses.wrV d.toNat 1)) (fun q =>
    q.wv d.toNat q.cur.active (fun l => BitVec.ofNat 32
      (if t = 1 then fclassBits .f64 (q.rv2 a.toNat l).toNat else fclassBits .f32 (q.rv a.toNat l).toNat))))

/-- FRND (R135): its own mode field; 5 is dynamic. -/
def execFrnd (t : BitVec 2) (_r : Bool) (d a : BitVec 7) (m : BitVec 3) (s : State) : Out' :=
  .next (if m = 5 then s.fpOp fpRnd false false t true d a 0 true
    else s.fpOp (fun f _ rb x y z => fpRnd f (RMode.ofCode m.toNat) rb x y z) false false t false d a 0 true)

/-- FSETP (R136). -/
def execFsetp (w : BitVec 3) (p : BitVec 4) (a b : BitVec 7) (u : Bool) (c : BitVec 4) (s : State) : Out' :=
  let k := if w = 1 then 2 else 1
  .next (s.plain (((Uses.rdV a.toNat k).and (Uses.rdB b u k)).and (Uses.wrP p.toNat)) (fun q =>
    let va := fun l => if w = 1 then Fmt.f64.decode (q.rv2 a.toNat l).toNat else Fmt.f32.decode (q.rv a.toNat l).toNat
    let vb := fun l => if w = 1 then Fmt.f64.decode (q.opb2T .f64 b u l).toNat else Fmt.f32.decode (q.opbT .f32 b u l).toNat
    (q.wp p.toNat q.cur.active (fun l => fpCond c.toNat (va l) (vb l))).raise
      (State.orFlags q.cur.active (fun l => sigFlag [va l, vb l]))))

/-- A conversion type takes a register pair (R137). -/
def cvtWide (c : BitVec 4) : Bool := c.toNat == 0 || c.toNat == 12 || c.toNat == 13

/-- FCVT (R137 to R139). -/
def execFcvt (d a : BitVec 7) (sat : Bool) (r : BitVec 3) (x y : BitVec 4) (s : State) : Out' :=
  let ka := if cvtWide x then 2 else 1
  let kd := if cvtWide y then 2 else 1
  .next (s.plain (((Uses.rdV a.toNat ka).and (Uses.rounds (r == 4 || r == 5))).and (Uses.wrV d.toNat kd)) (fun q =>
    let mode := if r = 5 then q.rmode true else RMode.ofCode r.toNat
    let f := fun l => fcvt (CvtTy.ofCode x.toNat) (CvtTy.ofCode y.toNat) mode (q.rbits l 0) sat
      (if cvtWide x then (q.rv2 a.toNat l).toNat else (q.rv a.toNat l).toNat)
    (if cvtWide y then q.wv2 d.toNat q.cur.active (fun l => BitVec.ofNat 64 (f l).1)
      else q.wv d.toNat q.cur.active (fun l => BitVec.ofNat 32 (f l).1)).raise (State.orFlags q.cur.active (fun l => (f l).2))))

/-! ### Dot products (R123, R140) -/

/-- The elements of a lane word at a width. -/
def elems (w n x : Nat) : List Nat := (List.range n).map (fun i => x / 2 ^ (w * i) % 2 ^ w)

/-- The exact sum of products of float elements with an addend, rounded once to f32. -/
def dotFloat (f : Fmt) (n a b d : Nat) : Nat × FpFlags :=
  let x := Fmt.f32.decode d
  let pairs := (elems f.w n a).zip (elems f.w n b)
  let acc := pairs.foldl (fun (t : Acc) p => let m := (f.decode p.1).mul (f.decode p.2); t.add m.1 m.2) (Acc.zero.add x (sigFlag [x]))
  finishFp .f32 .rne 0 [] acc.value

/-- The sum of products of integer elements with an i32 addend, modulo 2^32. -/
def dotInt (w n : Nat) (signed : Bool) (a b d : Nat) : Nat × FpFlags :=
  let v := fun x => if signed then toSigned w x else (x : Int)
  (wrap 32 (((elems w n a).zip (elems w n b)).foldl (fun t p => t + v p.1 * v p.2) (d : Int)), 0)

/-- d := dot(a, b) + d (R140). -/
def State.dot (g : Nat → Nat → Nat → Nat × FpFlags) (d a b : BitVec 7) (u : Bool) (s : State) : State :=
  s.plain ((((Uses.rdV a.toNat 1).and (Uses.rdB b u 1)).and (Uses.rdV d.toNat 1)).and (Uses.wrV d.toNat 1)) (fun q =>
    let f := fun l => g (q.rv a.toNat l).toNat (q.opb b u l).toNat (q.rv d.toNat l).toNat
    (q.wv d.toNat q.cur.active (fun l => BitVec.ofNat 32 (f l).1)).raise (State.orFlags q.cur.active (fun l => (f l).2)))

/-- DOT4 (R140): e4m3, e5m2, i8, n8. -/
def execDot4 (d a b : BitVec 7) (u : Bool) (t : BitVec 2) (s : State) : Out' :=
  .next (s.dot (match t.toNat with
    | 0 => dotFloat .e4m3 4
    | 1 => dotFloat .e5m2 4
    | 2 => dotInt 8 4 true
    | _ => dotInt 8 4 false) d a b u)

/-- DOT8 (R140): e2m1, i4, n4; t is the function code's low bits, 4 to 6 (R63). -/
def execDot8 (d a b : BitVec 7) (u : Bool) (t : BitVec 2) (s : State) : Out' :=
  .next (s.dot (match t.toNat with
    | 0 => dotFloat .e2m1 8
    | 1 => dotInt 4 8 true
    | _ => dotInt 4 8 false) d a b u)

/-- WRING (R146). -/
def execWring (d a b : BitVec 7) (u : Bool) (s : State) : Out' :=
  .next (s.plain (((Uses.rdV a.toNat 1).and (Uses.rdB b u 2)).and (Uses.wrV d.toNat 1))
    (fun q => q.wv d.toNat q.cur.active (fun l => wring (q.rv a.toNat l) (q.opb2 b u l))))

/-! ### Block scales (R118, R141 to R145) -/

/-- A narrow format by its code (R63). -/
def narrowFmt : Nat → Fmt | 0 => .e4m3 | 1 => .e5m2 | 2 => .e3m2 | 3 => .e2m3 | _ => .e2m1

/-- Lanes of a block of a format: 4 for 4-bit elements, 8 otherwise (R118). -/
def blockLanes (f : Nat) : Nat := if f = 4 then 4 else 8

/-- Elements in a lane word of a format (R116). -/
def perWord (f : Nat) : Nat := if f = 4 then 8 else 4

/-- The bits that an element takes in a lane word. -/
def slotBits (f : Nat) : Nat := 32 / perWord f

/-- x × 2^(s−127) for an e8m0 scale byte. -/
def FVal.scale (x : FVal) (s : Int) : FVal :=
  match x with
  | .fin n m e => .fin n m (e + s)
  | y => y

/-- The lanes of block `k` of a format (R118). -/
def blockMask (f k : Nat) : Mask := maskOf ((List.range (blockLanes f)).map (fun i => k * blockLanes f + i))

/-- The scales of a format's blocks are read, each by the lanes of its block (R118). -/
def Uses.scales (f n : Nat) : Uses := Uses.lanesV n ((List.range (32 / blockLanes f)).map (fun k => (k, blockMask f k)))

/-- SCL (R142). A signalling NaN under a scale of 0xFF sets `inv` (DESIGN CHOICE, log 49: one bullet of R142 sets it, another sets no flag). -/
def execScl (d a : BitVec 7) (sel : BitVec 2) (f : BitVec 3) (s : State) : Out' :=
  .next (s.plain (((Uses.scales f.toNat a.toNat).and (Uses.rdV d.toNat 1)).and (Uses.wrV d.toNat 1)) (fun q =>
    let g := fun l =>
      let sc := bits (q.laneVal a.toNat (l / blockLanes f.toNat)).toNat (8 * sel.toNat + 7) (8 * sel.toNat)
      let x := Fmt.f32.decode (q.rv d.toNat l).toNat
      if sc = 0xFF ∨ x.isNan then (Fmt.f32.nan, sigFlag [x])
      else Fmt.f32.place .rne 0 false (x.scale ((sc : Int) - 127))
    (q.wv d.toNat q.cur.active (fun l => BitVec.ofNat 32 (g l).1)).raise (State.orFlags q.cur.active (fun l => (g l).2))))

/-- The value of a narrow NaN output (R143). -/
def nanOut (f : Nat) : Nat := match f with | 0 => 0x7F | 1 => 0x7E | _ => 0

/-- Some finite element overflows at a scale exponent, rounded with an unbounded exponent (R143). -/
def qntOver (f : Fmt) (sc : Nat) (xs : List FVal) : Bool :=
  xs.any (fun x => match x with
    | .fin n m e =>
      let e' := e - ((sc : Int) - 127)
      m != 0 && f.above (roundAt .rne 0 n m e' false (f.grid m e')).1 (f.grid m e')
    | _ => false)

/-- The scale after the raises (R143). -/
def qntScale (f : Fmt) (xs : List FVal) : Nat → Nat → Nat
  | 0, sc => sc
  | n + 1, sc => if qntOver f sc xs && decide (sc < 0xFE) then qntScale f xs n (sc + 1) else sc

/-- One element of a quantised block (R143). -/
def qntElem (code : Nat) (sc : Nat) (x : FVal) : Nat × FpFlags :=
  let f := narrowFmt code
  match x with
  | .nan sg => (nanOut code, FpFlags.when (sg || f.spec == .finite) FpFlags.inv)
  | .inf neg => (f.signed neg f.maxBits, 0)
  | .fin neg m e =>
    let y := FVal.fin neg m (e - ((sc : Int) - 127))
    let r := f.place .rne 0 true y
    if qntOver f sc [x] then (f.signed neg f.maxBits, r.2 ||| FpFlags.qsat) else r

/-- A quantised block: the codes of its elements in order, the new scale, the flags. -/
def qntBlock (code lim sc : Nat) (xs : List FVal) : List Nat × Nat × FpFlags :=
  if sc = 0xFF then (xs.map (fun _ => nanOut code), sc, FpFlags.inv)
  else
    let sc' := qntScale (narrowFmt code) xs lim sc
    let ys := xs.map (qntElem code sc')
    (ys.map (·.1), sc', ys.foldl (fun a y => a ||| y.2) 0)

/-- The lanes of block `k` that are present. -/
def State.blockOf (s : State) (f k : Nat) : List Nat :=
  ((List.range (blockLanes f)).map (fun i => k * blockLanes f + i)).filter (fun l => s.me.present.getLsbD l)

/-- The blocks with an active lane. -/
def State.activeBlocks (s : State) (f : Nat) : List Nat :=
  (List.range (32 / blockLanes f)).filter (fun k =>
    ((List.range (blockLanes f)).map (fun i => k * blockLanes f + i)).any (fun l => s.cur.active.getLsbD l))

/-- `n` registers from `d` in every lane of the blocks of a format, each for the lanes of its block (R118, R143). -/
def blockRegs (f d n : Nat) : List (Reg × Nat × Mask) :=
  (List.range n).flatMap (fun i => (List.range 32).map (fun l => (Reg.v (d + i), l, blockMask f (l / blockLanes f))))

/-- Registers of QNT (R143): the group and the scales are read in whole blocks, and the first register and the scales are written. -/
def Uses.qnt (f d a : Nat) : Uses :=
  { Uses.scales f a with
    win := [(d, perWord f), (a, 1)], wr := [.v d, .v a], all := blockRegs f d (perWord f) ++ (Uses.scales f a).all, wrl := blockRegs f d 1 ++ (Uses.scales f a).all }

/-- Registers of DQNT (R144): the first register and the scales are read in whole blocks, and the group is written. -/
def Uses.dqnt (f d a : Nat) : Uses :=
  { Uses.scales f a with
    win := [(d, perWord f), (a, 1)], wr := Uses.grp d (perWord f), all := blockRegs f d 1 ++ (Uses.scales f a).all, wrl := blockRegs f d (perWord f) }

/-- Quantise one block (R143). -/
def State.qntOne (code lim sel d a : Nat) (src : State) (s : State) (k : Nat) : State :=
  let n := perWord code
  let scw := (src.laneVal a k).toNat
  let sc := bits scw (8 * sel + 7) (8 * sel)
  let lanes := (List.range (blockLanes code)).map (fun i => k * blockLanes code + i)
  let xs := lanes.flatMap (fun l => (List.range n).map (fun i => Fmt.f32.decode (src.laneVal (d + i) l).toNat))
  let r := qntBlock code lim sc xs
  let word := fun l => BitVec.ofNat 32 ((List.range n).foldl (fun w i =>
    w + r.1.getD ((l - k * blockLanes code) * n + i) 0 * 2 ^ (slotBits code * i)) 0)
  let s := (s.wv d (maskOf (src.blockOf code k)) word).raise r.2.2
  if src.me.present.getLsbD k then
    s.wv a (maskOf [k]) (fun _ => BitVec.ofNat 32 (scw - sc * 2 ^ (8 * sel) + r.2.1 * 2 ^ (8 * sel)))
  else s

/-- QNT (R143). -/
def execQnt (d a : BitVec 7) (sel lim : BitVec 2) (f : BitVec 3) (s : State) : Out' :=
  .next (s.plain (Uses.qnt f.toNat d.toNat a.toNat) (fun q =>
    (q.activeBlocks f.toNat).foldl (State.qntOne f.toNat lim.toNat sel.toNat d.toNat a.toNat q) q))

/-- Dequantise one block (R144). -/
def State.dqntOne (code sel d a : Nat) (src : State) (s : State) (k : Nat) : State :=
  let sc := bits (src.laneVal a k).toNat (8 * sel + 7) (8 * sel)
  let f := narrowFmt code
  let val := fun (l i : Nat) =>
    let x := f.decode ((src.rv d l).toNat / 2 ^ (slotBits code * i) % 2 ^ f.w)
    if sc = 0xFF ∨ x.isNan then (Fmt.f32.nan, (0 : FpFlags))
    else Fmt.f32.place .rne 0 false (x.scale ((sc : Int) - 127))
  let lanes := src.blockOf code k
  let s := (List.range (perWord code)).foldl (fun t i => t.wv (d + i) (maskOf lanes) (fun l => BitVec.ofNat 32 (val l i).1)) s
  s.raise (lanes.foldl (fun a l => (List.range (perWord code)).foldl (fun b i => b ||| (val l i).2) a) 0)

/-- DQNT (R144). -/
def execDqnt (d a : BitVec 7) (sel : BitVec 2) (f : BitVec 3) (s : State) : Out' :=
  .next (s.plain (Uses.dqnt f.toNat d.toNat a.toNat) (fun q =>
    (q.activeBlocks f.toNat).foldl (State.dqntOne f.toNat sel.toNat d.toNat a.toNat q) q))

/-- The value held by `k` registers from `n` in a lane, low word first. -/
def State.groupVal (s : State) (n k l : Nat) : Nat :=
  (List.range k).foldl (fun x i => x + (s.rv (n + i) l).toNat * 2 ^ (32 * i)) 0

/-- P6X (R145): pack containers to 6-bit elements, or unpack. -/
def execP6x (d : BitVec 7) (r : BitVec 2) (_f : BitVec 3) (s : State) : Out' :=
  let n := d.toNat
  .next (s.plain ((Uses.rdV n (if r = 0 then 4 else 3)).and (Uses.wrV n (if r = 0 then 3 else 4))) (fun q =>
    if r = 0 then
      let v := fun l => (List.range 16).foldl (fun x i => x + q.groupVal n 4 l / 2 ^ (8 * i) % 64 * 2 ^ (6 * i)) 0
      (List.range 3).foldl (fun t i => t.wv (n + i) q.cur.active (fun l => BitVec.ofNat 32 (v l / 2 ^ (32 * i)))) q
    else
      let v := fun l => (List.range 16).foldl (fun x i => x + q.groupVal n 3 l / 2 ^ (6 * i) % 64 * 2 ^ (8 * i)) 0
      (List.range 4).foldl (fun t i => t.wv (n + i) q.cur.active (fun l => BitVec.ofNat 32 (v l / 2 ^ (32 * i)))) q))

end Machine

end Sys2Proof
end

