-- ==== Sys2Proof/Machine/Control.lean ====
section
/-! DEFINITION. Branches, calls, exit, the slot barrier, rejoin masks and window control (R98 to R108, R319). -/

namespace Sys2Proof

namespace Machine

/-- The target of a branch: its address + 4 × offset in 64 bits (R99). -/
def branchTarget (pc : Word64) (o : BitVec 42) : Word64 := pc + 4 * o.signExtend 64

/-- Lanes of the issuing entry move to targets with a priority; the others fall through. An entry that moves whole keeps its
creation number (R19 rule 3, R98). -/
def Fibre.branch (x : Fibre) (c : Cur) (prio : BitVec 4) (groups : List (Word64 × Mask)) : Fibre :=
  match groups with
  | [(tgt, m)] =>
    if m = c.mask then (x.dropRun c.age).addRun tgt prio m c.age
    else ((x.leave c.age m).advance c 0).newRun tgt prio m
  | _ =>
    let m := groups.foldl (fun a g => a ||| g.2) 0
    groups.foldl (fun y g => y.newRun g.1 prio g.2) ((x.leave c.age m).advance c 0)

/-- Take a branch and finish. -/
def State.takeBranch (prio : BitVec 4) (groups : List (Word64 × Mask)) (s : State) : State :=
  (s.modMe (fun x => x.branch s.cur prio groups)).done

/-- BR (R98): per lane, where P[cond] xor neg is 1. -/
def execBr (p c : BitVec 4) (n : Bool) (o : BitVec 42) (s : State) : Out' :=
  .next (s.issue (Uses.rdP c.toNat) (fun t =>
    let taken := t.cur.mask &&& (if n then ~~~(State.predMask t.me c.toNat) else State.predMask t.me c.toNat)
    if taken = 0 then t.finish else t.takeBranch p [(branchTarget t.cur.pc o, taken)]))

/-- JMP (R98): the condition of the lowest lane of the entry moves the whole entry or none of it. -/
def execJmp (p c : BitVec 4) (n : Bool) (o : BitVec 42) (s : State) : Out' :=
  .next (s.issue (Uses.rdP c.toNat) (fun t =>
    if t.rp c.toNat ((lowestLane t.cur.mask).getD 0) != n then t.takeBranch p [(branchTarget t.cur.pc o, t.cur.mask)] else t.finish))

/-- CALL (R60, R100): each lane writes the next address to its link pair and continues at the target. -/
def execCall (p : BitVec 4) (l : BitVec 5) (o : BitVec 42) (s : State) : Out' :=
  .next (s.issue (Uses.wrV (2 * l.toNat) 2) (fun t =>
    (t.wv2 (2 * l.toNat) t.cur.mask (fun _ => t.cur.npc)).takeBranch p [(branchTarget t.cur.pc o, t.cur.mask)]))

/-- Put a lane to the group of its target. -/
def addTarget (g : List (Word64 × Mask)) (tgt : Word64) (lane : Nat) : List (Word64 × Mask) :=
  match g with
  | [] => [(tgt, maskOf [lane])]
  | x :: l => if x.1 = tgt then (tgt, x.2 ||| maskOf [lane]) :: l else x :: addTarget l tgt lane

/-- BRX and RET (R101): the active lanes go to their pair's value with bits [1:0] cleared, grouped by equal target. -/
def State.indirect (a : BitVec 7) (p : BitVec 4) (s : State) : State :=
  s.issue (Uses.rdV a.toNat 2) (fun t =>
    t.takeBranch p ((lanesOf t.cur.active).foldl
      (fun g l => addTarget g (t.rv2 a.toNat l &&& ~~~(3 : Word64)) l) []))

/-- BRX (R101). -/
def execBrx (a : BitVec 7) (p : BitVec 4) (s : State) : Out' := .next (s.indirect a p)

/-- RET (R60, R101). -/
def execRet (a : BitVec 7) (p : BitVec 4) (s : State) : Out' := .next (s.indirect a p)

/-- The active lanes leave the frontier and every rejoin mask, the others advance, and the fibre exits when no lane is left (R102). -/
def State.exitActive (s : State) : State :=
  ((s.modMe (fun x => x.leave s.cur.age s.cur.active)).finishWith 0 (Fibre.strikeAll s.cur.active)).exitCheck s.cur.fib

/-- EXIT (R102). -/
def execExit (s : State) : Out' := .next (s.issue Uses.none State.exitActive)

/-- NOP (R102). -/
def execNop (s : State) : Out' := .next (s.plain Uses.none id)

/-- FSW (R107): the slot passes issue and the fibre stays ready. -/
def execFsw (s : State) : Out' := .next (s.issue Uses.none (fun t => t.finish.pass t.cur.fib))

/-- FBAR (R108): close the shadows, wait until every earlier write has landed, arrive, block, and release when every
participant has arrived. -/
def execFbar (s : State) : Out' :=
  .next (s.issue Uses.none (fun t =>
    let f := t.cur.fib
    let t := (t.modMe Fibre.closeShadows).landDue f
    if t.me.pend.any (fun p => !p.vals.isEmpty) then t.stall .scoreboard
    else
      let k := t.slotOf f
      let t := (t.finish.setStatus f .atFbar).pass f
      (t.modSlot k (fun x => { x with fbarIn := x.fbarIn ++ [f] })).fbarCheck k))

/-- JEN (R24). -/
def execJen (j : BitVec 3) (s : State) : Out' :=
  .next (s.plain Uses.none (fun t => t.modMe (fun x =>
    { x with masks := Sparse.modify Rejoin.zero j.toNat (fun r => { r with enrolled := r.enrolled ||| t.cur.active }) x.masks })))

/-- Lanes of a JWT arrive at rejoin mask `j`, which is released when it is complete (R24). -/
def Fibre.arriveJwt (c : Cur) (j : Nat) (m : Mask) (x : Fibre) : Fibre :=
  let join := fun (q : Rejoin) =>
    if q.arrived = 0 then { q with arrived := m, wpc := c.pc, wnext := c.npc, wprio := c.prio } else { q with arrived := q.arrived ||| m }
  ({ x with masks := Sparse.modify Rejoin.zero j join x.masks } : Fibre).tryRelease j

/-- JWT (R24): enrolled lanes are parked in the mask, others pass; at another address the enrolled lanes take the
illegal-rejoin fault. -/
def execJwt (j : BitVec 3) (s : State) : Out' :=
  .next (s.issue Uses.none (fun t =>
    let r := Sparse.get Rejoin.zero j.toNat t.me.masks
    let enr := t.cur.active &&& r.enrolled
    if enr = 0 then t.finish
    else if r.arrived ≠ 0 ∧ r.wpc ≠ t.cur.pc then
      t.splitFaults ((lanesOf enr).map (fun l => ⟨l, .illegalRejoin, 0, 0, 0, 0⟩)) Uses.none (fun _ u => u)
    else (t.modMe (fun x => x.leave t.cur.age enr)).finishWith 0 (Fibre.arriveJwt t.cur j.toNat enr)))

/-- JSTR (R24): strike the active lanes, with the release that this completes. -/
def execJstr (j : BitVec 3) (s : State) : Out' :=
  .next (s.issue Uses.none (fun t => t.finishWith 0 (fun x => x.strike t.cur.active j.toNat)))

/-! ### The window (R26 to R29, R104 to R106) -/

/-- Granules `b` to `b + n − 1` as a set. -/
def granules (b n : Nat) : BitVec 64 := BitVec.ofNat 64 ((2 ^ n - 1) * 2 ^ b)

/-- WBASE (R104): illegal beyond granule 63 or outside the granted set (R27). -/
def execWbase (b : BitVec 6) (s : State) : Out' :=
  let z := s.me.size
  let w := granules b.toNat z
  .next (s.issueIf (if 64 < b.toNat + z ∨ w &&& ~~~s.me.granted ≠ 0 then some .illegalRegister else none) Uses.none
    (fun t => (t.modMe (fun x => { x with base := b.toNat })).finish))

/-- Some fibre of the slot has a pending write to a register of granule `g` (R29). -/
def State.granulePending (s : State) (k g : Nat) : Bool :=
  (s.slotFibres k).any (fun f => (s.fibre f).pend.any (fun p => p.vals.any (fun v => match v.reg with
    | .v ph => ph / 8 == g
    | _ => false)))

/-- Granule `g` of slot `k` is held by no fibre and clear of pending writes (R105). -/
def State.granuleFree (s : State) (k g : Nat) : Bool :=
  (s.slotFibres k).all (fun f => (s.fibre f).status == .exited || !(s.fibre f).granted.getLsbD g) && !s.granulePending k g

/-- Zero the registers of a granule of a slot. -/
def State.zeroGranule (k : Nat) (s : State) (g : Nat) : State :=
  s.modSlot k (fun x => { x with vreg := x.vreg.filter (fun e => e.1 / 256 != g) })

/-- Fibre `f` takes the grow-deadlock fault: precise, at the address of its GROW (R319); while that finds no parked place or no room for its
record, the fibre still owes it. -/
def State.growFault (n : Nat) (s : State) (f : Nat) : State :=
  match bestEntry Entry.before ((s.fibre f).frontier.filter (fun e => e.kind == .run)) with
  | none => s
  | some e =>
    let c := s.cur
    let t := { s with cur := ⟨f, e.age, e.pc, e.pc, e.mask, e.mask, e.prio, Attr.none, false⟩ }
    let t := t.precise .growDeadlock (n + (s.fibre f).size * 256)
    let free := (t.fibre f).runEntry e.age = none
    { t.modFibre f (fun x => { x with deadlock := !free }) with cur := c }

/-- The granules that a GROW by `n` granules of fibre `f` lacks are all free now. -/
def State.growable (s : State) (f n : Nat) : Bool :=
  let x := s.fibre f
  ((List.range n).map (fun i => x.base + x.size + i)).all (fun g => x.granted.getLsbD g || s.granuleFree (s.slotOf f) g)

/-- The slot of the issuing fibre can never grant: every fibre that has not exited waits at a GROW, and none of them could be granted now (R319). -/
def State.growDeadlock (s : State) : State :=
  let k := s.slotOf s.cur.fib
  let fs := s.partsOf k
  if fs.all (fun f => match (s.fibre f).status with | .blocked (.grow n) => !s.growable f n | _ => false) then
    fs.foldl (fun t f => match (s.fibre f).status with
      | .blocked (.grow n) => t.growFault n f
      | _ => t) s
  else s

/-- The window limit of the running task record (R222). -/
def taskVwin (rec : Nat) : Nat := bits rec 363 356

/-- GROW (R105). -/
def execGrow (n : BitVec 5) (s : State) : Out' :=
  let z := s.me.size
  let b := s.me.base
  .next (s.issueIf (if 16 < z + n.toNat ∨ 64 < b + z + n.toNat then some .illegalRegister else none) Uses.none (fun t =>
    if n = 0 then t.finish
    else if t.me.deadlock then t.growFault n.toNat t.cur.fib
    else
      let k := t.slotOf t.cur.fib
      let want := (List.range n.toNat).map (fun i => b + z + i)
      let new := want.filter (fun g => !t.me.granted.getLsbD g)
      let w := t.myWg
      if w.isTask ∧ (new.any (fun g => !t.granuleFree k g) ∨ (taskVwin w.task ≠ 0 ∧ taskVwin w.task < z + n.toNat)) then
        t.trigger t.me.wg t.cur.pc
      else if new.any (fun g => !t.granuleFree k g) then (t.stall (.grow n.toNat)).growDeadlock
      else
        ((new.foldl (State.zeroGranule k) t).modMe (fun x =>
          { x with size := z + n.toNat, granted := x.granted ||| granules (b + z) n.toNat })).finish))

/-- SHRINK (R106). -/
def execShrink (n : BitVec 5) (s : State) : Out' :=
  .next (s.issueIf (if s.me.size < n.toNat then some .illegalRegister else none) Uses.none (fun t =>
    (t.modMe (fun x =>
      { x with size := x.size - n.toNat,
               granted := x.granted &&& ~~~(granules (x.base + x.size - n.toNat) n.toNat) })).finish))

end Machine

end Sys2Proof
end

