-- ==== Sys2Proof/Machine/Memory.lean ====
section
/-! DEFINITION. The memory path of a core: translation (R349), the checks of R150, the L1 (R261, R262), the home with the
footprint marks of the slices (R325 to R334), acquire and release (R177, R178). -/

namespace Sys2Proof

namespace Machine

/-! ### Translation in a core -/

/-- What the core knows of a page. -/
def Core.tlbGet (c : Core) (pasid vpn : Nat) : Option Tlb := c.tlb.find? (fun t => t.pasid == pasid && t.vpn == vpn)

/-- Ask for a page: a walk is started when fewer than 16 are outstanding (R349). -/
def Core.askWalk (c : Core) (pasid vpn : Nat) (write : Bool) : Core :=
  if c.walks.any (fun w => w.pasid == pasid && w.vpn == vpn) || 16 ≤ c.walks.length then c
  else { c with walks := c.walks ++ [⟨pasid, vpn, 0, write⟩] }

/-- Put a page's entry into the second-level cache of 4,096 entries in eight ways, set by its page number; the newest 64 entries are those of the
first level as well (R349). The oldest entry of a full set goes (DESIGN CHOICE, log 50). -/
def Core.putTlb (c : Core) (t : Tlb) : Core :=
  let l := c.tlb.filter (fun x => !(x.pasid == t.pasid && x.vpn == t.vpn))
  let set := l.filter (fun x => x.vpn % 512 == t.vpn % 512)
  { c with tlb := (if set.length < 8 then l else match set.head? with | some x => l.erase x | none => l) ++ [t] }

/-- Accesses of R343's acc field. -/
def accRead : Nat := 0
def accWrite : Nat := 1
def accRmw : Nat := 2
def accFetch : Nat := 3

/-- What the checks of one lane's access find (R150): its parts as key, length and leaf; a page that is not known yet; or the first
fault with its sub code and address. -/
inductive LaneRes where
  | ok (parts : List (Nat × Nat × Word64))
  | miss (vpn : Nat)
  | bad (kind : FKind) (sub addr : Nat)
deriving DecidableEq, Repr

/-- A page permits an access (R150 check 3): by its leaf, and for host memory by the egress windows (R364). -/
def State.permits (s : State) (pasid : Nat) (t : Tlb) (acc va n : Nat) : Bool :=
  let rd := t.leaf.getLsbD 1
  let wr := t.leaf.getLsbD 2 && (fieldB t.leaf 7 6 != 1 || s.egressOk pasid (t.frame * 4096 + va % 4096) n)
  if acc = 0 then rd else if acc = 1 then wr else if acc = 2 then rd && wr else t.leaf.getLsbD 3

/-- A page of a module that has left the configured peer set is reached no more, whatever a core still holds of it (R258, R368). -/
def State.peerGone (s : State) (leaf : Word64) : Bool := fieldB leaf 7 6 == 2 && !s.dev.cfg.peers.getLsbD (fieldB leaf 59 52)

/-- Checks 2 to 4 on `n` bytes of an access in one page: translation, protection, and what its home can do (`sup`). -/
def State.checkPart (s : State) (c pasid acc : Nat) (sup : Word64 → Bool) (va : Nat) (n : Nat := 1) : LaneRes :=
  if 2 ^ 57 ≤ va then .bad .translation 1 va
  else match (s.core c).tlbGet pasid (va / 4096) with
    | none => .miss (va / 4096)
    | some t =>
      match t.st with
      | .none_ => .bad .translation 0 va
      | .bad => .bad .translation 3 va
      | .absent => .bad .translation 2 va
      | .ok =>
        if s.peerGone t.leaf then .bad .translation 3 va
        else if !s.permits pasid t acc va n then .bad .protection 0 va
        else if !sup t.leaf then .bad .unsupported 0 va
        else .ok [(s.dev.pageKey t.leaf t.frame + va % 4096, 0, t.leaf)]

/-- The checks of R150 on the access of `n` bytes at `va`, aligned to `al`. -/
def State.check (s : State) (c pasid acc n al : Nat) (sup : Word64 → Bool) (va : Nat) : LaneRes :=
  if va % al ≠ 0 then .bad .misaligned 0 va
  else
    (segs va n).foldl (fun r p => match r with
      | .ok l => match s.checkPart c pasid acc sup (p.1 % 2 ^ 64) p.2 with
        | .ok q => .ok (l ++ q.map (fun x => (x.1, p.2, x.2.2)))
        | e => e
      | e => e) (.ok [])

/-- The checks of every lane of a list. -/
structure Access where
  ok : List (Nat × List (Nat × Nat × Word64))
  miss : List Nat
  bad : List (Nat × FKind × Nat × Nat)
deriving DecidableEq, Repr

/-- Check an access in each lane of a list. -/
def State.access (s : State) (c pasid acc n al : Nat) (sup : Word64 → Bool) (va : Nat → Nat) : List Nat → Access
  | [] => ⟨[], [], []⟩
  | l :: ls =>
    let a := State.access s c pasid acc n al sup va ls
    match s.check c pasid acc n al sup (va l) with
    | .ok p => { a with ok := (l, p) :: a.ok }
    | .miss v => { a with miss := v :: a.miss }
    | .bad k sub ad => { a with bad := (l, k, sub, ad) :: a.bad }

/-- Page requests for every absent page of a list of faults. -/
def State.ensurePrgs (pasid acc : Nat) : List (Nat × FKind × Nat × Nat) → State → Option State
  | [], s => some s
  | b :: l, s =>
    if b.2.1 = .translation ∧ b.2.2.1 = 2 then
      match s.ensurePrg pasid (b.2.2.2 / 4096) (acc == 1 || acc == 2) with
      | none => none
      | some t => State.ensurePrgs pasid acc l t
    else State.ensurePrgs pasid acc l s

/-- Forget what a core knows of pages without a mapping or with a bad entry, once the fault is taken. -/
def Core.dropNeg (c : Core) (vpns : List Nat) : Core :=
  { c with tlb := c.tlb.filter (fun t => !((t.st == .none_ || t.st == .bad) && vpns.contains t.vpn)) }

/-- The lane faults of a failed check, with the page request's index as detail (R343). -/
def State.laneFaults (s : State) (pasid acc : Nat) (l : List (Nat × FKind × Nat × Nat)) : List LFault :=
  l.map (fun b => ⟨b.1, b.2.1, b.2.2.1, acc, b.2.2.2,
    if b.2.1 = .translation ∧ b.2.2.1 = 2 then (((s.ctx pasid).prgOf (b.2.2.2 / 4096)).map (·.idx)).getD 0 else 0⟩)

/-- Run an access of the issuing fibre: wait for unknown pages or a request place; otherwise hand the lanes that pass, and the
faults of the others, to `k`. -/
def State.withAccess (acc n al : Nat) (sup : Word64 → Bool) (va : Nat → Nat) (lanes : List Nat)
    (k : List (Nat × List (Nat × Nat × Word64)) → List LFault → State → State) (s : State) : State :=
  let c := s.me.core
  let p := s.myPasid
  let a := s.access c p acc n al sup va lanes
  if !a.miss.isEmpty then
    (s.modCore c (fun x => a.miss.foldl (fun y v => y.askWalk p v (acc == 1 || acc == 2)) x)).stall .translation
  else match s.ensurePrgs p acc a.bad with
    | none => s.stall .requestPlace
    | some t =>
      let t := if a.bad.isEmpty then t else t.modCore c (fun x => x.dropNeg (a.bad.map (fun b => b.2.2.2 / 4096)))
      k a.ok (t.laneFaults p acc a.bad) t

/-! ### L1 (R261, R262) -/

/-- Cut a byte range of at most 64 bytes where sectors meet. -/
def cut64 (k n : Nat) : List (Nat × Nat) :=
  let room := 64 - k % 64
  if n ≤ room then [(k, n)] else [(k, room), (k + room, n - room)]

/-- Empty a core's L1. -/
def Core.flushL1 (c : Core) : Core := { c with l1 := [] }

/-- A store updates the sectors it covers that are valid (R157). -/
def Core.storeL1 (c : Core) (k : Nat) (data : List Byte) : Core :=
  let upd := fun (b : List Byte) (off : Nat) (d : List Byte) => b.take off ++ d ++ b.drop (off + d.length)
  ((cut64 k data.length).foldl (fun (a : Core × List Byte) p =>
    let cur := Sparse.get [] (sectorOf p.1) a.1.l1
    (if cur.isEmpty then a.1
      else { a.1 with l1 := Sparse.set [] (sectorOf p.1) (upd cur (p.1 % 64) (a.2.take p.2)) a.1.l1 }, a.2.drop p.2)) (c, data)).1

/-- The page lets L1 hold its sectors: home 00, and not a peer's memory (R259). -/
def l1Page (leaf : Word64) : Bool := fieldB leaf 5 4 == 0 && fieldB leaf 7 6 != 2

/-- A core's L1 holds a sector anew. A line without a place takes that of the lowest line while all 512 are held (R261; DESIGN CHOICE, log 50: R262
leaves the replacement open). -/
def Core.fillL1 (c : Core) (sec : Nat) (b : List Byte) : Core :=
  let lines := if c.l1.length < 512 then [] else (c.l1.map (·.1 / 8)).eraseDups
  let l1 := if lines.length < 512 ∨ lines.contains (sec / 8) then c.l1 else c.l1.filter (fun e => e.1 / 8 != lines.headD 0)
  { c with l1 := Sparse.set [] sec b l1 }

/-- A sector's bytes with the stores of the core that its home has not performed yet, in their order (R153, R177). -/
def Core.overlay (c : Core) (sec : Nat) (b : List Byte) : List Byte :=
  (c.wbuf.filter (fun x => !x.spad)).foldl (fun b x =>
    (cut64 x.key x.data.length).foldl (fun b p =>
      if sectorOf p.1 = sec then b.take (p.1 % 64) ++ (x.data.drop (p.1 - x.key)).take p.2 ++ b.drop (p.1 % 64 + p.2) else b) b) b

/-! ### Footprints at the slices (R325 to R334) -/

/-- A tile lies in a set of runs. -/
def tileIn (t : Nat) (l : List (Nat × Nat)) : Bool := l.any (fun r => r.1 ≤ t && t < r.1 + r.2)

/-- A tile seen at a slice, as one number. -/
def seenKey (slice tile : Nat) : Nat := slice * 2 ^ 45 + tile

/-- Record a tile in a slice's runs: at most 64 runs (R325). The second result is false when it did not fit. -/
def addSeen (l : List Nat) (slice tile : Nat) : List Nat × Bool :=
  let k := seenKey slice tile
  if l.contains k then (l, true)
  else if l.contains (k + 1) || (tile ≠ 0 && l.contains (k - 1)) then (l ++ [k], true)
  else
    let runs := (l.filter (fun x => x / 2 ^ 45 == slice && !(x % 2 ^ 45 != 0 && l.contains (x - 1)))).length
    if runs < 64 then (l ++ [k], true) else (l, false)

/-- The mark of an early launch on a tile. -/
def Ctx.markOf (x : Ctx) (l tile : Nat) : Option Mark := x.marks.find? (fun m => m.launch == l && m.tile == tile)

/-- Change the mark of a launch on a tile. -/
def Ctx.modMark (x : Ctx) (l tile : Nat) (g : Mark → Mark) : Ctx :=
  match x.markOf l tile with
  | some _ => { x with marks := x.marks.map (fun m => if m.launch == l && m.tile == tile then g m else m) }
  | none => { x with marks := x.marks ++ [g ⟨l, tile, false, false, []⟩] }

/-- The pre-image of a launch for a sector. -/
def Ctx.preOf (x : Ctx) (l sec : Nat) : Option PreImage := x.pre.find? (fun p => p.launch == l && p.sector == sec)

/-- The pre-image pool is full (R333, R334). -/
def Ctx.preFull (x : Ctx) : Bool := x.preUnits.toNat * 524288 ≤ x.pre.length

/-- The launches that are early with respect to `l`. -/
def State.earlyAfter (s : State) (l : Nat) : List Nat :=
  (s.launches.filter (fun e => e.2.early.contains l)).map (·.1)

/-- The stores under way of early launches of a context that need a pre-image which is not there yet: launch and sector (R333). -/
def State.preDue (s : State) (p : Nat) : List (Nat × Nat) :=
  (s.cores.flatMap (fun e => e.2.wbuf.flatMap (fun b => match (s.wg b.wg).launch with
    | some l => if (s.wg b.wg).pasid = p ∧ !b.spad ∧ (s.launch l).early ≠ [] then
        ((cut64 b.key b.data.length).map (fun q => (l, sectorOf q.1))).filter (fun q => ((s.ctx p).preOf q.1 q.2).isNone) else []
    | none => []))).eraseDups

/-- The pre-image pool has room for the sectors that a write of an early launch touches, beside those of the stores under way (R333, R334). -/
def State.preRoom (s : State) (l : Nat) (secs : List Nat) : Bool :=
  let p := (s.launch l).pasid
  let c := s.ctx p
  let new := (secs.map (fun x => (l, x))).filter (fun q => (c.preOf q.1 q.2).isNone)
  new.isEmpty || decide (c.pre.length + (s.preDue p ++ new).eraseDups.length ≤ c.preUnits.toNat * 524288)

/-- Why an access of a workgroup must wait at its home (R187, R331, R334). `kind` is 0 for a read, 1 for a write, 2 for a
cause-only request. -/
def State.holds (s : State) (w kind va key : Nat) : Option Wait :=
  match (s.wg w).launch with
  | none => none
  | some l =>
    let x := s.launch l
    if x.early = [] then none
    else
      let c := s.ctx x.pasid
      let t := va / 4096
      if isHost key || kind = 2 || (kind = 0 && !tileIn t x.rset) || (kind = 1 && !tileIn t x.wset) then some .predecessors
      else if (match c.markOf l t with | some m => m.held != [] | none => false) then some .predecessors
      else if kind = 1 && (c.preOf l (sectorOf key)).isNone && c.preFull then some .preImages
      else none

/-- Change the launch of a workgroup, if it has one. -/
def State.modLaunchOf (s : State) (w : Nat) (g : Launch → Launch) : State :=
  match (s.wg w).launch with | some l => s.modLaunch l g | none => s

/-- Note a request of a launch for learning and checking (R325, R329, R332): kind 0 read, 1 write, 2 cause only. Only a request that a home slice of this
module sees enters its runs: host memory, peer memory and pages of home 10 are causes alone (R256, R264). -/
def Launch.note (x : Launch) (kind va key : Nat) (leaf : Word64) : Launch :=
  let t := va / 4096
  match x.fp with
  | .strict => x
  | .learning =>
    let x := if kind = 2 then { x with sawAtomic := true } else x
    let x := if isHost key then { x with sawHost := true } else x
    let x := if isPeer key || fieldB leaf 5 4 == 2 then { x with sawRemote := true } else x
    if !isDevice key || fieldB leaf 5 4 == 2 then x
    else if kind = 0 then
      let r := addSeen x.learnR (sliceOf key) t
      { x with learnR := r.1, overflow := x.overflow || !r.2 }
    else if kind = 1 then
      let r := addSeen x.learnW (sliceOf key) t
      { x with learnW := r.1, overflow := x.overflow || !r.2 }
    else x
  | .checked =>
    if kind = 2 || isHost key then { x with causeOnly := true }
    else if kind = 0 then (if tileIn t x.rset then x else { x with strayed := true })
    else if tileIn t x.wset then x else { x with strayed := true }

/-- Note a request of a workgroup, with the mark of an early launch's first access (R330). -/
def State.noteAccess (w kind va key : Nat) (leaf : Word64) (s : State) : State :=
  let s := s.lockLine (pageNo (s.wg w).pasid (va / 4096)) key leaf
  match (s.wg w).launch with
  | none => s
  | some l =>
    let x := s.launch l
    let s := s.setLaunch l (x.note kind va key leaf)
    if x.early = [] then s
    else s.modCtx x.pasid (fun c => c.modMark l (va / 4096) (fun m =>
      { m with read := m.read || kind == 0, written := m.written || kind == 1 }))

/-- The darning record of a launch's first marking (R336). -/
def darnImage (chain : Bool) (d st : Launch) (tile : Nat) : Nat :=
  0x30 + chain.toNat * 2 ^ 8 + d.tag.toNat * 2 ^ 16 + st.tag.toNat * 2 ^ 24 + d.launchid.toNat * 2 ^ 32
  + st.launchid.toNat * 2 ^ 64 + tile * 4096 % 2 ^ 57 * 2 ^ 96 + d.queue * 2 ^ 160 + d.user.toNat * 2 ^ 192

/-- Mark launch `d` for darning by a stray of launch `l` into a tile; only the first marking writes a record (R336). -/
def State.markDarn (l tile : Nat) (s : State) (d : Nat) : State :=
  if (s.launch d).darnMarked then s
  else
    let s := s.modLaunch d (fun x => { x with darnMarked := true })
    s.putOrWait (s.launch d).pasid (darnImage (s.launch l).darning (s.launch d) (s.launch l) tile)
      { RecInfo.zero with kind := FKind.darning.code }

/-- The bytes that a workgroup finds at a sector's home: a predecessor's access outside one of its sets finds those of the pre-image where an early launch
has written the sector (R331). -/
def State.bytesFor (s : State) (set : Launch → List (Nat × Nat)) (w va k n : Nat) : List Byte :=
  let mem := rdBytes s.mem k n
  match (s.wg w).launch with
  | none => mem
  | some l =>
    let x := s.launch l
    if x.fp ≠ .checked ∨ tileIn (va / 4096) (set x) then mem
    else match (s.earlyAfter l).findSome? (fun d => (s.ctx x.pasid).preOf d (sectorOf k)) with
      | some p => (p.data.drop (k % 64)).take n
      | none => mem

/-- What a read gets (R331). -/
def State.homeRead (s : State) (w va k n : Nat) : List Byte := s.bytesFor Launch.rset w va k n

/-- The number that an atomic operation finds; it counts as a write (R329, R331). -/
def State.atomRead (s : State) (w va k n : Nat) : Nat := ofBytes (s.bytesFor Launch.wset w va k n)

/-- Set or clear bits of a 64-bit byte mask from offset `o` for `n` bytes. -/
def byteMask (o n : Nat) : BitVec 64 := BitVec.ofNat 64 ((2 ^ n - 1) * 2 ^ o)

/-- Replace bytes of a sector image. -/
def spliceAt (l : List Byte) (o : Nat) (d : List Byte) : List Byte := l.take o ++ d ++ l.drop (o + d.length)

/-- A pre-image with the check value of its data (R333). -/
def preImage (l sec : Nat) (data : List Byte) (mask : BitVec 64) : PreImage := ⟨l, sec, data, mask, crc32c data⟩

/-- Write the bytes of a piece of one sector that a mask leaves free. -/
def State.writeFree (s : State) (k : Nat) (data : List Byte) (taken : BitVec 64) : State :=
  if taken &&& byteMask (k % 64) data.length = 0 then s.homeWrite k data
  else ((List.range data.length).filter (fun i => !taken.getLsbD (k % 64 + i))).foldl
    (fun t i => t.homeWrite (k + i) [data.getD i 0]) s

/-- A write of a launch to a piece of one sector at its home: pre-images of an early launch (R333), and a predecessor's stray
against each early launch (R331). -/
def State.launchWrite (l va k : Nat) (data : List Byte) (s : State) : State :=
  let x := s.launch l
  let t := va / 4096
  let sec := sectorOf k
  if x.early ≠ [] then
    let c := s.ctx x.pasid
    let s : State := match c.preOf l sec with
      | some _ => s.modCtx x.pasid (fun (y : Ctx) => { y with pre := y.pre.map (fun (p : PreImage) =>
          if p.launch == l && p.sector == sec then { p with mask := p.mask ||| byteMask (k % 64) data.length } else p) })
      | none =>
        if c.preFull then s
        else s.modCtx x.pasid (fun (y : Ctx) => { y with pre := y.pre ++
          [preImage l sec (rdBytes s.mem (64 * sec) 64) (byteMask (k % 64) data.length)] })
    s.homeWrite k data
  else if x.fp = .checked ∧ !tileIn t x.wset then
    let es := s.earlyAfter l
    let c := s.ctx x.pasid
    let reads := es.filter (fun d => match c.markOf d t with | some m => m.read | none => false)
    let wrote := es.filter (fun d => match c.markOf d t with | some m => m.written | none => false)
    let clean := es.filter (fun d => match c.markOf d t with | some m => !m.written && !m.read | none => true)
    let taken := (wrote.filterMap (fun d => (c.preOf d sec).map (·.mask))).foldl (· ||| ·) 0
    let s := s.modCtx x.pasid (fun y =>
      let y := clean.foldl (fun z d => z.modMark d t (fun m => { m with held := l :: m.held })) y
      { y with pre := y.pre.map (fun p => if wrote.contains p.launch && p.sector == sec
          then preImage p.launch sec (spliceAt p.data (k % 64) data) p.mask else p) })
    let s := reads.foldl (State.markDarn l t) s
    s.writeFree k data taken
  else s.homeWrite k data

/-- Perform a write of a workgroup at its home. -/
def State.performWrite (w va k : Nat) (data : List Byte) (s : State) : State :=
  match (s.wg w).launch with
  | none => s.homeWrite k data
  | some l =>
    ((cut64 k data.length).foldl (fun (a : State × List Byte × Nat) p =>
      (a.1.launchWrite l a.2.2 p.1 (a.2.1.take p.2), a.2.1.drop p.2, a.2.2 + p.2)) (s, data, va)).1

/-! ### Reads -/

/-- Read a piece of one sector through the L1: a hit, or a fill of the sector from its home with the core's own stores under way (R153, R261). None for
the bytes says that the sector is bad. -/
def State.readL1 (c w va k n : Nat) (leaf : Word64) (s : State) : Option (List Byte) × State :=
  let cur := Sparse.get [] (sectorOf k) (s.core c).l1
  if !cur.isEmpty then (some ((cur.drop (k % 64)).take n), s)
  else if s.sectorBad (sectorOf k) then (none, s)
  else
    let b := (s.core c).overlay (sectorOf k) (s.homeRead w va (64 * sectorOf k) 64)
    (some ((b.drop (k % 64)).take n), (s.noteL2 leaf (c + 1) false k n).modCore c (fun x => x.fillL1 (sectorOf k) b))

/-- The core's L1 serves a part of a weak access: the page allows it, and every sector is there (R261). -/
def State.l1Has (s : State) (c : Nat) (p : Nat × Nat × Word64) : Bool :=
  l1Page p.2.2 && (cut64 p.1 p.2.1).all (fun q => !(Sparse.get [] (sectorOf q.1) (s.core c).l1).isEmpty)

/-- Read a piece of one sector past the L1. The core's copy goes at once, which R262 allows as an eviction, so that no later weak load of the core gets
an older value (R261; DESIGN CHOICE, log 50). -/
def State.readHome (c w va k n : Nat) (leaf : Word64) (s : State) : Option (List Byte) × State :=
  (if s.sectorBad (sectorOf k) then none else some (s.homeRead w va k n),
    ((s.noteL2 leaf (c + 1) false k n).modCore c (fun x => { x with l1 := Sparse.erase (sectorOf k) x.l1 })).reqPeer 9 k)

/-- Read the parts of a lane's access; `weak` reads may use the L1 where the page allows it, and then no home slice sees them (R261, R325). The second
result is the address of the first piece that lies in a bad sector (R162). -/
def State.readParts (weak : Bool) (c w : Nat) : List (Nat × Nat × Word64) → Nat → State → List Byte × Option Nat × State
  | [], _, s => ([], none, s)
  | p :: ps, va, s =>
    let one := fun (a : List Byte × Option Nat × State) (q : Nat × Nat) =>
      let at_ := va + (q.1 - p.1)
      let t := if weak && a.2.2.l1Has c (q.1, q.2, p.2.2) then a.2.2 else a.2.2.noteAccess w 0 at_ q.1 p.2.2
      let r := if weak && l1Page p.2.2 then t.readL1 c w at_ q.1 q.2 p.2.2 else t.readHome c w at_ q.1 q.2 p.2.2
      (a.1 ++ r.1.getD (List.replicate q.2 0), a.2.1.or (if r.1.isNone then some at_ else none), r.2)
    let h := (cut64 p.1 p.2.1).foldl one ([], none, s)
    let r := State.readParts weak c w ps (va + p.2.1) h.2.2
    (h.1 ++ r.1, h.2.1.or r.2.1, r.2.2)

/-- The sectors that the parts of a lane's access touch: its request places (R268). -/
def partSectors (l : List (Nat × Nat × Word64)) : List Nat := (l.flatMap (fun p => (cut64 p.1 p.2.1).map (fun q => sectorOf q.1))).eraseDups

/-- The request places of the accesses of a list of lanes (R268). -/
def placesOf (oks : List (Nat × List (Nat × Nat × Word64))) : Nat := (oks.map (fun o => (partSectors o.2).length)).foldl (· + ·) 0

/-! ### Ordering (R177, R178, R268) -/

/-- Two byte ranges meet. -/
def overlaps (k n j m : Nat) : Bool := k < j + m && j < k + n

/-- A store or reduction of the core that its home has not performed meets a range (R177). -/
def Core.unacked (c : Core) (k n : Nat) : Bool :=
  c.wbuf.any (fun b => overlaps k n b.key b.data.length) || c.reds.any (fun r => overlaps k n r.key (if r.wide then 8 else 4))

/-- Request places that the loads of a core hold: until their data lands (R268). -/
def State.loadsOut (s : State) (c : Nat) : Nat :=
  (s.fibres.map (fun e => if e.2.core == c then (e.2.pend.map (·.places)).foldl (· + ·) 0 else 0)).foldl (· + ·) 0

/-- The core has request places for `n` more accesses (R268). -/
def State.places (s : State) (c n : Nat) : Bool :=
  s.loadsOut c + (s.core c).wbuf.length + (s.core c).reds.length + n ≤ 1024

/-- Every earlier load-type access of the fibre has returned (R178). -/
def Fibre.loadsBack (x : Fibre) : Bool := x.pend.all (fun p => !p.load || p.arrived)

/-- An acquire at a scope: core invalidates nothing, wider scopes empty the core's L1 (R177). -/
def State.acquire (f scope : Nat) (s : State) : State :=
  if scope = 0 then s else s.modCore (s.fibre f).core Core.flushL1

/-- Complete the acquire parts of fibre `f` whose loads have all returned (R178). -/
def State.acquireDue (f : Nat) (s : State) : State :=
  let x := s.fibre f
  let ready := fun (a : Nat × Nat) => x.pend.all (fun p => !p.load || p.arrived || a.1 < p.id)
  if x.acqs.any ready then
    ((x.acqs.filter ready).foldl (fun t a => t.acquire f a.2) s).modFibre f (fun y => { y with acqs := y.acqs.filter (fun a => !ready a) })
  else s

/-- The fibre's earlier writes are acknowledged at a scope (R177): reductions, TSTs and ASTs at any scope (R166, R194), stores beyond
core scope. -/
def State.released (s : State) (f scope : Nat) : Bool :=
  let c := s.core (s.fibre f).core
  !(c.reds.any (fun r => r.fib == f)) && !(c.eng.any (fun e => e.fib == f && (e.kind == .tst || e.kind == .ast)))
  && (scope == 0 || !(c.wbuf.any (fun b => b.fib == f)))

/-- An acquire part is filed; it completes at once when no load of the fibre is under way (R178). -/
def State.addAcq (f scope : Nat) (s : State) : State :=
  (s.modFibre f (fun x => { x with acqs := x.acqs ++ [(x.nextId, scope)] })).acquireDue f

/-- A release of fibre `f` has been performed: the core's latest core-scope release (R180). -/
def State.didRelease (f : Nat) (s : State) : State := s.modCore (s.fibre f).core (fun x => { x with rel := x.nextId })

/-- Host ports that carried a write of fibre `f` which no flushing read has followed (R284). -/
def State.portsOf (s : State) (f : Nat) : List Bool :=
  let l := ((s.core (s.fibre f).core).posted.filter (fun e => e.1 == f)).map (·.2)
  if l.isEmpty then [] else [false, true].filter (fun b => l.contains b)

/-- One flushing read goes to each host port that carried a write of fibre `f` (R284). -/
def State.flushPorts (f : Nat) (s : State) : State :=
  ((s.portsOf f).foldl (fun t b => t.emit (.flush b)) s).modCore (s.fibre f).core (fun x => { x with posted := x.posted.filter (fun e => e.1 != f) })

/-- Run a release part before `k`: wait for acknowledgements, and at system scope for the flushing reads that follow posted host writes, which have
returned when the instruction is tried again (R177, R284); a failed write gives the data-check fault (R274). -/
def State.withRelease (scope : Nat) (k : State → State) (s : State) : State :=
  if !s.released s.cur.fib scope then s.stall .acknowledge
  else if s.me.wfail then (s.modMe (fun x => { x with wfail := false })).precise .dataCheck 0
  else if scope = 4 ∧ (s.core s.me.core).posted.any (fun e => e.1 == s.cur.fib) then ((s.flushPorts s.cur.fib).stall .acknowledge).wake
  else k (s.didRelease s.cur.fib)

/-- Run an acquire part of a waiting instruction before `k` (R178). -/
def State.withAcquire (scope : Nat) (k : State → State) (s : State) : State :=
  if !s.me.loadsBack || !s.me.acqs.isEmpty then s.stall .acquire else k (s.acquire s.cur.fib scope)

/-! ### Pending writes of loads -/

/-- A pending write of a lane of an instruction of the issuing fibre; its shadow counts the instruction itself. `bad` is the address at which its data
fails a check, if it does. -/
def State.newPend (la op lane : Nat) (vals : List PVal) (bad : Option Nat) (addr : Nat) (s : State) : Pend :=
  { id := s.me.nextId, op := op, lane := lane, vals := vals, shadow := la + 1, arrived := false, fut := none, eng := none, load := true, gath := false,
    bad := bad.isSome, flanes := maskOf [lane], places := 1, addr := bad.getD addr, pc := s.cur.pc, npc := s.cur.npc }

/-- An older pending write loses the values that a younger one of another instruction will write (R53 rule 2). -/
def Pend.yield (p old : Pend) : Pend :=
  if old.op = p.op then old else { old with vals := old.vals.filter (fun x => !(p.vals.any (fun y => y.reg == x.reg && y.lane == x.lane))) }

/-- Record a pending write; it takes the place of older ones of its registers and lanes, which only its issue inside their shadow allows. -/
def State.addPend (p : Pend) (s : State) : State :=
  s.modMe (fun x => { x with pend := x.pend.map p.yield ++ [p], nextId := x.nextId + 1 })

/-- Values that an instruction has at its issue, but writes behind its shadow (R52, R53). -/
def State.lateVals (la : Nat) (vals : List PVal) (s : State) : State :=
  s.addPend { s.newPend la s.me.nextId 32 vals none 0 with arrived := true, load := false, places := 0 }

/-- The values of `k` registers from `n` in a lane, low word first. -/
def regVals (ph n k lane : Nat) (x : Nat) : List PVal :=
  (List.range k).map (fun i => ⟨.v (ph + n + i), lane, BitVec.ofNat 64 (bits x (32 * i + 31) (32 * i))⟩)

end Machine

end Sys2Proof
end

