-- ==== Sys2Proof/Machine/LoadStore.lean ====
section
/-! DEFINITION. Loads, stores, scratchpad accesses, atomics and futures (R149 to R174). -/

namespace Sys2Proof

namespace Machine

/-! ### Widths (R64, R155) -/

/-- Bytes of a width code. -/
def wBytes (w : Nat) : Nat := match w with | 0 => 1 | 1 => 2 | 2 => 4 | 3 => 8 | 4 => 16 | 5 => 1 | _ => 2

/-- Registers of a width code. -/
def wRegs (w : Nat) : Nat := match w with | 3 => 2 | 4 => 4 | _ => 1

/-- The value a load gives: i8 and i16 sign-extended, the others zero-extended (R156). -/
def wExtend (w : Nat) (to_ : Nat) (x : Nat) : Nat := if w = 5 then wrap to_ (toSigned 8 x) else if w = 6 then wrap to_ (toSigned 16 x) else x

/-- The value held by `k` registers from `n` in a lane, low word first. -/
def State.regsVal (s : State) (n k l : Nat) : Nat :=
  (List.range k).foldl (fun x i => x + (s.rv (n + i) l).toNat * 2 ^ (32 * i)) 0

/-- The effective address of a vector base (R149). -/
def State.ea (s : State) (b : BitVec 7) (ofs : BitVec 26) (l : Nat) : Nat := (s.rv2 b.toNat l + ofs.signExtend 64).toNat

/-- The issuing fibre runs a task of a record (R225). -/
def State.inTask (s : State) : Bool := s.myWg.isTask

/-- The issuing fibre runs a kernel marked `.task` (R17, R188). -/
def State.markedTask (s : State) : Bool := s.inTask || s.myWg.descr.testBit 71

/-- The active lanes that are no helper lanes (R151). -/
def State.doers (s : State) : Mask := s.cur.active &&& ~~~s.me.helper

/-- Why some lane of a list must wait at its home: each part by its own tile (R331), and a write of an early launch for room among the pre-images; a
fibre that has begun to wait for them does so until its predecessors have confirmed (R334). Kind 3 is a weak read: what the core's L1 serves reaches no
home (R261, R325). -/
def State.holdAny (s : State) (kind : Nat) (va : Nat → Nat) (oks : List (Nat × List (Nat × Nat × Word64))) : Option Wait :=
  let w := s.me.wg
  let each := oks.findSome? (fun o =>
    (o.2.foldl (fun (a : Option Wait × Nat) p =>
      (a.1.or (if kind = 3 then (if s.l1Has s.me.core p then none else s.holds w 0 a.2 p.1) else s.holds w kind a.2 p.1), a.2 + p.2.1)) (none, va o.1)).1)
  match each, (s.wg w).launch with
  | none, some l =>
    let secs := oks.flatMap (fun o => partSectors o.2)
    if kind = 1 ∧ (s.launch l).early ≠ [] ∧ (!s.preRoom l secs
        ∨ (s.me.status = .blocked .preImages ∧ secs.any (fun x => ((s.ctx (s.launch l).pasid).preOf l x).isNone))) then some .preImages
    else none
  | r, _ => r

/-- Some lane's access meets a store or reduction of the core that is not acknowledged. -/
def State.meetsWrites (s : State) (oks : List (Nat × List (Nat × Nat × Word64))) : Bool :=
  let c := s.core s.me.core
  if c.wbuf.isEmpty && c.reds.isEmpty then false else oks.any (fun o => o.2.any (fun p => c.unacked p.1 p.2.1))

/-! ### Loads -/

/-- Issue the load of one lane: read now, land at its arrival (R152, log 6). -/
def State.loadLane (weak : Bool) (la op : Nat) (va : Nat → Nat) (mk : Nat → List Byte → List PVal) (gath : Bool)
    (s : State) (o : Nat × List (Nat × Nat × Word64)) : State :=
  let r := s.readParts weak s.me.core s.me.wg o.2 (va o.1)
  let t := r.2.2
  t.addPend { t.newPend la op o.1 (mk o.1 r.1) r.2.1 (va o.1) with gath := gath, places := (partSectors o.2).length }

/-- A load with cache hint 1 marks the lines of L2 that it reads first for eviction, one with hint 2 has them kept in preference (R157). -/
def State.hintLines (c : Nat) (oks : List (Nat × List (Nat × Nat × Word64))) (s : State) : State :=
  if c ≠ 1 ∧ c ≠ 2 then s
  else
    let lines := ((oks.flatMap (fun o => partSectors o.2)).map (· / 8)).eraseDups
    s.modDev (fun d => { d with hint := (lines.filter (fun l => Sparse.get 0 l d.l2 != 0)).foldl (fun m l => Sparse.set 0 l c m) d.hint })

/-- Run the loads of the lanes that pass the checks; `hint` is the cache hint. -/
def State.loadLanes (u : Uses) (hint : Nat) (weak : Bool) (la : Nat) (va : Nat → Nat) (mk : Nat → List Byte → List PVal) (acq : Option Nat)
    (oks : List (Nat × List (Nat × Nat × Word64))) (faults : List LFault) (s : State) : State :=
  if s.meetsWrites oks then s.stall .acknowledge
  else match s.holdAny (if weak then 3 else 0) va oks with
    | some w => s.stall w
    | none =>
      if !s.places s.me.core (placesOf oks) then s.stall .requestPlace
      else s.splitFaults faults u (fun _ t =>
        let op := t.me.nextId
        let t := (oks.foldl (State.loadLane weak la op va mk false) t).hintLines hint oks
        match acq with
        | some sc => t.addAcq t.cur.fib sc
        | none => t)

/-- A load-type instruction waits for an acquire part of the fibre that is not complete (R178). -/
def State.afterAcquire (k : State → State) (s : State) : State := if s.me.acqs.isEmpty then k s else s.stall .acquire

/-- A global load with a vector base. -/
def State.load (d b : BitVec 7) (la : BitVec 4) (w : BitVec 3) (weak : Bool) (hint : Nat) (acq : Option Nat) (ofs : BitVec 26) (s : State) : State :=
  let n := wBytes w.toNat
  let k := wRegs w.toNat
  let u := { (Uses.rdV b.toNat 2).and (Uses.wrV d.toNat k) with la := la.toNat }
  s.issue u (State.afterAcquire (fun t =>
    let va := t.ea b ofs
    let ph := 8 * t.me.base
    t.withAccess accRead n n (fun _ => true) va (lanesOf t.cur.active)
      (State.loadLanes u hint weak la.toNat va (fun l x => regVals ph d.toNat k l (wExtend w.toNat 32 (ofBytes x))) acq)))

/-- LD (R155 to R157). -/
def execLd (d b : BitVec 7) (l : BitVec 4) (w : BitVec 3) (o : Bool) (c : BitVec 3) (ofs : BitVec 26) (s : State) : Out' :=
  .next (s.load d b l w (!o && c != 3) c.toNat none ofs)

/-- LDACQ (R158). -/
def execLdacq (d b : BitVec 7) (l : BitVec 4) (w : BitVec 3) (c : BitVec 3) (ofs : BitVec 26) (s : State) : Out' :=
  .next (s.load d b l w false 0 (some c.toNat) ofs)

/-- LD6 (R162): 12 bytes into a group of three. -/
def execLd6 (d b : BitVec 7) (l : BitVec 4) (o : BitVec 2) (c : BitVec 3) (ofs : BitVec 26) (s : State) : Out' :=
  let u := { (Uses.rdV b.toNat 2).and (Uses.wrV d.toNat 3) with la := l.toNat }
  .next (s.issue u (State.afterAcquire (fun t =>
    let va := t.ea b ofs
    let ph := 8 * t.me.base
    t.withAccess accRead 12 4 (fun _ => true) va (lanesOf t.cur.active)
      (State.loadLanes u c.toNat (o == 0 && c != 3) l.toNat va (fun ln x => regVals ph d.toNat 3 ln (ofBytes x)) none))))

/-- A fault of a fibre-level operation is taken by every active lane (R161). -/
def State.allFaults (s : State) (fs : List LFault) : List LFault :=
  match fs with
  | [] => []
  | f :: _ => (lanesOf s.cur.active).map (fun l => { f with lane := l })

/-- A fault at the arrival of a fibre-level access is taken by every lane that was active (R161, R183). -/
def State.pendAll (s : State) (op : Nat) : State :=
  s.modMe (fun x => { x with pend := x.pend.map (fun p => if p.op = op then { p with flanes := s.cur.active } else p) })

/-- LDK (R161): one access, into a uniform. -/
def execLdk (d b : BitVec 7) (l : BitVec 4) (w : BitVec 3) (o : BitVec 2) (c : BitVec 3) (ofs : BitVec 26) (s : State) : Out' :=
  let n := wBytes w.toNat
  let u := { (Uses.rdU b.toNat).and (Uses.wrU d.toNat) with la := l.toNat }
  .next (s.issue u (State.afterAcquire (fun t =>
    let a := (t.usrc b.toNat + ofs.signExtend 64).toNat
    t.withAccess accRead n n (fun _ => true) (fun _ => a) [0] (fun oks fs q =>
      let q' := State.loadLanes u c.toNat (o == 0 && c != 3) l.toNat (fun _ => a)
        (fun _ x => [⟨.u d.toNat, 0, BitVec.ofNat 64 (wExtend w.toNat 64 (ofBytes x))⟩]) none oks (q.allFaults fs) q
      q'.pendAll q.me.nextId))))

/-! ### Stores -/

/-- Put one lane's store into the write buffer with its packet's check value (R273); the core's L1 copy is updated (R157, R177). -/
def State.bufferStore (key va : Nat) (data : List Byte) (fut spad l2 : Bool) (s : State) : State :=
  s.modCore s.me.core (fun c =>
    { (if spad then c else c.storeL1 key data) with
        wbuf := c.wbuf ++ [⟨c.nextId, s.cur.fib, s.me.wg, key, data, va, fut, spad, l2, crc32c data⟩], nextId := c.nextId + 1 })

/-- Store the data of one lane, part by part. -/
def State.storeLane (kind : Nat) (va : Nat → Nat) (data : Nat → List Byte) (fut : Bool) (s : State) (o : Nat × List (Nat × Nat × Word64)) : State :=
  (o.2.foldl (fun (a : State × List Byte × Nat) p =>
    ((a.1.noteAccess a.1.me.wg kind a.2.2 p.1 p.2.2).bufferStore p.1 a.2.2 (a.2.1.take p.2.1) fut false (l2Page p.2.2 p.1), a.2.1.drop p.2.1,
      a.2.2 + p.2.1))
    (s, data o.1, va o.1)).1

/-- Run the stores of the lanes that pass the checks; kind 2 is a cause-only request (R325). -/
def State.storeLanes (kind : Nat) (fut : Bool) (va : Nat → Nat) (data : Nat → List Byte)
    (oks : List (Nat × List (Nat × Nat × Word64))) (faults : List LFault) (s : State) : State :=
  match s.holdAny kind va oks with
  | some w => s.stall w
  | none =>
    if !s.places s.me.core (placesOf oks) then s.stall .requestPlace
    else s.splitFaults faults Uses.none (fun _ t => oks.foldl (State.storeLane kind va data fut) t)

/-- A global store; `rel` is the scope of a release before it. -/
def State.store (d b : BitVec 7) (w : BitVec 3) (rel : Option Nat) (ofs : BitVec 26) (s : State) : State :=
  let n := wBytes w.toNat
  let k := wRegs w.toNat
  s.issue ((Uses.rdV b.toNat 2).and (Uses.rdV d.toNat k)) (fun t =>
    let go := fun (q : State) =>
      let va := q.ea b ofs
      q.withAccess accWrite n n (fun _ => true) va (lanesOf q.doers)
        (State.storeLanes 1 false va (fun l => toBytes n (q.regsVal d.toNat k l)))
    match rel with
    | some sc => t.withRelease sc go
    | none => go t)

/-- Refused in a kernel marked `.task` (R188). -/
def State.notInTask (s : State) : Option FKind := if s.markedTask then some .illegalInstruction else none

/-- Issue under a decode check, then as the instruction does. -/
def State.guardIf (bad : Option FKind) (k : State → State) (s : State) : State := match bad with | some f => s.precise f 0 | none => k s

/-- ST (R155 to R157). -/
def execSt (d b : BitVec 7) (_l : BitVec 4) (w : BitVec 3) (_o : Bool) (_c : BitVec 3) (ofs : BitVec 26) (s : State) : Out' :=
  .next (s.guardIf s.notInTask (fun t => t.store d b w none ofs))

/-- STREL (R158). -/
def execStrel (d b : BitVec 7) (_l : BitVec 4) (w : BitVec 3) (c : BitVec 3) (ofs : BitVec 26) (s : State) : Out' :=
  .next (s.guardIf s.notInTask (fun t => t.store d b w (some c.toNat) ofs))

/-! ### Scratchpad (R159, R160, R254) -/

/-- The scratchpad address of a lane: a vector offset, or a uniform one plus lane × width (R159). -/
def State.spadAddr (s : State) (b : BitVec 7) (uni : Bool) (n : Nat) (ofs : BitVec 26) (l : Nat) : Nat :=
  ((if uni then (s.usrc b.toNat).extractLsb' 0 32 + BitVec.ofNat 32 (l * n) else s.rv b.toNat l) + ofs.signExtend 32).toNat

/-- The workgroup a scratchpad address names: the issuing one, or the member of its cluster group on the named core (R159). -/
def State.spadTarget (s : State) (w e : Nat) : Option Nat :=
  let x := s.wg w
  if bits e 23 23 = 0 then some w
  else (s.wgs.find? (fun y => y.2.cg == x.cg && y.2.cgSize == x.cgSize && y.2.core == x.core / 4 * 4 + bits e 22 21
    && y.2.state == .running && y.2.pasid == x.pasid)).map (·.1)

/-- What the checks of a scratchpad access find: core and physical offset, or a fault (R150, R159). -/
def State.spadCheck (s : State) (w n e : Nat) : Except FKind (Nat × Nat) :=
  if e % n ≠ 0 then .error .misaligned
  else if bits e 31 24 ≠ 0 then .error .scratchpadRange
  else match s.spadTarget w e with
    | none => .error .scratchpadRange
    | some t =>
      let x := s.wg t
      if x.ssize < bits e 20 0 + n then .error .scratchpadRange else .ok (x.core, x.sbase + bits e 20 0)

/-- A line of a core's scratchpad is present (R254). -/
def Core.present (c : Core) (off : Nat) : Bool := !(Sparse.get false (off / 128) c.absent)

/-- Run a scratchpad access: faults, then presence, then `k` on the lanes that pass. -/
def State.withSpad (acc n : Nat) (e : Nat → Nat) (lanes : List Nat) (k : List (Nat × Nat × Nat) → List LFault → State → State) (s : State) : State :=
  let rs := lanes.map (fun l => (l, s.spadCheck s.me.wg n (e l)))
  let oks := rs.filterMap (fun r => match r.2 with | .ok p => some (r.1, p.1, p.2) | .error _ => none)
  let bad := rs.filterMap (fun r => match r.2 with | .error f => some (⟨r.1, f, 0, acc, e r.1, 0⟩ : LFault) | .ok _ => none)
  if oks.any (fun o => !(s.core o.2.1).present o.2.2) then s.stall .presence else k oks bad s

/-- LDS (R159, R160). -/
def execLds (d b : BitVec 7) (l : BitVec 4) (w : BitVec 3) (k : Bool) (ofs : BitVec 26) (s : State) : Out' :=
  let n := wBytes w.toNat
  let r := wRegs w.toNat
  let u := { (if k then Uses.rdU b.toNat else Uses.rdV b.toNat 1).and (Uses.wrV d.toNat r) with la := l.toNat }
  .next (s.issue u (State.afterAcquire (fun t =>
    t.withSpad accRead n (t.spadAddr b k n ofs) (lanesOf t.cur.active) (fun oks bad q =>
      if oks.any (fun o => (q.core q.me.core).unacked (spadKey o.2.1 o.2.2) n) then q.stall .acknowledge
      else if !q.places q.me.core oks.length then q.stall .requestPlace
      else q.splitFaults bad u (fun _ t =>
        let op := t.me.nextId
        let ph := 8 * t.me.base
        oks.foldl (fun t o =>
          t.addPend (t.newPend l.toNat op o.1 (regVals ph d.toNat r o.1 (wExtend w.toNat 32 (rdNum t.mem (spadKey o.2.1 o.2.2) n)))
            (if (t.core o.2.1).ecc.contains (.line (o.2.2 / 128)) then some (t.spadAddr b k n ofs o.1) else none) (t.spadAddr b k n ofs o.1))) t)))))

/-- STS (R159, R160): into the core's own scratchpad at once, into another core's through the write buffer (R177). -/
def execSts (d b : BitVec 7) (_l : BitVec 4) (w : BitVec 3) (k : Bool) (ofs : BitVec 26) (s : State) : Out' :=
  let n := wBytes w.toNat
  let r := wRegs w.toNat
  .next (s.issue ((if k then Uses.rdU b.toNat else Uses.rdV b.toNat 1).and (Uses.rdV d.toNat r)) (fun t =>
    t.withSpad accWrite n (t.spadAddr b k n ofs) (lanesOf t.doers) (fun oks bad q =>
      if !q.places q.me.core oks.length then q.stall .requestPlace
      else q.splitFaults bad Uses.none (fun _ t =>
        oks.foldl (fun t o =>
          let data := toBytes n (t.regsVal d.toNat r o.1)
          if o.2.1 = t.me.core then { t with mem := wrBytes t.mem (spadKey o.2.1 o.2.2) data }
          else t.bufferStore (spadKey o.2.1 o.2.2) (t.spadAddr b k n ofs o.1) data false true false) t))))

/-! ### Atomics at the home (R163 to R166) -/

/-- The old f32 rule of ATOMP: the operand replaces the word (R165). -/
def atompTakes (isMax : Bool) (m v : Nat) : Bool :=
  let mv := Fmt.f32.decode (m / 2 ^ 32)
  let vv := Fmt.f32.decode (v / 2 ^ 32)
  let beats := if isMax then mv.lt vv else vv.lt mv
  let same := !(mv.lt vv) && !(vv.lt mv)
  !vv.isNan && (mv.isNan || beats || (same && v % 2 ^ 32 < m % 2 ^ 32))

/-- The new value of an atomic: code, width, old value, operand, new value of a cas (R164, R165). -/
def atomNew (code w m v new : Nat) : Nat :=
  let smin := if toSigned w v < toSigned w m then v else m
  let smax := if toSigned w m < toSigned w v then v else m
  match code with
  | 0 => (m + v) % 2 ^ w
  | 1 => smin
  | 2 => smax
  | 3 => min m v
  | 4 => max m v
  | 5 => Nat.land m v
  | 6 => Nat.lor m v
  | 7 => Nat.xor m v
  | 8 => v
  | 9 => if m = v then new else m
  | 10 => if v ≤ m then 0 else m + 1
  | 11 => if m = 0 ∨ v < m then v else m - 1
  | 12 => if w = 32 then (fpAdd .f32 .rne 0 m v 0).1 else if atompTakes true m v then v else m
  | _ =>
    if w = 32 then (fpAdd .bf16 .rne 0 (m % 65536) (v % 65536) 0).1 + (fpAdd .bf16 .rne 0 (m / 65536) (v / 65536) 0).1 * 65536
    else if atompTakes false m v then v else m

/-- Host memory offers only add, exch and cas (R164). -/
def atomSup (code : Nat) (leaf : Word64) : Bool := fieldB leaf 7 6 != 1 || code == 0 || code == 8 || code == 9

/-- A write failed at a bad sector or in transit: a data-check record, and the writer's next release takes the fault (R274, R275). -/
def State.writeFailed (f va : Nat) (s : State) : State :=
  (s.report { s.fibreRec f .dataCheck with src := 3, acc := accWrite, addr := va }
    { RecInfo.zero with fib := f, wg := (s.fibre f).wg }).modFibre f (fun x => { x with wfail := true })

/-- A packet of core `c` with these bytes reaches its home at once, unless an error in transit has spoilt its check value for good (R273, R274). -/
def State.sendPacket (c : Nat) (data : List Byte) (s : State) : Bool × State :=
  if (s.core c).lost then (packetOk data (spoilt data), s.modCore c (fun x => { x with lost := false })) else (packetOk data (crc32c data), s)

/-- An operation on a bad sector that is not performed poisons it (R275); a sector of a peer out of reach stays as it is (R369). -/
def State.blocked (key : Nat) (s : State) : State :=
  if s.peerCut key then s else s.modDev (fun d => { d with poison := Sparse.set false (sectorOf key) true d.poison })

/-- Perform one lane's atomic at the home; the second result says that the sector was bad and nothing was written (R275). One that leaves the value as it
was clears the future bit and is no write of memory (R168, R329). -/
def State.atomAt (s : State) (w va key n : Nat) (f : Nat → Nat) : Nat × Bool × State :=
  let m := s.atomRead w va key n
  if s.sectorBad (sectorOf key) then (m, true, s.blocked key)
  else if f m = m then (m, false, s.modDev (fun d => { d with fut := clearFut d.fut key n }))
  else (m, false, s.performWrite w va key (toBytes n (f m)))

/-- The scopes of the atomics' two-bit field (R163), as FENCE numbers them (R66). -/
def atomScope (c : Nat) : Nat := match c with | 0 => 0 | 1 => 2 | 2 => 3 | _ => 4

/-- The atomic of one lane: the home performs it, the core's L1 copy goes, and the old value is on its way (R153, R163, R261). A bad sector, or a packet that
fails, gives the lane the data-check fault and the fibre the record and the stop of R274 (R275). -/
def State.atomPart (code n d la op lane va : Nat) (t : State) (p : Nat × Nat × Word64) : State :=
  let t := t.noteAccess t.me.wg 2 va p.1 p.2.2
  let all := t.regsVal d (if code = 9 then 2 * (n / 4) else n / 4) lane
  let k := t.sendPacket t.me.core (toBytes (if code = 9 then 2 * n else n) all)
  let t := k.2
  let r := if k.1 then t.atomAt t.me.wg va p.1 n (fun m => atomNew code (8 * n) m (all % 2 ^ (8 * n)) (all / 2 ^ (8 * n))) else (0, true, t)
  let t := (r.2.2.noteL2 p.2.2 (t.me.core + 1) (!r.2.1) p.1 n).modCore t.me.core (fun c => { c with l1 := Sparse.erase (sectorOf p.1) c.l1 })
  let t := if r.2.1 && !t.peerCut p.1 then t.writeFailed t.cur.fib va else t
  (t.reqPeer 11 p.1).addPend (t.newPend la op lane (regVals (8 * t.me.base) d (n / 4) lane r.1) (if r.2.1 then some va else none) va)

/-- An ATOM of a width in bytes: performed at issue in ascending lane order; the old value lands at its arrival (R153, R163). -/
def State.atomic (code n : Nat) (d b : BitVec 7) (la : BitVec 4) (o sc : BitVec 2) (ofs : BitVec 26) (s : State) : State :=
  let k := n / 4
  let rd := if code = 9 then 2 * k else k
  let u := { ((Uses.rdV b.toNat 2).and (Uses.rdV d.toNat rd)).and (Uses.wrV d.toNat k) with la := la.toNat }
  s.issue u (State.afterAcquire (fun t =>
    let scope := atomScope sc.toNat
    let go := fun (q : State) =>
      let va := q.ea b ofs
      q.withAccess accRmw n n (atomSup code) va (lanesOf q.doers) (fun oks bad q =>
        if q.meetsWrites oks then q.stall .acknowledge
        else match q.holdAny 2 va oks with
          | some w => q.stall w
          | none =>
            if !q.places q.me.core (placesOf oks) then q.stall .requestPlace
            else q.splitFaults bad u (fun _ t =>
              let op := t.me.nextId
              let t := oks.foldl (fun t x => x.2.foldl (State.atomPart code n d.toNat la.toNat op x.1 (va x.1)) t) t
              if o = 1 ∨ o = 3 then t.addAcq t.cur.fib scope else t))
    if o = 2 ∨ o = 3 then t.withRelease scope go else go t))

/-- ATOM, 32-bit (R163, R164). -/
def execAtom (d b : BitVec 7) (l : BitVec 4) (w : BitVec 3) (o : BitVec 2) (x : Bool) (sc : BitVec 2) (ofs : BitVec 26) (s : State) : Out' :=
  .next (s.guardIf s.notInTask (fun t => t.atomic (8 * x.toNat + w.toNat) 4 d b l o sc ofs))

/-- ATOM, 64-bit (R163, R164). -/
def execAtom64 (d b : BitVec 7) (l : BitVec 4) (w : BitVec 3) (o : BitVec 2) (x : Bool) (sc : BitVec 2) (ofs : BitVec 26) (s : State) : Out' :=
  .next (s.guardIf s.notInTask (fun t => t.atomic (8 * x.toNat + w.toNat) 8 d b l o sc ofs))

/-- ATOMP (R165): max or min, codes 12 and 13 of the 64-bit width. -/
def execAtomp (d b : BitVec 7) (l : BitVec 4) (m : Bool) (o sc : BitVec 2) (ofs : BitVec 26) (s : State) : Out' :=
  .next (s.guardIf s.notInTask (fun t => t.atomic (12 + m.toNat) 8 d b l o sc ofs))

/-- The reduction of one lane is on its way to its home (R166). -/
def State.redPart (code : Nat) (z : Bool) (d op lane va : Nat) (t : State) (p : Nat × Nat × Word64) : State :=
  let t := t.noteAccess t.me.wg 2 va p.1 p.2.2
  t.modCore t.me.core (fun c =>
    let v : Word64 := BitVec.ofNat 64 (t.regsVal d (if z then 2 else 1) lane)
    { c with reds := c.reds ++ [⟨c.nextId, t.cur.fib, t.me.wg, op, p.1, va, code, z, v, l2Page p.2.2 p.1, crc32c (toBytes (if z then 8 else 4) v.toNat)⟩],
             nextId := c.nextId + 1 })

/-- RED (R166): counted by cnt.coll, performed at its home later; a RED in which no lane performs one completes at issue (R36). -/
def execRed (d b : BitVec 7) (_l : BitVec 4) (w : BitVec 3) (z r x : Bool) (sc : BitVec 2) (ofs : BitVec 26) (s : State) : Out' :=
  let code := 8 * x.toNat + w.toNat
  let n := if z then 8 else 4
  .next (s.guardIf s.notInTask (fun s => s.issue ((Uses.rdV b.toNat 2).and (Uses.rdV d.toNat (n / 4))) (fun t =>
    let go := fun (q : State) =>
      let va := q.ea b ofs
      q.withAccess accRmw n n (atomSup code) va (lanesOf q.doers) (fun oks bad q =>
        if 63 ≤ q.me.count .coll then q.stall .counter
        else match q.holdAny 2 va oks with
          | some w => q.stall w
          | none =>
            if !q.places q.me.core (placesOf oks) then q.stall .requestPlace
            else q.splitFaults bad Uses.none (fun _ t =>
              let op := t.me.nextId
              let t := t.modMe (fun y => { y.countUp .coll op with nextId := op + 1 })
              let t := oks.foldl (fun t o => o.2.foldl (State.redPart code z d.toNat op o.1 (va o.1)) t) t
              if oks.isEmpty then t.modMe (fun y => y.countDone .coll op) else t))
    if r then t.withRelease (atomScope sc.toNat) go else go t)))

/-! ### Futures (R168 to R173) -/

/-- Only device memory with home 00 or 11 holds futures (R168). -/
def futSup (leaf : Word64) : Bool := fieldB leaf 7 6 == 0 && (fieldB leaf 5 4 == 0 || fieldB leaf 5 4 == 3)

/-- Held requests of a slice (R170). -/
def State.defersAt (s : State) (slice : Nat) : Nat := (s.dev.defer.filter (fun x => sliceOf (8 * x.granule) == slice)).length

/-- One lane of an LDFUT: answered with data, held, or refused when the slice's buffer is full (R170); a bad sector gives the data-check fault, whatever its
future bit (R275). Lanes of one LDFUT share an entry. -/
def State.ldfutLane (la op k : Nat) (d : Nat) (va : Nat → Nat) (s : State) (o : Nat × List (Nat × Nat × Word64)) : State :=
  o.2.foldl (fun s p =>
    let s := s.noteAccess s.me.wg 2 (va o.1) p.1 p.2.2
    let s := (s.noteL2 p.2.2 (s.me.core + 1) false p.1 8).modCore s.me.core (fun c => { c with l1 := Sparse.erase (sectorOf p.1) c.l1 })
    let g := p.1 / 8
    let ph := 8 * s.me.base
    let bad := s.sectorBad (sectorOf p.1)
    let base := s.newPend la op o.1 [] (if bad then some (va o.1) else none) (va o.1)
    if bad || Sparse.get false g s.dev.fut then
      s.addPend { base with vals := regVals ph d k o.1 (rdNum s.mem p.1 8) ++ [⟨.p 14, o.1, 0⟩] }
    else if s.dev.defer.any (fun x => x.granule == g && x.fib == s.cur.fib && x.op == op) || s.defersAt (sliceOf p.1) < 256 then
      let s := if s.dev.defer.any (fun x => x.granule == g && x.fib == s.cur.fib && x.op == op) then s
        else s.modDev (fun dv => { dv with defer := dv.defer ++ [⟨g, s.cur.fib, op⟩] })
      s.addPend { base with fut := some g,
                            vals := (List.range k).map (fun i => ⟨.v (ph + d + i), o.1, BitVec.ofNat 64 i⟩) ++ [⟨.p 14, o.1, 2⟩] }
    else s.addPend { base with vals := [⟨.p 14, o.1, 1⟩] }) s

/-- LDFUT (R169, R170). -/
def execLdfut (d b : BitVec 7) (l : BitVec 4) (w : Bool) (ofs : BitVec 26) (s : State) : Out' :=
  let k := if w then 2 else 1
  let u := { ((Uses.rdV b.toNat 2).and (Uses.wrV d.toNat k)).and (Uses.wrP 14) with la := l.toNat }
  .next (s.issue u (State.afterAcquire (fun t =>
    let va := t.ea b ofs
    t.withAccess accRead 8 8 futSup va (lanesOf t.cur.active) (fun oks bad q =>
      if q.meetsWrites oks then q.stall .acknowledge
      else match q.holdAny 2 va oks with
        | some w => q.stall w
        | none =>
          if !q.places q.me.core (placesOf oks) then q.stall .requestPlace
          else q.splitFaults bad u (fun _ t => oks.foldl (State.ldfutLane l.toNat t.me.nextId k d.toNat va) t)))))

/-- STFUT (R169, R171): a device-scope release, then a store that sets the future bit. -/
def execStfut (d b : BitVec 7) (_l : BitVec 4) (w : Bool) (ofs : BitVec 26) (s : State) : Out' :=
  let k := if w then 2 else 1
  .next (s.guardIf s.notInTask (fun s => s.issue ((Uses.rdV b.toNat 2).and (Uses.rdV d.toNat k)) (State.withRelease 2 (fun q =>
    let va := q.ea b ofs
    q.withAccess accWrite 8 8 futSup va (lanesOf q.doers)
      (State.storeLanes 2 true va (fun l => toBytes (4 * k) (q.regsVal d.toNat k l)))))))

/-- The answer to the held requests of a granule: their data is on its way, and takes the place of what the L1 of a core that asked holds of the sector
(R171, R261). -/
def State.answerFut (g : Nat) (s : State) : State :=
  let x := rdNum s.mem (8 * g) 8
  let word := fun (v : Word64) =>
    if v = 0 then BitVec.ofNat 64 (x % 2 ^ 32) else if v = 1 then BitVec.ofNat 64 (x / 2 ^ 32) else 0
  let fill := fun (v : PVal) => { v with val := word v.val }
  let fibs := (s.dev.defer.filter (fun d => d.granule == g)).map (·.fib)
  let s := fibs.foldl (fun t f => (t.modFibre f (fun y => { y with pend := y.pend.map (fun p =>
    if p.fut = some g then { p with fut := none, vals := p.vals.map fill } else p) })).modCore (t.fibre f).core
      (fun c => { c with l1 := Sparse.erase (g / 8) c.l1 })) s
  s.modDev (fun d => { d with defer := d.defer.filter (fun y => y.granule != g) })

/-! ### Arrival, acknowledgement, performance -/

/-- Take lanes out of the run entries, on chip and spilled, and out of every arrived set, where they stay enrolled (R25, R338). -/
def Fibre.pull (m : Mask) (x : Fibre) : Fibre :=
  let out := fun (l : List Entry) => (l.map (fun e => if e.kind == .run then { e with mask := e.mask &&& ~~~m } else e)).filter (fun e => e.mask != 0)
  let cut := fun (r : Rejoin) => if r.arrived &&& ~~~m = 0 then { r with arrived := 0, wpc := 0, wnext := 0, wprio := 0 } else { r with arrived := r.arrived &&& ~~~m }
  { x with frontier := out x.frontier, spilled := out x.spilled, masks := x.masks.map (fun (j : Nat × Rejoin) => (j.1, cut j.2)) }

/-- The lanes that stand in no parked entry. -/
def Fibre.atLarge (x : Fibre) : Mask := x.lanes &&& ~~~((x.frontier.filter (fun e => e.kind == .parked)).foldl (fun m e => m ||| e.mask) 0)

/-- The priority of a lane's run entry, or of the mask it waits in. -/
def Fibre.prioOf (x : Fibre) (l : Nat) : BitVec 4 :=
  match (x.frontier ++ x.spilled).find? (fun e => e.kind == .run && e.mask.getLsbD l) with
  | some e => e.prio
  | none => match x.masks.find? (fun j => j.2.arrived.getLsbD l) with | some j => j.2.wprio | none => 0

/-- The data of a pending write fails its check at its return: the lanes concerned that are not parked take the data-check fault, wherever they stand
(R150 check 5, R161, R338), and its destinations stay held (R339). Lanes that are parked already take it once they are back; a lane that finds no parked
place or no room for its record takes it later. -/
def State.arriveBad (f : Nat) (x : Pend) (s : State) : State :=
  let y := s.fibre f
  let live := x.flanes &&& y.lanes
  let m := live &&& y.atLarge
  let owes := fun (keep : Mask) (l : List Pend) =>
    if keep = 0 then l.filter (fun p => p.id != x.id) else l.map (fun p => if p.id == x.id then { p with arrived := true, flanes := keep } else p)
  let back := fun (t : State) (keep : Mask) => t.modFibre f (fun z => ({ z with pend := owes keep z.pend } : Fibre).gathDone (if x.gath then [x.op] else []))
  let s' := if m = 0 then back s live
    else
      let old := s.cur
      let h := match y.parkedAt x.pc x.npc with | some e => if e.hold = 0 then y.nextId else e.hold | none => y.nextId
      let c : Cur := ⟨f, y.nextAge, x.pc, x.npc, m, m, y.prioOf ((lowestLane m).getD 0), Attr.none, false⟩
      match ({ s.modFibre f (Fibre.pull m) with cur := c } : State).parkLanes
          ((lanesOf m).map (fun l => ⟨l, .dataCheck, 0, accRead, x.addr, 0⟩)) x.pc x.npc h with
      | none => back s live
      | some t => back (({ t with cur := old } : State).modFibre f (fun z =>
          { z with nextId := y.nextId + 1,
                   frontier := z.frontier.map (fun e => if e.kind == .parked && !e.svc && e.pc == x.pc && e.resume == x.npc then { e with hold := h } else e),
                   held := z.held ++ [⟨h, x.vals.map (·.reg), x.pc, x.shadow⟩] })) (live &&& ~~~m)
  (((s'.settleFrontier f).rest f).acquireDue f).wake

/-- A state that differs only in what it lets try again is no change. -/
def State.orSame (s t : State) : State :=
  let u : State := { t with stalled := s.stalled }
  if u = s then s else t

/-- LOAD_DATA_ARRIVAL (R53, R152): the data of pending write `p` of fibre `f` returns; a bad sector gives the data-check fault
(R150 check 5), otherwise it lands when its shadow is over. -/
def State.arrive (f p : Nat) (s : State) : State :=
  match (s.fibre f).pend.find? (fun x => x.id == p && (!x.arrived || x.bad) && x.fut.isNone && x.eng.isNone) with
  | none => s
  | some x =>
    if x.bad then s.orSame (s.arriveBad f x)
    else
      let s := s.modFibre f (fun y => { y with pend := y.pend.map (fun z => if z.id == p then { z with arrived := true } else z) })
      ((s.landDue f).acquireDue f).wake

/-- LOAD_DATA_ARRIVAL (R152). -/
def execLoadDataArrival (f p : Nat) (s : State) : Out' := .next (s.arrive f p)

/-- A write of fibre `f` of core `c` went to host memory: one of the two ports carried it, which only a flushing read at that port makes sure of (R284). -/
def State.postHost (c f key : Nat) (s : State) : State :=
  if isHost key then { (s.modCore c (fun x => { x with posted := x.posted ++ [(f, (Config.freeWord s.tick).getLsbD 0)] })) with tick := s.tick + 1 } else s

/-- Entry `i` of the write buffer of core `c` is performed at its home. An entry that an older one overlaps, or that needs a place of a
full pre-image pool, is not performed yet. The home refuses a packet whose check value fails, and its writer is told (R273, R274). -/
def State.ackWrite (c i : Nat) (s : State) : State :=
  match (s.core c).wbuf.find? (fun b => b.id == i) with
  | none => s
  | some b =>
    let n := b.data.length
    let older := (s.core c).wbuf.any (fun x => decide (x.id < i) && overlaps b.key n x.key x.data.length)
    let oldRed := (s.core c).reds.any (fun r => decide (r.id < i) && overlaps b.key n r.key (if r.wide then 8 else 4))
    let held := !b.spad && s.holds b.wg 1 b.va b.key == some .preImages
    if older || oldRed || held then s
    else if !packetOk b.data b.check then
      ((s.modCore c (fun x => { x with wbuf := x.wbuf.filter (fun y => y.id != i) })).writeFailed b.fib b.va).wake
    else
      let bad := !b.spad && n < 64 && s.rangeBad b.key n && !s.peerCut b.key
      let s := (s.modCore c (fun x => { x with wbuf := x.wbuf.filter (fun y => y.id != i) })).postHost c b.fib b.key
      let s := if b.spad then { s with mem := wrBytes s.mem b.key b.data } else (s.performWrite b.wg b.va b.key b.data).reqPeer 10 b.key
      let s := if b.l2 && !bad then s.touchL2 (c + 1) true b.key n else s
      let s := if b.fut && !bad then
          (s.modDev (fun d => { d with fut := Sparse.set false (b.key / 8) true d.fut })).answerFut (b.key / 8)
        else s
      (if bad then s.writeFailed b.fib b.va else s).wake

/-- WRITE_ACKNOWLEDGE (R177, R266). -/
def execWriteAcknowledge (c i : Nat) (s : State) : Out' := .next (s.ackWrite c i)

/-- Reduction `i` of core `c` is performed at its home, which refuses a packet whose check value fails (R273, R274); cnt.coll falls when it is the last lane of
its RED. -/
def State.performRed (c i : Nat) (s : State) : State :=
  match (s.core c).reds.find? (fun r => r.id == i) with
  | none => s
  | some r =>
    let n := if r.wide then 8 else 4
    let older := (s.core c).wbuf.any (fun x => decide (x.id < i) && overlaps r.key n x.key x.data.length)
    let oldRed := (s.core c).reds.any (fun x => decide (x.id < i) && overlaps r.key n x.key (if x.wide then 8 else 4))
    if older || oldRed then s
    else
      let a := if packetOk (toBytes n r.val.toNat) r.check then s.atomAt r.wg r.va r.key n (fun m => atomNew r.code (8 * n) m (r.val.toNat % 2 ^ (8 * n)) 0)
        else (0, true, s)
      let s := (a.2.2.modCore c (fun x => { x with reds := x.reds.filter (fun y => y.id != i), l1 := Sparse.erase (sectorOf r.key) x.l1 })).reqPeer 11 r.key
      let s := if r.l2 && !a.2.1 then s.touchL2 (c + 1) true r.key n else s
      let s := if a.2.1 && !s.peerCut r.key then s.writeFailed r.fib r.va else s
      let s := if (s.core c).reds.any (fun y => y.fib == r.fib && y.op == r.op) then s
        else s.modFibre r.fib (fun y => y.countDone .coll r.op)
      s.wake

/-- RED_PERFORMED (R166). -/
def execRedPerformed (c i : Nat) (s : State) : Out' := .next (s.performRed c i)

/-- The walk of entry `i` of a core's list ends (R349, R350); a host page asks ATS unless its answer is known. A page of home 10
makes its context the owner of the named core's reserve (R256). -/
def State.walkDone (c i : Nat) (s : State) : State :=
  match (s.core c).walks[i]? with
  | none => s
  | some w =>
    if w.stage ≠ 0 then s
    else
      let drop := fun (x : Core) => { x with walks := x.walks.eraseIdx i }
      let put := fun (t : Tlb) (x : Core) => (drop x).putTlb t
      let s := match s.walk w.pasid w.vpn with
        | (.ok, leaf, _) => if fieldB leaf 7 6 = 0 ∧ fieldB leaf 5 4 = 2 then s.pinLoad w.pasid (fieldB leaf 59 52) else s
        | _ => s
      (match s.walk w.pasid w.vpn with
        | (.ok, leaf, frame) =>
          if fieldB leaf 7 6 = 1 then
            let a := Sparse.get 0 w.vpn (s.ctx w.pasid).ats
            if a = 0 then
              (s.modCore c (fun x => { x with walks := x.walks.set i { w with stage := 1 } })).emit (.atsRequest w.pasid w.vpn)
            else if a = 1 then s.modCore c (put (Tlb.mk w.pasid w.vpn .absent leaf 0))
            else s.modCore c (put (Tlb.mk w.pasid w.vpn .ok leaf (a - 2)))
          else s.modCore c (put (Tlb.mk w.pasid w.vpn .ok leaf frame))
        | (st, _, _) => s.modCore c (put (Tlb.mk w.pasid w.vpn st 0 0))).wake

/-- TRANSLATION_WALK_DONE (R349, R350). -/
def execTranslationWalkDone (c i : Nat) (s : State) : Out' := .next (s.walkDone c i)

/-- Every table walk of a core ends (R219). -/
def State.walksDone (c : Nat) (s : State) : State := (List.range (s.core c).walks.length).reverse.foldl (fun t i => t.walkDone c i) s

/-- A context after its teardown: its configuration registers stay as software wrote them, and page-request indices are not used again at once; everything
else is as in a context that nothing has used. -/
def Ctx.fresh (c : Ctx) : Ctx :=
  { Ctx.zero with
    root := c.root, faultRing := c.faultRing, serviceRing := c.serviceRing, reqRing := c.reqRing, repRing := c.repRing, offcore := c.offcore,
    save := c.save, fptab := c.fptab, preBase := c.preBase, preUnits := c.preUnits, taskBase := c.taskBase, taskPlaces := c.taskPlaces,
    vectors := c.vectors, egress := c.egress, nextPrg := c.nextPrg, state := .gone }

/-- Where the state-store entries of a context are kept while core `c` works for another (R43): a place of no real core. -/
def storeOf (pasid c : Nat) : Nat := 1001 + 2 * (256 * pasid + c)

/-- A place of `storeOf` that belongs to a context. -/
def storeIs (pasid k : Nat) : Bool := 1001 ≤ k && (k - 1001) % 2 == 0 && (k - 1001) / 2 / 256 == pasid

/-- The rest of a teardown (R352 steps 3 to 6): once every translation and page request of the context has returned, its queues are unmapped,
its translations, pins and state-store entries are dropped, on the cores and where they were put aside, and the teardown is acknowledged. -/
def State.endTeardown (p : Nat) (s : State) : State :=
  let c := s.ctx p
  let asks := fun (w : Walk) => w.stage == 1 && w.pasid == p
  if c.state ≠ .ended ∨ !c.prgs.isEmpty ∨ !c.asked.isEmpty ∨ s.cores.any (fun e => e.2.walks.any asks) then s
  else
    let s : State := { s with cores := (s.cores.filter (fun e => !storeIs p e.1)).map (fun (e : Nat × Core) => (e.1,
      if e.2.lastPasid = some p then
        { e.2 with tlb := [], walks := [], l1 := [], icache := [], ss := [], lastPasid := none, lastLaunch := none } else e.2)) }
    let s := s.pinsOut p
    let s := s.modDev (fun d =>
      { d with queues := d.queues.map (fun (e : Nat × Queue) => (e.1, if e.2.pasid.toNat = p then { e.2 with mapped := false } else e.2)),
               locked := d.locked.filter (fun e => (e.2 - 1) / 2 ^ 45 != p) })
    ((s.modCtx p Ctx.fresh).emit (.tornDown p)).wake

/-- ATS_TRANSLATION_COMPLETION (R349): the host's answer for a page; the core's waiting walk ends with it. -/
def execAtsTranslationCompletion (c p vpn : Nat) (present : Bool) (frame : Nat) (s : State) : Out' :=
  let s := s.modCtx p (fun x => { x with ats := Sparse.set 0 vpn (if present then frame + 2 else 1) x.ats, asked := x.asked.filter (· != vpn) })
  let leaf := (s.walk p vpn).2.1
  let mine := fun (w : Walk) => w.stage == 1 && w.pasid == p && w.vpn == vpn
  .next (((if (s.core c).walks.any mine then
      (s.modCore c (fun x => ({ x with walks := x.walks.filter (fun w => !mine w) } : Core).putTlb (Tlb.mk p vpn (if present then .ok else .absent) leaf frame))).wake
    else s.wake).flushRecords p).endTeardown p)

/-- L1_SECTOR_EVICTION (R262). -/
def execL1SectorEviction (c sector : Nat) (s : State) : Out' :=
  .next (s.modCore c (fun x => { x with l1 := Sparse.erase sector x.l1 }))

end Machine

end Sys2Proof
end

