-- ==== Sys2Proof/Machine/Counter.lean ====
section
/-! DEFINITION. The signal unit: timeline counters, their grants and the queues that wait on them (R299 to R301). -/

namespace Sys2Proof

namespace Machine

/-- Counter `i`. -/
def State.counter (s : State) (i : Nat) : Word64 := Sparse.get 0 i s.dev.counters

/-- A grant of a counter or link to a context holds, but for those that a frozen context holds too, which the work of others does not change (R299, R302, R360;
DESIGN CHOICE, log 15: such a use is refused as one without a grant). -/
def State.grantOk (s : State) (l : List (Nat × Nat)) (pasid i : Nat) : Bool :=
  l.contains (i, pasid) && s.dev.mgmt.frozen.all (fun q => q == pasid || !l.contains (i, q))

/-- Counter `i` is granted to a context (R299). -/
def State.ctrOk (s : State) (pasid i : Nat) : Bool := s.grantOk s.dev.ctrGrant pasid i

/-- Queue `q`. -/
def State.queue (s : State) (q : Nat) : Queue := Sparse.get Queue.zero q s.dev.queues

/-- Change queue `q`. -/
def State.modQueue (s : State) (q : Nat) (g : Queue → Queue) : State :=
  s.modDev (fun d => { d with queues := Sparse.modify Queue.zero q g d.queues })

/-- The packet at ring index `i` of a queue is complete. -/
def Queue.complete (x : Queue) (i : Word) : Queue := { x with open_ := x.open_.erase i }

/-- A parked queue's wait is satisfied: its packet completes and the queue may be mapped again (R300, R302). -/
def Queue.unpark (x : Queue) (clock : Nat) : Queue :=
  { x with state := .idle, open_ := x.open_.dropLast, readySince := clock }

/-- Every queue whose WAIT on counter `i` is satisfied goes on (R300). -/
def State.wakeWaiters (i : Nat) (s : State) : State :=
  let v := s.counter i
  let go := (s.dev.queues.filter (fun e => e.2.state == .onWait && e.2.waitCtr == i && e.2.waitThr ≤ v)).map (·.1)
  go.foldl (fun t q => t.modQueue q (fun x => x.unpark s.clock)) s

/-- Set counter `i` and wake its waiters. -/
def State.setCounter (i : Nat) (v : Word64) (s : State) : State :=
  (s.modDev (fun d => { d with counters := Sparse.set 0 i v d.counters })).wakeWaiters i

/-- The record of a counter operation that saturated (sub 0) or ran backward (sub 1) (R344). -/
def counterRec (r : FRec) (sub i : Nat) : FRec := { r with kind := .timeline, src := 2, sub := sub, detail := i }

/-- One operation of the signal unit: 0 add, 1 write (R299). `r` holds the identity fields of its record. -/
def State.counterOp (r : FRec) (op i : Nat) (v : Word64) (s : State) : State :=
  let x := s.counter i
  if op = 0 then
    if 2 ^ 64 ≤ x.toNat + v.toNat then
      (s.setCounter i (BitVec.ofNat 64 0xFFFFFFFFFFFFFFFF)).report (counterRec r 0 i) RecInfo.zero
    else s.setCounter i (x + v)
  else if x ≤ v then s.setCounter i v
  else s.report (counterRec r 1 i) RecInfo.zero

/-- A record of context `p` that `t` has written, and `s` had not, waits for room in its fault queue. -/
def State.waitsMore (s t : State) (p : Nat) : Bool := decide ((s.ctx p).waiting.length < (t.ctx p).waiting.length)

/-- Do `k`; where a record that `k` writes finds the fault queue full, the event that wrote it waits with it, and nothing has happened yet (R342). -/
def State.withRoom (p : Nat) (k : State → State) (s : State) : State := if s.waitsMore (k s) p then s.faultRingWaits p else k s

/-- Apply held SIGs in issue order (R184). -/
def State.applySigs (r : FRec) (l : List HeldSig) (s : State) : State := l.foldl (fun t h => t.counterOp r h.op h.ctr h.val) s

/-- The active lanes that write (R151). -/
def State.someDoer (s : State) : Bool := s.doers != 0

/-- SIG (R184): a release, then the operation once; held for an early launch and for a task. A record of it that finds no room holds it (R342). With helper
lanes alone it checks its block and then does nothing, no release either (R151, R178; DESIGN CHOICE, log 49). -/
def execSig (b : BitVec 7) (_l : BitVec 4) (s : State) : Out' :=
  .next (s.issue ((Uses.rdU b.toNat).and (Uses.rdU (b.toNat + 1))) (fun t =>
    let x := t.ru b.toNat
    let ctr := fieldB x 11 0
    let op := fieldB x 13 12
    if fieldB x 63 15 ≠ 0 ∨ 2 ≤ op then t.precise .illegalInstruction 0
    else if !t.someDoer then t.finish
    else if !t.ctrOk t.myPasid ctr then
      t.splitFaults ((lanesOf t.cur.active).map (fun l => ⟨l, .protection, 0, accWrite, 0, 0⟩)) Uses.none (fun _ q => q)
    else t.withRelease (if fieldB x 14 14 = 0 then 2 else 4) (fun q =>
      let h : HeldSig := ⟨ctr, op, q.ru (b.toNat + 1)⟩
      let w := q.me.wg
      if q.inTask then (q.modWg w (fun y => { y with sigs := y.sigs ++ [h] })).finish
      else if (q.launchOf w).wasEarly then (q.modLaunchOf w (fun y => { y with sigs := y.sigs ++ [h] })).finish
      else
        let t := q.counterOp (q.fibreRec q.cur.fib .timeline) op ctr h.val
        if q.waitsMore t q.myPasid then (q.faultRingWaits q.myPasid).stall .recordRoom else t.finish)))

end Machine

end Sys2Proof
end

