-- ==== Sys2Proof/Machine/Sync.lean ====
section
/-! DEFINITION. Channel queues, ordering instructions, prefetch, heap allocation, counter waits, presence, gathers and staged
stores (R167, R175 to R186, R228, R229). -/

namespace Sys2Proof

namespace Machine

/-! ### Channel queues (R175, R176) -/

/-- The elements of queue `q` of a slot. -/
def Slot.qget (x : Slot) (q : Nat) : List Word := Sparse.get [] q x.queues

/-- Elements in a queue and places reserved in it (R175). -/
def Slot.qused (x : Slot) (q : Nat) : Nat :=
  (x.qget q).length + ((x.pushes.filter (fun p => p.q == q)).map (fun p => p.data.length)).foldl (· + ·) 0

/-- QPUSH (R175, R176): the data is read and the places are reserved at issue; the elements join the queue when every earlier write of the
fibre has landed. -/
def execQpush (q : BitVec 3) (a : BitVec 7) (s : State) : Out' :=
  .next (s.issue (Uses.rdV a.toNat 1) (fun t =>
    let k := t.slotOf t.cur.fib
    let data := (lanesOf t.cur.active).map (t.rv a.toNat)
    if 64 < (t.slot k).qused q.toNat + data.length then t.stall .queue
    else
      let t := t.modMe Fibre.closeShadows
      let t := t.modSlot k (fun x => { x with pushes := x.pushes ++ [⟨q.toNat, t.cur.fib, t.me.nextId, data⟩] })
      t.finish.pushDue k))

/-- QPOP (R175): removes one element per active lane in one event. -/
def execQpop (d : BitVec 7) (q : BitVec 3) (s : State) : Out' :=
  .next (s.issue (Uses.wrV d.toNat 1) (fun t =>
    let k := t.slotOf t.cur.fib
    let xs := (t.slot k).qget q.toNat
    let ls := lanesOf t.cur.active
    if xs.length < ls.length then t.stall .queue
    else
      let t := t.modSlot k (fun x => { x with queues := Sparse.set [] q.toNat (xs.drop ls.length) x.queues })
      (t.wv d.toNat t.cur.active (fun l => xs.getD (ls.idxOf l) 0)).finish))

/-- QLEN (R175). -/
def execQlen (d : BitVec 7) (q : BitVec 3) (s : State) : Out' :=
  .next (s.plain (Uses.wrU d.toNat) (fun t => t.wu d.toNat (BitVec.ofNat 64 (t.mySlot.qget q.toNat).length)))

/-! ### Ordering (R177 to R182) -/

/-- FENCE (R66, R179): kind 1 acquire, 2 release, 3 both; the release comes first. -/
def execFence (p : BitVec 3) (k : BitVec 2) (_l : BitVec 4) (s : State) : Out' :=
  .next (s.issue Uses.none (fun t =>
    let acq := fun (q : State) => if k.getLsbD 0 then q.withAcquire p.toNat State.finish else q.finish
    if k.getLsbD 1 then t.withRelease p.toNat acq else acq t))

/-- A drain probe to core `o`: every store it issued before its most recent core-scope release is performed (R180). -/
def State.drainProbe (o : Nat) (s : State) : State :=
  (((s.core o).wbuf.filter (fun b => b.id < (s.core o).rel)).map (·.id)).foldl (fun t i => t.ackWrite o i) s

/-- ACQR (R180). -/
def execAcqr (b : BitVec 7) (_l : BitVec 4) (s : State) : Out' :=
  .next (s.issue (Uses.rdU b.toNat) (fun t =>
    let c := t.me.core
    let va := (t.usrc b.toNat).toNat
    match t.checkPart c t.myPasid accRead (fun _ => true) va with
    | .miss v => (t.modCore c (fun x => x.askWalk t.myPasid v false)).stall .translation
    | .ok [(key, _, _)] =>
      let o := Sparse.get 0 (key / 512) t.dev.lastWriter
      let t := if isDevice key && o != 0 && o != c + 1 then t.drainProbe (o - 1) else t
      if isDevice key && o != 0 && o != c + 1 && (t.core (o - 1)).wbuf.any (fun x => x.id < (t.core (o - 1)).rel) then t.stall .acknowledge
      else t.withAcquire 2 State.finish
    | _ => t.withAcquire 2 State.finish))

/-- CINV (R181). -/
def execCinv (_l : BitVec 4) (s : State) : Out' :=
  .next (s.plain Uses.none (fun t => t.modCore t.me.core Core.flushL1))

/-- Bring the absent sectors of a line into a core's L1, as a load of a workgroup would, with the core's own stores under way (R261, R331). `va` is the
address of `key`. -/
def State.fillLine (c w va key : Nat) (s : State) : State :=
  (List.range 8).foldl (fun t i =>
    let sec := key / 512 * 8 + i
    if (Sparse.get [] sec (t.core c).l1).isEmpty && !t.sectorBad sec then
      t.modCore c (fun x => x.fillL1 sec (x.overlay sec (t.homeRead w va (64 * sec) 64)))
    else t) s

/-- PREF (R182): the line comes into L2, and for L1 the sectors of the line that are not there are filled. -/
def execPref (b : BitVec 7) (v : Bool) (_l : BitVec 4) (s : State) : Out' :=
  .next (s.plain (Uses.rdU b.toNat) (fun t =>
    let va := (t.usrc b.toNat).toNat
    match t.checkPart t.me.core t.myPasid accRead (fun leaf => fieldB leaf 5 4 == 0 || fieldB leaf 5 4 == 3) va with
    | .ok [(key, _, leaf)] =>
      if t.places t.me.core 1 then
        let t := t.touchPage (pageNo t.myPasid (va / 4096)) (t.me.core + 1) leaf false (key / 512 * 512) 512
        if v && l1Page leaf && isDevice key then t.fillLine t.me.core t.me.wg va key else t
      else t
    | _ => t))

/-! ### Heap, counter waits, presence (R183 to R186) -/

/-- The bump of a heap descriptor: the new `next`, or none when it does not fit (R183). -/
def bump (next limit size al : Nat) : Option (Nat × Nat) :=
  let a := (next + 2 ^ al - 1) % 2 ^ 64 / 2 ^ al * 2 ^ al
  if next ≤ a ∧ a + size ≤ limit then some (a, a + size) else none

/-- Only device or peer memory with home 00 or 11 holds a heap descriptor (R183). -/
def heapSup (leaf : Word64) : Bool := fieldB leaf 7 6 != 1 && (fieldB leaf 5 4 == 0 || fieldB leaf 5 4 == 3)

/-- The bump at the home of the descriptor; the address, or 0, is on its way (R183). At a bad sector, or when its packet fails, it is not performed, with the
data-check fault and the record and the stop of the writer (R274, R275). -/
def State.allocPart (la d va size al : Nat) (t : State) (p : Nat × Nat × Word64) : State :=
  let t := t.noteAccess t.me.wg 2 va p.1 p.2.2
  let k := t.sendPacket t.me.core (toBytes 8 (size + al * 2 ^ 32))
  let t := k.2
  let r := bump (t.atomRead t.me.wg va p.1 8) (t.atomRead t.me.wg va (p.1 + 8) 8) size al
  let bad := !k.1 || t.sectorBad (sectorOf p.1)
  let t := if bad then (if !k.1 then t else t.blocked p.1)
    else match r with
      | some n => t.performWrite t.me.wg va p.1 (toBytes 8 n.2)
      | none => t
  let t := (t.noteL2 p.2.2 (t.me.core + 1) (r.isSome && !bad) p.1 8).modCore t.me.core (fun c => { c with l1 := Sparse.erase (sectorOf p.1) c.l1 })
  let t := if bad && !t.peerCut p.1 then t.writeFailed t.cur.fib va else t
  (t.reqPeer 11 p.1).addPend { t.newPend la t.me.nextId 0 [⟨.u d, 0, BitVec.ofNat 64 ((r.map (·.1)).getD 0)⟩] (if bad then some va else none) va with flanes := t.cur.active }

/-- ALLOC (R183): performed at issue; the address lands at its arrival. With helper lanes alone it checks its block and then does nothing (R151; DESIGN CHOICE,
log 49). -/
def execAlloc (b d : BitVec 7) (l : BitVec 4) (s : State) : Out' :=
  let u := { ((Uses.rdU b.toNat).and (Uses.rdU (b.toNat + 1))).and (Uses.wrU d.toNat) with la := l.toNat }
  .next (s.issue u (State.afterAcquire (fun t =>
    let x := t.ru b.toNat
    let y := t.ru (b.toNat + 1)
    let al := fieldB y 35 32
    let va := fieldB x 56 0
    if fieldB x 63 57 ≠ 0 ∨ fieldB y 63 36 ≠ 0 ∨ al < 4 ∨ 12 < al then t.precise .illegalInstruction 0
    else if !t.someDoer then t.finish
    else t.withAccess accRmw 16 16 heapSup (fun _ => va) [0] (fun oks fs q =>
      if q.meetsWrites oks then q.stall .acknowledge
      else match q.holdAny 2 (fun _ => va) oks with
        | some w => q.stall w
        | none =>
          if !q.places q.me.core 1 then q.stall .requestPlace
          else q.splitFaults (q.allFaults fs) u (fun _ t =>
            oks.foldl (fun t o => o.2.foldl (State.allocPart l.toNat d.toNat va (fieldB y 31 0) al) t) t)))))

/-- The class of an engine counter by its code (R66). -/
def Cls.ofCode (c : Nat) : Cls := match c with | 0 => .copy | 1 => .mat | 2 => .gath | _ => .coll

/-- The presence mask of the 64 lines from a scratchpad address (R186). -/
def State.presenceMask (s : State) (e : Nat) : Word64 :=
  match s.spadTarget s.me.wg e with
  | none => 0
  | some t =>
    let x := s.wg t
    let c := s.core x.core
    let line := bits e 20 0 / 128
    BitVec.ofNat 64 (((List.range 64).filter (fun i => decide (128 * (line + i) < x.ssize) && c.present (x.sbase + 128 * (line + i)))).foldl
      (fun m i => m + 2 ^ i) 0)

/-- SPRES (R186): the mask is taken at issue and lands at its arrival. It is no load of R178, so an open acquire part does not hold it. -/
def execSpres (b d : BitVec 7) (l : BitVec 4) (s : State) : Out' :=
  let u := { (Uses.rdU b.toNat).and (Uses.wrU d.toNat) with la := l.toNat }
  .next (s.issue u (fun t =>
    let e := bits (t.usrc b.toNat).toNat 31 0
    let fs : List LFault := if bits e 31 24 = 0 then [] else [⟨0, .scratchpadRange, 0, accRead, e, 0⟩]
    t.splitFaults (t.allFaults fs) u (fun _ q =>
      if fs.isEmpty then q.addPend { q.newPend l.toNat q.me.nextId 0 [⟨.u d.toNat, 0, q.presenceMask e⟩] none e with places := 0 } else q)))

/-! ### Gathers (R167) -/

/-- The lanes of a list of element numbers 32 j + lane, each once. -/
def gathLanes (l : List Nat) : List Nat := (l.map (· % 32)).eraseDups

/-- Issue the gather of one lane: every element read now, landing together. -/
def State.gathLane (k d op la : Nat) (va : Nat → Nat) (oks : List (Nat × List (Nat × Nat × Word64))) (n : Nat) (s : State) (lane : Nat) :
    State :=
  let ph := 8 * s.me.base
  let mine := oks.filter (fun o => o.1 % 32 == lane)
  let one := fun (a : List PVal × Option Nat × State) (j : Nat) =>
    match oks.find? (fun o => o.1 == 32 * j + lane) with
    | none => a
    | some o =>
      let r := a.2.2.readParts false a.2.2.me.core a.2.2.me.wg o.2 (va o.1)
      (a.1 ++ regVals ph (d + k * j) k lane (ofBytes r.1), a.2.1.or r.2.1, r.2.2)
  let r := (List.range n).foldl one ([], none, s)
  r.2.2.addPend { r.2.2.newPend la op lane r.1 r.2.1 (va lane) with gath := true, places := (partSectors (mine.flatMap (·.2))).length }

/-- The request places of a gather: one for each sector that a lane reads (R268). -/
def gathPlaces (oks : List (Nat × List (Nat × Nat × Word64))) : Nat :=
  ((gathLanes (oks.map (·.1))).map (fun l => (partSectors ((oks.filter (fun o => o.1 % 32 == l)).flatMap (·.2))).length)).foldl (· + ·) 0

/-- The destinations that a gather's block names (R167). -/
def State.gathDest (b e : Nat) (s : State) : Uses :=
  let y := s.ru (b + 1)
  let n := fieldB y 9 7 + 1
  let k := fieldB y 10 10 + 1
  Uses.wrV e (n * k)

/-- GATH (R167). -/
def execGath (b d : BitVec 7) (l : BitVec 4) (s : State) : Out' :=
  .next (s.issue { (Uses.rdU b.toNat).and (Uses.rdU (b.toNat + 1)) with
      win := [(d.toNat, 1)], wr := if s.cur.gbad then (s.gathDest b.toNat d.toNat).wr else [], la := l.toNat } (fun t =>
    let x := t.ru b.toNat
    let y := t.ru (b.toNat + 1)
    let i := fieldB y 6 0
    let n := fieldB y 9 7 + 1
    let k := fieldB y 10 10 + 1
    let size := 4 * k
    let e := d.toNat
    let meets := i < e + n * k ∧ e < i + n
    if fieldB x 63 57 ≠ 0 ∨ fieldB y 63 11 ≠ 0 ∨ meets ∨ (k = 2 ∧ e % 2 ≠ 0) then t.precise .illegalInstruction 0
    else
      let u := { (Uses.rdV i n).and (Uses.wrV e (n * k)) with la := l.toNat }
      t.issue u (State.afterAcquire (fun q =>
        let va := fun (m : Nat) => (fieldB x 56 0 + (q.rv (i + m / 32) (m % 32)).toNat * size) % 2 ^ 64
        let ids := (List.range n).flatMap (fun j => (lanesOf q.cur.active).map (fun ln => 32 * j + ln))
        q.withAccess accRead size size (fun _ => true) va ids (fun oks fs q =>
          let badL := gathLanes (fs.map (·.lane))
          let firsts := badL.filterMap (fun ln => (fs.find? (fun f => f.lane % 32 == ln)).map (fun f => ({ f with lane := ln } : LFault)))
          let oks := oks.filter (fun o => !badL.contains (o.1 % 32))
          if 63 ≤ q.me.count .gath then q.stall .counter
          else if q.meetsWrites oks then q.stall .acknowledge
          else match q.holdAny 0 va oks with
            | some w => q.stall w
            | none =>
              if !q.places q.me.core (gathPlaces oks) then q.stall .requestPlace
              else q.splitFaults firsts u (fun _ q =>
                let op := q.me.nextId
                let q := if oks.isEmpty then q else q.modMe (fun z => z.countUp .gath op)
                (gathLanes (oks.map (·.1))).foldl (State.gathLane k e op l.toNat va oks n) q))))))

/-! ### Staged stores (R228, R229) -/

/-- Bytes of the staging area that an entry of a width takes. -/
def stageBytes (n : Nat) : Nat := if n = 16 then 32 else 16

/-- STG in a task: misaligned lanes fault, the others append entries; an STG that does not fit unpicks the task. -/
def State.stage (d b : BitVec 7) (w : BitVec 3) (ofs : BitVec 26) (s : State) : State :=
  let n := wBytes w.toNat
  let k := wRegs w.toNat
  s.issue ((Uses.rdV b.toNat 2).and (Uses.rdV d.toNat k)) (fun t =>
    let ls := lanesOf t.doers
    let bad := ls.filter (fun l => t.ea b ofs l % n != 0)
    let good := ls.filter (fun l => t.ea b ofs l % n == 0)
    let need := good.length * stageBytes n
    if t.myWg.stageSize < t.myWg.stagedUsed + need then t.trigger t.me.wg t.cur.pc
    else t.splitFaults (bad.map (fun l => ⟨l, .misaligned, 0, accWrite, t.ea b ofs l, 0⟩)) Uses.none (fun _ q =>
      q.modWg q.me.wg (fun x => { x with staged := x.staged ++ good.map (fun l => ⟨t.ea b ofs l, toBytes n (t.regsVal d.toNat k l), t.cur.pc⟩),
                                         stagedUsed := x.stagedUsed + need })))

/-- STG (R228, R229). -/
def execStg (d b : BitVec 7) (_l : BitVec 4) (w : BitVec 3) (ofs : BitVec 26) (s : State) : Out' :=
  .next (if s.inTask then s.stage d b w ofs else s.store d b w none ofs)

end Machine

end Sys2Proof
end

