-- ==== Sys2Proof/Machine/Engine.lean ====
section
/-! DEFINITION. The matrix engine: tiles, accumulators, products, quantisation (R189 to R204), and how engines reach memory. -/

namespace Sys2Proof

namespace Machine

/-! ### Parameter blocks and issue (R189) -/

/-- The uses of a block of `n` uniforms from `b`. -/
def Uses.block (b n : Nat) : Uses := (List.range n).foldl (fun u i => u.and (Uses.rdU (b + i))) Uses.none

/-- The values of a block. -/
def State.block (s : State) (b n : Nat) : List Nat := (List.range n).map (fun i => (s.ru (b + i)).toNat)

/-- Physical tile of a number of the workgroup; none beyond the allocation. -/
def State.tileOf (s : State) (n : Nat) : Option Nat := if n < s.myWg.ntile then some (s.myWg.tbase + n) else none

/-- Physical accumulator of a number of the workgroup. -/
def State.accOf (s : State) (n : Nat) : Option Nat := if n < s.myWg.nacc then some (s.myWg.abase + n) else none

/-- Resource numbers of the tile order (R190). -/
def resTile (t : Nat) : Nat := t
def resAcc (a : Nat) : Nat := 32 + a
def resEnt (e : Nat) : Nat := 64 + e

/-- An operation of the issuing fibre with nothing in it yet. -/
def State.newEng (s : State) (k : EngK) (blk reads writes : List Nat) : EngOp :=
  { id := (s.core s.me.core).nextId, fib := s.cur.fib, wg := s.me.wg, kind := k, blk := blk, sa := [], sb := [], bm := [],
    reads := reads, writes := writes, due := [], stalled := [], ent := none, ent2 := none, created := false, turn := 0, left := 0,
    pc := s.cur.pc, done := false, broken := false, preHeld := false }

/-- Hand an operation to the engines of the core: cnt.mat counts it; a full counter stalls (R36, R189). -/
def State.putEng (op : EngOp) (k : State → State) (s : State) : State :=
  if 63 ≤ s.me.count .mat then s.stall .counter
  else
    let s := s.modCore s.me.core (fun c => { c with eng := c.eng ++ [op], nextId := c.nextId + 1 })
    (k (s.modMe (fun x => x.countUp .mat op.id))).finish

/-- Every active lane takes a fault at issue (R189). -/
def State.laneFault (k : FKind) (acc addr : Nat) (s : State) : State :=
  s.splitFaults ((lanesOf s.cur.active).map (fun l => ⟨l, k, 0, acc, addr, 0⟩)) Uses.none (fun _ t => t)

/-! ### The tile order (R190) -/

/-- Two accesses conflict. -/
def meets (a b : List Nat) : Bool := a.any (fun x => b.contains x)

/-- Every earlier conflicting access of a core's tile order has been performed. -/
def Core.tileReady (c : Core) (id : Nat) (reads writes : List Nat) : Bool :=
  c.eng.all (fun o => decide (id ≤ o.id) || !(meets o.writes (reads ++ writes) || meets o.reads writes))
  && c.copies.all (fun o => decide (id ≤ o.id) || !(o.tile && (reads ++ writes).contains (resTile o.off)))

/-! ### Engines reach memory (R194, R207) -/

/-- A part of a sector that an engine transfers: its index in the operation, its virtual address and its bytes. -/
structure Sect where
  idx : Nat
  va : Nat
  len : Nat
deriving DecidableEq, Repr

/-- What an engine finds of a list of sectors: those it may transfer, with memory key and leaf; those with a fault; those that wait. -/
structure Xfer where
  ok : List (Nat × Nat × Word64)
  bad : List (Nat × FKind × Nat × Nat)
  wait : List Nat
deriving DecidableEq, Repr

/-- Earlier writes of a fibre at a core that meet a sector and are not acknowledged. -/
def Core.fibUnacked (c : Core) (f id k : Nat) : Bool :=
  c.wbuf.any (fun b => b.fib == f && decide (b.id < id) && overlaps (k / 64 * 64) 64 b.key b.data.length)
  || c.reds.any (fun r => r.fib == f && decide (r.id < id) && overlaps (k / 64 * 64) 64 r.key 8)

/-- Check sectors for an engine of core `c` one by one. -/
def State.xferEach (c w f id kind : Nat) (s : State) : List Sect → Xfer × State
  | [] => (⟨[], [], []⟩, s)
  | x :: l =>
    let r := State.xferEach c w f id kind s l
    let p := (s.wg w).pasid
    match s.checkPart c p kind (fun _ => true) x.va x.len with
    | .miss v => ({ r.1 with wait := x.idx :: r.1.wait }, r.2.modCore c (fun y => y.askWalk p v (kind == 1)))
    | .bad k sub va => ({ r.1 with bad := (x.idx, k, sub, va) :: r.1.bad }, r.2)
    | .ok [(key, _, leaf)] =>
      if (s.core c).fibUnacked f id key then ({ r.1 with wait := x.idx :: r.1.wait }, r.2)
      else if (s.holds w kind x.va key).isSome then ({ r.1 with wait := x.idx :: r.1.wait }, r.2)
      else if kind = 0 && s.sectorBad (sectorOf key) then ({ r.1 with bad := (x.idx, .dataCheck, 0, x.va) :: r.1.bad }, r.2)
      else ({ r.1 with ok := (x.idx, key, leaf) :: r.1.ok }, r.2)
    | .ok _ => r

/-- An operation of an engine that writes for an early launch waits for room among the pre-images, and once it has begun to until its predecessors have
confirmed (R334). -/
def State.engHeld (c w id : Nat) (secs : List Nat) (s : State) : Bool :=
  match (s.wg w).launch with
  | none => false
  | some l =>
    let x := s.launch l
    let held := (s.core c).eng.any (fun o => o.id == id && o.preHeld)
    x.early != [] && (!s.preRoom l secs || (held && secs.any (fun k => ((s.ctx x.pasid).preOf l k).isNone)))

/-- Check sectors for an engine of core `c` (R150, R187, R275, R334); `kind` 0 reads, 1 writes. Unknown pages are asked for. -/
def State.xferCheck (c w f id kind : Nat) (s : State) (l : List Sect) : Xfer × State :=
  let r := s.xferEach c w f id kind l
  if kind = 1 && s.engHeld c w id (r.1.ok.map (fun x => sectorOf x.2.1)) then
    ({ r.1 with ok := [], wait := r.1.ok.map (·.1) ++ r.1.wait },
      r.2.modCore c (fun y => { y with eng := y.eng.map (fun o => if o.id == id then { o with preHeld := true } else o) }))
  else r

/-- The sectors of an operation that touch a page: `items` lists its sectors still due with an address in each of their parts. -/
def sectorsIn (items : List Sect) (page : Nat) : List Nat := ((items.filter (fun x => x.va / 4096 == page)).map (·.idx)).eraseDups

/-- The lowest faulting address of a page: every part of a sector still due on it faults with its page, a sector with bad data alone (R343). -/
def lowestFault (items : List Sect) (k : FKind) (page addr : Nat) : Nat :=
  if k = .dataCheck then addr else ((items.filter (fun x => x.va / 4096 == page)).map (·.va)).foldl min addr

/-- The sectors that a fault of a group concerns: those that touch its page; with bad data the failing ones alone, so that the others go on (R207). -/
def faultSectors (items bad : List Sect) (k : FKind) (page : Nat) : List Nat := sectorsIn (if k = .dataCheck then bad else items) page

/-- Write the records of an engine's faults, one for each page, with the lowest and the number of the operation's sectors still due that touch the page
(R376); the result lists the sectors that the faults concern, which wait for service (R207). None while no page request can be sent. `secNum` gives the
sector of a checked part. -/
def State.xferReport (f id acc : Nat) (pc : Word64) (items : List Sect) (secNum : Nat → Nat) (bad : List (Nat × FKind × Nat × Nat)) (s : State) :
    Option (List Nat × State) :=
  let w := (s.fibre f).wg
  let p := (s.wg w).pasid
  match s.ensurePrgs p acc bad with
  | none => none
  | some t =>
    let t := t.modCore (t.fibre f).core (fun c => c.dropNeg (bad.map (fun b => b.2.2.2 / 4096)))
    let lf := t.laneFaults p acc bad
    let gs := groups lf
    let bs := (bad.filter (fun b => b.2.1 == .dataCheck)).map (fun b => (⟨secNum b.1, b.2.2.2, 1⟩ : Sect))
    some ((gs.flatMap (fun g => faultSectors items bs g.kind g.page)).eraseDups, gs.foldl (fun t g =>
      let secs := sectorsIn items g.page
      t.report { t.fibreRec f g.kind with src := 1, acc := acc, sub := g.sub, addr := lowestFault items g.kind g.page g.addr, detail := g.detail, pc := pc,
                                          sfirst := secs.foldl min (secs.headD 0), scount := secs.length }
        { RecInfo.zero with fib := f, wg := w, page := g.page, op := id, what := 1,
                            prg := if g.kind = .translation ∧ g.sub = 2 then some g.detail else none }) t)

/-- A write packet of an engine at its home; the line's last writer is the core (R265). A packet that fails in transit, or that would write a part of a bad
sector, is not performed, with the record and the stop of the writer (R274, R275). One to host memory is posted (R284). -/
def State.engWrite (c f w va key : Nat) (leaf : Word64) (data : List Byte) (s : State) : State :=
  let k := s.sendPacket c data
  if !k.1 then k.2.writeFailed f va
  else
    let bad := data.length < 64 && k.2.rangeBad key data.length && !k.2.peerCut key
    let s := ((k.2.performWrite w va key data).postHost c f key).reqPeer 10 key
    if bad then s.writeFailed f va else s.noteL2 leaf (c + 1) true key data.length

/-! ### Rectangles: TLD, TST, ALD, AST (R193, R202) -/

/-- One piece of a transfer: a virtual address, an offset in the tile or accumulator, a length in memory. -/
structure Piece where
  va : Nat
  off : Nat
  len : Nat
deriving DecidableEq, Repr

/-- Element size of a memory type of R202. -/
def mtSize (mt : Nat) : Nat := match mt with | 1 => 2 | 2 => 2 | 3 => 8 | _ => 4

/-- The pieces of an operation, row by row: 16 bytes each for a tile, one element each for an accumulator. -/
def EngOp.rows (o : EngOp) : List Piece :=
  let a := o.blk.getD 0 0
  let b := o.blk.getD 1 0
  match o.kind with
  | .tld | .tst =>
    let n := bits b 25 16 + 1
    (List.range (bits b 15 6 + 1)).flatMap (fun r => (List.range n).map (fun i =>
      ⟨bits a 56 0 + r * bits b 57 32 + 16 * i, 16 * (r * n + i), 16⟩))
  | .ald | .ast =>
    let n := mtSize (bits b 8 6)
    let wide := bits b 8 6 = 3
    (List.range (bits b 27 21 + 1)).flatMap (fun i => (List.range (bits b 41 35 + 1)).map (fun j =>
      let row := bits b 20 14 + i
      let col := bits b 34 28 + j
      ⟨bits a 56 0 + i * bits b 63 42 + j * n, if wide then 8 * (64 * row + col) else 4 * (128 * row + col), n⟩))
  | _ => []

/-- The pieces in ascending memory address order, pieces at one address in row order (R376, R388). -/
def EngOp.pieces (o : EngOp) : List Piece := o.rows.mergeSort (fun x y => x.va ≤ y.va)

/-- Sector of piece number `j` of length `n` (R376). -/
def secNo (n j : Nat) : Nat := n * j / 64

/-- Row order decides which of the pieces at one address remains: a later one than piece `j` of the sorted list has been written already, when its sector
was not held up as that of piece `j` was (R388, R391). -/
def EngOp.covered (o : EngOp) (sec : Nat → Nat) (ps : List Piece) (j : Nat) : Bool :=
  match ps.drop j with
  | [] => false
  | p :: l => (l.takeWhile (fun q => q.va == p.va)).zipIdx.any (fun y => !(o.due ++ o.stalled).contains (sec (j + 1 + y.2)))

/-- Sectors of a list of pieces. -/
def sectorList (l : List Piece) : List Nat :=
  List.range ((l.length * (l.headD ⟨0, 0, 16⟩).len + 63) / 64)

/-- The operation works on the scratchpad. -/
def EngOp.onSpad (o : EngOp) : Bool := bits (o.blk.getD 1 0) 5 5 == 1

/-- Convert an element for ALD: memory bits to accumulator bits, with flags (R203). -/
def aldElem (mt x : Nat) : Nat × FpFlags :=
  let f : Fmt := if mt = 1 then .bf16 else .f16
  if mt = 1 ∨ mt = 2 then
    let v := f.decode x
    ((Fmt.f32.place .rne 0 false v).1, sigFlag [v])
  else (x, 0)

/-- Convert an element for AST: accumulator bits to memory bits, with flags (R203). -/
def astElem (mt rm : Nat) (sat : Bool) (x : Nat) : Nat × FpFlags :=
  let f : Fmt := if mt = 1 then .bf16 else .f16
  if mt = 1 ∨ mt = 2 then
    let v := Fmt.f32.decode x
    let r := f.place (RMode.ofCode rm) 0 sat v
    (r.1, r.2 ||| sigFlag [v])
  else (x, 0)

/-- The key of a byte of an operation's tile or accumulator. -/
def EngOp.regKey (o : EngOp) (c off : Nat) : Nat :=
  match o.kind with
  | .tld => tileKey c (o.writes.headD 0) off
  | .tst => tileKey c (o.reads.headD 0) off
  | .ald => accKey c (o.writes.headD 32 - 32) off
  | _ => accKey c (o.reads.headD 32 - 32) off

/-- Bytes of an element in the accumulator. -/
def accSize (mt : Nat) : Nat := if mt = 3 then 8 else 4

/-- What a store piece writes, with the flags of its conversion. -/
def State.pieceData (c : Nat) (o : EngOp) (p : Piece) (s : State) : List Byte × FpFlags :=
  let b := o.blk.getD 1 0
  let rk := o.regKey c p.off
  if o.kind = .tst then (rdBytes s.mem rk p.len, 0)
  else
    let r := astElem (bits b 8 6) (bits b 11 9) (bits b 12 12 == 1) (rdNum s.mem rk (accSize (bits b 8 6)))
    (toBytes p.len r.1, r.2)

/-- Put what a load piece has read into its tile or accumulator. -/
def State.loadPiece (c : Nat) (o : EngOp) (p : Piece) (rd : List Byte) (s : State) : State :=
  let mt := bits (o.blk.getD 1 0) 8 6
  let rk := o.regKey c p.off
  if o.kind = .tld then { s with mem := wrBytes s.mem rk rd }
  else
    let r := aldElem mt (ofBytes rd)
    ({ s with mem := wrBytes s.mem rk (toBytes (accSize mt) r.1) }).modFibre o.fib (fun x => { x with fpstat := x.fpstat ||| r.2 })

/-- Move one piece between the scratchpad (key `k`) and the tile or accumulator. -/
def State.spadPiece (c : Nat) (o : EngOp) (p : Piece) (k : Nat) (s : State) : State :=
  if o.kind = .tld ∨ o.kind = .ald then s.loadPiece c o p (rdBytes s.mem k p.len)
  else
    let d := s.pieceData c o p
    ({ s with mem := wrBytes s.mem k d.1 }).modFibre o.fib (fun x => { x with fpstat := x.fpstat ||| d.2 })

/-- A run of bytes of one sector that an engine writes as one packet: address, key, leaf and bytes. -/
structure StorePart where
  va : Nat
  key : Nat
  leaf : Word64
  data : List Byte
deriving DecidableEq, Repr

/-- Put a piece to the packets: it joins the last one when it goes on there within its sector. -/
def addPart (l : List StorePart) (p : StorePart) : List StorePart :=
  match l with
  | [] => [p]
  | q :: r => if q.key + q.data.length = p.key ∧ q.va + q.data.length = p.va ∧ sectorOf q.key = sectorOf (p.key + p.data.length - 1)
      then { q with data := q.data ++ p.data } :: r else p :: q :: r

/-- The operation leaves the engine and its counter falls (R189). -/
def State.engDone (c : Nat) (o : EngOp) (s : State) : State :=
  ((s.modCore c (fun x => { x with eng := x.eng.filter (fun y => y.id != o.id) })).modFibre o.fib (fun x => x.countDone .mat o.id)).wake

/-- Change the operation with an identity. -/
def State.modEng (c id : Nat) (g : EngOp → EngOp) (s : State) : State :=
  s.modCore c (fun x => { x with eng := x.eng.map (fun y => if y.id == id then g y else y) })

/-- A transfer whose sectors fault: those wait for service; the operation ends when nothing is due (R207). -/
def State.rectEnd (c : Nat) (o : EngOp) (kind : Nat) (left : List Nat) (items : List Sect) (secNum : Nat → Nat)
    (bad : List (Nat × FKind × Nat × Nat)) (s : State) : State :=
  match (if bad.isEmpty then some ([], s) else s.xferReport o.fib o.id kind o.pc items secNum bad) with
  | none => s.modEng c o.id (fun y => { y with due := left })
  | some (st, t) =>
    let due := left.filter (fun i => !st.contains i)
    let st := (o.stalled ++ st).eraseDups
    if due.isEmpty && st.isEmpty then t.engDone c o else t.modEng c o.id (fun y => { y with due := due, stalled := st })

/-- Run a transfer between the scratchpad and a tile or accumulator: it waits for absent lines; a line with an error that cannot be corrected fails it as
R207 gives (R276). -/
def State.runSpad (c : Nat) (o : EngOp) (s : State) : State :=
  let ps := o.pieces
  let a := o.blk.getD 0 0 % 2 ^ 32
  match s.spadTarget o.wg a with
  | none => s
  | some t =>
    let x := s.wg t
    let at_ := fun (p : Piece) => x.sbase + bits a 20 0 + (p.va - bits (o.blk.getD 0 0) 56 0)
    let sec := secNo (ps.headD ⟨0, 0, 16⟩).len
    let live := (ps.zipIdx).filter (fun y => o.due.contains (sec y.2))
    if live.any (fun y => !(s.core x.core).present (at_ y.1) || !(s.core x.core).present (at_ y.1 + y.1.len - 1)) then s
    else
      let hurt := fun (p : Piece) => (s.core x.core).ecc.contains (.line (at_ p / 128)) || (s.core x.core).ecc.contains (.line ((at_ p + p.len - 1) / 128))
      let bad := (live.filter (fun y => hurt y.1)).map (fun y => (y.2, FKind.dataCheck, 0, y.1.va % 2 ^ 32))
      let stop := bad.map (fun b => sec b.1)
      let s := (live.filter (fun y => !stop.contains (sec y.2) && !o.covered sec ps y.2)).foldl (fun t y => t.spadPiece c o y.1 (spadKey x.core (at_ y.1))) s
      s.rectEnd c o (if o.kind = .tld ∨ o.kind = .ald then 0 else 1) (o.due.filter (fun i => stop.contains i)) [] sec bad

/-- Run a transfer between memory and a tile or accumulator: the sectors that pass are moved, the others wait for service or for what
holds them (R194, R207). The pieces of a store that go on within one sector are one write of it (R275), and of pieces at one address the last row's remains
(R388, R391). -/
def State.runRect (c : Nat) (o : EngOp) (s : State) : State :=
  let ps := o.pieces
  if o.onSpad then s.runSpad c o
  else
    let kind := if o.kind = .tld ∨ o.kind = .ald then 0 else 1
    let sec := secNo (ps.headD ⟨0, 0, 16⟩).len
    let num := ps.zipIdx
    let live := num.filter (fun x => o.due.contains (sec x.2))
    let r := s.xferCheck c o.wg o.fib o.id kind (live.map (fun x => ⟨x.2, x.1.va % 2 ^ 64, x.1.len⟩))
    let stop := (r.1.wait ++ r.1.bad.map (·.1)).map sec
    let go := r.1.ok.filter (fun x => !stop.contains (sec x.1) && !(kind == 1 && o.covered sec ps x.1))
    let pieces := go.filterMap (fun x => (ps[x.1]?).map (fun p => (p, x.2.1, x.2.2)))
    let s := pieces.foldl (fun (t : State) x => t.noteAccess o.wg kind x.1.va x.2.1 x.2.2) r.2
    let s := if kind = 0 then
        pieces.foldl (fun (t : State) x => ((t.noteL2 x.2.2 (c + 1) false x.2.1 x.1.len).reqPeer 9 x.2.1).loadPiece c o x.1 (t.homeRead o.wg x.1.va x.2.1 x.1.len)) s
      else
        let d := pieces.foldl (fun (a : List StorePart × FpFlags) x =>
          let y := s.pieceData c o x.1
          (addPart a.1 ⟨x.1.va, x.2.1, x.2.2, y.1⟩, a.2 ||| y.2)) ([], 0)
        (d.1.reverse.foldl (fun t p => t.engWrite c o.fib o.wg p.va p.key p.leaf p.data) s).modFibre o.fib (fun x => { x with fpstat := x.fpstat ||| d.2 })
    let left := o.due.filter (fun i => stop.contains i)
    let items := (num.filter (fun x => (left ++ o.stalled).contains (sec x.2))).map (fun x => (⟨sec x.2, x.1.va, x.1.len⟩ : Sect))
    s.rectEnd c o kind left items sec r.1.bad

/-! ### Products (R192, R196 to R201) -/

/-- A matrix format (R192): bits of an element, K, group size, bytes of a row in a tile, block scales. -/
structure MFmt where
  w : Nat
  k : Nat
  g : Nat
  row : Nat
  mx : Bool
deriving DecidableEq, Repr

/-- A format by its code. -/
def mfmt (c : Nat) : MFmt :=
  match c with
  | 0 | 1 => ⟨16, 64, 16, 128, false⟩
  | 2 | 3 => ⟨8, 128, 32, 128, true⟩
  | 4 | 5 => ⟨6, 256, 32, 96, true⟩
  | 6 => ⟨4, 256, 32, 128, true⟩
  | 9 => ⟨64, 32, 4, 256, false⟩
  | _ => ⟨8, 128, 64, 128, false⟩

/-- The formats of a legal product lie in one set (R197). -/
def mfmtSet (c : Nat) : Nat :=
  match c with | 0 => 0 | 1 => 1 | 2 => 2 | 3 => 2 | 4 => 3 | 5 => 3 | 6 => 3 | 7 => 4 | 8 => 4 | 9 => 5 | _ => 6 + c

/-- The floating format of a code. -/
def mflt (c : Nat) : Fmt :=
  match c with
  | 0 => .bf16 | 1 => .f16 | 2 => .e4m3 | 3 => .e5m2 | 4 => .e3m2 | 5 => .e2m3 | 6 => .e2m1 | _ => .f64

/-- M and N of a format. -/
def mdim (c : Nat) : Nat := if c = 9 then 64 else 128

/-- Element `k` of row (or column) `i` of an operand in tile `t` of core `c`; 6-bit operands span a tile pair (R192). -/
def State.mElem (s : State) (c code t i k : Nat) : Nat :=
  let f := mfmt code
  let pair := f.w == 6 && 128 ≤ k
  let bit := (if pair then k - 128 else k) * f.w
  let key := tileKey c (if pair then t + 1 else t) (i * f.row + bit / 8)
  rdNum s.mem key ((bit % 8 + f.w + 7) / 8) / 2 ^ (bit % 8) % 2 ^ f.w

/-- The scale byte of row or column `i` in group `g` (R192). -/
def scaleByte (l : List Word) (g i : Nat) : Nat := bits (l.getD (32 * g + i / 4) 0).toNat (8 * (i % 4) + 7) (8 * (i % 4))

/-- Bit `b` of a bitmap. -/
def bmBit (l : List Nat) (b : Nat) : Bool := (l.getD (b / 64) 0).testBit (b % 64)

/-- The k of group `g` whose products are not left out for row `i` (R199). -/
def groupKs (fa : Nat) (sp : Bool) (bm : List Nat) (i g : Nat) : List Nat :=
  let f := mfmt fa
  ((List.range f.g).map (fun x => g * f.g + x)).filter (fun k => !sp || bmBit bm (i / 8 * (f.k / 8) + k / 8))

/-- One element of a product: the accumulator's bits after every group, with flags (R124, R125, R198). The accumulator is no term of a group's sum: where
that sum is NaN, no inv comes of an infinity in it against an infinite accumulator (R125; DESIGN CHOICE, log 49). -/
def State.mmaElem (s : State) (ca ta cb tb fa fb : Nat) (sp : Bool) (bm : List Nat) (sa sb : List Word) (i j acc0 : Nat) : Nat × FpFlags :=
  let f := mfmt fa
  let one := fun (a : Nat × FpFlags) (g : Nat) =>
    let ks := groupKs fa sp bm i g
    if ks.isEmpty then a
    else if fa = 7 ∨ fa = 8 then
      let v := fun (c x : Nat) => if c = 7 then toSigned 8 x else (x : Int)
      (wrap 32 (ks.foldl (fun t k => t + v fa (s.mElem ca fa ta i k) * v fb (s.mElem cb fb tb j k)) (a.1 : Int)), a.2)
    else
      let out : Fmt := if fa = 9 then .f64 else .f32
      let sum := ks.foldl (fun (t : Acc) k =>
        let x := (mflt fa).decode (s.mElem ca fa ta i k)
        let y := (mflt fb).decode (s.mElem cb fb tb j k)
        t.add (x.mul y).1 ((x.mul y).2 ||| sigFlag [x, y])) Acc.zero
      let x := scaleByte sa g i
      let y := scaleByte sb g j
      let d : Int := (x : Int) + (y : Int) - 254
      let old := out.decode a.1
      let v := sum.value
      let scaled := if f.mx then (if x = 0xFF ∨ y = 0xFF then FVal.nan false else v.1.scale d) else v.1
      let neg0 := match scaled, old with | .fin n 0 _, .fin m 0 _ => n && m | _, _ => false
      let tot := scaled.add .rne old
      let tot' := match tot.1 with | .fin _ 0 e => FVal.fin neg0 0 e | z => z
      let r := out.place .rne 0 false tot'
      (r.1, a.2 ||| r.2 ||| v.2 ||| tot.2 ||| sigFlag [old])
  (List.range (f.k / f.g)).foldl one (acc0, 0)

/-- Compute a product into accumulator `a` of core `c`: A from tile `ta` of the core, B from tile `tb` of core `cb`. -/
def State.product (c ta cb tb a : Nat) (fa fb : Nat) (init sp : Bool) (bm : List Nat) (sa sb : List Word) (s : State) : State × FpFlags :=
  let n := mdim fa
  let size := if fa = 9 then 8 else 4
  (List.range n).foldl (fun r i => (List.range n).foldl (fun (r : State × FpFlags) j =>
    let k := accKey c a (size * (n * i + j))
    let acc0 := if init then 0 else rdNum s.mem k size
    let v := s.mmaElem c ta cb tb fa fb sp bm sa sb i j acc0
    ({ r.1 with mem := wrBytes r.1.mem k (toBytes size v.1) }, r.2 ||| v.2)) r) (s, 0)

/-- The power counters of a core: matrix words processed, words skipped by the zero flag, blocks skipped (R31, R370). -/
def State.countPower (c words zeros blocks : Nat) (s : State) : State :=
  s.modDev (fun d => { d with mgmt := { d.mgmt with power := Sparse.modify [] c (fun l =>
    [l.getD 0 0 + words, l.getD 1 0 + zeros, l.getD 2 0 + blocks]) d.mgmt.power } })

/-- The first `n` words of a tile that are zero: their flag is set (R31). -/
def State.zeroWords (s : State) (c t n : Nat) : Nat := ((List.range n).filter (fun i => rdNum s.mem (tileKey c t (4 * i)) 4 == 0)).length

/-- Words that an operand of a format takes in each of its tiles, and the tiles: a pair for 6-bit formats (R192). -/
def operandWords (code : Nat) : Nat := mdim code * (mfmt code).row / 4
def operandTiles (code t : Nat) : List Nat := if (mfmt code).w = 6 then [t, t + 1] else [t]

/-- Count operands of a product, each as core, format and tile, and the blocks that its bitmap leaves out (R31, R370). -/
def State.countProduct (c : Nat) (ops : List (Nat × Nat × Nat)) (blocks : Nat) (s : State) : State :=
  let each := ops.flatMap (fun o => (operandTiles o.2.1 o.2.2).map (fun t => (operandWords o.2.1, s.zeroWords o.1 t (operandWords o.2.1))))
  s.countPower c (each.foldl (fun n e => n + e.1) 0) (each.foldl (fun n e => n + e.2) 0) blocks

/-- Errors in accumulators that a product has written whole are gone (R276). -/
def State.accFresh (c : Nat) (accs : List Nat) (s : State) : State :=
  s.modCore c (fun x => { x with ecc := x.ecc.filter (fun e => match e with | .acc a => !accs.contains a | _ => true) })

/-- Fields of a product's block (R196). -/
def mFa (x : Nat) : Nat := bits x 18 15
def mFb (x : Nat) : Nat := bits x 22 19
def mInit (x : Nat) : Bool := x.testBit 23
def mSp (x : Nat) : Bool := x.testBit 38

/-- Uniforms of the bitmap of a format (R199). -/
def bmCount (fa : Nat) : Nat := match fa with | 0 => 2 | 1 => 2 | 4 => 8 | 5 => 8 | 6 => 8 | 9 => 1 | _ => 4

/-- A product is illegal as R197 gives. -/
def mIllegal (x : Nat) : Bool :=
  10 ≤ mFa x || 10 ≤ mFb x || mfmtSet (mFa x) != mfmtSet (mFb x) || bits x 63 45 != 0
  || ((mfmt (mFa x)).w == 6 && bits x 4 0 % 2 == 1) || ((mfmt (mFb x)).w == 6 && bits x 9 5 % 2 == 1)
  || (mSp x && 64 < bits x 44 39 + bmCount (mFa x))

/-- Numbers of a product lie beyond the allocation (R197); `n` accumulators. -/
def State.mOutside (s : State) (x n : Nat) : Bool :=
  let ta := bits x 4 0 + (if (mfmt (mFa x)).w = 6 then 1 else 0)
  let tb := bits x 9 5 + (if (mfmt (mFb x)).w = 6 then 1 else 0)
  (s.tileOf ta).isNone || (s.tileOf tb).isNone || (s.accOf (bits x 14 10 + n - 1)).isNone
  || ((mfmt (mFa x)).mx && 8 * s.me.size < bits x 30 24 + (mfmt (mFa x)).k / 32)
  || ((mfmt (mFa x)).mx && 8 * s.me.size < bits x 37 31 + (mfmt (mFb x)).k / 32)

/-- The words of `n` scale registers, every lane (R192). -/
def State.scaleWords (s : State) (r n : Nat) : List Word := (List.range n).flatMap (fun g => (List.range 32).map (s.rv (r + g)))

/-- MMA and MMAJ at issue: the block is checked, the scales and the bitmap are read, and the operation enters the tile order. -/
def State.issueProduct (k : EngK) (n : Nat) (b : BitVec 7) (s : State) : State :=
  s.issueIf (if n = 4 ∧ s.myWg.cgSize ≠ 4 then some .illegalInstruction else none) (Uses.block b.toNat 1) (fun t =>
    let x := (t.ru b.toNat).toNat
    let fa := mFa x
    let ns := if (mfmt fa).mx then (mfmt fa).k / 32 else 0
    if mIllegal x then t.precise .illegalInstruction 0
    else if t.mOutside x n then t.precise .illegalRegister 0
    else
      let sa := bits x 30 24
      let sb := bits x 37 31
      let bm := bits x 44 39
      let nb := if mSp x then bmCount fa else 0
      let u := (List.range ns).foldl (fun u g => (u.and (Uses.allV (sa + g))).and (Uses.allV (sb + g))) (Uses.block bm nb)
      t.issue u (fun q =>
        let w := q.myWg
        let six := fun (f : Nat) => if (mfmt f).w = 6 then [0, 1] else [0]
        let ta := w.tbase + bits x 4 0
        let tb := w.tbase + bits x 9 5
        let ac := (List.range n).map (fun i => resAcc (w.abase + bits x 14 10 + i))
        let op := { q.newEng k [x] ((six fa).map (fun i => resTile (ta + i)) ++ (six (mFb x)).map (fun i => resTile (tb + i))) ac with
                      sa := q.scaleWords sa ns, sb := q.scaleWords sb ns, bm := q.block bm nb, turn := w.mmajs, left := n }
        q.putEng op (fun t => if n = 4 then t.modWg t.me.wg (fun y => { y with mmajs := y.mmajs + 1 }) else t)))

/-- MMA (R196 to R199). -/
def execMma (b : BitVec 7) (_l : BitVec 4) (s : State) : Out' := .next (s.issueProduct .mma 1 b)

/-- MMAJ (R200, R201). -/
def execMmaj (b : BitVec 7) (_l : BitVec 4) (s : State) : Out' := .next (s.issueProduct .mmaj 4 b)

/-- The first tile of an operand of an operation. -/
def EngOp.tileA (o : EngOp) (s : State) : Nat := (s.wg o.wg).tbase + bits (o.blk.getD 0 0) 4 0
def EngOp.tileB (o : EngOp) (s : State) : Nat := (s.wg o.wg).tbase + bits (o.blk.getD 0 0) 9 5
def EngOp.acc0 (o : EngOp) (s : State) : Nat := (s.wg o.wg).abase + bits (o.blk.getD 0 0) 14 10

/-- Blocks that an operation's bitmap leaves out (R199). -/
def EngOp.skipped (o : EngOp) : Nat :=
  let x := o.blk.getD 0 0
  let n := if mFa x = 9 then 32 else 64 * bmCount (mFa x)
  if mSp x then (List.range n).foldl (fun n b => if bmBit o.bm b then n else n + 1) 0 else 0

/-- Perform an MMA. -/
def State.runMma (c : Nat) (o : EngOp) (s : State) : State :=
  let x := o.blk.getD 0 0
  let r := s.product c (o.tileA s) c (o.tileB s) (o.acc0 s) (mFa x) (mFb x) (mInit x) (mSp x) o.bm o.sa o.sb
  (((r.1.countProduct c [(c, mFa x, o.tileA s), (c, mFb x, o.tileB s)] o.skipped).modFibre o.fib (fun y => { y with fpstat := y.fpstat ||| r.2 })).engDone c o)

/-- The MMAJ of the cluster member at position `p` that pairs with `o`: core and operation (R200). -/
def State.mmajPeer (s : State) (o : EngOp) (p : Nat) : Option (Nat × EngOp) :=
  let x := s.wg o.wg
  match s.wgs.find? (fun y => y.2.cg == x.cg && y.2.cgSize == 4 && y.2.pasid == x.pasid && y.2.core % 4 == p) with
  | none => none
  | some y => ((s.core y.2.core).eng.find? (fun e => e.kind == .mmaj && e.wg == y.1 && e.turn == o.turn)).map (fun e => (y.2.core, e))

/-- The B tiles of a product as resources of the tile order. -/
def EngOp.readsB (o : EngOp) (s : State) : List Nat :=
  (if (mfmt (mFb (o.blk.getD 0 0))).w = 6 then [0, 1] else [0]).map (fun i => resTile (o.tileB s + i))

/-- An engine operation that has read a word with an error that cannot be corrected does not complete: a record names it, with the sectors that it has
still to move, and its fibre or workgroup stops at the wait that depends on it (R276, R376; DESIGN CHOICE, log 28: they are all its sectors). -/
def State.breakEng (c : Nat) (o : EngOp) (s : State) : State :=
  let due := if o.kind = .tst ∨ o.kind = .ast then o.due else []
  (s.report { s.fibreRec o.fib .dataCheck with src := 1, pc := o.pc, sfirst := due.headD 0, scount := due.length }
    { RecInfo.zero with fib := o.fib, wg := o.wg, op := o.id, what := 1 }).modEng c o.id (fun y => { y with broken := true })

/-- Perform the MMAJ of one member when all four have issued: its A against every B quarter in rotation (R200). A quarter with an error that cannot be
corrected breaks it (R276). A scale group that the sender's format does not have reads as zero bytes, and a receiver whose 6-bit format spans a tile pair
reads the tile that follows the sender's (DESIGN CHOICE, log 49). -/
def State.runMmaj (c : Nat) (o : EngOp) (s : State) : State :=
  let peers := (List.range 4).filterMap (fun p => s.mmajPeer o p)
  if o.done || peers.length != 4 || peers.any (fun p => !(s.core p.1).tileReady p.2.id (p.2.readsB s) []) then s
  else if peers.any (fun p => (s.core p.1).ecc.any (fun e => match e with | .tile t => (p.2.readsB s).contains (resTile t) | _ => false)) then s.breakEng c o
  else
    let x := o.blk.getD 0 0
    let r := peers.zipIdx.foldl (fun (r : State × FpFlags) p =>
      let t := r.1.product c (o.tileA s) p.1.1 (p.1.2.tileB s) (o.acc0 s + p.2) (mFa x) (mFb x) (mInit x) (mSp x) o.bm o.sa p.1.2.sb
      (t.1, r.2 ||| t.2)) (s, 0)
    let t := (if mInit x then r.1.accFresh c (o.writes.map (· - 32)) else r.1).countProduct c ((c, mFa x, o.tileA s) :: peers.map (fun p => (p.1, mFb x, p.2.tileB s))) (4 * o.skipped)
    let s := t.modFibre o.fib (fun y => ({ y with fpstat := y.fpstat ||| r.2 } : Fibre).countDone .mat o.id)
    let s := s.modEng c o.id (fun y => { y with done := true, reads := y.readsB s, writes := [] })
    let s := peers.foldl (fun t p => t.modEng p.1 p.2.id (fun y => { y with left := y.left - 1 })) s
    (peers.foldl (fun t p => t.modCore p.1 (fun z => { z with eng := z.eng.filter (fun e => !(e.id == p.2.id && e.done && e.left == 0)) })) s).wake

/-! ### Quantisation (R204) -/

/-- Quantise one block of a row: codes, scale, flags. -/
def State.aqBlock (s : State) (c a code lim : Nat) (sc : List Word) (i k : Nat) : List Nat × Nat × FpFlags :=
  qntBlock code lim (scaleByte sc k i)
    ((List.range 32).map (fun e => Fmt.f32.decode (rdNum s.mem (accKey c a (4 * (128 * i + 32 * k + e))) 4)))

/-- The packed bytes of a row (R116, R117). -/
def packRow (w : Nat) (codes : List Nat) : Nat := (codes.zipIdx).foldl (fun x p => x + p.1 * 2 ^ (w * p.2)) 0

/-- Replace byte (i mod 4) of lane floor(i / 4) of group `k` in a list of scale words. -/
def putScale (l : List Word) (k i v : Nat) : List Word :=
  let n := 32 * k + i / 4
  let sh := 8 * (i % 4)
  let x := (l.getD n 0).toNat
  l.set n (BitVec.ofNat 32 (x - bits x (sh + 7) sh * 2 ^ sh + v * 2 ^ sh))

/-- Land the values of an operation's pending write (R53). -/
def State.landEng (f id : Nat) (val : Reg → Nat → Word64) (s : State) : State :=
  (s.modFibre f (fun x => { x with pend := x.pend.map (fun p => if p.eng = some id then
    { p with eng := none, arrived := true, vals := p.vals.map (fun v => { v with val := val v.reg v.lane }) } else p) })).landDue f

/-- Perform an AQ. -/
def State.runAq (c : Nat) (o : EngOp) (s : State) : State :=
  let x := o.blk.getD 0 0
  let code := bits x 12 10
  let a := o.reads.headD 32 - 32
  let t := o.writes.headD 0
  let w := (narrowFmt code).w
  let len := 16 * w
  let off := fun i => if w = 6 then 96 * i else 128 * i + (if w = 4 then 64 * bits x 22 22 else 0)
  let r := (List.range 128).foldl (fun (r : State × List Word × FpFlags) i =>
    let bs := (List.range 4).map (fun k => s.aqBlock c a code (bits x 14 13) o.sa i k)
    let row := packRow w (bs.flatMap (·.1))
    let sc := bs.zipIdx.foldl (fun l p => putScale l p.2 i p.1.2.1) r.2.1
    ({ r.1 with mem := wrBytes r.1.mem (tileKey c t (off i)) (toBytes len row) }, sc, bs.foldl (fun f b => f ||| b.2.2) r.2.2)) (s, o.sa, 0)
  let base := 8 * (s.fibre o.fib).base + bits x 21 15
  let val := fun (g : Reg) (l : Nat) => match g with
    | .v ph => BitVec.ofNat 64 (r.2.1.getD (32 * ((ph - o.ent.getD base)) + l) 0).toNat
    | _ => 0
  ((r.1.modFibre o.fib (fun y => { y with fpstat := y.fpstat ||| r.2.2 })).landEng o.fib o.id val).engDone c o

/-- AQ (R204): the scales are read at issue; their registers have a pending write of their present lanes that lands at completion; registers of absent
lanes are never written (R13). -/
def execAq (b : BitVec 7) (l : BitVec 4) (s : State) : Out' :=
  .next (s.issue (Uses.block b.toNat 1) (fun t =>
    let x := (t.ru b.toNat).toNat
    let code := bits x 12 10
    let sr := bits x 21 15
    if 5 ≤ code ∨ bits x 63 23 ≠ 0 ∨ (code ≠ 4 ∧ bits x 22 22 ≠ 0) then t.precise .illegalInstruction 0
    else match t.accOf (bits x 4 0), t.tileOf (bits x 9 5) with
      | some a, some tl =>
        if 8 * t.me.size < sr + 4 then t.precise .illegalRegister 0
        else
          let u : Uses := { (List.range 4).foldl (fun u g => u.and (Uses.allV (sr + g))) Uses.none with win := [], wr := Uses.grp sr 4, la := l.toNat }
          t.issue u (fun q =>
            let ph := 8 * q.me.base + sr
            let op := { q.newEng .aq [x] [resAcc a] [resTile tl] with sa := q.scaleWords sr 4, ent := some ph }
            let vals := (List.range 4).flatMap (fun g => (lanesOf q.me.present).map (fun ln => (⟨.v (ph + g), ln, 0⟩ : PVal)))
            q.putEng op (fun q => q.addPend
              { q.newPend l.toNat q.me.nextId 32 vals none 0 with eng := some op.id, load := false, places := 0 }))
      | _, _ => t.precise .illegalRegister 0))

/-! ### Tile and accumulator instructions at issue -/

/-- A scratchpad address that an engine may not use: nonzero [31:24], no target, or bytes up to `far` beyond the allocation (R159, R189). -/
def State.spadOut (s : State) (e far : Nat) : Bool :=
  bits e 31 24 != 0 || (match s.spadTarget s.me.wg e with | none => true | some g => decide ((s.wg g).ssize < far))

/-- TLD and TST at issue (R193). -/
def State.issueTile (k : EngK) (b : BitVec 7) (s : State) : State :=
  s.issue (Uses.block b.toNat 2) (fun t =>
    let bl := t.block b.toNat 2
    let a := bl.getD 0 0
    let x := bl.getD 1 0
    let rows := bits x 15 6 + 1
    let rb := (bits x 25 16 + 1) * 16
    let acc := if k = .tld then accRead else accWrite
    if bits a 63 57 ≠ 0 ∨ bits x 31 26 ≠ 0 ∨ bits x 63 58 ≠ 0 ∨ 16384 < rows * rb then t.precise .illegalInstruction 0
    else match t.tileOf (bits x 4 0) with
      | none => t.precise .illegalRegister 0
      | some tl =>
        let sp := bits x 5 5 = 1
        let e := a % 2 ^ 32
        let far := bits e 20 0 + (rows - 1) * bits x 57 32 + rb
        if k = .tst ∧ !t.someDoer then t.finish
        else if a % 16 ≠ 0 ∨ bits x 57 32 % 16 ≠ 0 then t.laneFault .misaligned acc (bits a 56 0)
        else if sp ∧ t.spadOut e far then t.laneFault .scratchpadRange acc e
        else
          let op := if k = .tld then t.newEng k bl [] [resTile tl] else t.newEng k bl [resTile tl] []
          t.putEng { op with due := sectorList op.rows } id)

/-- TLD (R193, R194). -/
def execTld (b : BitVec 7) (_l : BitVec 4) (s : State) : Out' := .next (s.issueTile .tld b)

/-- TST (R193, R194). -/
def execTst (b : BitVec 7) (_l : BitVec 4) (s : State) : Out' := .next (s.guardIf s.notInTask (fun t => t.issueTile .tst b))

/-- ALD and AST at issue (R202). -/
def State.issueAcc (k : EngK) (b : BitVec 7) (s : State) : State :=
  s.issue (Uses.block b.toNat 2) (fun t =>
    let bl := t.block b.toNat 2
    let a := bl.getD 0 0
    let x := bl.getD 1 0
    let mt := bits x 8 6
    let n := mtSize mt
    let dim := if mt = 3 then 64 else 128
    let rows := bits x 27 21 + 1
    let cols := bits x 41 35 + 1
    let acc := if k = .ald then accRead else accWrite
    if bits a 63 57 ≠ 0 ∨ 5 ≤ mt ∨ 4 ≤ bits x 11 9 ∨ bits x 13 13 ≠ 0 ∨ (k = .ald ∧ bits x 12 9 ≠ 0)
        ∨ dim < bits x 20 14 + rows ∨ dim < bits x 34 28 + cols then t.precise .illegalInstruction 0
    else match t.accOf (bits x 4 0) with
      | none => t.precise .illegalRegister 0
      | some ac =>
        let sp := bits x 5 5 = 1
        let e := a % 2 ^ 32
        let far := bits e 20 0 + (rows - 1) * bits x 63 42 + cols * n
        if k = .ast ∧ !t.someDoer then t.finish
        else if a % n ≠ 0 ∨ bits x 63 42 % n ≠ 0 then t.laneFault .misaligned acc (bits a 56 0)
        else if sp ∧ t.spadOut e far then t.laneFault .scratchpadRange acc e
        else
          let op := if k = .ald then t.newEng k bl [] [resAcc ac] else t.newEng k bl [resAcc ac] []
          t.putEng { op with due := sectorList op.rows } id)

/-- ALD (R202, R203). -/
def execAld (b : BitVec 7) (_l : BitVec 4) (s : State) : Out' := .next (s.issueAcc .ald b)

/-- AST (R202, R203). -/
def execAst (b : BitVec 7) (_l : BitVec 4) (s : State) : Out' := .next (s.guardIf s.notInTask (fun t => t.issueAcc .ast b))

/-- TZERO (R195). -/
def execTzero (n : BitVec 5) (_l : BitVec 4) (s : State) : Out' :=
  .next (s.issueIf (if (s.tileOf n.toNat).isNone then some .illegalRegister else none) Uses.none (fun t =>
    t.putEng (t.newEng .tzero [] [] [resTile (t.myWg.tbase + n.toNat)]) id))

/-- AZERO (R195). -/
def execAzero (n : BitVec 5) (_l : BitVec 4) (s : State) : Out' :=
  .next (s.issueIf (if (s.accOf n.toNat).isNone then some .illegalRegister else none) Uses.none (fun t =>
    t.putEng (t.newEng .azero [] [] [resAcc (t.myWg.abase + n.toNat)]) id))

/-- Zero a whole tile or accumulator; an error in it is gone. -/
def State.runZero (c : Nat) (o : EngOp) (s : State) : State :=
  let r := o.writes.headD 0
  let s := if o.kind = .tzero then { s with mem := clearBytes s.mem (tileKey c r 0) 16384 }
    else { s with mem := clearBytes s.mem (accKey c (r - 32) 0) 65536 }
  (s.modCore c (fun x => { x with ecc := x.ecc.filter (fun e => match e with
    | .tile t => !(o.kind == .tzero && resTile t == r)
    | .acc a => !(o.kind == .azero && resAcc a == r)
    | _ => true) })).engDone c o

end Machine

end Sys2Proof
end

