-- ==== Sys2Proof/Machine/Copy.lean ====
section
/-! DEFINITION. Copies, named barriers and the state store, and the events by which engine operations are performed (R37, R38,
R205 to R219). -/

namespace Sys2Proof

namespace Machine

/-! ### Copies (R205 to R208) -/

/-- Source address of byte `i` of the dense destination of a copy: dimension 0 first (R205). -/
def copySrc (src : Nat) : List Nat → List Nat → Nat → Nat
  | e :: es, st :: ss, i => copySrc (src + i % e * st) es ss (i / e)
  | _, _, _ => src

/-- Source address of a byte of a copy. -/
def CopyOp.srcOf (o : CopyOp) (i : Nat) : Nat := copySrc o.src o.ext (1 :: o.str) i

/-- Sector `n` of a copy: the 64 bytes at dense offset 64 n from its destination, or what is left (R376): first byte and count. -/
def CopyOp.sector (o : CopyOp) (n : Nat) : Nat × Nat := (64 * n, min 64 (o.total - 64 * n))

/-- Sectors of `total` bytes. -/
def sectorCount (total : Nat) : Nat := (total + 63) / 64

/-- The 16-byte chunks of a sector: source address and offset in the copy (extents, strides and addresses are multiples of 16). -/
def CopyOp.chunks (o : CopyOp) (n : Nat) : List (Nat × Nat) :=
  let p := o.sector n
  (List.range ((p.2 + 15) / 16)).map (fun i => (o.srcOf (p.1 + 16 * i) % 2 ^ 64, p.1 + 16 * i))

/-- The parts of a sector as an engine's report counts them. -/
def CopyOp.items (o : CopyOp) (n : Nat) : List Sect := (o.chunks n).map (fun c => ⟨n, c.1, 16⟩)

/-- Presence lines of the scratchpad that a byte range covers. -/
def linesOf (off n : Nat) : List Nat := if n = 0 then [] else (List.range ((off + n - 1) / 128 - off / 128 + 1)).map (fun i => off / 128 + i)

/-- Copy `o` still owes bytes to line `ln` of the scratchpad of core `c`. -/
def CopyOp.owes (o : CopyOp) (c ln : Nat) : Bool :=
  !o.tile && o.tcore == c && (o.due ++ o.stalled).any (fun n =>
    let p := o.sector n
    (linesOf (o.off + p.1) p.2).contains ln)

/-- Some copy of the module owes bytes to a line. -/
def State.owed (s : State) (c ln : Nat) : Bool := s.cores.any (fun e => e.2.copies.any (fun o => o.owes c ln))

/-- Clear presence bits of lines of a core. -/
def Core.clearLines (x : Core) (l : List Nat) : Core := { x with absent := l.foldl (fun m n => Sparse.set false n true m) x.absent }

/-- Set presence bits of lines of a core. -/
def Core.setLines (x : Core) (l : List Nat) : Core := { x with absent := l.foldl (fun m n => Sparse.erase n m) x.absent }

/-- A barrier number beyond the allocation (R37). -/
def State.barBad (s : State) (b : BitVec 7) : Option FKind := if s.myWg.nbar ≤ b.toNat then some .illegalRegister else none

/-- CPY and CPYT at issue (R205, R206); the barrier number is checked at decode (R47, R69). With helper lanes alone the block is read and its codes are
checked, and nothing else happens (R189; DESIGN CHOICE, log 49). -/
def State.issueCopy (tile : Bool) (b br : BitVec 7) (s : State) : State :=
  s.issueIf (s.barBad br) (Uses.block b.toNat 4) (fun t =>
    let d1 := (t.ru (b.toNat + 1)).toNat
    let dims := bits d1 34 32 + 1
    if 5 < dims ∨ 64 < b.toNat + 2 + dims + 1 then t.precise .illegalInstruction 0
    else t.issue (Uses.block b.toNat (3 + dims)) (fun q =>
      let bl := q.block b.toNat (3 + dims)
      let x0 := bl.getD 0 0
      let x2 := bl.getD 2 0
      let x3 := bl.getD 3 0
      let dst := bits d1 31 0
      let ext := ([bits x2 31 0, bits x2 47 32, bits x2 63 48, bits x3 15 0, bits x3 31 16]).take dims
      let strs := (List.range (dims - 1)).map (fun k => bl.getD (4 + k) 0)
      let total := ext.foldl (· * ·) 1
      let w := q.myWg
      if bits x0 63 57 ≠ 0 ∨ bits d1 63 35 ≠ 0 ∨ bits x3 63 32 ≠ 0 ∨ strs.any (fun v => bits v 63 57 != 0)
          ∨ (tile ∧ bits d1 31 19 ≠ 0) then q.precise .illegalInstruction 0
      else if tile ∧ (q.tileOf (bits dst 18 14)).isNone then q.precise .illegalRegister 0
      else if !q.someDoer then q.finish
      else if bits x0 56 0 % 16 ≠ 0 ∨ ext.headD 0 % 16 ≠ 0 ∨ strs.any (fun v => v % 16 != 0) then q.laneFault .misaligned accRead (bits x0 56 0)
      else if (tile ∧ 16384 < bits dst 13 0 + total) ∨ (!tile ∧ q.spadOut dst (bits dst 20 0 + total)) then q.laneFault .scratchpadRange accWrite dst
      else if total = 0 then q.finish
      else if 63 ≤ q.me.count .copy then q.stall .counter
      else
        let c := q.me.core
        let tg := if tile then q.me.wg else (q.spadTarget q.me.wg dst).getD q.me.wg
        let tc := (q.wg tg).core
        let off := if tile then w.tbase + bits dst 18 14 else (q.wg tg).sbase + bits dst 20 0
        let key := if tile then tileKey c off (bits dst 13 0) else spadKey tc off
        let id := (q.core c).nextId
        let op : CopyOp :=
          { id := id, fib := q.cur.fib, wg := q.me.wg, tile := tile, src := bits x0 56 0, ext := ext, str := strs, dst := key, tcore := tc, twg := tg,
            off := off, bar := (q.wg tg).bbase + br.toNat, total := total, due := List.range (sectorCount total), stalled := [], ordered := false, pc := q.cur.pc }
        let q := q.modCore c (fun z => { z with copies := z.copies ++ [op], nextId := id + 1 })
        let q := if tile then q else q.modCore tc (fun z => z.clearLines (linesOf off total))
        (q.modMe (fun z => z.countUp .copy id)).finish))

/-- CPY (R205 to R207). -/
def execCpy (b br : BitVec 7) (_l : BitVec 4) (s : State) : Out' := .next (s.issueCopy false b br)

/-- CPYT (R205 to R207). -/
def execCpyt (b br : BitVec 7) (_l : BitVec 4) (s : State) : Out' := .next (s.issueCopy true b br)

/-! ### Named barriers (R37, R38, R209 to R211) -/

/-- Barrier `b` of core `c`. -/
def State.barrier (s : State) (c b : Nat) : Barrier := Sparse.get Barrier.zero b (s.core c).barriers

/-- Change barrier `b` of core `c`. -/
def State.modBarrier (s : State) (c b : Nat) (g : Barrier → Barrier) : State :=
  s.modCore c (fun x => { x with barriers := Sparse.modify Barrier.zero b g x.barriers })

/-- A barrier after its evaluation: released or as it was (R38). -/
def Barrier.eval (x : Barrier) : Barrier :=
  if x.atgt ≤ x.agot ∧ x.bexp ≤ x.bgot then ⟨0, x.bgot - x.bexp, 0, 0, !x.phase⟩ else x

/-- A release of a barrier of the core frees every fibre that blocks at a BWAIT on it (R211). -/
def State.freeWaiters (c b : Nat) (s : State) : State :=
  { s with fibres := s.fibres.map (fun (e : Nat × Fibre) => (e.1, match e.2.bwait with
    | some (n, age, pc, _) => if (s.wg e.2.wg).core = c ∧ (s.wg e.2.wg).bbase + n = b then { e.2 with bwait := some (n, age, pc, true) } else e.2
    | none => e.2)) }

/-- Evaluate a barrier for release. -/
def State.evalBarrier (c b : Nat) (s : State) : State :=
  let t := s.modBarrier c b Barrier.eval
  (if (t.barrier c b).phase = (s.barrier c b).phase then t else t.freeWaiters c b).wake

/-- Every fibre of a workgroup becomes fault-stopped, but for those that have exited or wait at FBAR (R276). -/
def State.stopWg (w : Nat) (s : State) : State :=
  ((s.fibres.filter (fun e => e.2.wg == w && e.2.resident && e.2.status != .exited && e.2.status != .atFbar)).map (·.1)).foldl
    (fun t f => (t.setStatus f .faultStopped).pass f) s

/-- BEXP on a barrier: saturating sums (R210). -/
def Barrier.expect (bytes arrivals : Nat) (x : Barrier) : Barrier :=
  { x with bexp := BitVec.ofNat 32 (min (2 ^ 32 - 1) (x.bexp.toNat + bytes)), atgt := BitVec.ofNat 6 (min 63 (x.atgt.toNat + arrivals)) }

/-- One arrival (R210). -/
def Barrier.arrive (x : Barrier) : Barrier := { x with agot := BitVec.ofNat 6 (min 63 (x.agot.toNat + 1)) }

/-- Physical barrier of a number. -/
def State.barOf (s : State) (b : BitVec 7) : Nat := s.myWg.bbase + b.toNat

/-- BARR (R210): the arrival takes effect after a core-scope release. -/
def execBarr (b : BitVec 7) (_l : BitVec 4) (s : State) : Out' :=
  .next (s.issueIf (s.barBad b) Uses.none (State.withRelease 0 (fun t =>
    ((t.modBarrier t.me.core (t.barOf b) Barrier.arrive).evalBarrier t.me.core (t.barOf b)).finish)))

/-- BEXP (R210). -/
def execBexp (r b : BitVec 7) (_l : BitVec 4) (s : State) : Out' :=
  .next (s.issueIf (s.barBad b) (Uses.rdU r.toNat) (fun t =>
    let x := (t.usrc r.toNat).toNat
    ((t.modBarrier t.me.core (t.barOf b) (Barrier.expect (bits x 31 0) (bits x 37 32))).evalBarrier t.me.core (t.barOf b)).finish))

/-- The fibre's wait-phase bit of a barrier becomes a phase (R209). -/
def Fibre.setPhase (b : Nat) (p : Bool) (x : Fibre) : Fibre :=
  { x with waitPhase := if p then x.waitPhase ||| BitVec.ofNat 128 (2 ^ b) else x.waitPhase &&& ~~~(BitVec.ofNat 128 (2 ^ b)) }

/-- BWAIT (R211): passes when the phase differs from the fibre's bit, or when a release has freed it, with a core-scope acquire. A wait for an engine
operation that read a bad word fault-stops the workgroup (R276). -/
def execBwait (b : BitVec 7) (_l : BitVec 4) (s : State) : Out' :=
  .next (s.issueIf (s.barBad b) Uses.none (fun t =>
    let old := t.me.waitPhase.getLsbD b.toNat
    let mark := fun (free : Bool) => t.modMe (fun x => { x with bwait := some (b.toNat, t.cur.age, t.cur.pc, free) })
    if (t.barrier t.me.core (t.barOf b)).phase = old ∧ t.me.bwait ≠ some (b.toNat, t.cur.age, t.cur.pc, true) then
      (if (t.core t.me.core).eng.any (fun e => e.broken && e.wg == t.me.wg) then t.stopWg t.me.wg else (mark false).stall .barrier)
    else (mark true).withAcquire 0 (fun q => (q.modMe (fun x => { x.setPhase b.toNat (!old) with bwait := none })).finish)))

/-- BTRY (R211): never blocks; a passing one holds later loads until the earlier ones have returned. Its outcome lands in p14 behind its shadow (R55). -/
def execBtry (b : BitVec 7) (l : BitVec 4) (s : State) : Out' :=
  .next (s.issueIf (s.barBad b) { Uses.wrP 14 with la := l.toNat } (fun t =>
    let p := (t.barrier t.me.core (t.barOf b)).phase
    let out := fun (v : Word64) (q : State) => q.lateVals l.toNat ((lanesOf q.cur.active).map (fun ln => ⟨.p 14, ln, v⟩))
    if p = t.me.waitPhase.getLsbD b.toNat then (out 1 t).finish
    else ((out 0 (t.modMe (Fibre.setPhase b.toNat p))).addAcq t.cur.fib 0).finish))

/-- CWAIT (R185); a wait for an engine operation that read a bad word fault-stops the workgroup (R276). -/
def execCwait (c : BitVec 2) (q : Bool) (n : BitVec 6) (_l : BitVec 4) (s : State) : Out' :=
  .next (s.issue Uses.none (fun t =>
    if n.toNat < t.me.count (Cls.ofCode c.toNat) then
      (if c = 1 ∧ (t.core t.me.core).eng.any (fun e => e.broken && e.fib == t.cur.fib) then t.stopWg t.me.wg else t.stall .counter)
    else if q then t.withAcquire 2 State.finish else t.finish))

/-- BARRIER_BYTE_EVALUATION (R209): the evaluation that follows the arrival of bytes. -/
def execBarrierByteEvaluation (c b : Nat) (s : State) : Out' :=
  .next (if (s.core c).evals.contains b then
      let s := s.modCore c (fun x => { x with evals := x.evals.filter (· != b) })
      if (s.barrier c b).bexp = 0 then s else s.evalBarrier c b
    else s)

/-- Count arrived bytes; an evaluation is due when bytes are expected (R209). -/
def State.countBytes (c b n : Nat) (s : State) : State :=
  let s := s.modBarrier c b (fun x => { x with bgot := x.bgot + BitVec.ofNat 32 n })
  if (s.barrier c b).bexp = 0 ∨ (s.core c).evals.contains b then s
  else s.modCore c (fun x => { x with evals := x.evals ++ [b] })

/-- Destination sector `n` of copy `o` of core `c` is delivered from source bytes `data` (R206). -/
def State.deliver (c : Nat) (o : CopyOp) (n : Nat) (data : List Byte) (s : State) : State :=
  let p := o.sector n
  let s := { s with mem := wrBytes s.mem (o.dst + p.1) (data.take p.2) }
  let due := o.due.filter (· != n)
  let fin := due.isEmpty && o.stalled.isEmpty
  let keep := fun (l : List CopyOp) =>
    if fin then l.filter (fun y => y.id != o.id) else l.map (fun y => if y.id == o.id then { y with due := due } else y)
  let s := s.modCore c (fun x => { x with copies := keep x.copies })
  let s := if o.tile then s
    else s.modCore o.tcore (fun x => x.setLines ((linesOf (o.off + p.1) p.2).filter (fun ln => !s.owed o.tcore ln)))
  let s := s.countBytes o.tcore o.bar p.2
  (if fin then s.modFibre o.fib (fun x => x.countDone .copy o.id) else s).wake

/-- Parts of sector `n` of a copy have failed: their sectors wait for service, unless no page request can be sent yet (R207). -/
def State.copyBad (c : Nat) (o : CopyOp) (n : Nat) (bad : List (Nat × FKind × Nat × Nat)) (s : State) : State :=
  match s.xferReport o.fib o.id accRead o.pc ((o.due ++ o.stalled).flatMap o.items) (fun _ => n) bad with
  | none => s
  | some (st, t) => t.modCore c (fun x => { x with copies := x.copies.map (fun y =>
      if y.id == o.id then { y with due := y.due.filter (fun z => !st.contains z), stalled := (y.stalled ++ st).eraseDups } else y) })

/-- A store from another core to bytes of a sector's destination is still on its way. It issued before the copy, whose lines are absent since, and the copy's
data comes after it (R160). -/
def State.stsUnderWay (s : State) (o : CopyOp) (n : Nat) : Bool :=
  s.cores.any (fun e => e.2.wbuf.any (fun b => b.spad && overlaps (o.dst + (o.sector n).1) (o.sector n).2 b.key b.data.length))

/-- COPY_SECTOR_ARRIVAL (R206, R207): destination sector `n` of copy `i` of core `c`; the lowest one due of a copy that replays (R377), and none of a workgroup
that stands aside (R219). -/
def execCopySectorArrival (c i n : Nat) (s : State) : Out' :=
  .next (match (s.core c).copies.find? (fun o => o.id == i) with
    | none => s
    | some o =>
      if Config.cores ≤ c ∨ !o.due.contains n ∨ (o.ordered ∧ o.due.any (fun m => decide (m < n))) then s
      else if (s.core c).wbuf.any (fun b => b.fib == o.fib && decide (b.id < i)) || (s.core c).reds.any (fun r => r.fib == o.fib && decide (r.id < i)) then s
      else if (o.tile && !(s.core c).tileReady i [] [resTile o.off]) || s.stsUnderWay o n then s
      else
        let ch := o.chunks n
        let r := s.xferCheck c o.wg o.fib i 0 (ch.zipIdx.map (fun x => ⟨x.2, x.1.1, 16⟩))
        if !r.1.wait.isEmpty then r.2
        else if r.1.bad.isEmpty then
          let d := r.1.ok.foldl (fun (a : List Byte × State) x =>
            let va := (ch.getD x.1 (0, 0)).1
            (a.1 ++ a.2.homeRead o.wg va x.2.1 16, ((a.2.noteAccess o.wg 0 va x.2.1 x.2.2).noteL2 x.2.2 (c + 1) false x.2.1 16).reqPeer 9 x.2.1)) ([], r.2)
          d.2.deliver c o n d.1
        else r.2.copyBad c o n r.1.bad)

/-! ### The state store (R43, R212 to R218) -/

/-- Key of byte `off` of block `blk` (0 live, 1 to 8 ring) of entry index `e` of core `c`: blocks fill the granules from the top down. -/
def ssKey (c e blk off : Nat) : Nat :=
  let n := 9 * e + blk
  accKey c (23 - n / 4) (n % 4 * 16384 + off)

/-- Entries a core can hold (R43). -/
def State.ssRoom (s : State) (c : Nat) : Nat := 4 * (Sparse.get CoreCfg.zero c s.dev.cfg.cores).g.toNat / 9

/-- The entry of a key in the directory. -/
def Core.ssFind (x : Core) (slot layer : Nat) : Option SSEntry := x.ss.find? (fun e => !e.dead && e.sslot == slot && e.layer == layer)

/-- The entry of an identity. -/
def Core.ssOf (x : Core) (u : Option Nat) : Option SSEntry := match u with | none => none | some n => x.ss.find? (fun e => e.uid == n)

/-- The lowest free entry index. -/
def State.ssFree (s : State) (c : Nat) : Option Nat :=
  (List.range (s.ssRoom c)).find? (fun i => !((s.core c).ss.any (fun e => !e.dead && e.idx == i)))

/-- Create an entry in the directory. -/
def State.ssCreate (c idx slot layer spill : Nat) (s : State) : SSEntry × State :=
  let e : SSEntry := ⟨(s.core c).nextId, idx, false, slot, layer, [], spill⟩
  (e, s.modCore c (fun x => { x with ss := x.ss ++ [e], nextId := x.nextId + 1 }))

/-- Change an entry. -/
def State.modSS (c uid : Nat) (g : SSEntry → SSEntry) (s : State) : State :=
  s.modCore c (fun x => { x with ss := x.ss.map (fun e => if e.uid == uid then g e else e) })

/-- Resources an entry contributes to the tile order. -/
def entRes (e : Option SSEntry) : List Nat := match e with | some x => [resEnt x.idx] | none => []

/-- The block of a state-store instruction is illegal: reserved bits (R212). -/
def ssIllegal (k : EngK) (a b : Nat) : Bool :=
  bits a 63 47 != 0 || (k != .ssld && k != .ssst && bits a 46 40 != 0)
  || (k == .ssst && bits b 63 57 != 0) || ((k == .ssnap || k == .ssrb) && bits b 63 32 != 0) || (k == .sscopy && bits b 63 24 != 0)

/-- The workgroup of the issuing fibre is bound to its core for the rest of its life (R386). -/
def State.bindWg (s : State) : State := s.modWg s.me.wg (fun w => { w with bound := true })

/-- A state-store instruction at issue: presence is judged and the directory changes now (R213, R387), and the workgroup is bound to its core, when its
lanes take a fault of it too (R386; DESIGN CHOICE, log 49). `wr` names its destinations, `vals` its pending values. -/
def State.issueSS (k : EngK) (n : Nat) (b : BitVec 7) (la : Nat) (wr : Uses) (vals : State → List PVal) (s : State) : State :=
  s.issue { (Uses.block b.toNat n).and wr with la := la } (fun t =>
    let bl := t.block b.toNat n
    let x := bl.getD 0 0
    let y := bl.getD 1 0
    let c := t.me.core
    let slot := bits x 23 0
    let layer := bits x 39 24
    let e := (t.core c).ssFind slot layer
    let d := if k = .sscopy then (t.core c).ssFind (bits y 23 0) layer else none
    let self := k == .sscopy && bits y 23 0 == slot
    let needs := (k == .ssst && e.isNone) || (k == .sscopy && e.isSome && d.isNone)
    if ssIllegal k x y then t.precise .illegalInstruction 0
    else if (k = .ssld ∨ k = .ssst) ∧ (t.accOf (bits x 44 40)).isNone then t.precise .illegalRegister 0
    else if k = .ssst ∧ e.isNone ∧ bits y 56 0 % 256 ≠ 0 then t.bindWg.laneFault .misaligned accWrite (bits y 56 0)
    else if ((k = .ssnap ∨ k = .sscopy) ∧ e.isNone) ∨ (needs ∧ (t.ssFree c).isNone) then t.bindWg.laneFault .stateStore accRead 0
    else if 63 ≤ t.me.count .mat then t.stall .counter
    else
      let ac := resAcc (t.myWg.abase + bits x 44 40)
      let r : Option SSEntry × State := if needs then
          let p := t.ssCreate c ((t.ssFree c).getD 0) (if k = .sscopy then bits y 23 0 else slot) layer (if k = .ssst then bits y 56 0 else 0)
          (some p.1, p.2)
        else (none, t)
      let t := r.2.bindWg
      let src := if k = .ssst ∧ needs then r.1 else e
      let dst := if k = .sscopy ∧ !self then (if needs then r.1 else d) else none
      let t := if k = .ssfree then (match e with | some z => t.modSS c z.uid (fun q => { q with dead := true }) | none => t) else t
      let op := { t.newEng k bl (if k = .ssst then [ac] else []) ((if k = .ssld then [ac] else []) ++ entRes src ++ entRes dst) with
                    due := [0], ent := src.map (·.uid), ent2 := dst.map (·.uid), created := needs }
      t.putEng op (fun q => if (vals q).isEmpty then q
        else q.addPend { q.newPend la q.me.nextId 32 (vals q) none 0 with eng := some op.id, load := false, places := 0 }))

/-- SSLD (R214). -/
def execSsld (b : BitVec 7) (_l : BitVec 4) (s : State) : Out' := .next (s.issueSS .ssld 1 b 0 Uses.none (fun _ => []))

/-- SSST (R214). -/
def execSsst (b : BitVec 7) (_l : BitVec 4) (s : State) : Out' := .next (s.issueSS .ssst 2 b 0 Uses.none (fun _ => []))

/-- SSNAP (R215). -/
def execSsnap (b : BitVec 7) (_l : BitVec 4) (s : State) : Out' := .next (s.issueSS .ssnap 2 b 0 Uses.none (fun _ => []))

/-- SSRB (R216): p14 of the active lanes lands at completion. -/
def execSsrb (b : BitVec 7) (l : BitVec 4) (s : State) : Out' :=
  .next (s.issueSS .ssrb 2 b l.toNat (Uses.wrP 14) (fun t => (lanesOf t.cur.active).map (fun ln => ⟨.p 14, ln, 0⟩)))

/-- SSCOPY (R217). -/
def execSscopy (b : BitVec 7) (_l : BitVec 4) (s : State) : Out' := .next (s.issueSS .sscopy 2 b 0 Uses.none (fun _ => []))

/-- SSQRY (R217): five uniforms land at completion. -/
def execSsqry (b d : BitVec 7) (l : BitVec 4) (s : State) : Out' :=
  .next (s.issueSS .ssqry 1 b l.toNat ((List.range 5).foldl (fun u i => u.and (Uses.wrU (d.toNat + i))) Uses.none)
    (fun _ => (List.range 5).map (fun i => ⟨.u (d.toNat + i), 0, BitVec.ofNat 64 i⟩)))

/-- SSFREE (R217). -/
def execSsfree (b : BitVec 7) (_l : BitVec 4) (s : State) : Out' := .next (s.issueSS .ssfree 1 b 0 Uses.none (fun _ => []))

/-- Copy a block of 16 KiB within a core's state store. -/
def State.ssMove (c e1 b1 e2 b2 : Nat) (s : State) : State := { s with mem := wrBytes s.mem (ssKey c e2 b2 0) (rdBytes s.mem (ssKey c e1 b1 0) 16384) }

/-- A free ring block of an entry. -/
def SSEntry.freeBlock (e : SSEntry) : Nat := ((List.range 8).map (· + 1)).find? (fun b => !(e.ring.any (fun p => p.2 == b))) |>.getD 1

/-- The header of a spill area: its number and the key of its sector; none while it cannot be reached. -/
structure SpillHdr where
  key : Nat
  leaf : Word64
  val : Nat
deriving DecidableEq, Repr

/-- What a state-store operation finds of spill sectors: a result, a wait, or faults. -/
inductive Spill (α : Type) where
  | ok (a : α) (s : State)
  | wait (s : State)
  | bad (kind : Nat) (items : List Sect) (l : List (Nat × FKind × Nat × Nat)) (s : State)

/-- Sectors of the accesses of a state-store operation in ascending address order: the header, and with it a spill slot of 256 (R218, R376). -/
def hdrSect (va : Nat) : Sect := ⟨0, va, 64⟩
def slotSects (hdr va : Nat) : List Sect := hdrSect hdr :: (List.range 256).map (fun i => ⟨1 + i, va + 64 * i, 64⟩)

/-- Check the sectors of `n` bytes of a spill area: keys in order. `items` are the sectors that the operation has still to move. -/
def State.spillKeys (c : Nat) (o : EngOp) (kind va n : Nat) (items : List Sect) (s : State) : Spill (List (Nat × Nat × Word64)) :=
  let r := s.xferCheck c o.wg o.fib o.id kind ((List.range (n / 64)).map (fun i => ⟨i, va + 64 * i, 64⟩))
  if !r.1.bad.isEmpty then .bad kind items r.1.bad r.2 else if !r.1.wait.isEmpty then .wait r.2 else .ok r.1.ok r.2

/-- Read `n` bytes of a spill area. -/
def State.spillRead (c : Nat) (o : EngOp) (va n : Nat) (items : List Sect) (s : State) : Spill (List Byte) :=
  match s.spillKeys c o 0 va n items with
  | .ok l t =>
    let r := l.foldl (fun (a : List Byte × State) x =>
      (a.1 ++ a.2.homeRead o.wg (va + 64 * x.1) x.2.1 64, ((a.2.noteAccess o.wg 0 (va + 64 * x.1) x.2.1 x.2.2).noteL2 x.2.2 (c + 1) false x.2.1 64).reqPeer 9 x.2.1)) ([], t)
    .ok r.1 r.2
  | .wait t => .wait t
  | .bad k i l t => .bad k i l t

/-- Write whole sectors of a spill area. -/
def State.spillWrite (c : Nat) (o : EngOp) (va : Nat) (data : List Byte) (items : List Sect) (s : State) : Spill Unit :=
  match s.spillKeys c o 1 va data.length items with
  | .ok l t => .ok () (l.foldl (fun t x =>
      (t.noteAccess o.wg 1 (va + 64 * x.1) x.2.1 x.2.2).engWrite c o.fib o.wg (va + 64 * x.1) x.2.1 x.2.2 ((data.drop (64 * x.1)).take 64)) t)
  | .wait t => .wait t
  | .bad k i l t => .bad k i l t

/-- Set valid and next of a spill header to zero: bytes 32 and 33 of the area (R218). -/
def State.spillClear (c : Nat) (o : EngOp) (va : Nat) (s : State) : Spill Unit :=
  match s.spillKeys c o 1 va 64 [hdrSect va] with
  | .ok l t => .ok () (l.foldl (fun t x => (t.noteAccess o.wg 1 va x.2.1 x.2.2).engWrite c o.fib o.wg (va + 32) (x.2.1 + 32) x.2.2 [0, 0]) t)
  | .wait t => .wait t
  | .bad k i l t => .bad k i l t

/-- Fields of a spill header (R218). -/
def hdrKey (h i : Nat) : Nat := bits h (32 * i + 31) (32 * i)
def hdrValid (h i : Nat) : Bool := h.testBit (256 + i)
def hdrNext (h : Nat) : Nat := bits h 266 264

/-- A header from its keys, valid mask and next slot. -/
def mkHdr (keys : List Nat) (valid next : Nat) : Nat :=
  (keys.zipIdx.foldl (fun x p => x + p.1 * 2 ^ (32 * p.2)) 0) + valid * 2 ^ 256 + next * 2 ^ 264

/-- The keys of a header. -/
def hdrKeys (h : Nat) : List Nat := (List.range 8).map (hdrKey h)

/-- The valid mask of a header. -/
def hdrMask (h : Nat) : Nat := bits h 263 256

/-- The valid slot of a header that holds a position. -/
def hdrSlot (h pos : Nat) : Option Nat := (List.range 8).find? (fun i => hdrValid h i && hdrKey h i == pos)

/-- An operation ran, waits, or faulted: what follows for it (R207). -/
def State.spillEnd (c : Nat) (o : EngOp) (s : State) (r : Spill Unit) : State :=
  match r with
  | .ok _ t => t.engDone c o
  | .wait t => { t with mem := s.mem }
  | .bad k items l t =>
    match t.xferReport o.fib o.id k o.pc items id l with
    | none => t
    | some (_, u) => u.modEng c o.id (fun y => { y with due := [], stalled := [0] })

/-- The header of an entry's spill area; 0 with spill disabled. -/
def State.ssHdr (c : Nat) (o : EngOp) (e : SSEntry) (s : State) : Spill Nat :=
  if e.spill = 0 then .ok 0 s
  else match s.spillRead c o e.spill 64 [hdrSect e.spill] with
    | .ok d t => .ok (ofBytes d) t
    | .wait t => .wait t
    | .bad k i l t => .bad k i l t

/-- Write a header when spill is enabled and it changed. -/
def State.ssPutHdr (c : Nat) (o : EngOp) (e : SSEntry) (old new : Nat) (s : State) : Spill Unit :=
  if e.spill = 0 ∨ old = new then .ok () s else s.spillWrite c o e.spill (toBytes 64 new) [hdrSect e.spill]

/-- Address of spill slot `i`. -/
def spillSlot (e : SSEntry) (i : Nat) : Nat := e.spill + 64 + 16384 * i

/-- SSNAP (R215). -/
def State.runSnap (c : Nat) (o : EngOp) (e : SSEntry) (s : State) : Spill Unit :=
  let pos := bits (o.blk.getD 1 0) 31 0
  match s.ssHdr c o e with
  | .wait t => .wait t
  | .bad k i l t => .bad k i l t
  | .ok h t =>
    let ring := e.ring.filter (fun p => p.1 != pos)
    let mask := match hdrSlot h pos with | some i => hdrMask h - 2 ^ i | none => hdrMask h
    let h1 := mkHdr (hdrKeys h) mask (hdrNext h)
    let old := if 8 ≤ ring.length then ring.head? else none
    let ring' := if 8 ≤ ring.length then ring.drop 1 else ring
    let put := fun (u : State) =>
      let b := SSEntry.freeBlock { e with ring := ring' }
      (u.ssMove c e.idx 0 e.idx b).modSS c e.uid (fun x => { x with ring := ring' ++ [(pos, b)] })
    match old with
    | none => match t.ssPutHdr c o e h h1 with
      | .ok _ u => .ok () (put u)
      | r => r
    | some q =>
      if e.spill = 0 then .ok () (put t)
      else
        let n := hdrNext h1
        let h2 := mkHdr ((hdrKeys h1).set n q.1) (Nat.lor (hdrMask h1) (2 ^ n)) ((n + 1) % 8)
        let items := slotSects e.spill (spillSlot e n)
        match t.spillKeys c o 1 e.spill 64 items with
        | .ok _ t => match t.spillWrite c o (spillSlot e n) (rdBytes t.mem (ssKey c e.idx q.2 0) 16384) items with
          | .ok _ u => match u.ssPutHdr c o e h h2 with
            | .ok _ v => .ok () (put v)
            | r => r
          | r => r
        | .wait t => .wait t
        | .bad k i l t => .bad k i l t

/-- The p14 outcome of an SSRB lands. -/
def State.landRb (o : EngOp) (fail : Bool) (s : State) : State := s.landEng o.fib o.id (fun _ _ => if fail then 1 else 0)

/-- SSRB (R216). -/
def State.runRb (c : Nat) (o : EngOp) (e : SSEntry) (s : State) : Spill Unit :=
  let pos := bits (o.blk.getD 1 0) 31 0
  match e.ring.findIdx? (fun p => p.1 == pos) with
  | some i =>
    let b := (e.ring.getD i (0, 0)).2
    .ok () (((s.ssMove c e.idx b e.idx 0).modSS c e.uid (fun x => { x with ring := x.ring.take (i + 1) })).landRb o false)
  | none =>
    match s.ssHdr c o e with
    | .wait t => .wait t
    | .bad k i l t => .bad k i l t
    | .ok h t =>
      match (if e.spill = 0 then none else hdrSlot h pos) with
      | none => .ok () (t.landRb o true)
      | some i =>
        match t.spillRead c o (spillSlot e i) 16384 (slotSects e.spill (spillSlot e i)) with
        | .wait t => .wait t
        | .bad k i l t => .bad k i l t
        | .ok d u =>
          let after := (hdrNext h + 8 - (i + 1)) % 8
          let gone := (List.range after).map (fun j => (i + 1 + j) % 8)
          let mask := ((List.range 8).filter (fun j => hdrValid h j && !gone.contains j)).foldl (fun m j => m + 2 ^ j) 0
          let h' := mkHdr (hdrKeys h) mask ((i + 1) % 8)
          match u.ssPutHdr c o e h h' with
          | .ok _ v =>
            .ok () ((({ v with mem := wrBytes v.mem (ssKey c e.idx 0 0) d } : State).modSS c e.uid (fun x => { x with ring := [] })).landRb o false)
          | r => r

/-- SSQRY (R217): word `i` of the result. -/
def ssWord (e : Option SSEntry) (h i : Nat) : Nat :=
  match e with
  | none => 0
  | some x =>
    let key := fun (m : Nat) => ((x.ring[m]?).map (·.1)).getD 0
    if i = 0 then (2 ^ x.ring.length - 1) + 2 ^ 8 + (if x.spill = 0 then 0 else 2 ^ 9 + hdrMask h * 2 ^ 10)
    else key (2 * (i - 1)) + key (2 * (i - 1) + 1) * 2 ^ 32

/-- The accumulator key of element (i, j) of a quadrant (R212). -/
def quadKey (c a q i j : Nat) : Nat := accKey c a (4 * (128 * (64 * (q / 2) + i) + 64 * (q % 2) + j))

/-- Run a state-store operation. -/
def State.runSS (c : Nat) (o : EngOp) (s : State) : State :=
  let x := o.blk.getD 0 0
  let q := bits x 46 45
  let e := (s.core c).ssOf o.ent
  let rows := List.range 64
  match o.kind, e with
  | .ssld, none =>
    let a := o.writes.headD 32 - 32
    (rows.foldl (fun (t : State) i => { t with mem := wrBytes t.mem (quadKey c a q i 0) (List.replicate 256 0) }) s).engDone c o
  | .ssld, some e =>
    let a := o.writes.headD 32 - 32
    (rows.foldl (fun (t : State) i => { t with mem := wrBytes t.mem (quadKey c a q i 0) (rdBytes t.mem (ssKey c e.idx 0 (256 * i)) 256) }) s).engDone c o
  | .ssst, some e =>
    let a := o.reads.headD 32 - 32
    let r : Spill Unit := if o.created && e.spill != 0 then s.spillClear c o e.spill else .ok () s
    s.spillEnd c o (match r with
      | .ok _ t => .ok () (rows.foldl (fun (t : State) i =>
          { t with mem := wrBytes t.mem (ssKey c e.idx 0 (256 * i)) (rdBytes t.mem (quadKey c a q i 0) 256) }) t)
      | r => r)
  | .ssnap, some e => s.spillEnd c o (s.runSnap c o e)
  | .ssrb, none => (s.landRb o true).engDone c o
  | .ssrb, some e => s.spillEnd c o (s.runRb c o e)
  | .sscopy, some e =>
    match (s.core c).ssOf o.ent2 with
    | none => s.engDone c o
    | some d =>
      let h : Spill Unit := if d.spill = 0 then .ok () s
        else (match s.ssHdr c o d with
          | .ok h t => t.ssPutHdr c o d h (mkHdr (hdrKeys h) 0 (hdrNext h))
          | .wait t => .wait t
          | .bad k i l t => .bad k i l t)
      s.spillEnd c o (match h with
        | .ok _ t =>
          let t := (0 :: e.ring.map (·.2)).foldl (fun t b => t.ssMove c e.idx b d.idx b) t
          .ok () (t.modSS c d.uid (fun z => { z with ring := e.ring }))
        | r => r)
  | .ssqry, e =>
    match (match e with | some z => s.ssHdr c o z | none => .ok 0 s) with
    | .ok h t =>
      let d := match ((s.fibre o.fib).pend.find? (fun p => p.eng == some o.id)).bind (fun p => (p.vals.head?)) with
        | some ⟨.u n, _, v⟩ => n - v.toNat
        | _ => 0
      let val := fun (r : Reg) (_ : Nat) => match r with | .u n => BitVec.ofNat 64 (ssWord e h (n - d)) | _ => 0
      (t.landEng o.fib o.id val).engDone c o
    | .wait t => s.spillEnd c o (.wait t)
    | .bad k i l t => s.spillEnd c o (.bad k i l t)
  | .ssfree, some e => (s.modCore c (fun z => { z with ss := z.ss.filter (fun y => y.uid != e.uid) })).engDone c o
  | _, _ => s.engDone c o

/-! ### Performing an engine operation -/

/-- A state-store operation reads the contents of its entry: the live state, the ring place that it restores, or the source of a copy (R214 to R217). -/
def Core.readsEntry (c : Core) (o : EngOp) : Bool :=
  match o.kind, c.ssOf o.ent with
  | .ssld, some _ | .ssnap, some _ | .sscopy, some _ => true
  | .ssrb, some e => e.ring.any (fun p => p.1 == bits (o.blk.getD 1 0) 31 0)
  | _, _ => false

/-- A product reads the accumulators that it adds to (R198). -/
def EngOp.accumulates (o : EngOp) : Bool := (o.kind == .mma || o.kind == .mmaj) && !mInit (o.blk.getD 0 0)

/-- An operation reads a word with an error that cannot be corrected (R276). -/
def Core.engBad (c : Core) (o : EngOp) : Bool :=
  c.ecc.any (fun e => match e with
    | .tile t => o.reads.contains (resTile t)
    | .acc a => o.reads.contains (resAcc a) || (o.accumulates && o.writes.contains (resAcc a))
    | .ss i => c.readsEntry o && (c.ssOf o.ent).any (fun x => x.idx == i)
    | _ => false)

/-- Errors in what an operation writes whole are gone (R276): the accumulator of an MMA that starts at zero, and an entry that it creates. -/
def State.eccWritten (c : Nat) (o : EngOp) (s : State) : State :=
  let s := if o.kind = .mma ∧ mInit (o.blk.getD 0 0) then s.accFresh c (o.writes.map (· - 32)) else s
  if !o.created then s
  else
    let x := (s.core c).ssOf (if o.kind = .sscopy then o.ent2 else o.ent)
    s.modCore c (fun y => { y with ecc := y.ecc.filter (fun e => match e with | .ss i => !(x.any (fun z => z.idx == i)) | _ => true) })

/-- Engine operation `i` of core `c` is performed when its place in the tile order allows (R189, R190). -/
def State.engineRun (c i : Nat) (s : State) : State :=
  match (s.core c).eng.find? (fun o => o.id == i) with
  | none => s
  | some o =>
    if o.broken || !(s.core c).tileReady i o.reads o.writes then s
    else if (s.core c).engBad o then s.breakEng c o
    else match o.kind with
      | .tld | .tst | .ald | .ast => if o.due.isEmpty then s else s.runRect c o
      | .tzero | .azero => s.runZero c o
      | .mma => (s.eccWritten c o).runMma c o
      | .mmaj => s.runMmaj c o
      | .aq => s.runAq c o
      | _ => if o.due.isEmpty then s else (s.eccWritten c o).runSS c o

/-- ENGINE_OP_COMPLETE (R189): not of a workgroup that stands aside, whose operations go on after its resumption (R219). -/
def execEngineOpComplete (c i : Nat) (s : State) : Out' := .next (if c < Config.cores then s.engineRun c i else s)

end Machine

end Sys2Proof
end

