-- ==== Sys2Proof/Machine/Image.lean ====
section
/-! DEFINITION. Writes of the device into a context's memory, the off-core image of a fibre and the core image of a
saved context (R272, R354, R383 to R385). -/

namespace Sys2Proof

namespace Machine

/-! ### The device in a context's memory -/

/-- Write bytes page by page; none when some page faults. -/
def State.hubWriteN (pasid : Nat) (w : Bool) : Nat → Nat → List Byte → State → Option State
  | 0, _, _, s => some s
  | n + 1, va, data, s =>
    if data.isEmpty then some s
    else
      let room := 4096 - va % 4096
      match s.hubPlace pasid va w (min room data.length) with
      | none => none
      | some k =>
        State.hubWriteN pasid w n (va + room) (data.drop room) ((s.homeWrite k (data.take room)).hubTouch pasid va true k (min room data.length))

/-- Write bytes of any number under the context's permission. -/
def State.hubPut (pasid va : Nat) (data : List Byte) (s : State) : Option State := s.hubWriteN pasid true (data.length / 4096 + 2) va data

/-- Write bytes that the context may only read: its pool area and footprint table (R307, R321). -/
def State.hubPoke (pasid va : Nat) (data : List Byte) (s : State) : State :=
  (s.hubWriteN pasid false (data.length / 4096 + 2) va data).getD s

/-- Read bytes of any number, page by page. -/
def State.hubGetN (s : State) (pasid : Nat) : Nat → Nat → Nat → Option (List Byte)
  | 0, _, _ => some []
  | n + 1, va, len =>
    if len = 0 then some []
    else
      let room := min len (4096 - va % 4096)
      match s.hubKey pasid va false room with
      | none => none
      | some k => (State.hubGetN s pasid n (va + room) (len - room)).map (fun l => rdBytes s.mem k room ++ l)

/-- Read bytes of any number; none when some page faults or some sector is bad. -/
def State.hubGet (s : State) (pasid va len : Nat) : Option (List Byte) := s.hubGetN pasid (len / 4096 + 2) va len

/-- Read a number of `len` bytes. -/
def State.hubNum (s : State) (pasid va len : Nat) : Option Nat := (s.hubGet pasid va len).map ofBytes

/-- The part of `len` bytes from `va` that lies in their page number `i`: address and length. -/
def pagePart (va len i : Nat) : Nat × Nat :=
  let a := max va (va / 4096 * 4096 + 4096 * i)
  (a, min (va + len) (va / 4096 * 4096 + 4096 * (i + 1)) - a)

/-- The first address of a range at which an access of the device fails: of the first page that it cannot reach, or of a read's first bad sector. -/
def State.hubBadAddr (s : State) (pasid va len : Nat) (write : Bool) : Nat :=
  ((List.range ((va % 4096 + len + 4095) / 4096)).findSome? (fun i =>
    let p := pagePart va len i
    match s.hubFault pasid p.1 write p.2 with
    | none => none
    | some (.dataCheck, _) => (s.hubPlace pasid p.1 false p.2).bind (fun k =>
        ((List.range ((k % 64 + p.2 + 63) / 64)).find? (fun j => s.sectorBad (k / 64 + j))).map (fun j => p.1 + (64 * (k / 64 + j) - k)))
    | some _ => some p.1)).getD va

/-! ### Images of a fibre (R383, R384) -/

/-- A frontier entry as 256 bits (R384). -/
def Entry.image (e : Entry) : Nat :=
  bits e.pc.toNat 56 2 + e.prio.toNat * 2 ^ 55 + (if e.kind = .parked then 2 ^ 59 else 0) + 2 ^ 60 + e.svc.toNat * 2 ^ 61
  + (if e.kind = .parked then bits e.resume.toNat 56 2 * 2 ^ 64 else 0) + e.mask.toNat * 2 ^ 128 + e.age.toNat * 2 ^ 160
  + (if e.svc then e.tag.toNat * 2 ^ 192 else 0)

/-- An entry from its 256 bits; what the image does not hold comes from the entry of the same age, bits of an address above 56 among it. -/
def Entry.ofImage (old : List Entry) (n : Nat) : Option Entry :=
  if bits n 60 60 = 0 then none
  else
    let age := BitVec.ofNat 32 (bits n 191 160)
    let o := old.find? (fun e => e.age == age)
    let same := fun (a : Word64) (b : Nat) => if bits a.toNat 56 2 = b then a else BitVec.ofNat 64 (b * 4)
    some ⟨if bits n 59 59 = 1 then .parked else .run, same ((o.map (·.pc)).getD 0) (bits n 54 0), same ((o.map (·.resume)).getD 0) (bits n 118 64),
      BitVec.ofNat 4 (bits n 58 55), BitVec.ofNat 32 (bits n 159 128), age, bits n 61 61 == 1, BitVec.ofNat 32 (bits n 223 192),
      (o.map (·.park)).getD 0, (match o with | some e => e.replay | none => false), (o.map (·.hold)).getD 0⟩

/-- A rejoin mask as 128 bits (R383). -/
def Rejoin.image (r : Rejoin) : Nat :=
  r.enrolled.toNat + r.arrived.toNat * 2 ^ 32 + bits r.wpc.toNat 56 2 * 2 ^ 64 + r.wprio.toNat * 2 ^ 119

/-- A rejoin mask from its bits; the next address comes from the mask it had, else it is the word after. -/
def Rejoin.ofImage (old : Rejoin) (n : Nat) : Rejoin :=
  let pc := BitVec.ofNat 64 (bits n 118 64 * 4)
  ⟨BitVec.ofNat 32 (bits n 31 0), BitVec.ofNat 32 (bits n 63 32), pc, if pc = old.wpc then old.wnext else pc + 4, BitVec.ofNat 4 (bits n 122 119)⟩

/-- A list of numbers as bytes, `k` each. -/
def packBytes (k : Nat) (l : List Nat) : List Byte := l.flatMap (toBytes k)

/-- The address of the image of fibre `f` while it is off the core. -/
def State.offPlace (s : State) (f : Nat) : Nat := (s.fibre f).imageAt

/-- The off-core place of fibre `f` where it stands now: its number and its address (R383). -/
def State.placeNo (s : State) (f : Nat) : Nat × Nat :=
  let x := s.fibre f
  let n := 64 * x.core + 4 * x.slot + x.pos
  (n, (s.ctx (s.wg x.wg).pasid).offcore.toNat % 2 ^ 57 + 24576 * n)

/-- The code of a register in an image (the model's, log 11). -/
def Reg.code : Reg → Nat
  | .v n => n
  | .u n => 2 ^ 16 + n
  | .p n => 2 ^ 17 + n

/-- The code of a fibre's state in an image (the model's, log 11). -/
def FStatus.code : FStatus → Nat
  | .ready => 0
  | .blocked _ => 1
  | .sleeping => 2
  | .atFbar => 3
  | .faultStopped => 4
  | .exited => 5

/-- The 256 bytes of fibre control: state, window, role, `fpctl`, `fpstat`, shadow count, granted set, counters, wait-phase bits, sleep count and held destinations,
of which 48 have room (R354, R383; their order is the model's, log 11). The sleep ends at `sleep` by a clock that stands at `clock`. -/
def Fibre.control (x : Fibre) (clock : Nat) : List Byte :=
  let held := (x.held.flatMap (·.regs)).take 48
  let l := packBytes 1 [x.status.code, x.base, x.size, x.role.toNat, x.rm.toNat, x.fpstat.toNat, (x.pend.map (·.shadow)).foldl max 0, held.length]
    ++ toBytes 8 x.granted.toNat ++ packBytes 2 [x.count .copy, x.count .mat, x.count .gath, x.count .coll] ++ toBytes 16 x.waitPhase.toNat
    ++ toBytes 8 (x.sleep - clock) ++ packBytes 4 (held.map Reg.code)
  l ++ toBytes (256 - l.length) 0

/-- Values that have arrived and not landed, with the remaining count of their shadow. -/
def Fibre.arrivedVals (x : Fibre) : List (Nat × PVal) := (x.pend.filter (fun p => p.arrived)).flatMap (fun p => p.vals.map (fun v => (p.shadow, v)))

/-- The values of one register under one shadow count as a row of the lookahead data: the register and the count, its lanes, and a word for each lane of a vector
register, eight bytes of a uniform, a mask of a predicate (the model's order, log 11). -/
def lookRow (k : Nat × Reg) (l : List (Nat × PVal)) : List Byte :=
  let vs := (l.filter (fun v => v.1 == k.1 && v.2.reg == k.2)).map (·.2)
  let at_ := fun (i : Nat) => vs.find? (fun v => v.lane == i)
  let lanes := (List.range 32).filter (fun i => (at_ i).isSome)
  toBytes 4 (k.2.code + k.1 * 2 ^ 20) ++ toBytes 4 (maskOf lanes).toNat ++ (match k.2 with
    | .v _ => packBytes 4 (lanes.map (fun i => ((at_ i).map (fun v => v.val.toNat)).getD 0))
    | .u _ => toBytes 8 ((vs.head?.map (fun v => v.val.toNat)).getD 0)
    | .p _ => toBytes 4 (maskOf (lanes.filter (fun i => match at_ i with | some v => v.val.getLsbD 0 | none => false))).toNat)

/-- The 4 KiB of data that has arrived and not landed: as many whole rows as they hold (R54, R354, R383; log 11). -/
def Fibre.lookahead (x : Fibre) : List Byte :=
  let vs := x.arrivedVals
  let l := (((vs.map (fun v => (v.1, v.2.reg))).eraseDups).map (fun k => lookRow k vs)).foldl (fun a r => if a.length + r.length ≤ 4096 then a ++ r else a) []
  l ++ toBytes (4096 - l.length) 0

/-- The header of an image, with its check value (R383). -/
def State.imageHead (s : State) (f : Nat) : List Byte :=
  let x := s.fibre f
  let w := s.wg x.wg
  let l := s.launchOf x.wg
  let tag := ((x.frontier.find? (fun e => e.svc)).map (fun e => e.tag.toNat)).getD 0
  let n := 1 + w.pasid * 2 ^ 16 + l.launchid.toNat * 2 ^ 64 + l.tag.toNat * 2 ^ 96 + x.home / 64 * 2 ^ 104 + x.home / 4 % 16 * 2 ^ 112 + x.home % 4 * 2 ^ 116
    + x.fibid * 2 ^ 118 + x.granted.toNat * 2 ^ 128 + x.base * 2 ^ 192 + x.size * 2 ^ 198 + tag * 2 ^ 208
  let b := toBytes 508 n
  b ++ toBytes 4 (crc32c b).toNat

/-- The clock by which the sleep count of fibre `f` runs: its field holds what remains while it is off the core or saved (R250, R347). -/
def State.fibreClock (s : State) (f : Nat) : Nat :=
  let x := s.fibre f
  if x.resident && !x.extracted && (s.wg x.wg).state != .swapped && (s.wg x.wg).state != .saved then s.clock else 0

/-- The first 4 KiB of the image of fibre `f`. -/
def State.imageLow (s : State) (f : Nat) : List Byte :=
  let x := s.fibre f
  let sect := s.imageHead f
    ++ packBytes 8 ((List.range 64).map (fun n => (Sparse.get 0 n x.ureg).toNat))
    ++ packBytes 4 ((List.range 15).map (fun n => (Sparse.get 0 n x.pred).toNat)) ++ toBytes 4 0
    ++ packBytes 16 ((List.range 8).map (fun j => (Sparse.get Rejoin.zero j x.masks).image))
    ++ toBytes 64 0
    ++ packBytes 32 ((List.range 8).map (fun i => match x.frontier[i]? with | some e => e.image | none => 0))
    ++ x.control (s.fibreClock f) ++ toBytes 256 0
    ++ (x.spilled.flatMap Entry.spillBytes ++ toBytes (512 - 16 * x.spilled.length) 0)
  sect ++ toBytes (4096 - sect.length) 0

/-- The 16 KiB of window registers of the image, and the 4 KiB before it. -/
def State.imageHigh (s : State) (f : Nat) : List Byte :=
  let x := s.fibre f
  let t := s.slot (s.slotOf f)
  x.lookahead ++ (List.range 128).flatMap (fun n =>
    if n < 8 * x.size then packBytes 4 ((List.range 32).map (fun l => (t.getV (8 * x.base + n) l).toNat)) else toBytes 128 0)

/-- Write the whole image of fibre `f` at an address. -/
def State.writeImage (f va : Nat) (s : State) : Option State :=
  s.hubPut (s.wg (s.fibre f).wg).pasid va (s.imageLow f ++ s.imageHigh f)

/-- What an image holds. -/
structure ImageData where
  ureg : Sparse Word64
  pred : Sparse Mask
  masks : Sparse Rejoin
  frontier : List Entry
  spilled : List Entry
  granted : BitVec 64
  base : Nat
  size : Nat
  /-- window registers: 32 × n + lane -/
  regs : List Nat
deriving DecidableEq, Repr

/-- A sparse map of a list of values. -/
def sparseOf {α : Type} [DecidableEq α] (d : α) (l : List α) : Sparse α := (l.zipIdx.filter (fun p => p.1 != d)).map (fun p => (p.2, p.1))

/-- Numbers of `k` bytes from a byte list at an offset. -/
def unpack (l : List Byte) (off k n : Nat) : List Nat := (List.range n).map (fun i => ofBytes ((l.drop (off + k * i)).take k))

/-- A spilled entry from its 128 bits (R21). -/
def spillOf (n : Nat) : Option Entry :=
  if bits n 95 64 = 0 then none
  else some ⟨.run, BitVec.ofNat 64 (bits n 54 0 * 4), 0, BitVec.ofNat 4 (bits n 58 55), BitVec.ofNat 32 (bits n 95 64), BitVec.ofNat 32 (bits n 127 96),
    false, 0, 0, false, 0⟩

/-- Read an image and verify its header and its sectors (R383, R385); none when it does not verify. -/
def State.readImage (s : State) (f va : Nat) : Option ImageData :=
  let x := s.fibre f
  let p := (s.wg x.wg).pasid
  match s.hubGet p va 24576 with
  | none => none
  | some b =>
    let h := ofBytes (b.take 508)
    if ofBytes ((b.drop 508).take 4) ≠ (crc32c (b.take 508)).toNat ∨ bits h 15 0 ≠ 1 ∨ bits h 35 16 ≠ p then none
    else
      some ⟨sparseOf 0 ((unpack b 0x200 8 64).map (BitVec.ofNat 64)), sparseOf 0 ((unpack b 0x400 4 15).map (BitVec.ofNat 32)),
        sparseOf Rejoin.zero ((unpack b 0x440 16 8).zipIdx.map (fun q => Rejoin.ofImage (Sparse.get Rejoin.zero q.2 x.masks) q.1)),
        (unpack b 0x500 32 8).filterMap (Entry.ofImage x.frontier), (unpack b 0x800 16 32).filterMap spillOf,
        BitVec.ofNat 64 (bits h 191 128), bits h 197 192, bits h 202 198, unpack b 0x2000 4 4096⟩

/-- A rejoin mask without the lanes that a mask does not name. -/
def Rejoin.only (m : Mask) (r : Rejoin) : Rejoin := { r with enrolled := r.enrolled &&& m, arrived := r.arrived &&& m }

/-- The predicates of an image for the lanes of a mask; other lanes keep theirs. -/
def predsOf' (old new : Sparse Mask) (m : Mask) : Sparse Mask :=
  sparseOf 0 ((List.range 15).map (fun n => (Sparse.get 0 n new &&& m) ||| (Sparse.get 0 n old &&& ~~~m)))

/-- Take an image back into fibre `f`: registers into its slot, the rest into the fibre. Absent lanes write nothing and are in no mask (R13). -/
def State.takeImage (f : Nat) (d : ImageData) (s : State) : State :=
  let s := s.modFibre f (fun x => { x with ureg := d.ureg, pred := predsOf' x.pred d.pred x.present, masks := d.masks.map (fun e => (e.1, e.2.only x.present)),
                                           frontier := d.frontier, spilled := d.spilled })
  let x := s.fibre f
  s.modSlot (s.slotOf f) (fun t => (List.range (8 * x.size)).foldl (fun t n =>
    t.setV (8 * x.base + n) (fun l => BitVec.ofNat 32 (d.regs.getD (32 * n + l) 0)) (lanesOf x.present)) t)

/-! ### The core image (R354) -/

/-- The 4 KiB of a slot: for each channel queue its occupancy and elements, then FBAR count and generation, issue recency and the role-monitor window, which is
`age` clocks old (R354; the model's order, log 11). -/
def Slot.image (x : Slot) (age : Nat) : List Byte :=
  let q := fun (i : Nat) => let l := (Sparse.get [] i x.queues).map BitVec.toNat
    toBytes 4 l.length ++ packBytes 4 l ++ toBytes (256 - 4 * l.length) 0
  let l := (List.range 8).flatMap q
    ++ packBytes 8 [x.fbarIn.length, x.fbarGen.toNat, x.lastIssue, x.last, age, x.monLow.toNat + 2 * x.monHigh.toNat]
  l ++ toBytes (4096 - l.length) 0

/-- The 64 bytes of a state-store entry in the directory; bit 31 says that there is one (R354; the model's order, log 11). -/
def SSEntry.bytes (e : SSEntry) : List Byte :=
  let pos := e.ring.map (·.1)
  let blk := e.ring.map (·.2)
  packBytes 4 [e.idx + 2 ^ 31, e.sslot, e.layer, e.ring.length] ++ packBytes 4 pos ++ toBytes (32 - 4 * pos.length) 0 ++ packBytes 1 blk ++ toBytes (8 - blk.length) 0
    ++ toBytes 8 e.spill

/-- An entry from its 64 bytes; its identity comes from the entry of that index. -/
def SSEntry.ofBytes (old : List SSEntry) (b : List Byte) : Option SSEntry :=
  let w := unpack b 0 4 4
  let i := w.getD 0 0
  let n := min 8 (w.getD 3 0)
  if i.testBit 31 then
    some ⟨((old.find? (fun e => e.idx == i - 2 ^ 31)).map (·.uid)).getD 0, i - 2 ^ 31, false, w.getD 1 0, w.getD 2 0, (unpack b 16 4 n).zip (unpack b 48 1 n), Sys2Proof.ofBytes ((b.drop 56).take 8)⟩
  else none

/-- The 128 bytes of an engine operation in the tile order (R354; the model's order, log 11). -/
def EngOp.bytes (o : EngOp) : List Byte :=
  let l := packBytes 4 [o.id, o.fib, (match o.kind with
      | .tld => 0 | .tst => 1 | .tzero => 2 | .mma => 3 | .mmaj => 4 | .ald => 5 | .ast => 6 | .aq => 7 | .azero => 8
      | .ssld => 9 | .ssst => 10 | .ssnap => 11 | .ssrb => 12 | .sscopy => 13 | .ssqry => 14 | .ssfree => 15), o.turn] ++ toBytes 8 o.pc.toNat ++ packBytes 8 (o.blk.take 8)
  l ++ toBytes (128 - l.length) 0

/-- Sectors of a list as a bitmap of 64-bit words over `n` sectors. -/
def sectorMap (n : Nat) (l : List Nat) : List Nat :=
  (List.range ((n + 63) / 64)).map (fun w => (List.range 64).foldl (fun m b => if l.contains (64 * w + b) then m + 2 ^ b else m) 0)

/-- The sectors still due of a copy, and of an engine operation: its number, its sectors and their bitmap. -/
def CopyOp.dueWords (o : CopyOp) : List Nat := o.id :: sectorCount o.total :: sectorMap (sectorCount o.total) (o.due ++ o.stalled)
def EngOp.dueWords (o : EngOp) : List Nat :=
  let n := (o.due ++ o.stalled).foldl (fun m i => max m (i + 1)) 0
  o.id :: n :: sectorMap n (o.due ++ o.stalled)

/-- The variable part of an image: bitmaps of the sectors still due of the copies and transfers, LDFUT requests to send again, and staging areas, as 64-bit words
(R354; the model's order, log 11). -/
def State.variablePart (s : State) (c : Nat) (mine : Nat → Bool) : List Byte :=
  let x := s.core c
  packBytes 8 ((x.copies.filter (fun o => mine o.wg)).flatMap CopyOp.dueWords)
  ++ packBytes 8 ((x.eng.filter (fun o => mine o.wg)).flatMap EngOp.dueWords)
  ++ packBytes 8 ((s.fibres.filter (fun e => e.2.core == c && mine e.2.wg)).flatMap (fun e =>
      e.2.pend.flatMap (fun p => match p.fut with | some g => [e.1, p.lane, g] | none => [])))
  ++ (s.wgs.filter (fun e => e.2.core == c && mine e.1)).flatMap (fun e =>
      e.2.staged.flatMap (fun t => toBytes 8 t.va ++ toBytes 8 t.data.length ++ t.data) ++ packBytes 64 e.2.stagedRecs)

/-- Length of a core image's fixed part. -/
def imageBytes : Nat := 6184960

/-- The bytes of a range of keys that `mine` names, zero elsewhere. -/
def rdMine (m : List Host.Cell) (k n : Nat) (mine : Nat → Bool) : List Byte := (List.range n).map (fun i => if mine i then rd8 m (k + i) else 0)

/-- The parts of the image of context `pasid`'s work on core `home`, which stands at place `c`, as pairs of offset and bytes; `only` names the one workgroup of a swap,
whose image leaves the parts of others zero but for the directory of the core, whose entries are the context's (R354; log 11). -/
def State.coreImage (s : State) (home c pasid : Nat) (only : Option Nat) : List (Nat × List Byte) :=
  let mine := fun (w : Nat) => (s.wg w).pasid == pasid && (only.isNone || only == some w)
  let ws := (s.wgs.filter (fun e => e.2.core == c && mine e.1)).map (·.2)
  let fibs := s.fibres.filter (fun e => e.2.core == c && e.2.resident && mine e.2.wg)
  let fibNo := fun (x : Fibre) => 4 * x.slot + x.pos
  let cr := s.core c
  let slots := (List.range 16).filter (fun k => match (s.slot (16 * c + k)).wg with | some w => mine w | none => false)
  let all := only.isNone
  let inSpad := fun (i : Nat) => all || ws.any (fun w => w.sbase ≤ i && decide (i < w.sbase + w.ssize + w.stageSize)) || (0x1F8000 ≤ i && slots.contains ((i - 0x1F8000) / 2048))
  let inBar := fun (b : Nat) => all || ws.any (fun w => w.bbase ≤ b && decide (b < w.bbase + w.nbar))
  let inTile := fun (t : Nat) => all || ws.any (fun w => w.tbase ≤ t && decide (t < w.tbase + w.ntile))
  let inAcc := fun (a : Nat) => all || ws.any (fun w => w.abase ≤ a && decide (a < w.abase + w.nacc))
  let var := s.variablePart c mine
  let head := toBytes 4092 (1 + home * 2 ^ 32 + pasid * 2 ^ 64 + var.length * 2 ^ 96)
  [(0, head ++ toBytes 4 (crc32c head).toNat)]
  ++ slots.flatMap (fun k => (List.range 512).map (fun n =>
      (0x1000 + 65536 * k + 128 * n, packBytes 4 ((List.range 32).map (fun l => ((s.slot (16 * c + k)).getV n l).toNat)))))
  ++ fibs.map (fun e => (0x101000 + 512 * fibNo e.2, packBytes 8 ((List.range 64).map (fun n => (Sparse.get 0 n e.2.ureg).toNat))))
  ++ fibs.map (fun e => (0x109000 + 64 * fibNo e.2, packBytes 4 ((List.range 15).map (fun n => (Sparse.get 0 n e.2.pred).toNat)) ++ toBytes 4 0))
  ++ fibs.map (fun e => (0x10A000 + 256 * fibNo e.2, packBytes 32 ((List.range 8).map (fun i => match e.2.frontier[i]? with | some y => y.image | none => 0))))
  ++ fibs.map (fun e => (0x10E000 + 128 * fibNo e.2, packBytes 16 ((List.range 8).map (fun j => (Sparse.get Rejoin.zero j e.2.masks).image))))
  ++ fibs.map (fun e => (0x110000 + 256 * fibNo e.2, e.2.control (s.fibreClock e.1)))
  ++ fibs.map (fun e => (0x114000 + 4096 * fibNo e.2, e.2.lookahead))
  ++ slots.map (fun k => (0x154000 + 4096 * k, (s.slot (16 * c + k)).image (let m := (s.slot (16 * c + k)).monStart; if c < Config.cores then s.clock - m else m)))
  ++ [(0x164000, rdMine s.mem (spadKey c 0) 0x200000 inSpad)]
  ++ [(0x364000, toBytes 2048 ((List.range 16384).foldl (fun m i => if inSpad (128 * i) && cr.present (128 * i) then m + 2 ^ i else m) 0))]
  ++ [(0x364800, packBytes 16 ((List.range 128).map (fun b =>
      let x := if inBar b then s.barrier c b else Barrier.zero
      x.bexp.toNat + x.bgot.toNat * 2 ^ 32 + x.atgt.toNat * 2 ^ 64 + x.agot.toNat * 2 ^ 70 + x.phase.toNat * 2 ^ 76)))]
  ++ [(0x365000, rdMine s.mem (tileKey c 0 0) 0x80000 (fun i => inTile (i / 16384)))]
  ++ [(0x3E5000, rdMine s.mem (accKey c 0 0) 0x180000 (fun i => inAcc (i / 65536)))]
  ++ [(0x565000, (s.core (if c < Config.cores then c else if (s.core home).lastPasid = some pasid then home else storeOf pasid home)).ss.flatMap SSEntry.bytes)]
  ++ (cr.eng.filter (fun o => mine o.wg)).zipIdx.map (fun e => (0x566000 + 128 * e.2, e.1.bytes))
  ++ [(0x5E6000, var)]

/-- The address of image `i` of a context's save area. -/
def State.imageAddr (s : State) (p i : Nat) : Nat := (s.ctx p).save.toNat % 2 ^ 57 + imageBytes * i

/-- Write the image of a context's work on core `home`, or of one workgroup, which stands at place `c`, as image number `i` of its save area: what holds no part of
it is zero. What cannot be reached is not written. -/
def State.writeCoreImage (home c pasid i : Nat) (only : Option Nat) (s : State) : State :=
  ((List.range (imageBytes / 4096)).map (fun k => (4096 * k, List.replicate 4096 (0 : Byte))) ++ s.coreImage home c pasid only).foldl
    (fun (t : State) (p : Nat × List Byte) => (t.hubPut pasid (s.imageAddr pasid i + p.1) p.2).getD t) s

/-- The first 4 KiB of an off-core image are written again after a change. -/
def State.refreshImage (f : Nat) (s : State) : State := s.hubPoke (s.wg (s.fibre f).wg).pasid (s.offPlace f) (s.imageLow f)

/-- A place of no real core that keeps workgroup `w` while it is saved or swapped out. -/
def savedCore (w : Nat) : Nat := 1000 + 2 * w

/-- The image of a workgroup that is swapped out follows a change of it (R318, R354). -/
def State.syncSwap (w : Nat) (s : State) : State :=
  let x := s.wg w
  if x.state = .swapped ∧ Config.cores ≤ x.image then s.writeCoreImage x.home (savedCore w) x.pasid x.image (some w) else s

/-- The image of a fibre off the core, or of a swapped workgroup, follows a change of the fibre. -/
def State.syncImage (f : Nat) (s : State) : State :=
  (if (s.fibre f).resident then s else s.refreshImage f).syncSwap (s.fibre f).wg

end Machine

end Sys2Proof
end

