-- ==== Sys2Proof/Machine/System.lean ====
section
/-! DEFINITION. Service calls and the move off the core, breakpoints and traps, special registers, sleep (R40, R41, R244 to R250, R381
to R385). -/

namespace Sys2Proof

namespace Machine

/-! ### Special registers (R40, R248, R249) -/

/-- Address of a place of a context's pool area (R307). -/
def poolAddr (c : Ctx) (place : Nat) : Nat := c.taskBase.toNat % 2 ^ 57 + 64 * place

/-- The value of special register `x` in a lane (R40, R248). In a task's workgroup, which is of no launch, `launchid` reads 0, and so does the launch of its service
calls (R244; DESIGN CHOICE, log 49). -/
def State.special (s : State) (x lane : Nat) : Word64 :=
  let f := s.me
  let w := s.myWg
  let l := s.launchOf f.wg
  match x with
  | 0x00 => BitVec.ofNat 64 lane
  | 0x01 => BitVec.ofNat 64 f.fibid
  | 0x02 => BitVec.ofNat 64 f.slot
  | 0x03 => BitVec.ofNat 64 f.pos
  | 0x04 => BitVec.ofNat 64 w.x
  | 0x05 => BitVec.ofNat 64 w.y
  | 0x06 => BitVec.ofNat 64 w.z
  | 0x07 => BitVec.ofNat 64 f.core
  | 0x08 => BitVec.ofNat 64 (f.core / 4)
  | 0x09 => f.role.zeroExtend 64
  | 0x0A => BitVec.ofNat 64 (s.clock - (s.core f.core).clock0)
  | 0x0B => f.rm.zeroExtend 64
  | 0x0C => f.fpstat.zeroExtend 64
  | 0x0D => if w.isTask then BitVec.ofNat 64 (poolAddr (s.ctx w.pasid) w.place) else 0
  | 0x0E => l.launchid.zeroExtend 64
  | 0x0F => if f.helper.getLsbD lane then 1 else 0
  | 0x10 => l.tag.zeroExtend 64
  | 0x11 => BitVec.ofNat 64 w.nlane
  | 0x12 => BitVec.ofNat 64 w.nfib
  | 0x13 => BitVec.ofNat 64 f.base
  | 0x14 => BitVec.ofNat 64 f.size
  | 0x15 => BitVec.ofNat 64 (f.frontier.length + f.spilled.length)
  | _ => BitVec.ofNat 64 w.pasid

/-- An engine operation of the issuing fibre may still set flags (R147). -/
def State.flagsOut (s : State) : Bool :=
  (s.core s.me.core).eng.any (fun o => o.fib == s.cur.fib && !o.done
    && (o.kind == .mma || o.kind == .mmaj || o.kind == .ald || o.kind == .ast || o.kind == .aq))

/-- RDSR to a vector (R248): `clock` and `tkrec` take a pair. -/
def execRdsrVector (d x : BitVec 7) (s : State) : Out' :=
  let wide := x = 0x0A ∨ x = 0x0D
  .next (s.issue (Uses.wrV d.toNat (if wide then 2 else 1)) (fun t =>
    if x = 0x0C ∧ t.flagsOut then t.stall .scoreboard
    else if wide then (t.wv2 d.toNat t.cur.active (fun l => t.special x.toNat l)).finish
    else (t.wv d.toNat t.cur.active (fun l => (t.special x.toNat l).extractLsb' 0 32)).finish))

/-- RDSR to a uniform (R248). -/
def execRdsrUniform (d x : BitVec 7) (s : State) : Out' :=
  .next (s.issue (Uses.wrU d.toNat) (fun t =>
    if x = 0x0C ∧ t.flagsOut then t.stall .scoreboard else (t.wu d.toNat (t.special x.toNat 0)).finish))

/-- The effect of a WRSR (R41, R249). -/
def Fibre.writeSpecial (x : Nat) (v : Word64) (f : Fibre) : Fibre :=
  match x with
  | 0x09 => { f with role := v.extractLsb' 0 2 }
  | 0x0B => if fieldB v 2 0 ≤ 4 then { f with rm := v.extractLsb' 0 3 } else f
  | 0x0C => { f with fpstat := v.extractLsb' 0 6 }
  | _ => f

/-- WRSR (R249). -/
def execWrsr (b x : BitVec 7) (s : State) : Out' :=
  .next (s.issue (Uses.rdU b.toNat) (fun t =>
    if x = 0x0C ∧ t.flagsOut then t.stall .scoreboard
    else (t.modMe (fun f => { f.writeSpecial x.toNat (t.usrc b.toNat) with roleAt := if x = 0x09 then t.clock + 1 else f.roleAt })).finish))

/-- SLEEP (R250). -/
def execSleep (b : BitVec 7) (_l : BitVec 4) (s : State) : Out' :=
  .next (s.issue (Uses.rdU b.toNat) (fun t =>
    let n := min (t.usrc b.toNat).toNat (2 ^ 32 - 1)
    if n = 0 then t.finish
    else ((t.finish.modMe (fun x => { x with sleep := t.clock + 1 + n })).setStatus t.cur.fib .sleeping).pass t.cur.fib))

/-- SLEEP_EXPIRE (R250). -/
def execSleepExpire (f : Nat) (s : State) : Out' :=
  .next (if (s.fibre f).status = .sleeping ∧ (s.fibre f).sleep ≤ s.clock then
      ((s.modFibre f (fun x => { x with sleep := 0 })).setStatus f .ready).wake
    else s)

/-! ### Breakpoints and traps (R247) -/

/-- The active lanes stop as one fault-parked entry with a resume address, and a record with the code is written. -/
def State.stopLanes (k : FKind) (code : Nat) (resume : State → Word64) (s : State) : State :=
  s.issue Uses.none (fun t =>
    match t.parkLanes ((lanesOf t.cur.active).map (fun l => ⟨l, k, 0, 0, 0, code⟩)) t.cur.pc (resume t) 0 with
    | none => t.noPark
    | some q => q.finish)

/-- BRK (R247): resumes at itself. -/
def execBrk (c : BitVec 7) (_l : BitVec 4) (s : State) : Out' := .next (s.stopLanes .breakpoint c.toNat (fun t => t.cur.pc))

/-- TRAP (R247): resumes at its next address. -/
def execTrap (c : BitVec 7) (_l : BitVec 4) (s : State) : Out' := .next (s.stopLanes .trap c.toNat (fun t => t.cur.npc))

/-! ### Service calls (R244 to R246, R381, R382) -/

/-- The next call tag after `t`: not 0 and not outstanding; `fuel` bounds the search. -/
def nextTag (calls : List Call) : Nat → Word → Word
  | 0, t => t
  | n + 1, t => if t = 0 ∨ calls.any (fun c => c.tag == t) then nextTag calls n (t + 1) else t

/-- The 64 bytes of a request entry (R244). -/
def svcEntry (seq svc : Nat) (tag launch : Word) (lane : Nat) (pc : Word64) (args : List Word) : List Byte :=
  toBytes 64 (seq + svc * 2 ^ 64 + tag.toNat * 2 ^ 96 + launch.toNat * 2 ^ 128 + lane * 2 ^ 160 + pc.toNat * 2 ^ 192
    + (args.zipIdx.foldl (fun x p => x + p.1.toNat * 2 ^ (32 * p.2)) 0) * 2 ^ 256)

/-- Write entries of 64 bytes at consecutive places of a ring, and advance its tail once; none when some memory faults or there is no
room for all of them. -/
def State.ringPutAll (s : State) (pasid : Nat) (r : Ring) (es : List (List Byte)) : Option (State × Ring) :=
  if r.size.toNat < (r.tail - r.head).toNat + es.length then none
  else
    (es.zipIdx.foldlM (fun (t : State) p => t.hubWrite pasid (r.base.toNat % 2 ^ 57 + 64 * ((r.tail.toNat + p.2) % r.size.toNat)) p.1) s).map
      (fun t => (t, { r with tail := r.tail + BitVec.ofNat 64 es.length }))

/-- SVC (R244, R245): a system-scope release, one request entry per calling lane, and the lanes park under the call's tag. It writes V[aux..aux+7], so that older writes
pending there are cancelled in its lanes (R53). -/
def execSvc (b x : BitVec 7) (s : State) : Out' :=
  .next (s.issue ((Uses.rdU b.toNat).and (Uses.rdV x.toNat 8)) (fun t =>
    let m := t.doers
    if m = 0 then t.finish
    else match t.me.freePark with
      | none => t.stall .parkPlace
      | some place => t.withRelease 4 (fun q =>
        let p := q.myPasid
        let c := q.ctx p
        let tag := nextTag c.calls (c.calls.length + 2) c.callCtr
        let r := c.reqRing
        let l := q.launchOf q.me.wg
        let es := (lanesOf m).zipIdx.map (fun ln => svcEntry ((r.tail.toNat + ln.2) % 2 ^ 64) (fieldB (q.usrc b.toNat) 31 0) tag l.launchid ln.1 q.cur.pc
          ((List.range 8).map (fun i => q.rv (x.toNat + i) ln.1)))
        match q.ringPutAll p r es with
        | none => ((if r.size.toNat < (r.tail - r.head).toNat + es.length then q
            else (List.range es.length).foldl (fun (v : State) i => v.ringTrouble p 2 (r.place (r.tail.toNat + i)) true) q)).stall .ringRoom
        | some (v, r') =>
          let v := v.modCtx p (fun y => { y with reqRing := r', callCtr := tag + 1,
                                                 calls := y.calls ++ [⟨tag, q.cur.fib, 8 * q.me.base + x.toNat, m, 0⟩] })
          let v := v.raiseVector p (fieldB c.vectors 42 32) (c.vectors.getLsbD 48)
          (v.modMe (fun z =>
            let z : Fibre := { z with pend := z.pend.map (fun o => (List.range 8).foldl (fun o i => o.cancel (.v (8 * q.me.base + x.toNat + i)) m) o) }
            let y := (z.leave q.cur.age m).makeRoom
            { y with frontier := y.frontier ++ [⟨.parked, q.cur.pc, q.cur.npc, q.cur.prio, m, y.nextAge, true, tag, place, false, 0⟩],
                     nextAge := y.nextAge + 1, noMove := false })).finish)))

/-- A call's lanes have all been answered: its entry becomes a run entry at the resume address, with a system-scope acquire (R246). -/
def State.callDone (f : Nat) (tag : Word) (s : State) : State :=
  let x := s.fibre f
  let s : State := match x.frontier.find? (fun e => e.kind == .parked && e.svc && e.tag == tag) with
    | none => s
    | some e =>
      let y : Fibre := { x with frontier := x.frontier.filter (fun z => !(z.kind == .parked && z.svc && z.tag == tag)) }
      ((s.setFibre f (y.newRun e.resume e.prio e.mask)).settleFrontier f).revive f
  let s := s.modCtx (s.wg x.wg).pasid (fun c => { c with calls := c.calls.filter (fun k => k.tag != tag) })
  (s.acquire f 4).wake

/-- A page of a range for which ATS has to be asked first, if there is one (R348). -/
def State.unasked (s : State) (p va len : Nat) : Option Nat :=
  ((List.range ((va % 4096 + len + 4095) / 4096)).map (fun i => (pagePart va len i).1)).find? (fun a => match s.walk p (a / 4096) with
    | (.ok, leaf, _) => fieldB leaf 7 6 == 1 && Sparse.get 0 (a / 4096) (s.ctx p).ats == 0
    | _ => false)

/-- An accepted reply of status 0: the words go to the lane's registers, or into the image of a fibre off the core (R246, R385). -/
def State.replyWords (k : Call) (lane : Nat) (ws : List Nat) (s : State) : State :=
  let x := s.fibre k.fib
  if x.resident && !x.extracted then
    s.modSlot (s.slotOf k.fib) (fun t => (List.range 8).foldl (fun t i =>
      t.setV (k.reg + i) (fun _ => BitVec.ofNat 32 (ws.getD i 0)) [lane]) t)
  else
    (List.range 8).foldl (fun t i =>
      t.hubPoke (t.wg x.wg).pasid (t.offPlace k.fib + 0x2000 + 128 * (k.reg - 8 * x.base + i) + 4 * lane) (toBytes 4 (ws.getD i 0))) s

/-- A reply that is rejected writes a record (R246). -/
def State.rejectReply (p : Nat) (call : Option Call) (tag lane : Nat) (s : State) : State :=
  let r : FRec := match call with
    | some k => { s.fibreRec k.fib .svcRejected with src := 2 }
    | none => { kind := .svcRejected, src := 2, pasid := p }
  s.report { r with code := tag, lanes := maskOf [lane] } RecInfo.zero

/-- One reply entry (R246). -/
def State.takeReply (p n : Nat) (s : State) : State :=
  let tag := bits n 31 0
  let lane := bits n 36 32
  let st := bits n 39 37
  let ws := (List.range 8).map (fun i => bits n (256 + 32 * i + 31) (256 + 32 * i))
  let call := (s.ctx p).calls.find? (fun k => k.tag.toNat == tag)
  match call with
  | none => s.rejectReply p none tag lane
  | some k =>
    if !k.lanes.getLsbD lane || k.answered.getLsbD lane || 2 ≤ st || bits n 255 40 != 0 then s.rejectReply p call tag lane
    else
      let s := if st = 0 then s.replyWords k lane ws else s.exitLanes k.fib (maskOf [lane])
      let k' : Call := { k with answered := k.answered ||| maskOf [lane] }
      let s := s.modCtx p (fun c => { c with calls := c.calls.map (fun z => if z.tag == k.tag then k' else z) })
      let off := (!(s.fibre k.fib).resident || (s.fibre k.fib).extracted) && (s.fibre k.fib).status != .exited
      let s := if off && st != 0 then s.refreshImage k.fib else s
      ((if k'.answered = k'.lanes ∧ !off then s.callDone k.fib k.tag else s).syncSwap (s.fibre k.fib).wg).wake

/-- SVC_REPLY (R246, R381): the device reads the next reply, if there is one; it waits while the host has not said where a page of the fibre's image lies (R348). -/
def execSvcReply (p : Nat) (s : State) : Out' :=
  let r := (s.ctx p).repRing
  .next (if r.head = r.tail ∨ r.size = 0 ∨ (s.ctx p).state ≠ .active then s
    else
      let va := r.base.toNat % 2 ^ 57 + 64 * (r.head.toNat % r.size.toNat)
      match s.hubNum p va 64 with
      | none => s.ringTrouble p 3 va false
      | some n =>
        let off := ((s.ctx p).calls.find? (fun k => k.tag.toNat == bits n 31 0)).bind (fun k =>
          if (s.fibre k.fib).resident && !(s.fibre k.fib).extracted then none else s.unasked p (s.offPlace k.fib) 24576)
        match off with
        | some a => s.askHost p a true
        | none => (s.modCtx p (fun c => { c with repRing := { c.repRing with head := c.repRing.head + 1 } })).takeReply p n)

/-- SVC_REPLY_TAIL_WRITE (R381): the host moves the reply ring's tail. -/
def execSvcReplyTailWrite (p : Nat) (tail : Word64) (s : State) : Out' :=
  .next (s.modCtx p (fun c => { c with repRing := { c.repRing with tail := tail } }))

/-! ### Off the core and back (R245, R385) -/

/-- A fibre has no run entry. -/
def Fibre.noRun (x : Fibre) : Bool := x.spilled.isEmpty && x.frontier.all (fun e => e.kind == .parked)

/-- A fibre shares a granule with a live fibre of its slot. -/
def State.sharesGranule (s : State) (f : Nat) : Bool :=
  (s.slotFibres (s.slotOf f)).any (fun g => g != f && (s.fibre g).status != .exited && (s.fibre g).granted &&& (s.fibre f).granted != 0)

/-- The slot is free for other work when its workgroup keeps nothing in it (R385); a fibre that has exited is still resident there (R15). -/
def State.freeSlot (k : Nat) (s : State) : State :=
  let x := s.slot k
  if !(s.slotFibres k).isEmpty || x.queues.any (fun q => !q.2.isEmpty) || !x.fbarIn.isEmpty then s else s.modSlot k (fun t => { t with wg := none })

/-- The off-core place of fibre `f` holds the image of another fibre of its context (R383). -/
def State.placeTaken (s : State) (f : Nat) : Bool :=
  s.fibres.any (fun e => e.1 != f && !e.2.resident && e.2.status != .exited && e.2.home == (s.placeNo f).1 && (s.wg e.2.wg).pasid == (s.wg (s.fibre f).wg).pasid)

/-- OFFCORE_MOVE (R245, R385); the move waits while another fibre's image lies in its place, and for the host's answer about a page of it. -/
def execOffcoreMove (f : Nat) (s : State) : Out' :=
  let x := s.fibre f
  .next (if x.resident && x.status != .exited && !x.noMove && x.noRun && x.frontier.any (fun e => e.svc) && x.outst.isEmpty && x.loadsBack
        && (s.wg x.wg).state == .running && (s.ctx (s.wg x.wg).pasid).state == .active && !s.placeTaken f then
      if s.sharesGranule f then (s.stopAs f .faultStopped).pass f
      else match s.unasked (s.wg x.wg).pasid (s.placeNo f).2 24576 with
      | some a => s.askHost (s.wg x.wg).pasid a true
      | none =>
        let s := s.modFibre f (fun y => { y with home := (s.placeNo f).1, imageAt := (s.placeNo f).2 })
        let p := (s.wg x.wg).pasid
        let va := s.offPlace f
        match s.writeImage f va with
        | some t =>
          let k := t.slotOf f
          (((((t.pass f).stopAs f (.blocked .partners)).modFibre f (Fibre.stopClock t.clock)).modFibre f (fun y => { y with resident := false })).freeSlot k).wake
        | none =>
          let bad := ((List.range 6).find? (fun i => (s.hubFault p (va + 4096 * i) true 4096).isSome)).getD 0
          let why := (s.hubFault p (va + 4096 * bad) true 4096).getD (.dataCheck, 0)
          (((s.report { s.fibreRec f why.1 with src := 1, acc := accWrite, sub := why.2, addr := va + 4096 * bad, detail := va }
            { RecInfo.zero with fib := f, wg := x.wg }).stopAs f .faultStopped).modFibre f (fun y => { y with noMove := true })).pass f
    else s)

/-- Slot `k` can take fibre `f` at a position: the granules are free, no write to them is pending (R29), and no other workgroup holds it. -/
def State.placeFor (s : State) (f k : Nat) : Option Nat :=
  let x := s.fibre f
  let fs := (s.slotFibres k).filter (fun g => (s.fibre g).status != .exited)
  let own := match (s.slot k).wg with | none => true | some w => w == x.wg
  if !own || fs.any (fun g => (s.fibre g).granted &&& x.granted != 0 || (s.fibre g).wg != x.wg)
    || (List.range 64).any (fun g => x.granted.getLsbD g && s.granulePending k g) then none
  else
    let free := fun (p : Nat) => !(fs.any (fun g => (s.fibre g).pos == p))
    if k = s.slotOf f ∧ free x.pos then some x.pos else if k = s.slotOf f ∧ (s.slot k).wg = some x.wg then none else (List.range 4).find? free

/-- The place of a return: the former slot while its workgroup holds it, else the former place, else any slot of the core. -/
def State.returnPlace (s : State) (f : Nat) : Option (Nat × Nat) :=
  let k := s.slotOf f
  match s.placeFor f k with
  | some p => some (k, p)
  | none =>
    if (s.slot k).wg = some (s.fibre f).wg then none
    else ((List.range 16).map (fun i => 16 * (s.fibre f).core + i)).findSome? (fun j => (s.placeFor f j).map (fun p => (j, p)))

end Machine

end Sys2Proof
end

