-- ==== Sys2Proof/Machine/Footprint.lean ====
section
/-! DEFINITION. Footprint records and their controller, and the two instructions that overlap launches (R238 to R243, R320 to R326, R375). -/

namespace Sys2Proof

namespace Machine

/-! ### The table (R320 to R323) -/

/-- The code of a record's state (R322). -/
def FpState.code : FpState → Nat | .empty => 0 | .learning => 1 | .valid => 2 | .void => 3

/-- Flags in R238's order. -/
def FpRec.flagBits (r : FpRec) : Nat := r.atomics.toNat + 2 * r.host.toNat + 4 * r.overlap.toNat

/-- An extent as 64 bits (R323). -/
def Extent.image (e : Extent) : Nat := e.arg + e.first * 2 ^ 8 + e.count * 2 ^ 32

/-- The 576 bytes of a record (R322). -/
def FpRec.bytes (r : FpRec) : List Byte :=
  let head := r.kern + r.hash.toNat * 2 ^ 64 + r.state.code * 2 ^ 96 + r.perm.toNat * 2 ^ 98 + r.flagBits * 2 ^ 99 + r.read.length * 2 ^ 102
    + r.write.length * 2 ^ 108 + r.reason * 2 ^ 114 + r.uses * 2 ^ 128 + r.voids * 2 ^ 160 + r.llaunch.toNat * 2 ^ 192
  let set := fun (l : List Extent) => (List.range 32).flatMap (fun i => toBytes 8 (match l[i]? with | some e => e.image | none => 0))
  toBytes 64 head ++ set r.read ++ set r.write

/-- The first place of a key (R321). -/
def fpPlace0 (kern : Nat) (hash : Word) : Nat :=
  (wring hash (BitVec.ofNat 64 (Nat.xor (bits kern 31 0) (bits kern 56 32)))).toNat % 65536

/-- The places a search probes. -/
def fpProbe (kern : Nat) (hash : Word) : List Nat := (List.range 16).map (fun i => (fpPlace0 kern hash + i) % 65536)

/-- The record at a place. -/
def Ctx.fpAt (c : Ctx) (i : Nat) : FpRec := Sparse.get FpRec.zero i c.fp

/-- The place that holds a key (R321). -/
def Ctx.fpFind (c : Ctx) (kern : Nat) (hash : Word) : Option Nat :=
  (fpProbe kern hash).find? (fun i => (c.fpAt i).kern == kern && kern != 0 && (c.fpAt i).hash == hash)

/-- The place at which an absent key is entered. -/
def Ctx.fpFree (c : Ctx) (kern : Nat) (hash : Word) : Option Nat := (fpProbe kern hash).find? (fun i => (c.fpAt i).kern == 0)

/-- The place of a key, entered when it is absent; none when its 16 places hold other keys. -/
def Ctx.fpEnter (c : Ctx) (kern : Nat) (hash : Word) : Option Nat :=
  match c.fpFind kern hash with | some i => some i | none => c.fpFree kern hash

/-- Write a record: into the table, and into the context's memory where the table lies. -/
def State.putFp (p i : Nat) (r : FpRec) (s : State) : State :=
  (s.modCtx p (fun c => { c with fp := Sparse.set FpRec.zero i r c.fp })).hubPoke p ((s.ctx p).fptab.toNat % 2 ^ 57 + 576 * i) r.bytes

/-- An operation on a record in LEARNING cancels the learning (R240). -/
def State.cancelLearn (p i : Nat) (s : State) : State :=
  if ((s.ctx p).fpAt i).state = .learning then
    { s with launches := s.launches.map (fun e =>
        if e.2.pasid == p && e.2.fp == .learning && e.2.fprec == some i then (e.1, { e.2 with fp := .strict, fprec := none }) else e) }
  else s

/-- Saturating increment of a 32-bit count. -/
def satInc (n : Nat) : Nat := min (2 ^ 32 - 1) (n + 1)

/-- A record becomes VOID (R324, R375). -/
def FpRec.void (r : FpRec) (perm : Bool) (reason : Nat) : FpRec :=
  { r with state := .void, perm := perm, reason := reason, voids := if r.state = .void then r.voids else satInc r.voids }

/-- FPVOID and FOOTPRINT void: perm 0, reason 9; an absent key is entered (R238). -/
def State.fpVoid (p kern : Nat) (hash : Word) (s : State) : State :=
  match (s.ctx p).fpEnter kern hash with
  | none => s
  | some i =>
    let r := (s.ctx p).fpAt i
    (s.cancelLearn p i).putFp p i (({ r with kern := kern, hash := hash } : FpRec).void false 9)

/-- A donation: a VALID source is copied, any other source empties the destination, which keeps its reason and its counts of uses and voids (R239; DESIGN CHOICE,
log 49). -/
def State.fpDonate (p kern : Nat) (hash : Word) (p2 kern2 : Nat) (hash2 : Word) (s : State) : State :=
  let src := match (s.ctx p).fpFind kern hash with | some i => (s.ctx p).fpAt i | none => FpRec.zero
  match (s.ctx p2).fpEnter kern2 hash2 with
  | none => s
  | some j =>
    let d := (s.ctx p2).fpAt j
    let d : FpRec := { d with kern := kern2, hash := hash2 }
    let r : FpRec := if src.state = .valid then
        { d with state := .valid, perm := false, atomics := src.atomics, host := src.host, overlap := src.overlap, read := src.read, write := src.write }
      else { d with state := .empty, perm := false, atomics := false, host := false, overlap := false, read := [], write := [] }
    (s.cancelLearn p2 j).putFp p2 j r

/-- Reset every record of a context (R308, R321). -/
def State.fpResetAll (p : Nat) (s : State) : State :=
  ((s.ctx p).fp.map (·.1)).foldl (fun t i => (t.cancelLearn p i).putFp p i FpRec.zero) s

/-- What FPQRY writes (R238). -/
def Ctx.fpQuery (c : Ctx) (kern : Nat) (hash : Word) : Word64 :=
  match c.fpFind kern hash with
  | none => 0
  | some i =>
    let r := c.fpAt i
    BitVec.ofNat 64 (r.state.code + 4 * r.perm.toNat + 8 * r.flagBits + r.read.length * 2 ^ 6 + r.write.length * 2 ^ 12 + i * 2 ^ 18 + 2 ^ 34)

/-! ### The instructions (R238 to R242) -/

/-- A launch that started early holds the instruction (R240). -/
def State.isEarly (s : State) : Bool := (s.launchOf s.me.wg).early != []

/-- Run a footprint operation once its block has been read. -/
def State.footOp (b n : Nat) (wr : Uses) (illegal : List Nat → Bool) (k : List Nat → State → State) (s : State) : State :=
  s.issue ((Uses.block b n).and wr) (fun t =>
    let bl := t.block b n
    if illegal bl then t.precise .illegalInstruction 0
    else if t.isEarly then t.stall .predecessors
    else k bl t)

/-- Reserved bits of the two uniforms that name a record. -/
def fpKeyBad (bl : List Nat) : Bool := bits (bl.getD 0 0) 63 57 != 0 || bits (bl.getD 1 0) 63 32 != 0

/-- The kernel and the hash of two uniforms. -/
def fpKern (bl : List Nat) : Nat := bits (bl.getD 0 0) 56 0
def fpHash (bl : List Nat) : Word := BitVec.ofNat 32 (bits (bl.getD 1 0) 31 0)

/-- FPQRY (R238). -/
def execFpqry (b d : BitVec 7) (l : BitVec 4) (s : State) : Out' :=
  .next (s.footOp b.toNat 2 { Uses.wrU d.toNat with la := l.toNat } fpKeyBad (fun bl t =>
    (t.lateVals l.toNat [⟨.u d.toNat, 0, (t.ctx t.myPasid).fpQuery (fpKern bl) (fpHash bl)⟩]).finish))

/-- FPVOID (R238). -/
def execFpvoid (b : BitVec 7) (_l : BitVec 4) (s : State) : Out' :=
  .next (s.footOp b.toNat 2 Uses.none fpKeyBad (fun bl t => (t.fpVoid t.myPasid (fpKern bl) (fpHash bl)).finish))

/-- FPDON (R239). -/
def execFpdon (b : BitVec 7) (_l : BitVec 4) (s : State) : Out' :=
  .next (s.footOp b.toNat 4 Uses.none
    (fun bl => fpKeyBad bl || bits (bl.getD 2 0) 63 57 != 0 || bits (bl.getD 3 0) 63 53 != 0) (fun bl t =>
      let p := t.myPasid
      let x := bl.getD 3 0
      let p2 := if bits x 52 52 = 1 then bits x 51 32 else p
      if p2 ≠ p ∧ !t.dev.donGrant.contains (p, p2) then t.laneFault .protection accWrite 0
      else (t.fpDonate p (fpKern bl) (fpHash bl) p2 (bits (bl.getD 2 0) 56 0) (BitVec.ofNat 32 (bits x 31 0))).finish))

/-- SUCC (R241). -/
def execSucc (_l : BitVec 4) (s : State) : Out' :=
  .next (s.plain Uses.none (fun t => t.modWg t.me.wg (fun w => { w with succ := true })))

/-- Workgroups of a launch. -/
def Launch.total (x : Launch) : Nat := (x.nx + 1) * (x.ny + 1) * (x.nz + 1)

/-- Every workgroup of a launch has ended. -/
def Launch.completed (x : Launch) : Bool := x.started && x.ended == x.total

/-- Earlier launches of the stream of launch `l` that have not confirmed. -/
def State.predsOf (s : State) (l : Nat) : List (Nat × Launch) :=
  s.launches.filter (fun e => e.2.queue == (s.launch l).queue && e.1 < l)

/-- The earlier work of the stream of the issuing launch has not all confirmed (R242, R328). -/
def State.predsOut (s : State) : Bool :=
  match s.myWg.launch with
  | none => false
  | some l => !(s.predsOf l).isEmpty

/-- WPRED (R242, R380). -/
def execWpred (_l : BitVec 4) (s : State) : Out' :=
  .next (s.issue Uses.none (fun t => if t.predsOut then t.stall .predecessors else t.withAcquire 2 State.finish))

end Machine

end Sys2Proof
end

