-- ==== Sys2Proof/Machine/Start.lean ====
section
/-! DEFINITION. Kernel descriptors, arguments, the place of a workgroup on a core and the state it starts in (R42, R80, R252, R253, R263,
R297, R298). -/

namespace Sys2Proof

namespace Machine

/-! ### Kernel descriptors (R297) -/

/-- Address of the first instruction. -/
def kEntry (k : Nat) : Nat := bits k 56 2 * 4
/-- Fibres of a workgroup. -/
def kNfib (k : Nat) : Nat := bits k 68 64 + 1
/-- Fibres of a slot. -/
def kKps (k : Nat) : Nat := bits k 70 69 + 1
/-- Marked `.task`. -/
def kTask (k : Nat) : Bool := k.testBit 71
/-- Scratchpad in KiB. -/
def kScratch (k : Nat) : Nat := bits k 83 72
/-- Tiles. -/
def kTiles (k : Nat) : Nat := bits k 89 84
/-- Accumulators. -/
def kAcc (k : Nat) : Nat := bits k 94 90
/-- Arguments. -/
def kNargs (k : Nat) : Nat := bits k 102 96
/-- Barriers. -/
def kNbar (k : Nat) : Nat := bits k 110 103
/-- Lanes of a workgroup. -/
def kLanes (k : Nat) : Nat := bits k 120 111 + 1
/-- Window base and size of position `p`. -/
def kWinB (k p : Nat) : Nat := bits k (133 + 11 * p) (128 + 11 * p)
def kWinZ (k p : Nat) : Nat := bits k (138 + 11 * p) (134 + 11 * p)
/-- Role of position `p`. -/
def kRole (k p : Nat) : Nat := bits k (173 + 2 * p) (172 + 2 * p)
/-- Tracked pointers and key scalars: counts and argument indices. -/
def kNtrack (k : Nat) : Nat := bits k 195 192
def kNkey (k : Nat) : Nat := bits k 199 196
def kTrack (k m : Nat) : Nat := bits k (261 + 6 * m) (256 + 6 * m)
def kKey (k m : Nat) : Nat := bits k (325 + 6 * m) (320 + 6 * m)
/-- Address of the argument map. -/
def kArgmap (k : Nat) : Nat := bits k 440 384
/-- Slots of a workgroup. -/
def kSlots (k : Nat) : Nat := (kNfib k + kKps k - 1) / kKps k

/-- A descriptor is invalid (R297), against the limits of R80; so is one whose entry is no multiple of 4 (R17, R295). -/
def kBad (k : Nat) : Bool :=
  bits k 1 0 != 0 || bits k 63 57 != 0 || k.testBit 95 || bits k 127 121 != 0 || bits k 191 180 != 0 || bits k 255 200 != 0 || bits k 319 304 != 0
  || bits k 383 368 != 0 || bits k 511 441 != 0
  || 2016 < kScratch k || 32 < kTiles k || 24 < kAcc k || 64 < kNargs k || 128 < kNbar k || 8 < kNtrack k || 8 < kNkey k
  || (List.range 4).any (fun p => 64 < kWinB k p + kWinZ k p || 16 < kWinZ k p || (kKps k ≤ p && bits k (138 + 11 * p) (128 + 11 * p) != 0))
  || 16 < kSlots k || kLanes k ≤ 32 * (kNfib k - 1) || 32 * kNfib k < kLanes k

/-! ### Arguments (R80) -/

/-- Uniform and type of argument `j` in an argument map. -/
def mapReg (m j : Nat) : Nat := bits m (16 * j + 5) (16 * j)
def mapType (m j : Nat) : Nat := bits m (16 * j + 8) (16 * j + 6)

/-- What a uniform holds for an argument of a type from its eight bytes; `free` serves the types that mean nothing. -/
def argValue (ty : Nat) (free : Word64) (x : Nat) : Word64 :=
  match ty with
  | 0 | 1 | 2 => BitVec.ofNat 64 x
  | 3 | 5 => BitVec.ofNat 64 (x % 2 ^ 32)
  | 4 => (BitVec.ofNat 32 x).signExtend 64
  | _ => free

/-- The values of a kernel's arguments; none when the block cannot be read. -/
def State.readArgs (s : State) (pasid k amap args : Nat) : Option (List Word64) :=
  (s.hubGet pasid args (8 * kNargs k)).map (fun b =>
    (List.range (kNargs k)).map (fun j => argValue (mapType amap j) (Config.freeWord (s.tick + j)) (ofBytes ((b.drop (8 * j)).take 8))))

/-- Read a kernel descriptor and its argument map; none when some of it faults. -/
def State.readKernel (s : State) (pasid desc : Nat) : Option (Nat × Nat) :=
  (s.hubNum pasid desc 64).bind (fun k => (s.hubNum pasid (kArgmap k) (2 * kNargs k)).map (fun m => (k, m)))

/-! ### Room on a core (R252, R253, R269, R298) -/

/-- Workgroups that hold parts of core `c`. -/
def State.residents (s : State) (c : Nat) : List Workgroup := (s.wgs.map (·.2)).filter (fun w => w.core == c && w.state != .ended)

/-- Bytes of the workgroup area of a core (R252). -/
def State.areaBytes (s : State) (c : Nat) : Nat := (2016 - 64 * (Sparse.get CoreCfg.zero c s.dev.cfg.cores).p.toNat) * 1024

/-- Accumulators of a core (R269). -/
def State.accRoom (s : State) (c : Nat) : Nat := 24 - (Sparse.get CoreCfg.zero c s.dev.cfg.cores).g.toNat

/-- A base for `n` units below `lim` that meets no range in use. -/
def gapFor (used : List (Nat × Nat)) (n lim : Nat) : Option Nat :=
  (0 :: used.map (fun u => u.1 + u.2)).find? (fun b => decide (b + n ≤ lim) && used.all (fun u => u.2 == 0 || u.1 + u.2 ≤ b || b + n ≤ u.1))

/-- Slots of a core that no workgroup holds. -/
def State.openSlots (s : State) (c : Nat) : List Nat :=
  (List.range 16).filter (fun k => (s.slot (16 * c + k)).wg.isNone && (s.slotFibres (16 * c + k)).isEmpty)

/-- Where a workgroup goes on a core: slots and first byte, tile, accumulator and barrier. -/
structure Place where
  slots : List Nat
  sbase : Nat
  tbase : Nat
  abase : Nat
  bbase : Nat
deriving DecidableEq, Repr

/-- A fibre of core `c` whose call has been answered waits off the core for its place, ahead of every workgroup (R385). -/
def State.returning (s : State) (c : Nat) : Bool :=
  s.fibres.any (fun e =>
    let p := (s.wg e.2.wg).pasid
    e.2.core == c && !e.2.resident && !e.2.extracted && e.2.status != .exited && (s.wg e.2.wg).state == .running && (s.ctx p).state == .active
      && (s.ctx p).calls.any (fun k => k.fib == e.1 && k.answered == k.lanes))

/-- A place on core `c` for a workgroup of a context; none when the core cannot hold it now, or a fibre waits to return to it. -/
def State.placeOn (s : State) (c pasid nslots bytes tiles accs bars : Nat) : Option Place :=
  let rs := s.residents c
  let sl := s.openSlots c
  if Config.cores ≤ c ∨ (s.core c).poweredOff ∨ rs.any (fun w => w.pasid != pasid) ∨ sl.length < nslots ∨ s.returning c then none
  else
    match gapFor (rs.map (fun w => (w.sbase, w.ssize + w.stageSize))) bytes (s.areaBytes c), gapFor (rs.map (fun w => (w.tbase, w.ntile))) tiles 32,
      gapFor (rs.map (fun w => (w.abase, w.nacc))) accs (s.accRoom c), gapFor (rs.map (fun w => (w.bbase, w.nbar))) bars 128 with
    | some x, some t, some a, some b => some ⟨sl.take nslots, x, t, a, b⟩
    | _, _, _, _ => none

/-! ### A core takes up a context (R253, R262, R263, R349, R43) -/

/-- Move the listed bytes of `n` bytes at a key to another key; the source reads zero. -/
def moveBytes (m : List Host.Cell) (src dst n : Nat) : List Host.Cell :=
  (m.filter (fun e => decide (src ≤ e.1) && decide (e.1 < src + n))).foldl (fun a e => wr8 a (e.1 - src + dst) e.2)
    (clearBytes (clearBytes m src n) dst n)

/-- Move the state store of one core, or place of no core, to another; the entries' identities stay theirs. -/
def State.moveStore (src dst : Nat) (s : State) : State :=
  let x := s.core src
  if x.ss = [] then s
  else
    let s := { s with mem := moveBytes s.mem (accKey src 8 0) (accKey dst 8 0) (16 * 65536) }
    (s.modCore dst (fun y => { y with ss := x.ss, nextId := max y.nextId x.nextId })).modCore src (fun y => { y with ss := [] })

/-- A workgroup of context `p` starts on core `c`: after another context, the workgroup area, the slot reserve and the caches are
cleared, and the contexts' state stores change places. -/
def State.enterCore (c p : Nat) (s : State) : State :=
  let x := s.core c
  if x.lastPasid = some p then s
  else
    let s := match x.lastPasid with | some q => s.moveStore c (storeOf q c) | none => s
    let s := s.moveStore (storeOf p c) c
    let s := { s with mem := clearBytes (clearBytes s.mem (spadKey c 0) (s.areaBytes c)) (spadKey c 0x1F8000) 0x8000 }
    s.modCore c (fun y => { y with lastPasid := some p, l1 := [], tlb := [], walks := [], icache := [], lastLaunch := none })

/-- A workgroup of a launch starts on core `c`. After a workgroup of another launch, or as a task's, it finds the instruction cache empty (R263), and the L1
too, so that no load of it gets a value older than its launch's residency or than what its launch waited for (R243, R286 case 8, R378); R262 allows that
as an eviction (DESIGN CHOICE, log 24). -/
def State.enterLaunch (c : Nat) (l : Option Nat) (s : State) : State :=
  s.modCore c (fun y => if l.isSome && y.lastLaunch == l then y else { y with icache := [], l1 := [], lastLaunch := l })

/-! ### The state at start (R42, R13, R3, R28, R225) -/

/-- The lanes of fibre `i` of a workgroup of `n` lanes below a bound. -/
def lanesBelow (i n : Nat) : Mask := maskOf ((List.range 32).filter (fun l => 32 * i + l < n))

/-- Fibre `i` of a workgroup at start. -/
def startFibre (w : Workgroup) (pl : Place) (args : Sparse Word64) (i : Nat) : Fibre :=
  let p := i % w.kps
  let k := w.descr
  let present := lanesBelow i ((w.nlane + 3) / 4 * 4)
  { Fibre.zero with
    wg := w.id, fibid := i, core := w.core, slot := pl.slots.getD (i / w.kps) 0, pos := p, resident := true, status := .ready,
    frontier := [⟨.run, BitVec.ofNat 64 (kEntry k), 0, 0, present, 0, false, 0, 0, false, 0⟩], nextAge := 1,
    base := kWinB k p, size := kWinZ k p, granted := granules (kWinB k p) (kWinZ k p), ureg := args, role := BitVec.ofNat 2 (kRole k p),
    present := present, helper := present &&& ~~~(lanesBelow i w.nlane) }

/-- The uniforms that `.args` loads. -/
def argRegs (amap : Nat) (vals : List Word64) : Sparse Word64 :=
  vals.zipIdx.foldl (fun m p => Sparse.set 0 (mapReg amap p.2) p.1 m) []

/-- Start a workgroup at a place: its fields but for the place are given. -/
def State.startWg (w : Workgroup) (pl : Place) (args : Sparse Word64) (s : State) : State :=
  let c := w.core
  let w := { w with firstSlot := pl.slots.headD 0, nslots := pl.slots.length, sbase := pl.sbase, tbase := pl.tbase, abase := pl.abase, bbase := pl.bbase,
                    timeSince := s.clock, admitted := s.clock, state := .running }
  let s := (s.enterCore c w.pasid).enterLaunch c w.launch
  let s := { s with mem := clearBytes (clearBytes s.mem (tileKey c w.tbase 0) (16384 * w.ntile)) (accKey c w.abase 0) (65536 * w.nacc) }
  let s := s.modCore c (fun x =>
    { x with absent := (linesOf w.sbase w.ssize).foldl (fun m l => Sparse.erase l m) x.absent,
             barriers := (List.range w.nbar).foldl (fun m b => Sparse.erase (w.bbase + b) m) x.barriers,
             evals := x.evals.filter (fun b => b < w.bbase || w.bbase + w.nbar ≤ b),
             ecc := x.ecc.filter (fun e => match e with
               | .vec t _ _ => !pl.slots.contains t
               | .tile t => t < w.tbase || w.tbase + w.ntile ≤ t
               | .acc a => a < w.abase || w.abase + w.nacc ≤ a
               | _ => true) })
  let s := pl.slots.foldl (fun t k => t.setSlot (16 * c + k) { Slot.zero with wg := some w.id, monStart := s.clock }) s
  let s := (List.range w.nfib).foldl (fun t i => t.setFibre (32 * w.id + i) (startFibre w pl args i)) (s.setWg w.id w)
  s.wake

end Machine

end Sys2Proof
end

