-- ==== Sys2Proof/Machine/Tasks.lean ====
section
/-! DEFINITION. The task pool and task workgroups: records, spawning, dispatch, commit, splitting and parking (R220 to R237, R306, R307). -/

namespace Sys2Proof

namespace Machine

/-! ### Records (R222, R223) -/

/-- Fields of a task record's 512 bits (R222). -/
def tEntry (r : Nat) : Nat := bits r 56 0
def tFront (r : Nat) : Bool := r.testBit 57
def tNosplit (r : Nat) : Bool := r.testBit 58
def tArgs (r : Nat) : Nat := bits r 127 64
/-- Coordinate, extent and grain of dimension `d`. -/
def tPos (r d : Nat) : Nat := bits r (143 + 16 * d) (128 + 16 * d)
def tExt (r d : Nat) : Nat := bits r (207 + 16 * d) (192 + 16 * d)
def tGrain (r d : Nat) : Nat := bits r (243 + 4 * d) (240 + 4 * d)
def tDepth (r : Nat) : Nat := bits r 255 252
def tSucc (r : Nat) : Nat := bits r 312 256
def tTime (r : Nat) : Nat := bits r 343 320
def tSpad (r : Nat) : Nat := bits r 355 344
def tStage (r : Nat) : Nat := bits r 371 364
def tPrio (r : Nat) : Nat := bits r 423 416
def tGen (r : Nat) : Nat := bits r 431 424

/-- Replace bits `[hi:lo]` of a number. -/
def setBits (x hi lo v : Nat) : Nat := x - bits x hi lo * 2 ^ lo + v % 2 ^ (hi + 1 - lo) * 2 ^ lo

/-- A record is invalid for what it holds itself (R223). -/
def tShapeBad (r : Nat) : Bool :=
  bits r 63 59 != 0 || bits r 319 313 != 0 || bits r 383 372 != 0 || bits r 447 432 != 0 || tEntry r % 64 != 0
  || (List.range 3).any (fun d => tExt r d == 0) || 2016 < tSpad r || 16 < bits r 363 356 || tSucc r % 16 != 0

/-- A record is valid: its entry names a kernel descriptor marked `.task` (R223). -/
def State.recordOk (s : State) (pasid r : Nat) : Bool :=
  !tShapeBad r && (match s.hubNum pasid (tEntry r) 64 with | some k => kTask k && !kBad k | none => false)

/-- Its descriptor lies in a host page whose translation is outstanding. -/
def State.recordWaits (s : State) (pasid r : Nat) : Bool :=
  !tShapeBad r && s.hubFault pasid (tEntry r) false == some (.translation, 2)

/-- Bytes of scratchpad that a record's workgroup takes under its kernel: its allocation, and its staging area beside it (R225). -/
def tBytes (r k : Nat) : Nat × Nat := (1024 * (if tSpad r = 0 then kScratch k else tSpad r), 1024 * tStage r)

/-- No core can ever hold the workgroup of a valid record: its allocation with its staging area, or its accumulators (R252, R298, R306). -/
def State.taskNeverFits (s : State) (pasid r : Nat) : Bool :=
  match s.hubNum pasid (tEntry r) 64 with
  | none => false
  | some k => !((List.range Config.cores).any (fun c => !(s.core c).poweredOff && decide ((tBytes r k).1 + (tBytes r k).2 ≤ s.areaBytes c) && decide (kAcc k ≤ s.accRoom c)))

/-! ### The pool (R225, R307) -/

/-- Task workgroups of a context that are resident. -/
def State.taskWgs (s : State) (p : Nat) : List Workgroup :=
  (s.wgs.map (·.2)).filter (fun w => w.isTask && w.pasid == p && w.state != .ended)

/-- Places of a context's pool area in use. -/
def State.usedPlaces (s : State) (p : Nat) : List Nat :=
  (s.ctx p).pool.map (·.place) ++ (s.ctx p).parked.map (·.place) ++ (s.taskWgs p).map (·.place)

/-- The pool has room for `n` more records beyond its reserve of two places for each resident task workgroup. -/
def State.poolRoom (s : State) (p n : Nat) : Bool :=
  (s.usedPlaces p).length + n + 2 * (s.taskWgs p).length ≤ (s.ctx p).taskPlaces.toNat

/-- The lowest free place. -/
def State.freePlace (s : State) (p : Nat) : Nat :=
  let u := s.usedPlaces p
  ((List.range (u.length + 1)).find? (fun i => !u.contains i)).getD 0

/-- Place a record in the pool, at the front or the back of its priority's list. -/
def State.poolPut (p : Nat) (front : Bool) (r : Nat) (s : State) : State :=
  let i := s.freePlace p
  let x := PoolRec.mk i r
  (s.modCtx p (fun c => { c with pool := if front then x :: c.pool else c.pool ++ [x] })).hubPoke p (poolAddr (s.ctx p) i) (toBytes 64 r)

/-- A task-record, grain or uncommitted record of a workgroup's place (R343). -/
def State.taskRec (k : FKind) (w : Workgroup) (addr detail : Nat) (s : State) : State :=
  s.report { s.fibreRec (32 * w.id) k with src := 2, addr := addr, detail := detail }
    { RecInfo.zero with wg := w.id, place := w.place, what := 3 }

/-! ### Successor counters (R224, R233) -/

/-- How an access to a counter block ends. -/
inductive BlockRes where
  | ok (key : Nat)
  | wait
  | bad (kind : FKind) (sub : Nat)
deriving DecidableEq, Repr

/-- The checks of an access to the block at `a` (R233). A block with a nonzero reserved field is rejected as one that supports no such access (R10, R224; DESIGN CHOICE,
log 49: the chapter names no error). -/
def State.blockAt (s : State) (p a : Nat) : BlockRes :=
  match s.walk p (a / 4096) with
  | (.ok, leaf, frame) =>
    if !(leaf.getLsbD 1 && leaf.getLsbD 2) then .bad .protection 0
    else if fieldB leaf 7 6 = 1 then
      (match Sparse.get 0 (a / 4096) (s.ctx p).ats with
        | 0 => .wait
        | 1 => .bad .translation 2
        | _ => .bad .unsupported 0)
    else if fieldB leaf 5 4 = 0 ∨ fieldB leaf 5 4 = 3 then
      let k := s.dev.pageKey leaf frame + a % 4096
      let n := rdNum s.mem k 16
      (if s.sectorBad (sectorOf k) then .bad .dataCheck 0 else if bits n 63 32 ≠ 0 ∨ bits n 127 121 ≠ 0 then .bad .unsupported 0 else .ok k)
    else .bad .unsupported 0
  | (.none_, _, _) => .bad .translation 0
  | _ => .bad .translation 3

/-- The commit or the split of a workgroup waits for the service of a fault. -/
def State.taskWaits (w : Nat) (k : FKind) (sub acc addr detail : Nat) (pc : Word64) (prg : Option Nat) (s : State) : State :=
  (s.report { s.fibreRec (32 * w) k with src := 1, acc := acc, sub := sub, addr := addr, detail := detail, pc := pc }
    { RecInfo.zero with fib := 32 * w, wg := w, page := addr / 4096, prg := prg, what := 2 }).modWg w (fun x => { x with waits := true })

/-- A faulting access of a workgroup's commit or split at `a`: with a page request where the page is absent. -/
def State.taskFault (w : Nat) (k : FKind) (sub acc a : Nat) (pc : Word64) (block : Bool) (s : State) : State :=
  let p := (s.wg w).pasid
  if k = .translation ∧ sub = 2 then
    match s.ensurePrg p (a / 4096) (acc != 0) with
    | none => s
    | some t =>
      let i := ((t.ctx p).prgOf (a / 4096)).map (·.idx)
      t.taskWaits w k sub acc a (if block then a else i.getD 0) pc i
  else s.taskWaits w k sub acc a (if block then a else 0) pc none

/-- A successor-counter record (R344). -/
def State.blockRec (w sub : Nat) (pc : Word64) (s : State) : State :=
  let a := tSucc (s.wg w).task
  s.report { s.fibreRec (32 * w) .successor with src := 1, sub := sub, detail := a, pc := pc } { RecInfo.zero with wg := w }

/-- The record that a counter spawns: checked and placed; one that is invalid writes a task-record record, and so does one that cannot be read, which R233 does not
speak of (DESIGN CHOICE, log 49). R224 gives no check of its
address, and it is read as it stands where the address is no multiple of 64 (DESIGN CHOICE, log 49). -/
def State.spawnSucc (p a : Nat) (f : FRec) (s : State) : State :=
  match s.hubNum p a 64 with
  | some r =>
    if s.recordOk p r then s.poolPut p (tFront r) r
    else s.report { f with kind := .taskRecord, src := 2, addr := a, detail := a } RecInfo.zero
  | none => s.report { f with kind := .taskRecord, src := 2, addr := s.hubBadAddr p a 64 false, detail := a } RecInfo.zero

/-- Decrement the block at key `k` (R233). The second result is false while the pages that the spawned record needs, or a place of the pool, are waited
for: the host is asked for the pages. -/
def State.decrement (p k : Nat) (f : FRec) (a : Nat) (s : State) : State × Bool :=
  let n := rdNum s.mem k 16
  let count := bits n 31 0
  let rec_ := bits n 120 64
  if count = 0 then (s.report { f with kind := .successor, sub := 0, src := 1, detail := a } RecInfo.zero, true)
  else if count ≠ 1 ∨ rec_ = 0 then ((s.homeWrite k (toBytes 4 (count - 1))).hubTouch p a true k 4, true)
  else if s.hubFault p rec_ false = some (.translation, 2) then (s.askHost p rec_ false, false)
  else match s.hubNum p rec_ 64 with
    | some r =>
      if s.recordWaits p r then (s.askHost p (tEntry r) false, false)
      else if s.recordOk p r && !s.poolRoom p 1 then (s, false)
      else (((s.homeWrite k (toBytes 4 0)).hubTouch p a true k 4).spawnSucc p rec_ f, true)
    | none => (((s.homeWrite k (toBytes 4 0)).hubTouch p a true k 4).spawnSucc p rec_ f, true)

/-! ### Instructions (R226, R227, R230, R231, R236) -/

/-- TKSPAWN (R227). A nonzero bit of [63:57] faults whatever the lanes, and a record whose descriptor lies in a host page that is not there waits for the
page (DESIGN CHOICE, log 49). -/
def execTkspawn (b : BitVec 7) (_l : BitVec 4) (s : State) : Out' :=
  .next (s.issue (Uses.rdU b.toNat) (fun t =>
    let x := t.usrc b.toNat
    let va := fieldB x 56 0
    if fieldB x 63 57 ≠ 0 then t.precise .illegalInstruction 0
    else if !t.someDoer then t.finish
    else t.withAccess accRead 64 64 (fun _ => true) (fun _ => va) [0] (fun oks fs q =>
      if q.meetsWrites oks then q.stall .acknowledge
      else match oks.head? with
        | none => q.splitFaults (q.allFaults fs) Uses.none (fun _ r => r)
        | some o =>
          let r := ofBytes (o.2.flatMap (fun p => rdBytes q.mem p.1 p.2.1))
          let p := q.myPasid
          let bad := fun (k : FKind) (d : Nat) => q.splitFaults (q.allFaults [⟨0, k, 0, accRead, va, d⟩]) Uses.none (fun _ r => r)
          if o.2.any (fun p => q.rangeBad p.1 p.2.1) then bad .dataCheck 0
          else if q.recordWaits p r then (q.askHost p (tEntry r) false).stall .translation
          else if !q.recordOk p r then bad .taskRecord va
          else if q.inTask then
            if q.myWg.stageSize < q.myWg.stagedUsed + 64 then q.trigger q.me.wg q.cur.pc
            else (q.modWg q.me.wg (fun w => { w with stagedRecs := w.stagedRecs ++ [r], stagedUsed := w.stagedUsed + 64 })).finish
          else q.withRelease 2 (fun q => if q.poolRoom p 1 then (q.poolPut p (tFront r) r).finish else q.stall .poolRoom))))

/-- TKEND (R231). -/
def execTkend (_l : BitVec 4) (s : State) : Out' :=
  .next (s.issue Uses.none (fun t =>
    (if t.inTask then t.modWg t.me.wg (fun w => { w with tkend := true, trigger := some t.cur.pc }) else t).exitActive))

/-- Dimension of a split: it qualifies, and its extent is the largest, x before y before z (R234). -/
def splitDim (r : Nat) : Option Nat :=
  let q := (List.range 3).filter (fun d => 2 ^ tGrain r d ≤ tExt r d / 2)
  q.find? (fun d => q.all (fun e => tExt r e ≤ tExt r d))

/-- A task would be parked instead of split (R234). -/
def parks (r : Nat) : Bool := tDepth r == 15 || tNosplit r || (splitDim r).isNone

/-- The children of a split along dimension `d`: low and high (R234). -/
def children (r d : Nat) : Nat × Nat :=
  let h := tExt r d / 2
  let up := setBits (setBits r 255 252 (tDepth r + 1)) 431 424 (min 255 (tGen r + 1))
  (setBits up (207 + 16 * d) (192 + 16 * d) h,
    setBits (setBits up (207 + 16 * d) (192 + 16 * d) (tExt r d - h)) (143 + 16 * d) (128 + 16 * d) (tPos r d + h))

/-- TKSPLIT (R236). -/
def execTksplit (_l : BitVec 4) (s : State) : Out' :=
  .next (s.issueIf (if s.inTask then none else some .illegalInstruction) Uses.none (fun t =>
    if parks t.myWg.task then t.finish
    else t.trigger t.me.wg t.cur.pc))

/-- Time units that a workgroup has used (R225). -/
def State.timeUsed (s : State) (w : Workgroup) : Nat := (w.timeAcc + (s.clock - w.timeSince)) / 1024

/-- TKINFO (R226); its result lands behind its shadow (R52, R53). -/
def execTkinfo (b d : BitVec 7) (l : BitVec 4) (s : State) : Out' :=
  .next (s.issue { (Uses.rdU b.toNat).and (Uses.wrU d.toNat) with la := l.toNat } (fun t =>
    let x := (t.usrc b.toNat).toNat
    let w := t.myWg
    if 10 ≤ x then t.precise .illegalInstruction 0
    else
      let v := if !w.isTask then 0
        else if x < 8 then bits w.task (64 * x + 63) (64 * x)
        else if x = 8 then t.timeUsed w else w.stagedUsed
      (t.lateVals l.toNat [⟨.u d.toNat, 0, BitVec.ofNat 64 v⟩]).finish))

/-- SALLOC and SFREE (R230): the checks, then the presence bits of the range. A range of length 0 beyond the allocation fails the check as any other
(DESIGN CHOICE, log 49). -/
def State.spadRange (b : BitVec 7) (free : Bool) (s : State) : State :=
  s.issue (Uses.rdU b.toNat) (fun t =>
    let x := t.usrc b.toNat
    let off := fieldB x 20 0
    let n := fieldB x 52 32
    let w := t.myWg
    let bad := fun (k : FKind) => t.laneFault k accWrite (fieldB x 31 0)
    if fieldB x 63 53 ≠ 0 then t.precise .illegalInstruction 0
    else if off % 128 ≠ 0 ∨ n % 128 ≠ 0 then bad .misaligned
    else if fieldB x 31 23 ≠ 0 then bad .scratchpadRange
    else if w.ssize < off + n then
      (if w.isTask && !free then t.trigger t.me.wg t.cur.pc else bad .scratchpadRange)
    else
      let ls := linesOf (w.sbase + off) n
      (t.modCore w.core (fun c => if free then c.clearLines ls else c.setLines ls)).finish)

/-- SALLOC (R230). -/
def execSalloc (b : BitVec 7) (_l : BitVec 4) (s : State) : Out' := .next (s.spadRange b false)

/-- SFREE (R230). -/
def execSfree (b : BitVec 7) (_l : BitVec 4) (s : State) : Out' := .next (s.spadRange b true)

/-! ### Dispatch (R225, R298, R307) -/

/-- The record that is dispatched next: highest priority, first in the list. -/
def nextTask (l : List PoolRec) : Option PoolRec :=
  let top := l.foldl (fun m r => max m (tPrio r.image)) 0
  l.find? (fun r => tPrio r.image == top)

/-- Park a record with a record of a kind in the fault queue (R225, R235). -/
def State.parkTask (p : Nat) (k : FKind) (x : PoolRec) (f : FRec) (addr : Nat) (s : State) : State :=
  let s := s.modCtx p (fun c => { c with parked := c.parked ++ [x] })
  s.report { f with kind := k, src := 2, pasid := p, addr := addr, detail := poolAddr (s.ctx p) x.place }
    { RecInfo.zero with place := x.place, what := 3 }

/-- The pool keeps two free places for one more resident task workgroup (R225). -/
def State.splitRoom (s : State) (p : Nat) : Bool := (s.usedPlaces p).length + 2 * ((s.taskWgs p).length + 1) ≤ (s.ctx p).taskPlaces.toNat

/-- The next record of a context's pool starts on core `c` while the pool keeps two places for it, or is parked (R225). A read that meets a host page which ATS reports absent is a fault and parks it;
only an answer that is outstanding is waited for. One that no core can ever hold is parked as well (DESIGN CHOICE, log 49). -/
def State.dispatchTask (p c : Nat) (s : State) : State :=
  match nextTask (s.ctx p).pool with
    | none => s
    | some x =>
      if (s.ctx p).state != .active || !s.splitRoom p then s
      else
        let r := x.image
        let take := fun (t : State) => t.modCtx p (fun y => { y with pool := y.pool.erase x })
        let bad := fun (addr : Nat) => ((take s).parkTask p .taskRecord x { kind := .taskRecord } addr).wake
        let unread := fun (va len : Nat) =>
          let a := s.hubBadAddr p va len false
          if s.atsOpen p a false then s.askHost p a false else bad a
        match s.hubNum p (tEntry r) 64 with
        | none => unread (tEntry r) 64
        | some k =>
          if kBad k || !kTask k || s.taskNeverFits p r then bad (tEntry r)
          else
            let map := kArgmap k
            match s.hubNum p map (2 * kNargs k), s.hubGet p (tArgs r) (8 * kNargs k) with
            | some m, some _ =>
              let size := (tBytes r k).1
              match s.placeOn c p (kSlots k) (size + (tBytes r k).2) (kTiles k) (kAcc k) (kNbar k) with
              | none => s
              | some pl =>
                let args := (s.readArgs p k m (tArgs r)).getD []
                let id := s.dev.nextWg
                let w : Workgroup := { Workgroup.zero with
                  id := id, pasid := p, core := c, nfib := kNfib k, kps := kKps k, nlane := kLanes k,
                  x := tPos r 0, y := tPos r 1, z := tPos r 2, ssize := size, stageSize := 1024 * tStage r, ntile := kTiles k, nacc := kAcc k,
                  nbar := kNbar k, isTask := true, task := r, place := x.place, cg := id, cgSize := 1, descr := k }
                let s := (take s).modDev (fun d => { d with nextWg := id + 1 })
                { s.startWg w pl (argRegs m args) with tick := s.tick + kNargs k }
            | none, _ => unread map (2 * kNargs k)
            | _, none => unread (tArgs r) (8 * kNargs k)

/-- TASK_DISPATCH (R225, R307); swapped workgroups of the context go first (R318). -/
def execTaskDispatch (p c : Nat) (s : State) : Out' :=
  .next (if s.wgs.any (fun w => w.2.pasid == p && w.2.state == .swapped) then s else s.dispatchTask p c)

/-! ### The end of a workgroup (R231, R389) -/

/-- Fibres of a workgroup. -/
def State.fibresOf (s : State) (w : Nat) : List (Nat × Fibre) := s.fibres.filter (fun e => e.2.wg == w)

/-- Every fibre of a workgroup has exited. -/
def State.allExited (s : State) (w : Nat) : Bool := (s.fibresOf w).all (fun e => e.2.status == .exited)

/-- Engine operations, copies, stores and reductions of a workgroup are all performed. -/
def State.wgQuiet (s : State) (w : Nat) : Bool :=
  let c := s.core (s.wg w).core
  !(c.eng.any (fun o => o.wg == w)) && !(c.copies.any (fun o => o.wg == w)) && !(c.wbuf.any (fun o => o.wg == w))
  && !(c.reds.any (fun o => o.wg == w))

/-- Load-type accesses of a workgroup have all returned. -/
def State.wgLoadsBack (s : State) (w : Nat) : Bool := (s.fibresOf w).all (fun e => e.2.loadsBack)

/-- A workgroup leaves its core: its fibres, its slots and its allocations are free. -/
def State.freeWg (w : Nat) (s : State) : State :=
  let x := s.wg w
  let fs := s.fibresOf w
  let s := s.slots.foldl (fun t e => if e.2.wg == some w then t.setSlot e.1 { Slot.zero with lastIssue := e.2.lastIssue } else t) s
  let s := fs.foldl (fun t e => { t with fibres := Sparse.erase e.1 t.fibres, stalled := t.stalled.erase e.1 }) s
  let s := s.modDev (fun d => { d with defer := d.defer.filter (fun y => !(fs.any (fun e => e.1 == y.fib))) })
  let s := s.modCore x.core (fun c => { c with posted := c.posted.filter (fun f => !(fs.any (fun e => e.1 == f.1))) })
  ({ s with wgs := Sparse.erase w s.wgs }).wake

/-- Drop what a task has staged (R231, R232). -/
def Workgroup.dropStaged (x : Workgroup) : Workgroup := { x with staged := [], stagedRecs := [], sigs := [], stagedUsed := 0 }

/-! ### Commit (R231) -/

/-- A store or a reduction of core `c` that overlaps `n` bytes at a key is on its way: a later write of the core waits for it (R280). -/
def State.writeUnderWay (s : State) (c key n : Nat) : Bool :=
  (s.core c).wbuf.any (fun b => overlaps key n b.key b.data.length) || (s.core c).reds.any (fun r => overlaps key n r.key (if r.wide then 8 else 4))

/-- Drain staged stores in order until one must wait or faults. -/
def State.drainOne (w : Nat) (e : Staged) (s : State) : Option State :=
  let x := s.wg w
  match s.check x.core x.pasid accWrite e.data.length 1 (fun _ => true) e.va with
  | .miss v => some (s.modCore x.core (fun c => c.askWalk x.pasid v true))
  | .bad k sub va =>
    some (let s := s.modCore x.core (fun c => c.dropNeg [va / 4096])
      s.taskFault w k sub accWrite va e.pc false)
  | .ok ps =>
    if ps.any (fun p => s.writeUnderWay x.core p.1 p.2.1) then some s
    else
      let go := fun (a : State × List Byte) (p : Nat × Nat × Word64) =>
        let d := a.2.take p.2.1
        let lost := (a.1.core x.core).lost
        let t := (a.1.noteAccess w 1 e.va p.1 p.2.2).engWrite x.core (32 * w) w e.va p.1 p.2.2 d
        (if lost then t else t.modCore x.core (fun c => c.storeL1 p.1 d), a.2.drop p.2.1)
      let t := (ps.foldl go (s, e.data)).1
      some (t.modWg w (fun y => { y with staged := y.staged.drop 1 }))

/-- The identity fields of a workgroup's counter records. -/
def State.wgRec (s : State) (w : Nat) : FRec := { s.fibreRec (32 * w) .successor with pc := (s.wg w).trigger.getD 0 }

/-- One step of a commit (R231): 0 wait, 1 drain, 2 SIGs, 3 records, 4 counter, 5 free. -/
def State.commitStep (w : Nat) (s : State) : State :=
  let x := s.wg w
  let p := x.pasid
  let next := fun (t : State) => t.modWg w (fun y => { y with step := y.step + 1 })
  match x.step with
  | 0 => if s.wgLoadsBack w && s.wgQuiet w then next s else s
  | 1 =>
    (match x.staged with
      | [] => next s
      | e :: _ => (s.drainOne w e).getD s)
  | 2 => s.withRoom p (fun t => next ((t.applySigs { t.fibreRec (32 * w) .timeline with src := 2 } x.sigs).modWg w (fun y => { y with sigs := [] })))
  | 3 =>
    (match x.stagedRecs with
      | [] => next s
      | r :: l => if s.poolRoom p 1 then (s.modWg w (fun y => { y with stagedRecs := l })).poolPut p (tFront r) r else s)
  | 4 =>
    if tSucc x.task = 0 then next s
    else
      (match s.blockAt p (tSucc x.task) with
        | .wait => s.askHost p (tSucc x.task) true
        | .bad k sub => s.taskFault w k sub accRmw (tSucc x.task) (x.trigger.getD 0) true
        | .ok key =>
          let r := s.decrement p key (s.wgRec w) (tSucc x.task)
          if r.2 then s.withRoom p (fun _ => next r.1) else r.1)
  | _ => s.freeWg w

/-- TASK_COMMIT (R231): a task workgroup whose fibres have all exited commits step by step, or ends uncommitted. -/
def execTaskCommit (w : Nat) (s : State) : Out' :=
  let x := s.wg w
  .next (if !x.isTask || !s.allExited w || x.waits || !(x.state == .running || x.state == .committing) then s
    else if x.tkend then ((s.modWg w (fun y => { y with state := .committing })).commitStep w).wake
    else if !(s.wgLoadsBack w && s.wgQuiet w) then s
    else ((s.modWg w Workgroup.dropStaged).taskRec .taskUncommitted x 0 (poolAddr (s.ctx x.pasid) x.place)).freeWg w)

/-- TASK_TIME_EXPIRY (R232, R237): the time count of a task reaches its allowance. No instruction triggers it, and a counter record of the split that follows has pc 0
(R233; DESIGN CHOICE, log 49). -/
def execTaskTimeExpiry (w : Nat) (s : State) : Out' :=
  let x := s.wg w
  .next (if x.isTask && x.state == .running && tTime x.task != 0 && decide (tTime x.task ≤ s.timeUsed x) && !s.allExited w then s.trigger w 0 else s)

/-! ### Unpicking (R232 to R235) -/

/-- The workgroup's task is parked, with its grain record, and the workgroup is freed (R235). -/
def State.parkWg (w : Nat) (s : State) : State :=
  let x := s.wg w
  (s.parkTask x.pasid .grain ⟨x.place, x.task⟩ (s.fibreRec (32 * w) .grain) 0).freeWg w

/-- The workgroup's task is replaced by its two children and the workgroup is freed (R234). -/
def State.splitWg (w : Nat) (s : State) : State :=
  let x := s.wg w
  match splitDim x.task with
  | none => s.parkWg w
  | some d =>
    let c := children x.task d
    ((s.freeWg w).poolPut x.pasid true c.2).poolPut x.pasid true c.1

/-- TASK_UNPICK (R232 to R235): a triggered task waits for its accesses, its results are dropped, and it is split or parked. -/
def execTaskUnpick (w : Nat) (s : State) : Out' :=
  let x := s.wg w
  let p := x.pasid
  let a := tSucc x.task
  .next (if x.state ≠ .unpicking || x.waits || !(s.wgLoadsBack w && s.wgQuiet w) then s
    else
      let s := s.modWg w Workgroup.dropStaged
      (if parks x.task then s.parkWg w
      else if a = 0 then s.splitWg w
      else match s.blockAt p a with
        | .wait => s.askHost p a true
        | .bad k sub => s.taskFault w k sub accRmw a (x.trigger.getD 0) true
        | .ok key =>
          let n := rdNum s.mem key 4
          if n = 2 ^ 32 - 1 then (s.blockRec w 1 (x.trigger.getD 0)).parkWg w
          else ((s.homeWrite key (toBytes 4 (n + 1))).hubTouch p a true key 4).splitWg w).wake)

end Machine

end Sys2Proof
end

