-- ==== Sys2Proof/Machine/Launch.lean ====
section
/-! DEFINITION. Launches: their checks, their admission and early start, dispatch and end of workgroups, confirmation, learning and
darning (R296 to R298, R320 to R337, R378, R379, R389). -/

namespace Sys2Proof

namespace Machine

/-! ### The packet (R296) -/

/-- Fields of a LAUNCH packet's 512 bits; a graph node's body has the same bits (R296, R304). -/
def lDesc (n : Nat) : Nat := bits n 120 64
def lArgs (n : Nat) : Nat := bits n 191 128
def lCg (n : Nat) : Nat := bits n 273 272
def lNx (n : Nat) : Nat := bits n 222 192
def lSop (n : Nat) : Nat := bits n 269 268
def lSctr (n : Nat) : Nat := bits n 267 256

/-- Reserved fields of a LAUNCH body are zero (R296). -/
def lReserved (n : Nat) : Bool :=
  bits n 127 121 != 0 || n.testBit 223 || n.testBit 271 || bits n 319 274 != 0 || bits n 511 404 != 0

/-- An illegal code of a LAUNCH body (R295, R296); the monitor's fields mean something with men = 1 only. -/
def lIllegal (n : Nat) : Bool :=
  lSop n == 3 || lDesc n % 64 != 0 || lArgs n % 8 != 0
  || (n.testBit 384 && (64 < bits n 391 385 || 64 < bits n 398 392 || bits n 403 399 < 6 || 24 < bits n 403 399))

/-- A core could hold a workgroup of a kernel if it were empty (R298). -/
def State.ableCore (s : State) (k c : Nat) : Bool :=
  !(s.core c).poweredOff && decide (1024 * kScratch k ≤ s.areaBytes c) && decide (kAcc k ≤ s.accRoom c)

/-- No core, or no cluster, can ever hold the launch (R298). -/
def State.neverFits (s : State) (k n : Nat) : Bool :=
  (lNx n + 1) % (lCg n + 1) != 0
  || !((List.range (Config.cores / 4)).any (fun q => lCg n + 1 ≤ ((List.range 4).filter (fun i => s.ableCore k (4 * q + i))).length))

/-- How the start of a launch ends: it began, it waits for a translation, or it is rejected with an err. -/
inductive LRes where
  | ok (l : Nat) (s : State)
  | wait (s : State)
  | bad (err : Nat)

/-- What an unreadable structure of a context gives: a wait for ATS or a page, or err 0x07. -/
def State.unread (s : State) (p a len : Nat) : LRes :=
  let va := s.hubBadAddr p a len false
  if s.hubFault p va false = some (.translation, 2) then .wait (s.askHost p va false) else .bad 0x07

/-- Begin a launch of queue `q` from LAUNCH bits `n`, with another argument block for the batch core and a graph slot for a graph's run
(R294, R295, R296). -/
def State.beginLaunch (q : Nat) (pidx user : Word) (hint strict : Bool) (n args : Nat) (graph : Option Nat) (s : State) : LRes :=
  let p := (s.queue q).pasid.toNat
  if lReserved n then .bad 0x02
  else if lIllegal n || args % 8 != 0 then .bad 0x03
  else match s.hubNum p (lDesc n) 64 with
    | none => s.unread p (lDesc n) 64
    | some k =>
      if kBad k then .bad 0x04
      else match s.hubNum p (kArgmap k) (2 * kNargs k) with
        | none => s.unread p (kArgmap k) (2 * kNargs k)
        | some m =>
          if (s.hubGet p args (8 * kNargs k)).isNone then s.unread p args (8 * kNargs k)
          else if s.neverFits k n then .bad 0x05
          else if lSop n ≠ 0 ∧ !s.ctrOk p (lSctr n) then .bad 0x06
          else
            let l := s.dev.nextLaunch
            let x : Launch := { Launch.zero with
              id := l, pasid := p, queue := q, pidx := pidx, user := user, launchid := (s.ctx p).nextLaunch, hint := hint, strict := strict,
              desc := lDesc n, args := args, nx := lNx n, ny := bits n 239 224, nz := bits n 255 240, cg := lCg n, sctr := lSctr n,
              sop := lSop n, ssc := n.testBit 270, sval := BitVec.ofNat 64 (bits n 383 320), men := n.testBit 384, lw := bits n 391 385,
              hw := bits n 398 392, wlog := bits n 403 399, kern := k, amap := m, graph := graph }
            .ok l (((s.setLaunch l x).modDev (fun d => { d with nextLaunch := l + 1 })).modCtx p (fun c => { c with nextLaunch := c.nextLaunch + 1 }))

/-! ### Admission and early start (R320, R324, R327, R379) -/

/-- The key hash of a launch from its arguments (R320). -/
def keyHash (k : Nat) (vals : List Word64) : Word :=
  (List.range (kNkey k)).foldl (fun h m => wring h (vals.getD (kKey k m) 0)) 0

/-- The virtual tiles of a set of extents for argument values (R323). -/
def extTiles (l : List Extent) (vals : List Word64) : List (Nat × Nat) :=
  l.map (fun e => ((vals.getD e.arg 0).toNat / 4096 + e.first, e.count))

/-- Two sets of runs meet. -/
def runsMeet (a b : List (Nat × Nat)) : Bool := a.any (fun x => b.any (fun y => decide (x.1 < y.1 + y.2) && decide (y.1 < x.1 + x.2)))

/-- Launch tags in use. -/
def State.tagsUsed (s : State) : List Nat := (s.launches.filter (fun e => e.2.admitted)).map (fun e => e.2.tag.toNat)

/-- The lowest free launch tag (R298). -/
def State.freeTag (s : State) : Option Nat := (List.range 256).find? (fun t => !s.tagsUsed.contains t)

/-- What a launch's record makes of it at admission (R321, R324). -/
def State.admitRecord (l : Nat) (s : State) : State :=
  let x := s.launch l
  let p := x.pasid
  if kNtrack x.kern = 0 then s
  else match s.readArgs p x.kern x.amap x.args with
    | none => s
    | some vals =>
      let h := keyHash x.kern vals
      match (s.ctx p).fpEnter x.desc h with
      | none => s
      | some i =>
        let r : FpRec := { (s.ctx p).fpAt i with kern := x.desc, hash := h }
        let s := s.setLaunch l { x with hash := h, fprec := some i, argVals := vals }
        let put := fun (t : State) (r : FpRec) => t.putFp p i r
        match r.state with
        | .learning => s.modLaunch l (fun y => { y with fprec := none })
        | .valid => s.modLaunch l (fun y => { y with fp := .checked, rset := extTiles r.read vals, wset := extTiles r.write vals })
        | st =>
          if st = .void ∧ r.perm then s.modLaunch l (fun y => { y with fprec := none })
          else (put s { r with state := .learning, llaunch := x.launchid }).modLaunch l (fun y => { y with fp := .learning })

/-- The early-start test of R327. -/
def State.earlyTest (s : State) (l : Nat) : Bool :=
  let x := s.launch l
  let ps := (s.predsOf l).map (·.2)
  !x.strict && x.fp == .checked && decide (ps.length ≤ 15)
  && ps.all (fun y => y.admitted && y.fp == .checked && !runsMeet y.wset (x.rset ++ x.wset) && !runsMeet y.rset x.wset)

/-- The hint lets a launch become resident: its predecessor's workgroups have all started and issued SUCC or ended, and every launch
before that one has completed (R241, R379). -/
def State.hintTest (s : State) (l : Nat) : Bool :=
  let x := s.launch l
  match (s.predsOf l).reverse with
  | [] => false
  | y :: older =>
    x.hint && older.isEmpty && y.2.begun == y.2.total && y.2.started
    && s.wgs.all (fun w => w.2.launch != some y.1 || w.2.succ)

/-- One more early start of a record (R327). -/
def State.countUse (l : Nat) (s : State) : State :=
  let x := s.launch l
  match x.fprec with
  | none => s
  | some i =>
    let r := (s.ctx x.pasid).fpAt i
    if r.kern = x.desc ∧ r.hash = x.hash then s.putFp x.pasid i { r with uses := satInc r.uses } else s

/-- A launch starts, and its argument block is read (R375); `g` says how it starts. -/
def State.startLaunch (l : Nat) (g : Launch → Launch) (s : State) : State :=
  let x := s.launch l
  let vals := (s.readArgs x.pasid x.kern x.amap x.args).getD x.argVals
  s.modLaunch l (fun y => { g y with started := true, argVals := vals })

/-- A launch starts when its predecessors have confirmed, or early, or under the hint. -/
def State.tryStart (l : Nat) (s : State) : State :=
  let ps := s.predsOf l
  if ps.isEmpty then (s.startLaunch l id).wake
  else if s.earlyTest l then ((s.startLaunch l (fun x => { x with early := ps.map (·.1), wasEarly := true })).countUse l).wake
  else if s.hintTest l then (s.startLaunch l id).wake
  else s

/-- LAUNCH_ADMISSION (R298, R324, R327): a launch whose earlier launches of the stream have been admitted and have started is admitted: it takes a tag and
reads its record, whether or not it starts (DEDUCED, log 13: the stream of file 16 has launch 3 admitted with a VALID record). It starts after its
predecessors, early, or under the hint; one that does not start yet is tested again by the next event. -/
def execLaunchAdmission (l : Nat) (s : State) : Out' :=
  .next (if !(s.launches.any (fun e => e.1 == l)) || (s.ctx (s.launch l).pasid).state != .active || (s.launch l).started then s
    else if (s.launch l).admitted then s.tryStart l
    else if (s.predsOf l).any (fun e => !e.2.started) then s
    else match s.freeTag with
      | none => s
      | some t => (((s.modLaunch l (fun x => { x with admitted := true, tag := BitVec.ofNat 8 t })).admitRecord l).tryStart l).wake)

/-! ### Dispatch (R253, R298) -/

/-- Workgroup `i` of a launch on core `c`, as member of a cluster group. -/
def State.launchWg (x : Launch) (i c id cg : Nat) : Workgroup :=
  { Workgroup.zero with
    id := id, pasid := x.pasid, launch := some x.id, core := c, nfib := kNfib x.kern, kps := kKps x.kern, nlane := kLanes x.kern,
    x := i % (x.nx + 1), y := i / (x.nx + 1) % (x.ny + 1), z := i / ((x.nx + 1) * (x.ny + 1)),
    ssize := 1024 * kScratch x.kern, ntile := kTiles x.kern, nacc := kAcc x.kern, nbar := kNbar x.kern, cg := cg, cgSize := x.cg + 1,
    descr := x.kern }

/-- A place for a workgroup of a launch on core `c`. -/
def State.placeLaunch (s : State) (x : Launch) (c : Nat) : Option Place :=
  s.placeOn c x.pasid (kSlots x.kern) (1024 * kScratch x.kern) (kTiles x.kern) (kAcc x.kern) (kNbar x.kern)

/-- The cores on which the next cluster group starts together when its first choice is core `c`: that core alone, or members of its
cluster in ascending order (R298). -/
def State.groupCores (s : State) (x : Launch) (c : Nat) : List Nat :=
  if x.cg = 0 then [c] else (((List.range 4).map (fun i => c / 4 * 4 + i)).filter (fun d => (s.placeLaunch x d).isSome)).take (x.cg + 1)

/-- Start the next cluster group of launch `l`; none when its cores cannot hold it, or its arguments cannot be read. -/
def State.dispatch (l c : Nat) (s : State) : Option State :=
  let x := s.launch l
  let cs := s.groupCores x c
  if cs.length ≠ x.cg + 1 then none
  else (s.readArgs x.pasid x.kern x.amap x.args).bind (fun vals =>
    let id := s.dev.nextWg
    (cs.zipIdx.foldlM (fun (t : State) d =>
      (t.placeLaunch x d.1).map (fun pl => t.startWg (State.launchWg x (x.begun + d.2) d.1 (id + d.2) id) pl (argRegs x.amap vals))) s).map (fun t =>
      ({ t with tick := s.tick + kNargs x.kern }.modDev (fun d => { d with nextWg := id + x.cg + 1 })).modLaunch l (fun y =>
        { y with begun := y.begun + x.cg + 1 })))

/-- WORKGROUP_DISPATCH (R298): the next workgroup, or cluster group, of a launch starts on core `c`; swapped workgroups of the context
go first (R318). -/
def execWorkgroupDispatch (l c : Nat) (s : State) : Out' :=
  let x := s.launch l
  .next (if !(s.launches.any (fun e => e.1 == l)) || !x.started || x.failed || x.total ≤ x.begun || (s.ctx x.pasid).state != .active
      || s.wgs.any (fun w => w.2.pasid == x.pasid && w.2.state == .swapped) then s
    else match s.dispatch l c with
      | some t => t
      | none => if (s.readArgs x.pasid x.kern x.amap x.args).isNone then s.askHost x.pasid (s.hubBadAddr x.pasid x.args (8 * kNargs x.kern) false) false else s)

/-- No register of a workgroup awaits a pending write (R29). -/
def State.wgLanded (s : State) (w : Nat) : Bool := (s.fibresOf w).all (fun e => e.2.pend.isEmpty)

/-- A workgroup of launch `l` has ended (R389). Its slots and granules are free once no pending write to their registers is left (R29, R358). -/
def State.endWg (w l : Nat) (s : State) : State :=
  let last := (s.slots.filter (fun e => e.2.wg == some w)).foldl (fun m e => max m e.2.lastIssue) 0
  let s := (s.modLaunch l (fun y => { y with ended := y.ended + 1 })).modQueue (s.launch l).queue (fun y => { y with progress := max y.progress last })
  if s.wgLanded w then s.freeWg w else (s.modWg w (fun x => { x with state := .ended })).wake

/-- WORKGROUP_END (R389, R29): every fibre has exited and every engine operation and write is performed; of a workgroup that has ended, the last pending
write has landed. -/
def execWorkgroupEnd (w : Nat) (s : State) : Out' :=
  let x := s.wg w
  .next (match x.launch with
    | none => s
    | some l =>
      if x.state == .ended && s.wgs.any (fun e => e.1 == w) && s.wgLanded w then s.freeWg w
      else if x.state != .running || !s.allExited w || !s.wgQuiet w then s
      else s.endWg w l)

/-! ### Confirmation and learning (R324, R326, R328, R332) -/

/-- Insert into a rising list without repeats. -/
def insertUp (n : Nat) : List Nat → List Nat
  | [] => [n]
  | m :: l => if n < m then n :: m :: l else if n = m then m :: l else m :: insertUp n l

/-- Maximal runs of a rising list, as first and count. -/
def runsOf : List Nat → List (Nat × Nat)
  | [] => []
  | n :: l => match runsOf l with
    | (m, c) :: r => if m = n + 1 then (n, c + 1) :: r else (n, 1) :: (m, c) :: r
    | [] => [(n, 1)]

/-- Cut a run into pieces of at most 2^24 − 1 tiles; `fuel` bounds their number. -/
def cutRun : Nat → Nat × Nat → List (Nat × Nat)
  | 0, r => [r]
  | n + 1, r => if r.2 ≤ 2 ^ 24 - 1 then [r] else (r.1, 2 ^ 24 - 1) :: cutRun n (r.1 + (2 ^ 24 - 1), r.2 - (2 ^ 24 - 1))

/-- The argument a tile is attributed to, with the tile's offset: the least offset, then the lowest index (R326). -/
def tileArg (ptrs : List (Nat × Nat)) (t : Nat) : Option (Nat × Nat) :=
  ptrs.foldl (fun b p =>
    if p.2 ≤ t ∧ t - p.2 ≤ 2 ^ 24 - 1 then
      (match b with
        | none => some (p.1, t - p.2)
        | some q => if t - p.2 < q.2 ∨ (t - p.2 = q.2 ∧ p.1 < q.1) then some (p.1, t - p.2) else b)
    else b) none

/-- The extents of a set of tiles, by argument and first tile (R326). -/
def extentsOf (ptrs : List (Nat × Nat)) (tiles : List Nat) : List Extent :=
  let at_ := tiles.filterMap (tileArg ptrs)
  ((ptrs.map (·.1)).foldl (fun l a => insertUp a l) []).flatMap (fun a =>
    ((runsOf (((at_.filter (fun x => x.1 == a)).map (·.2)).foldl (fun l n => insertUp n l) [])).flatMap (cutRun 256)).map (fun r => ⟨a, r.1, r.2⟩))

/-- The tracked pointers of a launch: argument index and tile. -/
def trackPtrs (k : Nat) (vals : List Word64) : List (Nat × Nat) :=
  (List.range (kNtrack k)).map (fun m => (kTrack k m, (vals.getD (kTrack k m) 0).toNat / 4096))

/-- The record that compaction makes of a learning launch (R326). -/
def compact (r : FpRec) (x : Launch) (vals : List Word64) : FpRec :=
  let ptrs := trackPtrs x.kern vals
  let tr := (x.learnR.map (· % 2 ^ 45)).eraseDups
  let tw := (x.learnW.map (· % 2 ^ 45)).eraseDups
  let er := extentsOf ptrs tr
  let ew := extentsOf ptrs tw
  let many := decide (32 < er.length) || decide (32 < ew.length) || x.overflow
  let both := tr.any (fun t => tw.contains t)
  let lost := (tr ++ tw).any (fun t => (tileArg ptrs t).isNone)
  let why := if many then 1 else if x.sawAtomic then 2 else if x.sawHost then 3 else if both then 4 else if lost then 5 else if x.sawRemote then 6 else 0
  let r : FpRec := { r with read := er.take 32, write := ew.take 32, atomics := x.sawAtomic, host := x.sawHost, overlap := both }
  if why = 0 then { r with state := .valid, perm := false } else r.void true why

/-- What a launch's confirmation makes of its record (R324, R332). -/
def State.confirmRecord (l : Nat) (s : State) : State :=
  let x := s.launch l
  match x.fprec with
  | none => s
  | some i =>
    let r := (s.ctx x.pasid).fpAt i
    if r.kern ≠ x.desc ∨ r.hash ≠ x.hash then s
    else match x.fp with
      | .learning => s.putFp x.pasid i (compact r x x.argVals)
      | .checked =>
        if r.state = .valid ∧ (x.strayed ∨ x.causeOnly) then s.putFp x.pasid i (r.void false (if x.strayed then 7 else 8)) else s
      | .strict => s

/-- A launch is a predecessor of none any more; the marks and pre-images of a launch whose last predecessor it was are dropped
(R331, R333). -/
def State.noLongerPred (l : Nat) (s : State) : State :=
  let last := (s.launches.filter (fun e => e.2.early == [l])).map (·.1)
  let s : State := { s with launches := s.launches.map (fun (e : Nat × Launch) => (e.1, { e.2 with early := e.2.early.filter (· != l) })) }
  s.modCtx (s.launch l).pasid (fun c =>
    { c with pre := c.pre.filter (fun (y : PreImage) => !last.contains y.launch),
             marks := (c.marks.filter (fun (y : Mark) => !last.contains y.launch)).map (fun (y : Mark) => { y with held := y.held.filter (· != l) }) })

/-- The identity fields of a record about launch `l`. -/
def State.launchRec (s : State) (l : Nat) (k : FKind) : FRec :=
  let x := s.launch l
  { kind := k, src := 2, pasid := x.pasid, ltag := x.tag.toNat, queue := x.queue, launch := x.launchid.toNat, user := x.user.toNat }

/-- A completion signal: a release at its scope, then its operation (R301). The work that it covers may have used either host port, and at system scope both
are flushed (R284). -/
def State.signal (r : FRec) (op ctr : Nat) (sys : Bool) (v : Word64) (s : State) : State :=
  (if sys then (s.emit (.flush false)).emit (.flush true) else s).counterOp r op ctr v

/-- Every workgroup of a launch has ended, every predecessor has confirmed, and no darning of it is pending (R328). -/
def State.mayConfirm (s : State) (l : Nat) : Bool :=
  s.launches.any (fun e => e.1 == l) && ((s.launch l).completed || ((s.launch l).failed && (s.launch l).begun == (s.launch l).ended)) && (s.predsOf l).isEmpty
  && !(s.launch l).darnMarked

/-- LAUNCH_CONFIRM (R328, R332, R301): the record changes, held SIGs and the completion signal are applied; a failed launch is neither
confirmed nor signalled (R346). A record that finds no room holds the confirmation (R342). -/
def execLaunchConfirm (l : Nat) (s : State) : Out' :=
  let x := s.launch l
  .next (if !s.mayConfirm l then s
    else s.withRoom x.pasid (fun s =>
      let t := if x.failed then s
        else
          let t := (s.confirmRecord l).applySigs (s.launchRec l .timeline) x.sigs
          let t := if x.sop = 0 then t else t.signal (s.launchRec l .timeline) (x.sop - 1) x.sctr x.ssc x.sval
          t.modQueue x.queue (fun y => { y with progress := s.clock })
      let t := t.noLongerPred l
      ({ t with launches := Sparse.erase l t.launches }).wake))

/-- DARNING_START (R335): the first run's results are discarded and the launch runs again in full, early no more. -/
def execDarningStart (l : Nat) (s : State) : Out' :=
  .next (if s.launches.any (fun e => e.1 == l) && (s.launch l).completed && (s.predsOf l).isEmpty && (s.launch l).darnMarked then
      (((s.modLaunch l (fun x => { x with begun := 0, ended := 0, darning := true, darnMarked := false, wasEarly := false, early := [], sigs := [] })).modCtx
        (s.launch l).pasid (fun c => { c with pre := c.pre.filter (fun y => y.launch != l), marks := c.marks.filter (fun y => y.launch != l) }))).wake
    else s)

/-! ### Lost contexts, and the return to the core (R245, R324, R355, R357, R385) -/

/-- Records that a lost context's launches were learning become EMPTY (R324). -/
def State.forgetLearning (p : Nat) (s : State) : State :=
  (((s.ctx p).fp.filter (fun e => e.2.state == .learning)).map (·.1)).foldl (fun (t : State) i => t.putFp p i { (t.ctx p).fpAt i with state := .empty }) s

/-- A context is lost. -/
def State.loseContext (p : Nat) (s : State) : State :=
  ((s.forgetLearning p).modCtx p (fun c => { c with state := .lost })).report { kind := .contextLost, src := 2, pasid := p } RecInfo.zero

/-- The calls of fibre `f` whose lanes have all been answered. -/
def Ctx.callsDone (c : Ctx) (f : Nat) : List Word := (c.calls.filter (fun k => k.fib == f && k.answered == k.lanes)).map (·.tag)

/-- OFFCORE_RETURN (R245, R385): every call that has been answered ends; a fibre that waits at FBAR waits on (R110). -/
def execOffcoreReturn (f : Nat) (s : State) : Out' :=
  let x := s.fibre f
  let p := (s.wg x.wg).pasid
  .next (if x.resident || x.status == .exited || x.extracted || (s.ctx p).state != .active || (s.wg x.wg).state != .running || ((s.ctx p).callsDone f).isEmpty then s
    else match s.returnPlace f, s.unasked p (s.offPlace f) 24576 with
      | some _, some a => s.askHost p a false
      | some (j, pos), none =>
        (match s.readImage f (s.offPlace f) with
        | none => s.loseContext p
        | some d =>
          let s := s.modFibre f (fun y => { y.startClock s.clock with resident := true, slot := j % 16, pos := pos })
          let s := s.stopAs f .ready
          let s := s.modSlot j (fun t => { t with wg := some x.wg })
          (((s.ctx p).callsDone f).foldl (fun t g => t.callDone f g) (s.takeImage f d)).rest f)
      | none, _ => s)

end Machine

end Sys2Proof
end

