-- ==== Sys2Proof/Machine/Packets.lean ====
section
/-! DEFINITION. Queues and their slots, and every packet: launches, graphs, tasks, waits, signals, links, footprints, copies, markers
(R288 to R311). -/

namespace Sys2Proof

namespace Machine

/-! ### Queues and slots (R290 to R292, R295) -/

/-- A queue that leaves its parked state otherwise than by its wait forgets the WAIT or LTAKE that it was parked on (R295, R300, R302). -/
def Queue.leave (x : Queue) : Queue := if x.state = .onWait ∨ x.state = .onLtake then { x with open_ := x.open_.dropLast } else x

/-- Write the state of a queue as R290 shows it with its err. -/
def State.queueError (q err : Nat) (s : State) : State :=
  s.modQueue q (fun x => { x.leave with state := .error, err := BitVec.ofNat 8 err, mapped := false })

/-- A queue-error record (R295, R343, R344). -/
def State.queueRec (q err : Nat) (user : Word) (detail : Nat) (s : State) : State :=
  s.report { kind := .queueError, src := 2, pasid := (s.queue q).pasid.toNat, queue := q, code := err, user := user.toNat, detail := detail } RecInfo.zero

/-- A packet is rejected (R295): no effect, the queue in error with ri left at it, and a record. -/
def State.reject (q err : Nat) (user : Word) (s : State) : State :=
  ((s.queueRec q err user (s.queue q).ri.toNat).queueError q err).wake

/-- Packets a queue has pending. -/
def Queue.pending (x : Queue) : Bool := x.ri != x.wi

/-- A queue that may be mapped (R292). -/
def Queue.runnable (x : Queue) : Bool := x.en && x.state == .idle && !x.mapped && x.pending

/-- A queue of a context that is running. -/
def State.queueLive (s : State) (x : Queue) : Bool := (s.ctx x.pasid.toNat).state == .active

/-- Runnable queues, in the order of the map. -/
def State.runnables (s : State) : List (Nat × Queue) := s.dev.queues.filter (fun e => e.2.runnable && s.queueLive e.2)

/-- The first queue that takes a free slot: highest qprio, then longest waiting (R292). -/
def bestQueue : List (Nat × Queue) → Option (Nat × Queue)
  | [] => none
  | e :: l => match bestQueue l with
    | none => some e
    | some b =>
      if e.2.qprio < b.2.qprio ∨ (e.2.qprio = b.2.qprio ∧ b.2.readySince < e.2.readySince) then some b else some e

/-- Mapped queues. -/
def State.mappedQueues (s : State) : List (Nat × Queue) := s.dev.queues.filter (fun e => e.2.mapped)

/-- A queue loses its slot (R292). -/
def State.unmap (q : Nat) (s : State) : State :=
  s.modQueue q (fun x => { x with mapped := false, yieldSlot := false, readySince := s.clock, state := if x.state = .mapped then .idle else x.state })

/-- QUEUE_MAP (R292): a free slot, or the slot of a mapped queue of no higher priority whose quantum has run out. -/
def execQueueMap (q : Nat) (s : State) : Out' :=
  let take := fun (t : State) => (t.modQueue q (fun x => { x with mapped := true, state := .mapped, progress := t.clock })).wake
  .next (if s.dev.mgmt.takeover || (bestQueue s.runnables).map (·.1) != some q then s
    else if s.mappedQueues.length < 64 then take s
    else match s.mappedQueues.find? (fun e => e.2.yieldSlot && decide (e.2.qprio ≤ (s.queue q).qprio)) with
      | none => s
      | some e => take (s.unmap e.1))

/-- QUEUE_QUANTUM_EXPIRY (R292): the queue has held its slot for one quantum; it loses it when a queue of equal or higher priority waits
and no slot is free, now or later. -/
def execQueueQuantumExpiry (q : Nat) (s : State) : Out' :=
  .next (if !(s.queue q).mapped then s
    else if 64 ≤ s.mappedQueues.length ∧ s.runnables.any (fun e => (s.queue q).qprio ≤ e.2.qprio) then s.unmap q
    else s.modQueue q (fun x => { x with yieldSlot := true }))

/-- A new write index (R291). -/
def State.doorbell (q : Nat) (wi : Word) (s : State) : State :=
  let x := s.queue q
  if 2 ^ x.lsize.toNat < (wi - x.ri).toNat then
    ((s.modQueue q (fun y => { y with wi := wi })).queueRec q 1 0 x.ri.toNat).queueError q 1
  else s.modQueue q (fun y => { y with wi := wi, readySince := if y.pending then y.readySince else s.clock })

/-- DOORBELL (R289, R291): during a takeover it is latched. -/
def execDoorbell (q : Nat) (wi : Word) (s : State) : Out' :=
  .next (if s.dev.mgmt.takeover then s.modDev (fun d => { d with mgmt := { d.mgmt with latched := d.mgmt.latched ++ [(q, wi)] } })
    else (s.doorbell q wi).wake)

/-- A queue is enabled (R295): out of state 5 with err cleared; ri stays. -/
def Queue.enable (clock : Nat) (x : Queue) : Queue :=
  if x.state = .disabled then { x with en := true, state := .idle, err := 0, readySince := clock } else { x with en := true }

/-- A queue is disabled (R295). -/
def Queue.disable (x : Queue) : Queue := { x.leave with en := false, state := .disabled, mapped := false, yieldSlot := false }

/-- QUEUE_ENABLE (R295). -/
def execQueueEnable (q : Nat) (s : State) : Out' := .next (s.modQueue q (Queue.enable s.clock)).wake

/-- QUEUE_DISABLE (R295). -/
def execQueueDisable (q : Nat) (s : State) : Out' := .next (s.modQueue q Queue.disable)

/-! ### Taking packets (R291, R293 to R295) -/

/-- Address of the packet at ri. -/
def Queue.packetAddr (x : Queue) : Nat := x.ring.toNat % 2 ^ 57 + 64 * (x.ri.toNat % 2 ^ x.lsize.toNat)

/-- The queue's earlier packets that are no LAUNCH are complete. -/
def State.othersDone (s : State) (q : Nat) : Bool := (s.queue q).open_.isEmpty

/-- Every earlier packet of the queue is complete: its launches have confirmed (R294). -/
def State.allDone (s : State) (q : Nat) : Bool := s.othersDone q && !(s.launches.any (fun e => e.2.queue == q && !e.2.failed))

/-- The packet at ri has begun (R289, R291). -/
def State.beginPacket (q : Nat) (s : State) : State := (s.modQueue q (fun x => { x with applied := some x.ri, ri := x.ri + 1 })).wake

/-- The packet at ri has begun and is complete, which is progress of the queue (R356). -/
def State.passPacket (q : Nat) (s : State) : State := (s.modQueue q (fun x => { x with progress := s.clock })).beginPacket q

/-- The packet at ri has begun and is not complete. -/
def State.openPacket (q : Nat) (s : State) : State := (s.modQueue q (fun x => { x with open_ := x.open_ ++ [x.ri] })).beginPacket q

/-- An open packet completes. -/
def State.closePacket (q : Nat) (i : Word) (s : State) : State := (s.modQueue q (fun x => { x.complete i with progress := s.clock })).wake

/-- Take the packet at ri of queue `q` if its kind is `kind` and it may begin: unknown kinds and nonzero header bits are rejected with err
0x02, a ring that cannot be read with 0x07. `k` gets the packet's bits and its user word. -/
def State.packet (q kind : Nat) (gate : State → Nat → Bool) (hdr : Bool) (k : Nat → Word → State → State) (s : State) : State :=
  let x := s.queue q
  if !x.en || !x.mapped || x.state != .mapped || !x.pending || s.dev.mgmt.takeover || !s.queueLive x then s
  else
    let p := x.pasid.toNat
    match s.hubNum p x.packetAddr 64 with
    | none =>
      if s.hubFault p x.packetAddr false = some (.translation, 2) then s.askHost p x.packetAddr false else s.reject q 0x07 0
    | some n =>
      let kd := bits n 7 0
      let user := BitVec.ofNat 32 (bits n 63 32)
      if kd ≠ kind ∧ 1 ≤ kd ∧ kd ≤ 10 then s
      else if !gate s q then s
      else if kd ≠ kind ∨ bits n 31 10 ≠ 0 ∨ (!hdr && bits n 9 8 != 0) then s.reject q 0x02 user
      else k n user s

/-- A structure that a packet names cannot be read: wait for ATS or a page, or reject with err 0x07. -/
def State.unreadPacket (q : Nat) (user : Word) (va len : Nat) (s : State) : State :=
  match s.unread (s.queue q).pasid.toNat va len with
  | .wait t => t
  | _ => s.reject q 0x07 user

/-- Write bytes a packet asks for; where they cannot be written the packet waits for ATS or a page, or is rejected with err 0x07. -/
def State.packetWrite (q : Nat) (user : Word) (va : Nat) (data : List Byte) (k : State → State) (s : State) : State :=
  let p := (s.queue q).pasid.toNat
  match s.hubPut p va data with
  | some t => k t
  | none =>
    let a := s.hubBadAddr p va data.length true
    if s.hubFault p a true = some (.translation, 2) then s.askHost p a true else s.reject q 0x07 user

/-- LAUNCH (R294, R296): begins when the packets before it that are no LAUNCH are complete. -/
def execLaunch (q : Nat) (s : State) : Out' :=
  .next (s.packet q 1 State.othersDone true (fun n user t =>
    match t.beginLaunch q (t.queue q).ri user (n.testBit 8) (n.testBit 9) n (lArgs n) none with
    | .ok _ u => u.beginPacket q
    | .wait u => u
    | .bad e => t.reject q e user))

/-! ### Counters and links (R300 to R302) -/

/-- WAIT (R300). -/
def execWait (q : Nat) (s : State) : Out' :=
  .next (s.packet q 4 (fun _ _ => true) false (fun n user t =>
    let i := bits n 75 64
    let thr := BitVec.ofNat 64 (bits n 191 128)
    if bits n 127 76 ≠ 0 ∨ bits n 511 192 ≠ 0 then t.reject q 0x02 user
    else if !t.ctrOk (t.queue q).pasid.toNat i then t.reject q 0x06 user
    else if thr ≤ t.counter i then t.passPacket q
    else (t.openPacket q).modQueue q (fun x => { x with state := .onWait, mapped := false, yieldSlot := false, waitCtr := i, waitThr := thr })))

/-- The identity fields of a record about queue `q`. -/
def State.queueFields (s : State) (q : Nat) (k : FKind) (user : Word) : FRec :=
  { kind := k, src := 2, pasid := (s.queue q).pasid.toNat, queue := q, user := user.toNat }

/-- SIGNAL with an operation: 0 add, 1 write; the event of the other operation leaves it (R301). -/
def State.signalPacket (q op : Nat) (s : State) : State :=
  s.packet q 5 State.allDone false (fun n user t =>
    let i := bits n 75 64
    let o := bits n 77 76
    if bits n 127 79 ≠ 0 ∨ bits n 511 192 ≠ 0 then t.reject q 0x02 user
    else if 2 ≤ o then t.reject q 0x03 user
    else if o ≠ op then t
    else if !t.ctrOk (t.queue q).pasid.toNat i then t.reject q 0x06 user
    else t.withRoom (t.queue q).pasid.toNat (fun t =>
      (t.signal (t.queueFields q .timeline user) op i (n.testBit 78) (BitVec.ofNat 64 (bits n 191 128))).passPacket q))

/-- SIGNAL, add (R301). -/
def execSignalAdd (q : Nat) (s : State) : Out' := .next (s.signalPacket q 0)

/-- SIGNAL, write (R301). -/
def execSignalWrite (q : Nat) (s : State) : Out' := .next (s.signalPacket q 1)

/-- Link `i`. -/
def State.link (s : State) (i : Nat) : QLink := Sparse.get QLink.zero i s.dev.links

/-- Change a link. -/
def State.modLink (i : Nat) (g : QLink → QLink) (s : State) : State := s.modDev (fun d => { d with links := Sparse.modify QLink.zero i g d.links })

/-- Reserved fields of LGIVE and LTAKE. -/
def linkReserved (n : Nat) : Bool := bits n 127 72 != 0 || bits n 511 160 != 0

/-- The queue that waits on a link takes its tokens if they are there (R302). -/
def State.linkWake (i : Nat) (s : State) : State :=
  let q := (s.link i).taker.toNat
  let x := s.queue q
  if x.state = .onLtake ∧ x.waitCtr = i ∧ x.waitThr.toNat ≤ (s.link i).tokens.toNat then
    ((s.modLink i (fun l => { l with tokens := l.tokens - x.waitThr.extractLsb' 0 32 })).modQueue q (fun y => y.unpark s.clock)).wake
  else s

/-- A link is granted to a context (R295). -/
def State.linkOk (s : State) (pasid i : Nat) : Bool := s.grantOk s.dev.linkGrant pasid i

/-- LGIVE (R302). -/
def execLgive (q : Nat) (s : State) : Out' :=
  .next (s.packet q 6 State.allDone false (fun n user t =>
    let i := bits n 71 64
    let x := (t.link i).tokens.toNat + bits n 159 128
    if linkReserved n then t.reject q 0x02 user
    else if (t.link i).giver.toNat ≠ q ∨ !t.linkOk (t.queue q).pasid.toNat i then t.reject q 0x06 user
    else t.withRoom (t.queue q).pasid.toNat (fun t =>
      let t := t.modLink i (fun l => { l with tokens := BitVec.ofNat 32 (min (2 ^ 32 - 1) x) })
      let t := if 2 ^ 32 ≤ x then t.report (t.queueFields q .linkSaturated user) RecInfo.zero else t
      (t.linkWake i).passPacket q)))

/-- LTAKE (R302). -/
def execLtake (q : Nat) (s : State) : Out' :=
  .next (s.packet q 7 (fun _ _ => true) false (fun n user t =>
    let i := bits n 71 64
    let k := BitVec.ofNat 32 (bits n 159 128)
    if linkReserved n then t.reject q 0x02 user
    else if (t.link i).taker.toNat ≠ q ∨ !t.linkOk (t.queue q).pasid.toNat i then t.reject q 0x06 user
    else if k ≤ (t.link i).tokens then (t.modLink i (fun l => { l with tokens := l.tokens - k })).passPacket q
    else (t.openPacket q).modQueue q (fun x =>
      { x with state := .onLtake, mapped := false, yieldSlot := false, waitCtr := i, waitThr := k.zeroExtend 64 })))

/-! ### Graphs (R303 to R305) -/

/-- Graph slot `g`. -/
def State.graph (s : State) (g : Nat) : Graph := Sparse.get Graph.zero g s.dev.graphs

/-- Change a graph slot. -/
def State.modGraph (g : Nat) (f : Graph → Graph) (s : State) : State := s.modDev (fun d => { d with graphs := Sparse.modify Graph.zero g f d.graphs })

/-- Graph slot `g` is granted to a context and no other context has loaded it. -/
def State.graphOk (s : State) (pasid g : Nat) : Bool :=
  s.dev.graphGrant.contains (g, pasid) && (match (s.graph g).owner with | none => true | some o => o == pasid)

/-- A node is invalid in an image of `nn` + 1 nodes (R304). -/
def nodeBad (nn n : Nat) : Bool :=
  let kind := bits n 7 0
  let next := bits n 24 16
  let alt := bits n 40 32
  kind == 0 || 4 < kind || bits n 15 8 != 0 || bits n 31 25 != 0 || bits n 63 41 != 0
  || (next != 256 && nn < next) || nn < alt || ((kind == 1 || kind == 4) && alt != 0)
  || (match kind with
    | 1 => lReserved n || lIllegal n
    | 4 => bits n 127 79 != 0 || bits n 511 192 != 0 || 2 ≤ bits n 77 76
    | _ => bits n 120 64 % 4 != 0 || bits n 511 121 != 0)

/-- Take a GRAPH packet of an operation; the events of the others leave it (R303). While the slot's graph runs, a load waits as a run and an unload do (DESIGN CHOICE,
log 49: R303 speaks of these two only). -/
def State.graphPacket (q op : Nat) (k : Nat → Nat → Word → State → State) (s : State) : State :=
  s.packet q 2 State.allDone true (fun n user t =>
    let o := bits n 67 64
    let g := bits n 71 68
    if bits n 127 80 ≠ 0 ∨ bits n 511 185 ≠ 0 then t.reject q 0x02 user
    else if 3 ≤ o ∨ (o = 0 ∧ bits n 184 128 % 64 ≠ 0) then t.reject q 0x03 user
    else if o ≠ op then t
    else if !t.graphOk (t.queue q).pasid.toNat g then t.reject q 0x06 user
    else if (t.graph g).running.isSome then t
    else k n g user t)

/-- GRAPH_LOAD (R303, R304). -/
def execGraphLoad (q : Nat) (s : State) : Out' :=
  .next (s.graphPacket q 0 (fun n g user t =>
    let nn := bits n 79 72
    let p := (t.queue q).pasid.toNat
    let va := bits n 184 128
    match (List.range (nn + 1)).mapM (fun i => t.hubNum p (va + 64 * i) 64) with
    | none => t.unreadPacket q user va (64 * (nn + 1))
    | some l =>
      if l.any (nodeBad nn) then t.reject q 0x04 user
      else (t.modGraph g (fun _ => { Graph.zero with owner := some p, nodes := l })).passPacket q))

/-- GRAPH_RUN (R303): the packet is open until the run ends. -/
def execGraphRun (q : Nat) (s : State) : Out' :=
  .next (s.graphPacket q 1 (fun n g user t =>
    if (t.graph g).nodes.isEmpty then t.reject q 0x04 user
    else (t.modGraph g (fun x => { x with running := some q, node := 0, active := [], hint := n.testBit 8, strict := n.testBit 9, user := user,
                                          pidx := (t.queue q).ri })).openPacket q))

/-- GRAPH_UNLOAD (R303). -/
def execGraphUnload (q : Nat) (s : State) : Out' := .next (s.graphPacket q 2 (fun _ g _ t => (t.modGraph g (fun _ => Graph.zero)).passPacket q))

/-- A run ends; its packet completes. -/
def State.graphEnd (g q : Nat) (s : State) : State :=
  (s.modGraph g (fun x => { x with running := none, node := 0, active := [] })).closePacket q (s.graph g).pidx

/-- A run that meets an error: its queue is in error, and the run is over. -/
def State.graphFail (g q err : Nat) (s : State) : State :=
  ((s.queueRec q err (s.graph g).user (s.graph g).pidx.toNat).queueError q err).graphEnd g q

/-- The run goes to node `n`, or ends (R304, R305). -/
def State.graphGo (g q n : Nat) (s : State) : State := if n = 256 then s.graphEnd g q else (s.modGraph g (fun x => { x with node := n })).wake

/-- Read the condition word of a node. -/
def State.condWord (g q n : Nat) (k : Nat → State → State) (s : State) : State :=
  let p := (s.queue q).pasid.toNat
  match s.hubNum p (bits n 120 64) 4 with
  | some v => k v s
  | none => match s.unread p (bits n 120 64) 4 with | .wait t => t | _ => s.graphFail g q 0x07

/-- GRAPH_NODE (R305): the run of graph slot `g` executes its node. -/
def execGraphNode (g : Nat) (s : State) : Out' :=
  .next (match (s.graph g).running, (s.graph g).nodes[(s.graph g).node]? with
    | some q, some n =>
      let x := s.graph g
      let next := bits n 24 16
      let alt := bits n 40 32
      let quiet := !(s.launches.any (fun e => e.2.graph == some g))
      if !s.queueLive (s.queue q) then s
      else match bits n 7 0 with
        | 1 =>
          (match s.beginLaunch q x.pidx x.user x.hint x.strict n (lArgs n) (some g) with
            | .ok _ t => t.graphGo g q next
            | .wait t => t
            | .bad e => s.graphFail g q e)
        | 2 =>
          if !x.active.contains x.node then ((s.modGraph g (fun y => { y with active := y.node :: y.active })).graphGo g q alt)
          else if !quiet then s
          else s.condWord g q n (fun v t =>
            if v ≠ 0 then t.graphGo g q alt else (t.modGraph g (fun y => { y with active := y.active.erase y.node })).graphGo g q next)
        | 3 => if !quiet then s else s.condWord g q n (fun v t => t.graphGo g q (if v ≠ 0 then alt else next))
        | _ =>
          if !quiet then s
          else if !s.ctrOk (s.queue q).pasid.toNat (bits n 75 64) then s.graphFail g q 0x06
          else s.withRoom (s.queue q).pasid.toNat (fun t =>
            (t.signal (t.queueFields q .timeline x.user) (bits n 77 76) (bits n 75 64) (n.testBit 78) (BitVec.ofNat 64 (bits n 191 128))).graphGo g q next)
    | _, _ => s)

/-! ### Tasks (R306) -/

/-- Read an array of task records; none where one cannot be read. -/
def State.readRecords (s : State) (p va : Nat) : Nat → Option (List Nat)
  | 0 => some []
  | n + 1 => match s.hubNum p va 64 with
    | none => none
    | some r => (State.readRecords s p (va + 64) n).map (fun l => r :: l)

/-- The first address of an array of task records that cannot be read. -/
def State.badRecord (s : State) (p va : Nat) : Nat → Nat
  | 0 => va
  | n + 1 => if (s.hubNum p va 64).isNone then va else State.badRecord s p (va + 64) n

/-- Go on with a TASKS packet: place its next record, or complete it (R306). -/
def State.tasksGo (x : TasksPkt) (s : State) : State :=
  let put := fun (l : List TasksPkt) (t : State) => t.modDev (fun d => { d with tasks := l })
  let others := s.dev.tasks.filter (fun y => y.queue != x.queue)
  match x.recs with
  | r :: l => if s.poolRoom x.pasid 1 then ((put (others ++ [{ x with recs := l }]) s).poolPut x.pasid (tFront r) r).wake else s
  | [] =>
    if x.drain && (!(s.ctx x.pasid).pool.isEmpty || !(s.taskWgs x.pasid).isEmpty) then s
    else (put others s).closePacket x.queue x.pidx

/-- TASKS (R306). A record whose workgroup no core can ever hold rejects the packet as such a launch does (R252, R298). -/
def execTasks (q : Nat) (s : State) : Out' :=
  .next (match s.dev.tasks.find? (fun x => x.queue == q) with
    | some x => if (s.ctx x.pasid).state = .active then s.tasksGo x else s
    | none => s.packet q 3 State.allDone false (fun n user t =>
      let p := (t.queue q).pasid.toNat
      let va := bits n 120 64
      let k := bits n 159 128
      if bits n 127 121 ≠ 0 ∨ bits n 511 161 ≠ 0 then t.reject q 0x02 user
      else if va % 64 ≠ 0 then t.reject q 0x03 user
      else match t.readRecords p va k with
        | none => t.unreadPacket q user (t.badRecord p va k) 64
        | some l =>
          match l.find? (fun r => t.recordWaits p r) with
          | some r => t.askHost p (tEntry r) false
          | none =>
            if l.any (fun r => !t.recordOk p r) then t.reject q 0x04 user
            else if l.any (fun r => t.taskNeverFits p r) then t.reject q 0x05 user
            else (t.modDev (fun d => { d with tasks := d.tasks ++ [⟨q, (t.queue q).ri, p, l, n.testBit 160⟩] })).openPacket q))

/-! ### Footprint and marker packets (R308, R311) -/

/-- Take a FOOTPRINT packet of an operation; the events of the others leave it (R308). -/
def State.footPacket (q op : Nat) (k : Nat → Word → State → State) (s : State) : State :=
  s.packet q 8 State.allDone false (fun n user t =>
    let o := bits n 67 64
    if bits n 127 68 ≠ 0 ∨ bits n 191 185 ≠ 0 ∨ bits n 255 224 ≠ 0 ∨ bits n 319 313 ≠ 0 ∨ bits n 383 373 ≠ 0 ∨ bits n 511 441 ≠ 0 then t.reject q 0x02 user
    else if 4 ≤ o then t.reject q 0x03 user
    else if o ≠ op then t
    else k n user t)

/-- Kernel and hash of a FOOTPRINT packet. -/
def pKern (n : Nat) : Nat := bits n 184 128
def pHash (n : Nat) : Word := BitVec.ofNat 32 (bits n 223 192)

/-- FOOTPRINT, query (R308): the whole record goes to memory; a key that the table does not hold reads as an empty place. -/
def execFootprintQuery (q : Nat) (s : State) : Out' :=
  .next (s.footPacket q 0 (fun n user t =>
    let c := t.ctx (t.queue q).pasid.toNat
    let r := match c.fpFind (pKern n) (pHash n) with | some i => c.fpAt i | none => FpRec.zero
    t.packetWrite q user (bits n 440 384) r.bytes (State.passPacket q)))

/-- FOOTPRINT, void (R308). -/
def execFootprintVoid (q : Nat) (s : State) : Out' :=
  .next (s.footPacket q 1 (fun n _ t => (t.fpVoid (t.queue q).pasid.toNat (pKern n) (pHash n)).passPacket q))

/-- FOOTPRINT, donate (R308); without a grant, err 0x06. -/
def execFootprintDonate (q : Nat) (s : State) : Out' :=
  .next (s.footPacket q 2 (fun n user t =>
    let p := (t.queue q).pasid.toNat
    let p2 := if n.testBit 372 then bits n 371 352 else p
    if p2 ≠ p ∧ !t.dev.donGrant.contains (p, p2) then t.reject q 0x06 user
    else (t.fpDonate p (pKern n) (pHash n) p2 (bits n 312 256) (BitVec.ofNat 32 (bits n 351 320))).passPacket q))

/-- FOOTPRINT, reset all (R308). -/
def execFootprintResetAll (q : Nat) (s : State) : Out' :=
  .next (s.footPacket q 3 (fun _ _ t => (t.fpResetAll (t.queue q).pasid.toNat).passPacket q))

/-- MARKER (R311). The 16 bytes have no place for the user word that R293 speaks of, and none is written (DESIGN CHOICE, log 49). -/
def execMarker (q : Nat) (s : State) : Out' :=
  .next (s.packet q 10 State.allDone false (fun n user t =>
    let va := bits n 120 64
    if bits n 511 121 ≠ 0 then t.reject q 0x02 user
    else if va = 0 then t.passPacket q
    else
      let r := t.stamp
      r.2.packetWrite q user va (toBytes 4 (t.queue q).ri.toNat ++ toBytes 4 q ++ toBytes 8 r.1.toNat) (State.passPacket q)))

/-! ### Rings whose descriptor lies in memory (R310) -/

/-- How a write to such a ring ends: written, full, or its memory faults at an address. -/
inductive RingRes where
  | ok (s : State)
  | full
  | bad (va : Nat)

/-- A ring descriptor is invalid: reserved bits, or a size that is no power of two (R310). -/
def ringBad (n : Nat) : Bool :=
  bits n 63 57 != 0 || bits n 127 96 != 0 || bits n 511 256 != 0 || popcount 32 (bits n 95 64) != 1

/-- Append an entry to the ring whose descriptor lies at `va` of a context. -/
def State.memRing (p va : Nat) (data : List Byte) (s : State) : RingRes :=
  match s.hubNum p va 64 with
  | none => .bad (s.hubBadAddr p va 64 false)
  | some n =>
    let size := bits n 95 64
    let tail := bits n 191 128
    let head := bits n 255 192
    if ringBad n then .bad va
    else if size ≤ (tail + 2 ^ 64 - head) % 2 ^ 64 then .full
    else
      let a := bits n 56 0 + data.length * (tail % size)
      match s.hubPut p a data with
      | none => .bad (s.hubBadAddr p a data.length true)
      | some t => match t.hubPut p (va + 16) (toBytes 8 (tail + 1)) with
        | none => .bad (va + 16)
        | some u => .ok u

/-- A ring whose memory faults is full; the context and the ring are logged and the fault vector is raised (R310). -/
def State.ringFault (p va at_ : Nat) (s : State) : State :=
  ((s.askHost p at_ true).logEvent .ring 0 (ringDetail p va)).raiseFault p

/-! ### COPY (R309) -/

/-- Change hub-die copy `i`. -/
def State.modHub (i : Nat) (g : HubCopy → HubCopy) (s : State) : State :=
  s.modDev (fun d => { d with copies := d.copies.map (fun y => if y.id == i then g y else y) })

/-- A copy ends with a status at an address (R309). -/
def State.hubEnd (i status : Nat) (k : Nat) (va : Nat) (s : State) : State :=
  s.modHub i (fun y => { y with finished := true, status := status, fcode := k, faddr := va })

/-- The status of a fault (R309). -/
def hubStatus (k : FKind) : Nat := match k with | .translation => 1 | .dataCheck => 3 | _ => 2

/-- A copy meets a fault: one that may pass waits, every other ends it. -/
def State.hubMeets (o : HubCopy) (k : FKind) (sub va : Nat) (w : Bool) (s : State) : State :=
  if k = .translation ∧ sub = 2 then s.askHost o.pasid va w else s.hubEnd o.id (hubStatus k) k.code va

/-- Bytes that the device may write from an address in one page of a context: as many as the egress windows hold (R364). -/
def State.hubRoom (s : State) (p va : Nat) : Nat :=
  match s.hubKey p va true with
  | some k => if isHost k then s.egressRoom p (k - hostKey 0) else 4096
  | none => 0

/-- Move the next bytes of a copy, up to a page end, the end of an egress window or a bad sector. -/
def State.hubMove (o : HubCopy) (s : State) : State :=
  let a := (o.src + o.done) % 2 ^ 57
  let b := (o.dst + o.done) % 2 ^ 57
  let left := o.len - o.done
  if left = 0 then s.hubEnd o.id 0 0 0
  else match s.hubFault o.pasid a false, s.hubFault o.pasid b true with
    | some f, _ => s.hubMeets o f.1 f.2 a false
    | none, some f => s.hubMeets o f.1 f.2 b true
    | none, none =>
      let n := min (min left (s.hubRoom o.pasid b)) (min (4096 - a % 4096) (4096 - b % 4096))
      match s.hubKey o.pasid a false, s.hubKey o.pasid b true with
      | some ka, some kb =>
        let m := if s.rangeBad ka n || s.rangeBad kb n then min n (min (64 - a % 64) (64 - b % 64)) else n
        if s.rangeBad ka m then s.hubEnd o.id 3 FKind.dataCheck.code a
        else if m < 64 ∧ s.rangeBad kb m then s.hubEnd o.id 3 FKind.dataCheck.code b
        else (((s.homeWrite kb (rdBytes s.mem ka m)).hubTouch o.pasid a false ka m).hubTouch o.pasid b true kb m).modHub o.id (fun y => { y with done := y.done + m })
      | _, _ => s

/-- The completion record of a copy (R309). -/
def HubCopy.image (o : HubCopy) : Nat :=
  o.done + o.status * 2 ^ 64 + o.fcode * 2 ^ 72 + o.queue * 2 ^ 80 + o.pidx.toNat * 2 ^ 96 + o.uw.toNat * 2 ^ 128 + o.faddr * 2 ^ 192

/-- The end of a copy: its record, its signal, and its packet completes (R309). -/
def State.hubFinish (o : HubCopy) (s : State) : State :=
  s.withRoom o.pasid (fun s =>
    let fin := fun (t : State) =>
      let t := if o.sop = 0 then t
        else t.signal (t.queueFields o.queue .timeline o.user) (o.sop - 1) o.sctr o.ssc o.sval
      (t.modDev (fun d => { d with copies := d.copies.filter (fun y => y.id != o.id) })).closePacket o.queue o.pidx
    if o.cring = 0 then fin s
    else match s.memRing o.pasid o.cring (toBytes 32 o.image) with
      | .ok t => fin t
      | .full => s
      | .bad va =>
        if o.warned then s
        else if s.atsOpen o.pasid va true then s.askHost o.pasid va true
        else (s.ringFault o.pasid o.cring va).modHub o.id (fun y => { y with warned := true }))

/-- Go on with a copy. -/
def State.hubGo (o : HubCopy) (s : State) : State :=
  if (s.ctx o.pasid).state = .active ∨ o.status = 4 then (if o.finished then s.hubFinish o else s.hubMove o) else s

/-- COPY (R309): begins the packet, or goes on with the copy that the queue's packet drives. -/
def execCopy (q : Nat) (s : State) : Out' :=
  .next (match s.dev.copies.find? (fun o => o.queue == q) with
    | some o => s.hubGo o
    | none => s.packet q 9 State.allDone false (fun n user t =>
      let p := (t.queue q).pasid.toNat
      let cring := bits n 312 256
      let sop := bits n 397 396
      if bits n 127 121 ≠ 0 ∨ bits n 191 185 ≠ 0 ∨ bits n 255 232 ≠ 0 ∨ bits n 319 313 ≠ 0 ∨ bits n 447 399 ≠ 0 then t.reject q 0x02 user
      else if sop = 3 then t.reject q 0x03 user
      else
        let go := fun (t : State) =>
          if sop ≠ 0 ∧ !t.ctrOk p (bits n 395 384) then t.reject q 0x06 user
          else
            let o : HubCopy :=
              { id := t.dev.nextId, queue := q, pidx := (t.queue q).ri, user := user, pasid := p, src := bits n 120 64, dst := bits n 184 128, len := bits n 231 192,
                cring := cring, uw := BitVec.ofNat 64 (bits n 383 320), sctr := bits n 395 384, sop := sop, ssc := n.testBit 398,
                sval := BitVec.ofNat 64 (bits n 511 448), done := 0, finished := false, warned := false, status := 0, fcode := 0, faddr := 0 }
            (t.modDev (fun d => { d with copies := d.copies ++ [o], nextId := d.nextId + 1 })).openPacket q
        if cring = 0 then go t
        else match t.hubNum p cring 64 with
          | none => t.unreadPacket q user cring 64
          | some r => if ringBad r then t.reject q 0x04 user else go t))

end Machine

end Sys2Proof
end

