-- ==== Sys2Proof/Machine/Save.lean ====
section
/-! DEFINITION. Pre-emption and resumption, the forward-progress swap and readmission (R154, R174, R219, R318, R353 to R355, R386). -/

namespace Sys2Proof

namespace Machine

/-! ### A workgroup changes its place -/

/-- Slots that a workgroup holds. -/
def State.slotsOf (s : State) (w : Nat) : List Nat :=
  (s.slots.filter (fun e => e.2.wg == some w)).map (fun e => e.1 % 16)

/-- A key of one range moved to another range. -/
def shiftKey (src dst n k : Nat) : Nat := if src ≤ k ∧ k < src + n then k - src + dst else k

/-- A tile or accumulator of a workgroup after its move. -/
def shiftRes (x : Workgroup) (pl : Place) (r : Nat) : Nat :=
  if x.tbase ≤ r ∧ r < x.tbase + x.ntile ∧ r < 32 then r - x.tbase + pl.tbase
  else if 32 + x.abase ≤ r ∧ r < 32 + x.abase + x.nacc ∧ r < 64 then r - x.abase + pl.abase
  else r

/-- A copy after the move of workgroup `w` from core `c` to `c2`: `k` is added to the numbers of its own operations. -/
def CopyOp.moved (o : CopyOp) (x : Workgroup) (c2 : Nat) (pl : Place) (k : Nat) : CopyOp :=
  let o : CopyOp := if o.wg = x.id then { o with id := o.id + k } else o
  if o.twg ≠ x.id then o
  else
    let bar := o.bar - x.bbase + pl.bbase
    if o.tile then
      let t := o.off - x.tbase + pl.tbase
      { o with tcore := c2, bar := bar, off := t, dst := tileKey c2 t 0 + (o.dst - tileKey x.core o.off 0) }
    else { o with tcore := c2, bar := bar, off := o.off - x.sbase + pl.sbase, dst := spadKey c2 (o.off - x.sbase + pl.sbase) }

/-- Move everything that workgroup `w` has on its core to a place on core `c2`; what is left of the old place is free. A core's scratchpad keeps the bytes
that the context leaves there (R253). -/
def State.moveWg (w c2 : Nat) (pl : Place) (s : State) : State :=
  let x := s.wg w
  let c := x.core
  let sl := s.slotsOf w
  let newSlot := fun (k : Nat) => match sl.idxOf? k with | some i => pl.slots.getD i k | none => k
  let a := s.core c
  let k := (s.core c2).nextId
  let spad := spadKey c x.sbase
  let spad2 := spadKey c2 pl.sbase
  let len := x.ssize + x.stageSize
  let mem := if c < Config.cores then copyBytes s.mem spad spad2 len else moveBytes s.mem spad spad2 len
  let mem := sl.foldl (fun m j => moveBytes m (spadKey c (0x1F8000 + 2048 * j)) (spadKey c2 (0x1F8000 + 2048 * newSlot j)) 2048) mem
  let mem := moveBytes mem (tileKey c x.tbase 0) (tileKey c2 pl.tbase 0) (16384 * x.ntile)
  let mem := moveBytes mem (accKey c x.abase 0) (accKey c2 pl.abase 0) (65536 * x.nacc)
  let lines := linesOf x.sbase x.ssize
  let gone := lines.filter (fun l => Sparse.get false l a.absent)
  let mineB := fun (b : Nat) => x.bbase ≤ b && decide (b < x.bbase + x.nbar)
  let b0 := pl.bbase
  let eng := (a.eng.filter (fun o => o.wg == w)).map (fun o =>
    { o with id := o.id + k, reads := o.reads.map (shiftRes x pl), writes := o.writes.map (shiftRes x pl) })
  let fibs := (s.fibresOf w).map (·.1)
  let moveFib := fun (f : Fibre) =>
    { f with core := c2, slot := newSlot f.slot,
             outst := f.outst.map (fun o => if o.cls == .copy || o.cls == .mat then { o with id := o.id + k } else o),
             pend := f.pend.map (fun p => { p with eng := p.eng.map (· + k) }) }
  let s := { s with mem := mem }
  let cps := (a.copies.filter (fun o => o.wg == w)).map (fun o => o.moved x c2 pl k)
  let s : State := { s with cores := s.cores.map (fun (e : Nat × Core) => (e.1, { e.2 with copies := (e.2.copies.filter (fun o => o.wg != w)).map (fun o => o.moved x c2 pl k) })) }
  let s := s.modCore c (fun y =>
    { y with absent := gone.foldl (fun m l => Sparse.erase l m) y.absent,
             barriers := y.barriers.filter (fun b => !mineB b.1), evals := y.evals.filter (fun b => !mineB b),
             eng := y.eng.filter (fun o => o.wg != w), wbuf := y.wbuf.filter (fun o => o.wg != w), reds := y.reds.filter (fun o => o.wg != w),
             posted := y.posted.filter (fun f => !fibs.contains f.1),
             ecc := y.ecc.filter (fun e => match e with
               | .vec t _ _ => !sl.contains t
               | .uni f _ => !fibs.contains f
               | .prd f _ => !fibs.contains f
               | .tile t => !(x.tbase ≤ t && decide (t < x.tbase + x.ntile))
               | .acc t => !(x.abase ≤ t && decide (t < x.abase + x.nacc))
               | _ => true) })
  let s := s.modCore c2 (fun y =>
    { y with absent := gone.foldl (fun m l => Sparse.set false (l + pl.sbase / 128 - x.sbase / 128) true m) y.absent,
             barriers := (a.barriers.filter (fun b => mineB b.1)).foldl (fun m b => Sparse.set Barrier.zero (b.1 - x.bbase + b0) b.2 m) y.barriers,
             evals := y.evals ++ (a.evals.filter mineB).map (fun b => b - x.bbase + b0),
             eng := y.eng ++ eng, copies := y.copies ++ cps,
             wbuf := y.wbuf ++ (a.wbuf.filter (fun o => o.wg == w)).map (fun o => { o with id := o.id + k, key := shiftKey spad spad2 len o.key }),
             reds := y.reds ++ (a.reds.filter (fun o => o.wg == w)).map (fun o => { o with id := o.id + k, key := shiftKey spad spad2 len o.key }),
             posted := y.posted ++ a.posted.filter (fun f => fibs.contains f.1), nextId := k + a.nextId, l1 := [] })
  let s := sl.foldl (fun (t : State) j =>
    let z := s.slot (16 * c + j)
    t.setSlot (16 * c2 + newSlot j) z) (sl.foldl (fun (t : State) j => t.setSlot (16 * c + j) Slot.zero) s)
  let s := fibs.foldl (fun (t : State) f => t.modFibre f moveFib) s
  let s := s.modCtx x.pasid (fun z => { z with recs := z.recs.map (fun r => if r.what == 1 && r.wg == w then { r with op := r.op + k } else r) })
  s.modWg w (fun y => { y with core := c2, firstSlot := pl.slots.headD 0, sbase := pl.sbase, tbase := pl.tbase, abase := pl.abase, bbase := pl.bbase })

/-! ### Saving (R154, R174, R219, R353) -/

/-- Outstanding loads of fibre `f` arrive. -/
def State.arriveAll (f : Nat) (s : State) : State := ((s.fibre f).pend.map (·.id)).foldl (fun t i => t.arrive f i) s

/-- Stores and reductions of a core are performed at their homes, in issue order, pass by pass while some can be; `fuel` bounds the passes. -/
def State.drainN (c : Nat) : Nat → State → State
  | 0, s => s
  | n + 1, s =>
    if (s.core c).wbuf.isEmpty && (s.core c).reds.isEmpty then s
    else
      let s := ((s.core c).wbuf.map (·.id)).foldl (fun t i => t.ackWrite c i) s
      State.drainN c n (((s.core c).reds.map (·.id)).foldl (fun t i => t.performRed c i) s)

/-- Everything that a core has to write is performed, but for what waits for a place of a full pre-image pool (R334). -/
def State.drainCore (c : Nat) (s : State) : State := s.drainN c ((s.core c).wbuf.length + (s.core c).reds.length + 1)

/-- Engine operations of a workgroup are performed where they can be; `fuel` bounds the passes. -/
def State.runEngines (w : Nat) : Nat → State → State
  | 0, s => s
  | n + 1, s =>
    let c := (s.wg w).core
    let ids := ((s.core c).eng.filter (fun o => o.wg == w)).map (·.id)
    if ids.isEmpty then s else State.runEngines w n (ids.foldl (fun t i => t.engineRun c i) s)

/-- Held LDFUT requests of a workgroup are withdrawn (R174). -/
def State.withdraw (w : Nat) (s : State) : State :=
  let fs := (s.fibresOf w).map (·.1)
  s.modDev (fun d => { d with defer := d.defer.filter (fun y => !fs.contains y.fib) })

/-- Everything that a workgroup has outstanding completes, as far as it can; answers to its LDFUTs that this brings arrive as well (R154). -/
def State.quiesce (w : Nat) (s : State) : State :=
  let fs := (s.fibresOf w).map (·.1)
  let s := fs.foldl (fun t f => t.arriveAll f) s
  let s := (s.drainCore (s.wg w).core).walksDone (s.wg w).core
  let s := s.runEngines w (((s.core (s.wg w).core).eng.filter (fun o => o.wg == w)).length + 1)
  fs.foldl (fun t f => t.arriveAll f) s

/-- Engine operations of a list of workgroups that are still to perform, with their sectors due (R219). -/
def State.opsLeft (s : State) (ws : List Nat) : Nat :=
  (s.cores.map (fun e => ((e.2.eng.filter (fun o => ws.contains o.wg)).map (fun o => o.due.length + 1)).foldl (· + ·) 0)).foldl (· + ·) 0

/-- Round after round, the workgroups of a list perform what they have outstanding: an operation may need a walk, or one of another workgroup (R219). -/
def State.quiesceN (ws : List Nat) : Nat → State → State
  | 0, s => s
  | n + 1, s =>
    let t := ws.foldl (fun t w => t.quiesce w) s
    if t.opsLeft ws = 0 then t else State.quiesceN ws n t

/-- What one workgroup's stores have answered of another's LDFUTs arrives too (R154). -/
def State.arriveLeft (ws : List Nat) (s : State) : State :=
  ws.foldl (fun t w => ((t.fibresOf w).map (·.1)).foldl (fun t f => t.arriveAll f) t) s

/-- Everything that the workgroups of a list have outstanding completes; LDFUT requests that are still held are withdrawn (R154, R174, R219). -/
def State.quiesceAll (ws : List Nat) (s : State) : State :=
  ws.foldl (fun t w => t.withdraw w) ((s.quiesceN ws (2 * s.opsLeft ws + 2)).arriveLeft ws)

/-- An answer of ATS is outstanding that an engine operation of one of the workgroups may need (R219). -/
def State.opsAsk (s : State) (ws : List Nat) : Bool :=
  s.cores.any (fun e => e.2.eng.any (fun o => ws.contains o.wg && o.stalled.isEmpty) && e.2.walks.any (fun w => w.stage == 1))

/-- Put a workgroup aside in a state: counts of time stand still (R225, R250, R317). -/
def State.putAside (w : Nat) (st : WgState) (s : State) : State :=
  let x := s.wg w
  let s := s.modWg w (fun y => { y with home := x.core, was := x.state, state := st, timeAcc := x.timeAcc + (s.clock - x.timeSince), timeSince := s.clock })
  let s := ((s.fibresOf w).map (·.1)).foldl (fun (t : State) f => t.modFibre f (fun y => if y.resident && !y.extracted then y.stopClock s.clock else y)) s
  let s := (s.slotsOf w).foldl (fun (t : State) j => t.modSlot (16 * x.core + j) (fun z => { z with monStart := s.clock - z.monStart, issuing := none, gapUntil := 0 })) s
  s.moveWg w (savedCore w) ⟨s.slotsOf w, x.sbase, x.tbase, x.abase, x.bbase⟩

/-- Requests of held LDFUTs are sent again (R174): answered at once, held, or refused. -/
def State.rerequest (f : Nat) (s : State) : State :=
  (s.fibre f).pend.foldl (fun (t : State) p => match p.fut with
    | none => t
    | some g =>
      if Sparse.get false g t.dev.fut then (t.modDev (fun d => { d with defer := d.defer ++ [⟨g, f, p.op⟩] })).answerFut g
      else if t.dev.defer.any (fun x => x.granule == g && x.fib == f && x.op == p.op) then t
      else if t.defersAt (sliceOf (8 * g)) < 256 then t.modDev (fun d => { d with defer := d.defer ++ [⟨g, f, p.op⟩] })
      else t.modFibre f (fun y => { y with pend := y.pend.map (fun z => if z.id == p.id then { z with fut := none, vals := [⟨.p 14, z.lane, 1⟩] } else z) })) s

/-- A workgroup that was put aside takes up its work at a place on core `c`. -/
def State.takeUp (w c : Nat) (pl : Place) (s : State) : State :=
  let x := s.wg w
  let s := (s.enterCore c x.pasid).enterLaunch c x.launch
  let s := s.moveWg w c pl
  let s := s.modWg w (fun y => { y with state := y.was, timeSince := s.clock, admitted := s.clock })
  let fs := (s.fibresOf w).map (·.1)
  let s := fs.foldl (fun (t : State) f => t.modFibre f (fun y => if y.resident && !y.extracted then y.startClock s.clock else y)) s
  let s := (s.slotsOf w).foldl (fun (t : State) j => t.modSlot (16 * c + j) (fun z => { z with monStart := s.clock - z.monStart })) s
  (fs.foldl (fun t f => t.rerequest f) s).wake

/-! ### Pre-emption (R353, R354, R237) -/

/-- A task's commit or unpicking is under way and is waited for (R237); so is the end of a workgroup of a launch that has nothing left to do, whose retirement
wins against the pre-emption (R358). -/
def State.midCommit (s : State) (x : Workgroup) : Bool :=
  if x.isTask then !x.waits && (x.state == .committing || x.state == .unpicking || (x.state == .running && s.allExited x.id))
  else x.state == .running && s.allExited x.id && s.wgQuiet x.id

/-- Workgroups of a context on cores. -/
def State.wgsOn (s : State) (p : Nat) : List Workgroup :=
  (s.wgs.map (·.2)).filter (fun x => x.pasid == p && decide (x.core < Config.cores) && x.state != .ended)

/-- The save of a context, once its commits have ended and its completed launches are confirmed (R358): everything outstanding completes, the images are
written, the pinned reserves go to their windows (R256), and the workgroups are put aside. The image of core `c` is number `c` of the save area. -/
def State.finishSave (p : Nat) (s : State) : State :=
  if (s.ctx p).state ≠ .saving ∨ (s.wgsOn p).any s.midCommit ∨ s.launches.any (fun e => e.2.pasid == p && s.mayConfirm e.1) then s
  else
    let ids := (s.wgsOn p).map (·.id)
    let s := s.quiesceAll ids
    if s.opsAsk ids then s
    else
      let ws := s.wgsOn p
      let cs := (ws.map (·.core)).eraseDups
      let s := cs.foldl (fun (t : State) c => t.writeCoreImage c c p c none) s
      let s := ws.foldl (fun t x => (t.modWg x.id (fun y => { y with image := x.core })).putAside x.id .saved) s
      ((s.pinsOut p).modCtx p (fun y => { y with state := .preempted })).wake

/-- Stop a context and save it. -/
def State.preempt (p : Nat) (s : State) : State :=
  if (s.ctx p).state = .active then ((s.modCtx p (fun y => { y with state := .saving })).finishSave p) else s.finishSave p

/-- Every page of a range can be read and holds sectors that verify. -/
def State.soundPages (s : State) (p : Nat) : Nat → Nat → Bool
  | 0, _ => true
  | n + 1, va => (match s.hubKey p va false 4096 with | some k => !s.rangeBad k 4096 | none => false) && State.soundPages s p n (va + 4096)

/-- The workgroups of a context that its save has put aside. -/
def State.savedWgs (s : State) (p : Nat) : List Workgroup := (s.wgs.map (·.2)).filter (fun x => x.pasid == p && x.state == .saved)

/-- The fibre control of an image (R354): what a fibre's other state does not already say. -/
def Fibre.ofControl (b : List Byte) (x : Fibre) : Fibre :=
  let n := fun (i : Nat) => ofBytes ((b.drop i).take 1)
  { x with base := n 1, size := n 2, role := BitVec.ofNat 2 (n 3), rm := BitVec.ofNat 3 (n 4), fpstat := BitVec.ofNat 6 (n 5),
           granted := BitVec.ofNat 64 (ofBytes ((b.drop 8).take 8)), waitPhase := BitVec.ofNat 128 (ofBytes ((b.drop 24).take 16)), sleep := ofBytes ((b.drop 40).take 8) }

/-- The values of lookahead data, as register code, lane and value; `fuel` bounds the rows. -/
def lookVals : Nat → List Byte → List (Nat × Nat × Nat)
  | 0, _ => []
  | n + 1, b =>
    let code := ofBytes (b.take 4) % 2 ^ 20
    let ls := lanesOf (BitVec.ofNat 32 (ofBytes ((b.drop 4).take 4)))
    let b := b.drop 8
    if code < 2 ^ 16 then
      if ls.isEmpty then [] else ls.zipIdx.map (fun l => (code, l.1, ofBytes ((b.drop (4 * l.2)).take 4))) ++ lookVals n (b.drop (4 * ls.length))
    else if code < 2 ^ 17 then (code, 32, ofBytes (b.take 8)) :: lookVals n (b.drop 8)
    else ls.map (fun l => (code, l, (ofBytes (b.take 4)) / 2 ^ l % 2)) ++ lookVals n (b.drop 4)

/-- Data that has arrived takes its values from the lookahead data of an image (R54, R354). -/
def Fibre.ofLook (b : List Byte) (x : Fibre) : Fibre :=
  let l := lookVals 1024 b
  let new := fun (v : PVal) => match l.find? (fun r => r.1 == v.reg.code && (r.2.1 == v.lane || r.2.1 == 32)) with
    | some r => { v with val := BitVec.ofNat 64 r.2.2 }
    | none => v
  { x with pend := x.pend.map (fun p => if p.arrived then { p with vals := p.vals.map new } else p) }

/-- The queues and counts of a slot from its part of an image (R354). -/
def Slot.ofImage (b : List Byte) (x : Slot) : Slot :=
  let q := fun (i : Nat) => (unpack b (260 * i + 4) 4 (min 64 (ofBytes ((b.drop (260 * i)).take 4)))).map (BitVec.ofNat 32)
  let w := unpack b 2080 8 6
  let n := fun (i : Nat) => w.getD i 0
  { x with queues := sparseOf [] ((List.range 8).map q), fbarGen := n 1 == 1, lastIssue := n 2, last := n 3, monStart := n 4,
           monLow := (n 5).testBit 0, monHigh := (n 5).testBit 1 }

/-- What an engine operation's record of an image gives it (R354). -/
def EngOp.ofBytes (b : List Byte) (o : EngOp) : EngOp :=
  let w := unpack b 24 8 (min 8 o.blk.length)
  { o with turn := Sys2Proof.ofBytes ((b.drop 12).take 4), pc := BitVec.ofNat 64 (Sys2Proof.ofBytes ((b.drop 16).take 8)), blk := w ++ o.blk.drop 8 }

/-- Sectors of a list that a bitmap at a word of a list names. -/
def dueIn (ws : List Nat) (at_ : Nat) (l : List Nat) : List Nat := l.filter (fun n => (ws.getD (at_ + 2 + n / 64) 0).testBit (n % 64))

/-- The state of a workgroup that stands aside comes from its image: registers, frontiers, masks, fibre control, lookahead data, slots, scratchpad, barriers, tiles,
accumulators and the sectors still due, at the places that R354 and log 11 give. -/
def State.loadImage (x : Workgroup) (s : State) : State :=
  let a := s.imageAddr x.pasid x.image
  let c := savedCore x.id
  let get := fun (off n : Nat) => (s.hubGet x.pasid (a + off) n).getD []
  let slot := fun (t : State) (k : Nat) => t.modSlot (16 * c + k) (fun z => Slot.ofImage (get (0x154000 + 4096 * k) 4096) ((List.range 512).foldl (fun z n =>
    let b := unpack (get (0x1000 + 65536 * k + 128 * n) 128) 0 4 32
    z.setV n (fun l => BitVec.ofNat 32 (b.getD l 0)) (List.range 32)) z))
  let fib := fun (t : State) (e : Nat × Fibre) =>
    let i := 4 * e.2.slot + e.2.pos
    t.modFibre e.1 (fun y =>
      let y := (if y.extracted then y else y.ofControl (get (0x110000 + 256 * i) 256)).ofLook (get (0x114000 + 4096 * i) 4096)
      { y with
        ureg := sparseOf 0 ((unpack (get (0x101000 + 512 * i) 512) 0 8 64).map (BitVec.ofNat 64)),
        pred := sparseOf 0 ((unpack (get (0x109000 + 64 * i) 64) 0 4 15).map (BitVec.ofNat 32)),
        frontier := (unpack (get (0x10A000 + 256 * i) 256) 0 32 8).filterMap (Entry.ofImage y.frontier),
        masks := sparseOf Rejoin.zero ((unpack (get (0x10E000 + 128 * i) 128) 0 16 8).zipIdx.map (fun q => Rejoin.ofImage (Sparse.get Rejoin.zero q.2 y.masks) q.1)) })
  let put := fun (m : List Host.Cell) (k off n : Nat) => wrBytes (clearBytes m k n) k (get off n)
  let s := (s.fibresOf x.id |>.filter (fun e => e.2.resident)).foldl fib ((s.slotsOf x.id).foldl slot s)
  let m := put s.mem (spadKey c x.sbase) (0x164000 + x.sbase) (x.ssize + x.stageSize)
  let m := (s.slotsOf x.id).foldl (fun m j => put m (spadKey c (0x1F8000 + 2048 * j)) (0x164000 + 0x1F8000 + 2048 * j) 2048) m
  let m := put m (tileKey c x.tbase 0) (0x365000 + 16384 * x.tbase) (16384 * x.ntile)
  let m := put m (accKey c x.abase 0) (0x3E5000 + 65536 * x.abase) (65536 * x.nacc)
  let bits' := ofBytes (get 0x364000 2048)
  let bar := fun (b : Nat) =>
    let n := ofBytes (get (0x364800 + 16 * (x.bbase + b)) 16)
    (x.bbase + b, Barrier.mk (BitVec.ofNat 32 n) (BitVec.ofNat 32 (bits n 63 32)) (BitVec.ofNat 6 (bits n 69 64)) (BitVec.ofNat 6 (bits n 75 70)) (n.testBit 76))
  let ws := unpack (get 0x5E6000 (bits (ofBytes (get 0 4092)) 127 96)) 0 8 (bits (ofBytes (get 0 4092)) 127 96 / 8)
  let find := fun (i n : Nat) => (List.range ws.length).find? (fun k => ws.getD k 0 == i && ws.getD (k + 1) 0 == n)
  let cut := fun (i n : Nat) (l : List Nat) => match find i n with | some k => dueIn ws k l | none => l
  let recs := fun (i : Nat) => (List.range 4096).find? (fun k => ofBytes (get (0x566000 + 128 * k) 4) == i)
  ({ s with mem := m } : State).modCore c (fun y => { y with
    absent := (linesOf x.sbase x.ssize).foldl (fun z l => Sparse.set false l (!bits'.testBit l) z) y.absent,
    barriers := ((List.range x.nbar).map bar).foldl (fun z b => Sparse.set Barrier.zero b.1 b.2 z) y.barriers,
    copies := y.copies.map (fun o => { o with due := cut o.id (sectorCount o.total) o.due }),
    eng := y.eng.map (fun o => match recs o.id with | some k => o.ofBytes (get (0x566000 + 128 * k) 128) | none => o) })

/-- The state store of a context on core `c` comes from an image of it: the directory, and the accumulators that it holds (R354, R386). -/
def State.loadStore (p i c : Nat) (s : State) : State :=
  let a := s.imageAddr p i
  let d := if (s.core c).lastPasid = some p then c else storeOf p c
  let get := fun (off n : Nat) => (s.hubGet p (a + off) n).getD []
  if (s.core d).ss.isEmpty then s
  else
    let g := s.accRoom c
    let k := accKey d g 0
    let n := 65536 * (24 - g)
    ({ s with mem := wrBytes (clearBytes s.mem k n) k (get (0x3E5000 + 65536 * g) n) } : State).modCore d (fun y =>
      { y with ss := (List.range 64).filterMap (fun j => SSEntry.ofBytes y.ss (get (0x565000 + 64 * j) 64)) })

/-- Image `i` of a context's save area verifies: each of its pages, and its header (R354, R355). -/
def State.imageOk (s : State) (p i c : Nat) : Bool :=
  let a := s.imageAddr p i
  s.soundPages p (imageBytes / 4096) a && (match s.hubGet p a 4096 with
    | some b => ofBytes (b.drop 4092) == (crc32c (b.take 4092)).toNat && bits (ofBytes (b.take 4092)) 95 0 == 1 + c * 2 ^ 32 + p * 2 ^ 64
    | none => false)

/-- The images of a saved context verify (R355). -/
def State.imagesOk (s : State) (p : Nat) : Bool :=
  (((s.savedWgs p).map (fun x => (x.image, x.home))).eraseDups).all (fun e => s.imageOk p e.1 e.2)

/-- Resume a saved context: its state comes from its images, its pinned reserves are loaded, and its workgroups are placed as swapped ones are (R355); a failed
image loses it. -/
def State.resume (p : Nat) (s : State) : State :=
  if (s.ctx p).state ≠ .preempted then s
  else if !s.imagesOk p then s.loseContext p
  else
    let is := ((s.savedWgs p).map (fun x => (x.image, x.home))).eraseDups
    let s := is.foldl (fun t e => t.loadStore p e.1 e.2) ((s.savedWgs p).foldl (fun t x => t.loadImage x) s)
    let s : State := { s with wgs := s.wgs.map (fun (e : Nat × Workgroup) => if e.2.pasid == p && e.2.state == .saved then (e.1, { e.2 with state := .swapped }) else e) }
    let d := (s.ctx p).deferred
    ((({ s with agenda := d ++ s.agenda }).modCtx p (fun y => { y with state := .active, deferred := [] })).pinsIn p).wake

/-! ### The swap (R318) -/

/-- Members of the cluster group of a workgroup. -/
def State.groupOf (s : State) (x : Workgroup) : List Workgroup :=
  (s.wgs.map (·.2)).filter (fun y => y.cg == x.cg && y.pasid == x.pasid && y.cgSize == x.cgSize && y.state != .ended)

/-- The oldest swapped workgroup of a context. -/
def oldestSwap : List Workgroup → Option Workgroup
  | [] => none
  | x :: l => match oldestSwap l with | none => some x | some y => if y.timeSince < x.timeSince then some y else some x

/-- The workgroup of a context that is readmitted next. -/
def State.nextSwapped (s : State) (p : Nat) : Option Workgroup :=
  oldestSwap ((s.wgs.map (·.2)).filter (fun x => x.pasid == p && x.state == .swapped))

/-- A place for a workgroup that was put aside. -/
def State.placeBack (s : State) (x : Workgroup) (c : Nat) : Option Place :=
  if x.bound ∧ c ≠ x.home then none else s.placeOn c x.pasid (s.slotsOf x.id).length (x.ssize + x.stageSize) x.ntile x.nacc x.nbar

/-- A workgroup that a swap put aside comes back from its image; none where the image does not verify (R318, R355). Its context's save has read it already
if it was one. -/
def State.fromImage (y : Workgroup) (s : State) : State := if Config.cores ≤ y.image then s.loadImage y else s

/-- Readmit a cluster group whose first member goes to core `c`, the others to cores of its cluster, those first that are bound to a core (R318, R355, R386). -/
def State.readmit (x : Workgroup) (c : Nat) (s : State) : Option State :=
  let g := s.groupOf x
  (g.filter (·.bound) ++ g.filter (fun y => !y.bound)).foldlM (fun (t : State) y =>
    let free := if y.cgSize = 1 then [c]
      else ((List.range 4).map (fun i => c / 4 * 4 + i)).filter (fun d => !((t.groupOf x).any (fun z => z.id != y.id && z.core == d)))
    (free.findSome? (fun d => (t.placeBack y d).map (fun pl => (d, pl)))).map (fun d => (t.fromImage y).takeUp y.id d.1 d.2)) s

/-- The images of a swapped workgroup's cluster group verify (R355). -/
def State.swapsOk (s : State) (x : Workgroup) : Bool := (s.groupOf x).all (fun y => y.image < Config.cores || s.imageOk y.pasid y.image y.home)

/-- SWAP_READMIT (R318): the oldest swapped workgroup of its context, with its cluster group; an image that does not verify loses the context (R355). -/
def execSwapReadmit (w c : Nat) (s : State) : Out' :=
  let x := s.wg w
  .next (if x.state = .swapped ∧ (s.ctx x.pasid).state = .active ∧ (s.nextSwapped x.pasid).map (·.id) = some w then
    (if !s.swapsOk x then s.loseContext x.pasid else ((s.pinsIn x.pasid).readmit x c).getD s) else s)

/-- Admit what waits for core `c` of a context: a swapped workgroup, a launch's next workgroup, or a task. -/
def State.admitWaiting (p c : Nat) (swapped : List Workgroup) (s : State) : Option State :=
  match (oldestSwap swapped).bind (fun x => if s.swapsOk x then s.readmit x c else some (s.loseContext p)) with
  | some t => some t
  | none =>
    match (s.launches.filter (fun e => e.2.pasid == p && e.2.started && decide (e.2.begun < e.2.total))).findSome? (fun e => s.dispatch e.1 c) with
    | some t => some t
    | none =>
      let t := s.dispatchTask p c
      if t.wgs.length = s.wgs.length then none else some t

/-- Something of a context waits for a core's resources. -/
def State.waiting (s : State) (p : Nat) : Bool :=
  s.launches.any (fun e => e.2.pasid == p && e.2.started && decide (e.2.begun < e.2.total)) || !(s.ctx p).pool.isEmpty
  || s.wgs.any (fun e => e.2.pasid == p && e.2.state == .swapped)

/-- Resident fibres of a core, with their keys. -/
def State.coreFibres (s : State) (c : Nat) : List (Nat × Fibre) :=
  s.fibres.filter (fun e => e.2.core == c && e.2.resident && e.2.status != .exited)

/-- A fibre cannot issue now: it sleeps, waits or is stopped, and what it waits for has not come since it last tried. -/
def State.stuckFibre (s : State) (e : Nat × Fibre) : Bool :=
  match e.2.status with
  | .ready => false
  | .blocked .rejoin => true
  | .blocked _ => s.stalled.contains e.1
  | _ => true

/-- A fibre is blocked; one that is fault-stopped is not (R15). -/
def State.blockedFibre (s : State) (e : Nat × Fibre) : Bool := s.stuckFibre e && e.2.status != .faultStopped

/-- The swap of a core is due (R318): nothing has issued for N clocks, or every resident fibre is blocked with one of them on GROW; and the
last swap is N clocks old. -/
def State.swapDue (s : State) (c : Nat) : Bool :=
  let n := s.dev.cfg.swapN.toNat
  let last := (s.slots.filter (fun e => e.1 / 16 == c)).foldl (fun m e => max m e.2.lastIssue) ((s.residents c).foldl (fun m w => max m w.admitted) 0)
  let fs := s.coreFibres c
  let stuck := !fs.isEmpty && fs.all s.blockedFibre
    && fs.any (fun f => match f.2.status with | .blocked (.grow _) => true | _ => false)
  (decide (last + n ≤ s.clock) || stuck) && ((s.core c).lastSwap == 0 || decide ((s.core c).lastSwap + n ≤ s.clock))

/-- The most recently admitted workgroup of a core with no ready fibre (R318). -/
def State.swapVictim (s : State) (c : Nat) : Option Workgroup :=
  ((s.residents c).filter (fun w => w.state == .running && (s.fibresOf w.id).all s.stuckFibre && !s.allExited w.id)).foldl
    (fun b w => match b with | none => some w | some v => if v.admitted ≤ w.admitted then some w else b) none

/-- Write the image of a workgroup that is swapped out, as the first number from 144 on that no other workgroup of its context uses, with the parts of other
workgroups zero (R318, R354). -/
def State.swapImage (w : Nat) (s : State) : State :=
  let x := s.wg w
  let used := ((s.wgs.map (·.2)).filter (fun y => y.pasid == x.pasid && y.state == .swapped)).map (·.image)
  let i := ((List.range (used.length + 1)).find? (fun k => !used.contains (Config.cores + k))).getD 0 + Config.cores
  (s.writeCoreImage x.core x.core x.pasid i (some w)).modWg w (fun y => { y with image := i })

/-- The reserves of a context that has no workgroup on a core any more go to their windows (R256). -/
def State.pinsIdle (p : Nat) (s : State) : State := if (s.wgsOn p).isEmpty then s.pinsOut p else s

/-- FORWARD_PROGRESS_SWAP (R318): a workgroup of core `c` is swapped out with its cluster group, and what waits is admitted as soon as it fits. -/
def execForwardProgressSwap (c : Nat) (s : State) : Out' :=
  .next (match s.swapVictim c with
    | none => s
    | some x =>
      if !s.swapDue c || !s.waiting x.pasid || (s.ctx x.pasid).state != .active then s
      else
        let old := (s.wgs.map (·.2)).filter (fun y => y.pasid == x.pasid && y.state == .swapped)
        let g := s.groupOf x
        let t := s.quiesceAll (g.map (·.id))
        if t.opsAsk (g.map (·.id)) then t
        else
          let t := (g.foldl (fun t y => (t.swapImage y.id).putAside y.id .swapped) t).pinsIdle x.pasid
          let t := t.pinsIn x.pasid
          (((t.admitWaiting x.pasid c old).getD t).modCore c (fun y => { y with lastSwap := s.clock })).wake)

/-! ### Mailbox commands of pre-emption (R353, R355, R365) -/

/-- The mailbox answers a command (R365). -/
def State.answer (result : Nat) (resp : List Byte) (s : State) : State :=
  s.modDev (fun d => { d with mbox := { d.mbox with go := false, busy := false, done := true, result := BitVec.ofNat 8 result, rlen := BitVec.ofNat 16 resp.length,
                                                    resp := sparseOf 0 resp } })

/-- Run a mailbox command that the safe state refuses (R365, R374). -/
def State.command (k : State → State) (s : State) : State := if s.dev.mgmt.safe then s.answer 6 [] else k s

/-- PREEMPT_PASID (R353). -/
def execPreemptPasid (p : Nat) (s : State) : Out' := .next (s.command (fun t => (t.preempt p).answer 0 []))

/-- RESUME_PASID (R355). -/
def execResumePasid (p : Nat) (s : State) : Out' := .next (s.command (fun t => (t.resume p).answer 0 []))

end Machine

end Sys2Proof
end

