-- ==== Sys2Proof/Machine/Service.lean ====
section
/-! DEFINITION. Service entries, page responses, invalidations, rings written by the host, the watchdogs and the teardown (R310, R340,
R345 to R352, R356, R357, R377). -/

namespace Sys2Proof

namespace Machine

/-! ### The end of a PASID (R352) -/

/-- Engine operations and copies of a workgroup are gone; a line that one of them owed bytes, and no other copy does, is present again (R206, R254). -/
def State.dropOps (w : Nat) (s : State) : State :=
  let gone := s.cores.flatMap (fun e => e.2.copies.filter (fun o => (o.wg == w || o.twg == w) && !o.tile))
  let s : State := { s with cores := s.cores.map (fun (e : Nat × Core) =>
      (e.1, { e.2 with eng := e.2.eng.filter (fun o => o.wg != w), copies := e.2.copies.filter (fun o => o.wg != w && o.twg != w) })) }
  gone.foldl (fun t o => t.modCore o.tcore (fun x => x.setLines ((linesOf o.off o.total).filter (fun l => o.owes o.tcore l && !t.owed o.tcore l)))) s

/-- Hub-die copies of a context end with status 4 (R309). -/
def State.endCopies (p : Nat) (s : State) : State :=
  (s.dev.copies.filter (fun o => o.pasid == p)).foldl (fun t o =>
    let e : HubCopy := if o.finished then o else { o with finished := true, status := 4, fcode := 0, faddr := 0 }
    (t.hubFinish e).modDev (fun d => { d with copies := d.copies.filter (fun y => y.id != o.id) })) s

/-- Tear a context down: its queues stop, its workgroups are discarded with their engine operations, and what the device keeps of it is
dropped; it is gone when its requests have returned, a response that a saved context kept among them (R352, R358). -/
def State.teardown (p : Nat) (s : State) : State :=
  if (s.ctx p).state = .ended then s
  else
    let s := s.modDev (fun d =>
      { d with queues := d.queues.map (fun (e : Nat × Queue) => (e.1,
          if e.2.pasid.toNat = p then { e.2 with en := false, state := .disabled, yieldSlot := false, open_ := [] } else e.2)) })
    let ws := (s.wgs.map (·.2)).filter (fun x => x.pasid == p)
    let s := ws.foldl (fun t x => ((t.drainCore x.core).dropOps x.id).freeWg x.id) s
    let s := s.endCopies p
    let s : State := { s with launches := s.launches.filter (fun e => e.2.pasid != p) }
    let s := s.modDev (fun d =>
      { d with graphs := d.graphs.filter (fun e => e.2.owner != some p), tasks := d.tasks.filter (fun y => y.pasid != p),
               mgmt := { d.mgmt with frozen := d.mgmt.frozen.filter (· != p) } })
    let back := fun (r : Prg) => (s.ctx p).deferred.any (fun i => match i with | .pageRequestResponse q n _ => q == p && n == r.idx | _ => false)
    let s := s.modCtx p (fun c =>
      { c with prgs := c.prgs.filter (fun r => !back r), state := .ended, calls := [], pool := [], parked := [], pre := [], marks := [], waiting := [], recs := [], deferred := [],
               batch := Batch.zero, fp := [] })
    (s.wake).endTeardown p

/-- TEARDOWN_PASID (R352, R365). -/
def execTeardownPasid (p : Nat) (s : State) : Out' := .next (s.command (fun t => (t.teardown p).answer 0 []))

/-! ### Replay (R340, R207, R349) -/

/-- Sectors of an engine operation with an address in each of their parts; a spill of the state store counts as one sector of any page. -/
def EngOp.sects (o : EngOp) (page : Nat) : List Sect :=
  match o.kind with
  | .tld | .tst | .ald | .ast => o.pieces.zipIdx.map (fun x => ⟨secNo x.1.len x.2, x.1.va, x.1.len⟩)
  | _ => [⟨0, page * 4096, 64⟩]

/-- The engine operation or copy of a record delivers the sectors still due that touch the record's page (R207), a copy in ascending order (R377). -/
def State.unstall (i : RecInfo) (s : State) : State :=
  let c := (s.wg i.wg).core
  (s.modCore c (fun x =>
    { x with eng := x.eng.map (fun o =>
               if o.id = i.op ∧ o.fib = i.fib then
                 let go := (sectorsIn (o.sects i.page) i.page).filter (fun n => o.stalled.contains n)
                 { o with broken := false, due := (o.due ++ go).mergeSort (· ≤ ·), stalled := o.stalled.filter (fun n => !go.contains n) }
               else o),
             copies := x.copies.map (fun o =>
               if o.id = i.op ∧ o.fib = i.fib then
                 let go := (sectorsIn (o.stalled.flatMap o.items) i.page)
                 { o with due := (o.due ++ go).mergeSort (· ≤ ·), stalled := o.stalled.filter (fun n => !go.contains n), ordered := true }
               else o) })).wake

/-- Remove a parked task with a decrement of its successor counter (R233, R346 op 9): whether it is done, and the state. A faulting access writes a record that op 6
retries, or a page response. -/
def State.discardTask (p place : Nat) (s : State) : Bool × State :=
  let drop := fun (u : State) => u.modCtx p (fun c =>
    { c with parked := c.parked.filter (fun y => y.place != place), recs := c.recs.filter (fun y => !(y.what == 3 && y.place == place)) })
  match (s.ctx p).parked.find? (fun y => y.place == place) with
  | none => (true, s)
  | some y =>
    let a := tSucc y.image
    let f : FRec := { kind := .successor, src := 1, pasid := p }
    let rec_ := fun (k : FKind) (sub : Nat) (prg : Option Nat) (t : State) =>
      t.report { f with kind := k, sub := sub, acc := accRmw, addr := a, detail := a } { RecInfo.zero with place := place, page := p, prg := prg, what := 4 }
    if a = 0 then (true, drop s)
    else match s.blockAt p a with
      | .wait => (false, s.askHost p a true)
      | .bad k sub =>
        if k = .translation ∧ sub = 2 then
          (match s.ensurePrg p (a / 4096) true with
            | none => (false, s)
            | some t => (true, rec_ k sub (((t.ctx p).prgOf (a / 4096)).map (·.idx)) t))
        else (true, rec_ k sub none s)
      | .ok key =>
        let r := s.decrement p key f a
        (r.2, if r.2 then drop r.1 else r.1)

/-- What stands behind a record is tried again: lanes are replayed, sectors delivered, a counter access retried (R340, R207, R233). -/
def State.replayRec (i : RecInfo) (m : Mask) (s : State) : State :=
  match i.what with
  | 1 => s.unstall i
  | 2 => (s.modWg i.wg (fun x => { x with waits := false })).wake
  | 3 => s
  | 4 => (s.discardTask i.page i.place).2
  | _ => (s.unpark i.fib i.place m none).syncImage i.fib

/-- Take lanes off a record; a record with nothing left is forgotten. -/
def Ctx.serve (c : Ctx) (r : Word64) (m : Mask) : Ctx :=
  let l := c.recs.map (fun i => if i.ridx = r then { i with left := i.left &&& ~~~m, served := i.left &&& ~~~m == 0 } else i)
  { c with recs := l.filter (fun i => !i.served) }

/-! ### Service entries (R345, R346) -/

/-- How a service entry ends: it took effect, it is held, or it is discarded. -/
inductive SvcRes where
  | ok (s : State)
  | wait (s : State)
  | discard

/-- The device has read a service entry. -/
def State.nextEntry (p : Nat) (s : State) : State :=
  (s.modCtx p (fun c => { c with serviceRing := { c.serviceRing with head := c.serviceRing.head + 1 } })).wake

/-- A service entry is discarded with a record (R345). -/
def State.dropEntry (p : Nat) (idx : Word64) (s : State) : State :=
  (s.report { kind := .queueError, src := 2, pasid := p, code := 3, detail := idx.toNat } RecInfo.zero).nextEntry p

/-- Take the next service entry of a context if its op is `op`; the events of other ops leave it. `k` gets the record it names, the address
and the lanes not yet serviced that it names. An entry with a nonzero reserved field is discarded (R10). -/
def State.service (p op : Nat) (allowed : State → RecInfo → Bool) (k : RecInfo → Nat → Mask → State → SvcRes) (s : State) : State :=
  let r := (s.ctx p).serviceRing
  let va := r.base.toNat % 2 ^ 57 + 64 * (r.head.toNat % r.size.toNat)
  if r.head = r.tail ∨ r.size = 0 ∨ (s.ctx p).state ≠ .active then s
  else match s.hubNum p va 64 with
    | none => s.ringTrouble p 1 va false
    | some n =>
      let o := bits n 71 64
      let lanes : Mask := BitVec.ofNat 32 (bits n 223 192)
      if o ≠ op ∧ 1 ≤ o ∧ o ≤ 10 then s
      else if bits n 127 72 ≠ 0 ∨ bits n 191 185 ≠ 0 ∨ bits n 511 224 ≠ 0 then s.dropEntry p r.head
      else match (s.ctx p).recs.find? (fun i => i.ridx.toNat == bits n 63 0) with
        | none => s.dropEntry p r.head
        | some i =>
          let m := if lanes = 0 then i.left else i.left &&& lanes
          if o ≠ op ∨ i.served ∨ lanes &&& ~~~i.lanes ≠ 0 ∨ (lanes ≠ 0 ∧ m = 0) ∨ !allowed s i then s.dropEntry p r.head
          else match k i (bits n 184 128) m s with
            | .ok t => t.nextEntry p
            | .wait t => t
            | .discard => s.dropEntry p r.head

/-- A record of lanes of a fibre that is still there. -/
def State.fibreRecOk (s : State) (i : RecInfo) : Bool :=
  i.what == 0 && i.src == 0 && i.left != 0 && s.wgs.any (fun e => e.1 == i.wg) && (s.fibre i.fib).status != .exited

/-- Such a record of a fibre that is not extracted. -/
def State.laneRecOk (s : State) (i : RecInfo) : Bool := s.fibreRecOk i && !(s.fibre i.fib).extracted

/-- A record of an engine operation, a copy or a successor-counter access. -/
def State.engineRecOk (s : State) (i : RecInfo) : Bool := ((i.what == 1 || i.what == 2) && s.wgs.any (fun e => e.1 == i.wg)) || i.what == 4

/-- A record of a task that is parked (R225, R235). -/
def State.parkedRecOk (p : Nat) (s : State) (i : RecInfo) : Bool :=
  i.what == 3 && (i.kind == FKind.grain.code || i.kind == FKind.taskRecord.code) && (s.ctx p).parked.any (fun x => x.place == i.place)

/-- SERVICE_REPLAY (R340, R346 op 1): a stopped lane whose replay would be its resumption, of a breakpoint or a trap, resumes (R247). -/
def execServiceReplay (p : Nat) (s : State) : Out' :=
  .next (s.service p 1 State.laneRecOk (fun i _ m t =>
    let plain := i.kind = FKind.breakpoint.code ∨ i.kind = FKind.trap.code ∨ i.pc = i.resume
    .ok (((if plain then (t.unpark i.fib i.place m (some i.resume)).syncImage i.fib else t.replayRec i m)).modCtx p (fun c => c.serve i.ridx m))))

/-- SERVICE_SKIP (R346 op 2, R347): a lane that goes elsewhere than its resume address is struck from every rejoin mask. -/
def execServiceSkip (p : Nat) (s : State) : Out' :=
  .next (s.service p 2 State.laneRecOk (fun i a m t =>
    let pc : Word64 := BitVec.ofNat 64 (a / 4 * 4)
    let t := t.unpark i.fib i.place m (some pc)
    let t := if pc = i.resume then t else (t.modFibre i.fib (Fibre.strikeAll m)).settleFrontier i.fib
    .ok ((t.syncImage i.fib).modCtx p (fun c => c.serve i.ridx m))))

/-- SERVICE_END_LANES (R346 op 3, R102). -/
def execServiceEndLanes (p : Nat) (s : State) : Out' :=
  .next (s.service p 3 State.laneRecOk (fun i _ m t =>
    let t := (t.exitLanes i.fib m).modFibre i.fib Fibre.releaseHeld
    .ok ((t.syncImage i.fib).modCtx p (fun c => c.serve i.ridx m))))

/-- SERVICE_EXTRACT (R346 op 4): the fibre's image goes to the address; a fibre that shares a granule stays in its place, stopped (R245). An
image that cannot be written abandons the move (R385). -/
def execServiceExtract (p : Nat) (s : State) : Out' :=
  .next (s.service p 4 State.laneRecOk (fun i a _ t =>
    let f := i.fib
    let x := t.fibre f
    if !x.resident || !x.outst.isEmpty || !x.loadsBack then .wait t
    else
      let bad := ((List.range 6).map (fun j => a + 4096 * j)).find? (fun va => (t.hubFault p va true 4096).isSome)
      match bad.bind (fun va => (t.hubFault p va true 4096).map (fun w => (va, w))) with
      | some (va, w) =>
        if w = (.translation, 2) then .wait (t.askHost p va true)
        else .ok ((t.report { t.fibreRec f w.1 with src := 1, acc := accWrite, sub := w.2, addr := va, detail := a }
          { RecInfo.zero with fib := f, wg := x.wg }).setStatus f (if x.status = .atFbar then .atFbar else .faultStopped))
      | none =>
        let t := t.modFibre f (fun y => { y with home := (t.placeNo f).1, imageAt := a })
        let k := t.slotOf f
        let share := t.sharesGranule f
        let u := ((t.writeImage f a).getD t).pass f
        let u := u.modFibre f (fun y => { y.stopClock u.clock with extracted := true, status := if y.status = .atFbar then .atFbar else .faultStopped, resident := share })
        .ok (if share then u else u.freeSlot k)))

/-- Where lane `l` stands in a list of entries: parked or not, address and priority. -/
def laneAt (es : List Entry) (l : Nat) : Option (Bool × Word64 × BitVec 4) :=
  (es.find? (fun e => e.mask.getLsbD l)).map (fun e => (e.kind == .parked, if e.kind = .parked then e.resume else e.pc, e.prio))

/-- Lanes of an image that are not where the device would have resumed them; `served` are the members of the serviced entry (R347). -/
def movedLanes (old new : List Entry) (served : Mask) : Mask :=
  maskOf ((List.range 32).filter (fun l =>
    match laneAt old l, laneAt new l with
    | none, none => false
    | some a, some b => !(a == b || (a.1 && served.getLsbD l && !b.1 && a.2 == b.2))
    | _, _ => true))

/-- The lanes of a list of entries. -/
def lanesIn (es : List Entry) : Mask := es.foldl (fun m e => m ||| e.mask) 0

/-- An image changes what the handler may not change, or brings an absent lane to life (R347). -/
def State.imageBad (s : State) (f : Nat) (b : List Byte) (d : ImageData) : Bool :=
  let x := s.fibre f
  d.granted != x.granted || d.base != x.base || d.size != x.size
  || (b.drop 0x601).take 255 != (x.control 0).drop 1 || (b.drop 0x1000).take 4096 != x.lookahead
  || lanesIn (d.frontier ++ d.spilled) &&& ~~~x.present != 0

/-- A restored fibre: lanes that moved, came or went are out of every rejoin mask, and a run entry holds no destinations but as a replay. A fibre that waits at FBAR
waits on (R110), and one that slept sleeps for what remained (R250). -/
def State.restoreFibre (f : Nat) (d : ImageData) (served : Mask) (s : State) : State :=
  let x := s.fibre f
  let moved := movedLanes (x.frontier ++ x.spilled) (d.frontier ++ d.spilled) served
  let fix := fun (e : Entry) => if e.kind = .run ∧ !e.replay then { e with hold := 0 } else e
  let s := s.takeImage f { d with frontier := d.frontier.map fix }
  let s := s.modFibre f (fun y =>
    let st : FStatus := if (s.slot (s.slotOf f)).fbarIn.contains f then .atFbar else if y.sleep ≠ 0 then .sleeping else .ready
    (({ y.startClock s.clock with extracted := false, resident := true, status := st } : Fibre).strikeAll moved).releaseHeld)
  (((s.settleFrontier f).rest f).modCore x.core (fun c =>
    { c with ecc := c.ecc.filter (fun e => match e with
        | .uni g _ => g != f
        | .prd g _ => g != f
        | .vec t ph _ => !(t == x.slot && decide (8 * x.base ≤ ph) && decide (ph < 8 * (x.base + x.size)))
        | _ => true) })).wake

/-- SERVICE_RESTORE (R346 op 5, R347, R385). -/
def execServiceRestore (p : Nat) (s : State) : Out' :=
  .next (s.service p 5 (fun t i => t.fibreRecOk i && (t.fibre i.fib).extracted) (fun i a m t =>
    let f := i.fib
    let x := t.fibre f
    let bad := ((List.range 6).map (fun j => a + 4096 * j)).find? (fun va => (t.hubFault p va false).isSome)
    match bad with
    | some va => if t.hubFault p va false = some (.translation, 2) then .wait (t.askHost p va false) else .discard
    | none => match t.hubGet p a 24576 with
      | none => .ok (t.loseContext p)
      | some b =>
        if ofBytes ((b.drop 508).take 4) ≠ (crc32c (b.take 508)).toNat then .ok (t.loseContext p)
        else match t.readImage f a with
          | none => .discard
          | some d =>
            if t.imageBad f b d then .discard
            else if (t.wg x.wg).state = .swapped then .wait t
            else match (if x.resident then some (t.slotOf f, x.pos) else t.returnPlace f) with
              | none => .wait t
              | some (j, pos) =>
                let t := t.modFibre f (fun y => { y with slot := j % 16, pos := pos })
                let t := t.modSlot j (fun z => { z with wg := some x.wg })
                let served := ((x.frontier.find? (fun e => e.kind == .parked && e.park == i.place)).map (·.mask)).getD m
                let t := t.restoreFibre f d served
                let held := (t.fibre f).parkPlaces
                let t := t.modCtx p (fun c => { c.serve i.ridx m with recs := (c.serve i.ridx m).recs.filter (fun r =>
                  !(r.what == 0 && r.src == 0 && r.fib == f && !held.contains r.place)) })
                let done := ((t.ctx p).calls.filter (fun k => k.fib == f && k.answered == k.lanes)).map (·.tag)
                .ok (done.foldl (fun u g => u.callDone f g) t)))

/-- SERVICE_REPLAY_SECTORS (R346 op 6). -/
def execServiceReplaySectors (p : Nat) (s : State) : Out' :=
  .next (s.service p 6 State.engineRecOk (fun i _ _ t =>
    .ok ((t.replayRec i 0).modCtx p (fun c => { c with recs := c.recs.filter (fun r => r.ridx != i.ridx) }))))

/-- The sectors whose fault awaits service, and the operations that found bad data, are gone with the workgroup's records; the other engine operations and copies
run to their end (R389; DESIGN CHOICE, log 49). A line that is owed nothing more is present (R206, R254). -/
def State.dropStalled (w : Nat) (s : State) : State :=
  let hit := s.cores.flatMap (fun e => e.2.copies.filter (fun o => o.wg == w && !o.stalled.isEmpty && !o.tile))
  let keepE := fun (o : EngOp) => o.wg != w || !(o.broken || (o.due.isEmpty && !o.stalled.isEmpty))
  let keepC := fun (o : CopyOp) => o.wg != w || !o.due.isEmpty
  let s : State := { s with cores := s.cores.map (fun (e : Nat × Core) => (e.1, { e.2 with
      eng := (e.2.eng.filter keepE).map (fun o => if o.wg = w then { o with stalled := [] } else o),
      copies := (e.2.copies.filter keepC).map (fun o => if o.wg = w then { o with stalled := [] } else o) })) }
  hit.foldl (fun t o => t.modCore o.tcore (fun x => x.setLines ((linesOf o.off o.total).filter (fun l => o.owes o.tcore l && !t.owed o.tcore l)))) s

/-- Every fibre of a workgroup exits, and its pending loads are gone (R346 op 7). -/
def State.endFibres (w : Nat) (s : State) : State :=
  let fs := (s.fibresOf w).map (·.1)
  let s := (s.dropStalled w).withdraw w
  fs.foldl (fun (t : State) f =>
    ((t.modFibre f (fun x => { x with pend := [], held := [], acqs := [], resident := true, extracted := false })).exitLanes f allLanes).setStatus f .exited) s

/-- The state in which a workgroup that has ended its fibres stands: one that is off its core with operations to perform comes back for them (R389). -/
def State.endedAs (s : State) (w : Nat) : WgState := if (s.wg w).core < Config.cores ∨ s.wgQuiet w then .running else (s.wg w).state

/-- SERVICE_END_WORKGROUP (R346 op 7); the workgroup may be swapped out. -/
def execServiceEndWorkgroup (p : Nat) (s : State) : Out' :=
  .next (s.service p 7 (fun t i => (i.what != 3 || i.kind != FKind.grain.code) && t.wgs.any (fun e => e.1 == i.wg && e.2.state != .ended && (e.2.waits || e.2.state == .running || e.2.state == .swapped || e.2.state == .saved)))
    (fun i _ _ t =>
      let w := i.wg
      let t := t.endFibres w
      let t := t.modCtx p (fun c => { c with recs := c.recs.filter (fun r => r.wg != w || r.what == 3) })
      .ok (match (t.wg w).launch with
        | none => (t.modWg w (fun x => { x with tkend := false, waits := false, state := t.endedAs w, was := .running })).syncSwap w
        | some l =>
          let q := (t.launch l).queue
          let t := (((t.modWg w (fun x => { x with state := t.endedAs w, was := .running })).syncSwap w).modLaunch l (fun x => { x with failed := true })).modCtx p (fun c =>
            if c.batch.launch = some l then { c with batch := { c.batch with launch := none, included := [] } } else c)
          (t.queueRec q 8 (t.launch l).user (t.queue q).ri.toNat).queueError q 8)))

/-- SERVICE_RESPAWN (R346 op 8): a checked record takes the parked task's place. -/
def execServiceRespawn (p : Nat) (s : State) : Out' :=
  .next (s.service p 8 (State.parkedRecOk p) (fun i a _ t =>
    let bad := fun (addr : Nat) => SvcRes.ok (t.report { kind := .taskRecord, src := 2, pasid := p, addr := addr, detail := a }
      { RecInfo.zero with place := i.place, what := 3 })
    match t.hubNum p a 64 with
    | none => if t.hubFault p a false = some (.translation, 2) then .wait (t.askHost p a false) else bad (t.hubBadAddr p a 64 false)
    | some r =>
      if t.recordWaits p r then .wait (t.askHost p (tEntry r) false)
      else if !t.recordOk p r then bad a
      else
        let x := PoolRec.mk i.place r
        .ok ((t.modCtx p (fun c =>
          { c with parked := c.parked.filter (fun y => y.place != i.place), pool := if tFront r then x :: c.pool else c.pool ++ [x],
                   recs := c.recs.filter (fun y => !(y.what == 3 && y.place == i.place)) })).hubPoke p (poolAddr (t.ctx p) i.place) (toBytes 64 r))))

/-- SERVICE_DISCARD (R346 op 9): the parked task is removed; with address 1 its successor counter falls (R233). -/
def execServiceDiscard (p : Nat) (s : State) : Out' :=
  .next (s.service p 9 (State.parkedRecOk p) (fun i a _ t =>
    if a ≠ 1 then .ok (t.modCtx p (fun c =>
      { c with parked := c.parked.filter (fun y => y.place != i.place), recs := c.recs.filter (fun y => !(y.what == 3 && y.place == i.place)) }))
    else
      let r := t.discardTask p i.place
      if r.1 then .ok r.2 else .wait r.2))

/-- SERVICE_END_CONTEXT (R346 op 10). -/
def execServiceEndContext (p : Nat) (s : State) : Out' :=
  .next (s.service p 10 (fun _ _ => true) (fun _ _ _ t => .ok (t.teardown p)))

/-! ### Page responses (R348, R349, R377) -/

/-- Records that wait on a page request, written or waiting for room. -/
def Ctx.waitersOf (c : Ctx) (idx : Nat) : List RecInfo := c.recs.filter (fun i => i.prg == some idx && !i.served)

/-- The device forgets what it holds of a host page, and the cores that the page is absent (R377). -/
def State.forgetAbsent (p vpn : Nat) (s : State) : State :=
  let s : State := { s with cores := s.cores.map (fun (e : Nat × Core) => (e.1,
    { e.2 with tlb := e.2.tlb.filter (fun t => !(t.pasid == p && t.vpn == vpn && t.st == .absent)) })) }
  (s.modCtx p (fun c => { c with ats := Sparse.erase vpn c.ats })).wake

/-- The device asks ATS for a host page again before anything is replayed (R377). -/
def State.askAgain (p vpn : Nat) (s : State) : State := ((s.forgetAbsent p vpn).askHost p (vpn * 4096) false).wake

/-- A page request has succeeded: rings whose memory faulted are tried again at once (R310). -/
def State.retryRings (p : Nat) (s : State) : State :=
  (s.modCtx p (fun c => { c with ringBad := [] })).modDev (fun d => { d with copies := d.copies.map (fun (o : HubCopy) => if o.pasid = p then { o with warned := false } else o) })

/-- A request of its own for the writes that waited on a request for reading (R377): the waiters that write, and the state in which they wait
on it. -/
def State.writeRequest (p : Nat) (r : Prg) (s : State) : State :=
  if !r.again then s
  else
    let i := (s.ctx p).nextPrg
    (s.modCtx p (fun c =>
      { c with prgs := c.prgs ++ [⟨i, r.vpn, true, false⟩], nextPrg := (i + 1) % 512,
               recs := c.recs.map (fun y => if y.prg = some r.idx ∧ (y.acc = accWrite ∨ y.acc = accRmw) then { y with prg := some i } else y),
               waiting := c.waiting.map (fun y => if y.info.prg = some r.idx ∧ (y.info.acc = accWrite ∨ y.info.acc = accRmw) then { y with info := { y.info with prg := some i } } else y) })).emit
      (.pageRequest p r.vpn i true)

/-- A waiter of a successful request is replayed; a fibre that a handler has extracted keeps its lanes parked. -/
def State.replayWaiter (p : Nat) (s : State) (i : RecInfo) : State :=
  if i.what = 0 ∧ (s.fibre i.fib).extracted then s
  else (s.replayRec i i.left).modCtx p (fun c => { c with recs := c.recs.filter (fun y => y.ridx != i.ridx) })

/-- A waiter of a failed request gets a record with sub 4, which replaces its own (R348). -/
def State.failWaiter (p : Nat) (s : State) (i : RecInfo) : State :=
  let t := s.stamp
  (t.2.modCtx p (fun c => { c with recs := c.recs.filter (fun y => y.ridx != i.ridx) })).putOrWait p
    (setBits (setBits i.image 15 12 4) 511 448 t.1.toNat) { i with prg := none }

/-- Hub-die copies that wait for a page whose request failed end with status 1 (R309). -/
def State.failCopies (p vpn : Nat) (s : State) : State :=
  (s.dev.copies.filter (fun o => o.pasid == p && !o.finished)).foldl (fun t o =>
    let a := (o.src + o.done) % 2 ^ 57
    let b := (o.dst + o.done) % 2 ^ 57
    if a / 4096 = vpn then t.hubEnd o.id 1 FKind.translation.code a
    else if b / 4096 = vpn then t.hubEnd o.id 1 FKind.translation.code b
    else t) s

/-- PAGE_REQUEST_RESPONSE (R348, R349, R358, R377): an unknown index is discarded; a context that is saved keeps the response until it
resumes. -/
def execPageRequestResponse (p prg : Nat) (ok : Bool) (s : State) : Out' :=
  let c := s.ctx p
  .next (match c.prgs.find? (fun r => r.idx == prg) with
    | none => s
    | some r =>
      if c.state = .preempted ∨ c.state = .saving ∨ c.state = .frozen then
        s.modCtx p (fun y => { y with deferred := y.deferred ++ [.pageRequestResponse p prg ok] })
      else
        let s := s.modCtx p (fun y => { y with prgs := y.prgs.filter (fun z => z.idx != prg) })
        if c.state = .ended then s.endTeardown p
        else
          let s := s.writeRequest p r
          if ok then
            let s := s.askAgain p r.vpn
            let held := ((s.ctx p).waiting.filter (fun y => y.info.prg == some prg)).map (·.info)
            let s := ((s.ctx p).waitersOf prg).foldl (State.replayWaiter p) s
            let s := held.foldl (fun t i => t.replayRec i i.left) s
            let s := s.modCtx p (fun y => { y with waiting := y.waiting.map (fun z => if z.info.prg = some prg then { z with info := { z.info with served := true } } else z) })
            (s.retryRings p).flushRecords p
          else
            let s := ((s.ctx p).waitersOf prg).foldl (State.failWaiter p) (s.forgetAbsent p r.vpn)
            let s := s.modCtx p (fun y => { y with waiting := y.waiting.map (fun z => if z.info.prg = some prg then
              { z with image := setBits z.image 15 12 4, info := { z.info with prg := none } } else z) })
            (s.failCopies p r.vpn).wake)

/-! ### Invalidation (R351) -/

/-- Entries of the range in a core's caches. -/
def inRange (p lo hi : Nat) (t : Tlb) : Bool := t.pasid == p && decide (lo ≤ t.vpn) && decide (t.vpn ≤ hi)

/-- Lines of pages `lo` to `hi` of a context whose attribute or place has changed are written back and unlocked (R260, R267, R351). Which lines that are not
locked lie in these pages is not kept: all of them are written back, as an eviction may at any moment (R265; log 24). -/
def State.unlockPages (p lo hi : Nat) (s : State) : State :=
  let freed := fun (e : Nat × Nat) =>
    let v := (e.2 - 1) % 2 ^ 45
    (e.2 - 1) / 2 ^ 45 == p && decide (lo ≤ v) && decide (v ≤ hi) && (match s.walk p v with
      | (.ok, leaf, frame) => !(fieldB leaf 5 4 == 3 && frame == e.1 / 8)
      | _ => true)
  let locks := s.dev.locked.filter (fun e => !freed e)
  let kept := fun (line : Nat) => locks.any (fun e => e.1 == line)
  s.modDev (fun d => { d with locked := locks, l2 := d.l2.filter (fun e => kept e.1), lastWriter := d.lastWriter.filter (fun e => kept e.1),
                              hint := d.hint.filter (fun e => kept e.1) })

/-- Remove the translations of pages `lo` to `hi` of a context; the second result is false while an access that used them is not performed, a write that waits for the
pre-image pool, and the invalidation is not complete (R334, R351). -/
def State.invalidate (p lo hi : Nat) (s : State) : State × Bool :=
  let used := fun (w va : Nat) => (s.wg w).pasid == p && decide (lo ≤ va / 4096) && decide (va / 4096 ≤ hi)
  let hit := (s.cores.filter (fun e => e.2.tlb.any (inRange p lo hi) || e.2.wbuf.any (fun b => !b.spad && used b.wg b.va) || e.2.reds.any (fun r => used r.wg r.va))).map (·.1)
  let s := hit.foldl (fun t c => t.drainCore c) s
  if hit.any (fun c => !(s.core c).wbuf.isEmpty || !(s.core c).reds.isEmpty) then (s, false)
  else
    let s := s.unlockPages p lo hi
    (({ s with cores := s.cores.map (fun (e : Nat × Core) => (e.1,
      { e.2 with tlb := e.2.tlb.filter (fun t => !inRange p lo hi t),
                 walks := e.2.walks.filter (fun w => !(w.stage == 0 && w.pasid == p && decide (lo ≤ w.vpn) && decide (w.vpn ≤ hi))) })) } : State).wake, true)

/-- An invalidation that is complete waits no longer; one that is not is looked at again. Of ATS 32 have room (R361). -/
def State.doneInval (x : Bool × Nat × Nat × Nat) (s : State) : State := s.modDev (fun d => { d with invals := d.invals.erase x })
def State.awaitWrites (x : Bool × Nat × Nat × Nat) (s : State) : State :=
  if s.dev.invals.contains x ∨ (x.1 ∧ 32 ≤ (s.dev.invals.filter (·.1)).length) then s else s.modDev (fun d => { d with invals := d.invals ++ [x] })

/-- ATS_INVALIDATION (R351): the host's answers for the range are forgotten, and the request is answered; until it can be, it waits. -/
def execAtsInvalidation (p lo hi : Nat) (s : State) : Out' :=
  let r := s.invalidate p lo hi
  .next (if r.2 then ((r.1.doneInval (true, p, lo, hi)).modCtx p (fun c => { c with ats := c.ats.filter (fun e => e.1 < lo || hi < e.1) })).emit (.atsInvalidated p lo hi)
    else r.1.awaitWrites (true, p, lo, hi))

/-- TRANSLATION_INVALIDATE (R351). -/
def execTranslationInvalidate (p lo hi : Nat) (s : State) : Out' :=
  let r := s.invalidate p lo hi
  .next (if r.2 then r.1.doneInval (false, p, lo, hi) else r.1.awaitWrites (false, p, lo, hi))

/-! ### Rings (R310, R342) -/

/-- Ring `r` of a context: 0 fault, 1 service, 2 SVC requests, 3 SVC replies. -/
def Ctx.modRing (r : Nat) (g : Ring → Ring) (c : Ctx) : Ctx :=
  match r with
  | 0 => { c with faultRing := g c.faultRing }
  | 1 => { c with serviceRing := g c.serviceRing }
  | 2 => { c with reqRing := g c.reqRing }
  | _ => { c with repRing := g c.repRing }

/-- RING_DESCRIPTOR_WRITE (R310): the device tries again. -/
def execRingDescriptorWrite (p r : Nat) (base : Word64) (size : Word) (s : State) : Out' :=
  let s := s.modCtx p (fun c => { c.modRing r (fun x => { x with base := base &&& BitVec.ofNat 64 (2 ^ 57 - 1), size := size }) with ringBad := c.ringBad.filter (· != min r 3) })
  let s := s.modDev (fun d => { d with copies := d.copies.map (fun (o : HubCopy) => if o.pasid = p then { o with warned := false } else o) })
  .next (s.flushRecords p)

/-! ### Watchdogs (R356, R357) -/

/-- The clock of a queue's last progress: a packet of it completed, or an instruction of its launches, or of the predecessors that these wait for, issued (R356, R380). -/
def State.progressAt (s : State) (q : Nat) : Nat :=
  let own := (s.launches.filter (fun e => e.2.queue == q)).map (·.1)
  let ls := own ++ own.flatMap (fun l => (s.predsOf l).map (·.1))
  s.slots.foldl (fun m e => match e.2.wg with
    | some w => (match (s.wg w).launch with | some l => if ls.contains l then max m e.2.lastIssue else m | none => m)
    | none => m) (s.queue q).progress

/-- HANG_WATCHDOG_EXPIRY (R356, R357): not before its period has passed without progress; while the context's save runs, the expiry is recorded and ignored. -/
def execHangWatchdogExpiry (q : Nat) (s : State) : Out' :=
  let x := s.queue q
  let p := x.pasid.toNat
  .next (if !x.mapped ∨ s.clock < s.progressAt q + Config.hangClocks s.dev.cfg.hang.toNat then s
    else
      let t := s.report { kind := .hangWatchdog, src := 2, pasid := p, queue := q } RecInfo.zero
      if (s.ctx p).state = .saving then t
      else ((t.preempt p).queueRec q 9 0 x.ri.toNat).queueError q 9)

/-- A core is reset (R357): its work is gone and all its state reads zero. -/
def State.resetCore (c : Nat) (s : State) : State :=
  let ws := (s.wgs.map (·.2)).filter (fun x => x.core == c)
  let s := ws.foldl (fun t x => (t.dropOps x.id).freeWg x.id) s
  let s : State := { s with mem := clearBytes (clearBytes (clearBytes s.mem (spadKey c 0) 0x200000) (tileKey c 0 0) 0x80000) (accKey c 0 0) 0x180000 }
  let s := (List.range 16).foldl (fun t k => t.setSlot (16 * c + k) Slot.zero) s
  (s.setCore c { Core.zero with clock0 := s.clock }).wake

/-- SAVE_WATCHDOG_EXPIRY (R357): the context is lost, and the cores that hold its work are reset. -/
def execSaveWatchdogExpiry (p : Nat) (s : State) : Out' :=
  .next (if (s.ctx p).state = .saving then
      let cs := ((s.wgsOn p).map (·.core)).eraseDups
      cs.foldl (fun t c => t.resetCore c) (s.loseContext p)
    else s)

end Machine

end Sys2Proof
end

