-- ==== Sys2Proof/Machine/Press.lean ====
section
/-! DEFINITION. The press of a pod into host memory, its release, and the loss of links and peers, which presses the contexts it concerns (R359, R360,
R366 to R369). -/

namespace Sys2Proof

namespace Machine

/-! ### Pages of a context (R257, R350) -/

/-- Indices of the nonzero entries of the table at `t`. -/
def tableIdx (m : List Host.Cell) (t : Nat) : List Nat :=
  ((m.filter (fun e => decide (t ≤ e.1) && decide (e.1 < t + 4096))).map (fun e => (e.1 - t) / 8)).eraseDups

/-- A run of bytes that a context's tables place: a table, or a page with its leaf. -/
structure Span where
  base : Nat
  len : Nat
  leaf : Word64
deriving DecidableEq, Repr

/-- The tables and pages below the table at `t`; `lv` counts the levels. -/
def spansFrom (m : List Host.Cell) : Nat → Nat → List Span
  | 0, _ => []
  | lv + 1, t =>
    ⟨t, 4096, 1⟩ :: (tableIdx m t).flatMap (fun i =>
      let e : Word64 := BitVec.ofNat 64 (rdNum m (t + 8 * i) 8)
      if !e.getLsbD 0 then []
      else if fieldB e 3 1 = 0 then (if lv = 0 then [] else spansFrom m lv (fieldB e 51 12 * 4096))
      else if 3 ≤ lv then [] else [⟨fieldB e 51 12 * 4096, 4096 * 512 ^ lv, e⟩])

/-- Spans of a context that lie in device memory. -/
def deviceSpans (m : List Host.Cell) (root : Nat) : List Span := (spansFrom m 5 root).filter (fun x => fieldB x.leaf 7 6 == 0)

/-- A context maps memory of module `n`. -/
def State.mapsPeer (s : State) (p n : Nat) : Bool :=
  (spansFrom s.mem 5 (s.ctx p).root).any (fun x => fieldB x.leaf 7 6 == 2 && fieldB x.leaf 59 52 == n)

/-! ### The press (R359) -/

/-- Bytes of the press region that one press needs: device memory and the images of every core (R359). -/
def pressPart : Nat := deviceBytes + Config.cores * imageBytes

/-- Parts of the press region that frozen contexts still occupy. -/
def State.partsUsed (s : State) : Nat := (s.dev.mgmt.frozen.map (fun p => (s.ctx p).pressed)).foldl max 0

/-- The press region has room for one more press beside the pages of contexts that are still frozen (R359, R360). -/
def State.armed (s : State) : Bool := decide ((s.partsUsed + 1) * pressPart ≤ s.dev.cfg.pressSize.toNat)

/-- Key of part `i` of the press region. -/
def State.pressKey (s : State) (i : Nat) : Nat := hostKey s.dev.cfg.pressBase.toNat + i * pressPart

/-- Queues of a context enter state 5 and remember where they stood. -/
def State.freezeQueues (p : Nat) (s : State) : State :=
  s.modDev (fun d => { d with queues := d.queues.map (fun (e : Nat × Queue) => (e.1,
    if e.2.pasid.toNat = p then { e.2 with former := e.2.state, state := .disabled, mapped := false, yieldSlot := false } else e.2)) })

/-- Change the management state. -/
def State.modMgmt (s : State) (g : Mgmt → Mgmt) : State := s.modDev (fun d => { d with mgmt := g d.mgmt })

/-- Pre-empt a context that a press freezes; it is frozen once its save has ended, and its pages are to be copied. -/
def State.freezeOne (s : State) (p : Nat) : State :=
  let s := s.preempt p
  if (s.ctx p).state = .preempted then
    (s.modCtx p (fun c => { c with state := .frozen })).modMgmt (fun m =>
      { m with toFreeze := m.toFreeze.filter (· != p), frozen := m.frozen ++ [p], toCopy := m.toCopy ++ [p] })
  else if (s.ctx p).state = .saving then s
  else s.modMgmt (fun m => { m with toFreeze := m.toFreeze.filter (· != p) })

/-- Copy the pages of the contexts just frozen to a part of the press region; every dirty sector of the L2 is written back (R359). -/
def State.pressCopy (s : State) : State :=
  let ps := s.dev.mgmt.toCopy
  let s := s.modDev (fun d => { d with l2 := d.l2.map (fun e => (e.1, e.2 &&& 0xFF)), mgmt := { d.mgmt with toCopy := [] } })
  if !s.armed then s
  else
    let i := s.partsUsed
    ps.foldl (fun (t : State) p =>
      ((deviceSpans t.mem (t.ctx p).root).foldl (fun (u : State) x => u.copySpan x.base (u.pressKey i + x.base) x.len) t).modCtx p
        (fun c => { c with pressed := i + 1 })) s

/-- The reports that a press code stands for. -/
def pressReports (code : Nat) : List Nat := if code = 4 then [1, 3] else [code]

/-- Go on with a press: freeze what can be frozen; when nothing is left, copy and report. -/
def State.pressGo (s : State) : State :=
  if s.dev.mgmt.pressing = 0 then s
  else
    let s := s.dev.mgmt.toFreeze.foldl State.freezeOne s
    if !s.dev.mgmt.toFreeze.isEmpty then s
    else
      let code := s.dev.mgmt.pressing
      ((pressReports code).foldl (fun (t : State) r => t.emit (.report r))
        (s.pressCopy.modMgmt (fun m => { m with pressing := 0, recovered := m.recovered || decide (3 ≤ code) }))).wake

/-- Start a press of contexts that ends with a report: their queues stop at once (R359 step 1). A press that is already running goes on
with them, and both reports are made when it ends (R369). -/
def State.startPress (ps : List Nat) (code : Nat) (s : State) : State :=
  let ps := ps.filter (fun p => (s.ctx p).state == .active || (s.ctx p).state == .saving || (s.ctx p).state == .preempted)
  let ps := ps.filter (fun p => !s.dev.mgmt.toFreeze.contains p)
  let s := ps.foldl (fun t p => t.freezeQueues p) s
  (s.modMgmt (fun m => { m with toFreeze := m.toFreeze ++ ps, pressing := if m.pressing = 0 ∨ m.pressing = code then code else 4 })).pressGo

/-! ### Messages to peers (R366 to R369) -/

/-- Modules of the peer set other than this one. -/
def State.peerList (s : State) : List Nat := (List.range 256).filter (fun m => s.dev.cfg.peers.getLsbD m && m != s.dev.cfg.modIdx.toNat)

/-- Send a message of a kind on VC3 to every peer (R366, R369): 2 a seize request, 3 a link event, 4 a lost peer. -/
def State.broadcast (code data : Nat) (s : State) : State := s.peerList.foldl (fun t m => t.send ⟨3, m, 0, code, data⟩) s

/-- A seize request (R366): the signature, the nonce, then the press here and the request itself to every peer. Its result code is the mailbox's. -/
def State.seize (pod : Nat) (nonce : Word64) (sig : Nat) (s : State) : Nat × State :=
  if !Config.seizeOk pod nonce sig then (4, s)
  else if nonce ≤ s.dev.mgmt.nonce then (3, s)
  else
    let s := (s.modMgmt (fun m => { m with nonce := nonce })).broadcast 2 (pod + 2 ^ 64 * (nonce.toNat + 2 ^ 64 * sig))
    if !s.armed then (5, s.emit (.report 2))
    else
      let s := (s.modMgmt (fun m => { m with seized := true })).logEvent .press 0 pod
      (0, s.startPress (s.ctxs.map (·.1)) 1)

/-- SEIZE_POD (R366, R365). -/
def execSeizePod (pod : Nat) (nonce : Word64) (sig : Nat) (s : State) : Out' :=
  .next (s.command (fun t => let r := t.seize pod nonce sig; r.2.answer r.1 []))

/-- A seize request of another module or of the tray's management controller. -/
def State.seizeHere (pod : Nat) (nonce : Word64) (sig : Nat) (s : State) : State := if s.dev.mgmt.safe then s else (s.seize pod nonce sig).2

/-- SEIZE_REQUEST_MESSAGE (R366): a request by a second path presses once. -/
def execSeizeRequestMessage (pod : Nat) (nonce : Word64) (sig : Nat) (s : State) : Out' := .next (s.seizeHere pod nonce sig)

/-! ### The release (R360) -/

/-- A context's queues return to where they stood, a mapped one to a hardware slot while one is free (R292); waits that have been satisfied go on. -/
def State.thawQueues (p : Nat) (s : State) : State :=
  let one := fun (d : Dev) (e : Nat × Queue) =>
    let held := decide ((d.queues.filter (fun x => x.2.mapped)).length < 64)
    let st := if e.2.former = .mapped ∧ !held then QState.idle else e.2.former
    let x := { e.2 with state := st, mapped := e.2.former == .mapped && held }
    { d with queues := Sparse.set Queue.zero e.1 x d.queues }
  let qs := s.dev.queues.filter (fun e => e.2.pasid.toNat == p)
  let s := s.modDev (fun d => qs.foldl one d)
  (s.dev.queues.filter (fun e => e.2.pasid.toNat == p)).foldl (fun t e =>
    if e.2.state = .onWait then t.wakeWaiters e.2.waitCtr else if e.2.state = .onLtake then t.linkWake e.2.waitCtr else t) s

/-- Some sector of a span's frozen copy at a key is bad. -/
def State.spanBad (s : State) (k : Nat) (x : Span) : Bool :=
  let lo := (k + x.base) / 64
  let hi := (k + x.base + x.len) / 64
  s.dev.poison.any (fun e => decide (lo ≤ e.1) && decide (e.1 < hi)) || s.dev.chk.any (fun e => decide (lo ≤ e.1) && decide (e.1 < hi))

/-- The bytes of `n` bytes at a key, as if they stood from 0 on. -/
def movedDown (m : List Host.Cell) (k n : Nat) : List Host.Cell :=
  (m.filter (fun e => decide (k ≤ e.1) && decide (e.1 < k + n))).map (fun e => (e.1 - k, e.2))

/-- Bring a frozen context back to its frames and resume it; a bad image or page loses it and stops no other. -/
def State.thaw (s : State) (p : Nat) : State :=
  let i := (s.ctx p).pressed
  let k := s.pressKey (i - 1)
  let sp := if i = 0 then [] else deviceSpans (movedDown s.mem k deviceBytes) (s.ctx p).root
  let s := (s.modMgmt (fun y => { y with frozen := y.frozen.filter (· != p) })).modCtx p (fun c => { c with pressed := 0 })
  if sp.any (s.spanBad k) then s.loseContext p
  else
    let s := sp.foldl (fun (t : State) x => t.copySpan (k + x.base) x.base x.len) s
    ((s.modCtx p (fun c => { c with state := .preempted })).resume p).thawQueues p

/-- RELEASE_POD (R360): frozen contexts return in the order in which they were pressed. -/
def execReleasePod (s : State) : Out' :=
  .next (s.command (fun t =>
    if !t.dev.mgmt.seized && t.dev.mgmt.frozen.isEmpty then t.answer 3 []
    else ((t.dev.mgmt.frozen.foldl State.thaw t).modMgmt (fun m => { m with seized := false })).answer 0 []))

/-- DISCARD_FROZEN (R360): with the owner's consent record only. -/
def execDiscardFrozen (p consent : Nat) (s : State) : Out' :=
  .next (s.command (fun t =>
    if (t.ctx p).state ≠ .frozen then t.answer 2 []
    else if !Config.consentOk p consent then t.answer 4 []
    else (t.teardown p).answer 0 []))

/-! ### Loss of links and peers (R367, R369) -/

/-- A route entry without a link. -/
def dropLink (l : Nat) (r : BitVec 19) : BitVec 19 :=
  let k := (routeLinks r).filter (· != l)
  BitVec.ofNat 19 ((k.zipIdx.foldl (fun x p => x + p.1 * 2 ^ (4 * p.2)) 0) + k.length * 2 ^ 16)

/-- Contexts with a page that maps memory of a module (R369). -/
def State.mappers (s : State) (n : Nat) : List Nat :=
  (s.ctxs.map (·.1)).filter (fun p => (s.ctx p).state != .ended && (s.ctx p).state != .gone && s.mapsPeer p n)

/-- A peer is out of reach (R369): requests to it end without data, and every context that maps it is told. -/
def State.cutPeer (s : State) (n : Nat) : State :=
  let s := s.modMgmt (fun m => { m with hung := m.hung ++ [n] })
  let gone := fun (k : Nat) => keyOf k == 2 + n
  let s : State := { s with
    cores := s.cores.map (fun (e : Nat × Core) => (e.1, { e.2 with wbuf := e.2.wbuf.filter (fun b => !gone b.key), reds := e.2.reds.filter (fun r => !gone r.key) })),
    fibres := s.fibres.map (fun (e : Nat × Fibre) => (e.1, { e.2 with pend := e.2.pend.map (fun p =>
      let w := s.walk (s.wg e.2.wg).pasid (p.addr / 4096)
      if p.load && !p.arrived && w.1 == .ok && fieldB w.2.1 7 6 == 2 && fieldB w.2.1 59 52 == n then { p with bad := true } else p) })) }
  ((s.mappers n).foldl (fun (t : State) p => t.report { kind := .contextLost, src := 2, pasid := p } RecInfo.zero) s).logEvent .link 0 n

/-- Peers are lost: the contexts that map them are pressed, and `recovered` is reported (R369). -/
def State.losePeers (ns : List Nat) (s : State) : State :=
  let ns := ns.filter (fun n => !s.dev.mgmt.hung.contains n)
  ((ns.foldl State.cutPeer s).startPress (ns.flatMap s.mappers).eraseDups 3).wake

/-- A peer is lost, once. -/
def State.losePeer (n : Nat) (s : State) : State := if s.dev.mgmt.hung.contains n then s else s.losePeers [n]

/-- A link is dead: every route drops it, messages not acknowledged on it, and those that wait at it, are sent again on a live link of their entry, modules that no
link reaches any more are lost, and `recovered` is reported (R369). -/
def State.loseLink (l : Nat) (s : State) : State :=
  let old := s.dev.cfg.routes
  let again := (s.flink l).replay ++ (s.flink l).waiting
  let s := s.modDev (fun d => { d with cfg := { d.cfg with routes := (old.map (fun (e : Nat × BitVec 19) => (e.1, dropLink l e.2))).filter (fun e => e.2 != 0) } })
  let s := (s.modFlink l (fun x => { x with down := true, replay := [], waiting := [] })).logEvent .link 1 l
  let s := again.foldl (fun t x => t.send x) s
  s.losePeers ((old.filter (fun e => (routeLinks e.2).contains l && (s.linksTo e.1).isEmpty)).map (·.1))

/-- This module sees a link go down and tells every other module, and of each peer that thereby is out of reach (R369). -/
def State.linkDown (l : Nat) (s : State) : State :=
  if linkCount ≤ l ∨ (s.flink l).down then s
  else
    let t := s.loseLink l
    (t.dev.mgmt.hung.filter (fun n => !s.dev.mgmt.hung.contains n)).foldl (fun u n => u.broadcast 4 n) (t.broadcast 3 l)

/-- A link of module `m` is dead: it is a link of this module if the wiring joins the two (R369). -/
def State.peerLinkDown (m l : Nat) (s : State) : State :=
  match Config.wiring m l with
  | 0 => s
  | k + 1 => if linkCount ≤ k ∨ (s.flink k).down then s else s.loseLink k

/-! ### Flits (R273, R274, R278, R367) -/

/-- The value that an AtomicOp or a peer's atomic leaves (R361): 0 FetchAdd, 1 Swap, 2 CAS (compare `x`, new `y`). -/
def outsideNew (op n old : Nat) (x y : Word64) : Nat :=
  match op with
  | 0 => atomNew 0 (8 * n) old x.toNat 0
  | 1 => x.toNat % 2 ^ (8 * n)
  | _ => if old = x.toNat % 2 ^ (8 * n) then y.toNat % 2 ^ (8 * n) else old

/-- The bytes of a peer's write under its mask, each performed at its home (R278). -/
def State.maskedWrite (a mask : Nat) (data : List Byte) (s : State) : State :=
  if mask % 2 ^ data.length = 2 ^ data.length - 1 then s.homeWrite a data
  else (data.zipIdx.filter (fun e => mask.testBit e.2)).foldl (fun (t : State) e => t.homeWrite (a + e.2) [e.1]) s

/-- A request of module `m` about this module's memory (R278): its home performs it and answers on VC1 or VC2, with an error where the address does not exist
or the sector is bad (R273 to R275). -/
def State.serve (m : Nat) (x : FabricMsg) (s : State) : State :=
  let say := fun (vc code data : Nat) (t : State) => t.send ⟨vc, m, x.addr, code, x.tag + 2 ^ 32 * data⟩
  let err := fun (t : State) => say 2 8 0 t
  let bad := s.sectorBad (sectorOf x.addr)
  match x.kind with
  | .read =>
    if deviceBytes ≤ x.addr ∨ bad then err s
    else say 1 5 (rdNum s.mem (x.addr / 64 * 64) 64) (s.touchL2 0 false (x.addr / 64 * 64) 64)
  | .write =>
    let a := x.addr / 64 * 64
    let d := x.data.take 64
    if deviceBytes ≤ x.addr then err s
    else
      let t := (s.maskedWrite a x.mask d).wake
      if t.sectorBad (sectorOf a) then err t else say 2 6 0 (t.touchL2 0 true a 64)
  | .atomic op wide p q =>
    let n := if wide then 8 else 4
    let old := rdNum s.mem x.addr n
    if deviceBytes < x.addr + n ∨ x.addr % n ≠ 0 then err s
    else if bad then err (s.modDev (fun d => { d with poison := Sparse.set false (sectorOf x.addr) true d.poison }))
    else say 1 5 old (((s.homeWrite x.addr (toBytes n (outsideNew op n old p q))).touchL2 0 true x.addr n).wake)
  | _ => s

/-- What a message of module `m` does here. A request whose check value fails is not performed and is answered with an error status, and another such message is
dropped (R274); answers and acknowledgements end requests that this model performs at once. -/
def State.takeMsg (m : Nat) (s : State) (x : FabricMsg) : State :=
  if !x.sound then (match x.kind with
    | .read | .write | .atomic _ _ _ _ => s.send ⟨2, m, x.addr, 8, x.tag⟩
    | _ => s)
  else match x.kind with
    | .seize pod nonce sig => s.seizeHere pod nonce sig
    | .deadLink l => s.peerLinkDown m l
    | .lostPeer n => if n = s.dev.cfg.modIdx.toNat then s else s.losePeer n
    | .heartbeat => s.send ⟨3, m, 0, 7, 0⟩
    | _ => s.serve m x

/-- FABRIC_FLIT (R367): a flit whose link check fails is refused; after eight in a row the link is down. A good one carries a sequence number, credits for its
channel, which acknowledge as many of the oldest messages of that channel and let waiting ones go, and, if it is for this module, messages. -/
def execFabricFlit (link : Nat) (flit : List Byte) (s : State) : Out' :=
  let n := ofBytes flit
  let vc := bits n 1 0
  let back := bits n 63 34
  .next (if linkCount ≤ link ∨ (s.flink link).down then s
    else if flit.length ≠ 256 ∨ !Config.linkCheckOk n then
      (if (s.flink link).fails + 1 < 8 then s.modFlink link (fun x => { x with fails := x.fails + 1 }) else s.linkDown link)
    else
      let s := s.modFlink link (fun x =>
        let mine := (x.replay.filter (fun y => y.vc == vc)).drop back
        { x with fails := 0, seqIn := BitVec.ofNat 16 (bits n 33 18), credits := Sparse.set linkCredits vc (Sparse.get linkCredits vc x.credits + back) x.credits,
                 replay := x.replay.filter (fun y => y.vc != vc) ++ mine })
      let s := s.drainLink link vc ((s.flink link).waiting.length)
      if bits n 17 10 ≠ s.dev.cfg.modIdx.toNat then s else (Config.fabricMessages n).foldl (State.takeMsg (bits n 9 2)) s)

/-- LINK_SILENCE_TIMEOUT (R369). -/
def execLinkSilenceTimeout (link : Nat) (s : State) : Out' := .next (s.linkDown link)

/-- IDLE_FLIT_TIMER (R369). -/
def execIdleFlitTimer (link : Nat) (s : State) : Out' :=
  .next (if linkCount ≤ link ∨ (s.flink link).down then s
    else (s.modFlink link (fun x => { x with seqOut := x.seqOut + 1 })).emit (.fabric link 1 (s.flink link).seqOut.toNat))

/-- PEER_HEARTBEAT_TIMEOUT (R369): the peer is hung; the other modules are told. -/
def execPeerHeartbeatTimeout (m : Nat) (s : State) : Out' :=
  .next (if s.dev.mgmt.hung.contains m then s else (s.losePeer m).broadcast 4 m)

/-- LINK_EVENT_BROADCAST (R369): module `m` is lost, or its link `link` is dead. -/
def execLinkEventBroadcast (m link : Nat) (hung : Bool) (s : State) : Out' :=
  .next (if hung then s.losePeer m 
    else if m ≠ s.dev.cfg.modIdx.toNat then s.peerLinkDown m link
    else if linkCount ≤ link ∨ (s.flink link).down then s else s.loseLink link)

end Machine

end Sys2Proof
end

