-- ==== Sys2Proof/Machine/Batch.lean ====
section
/-! DEFINITION. Continuous batching and the role monitors (R312 to R314, R317). -/

namespace Sys2Proof

namespace Machine

/-! ### The batching table (R312) -/

/-- Address of entry `i` of a table. -/
def Batch.entry (b : Batch) (i : Nat) : Nat := b.table.toNat % 2 ^ 57 + 128 * i

/-- Fields of an entry's 1,024 bits. -/
def bVersion (n : Nat) : Nat := bits n 63 0
def bRid (n : Nat) : Nat := bits n 127 64
def bStatus (n : Nat) : Nat := bits n 159 152
def bPos (n : Nat) : Nat := bits n 191 160
def bDring (n : Nat) : Nat := bits n 440 384
def bNcom (n : Nat) : Nat := bits n 511 448

/-- An entry has a nonzero reserved field (R312). -/
def bReserved (n : Nat) : Bool := bits n 255 224 != 0 || bits n 383 377 != 0 || bits n 447 441 != 0

/-- Entries of a table that an iteration includes, with their copies: status 1 or 2 and an even version (R313 step 1); none where the table cannot
be read. One with a nonzero reserved field is left out (R10; DESIGN CHOICE, log 49: the chapter names no error). -/
def State.snapshot (s : State) (p : Nat) (b : Batch) : Nat → Option (List (Nat × Nat))
  | 0 => some []
  | n + 1 => (State.snapshot s p b n).bind (fun l => (s.hubNum p (b.entry n) 128).map (fun x =>
      if (bStatus x = 1 ∨ bStatus x = 2) ∧ bVersion x % 2 = 0 ∧ !bReserved x then l ++ [(n, x)] else l))

/-- The bytes of the snapshot buffer: a count, the copies, and zeroed result places (R313). R313 copies 128 bytes, so the copies hold the words that R312
says the device never reads (DESIGN CHOICE, log 49). -/
def snapBytes (l : List (Nat × Nat)) : List Byte :=
  toBytes 8 l.length ++ l.flatMap (fun e => toBytes 128 e.2) ++ toBytes (16 * l.length) 0

/-- Wait for a page that a batching access needs, if that is what it needs. -/
def State.batchWait (p va len : Nat) (w : Bool) (s : State) : State := s.askHost p (s.hubBadAddr p va len w) w

/-- BATCH_ITERATION (R313 steps 1 and 2). Its LAUNCH begins as one of its queue does, once the packets before it that are no LAUNCH are complete (R294). -/
def execBatchIteration (p : Nat) (s : State) : Out' :=
  let c := s.ctx p
  let b := c.batch
  let q := b.queue.toNat
  let x := s.queue q
  let snap := b.snap.toNat % 2 ^ 57
  let templ := b.templ.toNat % 2 ^ 57
  .next (if b.count = 0 ∨ b.launch.isSome ∨ !s.othersDone q ∨ x.state = .onWait ∨ x.state = .onLtake ∨ c.state ≠ .active ∨ !x.en ∨ x.pasid.toNat ≠ p ∨ x.state = .error ∨ x.state = .disabled ∨ s.dev.mgmt.takeover then s
    else match s.snapshot p b b.count.toNat, s.hubNum p templ 64 with
      | none, _ => s.batchWait p (b.entry 0) (128 * b.count.toNat) false
      | _, none => s.batchWait p templ 64 false
      | some l, some n =>
        match s.hubPut p snap (snapBytes l) with
        | none => s.batchWait p snap (snapBytes l).length true
        | some t =>
          let user := BitVec.ofNat 32 (bits n 63 32)
          if bits n 7 0 ≠ 1 ∨ bits n 31 10 ≠ 0 then t.reject q 2 user
          else match t.beginLaunch q x.ri user (n.testBit 8) (n.testBit 9) n snap none with
            | .ok id u => (u.modCtx p (fun y => { y with batch := { b with next := 0, launch := some id, included := l.map (fun e => (e.1, BitVec.ofNat 64 (bVersion e.2))) } })).wake
            | .wait u => u
            | .bad e => t.reject q e user)

/-- Commit included entry `j` of the snapshot, entry `i` of the table with version `v`, with its result (R314); the second result is false while a host page
that it needs is waited for. An entry that cannot be written is left as it stands and delivers nothing, and so is one whose
reserved fields, or its result's, are not zero (R10). The delivered entry holds rid in [63:0], the token in
[95:64] and pos in [127:96] (DESIGN CHOICE, log 49). -/
def State.commitEntry (p : Nat) (b : Batch) (j : Nat) (x : Nat × Word64) (s : State) : State × Bool :=
  let i := x.1
  let v := x.2.toNat
  let a := b.entry i
  let res := b.snap.toNat % 2 ^ 57 + 8 + 128 * b.included.length + 16 * j
  let wait := fun (va len : Nat) (w : Bool) =>
    let e := s.hubBadAddr p va len w
    if s.hubFault p e w = some (.translation, 2) then (s.askHost p e w, false) else (s, true)
  match s.hubNum p res 16, s.hubNum p a 128 with
  | some r, some n =>
    if !r.testBit 32 ∨ bits r 63 34 ≠ 0 ∨ bReserved n ∨ bVersion n ≠ v then (s, true)
    else if (s.hubPut p a (toBytes 68 n)).isNone then wait a 68 true
    else
      let tok := bits r 31 0
      let put := fun (m : Nat) (t : State) => (t.hubPut p a (toBytes 68 (setBits m 63 0 ((v + 2) % 2 ^ 64)))).getD t
      let entry := toBytes 16 (bRid n + tok * 2 ^ 64 + bPos n * 2 ^ 96)
      let held := setBits n 159 152 2
      let done := setBits (setBits (setBits (setBits (setBits n 191 160 (bPos n + 1)) 319 256 (bits r 127 64)) 511 448 (bNcom n + 1)) 543 512 tok) 159 152
        (if r.testBit 33 then 3 else 1)
      match s.memRing p (bDring n) entry with
      | .ok t => (put done t, true)
      | .full => (put held s, true)
      | .bad va => if s.atsOpen p va true then (s.askHost p va true, false) else (put held (s.ringFault p (bDring n) va), true)
  | none, _ => wait res 16 false
  | _, none => wait a 128 false

/-- Commit the entries that are left, in ascending order, until one has to wait; `n` of them (R313 step 3). -/
def State.commitFrom (p : Nat) (b : Batch) : Nat → Nat → State → State × Bool
  | 0, _, s => (s, true)
  | n + 1, j, s => match b.included[j]? with
    | none => (s, true)
    | some x =>
      let r := s.commitEntry p b j x
      if r.2 then State.commitFrom p b n (j + 1) (r.1.modCtx p (fun y => { y with batch := { y.batch with next := j + 1 } })) else (r.1, false)

/-- BATCH_COMMIT (R313 steps 3 and 4): the launch has confirmed. -/
def execBatchCommit (p : Nat) (s : State) : Out' :=
  let c := s.ctx p
  let b := c.batch
  .next (match b.launch with
    | none => s
    | some l =>
      if s.launches.any (fun e => e.1 == l) || c.state != .active then s
      else
        let r := s.commitFrom p b b.included.length b.next
        if !r.2 then r.1
        else r.1.withRoom p (fun s =>
          let s := s.modCtx p (fun y => { y with batch := { y.batch with launch := none, included := [], next := 0 } })
          (s.signal (s.queueFields b.queue.toNat .timeline 0) 0 b.ctr.toNat true 1).wake))

/-! ### The role monitors (R39, R317) -/

/-- The launch of a slot's running workgroup, when its monitor is on. -/
def State.monitorOf (s : State) (k : Nat) : Option Launch :=
  match (s.slot k).wg with
  | none => none
  | some w => if (s.wg w).state = .running ∧ (s.wg w).core = k / 16 ∧ (s.launchOf w).men then some (s.launchOf w) else none

/-- One sample of a slot's monitor: the occupancy of q0 against the marks. -/
def State.sampleSlot (s : State) (k : Nat) : State :=
  match s.monitorOf k with
  | none => s
  | some l => s.modSlot k (fun x =>
      { x with monLow := x.monLow && decide ((x.qget 0).length < l.lw), monHigh := x.monHigh && decide (l.hw < (x.qget 0).length) })

/-- Sample every monitor; this happens each clock. -/
def State.sampleAll (s : State) : State :=
  if s.launches.any (fun e => e.2.men) then (s.slots.map (·.1)).foldl State.sampleSlot s else s

/-- The fibre of a slot with a role at the least or the greatest position. -/
def State.roleFibre (s : State) (k : Nat) (role : BitVec 2) (low : Bool) : Option Nat :=
  ((s.slotFibres k).filter (fun f => (s.fibre f).status != .exited && (s.fibre f).role == role)).foldl (fun b f => match b with
    | none => some f
    | some g => if decide ((s.fibre f).pos < (s.fibre g).pos) == low then some f else some g) none

/-- The end of a window of slot `k`, once its clock has come: at most one flip, which a WRSR of `role` of that clock beats, and the next window begins (R39,
R317). -/
def State.monitorEnd (s : State) (k : Nat) : State :=
  match s.monitorOf k with
  | none => s
  | some l =>
    let x := s.slot k
    if s.clock < x.monStart + 2 ^ l.wlog then s
    else
      let flip := fun (f : Option Nat) (r : BitVec 2) (t : State) => match f with
        | none => t
        | some g => if (t.fibre g).roleAt = t.clock ∧ t.clock ≠ 0 then t else t.modFibre g (fun y => { y with role := r })
      let low := if x.monLow then s.roleFibre k 1 true else none
      let u := if low.isSome then flip low 0 s else if x.monHigh then flip (s.roleFibre k 0 false) 1 s else s
      u.modSlot k (fun y => { y with monStart := x.monStart + 2 ^ l.wlog, monLow := true, monHigh := true })

/-- Every window that ends now. -/
def State.monitorsEnd (s : State) : State :=
  if s.launches.any (fun e => e.2.men) then (s.slots.map (·.1)).foldl State.monitorEnd s else s

/-- ROLE_MONITOR_WINDOW (R317): slot `t` of core `c` at the end of a window. Every clock performs it for the windows that end in it. -/
def execRoleMonitorWindow (c t : Nat) (s : State) : Out' := .next (s.monitorEnd (16 * c + t))

end Machine

end Sys2Proof
end

