-- ==== Sys2Proof/Machine/Host.lean ====
section
/-! DEFINITION. The host's registers and accesses, the management mailbox, identity and update, the command processors' takeover, limits and bring-up
(R271, R276, R284, R289, R361 to R366, R370 to R374, R392, R393). -/

namespace Sys2Proof

namespace Machine

/-! ### Timeline counters through BAR0 (R299, R363) -/

/-- The context whose fault queue takes the records of host writes to counter `i`: the first that it is granted to, else context 0. -/
def State.ctrOwner (s : State) (i : Nat) : Nat := ((s.dev.ctrGrant.find? (fun g => g.1 == i)).map (·.2)).getD 0

/-- A host write to a counter: below its value only through PF0 and with no WAIT registered; otherwise it is discarded with a record (R363). -/
def State.hostCounter (pf : Bool) (i : Nat) (v : Word64) (s : State) : State :=
  let waits := s.dev.queues.any (fun e => e.2.state == .onWait && e.2.waitCtr == i)
  if s.counter i ≤ v ∨ (pf ∧ !waits) then (s.setCounter i v).wake
  else s.report (counterRec { kind := .timeline, pasid := s.ctrOwner i } 1 i) RecInfo.zero

/-- The device shows the mailbox alone: in the safe state, and until the self-test has passed (R374). -/
def State.hidden (s : State) : Bool := s.dev.mgmt.safe || !s.dev.mgmt.tested

/-- HOST_COUNTER_WRITE (R363): BAR0 shows no counter while the mailbox alone shows (R374). -/
def execHostCounterWrite (pf : Bool) (i : Nat) (v : Word64) (s : State) : Out' := .next (if s.hidden then s else s.hostCounter pf i v)

/-! ### Registers (R290, R362, R392, R393) -/

/-- Bits `[hi:0]` of a written value that lie at or above bit `lo`. -/
def keep (v : Word64) (hi lo : Nat) : Word64 := BitVec.ofNat 64 (bits v.toNat hi lo * 2 ^ lo)

/-- The map shows item `k` to a function: PF0 sees all, a VF what is assigned to it. -/
def shownTo (vf : Nat) (m : Sparse Nat) (k : Nat) : Bool := vf == 0 || Sparse.get 0 k m == vf

/-- Word `w` of queue descriptor `q` (R290): the pasid is PF0's, wi is the doorbell, the rest is read-only. -/
def State.writeQueueReg (vf q w : Nat) (v : Word64) (s : State) : State :=
  let n := v.toNat
  match w with
  | 0 => s.modQueue q (fun x => { x with ring := keep v 56 12 })
  | 1 =>
    (s.modQueue q (fun x =>
      let x := { x with lsize := BitVec.ofNat 5 n, qprio := BitVec.ofNat 4 (bits n 8 5), pasid := if vf = 0 then BitVec.ofNat 20 (bits n 28 9) else x.pasid }
      if n.testBit 29 then (if x.en then x else x.enable s.clock) else if x.en then x.disable else x)).wake
  | 2 =>
    if s.dev.mgmt.takeover then s.modMgmt (fun m => { m with latched := m.latched ++ [(q, BitVec.ofNat 32 n)] }) else (s.doorbell q (BitVec.ofNat 32 n)).wake
  | _ => s

/-- Word `w` of link `i` (R362). -/
def State.writeLinkReg (i w : Nat) (v : Word64) (s : State) : State :=
  if w = 0 then s.modLink i (fun x => { x with giver := BitVec.ofNat 12 v.toNat, taker := BitVec.ofNat 12 (bits v.toNat 27 16) })
  else (s.modLink i (fun x => { x with tokens := BitVec.ofNat 32 v.toNat })).linkWake i

/-- A written 32-bit grant entry of item `k`: bit 31 grants it to the PASID in [19:0], bit 30 revokes that grant, and an entry with neither changes
nothing (the layout is the model's, log 15). -/
def putGrant (k x : Nat) (l : List (Nat × Nat)) : List (Nat × Nat) :=
  let g := (k, bits x 19 0)
  if x.testBit 31 then l.erase g ++ [g] else if x.testBit 30 then l.erase g else l

/-- What a grant entry reads as: the first PASID that holds the item. -/
def grantWord (k : Nat) (l : List (Nat × Nat)) : Nat := ((l.find? (fun g => g.1 == k)).map (fun g => g.2 + 2 ^ 31)).getD 0

/-- The grant tables: counters, links and graph slots, 4 bytes each, then pairs of donation grants (R362; the layout is the model's, log 15). -/
def State.writeGrantReg (off : Nat) (v : Word64) (s : State) : State :=
  let two := fun (k : Nat) (l : List (Nat × Nat)) => putGrant (k + 1) (bits v.toNat 63 32) (putGrant k (bits v.toNat 31 0) l)
  if off < 0x4000 then s.modDev (fun d => { d with ctrGrant := two (off / 4) d.ctrGrant })
  else if off < 0x4400 then s.modDev (fun d => { d with linkGrant := two ((off - 0x4000) / 4) d.linkGrant })
  else if off < 0x4440 then s.modDev (fun d => { d with graphGrant := two ((off - 0x4400) / 4) d.graphGrant })
  else if 0x4800 ≤ off then
    let pair := (bits v.toNat 19 0, bits v.toNat 51 32)
    s.modDev (fun d => { d with donGrant := if v.getLsbD 63 then d.donGrant.erase pair ++ [pair] else d.donGrant.erase pair })
  else s

/-- Write an egress window's word: fixed while the lock is set (R364). -/
def putWindow (l : List (Word64 × Word64)) (i : Nat) (first : Bool) (v : Word64) : List (Word64 × Word64) :=
  let l := l ++ List.replicate (8 - l.length) (BitVec.ofNat 64 1, 0)
  l.zipIdx.map (fun e => if e.2 = i then (if first then (v, e.1.2) else (e.1.1, v)) else e.1)

/-- Word at offset `off` of a context's configuration (R392). -/
def Ctx.writeReg (lock : Bool) (off : Nat) (v : Word64) (c : Ctx) : Ctx :=
  let va := fun (lo : Nat) => keep v 56 lo
  if 0x40 ≤ off ∧ off < 0x140 then
    let r := off / 64 - 1
    c.modRing r (fun x => match off / 8 % 8 with
      | 0 => { x with base := va 0 }
      | 1 => { x with size := BitVec.ofNat 32 v.toNat }
      | 2 => if r = 1 ∨ r = 3 then { x with tail := v } else x
      | 3 => if r = 0 ∨ r = 2 then { x with head := v } else x
      | _ => x)
  else if 0x180 ≤ off ∧ off < 0x200 then (if lock then c else { c with egress := putWindow c.egress ((off - 0x180) / 16) (off % 16 == 0) v })
  else match off with
    | 0x140 => { c with offcore := va 12 }
    | 0x148 => { c with save := va 12 }
    | 0x150 => { c with fptab := va 12 }
    | 0x158 => { c with preBase := va 16 }
    | 0x160 => if 1 ≤ v.toNat ∧ v.toNat ≤ 64 then { c with preUnits := BitVec.ofNat 7 v.toNat } else c
    | 0x168 => { c with taskBase := va 6 }
    | 0x170 => { c with taskPlaces := BitVec.ofNat 21 v.toNat }
    | 0x178 => { c with vectors := v &&& BitVec.ofNat 64 0x000107FF000107FF }
    | 0x200 => { c with batch := { c.batch with table := va 0 } }
    | 0x208 => if 1 ≤ v.toNat ∧ v.toNat ≤ 65536 then { c with batch := { c.batch with count := v } } else c
    | 0x210 => { c with batch := { c.batch with snap := va 0 } }
    | 0x218 => { c with batch := { c.batch with templ := va 0 } }
    | 0x220 => { c with batch := { c.batch with queue := BitVec.ofNat 12 v.toNat } }
    | 0x228 => { c with batch := { c.batch with ctr := BitVec.ofNat 12 v.toNat } }
    | _ => c

/-- The context that the region shows: the selected one in PF0, a VF's own in a VF (R392). -/
def State.shownCtx (s : State) (vf : Nat) : Option Nat :=
  if vf = 0 then some s.dev.select.toNat else (match Sparse.get 0 vf s.dev.vfCtx with | 0 => none | n + 1 => some n)

/-- An offset of the context region that holds a register; the others are reserved (R392). -/
def ctxReg (off : Nat) : Bool := (decide (0x40 ≤ off) && decide (off < 0x140) && decide (off / 8 % 8 < 4)) || (decide (0x140 ≤ off) && decide (off < 0x230))

/-- A word of the context region: PF0 shows the selected context, a VF its own; the device keeps 4,096 contexts (R392). -/
def State.writeCtxReg (vf off : Nat) (v : Word64) (s : State) : State :=
  if off = 0 then (if vf = 0 then s.modDev (fun d => { d with select := BitVec.ofNat 20 v.toNat }) else s)
  else
    match s.shownCtx vf with
    | none => s
    | some p =>
      if !ctxReg off then s
      else if 4096 ≤ s.ctxs.length ∧ !(s.ctxs.any (fun e => e.1 == p)) then s
      else
        let s := s.modDev (fun d => { d with copies := d.copies.map (fun (o : HubCopy) => if o.pasid = p then { o with warned := false } else o) })
        let r := off / 64 - 1
        (s.modCtx p (fun c => { c.writeReg s.dev.cfg.lock off v with state := if c.state = .gone then .active else c.state, ringBad := if 0x40 ≤ off ∧ off < 0x140 then c.ringBad.filter (· != r) else c.ringBad })).flushRecords p

/-- Core `c` holds a workgroup or a state-store entry (R256, R269). -/
def State.coreBusy (s : State) (c : Nat) : Bool :=
  !(s.residents c).isEmpty || !(s.core c).ss.isEmpty || s.cores.any (fun e => 1001 ≤ e.1 && (e.1 - 1001) % 2 == 0 && (e.1 - 1001) / 2 % 256 == c && !e.2.ss.isEmpty)

/-- Word `w` of core `c`'s entry (R252, R256, R269); one that breaks its rules is ignored. -/
def State.writeCoreReg (c w : Nat) (v : Word64) (s : State) : State :=
  let n := v.toNat
  let put := fun (g : CoreCfg → CoreCfg) => (s.pinSave c).modDev (fun d => { d with cfg := { d.cfg with cores := Sparse.modify CoreCfg.zero c g d.cfg.cores } })
  if Config.cores ≤ c ∨ s.coreBusy c then s
  else if w = 0 then
    (if bits n 15 0 ≠ 0 ∨ 8 < bits n 43 40 ∨ deviceBytes < bits n 39 0 + 65536 * bits n 43 40 then s else put (fun x => { x with pb := BitVec.ofNat 40 n, p := BitVec.ofNat 4 (bits n 43 40) }))
  else if 16 < bits n 4 0 then s else put (fun x => { x with g := BitVec.ofNat 5 n })

/-- Change the device configuration. -/
def State.modCfg (s : State) (g : DevCfg → DevCfg) : State := s.modDev (fun d => { d with cfg := g d.cfg })

/-- A word of the device configuration (R393). -/
def State.writeDevReg (off : Nat) (v : Word64) (s : State) : State :=
  let n := v.toNat
  if 0x40 ≤ off ∧ off < 0x60 then s.modCfg (fun c => { c with peers := BitVec.ofNat 256 (setBits c.peers.toNat (8 * (off - 0x40) + 63) (8 * (off - 0x40)) n) })
  else if 0x1000 ≤ off ∧ off < 0x1900 then s.writeCoreReg ((off - 0x1000) / 16) (off / 8 % 2) v
  else if 0x2000 ≤ off ∧ off < 0x2800 then s.modCfg (fun c => { c with routes := Sparse.set 0 ((off - 0x2000) / 8) (BitVec.ofNat 19 n) c.routes })
  else match off with
    | 0x00 => if v.getLsbD 0 then s.modCfg (fun c => { c with lock := true }) else s
    | 0x08 => if 1024 ≤ n ∧ n ≤ 2 ^ 24 then s.modCfg (fun c => { c with swapN := BitVec.ofNat 25 n }) else s
    | 0x10 => s.modCfg (fun c => { c with quantum := BitVec.ofNat 32 n })
    | 0x18 => s.modCfg (fun c => { c with hang := BitVec.ofNat 32 n })
    | 0x20 => s.modCfg (fun c => { c with saveWd := BitVec.ofNat 32 n })
    | 0x28 => s.modCfg (fun c => { c with modIdx := BitVec.ofNat 8 n })
    | 0x80 => s.modCfg (fun c => { c with pressBase := v })
    | 0x88 => s.modCfg (fun c => { c with pressSize := v })
    | _ => s

/-! ### The mailbox's registers (R365) -/

/-- `n` bytes of the request buffer from an offset. -/
def Mailbox.field (m : Mailbox) (off n : Nat) : Nat := ofBytes ((List.range n).map (fun i => Sparse.get 0 (off + i) m.req))

/-- The command in the request buffer. The operands that follow the code and the length stand from byte 8 on in the order of the command's event (the
layout is the model's, log 15). -/
def Mailbox.parse (m : Mailbox) : Option Instr :=
  let p := m.field 8 4 % 2 ^ 20
  let tail := m.field 4 4 - 16
  match m.field 0 4 with
  | 1 => some (.preemptPasid p)
  | 2 => some (.resumePasid p)
  | 3 => some (.seizePod (m.field 8 8) (BitVec.ofNat 64 (m.field 16 8)) (m.field 24 tail))
  | 4 => some .releasePod
  | 5 => some (.discardFrozen p (m.field 16 (tail + 8)))
  | 6 => some (.teardownPasid p)
  | 7 => some .readSensors
  | 8 => some (.readEventLog (m.field 8 4) (m.field 12 4 % 2 == 1))
  | 9 => some (.stageImage (m.field 8 4) (m.field 12 4) (m.field 16 4) (m.field 24 tail))
  | 10 => some (.activateImage (m.field 8 4))
  | _ => none

/-- The control register: done is cleared by writing 1; go is set by writing 1, starts the command unless one runs, and stands until the command is done (R9; log 15). -/
def State.mailboxControl (v : Word64) (s : State) : State :=
  let s := if v.getLsbD 2 then s.modDev (fun d => { d with mbox := { d.mbox with done := false } }) else s
  if !v.getLsbD 0 || s.dev.mbox.busy then s
  else match s.dev.mbox.parse with
    | none => s.answer (if s.dev.mgmt.safe then 6 else 1) []
    | some i => { s with agenda := i :: s.agenda, dev := { s.dev with mbox := { s.dev.mbox with go := true, busy := true } } }

/-- A word of the mailbox: the response buffer is read-only. -/
def State.writeMailbox (off : Nat) (v : Word64) (s : State) : State :=
  if off = 0 then s.mailboxControl v
  else if 0x100 ≤ off ∧ off < 0x8000 then
    let put := fun (r : Sparse Byte) => (List.range 8).foldl (fun m i => Sparse.set 0 (off - 0x100 + i) (v.extractLsb' (8 * i) 8) m) r
    s.modDev (fun d => { d with mbox := { d.mbox with req := put d.mbox.req } })
  else s

/-- REGISTER_WRITE (R362): 64 bits at an offset of BAR0, by PF0 (or PF1, which mirrors it) or by VF `vf`. In the safe state, and until the self-test has
passed, PF0 shows the mailbox alone (R374). -/
def execRegisterWrite (vf off : Nat) (v : Word64) (s : State) : Out' :=
  let off := off / 8 * 8
  .next (if 16 < vf then s
    else if 0x50000 ≤ off ∧ off < 0x60000 then (if vf = 0 then s.writeMailbox (off - 0x50000) v else s)
    else if s.hidden then s
    else if off < 0x40000 then (if shownTo vf s.dev.vfQueue (off / 64) then s.writeQueueReg vf (off / 64) (off / 8 % 8) v else s)
    else if off < 0x48000 then (if shownTo vf s.dev.vfCtr ((off - 0x40000) / 8) then s.hostCounter (vf == 0) ((off - 0x40000) / 8) v else s)
    else if off < 0x49000 then (if shownTo vf s.dev.vfLink ((off - 0x48000) / 16) then s.writeLinkReg ((off - 0x48000) / 16) (off / 8 % 2) v else s)
    else if off < 0x50000 then (if vf = 0 then s.writeGrantReg (off - 0x49000) v else s)
    else if off < 0x70000 then s.writeCtxReg vf (off - 0x60000) v
    else if off < 0x80000 then (if vf = 0 then s.writeDevReg (off - 0x70000) v else s)
    else s)

/-! ### Reading the registers (R290, R299, R362, R365, R392, R393) -/

/-- The value of a queue's state field (R290). -/
def QState.code : QState → Nat
  | .idle => 0 | .mapped => 1 | .onWait => 2 | .onLtake => 3 | .error => 4 | .disabled => 5

/-- Word `w` of a queue descriptor (R290). -/
def Queue.word (x : Queue) (w : Nat) : Nat :=
  match w with
  | 0 => x.ring.toNat
  | 1 => x.lsize.toNat + x.qprio.toNat * 2 ^ 5 + x.pasid.toNat * 2 ^ 9 + x.en.toNat * 2 ^ 29
  | 2 => x.wi.toNat + x.ri.toNat * 2 ^ 32
  | 3 => x.state.code + x.err.toNat * 2 ^ 8
  | _ => 0

/-- Word `w` of a ring descriptor (R310). -/
def Ring.word (r : Ring) (w : Nat) : Nat :=
  match w with
  | 0 => r.base.toNat
  | 1 => r.size.toNat
  | 2 => r.tail.toNat
  | 3 => r.head.toNat
  | _ => 0

/-- Ring `r` of a context: 0 fault, 1 service, 2 requests, 3 replies. -/
def Ctx.ring (c : Ctx) (r : Nat) : Ring := match r with | 0 => c.faultRing | 1 => c.serviceRing | 2 => c.reqRing | _ => c.repRing

/-- The word at an offset of a context's configuration (R392). -/
def Ctx.word (c : Ctx) (off : Nat) : Nat :=
  if 0x40 ≤ off ∧ off < 0x140 then (c.ring (off / 64 - 1)).word (off / 8 % 8)
  else if 0x180 ≤ off ∧ off < 0x200 then
    let w := c.egress.getD ((off - 0x180) / 16) (1, 0)
    (if off % 16 = 0 then w.1 else w.2).toNat
  else match off with
    | 0x140 => c.offcore.toNat
    | 0x148 => c.save.toNat
    | 0x150 => c.fptab.toNat
    | 0x158 => c.preBase.toNat
    | 0x160 => c.preUnits.toNat
    | 0x168 => c.taskBase.toNat
    | 0x170 => c.taskPlaces.toNat
    | 0x178 => c.vectors.toNat
    | 0x200 => c.batch.table.toNat
    | 0x208 => c.batch.count.toNat
    | 0x210 => c.batch.snap.toNat
    | 0x218 => c.batch.templ.toNat
    | 0x220 => c.batch.queue.toNat
    | 0x228 => c.batch.ctr.toNat
    | _ => 0

/-- The word at an offset of the device configuration (R393). -/
def State.devWord (s : State) (off : Nat) : Nat :=
  let g := s.dev.cfg
  if 0x40 ≤ off ∧ off < 0x60 then bits g.peers.toNat (8 * (off - 0x40) + 63) (8 * (off - 0x40))
  else if 0x1000 ≤ off ∧ off < 0x1900 then
    let x := Sparse.get CoreCfg.zero ((off - 0x1000) / 16) g.cores
    if off % 16 = 0 then x.pb.toNat + x.p.toNat * 2 ^ 40 else x.g.toNat
  else if 0x2000 ≤ off ∧ off < 0x2800 then (Sparse.get 0 ((off - 0x2000) / 8) g.routes).toNat
  else match off with
    | 0x00 => g.lock.toNat
    | 0x08 => g.swapN.toNat
    | 0x10 => g.quantum.toNat
    | 0x18 => g.hang.toNat
    | 0x20 => g.saveWd.toNat
    | 0x28 => g.modIdx.toNat
    | 0x80 => g.pressBase.toNat
    | 0x88 => g.pressSize.toNat
    | 0x90 => s.armed.toNat
    | _ => 0

/-- The word at an offset of the mailbox (R365). -/
def Mailbox.word (m : Mailbox) (off : Nat) : Nat :=
  if off = 0 then m.go.toNat + m.busy.toNat * 2 + m.done.toNat * 4 + m.result.toNat * 2 ^ 8 + m.rlen.toNat * 2 ^ 16
  else if 0x100 ≤ off ∧ off < 0x8000 then m.field (off - 0x100) 8
  else if 0x8000 ≤ off then ofBytes ((List.range 8).map (fun i => Sparse.get 0 (off - 0x8000 + i) m.resp))
  else 0

/-- The word at an offset of the grant tables (log 15). -/
def Dev.grantReg (d : Dev) (off : Nat) : Nat :=
  let two := fun (k : Nat) (l : List (Nat × Nat)) => grantWord k l + grantWord (k + 1) l * 2 ^ 32
  if off < 0x4000 then two (off / 4) d.ctrGrant
  else if off < 0x4400 then two ((off - 0x4000) / 4) d.linkGrant
  else if off < 0x4440 then two ((off - 0x4400) / 4) d.graphGrant
  else if 0x4800 ≤ off then ((d.donGrant[(off - 0x4800) / 8]?).map (fun g => g.1 + g.2 * 2 ^ 32 + 2 ^ 63)).getD 0
  else 0

/-- What a 64-bit read at an offset of BAR0 returns, to PF0 (and PF1) or to VF `vf` (R362): reserved offsets, and what is not assigned to a VF, read as zero; in
the safe state, and until the self-test has passed, the mailbox alone shows (R374). -/
def State.readRegister (s : State) (vf off : Nat) : Word64 :=
  let off := off / 8 * 8
  BitVec.ofNat 64 (if 16 < vf then 0
    else if 0x50000 ≤ off ∧ off < 0x60000 then (if vf = 0 then s.dev.mbox.word (off - 0x50000) else 0)
    else if s.hidden then 0
    else if off < 0x40000 then (if shownTo vf s.dev.vfQueue (off / 64) then (s.queue (off / 64)).word (off / 8 % 8) else 0)
    else if off < 0x48000 then (if shownTo vf s.dev.vfCtr ((off - 0x40000) / 8) then (s.counter ((off - 0x40000) / 8)).toNat else 0)
    else if off < 0x49000 then
      (if shownTo vf s.dev.vfLink ((off - 0x48000) / 16) then
        let l := s.link ((off - 0x48000) / 16)
        if off % 16 = 0 then l.giver.toNat + l.taker.toNat * 2 ^ 16 else l.tokens.toNat
      else 0)
    else if off < 0x50000 then (if vf = 0 then s.dev.grantReg (off - 0x49000) else 0)
    else if off < 0x70000 then (match s.shownCtx vf with | none => 0 | some p => if off = 0x60000 then p else (s.ctx p).word (off - 0x60000))
    else if off < 0x80000 then (if vf = 0 then s.devWord (off - 0x70000) else 0)
    else 0)

/-- EGRESS_LOCK (R364). -/
def execEgressLock (s : State) : Out' := .next (s.modCfg (fun c => { c with lock := true }))

/-- FUNCTION_LEVEL_RESET (R364): the windows may be written again. -/
def execFunctionLevelReset (s : State) : Out' := .next (s.modCfg (fun c => { c with lock := false }))

/-! ### Host accesses to device memory (R284, R361) -/

/-- A write of another party than a core reaches the L2 lines of `n` bytes: no core is their last writer (R265). -/
def State.outsideWrote (key n : Nat) (s : State) : State :=
  let lines := if n = 0 then [] else (List.range ((key + n - 1) / 512 - key / 512 + 1)).map (fun i => key / 512 + i)
  lines.foldl (fun (t : State) l =>
    let a := max key (512 * l)
    (t.touchL2 0 true a (min (key + n) (512 * l + 512) - a)).modDev (fun d => { d with lastWriter := Sparse.erase l d.lastWriter })) s

/-- HOST_POSTED_WRITE (R284): performed at its home; one that reaches beyond device memory, that carries more than 512 bytes, or that no function takes in the
safe state is an unsupported request (R361, R374). -/
def execHostPostedWrite (_port a : Nat) (data : List Byte) (s : State) : Out' :=
  .next (if deviceBytes < a + data.length ∨ 512 < data.length ∨ s.hidden then s.emit (.aer 0) else ((s.homeWrite a data).outsideWrote a data.length).wake)

/-- HOST_ATOMIC_OP (R361): another operation, alignment or address, or one in the safe state (R374), is an unsupported request. A bad sector is poisoned, nothing is
written, and the request ends with an error (R274, R275). -/
def execHostAtomicOp (op : Nat) (wide : Bool) (a : Nat) (x y : Word64) (s : State) : Out' :=
  let n := if wide then 8 else 4
  let old := rdNum s.mem a n
  .next (if 2 < op ∨ a % n ≠ 0 ∨ deviceBytes < a + n ∨ s.hidden then s.emit (.aer 0)
    else if s.sectorBad (sectorOf a) then (s.modDev (fun d => { d with poison := Sparse.set false (sectorOf a) true d.poison })).emit (.aer 1)
    else (((s.homeWrite a (toBytes n (outsideNew op n old x y))).outsideWrote a n).emit (.atomicDone (BitVec.ofNat 64 old))).wake)

/-! ### Sensors and the log (R370, R371) -/

/-- Sensors of R370's table: junction temperatures of the compute, hub and base dies, HBM stacks, voltages and currents of the rails, module power. -/
def sensorCount : Nat := 4 * 9 + 4 + 12 + 12 + 18 + 18 + 1

/-- Classes of memories whose errors are counted. -/
def eccClasses : Nat := 11

/-- Sample `i`. -/
def Mgmt.sample (m : Mgmt) (i : Nat) : Nat := m.sensors.getD i 0

/-- SENSOR_SAMPLE (R370): every sensor is sampled, and crossings are logged (R371). -/
def execSensorSample (vals : List Nat) (s : State) : Out' :=
  let old := s.dev.mgmt
  let new := { old with sensors := (List.range sensorCount).map (fun i => vals.getD i 0) }
  let crossed := (List.range sensorCount).filter (fun i => Config.sensorCrossing i (old.sample i) (new.sample i) != 0)
  .next (crossed.foldl (fun t i => t.logEvent .sensor i (new.sample i)) (s.modMgmt (fun _ => new)))

/-- The readings: the samples, then the power counters of each core, then the corrected and the uncorrectable errors of each class. -/
def Mgmt.readings (m : Mgmt) : List Nat :=
  (List.range sensorCount).map m.sample ++ (List.range Config.cores).flatMap (fun c => (List.range 3).map (fun i => (Sparse.get [] c m.power).getD i 0))
    ++ (List.range eccClasses).map (fun i => Sparse.get 0 i m.eccCorrected) ++ (List.range eccClasses).map (fun i => Sparse.get 0 i m.eccUncorrectable)

/-- READ_SENSORS (R365, R370): it also runs in the safe state. -/
def execReadSensors (s : State) : Out' := .next (s.answer 0 (s.dev.mgmt.readings.flatMap (toBytes 4)))

/-- MCTP_SENSOR_READ (R370). -/
def execMctpSensorRead (_smbus : Bool) (s : State) : Out' := .next (s.emit (.sensors s.dev.mgmt.readings))

/-- A log entry from its bits. -/
def LogEntry.ofBits (n : Nat) : LogEntry := ⟨bits n 15 0, bits n 19 16, bits n 31 20, BitVec.ofNat 64 (bits n 95 32), bits n 511 96⟩

/-- The buffer that the request in the mailbox names for the mirror of the log: a request of code 8 with bit 1 of its flags (log 15). -/
def Mailbox.mirror (m : Mailbox) : Option Nat := if m.field 0 4 = 8 ∧ (m.field 12 4).testBit 1 then some (m.field 16 8) else none

/-- READ_EVENT_LOG (R365, R371): entries from an index on, as many as the response holds; with the restore flag the entries in the request buffer are
put back in front of the log. The request may name the host buffer that mirrors the log. -/
def execReadEventLog (idx : Nat) (restore : Bool) (s : State) : Out' :=
  let m := s.dev.mbox
  .next (if restore then
      let k := (m.field 4 4 - 8) / 64
      let old := (List.range k).map (fun i => LogEntry.ofBits (m.field (16 + 64 * i) 64))
      (s.modMgmt (fun y => { y with log := (old ++ y.log).drop ((old ++ y.log).length - 16384) })).answer 0 []
    else match m.mirror with
      | some a => (s.modMgmt (fun y => { y with logBuf := a, mirrored := y.logCount })).answer 0 []
      | none => s.answer 0 (((s.dev.mgmt.log.drop idx).take 512).flatMap LogEntry.bytes))

/-! ### Identity and update (R372) -/

/-- Replace the image of a kind in a list. -/
def putImage (i : Image) (l : List Image) : List Image := i :: l.filter (fun x => x.kind != i.kind)

/-- STAGE_IMAGE (R372): into the inactive bank. -/
def execStageImage (kind version rollback sig : Nat) (s : State) : Out' :=
  .next (if 2 < kind then s.answer 2 []
    else (s.modMgmt (fun m => { m with staged := putImage ⟨kind, version, rollback, sig⟩ m.staged })).answer 0 [])

/-- What an image's signature covers, as one number. -/
def Image.signed (i : Image) : Nat := i.kind + 4 * (i.version + 2 ^ 32 * (i.rollback + 2 ^ 32 * i.sig))

/-- ACTIVATE_IMAGE (R372, R289): the signature and the anti-rollback number are checked; a command-processor image begins a live update. -/
def execActivateImage (kind : Nat) (s : State) : Out' :=
  .next (match s.dev.mgmt.staged.find? (fun i => i.kind == kind) with
    | none => s.answer 2 []
    | some i =>
      if !Config.imageOk i.signed then s.answer 4 []
      else if i.rollback < s.dev.mgmt.fusedMin then s.answer 3 []
      else
        let t := s.modMgmt (fun m =>
          { m with staged := m.staged.filter (fun x => x.kind != kind), activated := putImage i m.activated, takeover := m.takeover || kind == 0 })
        (t.logEvent .activation kind i.version).answer 0 [])

/-- Activated images of a kind take effect, and repair a firmware fault (R374). -/
def Mgmt.takeImage (kind : Nat) (m : Mgmt) : Mgmt :=
  match m.activated.find? (fun i => i.kind == kind) with
  | none => m
  | some i => { m with images := putImage i m.images, activated := m.activated.filter (fun x => x.kind != kind),
                       failedUnit := if m.failedUnit = 1 then 0 else m.failedUnit }

/-- An SPDM answer: the response to request number `code`. -/
def State.spdm (code arg : Nat) (s : State) : State := s.emit (.spdm code (Config.spdmData code arg))

/-- GET_VERSION (R372): SPDM 1.2. -/
def execGetVersion (s : State) : Out' := .next (s.emit (.spdm 1 0x12))

/-- GET_CAPABILITIES (R372). -/
def execGetCapabilities (s : State) : Out' := .next (s.spdm 2 0)

/-- NEGOTIATE_ALGORITHMS (R372): the one set offered, ECDSA over P-521 with SHA-512, is bit 0 of the offer; without it the answer is 0. -/
def execNegotiateAlgorithms (offer : Nat) (s : State) : Out' := .next (s.emit (.spdm 3 (offer % 2)))

/-- GET_DIGESTS (R372). -/
def execGetDigests (s : State) : Out' := .next (s.spdm 4 0)

/-- GET_CERTIFICATE (R372). -/
def execGetCertificate (off len : Nat) (s : State) : Out' := .next (s.spdm 5 (off + 2 ^ 16 * len))

/-- CHALLENGE (R372). -/
def execChallenge (nonce : Nat) (s : State) : Out' := .next (s.spdm 6 nonce)

/-- What a measurement block measures: the management, command-processor and base-die images, the fused configuration, the lock state (R372). -/
def State.measured (s : State) (idx : Nat) : Nat :=
  let im := fun (k : Nat) => ((s.dev.mgmt.images.find? (fun i => i.kind == k)).map Image.signed).getD 0
  match idx with
  | 1 => im 2
  | 2 => im 0
  | 3 => im 1
  | 4 => s.dev.mgmt.fusedMin
  | _ => s.dev.cfg.lock.toNat

/-- GET_MEASUREMENTS (R372): block 1 to 5; another index has no block and the answer is an error, code 0x7F. -/
def execGetMeasurements (idx : Nat) (s : State) : Out' :=
  .next (if 1 ≤ idx ∧ idx ≤ 5 then s.spdm 7 (idx + 8 * s.measured idx) else s.emit (.spdm 0x7F idx))

/-! ### The command processors (R288, R289) -/

/-- CP_HEARTBEAT_TIMEOUT (R289): the active complex has failed; a takeover begins. -/
def execCpHeartbeatTimeout (s : State) : Out' :=
  .next ((s.modMgmt (fun m => { m with takeover := true })).logEvent .firmware s.dev.mgmt.complex.toNat 0)

/-- CP_TAKEOVER (R289): at a quiescent packet boundary the standby complex becomes active, unless its new image does not know the state table; doorbells
latched since are read. -/
def execCpTakeover (s : State) : Out' :=
  .next (if !s.dev.mgmt.takeover || s.ctxs.any (fun e => e.2.batch.launch.isSome) then s
    else
      let bells := s.dev.mgmt.latched
      let s := match s.dev.mgmt.activated.find? (fun i => i.kind == 0) with
        | none => s.modMgmt (fun m => { m with complex := !m.complex })
        | some i =>
          if Config.knowsTable i.version then s.modMgmt (fun m => { m.takeImage 0 with complex := !m.complex, tableVersion := m.tableVersion + 1 })
          else (s.modMgmt (fun m => { m with activated := m.activated.filter (fun x => x.kind != 0) })).logEvent .firmware 2 i.version
      (bells.foldl (fun t b => t.doorbell b.1 b.2) (s.modMgmt (fun m => { m with takeover := false, latched := [] }))).wake)

/-! ### Limits (R373) -/

/-- POWER_LIMIT_EXCESS (R373): the arithmetic clock falls by one step of 25 MHz; only timing changes. -/
def execPowerLimitExcess (s : State) : Out' :=
  .next ((s.modMgmt (fun m => { m with clockStep := m.clockStep + 1 })).logEvent .limiter 0 (s.dev.mgmt.clockStep + 1))

/-- THERMAL_TRIP (R373): core power is removed; the management core logs it. -/
def execThermalTrip (s : State) : Out' :=
  let s := (List.range Config.cores).foldl (fun t c => (t.resetCore c).modCore c (fun x => { x with poweredOff := true })) s
  .next ((s.modMgmt (fun m => { m with tripped := true })).logEvent .trip 0 110)

/-! ### Errors of memories (R271, R276) -/

/-- Count an error of a class. -/
def State.countEcc (k : Nat) (corrected : Bool) (s : State) : State :=
  s.modMgmt (fun m => if corrected then { m with eccCorrected := Sparse.modify 0 k (· + 1) m.eccCorrected }
    else { m with eccUncorrectable := Sparse.modify 0 k (· + 1) m.eccUncorrectable })

/-- Poison a sector. -/
def State.poisonSector (k : Nat) (s : State) : State := s.modDev (fun d => { d with poison := Sparse.set false k true d.poison })

/-- SCRUB (R271): what the base die finds at a sector: 0 no error, 1 a correctable one, 2 an uncorrectable one. -/
def execScrub (sector ecc : Nat) (s : State) : Out' :=
  .next (match ecc with
    | 0 => s
    | 1 => s.countEcc 10 true
    | _ => (s.countEcc 10 false).poisonSector sector)

/-- The L2 holds sector `k` dirty (R265). -/
def Dev.dirtyL2 (d : Dev) (k : Nat) : Bool := (Sparse.get 0 (k / 8) d.l2).getLsbD (8 + k % 8)

/-- The L2 drops a sector. -/
def State.dropL2 (k : Nat) (s : State) : State :=
  s.modDev (fun d => { d with l2 := Sparse.modify 0 (k / 8) (fun b => b &&& ~~~(BitVec.ofNat 16 (257 <<< (k % 8)))) d.l2 })

/-- The packet of write or reduction `i` of core `c` is spoilt in transit for good: its home will refuse it (R274). -/
def State.spoilPacket (c i : Nat) (s : State) : State :=
  s.modCore c (fun x => { x with wbuf := x.wbuf.map (fun b => if b.id = i then { b with check := ~~~b.check } else b),
                                 reds := x.reds.map (fun r => if r.id = i then { r with check := ~~~r.check } else r) })

/-- The next sector of copy `i` of core `c` fails in transit after its last resend (R274). -/
def State.loseSector (c i : Nat) (s : State) : State :=
  match (s.core c).copies.find? (fun o => o.id == i) with
  | none => s
  | some o => match o.due.head? with
    | none => s
    | some n => s.copyBad c o n [(0, FKind.dataCheck, 0, ((o.chunks n).headD (0, 0)).1)]

/-- An error in line `k` of core `c`'s scratchpad: a line of the pinned reserve is reached as device memory, whose two sectors become poisoned (R256, R275). -/
def State.lineError (c k : Nat) (mark : State → State) (s : State) : State :=
  let r := s.dev.cfg.reserve c
  let a := spadKey c (128 * k)
  if r.1 ≤ a ∧ a < r.1 + r.2 then (s.poisonSector (a / 64)).poisonSector (a / 64 + 1) else mark s

/-- An uncorrectable error of core `c` or of the L2 (R276): units 0 to 6 are marked until they are read or rewritten, 7 and 8 are caches whose entry becomes
invalid, 9 is a sector of the L2, dropped if clean and poisoned if dirty, and 10 one that the L2 holds dirty. Units 11 to 13 are packets of core `c` that fail in
transit for good: a write or a reduction of the buffer, a copy's next sector, and the next packet that an engine, a spill or a drain sends (R274). -/
def State.sramError (unit c k : Nat) (s : State) : State :=
  let mark := fun (e : Ecc) => s.modCore c (fun x => { x with ecc := if x.ecc.contains e then x.ecc else x.ecc ++ [e] })
  match unit with
  | 0 => mark (.vec (k / 16384) (k / 32 % 512) (k % 32))
  | 1 => mark (.uni (k / 64) (k % 64))
  | 2 => mark (.prd (k / 16) (k % 16))
  | 3 => s.lineError c k (fun _ => mark (.line k))
  | 4 => mark (.tile k)
  | 5 => mark (.acc k)
  | 6 => mark (.ss k)
  | 7 => s.modCore c (fun x => { x with l1 := Sparse.erase k x.l1 })
  | 8 => s.modCore c (fun x => { x with icache := Sparse.erase k x.icache })
  | 9 => if s.dev.dirtyL2 k then s.poisonSector k else s.dropL2 k
  | 10 => s.poisonSector k
  | 11 => s.spoilPacket c k
  | 12 => s.loseSector c k
  | 13 => s.modCore c (fun x => { x with lost := true })
  | _ => s

/-- The class in which an error of a unit is counted; packets are no memory. -/
def eccClass (unit : Nat) : Option Nat := if unit < 10 then some unit else if unit = 10 then some 9 else none

/-- ECC_ERROR (R276, R274): a corrected error is counted and changes nothing else. -/
def execEccError (unit c k : Nat) (correctable : Bool) (s : State) : Out' :=
  let s := match eccClass unit with | none => s | some n => s.countEcc n correctable
  .next (if correctable then s else (s.sramError unit c k).wake)

/-! ### Bring-up (R271, R372, R374) -/

/-- Bytes outside the device: host and peer memory. -/
def outsideMem (m : List Host.Cell) : List Host.Cell := m.filter (fun e => isHost e.1 || isPeer e.1)

/-- The device at its reset values, with a management state; memory outside it, and what the model counts and has still to do, stay. -/
def State.freshDevice (m : Mgmt) (s : State) : State :=
  { State.reset with mem := outsideMem s.mem, agenda := s.agenda, tick := s.tick, clock := s.clock,
                     dev := { Dev.zero with mgmt := m, out := s.dev.out } }

/-- What the management core keeps in flash and fuses through a loss of power. -/
def Mgmt.flash (m : Mgmt) : Mgmt := { Mgmt.zero with nonce := m.nonce, images := m.images, staged := m.staged, activated := m.activated, fusedMin := m.fusedMin, failedUnit := m.failedUnit }

/-- The test that finds the failure of a unit, of the four that run in turn: 1 of the management core and its flash signatures (units 1 and 2), 2 of the memories of
cores, L2 and hub die (3 to 148), 3 of the PHYs (149 to 166), 4 of HBM (the units are the model's, log 15). -/
def selfTestOf (unit : Nat) : Nat := if unit = 0 then 0 else if unit ≤ 2 then 1 else if unit ≤ 148 then 2 else if unit ≤ 166 then 3 else 4

/-- The self-test has ended, and the log names the unit that failed, 0 for none, and the test (R371, R374). In the safe state the fabric links stay down. -/
def State.selfTested (failed : Nat) (s : State) : State :=
  let s := s.modMgmt (fun m => { m with tested := failed == 0, safe := failed != 0, failedUnit := failed })
  let s := if failed = 0 then s else (List.range linkCount).foldl (fun t l => t.modFlink l (fun x => { x with down := true })) s
  s.logEvent .selfTest failed (selfTestOf failed)

/-- A hardware fault keeps the safe state through every reset; a firmware fault is gone once an update has been activated (R374). -/
def Mgmt.lasting (m : Mgmt) : Nat := if 2 ≤ m.failedUnit then m.failedUnit else if m.failedUnit = 1 ∧ m.activated.isEmpty then 1 else 0

/-- POWER_ON (R374): self-test, scrub, and the normal or the safe state. -/
def execPowerOn (failed : Nat) (s : State) : Out' :=
  let m := s.dev.mgmt
  let f := if m.lasting = 0 then failed else m.lasting
  .next ((s.freshDevice ((m.flash.takeImage 1).takeImage 2 |>.takeImage 0)).selfTested f)

/-- DEVICE_RESET (R271, R372): counters and sideband are cleared and memory is scrubbed; a base-die image takes effect. -/
def execDeviceReset (s : State) : Out' :=
  let m := s.dev.mgmt
  .next ((s.freshDevice (m.flash.takeImage 1)).selfTested m.lasting)

/-- MANAGEMENT_CORE_RESET (R372): a management image takes effect, and contexts run on. A firmware fault that it repairs is gone at the next test (R374). -/
def execManagementCoreReset (s : State) : Out' :=
  .next (s.modDev (fun d => { d with mgmt := d.mgmt.takeImage 2, mbox := Mailbox.zero }))

/-- POWER_LOSS (R372): everything volatile is gone; both flash banks keep what was written to them whole, and the active one stays in use. -/
def execPowerLoss (s : State) : Out' := .next (s.freshDevice { s.dev.mgmt.flash with tested := false })

end Machine

end Sys2Proof
end

