-- ==== Sys2Proof/Machine/Fetch.lean ====
section
/-! DEFINITION. From a slot to a latched instruction: the choice of a slot, a fibre and an entry, the fetch of words, the faults of fetch and decode; and
the events that the device may perform next (R15 to R19, R44, R49, R68, R99, R263, R315, R316). -/

namespace Sys2Proof

namespace Machine

/-! ### Who may issue (R15, R19, R315, R316) -/

/-- The entry that issues: highest prio, then lower pc; a replay goes before a run entry at its address (R19, R340). -/
def Fibre.issueEntry (x : Fibre) : Option Entry :=
  let l := x.frontier.filter (fun e => e.kind == .run)
  bestEntry Entry.before (l.filter (·.replay) ++ l.filter (fun e => !e.replay))

/-- A fibre that could issue as far as its place goes: on the core, with a run entry, and its workgroup and context running. -/
def State.placed (s : State) (f : Nat) : Bool :=
  let x := s.fibre f
  let w := s.wg x.wg
  x.resident && !x.extracted && x.issueEntry.isSome && w.state == .running && decide (w.core = x.core) && (s.ctx w.pasid).state == .active

/-- A fibre that may issue: ready (R15). -/
def State.tryable (s : State) (f : Nat) : Bool := (s.fibre f).status == .ready && s.placed f

/-- A fibre whose next instruction is looked at: it is blocked and something has changed since it stalled, or it is ready and holds its slot's issue (R15,
R315). -/
def State.looksAt (s : State) (f : Nat) : Bool :=
  !s.stalled.contains f && s.placed f && (match (s.fibre f).status with
    | .blocked _ => true
    | .ready => (s.slot (s.slotOf f)).issuing == some f
    | _ => false)

/-- The first tryable fibre of a list of positions. -/
def firstAt (s : State) (fs : List Nat) (ps : List Nat) : Option Nat :=
  ps.findSome? (fun p => fs.find? (fun f => (s.fibre f).pos == p && s.tryable f))

/-- The fibre that holds the issue of slot `k`, or the next ready one after the last (R316). -/
def State.slotIssuer (s : State) (k : Nat) : Option Nat :=
  let x := s.slot k
  let fs := s.slotFibres k
  match x.issuing with
  | some f => if fs.contains f ∧ (s.fibre f).status ≠ .exited then (if s.tryable f then some f else none)
      else firstAt s fs ((List.range 4).map (fun i => (x.last + 1 + i) % 4))
  | none => firstAt s fs ((List.range 4).map (fun i => (x.last + 1 + i) % 4))

/-- Slots that may issue now, with the fibre that would: in a gap none may (R49, R315). -/
def State.eligible (s : State) : List (Nat × Nat) :=
  s.slots.filterMap (fun e =>
    if decide (Config.cores * 16 ≤ e.1) || (s.core (e.1 / 16)).poweredOff || decide (s.clock < e.2.gapUntil) then none
    else (s.slotIssuer e.1).map (fun f => (e.1, f)))

/-- Slot `a` goes before slot `b` of its quarter: no pending yield first, then the least recently issued, then the lower number (R315). -/
def State.slotBefore (s : State) (a b : Nat × Nat) : Bool :=
  let x := s.slot a.1
  let y := s.slot b.1
  (!x.yield && y.yield) || (x.yield == y.yield && (decide (x.lastIssue < y.lastIssue) || (decide (x.lastIssue = y.lastIssue) && decide (a.1 < b.1))))

/-- The best of a list of slots. -/
def State.bestSlot (s : State) : List (Nat × Nat) → Option (Nat × Nat)
  | [] => none
  | a :: l => match State.bestSlot s l with
    | none => some a
    | some b => if s.slotBefore a b then some a else some b

/-- The slot and the fibre that issue next: the quarters take turns, and each chooses among its four slots. -/
def State.pick (s : State) : Option (Nat × Nat) :=
  let el := s.eligible
  let quarter := match el.find? (fun e => s.turn ≤ e.1 / 4) with | some e => some (e.1 / 4) | none => el.head?.map (fun e => e.1 / 4)
  match quarter with
  | none => none
  | some q => s.bestSlot (el.filter (fun e => e.1 / 4 == q))

/-! ### Fetch (R44, R99, R263) -/

/-- How the fetch of one word ends. -/
inductive FetchRes where
  | ok (w key : Nat)
  | miss (vpn : Nat)
  | bad (kind : FKind) (sub : Nat)
deriving DecidableEq, Repr

/-- The word at `pc` for core `c` of a context: through the instruction cache, else from the home. -/
def State.fetchWord (s : State) (c p : Nat) (pc : Nat) : FetchRes :=
  if 2 ^ 57 ≤ pc then .bad .instructionFetch 0
  else match (s.core c).tlbGet p (pc / 4096) with
    | none => .miss (pc / 4096)
    | some t =>
      match t.st with
      | .absent => .bad .translation 2
      | .ok =>
        if !(t.leaf.getLsbD 3) then .bad .instructionFetch 0
        else
          let k := s.dev.pageKey t.leaf t.frame + pc % 4096
          if s.peerGone t.leaf then .bad .instructionFetch 0 else
          match Sparse.get 0 (k / 4) (s.core c).icache with
          | 0 => if s.sectorBad (sectorOf k) then .bad .dataCheck 0 else .ok (rdNum s.mem k 4) k
          | n + 1 => .ok n k
      | _ => .bad .instructionFetch 0

/-- A word is a prefix (R44). -/
def isPrefix (w : Nat) : Bool := 0x3E ≤ bits w 31 26

/-- The words of the instruction at `pc`, up to its base word or its third word, with their keys; and why the fetch stopped short. Of a bad sequence of
prefixes the words are fetched first, so that a fetch fault among them is taken before the illegal-instruction fault (DESIGN CHOICE, log 49: R68 and R99
give no order). -/
def State.fetchWords (s : State) (c p : Nat) : Nat → Nat → List (Nat × Nat) × Option (FetchRes × Nat)
  | 0, _ => ([], none)
  | n + 1, pc => match s.fetchWord c p pc with
    | .ok w k =>
      if isPrefix w then
        let r := State.fetchWords s c p n (pc + 4)
        ((w, k) :: r.1, r.2)
      else ([(w, k)], none)
    | e => ([], some (e, pc))

/-- Fetched words are in the instruction cache; the lowest word goes while all 16,384 places are taken (R251; DESIGN CHOICE, log 50). -/
def Core.cacheWords (x : Core) (l : List (Nat × Nat)) : Core :=
  { x with icache := l.foldl (fun m e =>
      Sparse.set 0 (e.2 / 4) (e.1 + 1) (if m.length < 16384 ∨ Sparse.get 0 (e.2 / 4) m ≠ 0 then m else m.drop 1)) x.icache }

/-- What a fetch leaves: the slices note the words that the instruction cache of core `c` does not hold (R265, R267), and then it holds them. -/
def State.keepWords (c p pc : Nat) (l : List (Nat × Nat)) (s : State) : State :=
  let touch := fun (t : State) (e : (Nat × Nat) × Nat) =>
    let v := (pc + 4 * e.2) / 4096
    match (s.core c).tlbGet p v with
    | none => t
    | some x => if Sparse.get 0 (e.1.2 / 4) (s.core c).icache = 0 then (t.touchPage (pageNo p v) (c + 1) x.leaf false e.1.2 4).reqPeer 9 e.1.2 else t
  (l.zipIdx.foldl touch s).modCore c (fun x => x.cacheWords l)

/-! ### The latch -/

/-- What the issue of a fibre runs: an instruction over the state that holds it latched; or the try ends with a stall, a park or nothing. -/
inductive Latched where
  | run (i : Instr) (s : State)
  | ended (s : State)

/-- The latch of fibre `f` for its entry, before the words are known: every lane counts as active. -/
def Entry.cur (e : Entry) (f : Nat) : Cur := ⟨f, e.age, e.pc, e.pc, e.mask, e.mask, e.prio, Attr.none, false⟩

/-- Lanes whose guard is true (R14, R49). -/
def State.guardMask (s : State) (f : Nat) (a : Attr) (m : Mask) : Mask :=
  if !a.ge then m
  else
    let g := State.predMask (s.fibre f) a.gp.toNat
    m &&& (if a.gn then ~~~g else g)

/-- Latch a decoded instruction of an entry: its addresses, and its active lanes once its guard is readable; a guard with an error that its code cannot
correct is a fault of the instruction (R276). -/
def State.latch (f : Nat) (e : Entry) (d : Decoded) (s : State) : Latched :=
  let npc := if e.replay ∧ e.resume ≠ e.pc then e.resume else e.pc + BitVec.ofNat 64 (4 * d.words)
  let s : State := { s with cur := { e.cur f with npc := npc, attr := d.attr } }
  if d.attr.ge then
    let u := Uses.rdP d.attr.gp.toNat
    match s.hazard u with
    | some true => .ended s.faultStop
    | some false => .ended (s.stall .scoreboard)
    | none =>
      if s.eccLanes u ≠ 0 then .run d.instr { s with cur := { s.cur with gbad := true } }
      else .run d.instr { s with cur := { s.cur with active := s.guardMask f d.attr e.mask } }
  else .run d.instr s

/-- Fetch and latch the instruction of fibre `f` at its entry (R44, R68, R99). -/
def State.fetch (f : Nat) (e : Entry) (s : State) : Latched :=
  let x := s.fibre f
  let p := (s.wg x.wg).pasid
  let s : State := { s with cur := e.cur f }
  let r := s.fetchWords x.core p 3 e.pc.toNat
  match r.2 with
  | some (.miss v, _) => .ended ((s.modCore x.core (fun c => c.askWalk p v false)).stall .translation)
  | some _ => .run .instructionFetchFault s
  | none =>
    let s := s.keepWords x.core p e.pc.toNat r.1
    match decodeWords (r.1.map (·.1)) with
    | .error _ => .run .illegalInstruction s
    | .ok d => s.latch f e d

/-- The slot issues for a fibre: the fibre holds its slot's issue, the decision clears the quarter's yields, and the next quarter has its turn. -/
def State.grant (k f : Nat) (s : State) : State :=
  let s : State := { s with slots := s.slots.map (fun (e : Nat × Slot) => if e.1 / 4 = k / 4 then (e.1, { e.2 with yield := false }) else e), turn := k / 4 + 1 }
  s.modSlot k (fun x => { x with issuing := some f })

/-- What issues next, if anything can. -/
def State.issueNext (s : State) : Option Latched :=
  match s.pick with
  | none => none
  | some (k, f) =>
    match (s.fibre f).issueEntry with
    | none => none
    | some e => some ((s.grant k f).fetch f e)

/-! ### Faults of fetch and decode (R68, R69, R99) -/

/-- ILLEGAL_INSTRUCTION (R68): precise for the whole fibre, whatever the guard. -/
def execIllegalInstruction (s : State) : Out' := .next (s.precise .illegalInstruction 0)

/-- The fault of the latched fetch: kind, sub code and address. -/
def State.fetchCause (s : State) : FKind × Nat × Nat :=
  match (s.fetchWords s.me.core s.myPasid 3 s.cur.pc.toNat).2 with
  | some (.bad k sub, pc) => (k, sub, pc)
  | _ => (.instructionFetch, 0, s.cur.pc.toNat)

/-- INSTRUCTION_FETCH_FAULT (R99, R338): every lane of the entry becomes fault-parked with both addresses at the target; an absent host page is asked for and
gives the translation fault (R349). -/
def execInstructionFetchFault (s : State) : Out' :=
  let c := s.fetchCause
  let p := s.myPasid
  .next (match (if c.1 = .translation ∧ c.2.1 = 2 then s.ensurePrg p (c.2.2 / 4096) false else some s) with
    | none => s.stall .requestPlace
    | some t =>
      let t := t.modCore t.me.core (fun x => x.dropNeg [c.2.2 / 4096])
      let idx := if c.1 = .translation then (((t.ctx p).prgOf (c.2.2 / 4096)).map (·.idx)).getD 0 else 0
      match t.parkLanes ((lanesOf t.cur.mask).map (fun l => ⟨l, c.1, c.2.1, accFetch, c.2.2, idx⟩)) t.cur.pc t.cur.pc 0 with
      | none => t.noPark
      | some u => ((u.settleFrontier u.cur.fib).rest u.cur.fib).wake)

/-! ### What the device may do next -/

/-- Events of a fibre. -/
def fibreEvents (f : Nat) (x : Fibre) : List Instr :=
  (if x.status = .sleeping then [.sleepExpire f] else [])
  ++ (x.pend.filter (fun p => (!p.arrived || p.bad) && p.fut.isNone && p.eng.isNone)).map (fun p => .loadDataArrival f p.id)
  ++ (if !x.resident then [.offcoreReturn f] else if x.frontier.any (fun e => e.svc) then [.offcoreMove f] else [])

/-- Events of a core, or of a place that keeps a workgroup aside, whose copies and engine operations stand still (R219). -/
def coreEvents (c : Nat) (x : Core) : List Instr :=
  x.wbuf.map (fun b => .writeAcknowledge c b.id) ++ x.reds.map (fun r => .redPerformed c r.id)
  ++ (x.walks.zipIdx.filter (fun w => w.1.stage == 0)).map (fun w => .translationWalkDone c w.2)
  ++ (if c < Config.cores then x.copies.flatMap (fun o => o.due.map (fun n => .copySectorArrival c o.id n)) ++ x.eng.map (fun o => .engineOpComplete c o.id)
      else []) ++ x.evals.map (fun b => .barrierByteEvaluation c b)

/-- Events of a workgroup. -/
def State.wgEvents (s : State) (w : Nat) (x : Workgroup) : List Instr :=
  if x.state = .swapped then ((List.range Config.cores).filter (fun c => (s.placeBack x c).isSome)).map (fun c => .swapReadmit w c)
  else if x.isTask then [.taskCommit w, .taskTimeExpiry w, .taskUnpick w]
  else [.workgroupEnd w]

/-- The event of the packet at the head of a queue. -/
def packetEvent (q n : Nat) : Instr :=
  let o := bits n 67 64
  match bits n 7 0 with
  | 2 => if o = 1 then .graphRun q else if o = 2 then .graphUnload q else .graphLoad q
  | 3 => .tasks q
  | 4 => .wait q
  | 5 => if bits n 77 76 = 1 then .signalWrite q else .signalAdd q
  | 6 => .lgive q
  | 7 => .ltake q
  | 8 => if o = 1 then .footprintVoid q else if o = 2 then .footprintDonate q else if o = 3 then .footprintResetAll q else .footprintQuery q
  | 9 => .copy q
  | 10 => .marker q
  | _ => .launch q

/-- Events of a queue. -/
def State.queueEvents (s : State) (q : Nat) (x : Queue) : List Instr :=
  if x.runnable then [.queueMap q]
  else if x.mapped ∧ x.pending then
    (match s.hubNum x.pasid.toNat x.packetAddr 64 with | some n => [packetEvent q n] | none => [.launch q])
  else []

/-- Events of a launch. -/
def State.launchEvents (s : State) (l : Nat) (x : Launch) : List Instr :=
  if !x.started then [.launchAdmission l]
  else if x.begun < x.total then ((List.range Config.cores).filter (fun c => (s.groupCores x c).length == x.cg + 1 && (s.placeLaunch x c).isSome)).map (fun c => .workgroupDispatch l c)
  else [.launchConfirm l, .darningStart l]

/-- The event of the entry at the head of a context's service ring. -/
def serviceEvent (p n : Nat) : Instr :=
  match bits n 71 64 with
  | 2 => .serviceSkip p
  | 3 => .serviceEndLanes p
  | 4 => .serviceExtract p
  | 5 => .serviceRestore p
  | 6 => .serviceReplaySectors p
  | 7 => .serviceEndWorkgroup p
  | 8 => .serviceRespawn p
  | 9 => .serviceDiscard p
  | 10 => .serviceEndContext p
  | _ => .serviceReplay p

/-- Events of a context. -/
def State.ctxEvents (s : State) (p : Nat) (c : Ctx) : List Instr :=
  let has := fun (r : Ring) => !(r.head == r.tail || r.size == 0)
  (if has c.serviceRing then [(match s.hubNum p (c.serviceRing.place c.serviceRing.head.toNat) 64 with | some n => serviceEvent p n | none => .serviceReplay p)] else [])
  ++ (if has c.repRing then [.svcReply p] else [])
  ++ (if c.batch.count = 0 then [] else if c.batch.launch.isSome then [.batchCommit p] else [.batchIteration p])
  ++ (if c.pool.isEmpty then [] else (List.range Config.cores).map (fun k => .taskDispatch p k))

/-- Every event whose moment is the device's own choice; what cannot happen now leaves the machine as it is. -/
def State.events (s : State) : List Instr :=
  s.fibres.flatMap (fun e => fibreEvents e.1 e.2) ++ s.cores.flatMap (fun e => coreEvents e.1 e.2)
  ++ s.wgs.flatMap (fun e => s.wgEvents e.1 e.2) ++ s.dev.queues.flatMap (fun e => s.queueEvents e.1 e.2)
  ++ s.dev.invals.map (fun x => if x.1 then .atsInvalidation x.2.1 x.2.2.1 x.2.2.2 else .translationInvalidate x.2.1 x.2.2.1 x.2.2.2)
  ++ s.dev.copies.map (fun o => .copy o.queue) ++ s.dev.tasks.map (fun o => .tasks o.queue)
  ++ s.launches.flatMap (fun e => s.launchEvents e.1 e.2) ++ s.ctxs.flatMap (fun e => s.ctxEvents e.1 e.2)
  ++ (s.dev.graphs.filter (fun e => e.2.running.isSome)).map (fun e => .graphNode e.1)
  ++ (s.slots.filter (fun e => (s.monitorOf e.1).isSome)).map (fun e => .roleMonitorWindow (e.1 / 16) (e.1 % 16))
  ++ ((s.cores.filter (fun e => e.1 < Config.cores && !e.2.poweredOff)).map (fun e => .forwardProgressSwap e.1))

/-- The events, beginning with another one each time, so that none is put off for ever. -/
def State.candidates (s : State) : List Instr :=
  let l := s.events
  let k := if l.length = 0 then 0 else s.clock / 2 % l.length
  l.drop k ++ l.take k

/-! ### The clock -/

/-- Saves and presses that wait for the commits of tasks go on (R237, R353, R359). -/
def State.housekeep (s : State) : State :=
  let s := (s.ctxs.filter (fun e => e.2.state == .saving)).foldl (fun t e => t.finishSave e.1) s
  s.pressGo

/-- A clock passes. -/
def State.advance (s : State) : State :=
  let t := s.housekeep.sampleAll
  ({ t with clock := t.clock + 1 } : State).monitorsEnd

/-- What an instruction does, as a parameter of the look at a fibre's next instruction. -/
abbrev Run := Instr → State → Host.Outcome State Fault Refusal

/-- A fibre has taken the grow-deadlock fault as it tried its GROW again (R319). -/
def State.tookDeadlock (s t : State) (f : Nat) (l : Latched) : Bool :=
  (match l with | .run (.grow _) _ => true | _ => false) && (match (s.fibre f).status with | .blocked (.grow _) => true | _ => false)
    && (t.fibre f).status == .faultStopped

/-- Look at the next instruction of fibre `f`: it stalls, with what it asks for on its way, or the fibre is ready for it (R15, R315). A deadlock of GROWs that an
event has brought about is met here, in whichever fibre of the slot comes first (R319). -/
def State.look (run : Run) (s : State) (f : Nat) : State :=
  match (s.fibre f).issueEntry with
  | none => s
  | some e =>
    let l := s.fetch f e
    let r := match l with
      | .ended t => t
      | .run i t => match run i t with
        | .next u => u
        | _ => t
    if r.stalled.contains f ∨ s.tookDeadlock r f l then { r with cur := s.cur } else s.setStatus f .ready

/-- A slot without an issuing fibre gives issue to its next ready one, in ascending position after the last (R316). -/
def State.handOver (s : State) (k : Nat) : State :=
  match (s.slot k).issuing, s.slotIssuer k with
  | none, some f => s.modSlot k (fun x => { x with issuing := some f })
  | _, _ => s

/-- A clock passes; the fibres that something has changed for are looked at, issue passes on (R15, R315, R316), and new log entries are mirrored (R371). -/
def State.pulse (run : Run) (s : State) : State :=
  let t := s.advance
  let t := ((t.fibres.map (·.1)).filter (fun f => t.looksAt f)).foldl (State.look run) t
  ((t.slots.map (·.1)).foldl State.handOver t).mirrorLog

/-! ### A program placed from outside -/

/-- Page 0 of a context, at device frame 0, for every access. -/
def loadedPage : Tlb := ⟨1, 0, .ok, BitVec.ofNat 64 0xF, 0⟩

/-- A workgroup of one fibre on core 0, with all of the core's memories. -/
def loadedWg : Workgroup :=
  { Workgroup.zero with
    id := 1, pasid := 1, core := 0, state := .running, nslots := 1, nfib := 1, kps := 1, nlane := 32, ssize := 0x1F8000, ntile := 32, nacc := 24,
    nbar := 128, cg := 1, cgSize := 1 }

/-- Its fibre at address 0, with a window of 128 registers. -/
def loadedFibre : Fibre :=
  { Fibre.zero with
    wg := 1, resident := true, status := .ready, frontier := [⟨.run, 0, 0, 0, allLanes, 0, false, 0, 0, false, 0⟩], nextAge := 1, size := 16,
    granted := granules 0 16, present := allLanes }

/-- Place an instruction of `nbits` bits where the next step fetches it: device address 0, with a fibre on core 0 that stands there. -/
def State.place (s : State) (nbits w : Nat) : State :=
  let s : State := { s with
    mem := wrBytes s.mem 0 (toBytes 12 (w % 2 ^ nbits)), agenda := [], stalled := [], turn := 0, clock := s.clock + s.clock % 2,
    fibres := s.fibres.filter (fun e => e.2.core != 0 || e.2.slot != 0) }
  let s := (s.setWg 1 loadedWg).setFibre 32 loadedFibre
  let s := s.setSlot 0 { Slot.zero with wg := some 1 }
  let s := s.modCore 0 (fun c => { c with tlb := loadedPage :: c.tlb, lastPasid := some 1, icache := [], poweredOff := false })
  let s := s.modCtx 1 (fun c => { c with state := .active })
  s.modDev (fun d => { d with nextWg := max 2 d.nextWg })

end Machine

end Sys2Proof
end

