-- ==== Sys2Proof/Machine/Dispatch.lean ====
section
/-! DEFINITION. One arm per instruction and per event, each a direct call of its meaning. -/

namespace Sys2Proof

namespace Machine

/-- What an instruction, or an event, does in a state. -/
def exec (i : Instr) (s : State) : Host.Outcome State Fault Refusal :=
  match i with
  | .add v d a b u => Sys2Proof.Machine.execAdd v d a b u s
  | .addc v d a b u => Sys2Proof.Machine.execAddc v d a b u s
  | .sub v d a b u => Sys2Proof.Machine.execSub v d a b u s
  | .subb v d a b u => Sys2Proof.Machine.execSubb v d a b u s
  | .mul v d a b u => Sys2Proof.Machine.execMul v d a b u s
  | .mulhiI v d a b u => Sys2Proof.Machine.execMulhiI v d a b u s
  | .mulhiN v d a b u => Sys2Proof.Machine.execMulhiN v d a b u s
  | .mad v d a b u => Sys2Proof.Machine.execMad v d a b u s
  | .madWI d a b u => Sys2Proof.Machine.execMadWI d a b u s
  | .madWN d a b u => Sys2Proof.Machine.execMadWN d a b u s
  | .divI v d a b u => Sys2Proof.Machine.execDivI v d a b u s
  | .divN v d a b u => Sys2Proof.Machine.execDivN v d a b u s
  | .remI v d a b u => Sys2Proof.Machine.execRemI v d a b u s
  | .remN v d a b u => Sys2Proof.Machine.execRemN v d a b u s
  | .add64 d a b u => Sys2Proof.Machine.execAdd64 d a b u s
  | .sub64 d a b u => Sys2Proof.Machine.execSub64 d a b u s
  | .and v d a b u => Sys2Proof.Machine.execAnd v d a b u s
  | .or v d a b u => Sys2Proof.Machine.execOr v d a b u s
  | .xor v d a b u => Sys2Proof.Machine.execXor v d a b u s
  | .andn v d a b u => Sys2Proof.Machine.execAndn v d a b u s
  | .shl v d a b u => Sys2Proof.Machine.execShl v d a b u s
  | .shr v d a b u => Sys2Proof.Machine.execShr v d a b u s
  | .sar v d a b u => Sys2Proof.Machine.execSar v d a b u s
  | .rotl v d a b u => Sys2Proof.Machine.execRotl v d a b u s
  | .popc v d a u => Sys2Proof.Machine.execPopc v d a u s
  | .clz v d a u => Sys2Proof.Machine.execClz v d a u s
  | .brev v d a u => Sys2Proof.Machine.execBrev v d a u s
  | .minI v d a b u => Sys2Proof.Machine.execMinI v d a b u s
  | .minN v d a b u => Sys2Proof.Machine.execMinN v d a b u s
  | .maxI v d a b u => Sys2Proof.Machine.execMaxI v d a b u s
  | .maxN v d a b u => Sys2Proof.Machine.execMaxN v d a b u s
  | .abs v d a u => Sys2Proof.Machine.execAbs v d a u s
  | .bfxI v d a b u => Sys2Proof.Machine.execBfxI v d a b u s
  | .bfxN v d a b u => Sys2Proof.Machine.execBfxN v d a b u s
  | .bfi v d a b u => Sys2Proof.Machine.execBfi v d a b u s
  | .prmt v d a b u => Sys2Proof.Machine.execPrmt v d a b u s
  | .mov v d b u => Sys2Proof.Machine.execMov v d b u s
  | .lea1 v d a b u => Sys2Proof.Machine.execLea1 v d a b u s
  | .lea2 v d a b u => Sys2Proof.Machine.execLea2 v d a b u s
  | .lea4 v d a b u => Sys2Proof.Machine.execLea4 v d a b u s
  | .lea8 v d a b u => Sys2Proof.Machine.execLea8 v d a b u s
  | .addImm v d a n => Sys2Proof.Machine.execAddImm v d a n s
  | .movi v d n => Sys2Proof.Machine.execMovi v d n s
  | .shlImm v d a c => Sys2Proof.Machine.execShlImm v d a c s
  | .shrImm v d a c => Sys2Proof.Machine.execShrImm v d a c s
  | .sarImm v d a c => Sys2Proof.Machine.execSarImm v d a c s
  | .rotlImm v d a c => Sys2Proof.Machine.execRotlImm v d a c s
  | .icvt v d a s0 x y => Sys2Proof.Machine.execIcvt v d a s0 x y s
  | .sel d a b u p => Sys2Proof.Machine.execSel d a b u p s
  | .setp w p a b u c => Sys2Proof.Machine.execSetp w p a b u c s
  | .pand d a b => Sys2Proof.Machine.execPand d a b s
  | .por d a b => Sys2Proof.Machine.execPor d a b s
  | .pxor d a b => Sys2Proof.Machine.execPxor d a b s
  | .pnot d a => Sys2Proof.Machine.execPnot d a s
  | .pmov d a => Sys2Proof.Machine.execPmov d a s
  | .shfl d a b u m => Sys2Proof.Machine.execShfl d a b u m s
  | .qswap d a m => Sys2Proof.Machine.execQswap d a m s
  | .voteAll d a => Sys2Proof.Machine.execVoteAll d a s
  | .voteAny d a => Sys2Proof.Machine.execVoteAny d a s
  | .voteBallot d a => Sys2Proof.Machine.execVoteBallot d a s
  | .redux d a o => Sys2Proof.Machine.execRedux d a o s
  | .rdlane d a b => Sys2Proof.Machine.execRdlane d a b s
  | .wrlane d a b => Sys2Proof.Machine.execWrlane d a b s
  | .br p c n o => Sys2Proof.Machine.execBr p c n o s
  | .jmp p c n o => Sys2Proof.Machine.execJmp p c n o s
  | .call p l o => Sys2Proof.Machine.execCall p l o s
  | .brx a p => Sys2Proof.Machine.execBrx a p s
  | .ret a p => Sys2Proof.Machine.execRet a p s
  | .exit => Sys2Proof.Machine.execExit s
  | .nop => Sys2Proof.Machine.execNop s
  | .fsw => Sys2Proof.Machine.execFsw s
  | .fbar => Sys2Proof.Machine.execFbar s
  | .jen j => Sys2Proof.Machine.execJen j s
  | .jwt j => Sys2Proof.Machine.execJwt j s
  | .jstr j => Sys2Proof.Machine.execJstr j s
  | .wbase b => Sys2Proof.Machine.execWbase b s
  | .grow n => Sys2Proof.Machine.execGrow n s
  | .shrink n => Sys2Proof.Machine.execShrink n s
  | .fadd t r d a b u => Sys2Proof.Machine.execFadd t r d a b u s
  | .fsub t r d a b u => Sys2Proof.Machine.execFsub t r d a b u s
  | .fmul t r d a b u => Sys2Proof.Machine.execFmul t r d a b u s
  | .fma t r d a b u => Sys2Proof.Machine.execFma t r d a b u s
  | .fmin t r d a b u => Sys2Proof.Machine.execFmin t r d a b u s
  | .fmax t r d a b u => Sys2Proof.Machine.execFmax t r d a b u s
  | .fdiv t r d a b u => Sys2Proof.Machine.execFdiv t r d a b u s
  | .frcp t r d a => Sys2Proof.Machine.execFrcp t r d a s
  | .frsq d a => Sys2Proof.Machine.execFrsq d a s
  | .fsqrt t r d a => Sys2Proof.Machine.execFsqrt t r d a s
  | .fexp2 d a => Sys2Proof.Machine.execFexp2 d a s
  | .flog2 d a => Sys2Proof.Machine.execFlog2 d a s
  | .fsinpi d a => Sys2Proof.Machine.execFsinpi d a s
  | .fcospi d a => Sys2Proof.Machine.execFcospi d a s
  | .fclass t r d a => Sys2Proof.Machine.execFclass t r d a s
  | .frnd t r d a m => Sys2Proof.Machine.execFrnd t r d a m s
  | .fsetp w p a b u c => Sys2Proof.Machine.execFsetp w p a b u c s
  | .fcvt d a s0 r x y => Sys2Proof.Machine.execFcvt d a s0 r x y s
  | .dot4 d a b u t => Sys2Proof.Machine.execDot4 d a b u t s
  | .dot8 d a b u t => Sys2Proof.Machine.execDot8 d a b u t s
  | .wring d a b u => Sys2Proof.Machine.execWring d a b u s
  | .scl d a s0 f => Sys2Proof.Machine.execScl d a s0 f s
  | .qnt d a s0 l f => Sys2Proof.Machine.execQnt d a s0 l f s
  | .dqnt d a s0 f => Sys2Proof.Machine.execDqnt d a s0 f s
  | .p6x d r f => Sys2Proof.Machine.execP6x d r f s
  | .ld d b l w o c ofs => Sys2Proof.Machine.execLd d b l w o c ofs s
  | .ldacq d b l w c ofs => Sys2Proof.Machine.execLdacq d b l w c ofs s
  | .st d b l w o c ofs => Sys2Proof.Machine.execSt d b l w o c ofs s
  | .strel d b l w c ofs => Sys2Proof.Machine.execStrel d b l w c ofs s
  | .lds d b l w k ofs => Sys2Proof.Machine.execLds d b l w k ofs s
  | .sts d b l w k ofs => Sys2Proof.Machine.execSts d b l w k ofs s
  | .ldk d b l w o c ofs => Sys2Proof.Machine.execLdk d b l w o c ofs s
  | .ld6 d b l o c ofs => Sys2Proof.Machine.execLd6 d b l o c ofs s
  | .atom d b l w o x s0 ofs => Sys2Proof.Machine.execAtom d b l w o x s0 ofs s
  | .atom64 d b l w o x s0 ofs => Sys2Proof.Machine.execAtom64 d b l w o x s0 ofs s
  | .atomp d b l m o s0 ofs => Sys2Proof.Machine.execAtomp d b l m o s0 ofs s
  | .red d b l w z r x s0 ofs => Sys2Proof.Machine.execRed d b l w z r x s0 ofs s
  | .ldfut d b l w ofs => Sys2Proof.Machine.execLdfut d b l w ofs s
  | .stfut d b l w ofs => Sys2Proof.Machine.execStfut d b l w ofs s
  | .stg d b l w ofs => Sys2Proof.Machine.execStg d b l w ofs s
  | .qpush q a => Sys2Proof.Machine.execQpush q a s
  | .qpop d q => Sys2Proof.Machine.execQpop d q s
  | .qlen d q => Sys2Proof.Machine.execQlen d q s
  | .fence p k l => Sys2Proof.Machine.execFence p k l s
  | .acqr s0 l => Sys2Proof.Machine.execAcqr s0 l s
  | .cinv l => Sys2Proof.Machine.execCinv l s
  | .pref s0 v l => Sys2Proof.Machine.execPref s0 v l s
  | .alloc s0 d l => Sys2Proof.Machine.execAlloc s0 d l s
  | .sig s0 l => Sys2Proof.Machine.execSig s0 l s
  | .cwait c q n l => Sys2Proof.Machine.execCwait c q n l s
  | .spres s0 d l => Sys2Proof.Machine.execSpres s0 d l s
  | .gath s0 d l => Sys2Proof.Machine.execGath s0 d l s
  | .tld s0 l => Sys2Proof.Machine.execTld s0 l s
  | .tst s0 l => Sys2Proof.Machine.execTst s0 l s
  | .tzero t l => Sys2Proof.Machine.execTzero t l s
  | .mma s0 l => Sys2Proof.Machine.execMma s0 l s
  | .mmaj s0 l => Sys2Proof.Machine.execMmaj s0 l s
  | .ald s0 l => Sys2Proof.Machine.execAld s0 l s
  | .ast s0 l => Sys2Proof.Machine.execAst s0 l s
  | .aq s0 l => Sys2Proof.Machine.execAq s0 l s
  | .azero a l => Sys2Proof.Machine.execAzero a l s
  | .cpy s0 b l => Sys2Proof.Machine.execCpy s0 b l s
  | .cpyt s0 b l => Sys2Proof.Machine.execCpyt s0 b l s
  | .barr b l => Sys2Proof.Machine.execBarr b l s
  | .bexp s0 b l => Sys2Proof.Machine.execBexp s0 b l s
  | .bwait b l => Sys2Proof.Machine.execBwait b l s
  | .btry b l => Sys2Proof.Machine.execBtry b l s
  | .ssld s0 l => Sys2Proof.Machine.execSsld s0 l s
  | .ssst s0 l => Sys2Proof.Machine.execSsst s0 l s
  | .ssnap s0 l => Sys2Proof.Machine.execSsnap s0 l s
  | .ssrb s0 l => Sys2Proof.Machine.execSsrb s0 l s
  | .sscopy s0 l => Sys2Proof.Machine.execSscopy s0 l s
  | .ssqry s0 d l => Sys2Proof.Machine.execSsqry s0 d l s
  | .ssfree s0 l => Sys2Proof.Machine.execSsfree s0 l s
  | .tkspawn s0 l => Sys2Proof.Machine.execTkspawn s0 l s
  | .tkend l => Sys2Proof.Machine.execTkend l s
  | .tksplit l => Sys2Proof.Machine.execTksplit l s
  | .tkinfo s0 d l => Sys2Proof.Machine.execTkinfo s0 d l s
  | .salloc s0 l => Sys2Proof.Machine.execSalloc s0 l s
  | .sfree s0 l => Sys2Proof.Machine.execSfree s0 l s
  | .fpqry s0 d l => Sys2Proof.Machine.execFpqry s0 d l s
  | .fpdon s0 l => Sys2Proof.Machine.execFpdon s0 l s
  | .fpvoid s0 l => Sys2Proof.Machine.execFpvoid s0 l s
  | .succ l => Sys2Proof.Machine.execSucc l s
  | .wpred l => Sys2Proof.Machine.execWpred l s
  | .svc s0 x => Sys2Proof.Machine.execSvc s0 x s
  | .brk c l => Sys2Proof.Machine.execBrk c l s
  | .trap c l => Sys2Proof.Machine.execTrap c l s
  | .rdsrVector d x => Sys2Proof.Machine.execRdsrVector d x s
  | .rdsrUniform d x => Sys2Proof.Machine.execRdsrUniform d x s
  | .wrsr s0 x => Sys2Proof.Machine.execWrsr s0 x s
  | .sleep s0 l => Sys2Proof.Machine.execSleep s0 l s
  | .sleepExpire f => Sys2Proof.Machine.execSleepExpire f s
  | .loadDataArrival f p => Sys2Proof.Machine.execLoadDataArrival f p s
  | .writeAcknowledge c n => Sys2Proof.Machine.execWriteAcknowledge c n s
  | .redPerformed c n => Sys2Proof.Machine.execRedPerformed c n s
  | .translationWalkDone c n => Sys2Proof.Machine.execTranslationWalkDone c n s
  | .copySectorArrival c k n => Sys2Proof.Machine.execCopySectorArrival c k n s
  | .engineOpComplete c n => Sys2Proof.Machine.execEngineOpComplete c n s
  | .barrierByteEvaluation c b => Sys2Proof.Machine.execBarrierByteEvaluation c b s
  | .workgroupEnd w => Sys2Proof.Machine.execWorkgroupEnd w s
  | .offcoreMove f => Sys2Proof.Machine.execOffcoreMove f s
  | .offcoreReturn f => Sys2Proof.Machine.execOffcoreReturn f s
  | .svcReply p => Sys2Proof.Machine.execSvcReply p s
  | .svcReplyTailWrite p tail => Sys2Proof.Machine.execSvcReplyTailWrite p tail s
  | .launch q => Sys2Proof.Machine.execLaunch q s
  | .graphLoad q => Sys2Proof.Machine.execGraphLoad q s
  | .graphRun q => Sys2Proof.Machine.execGraphRun q s
  | .graphUnload q => Sys2Proof.Machine.execGraphUnload q s
  | .graphNode g => Sys2Proof.Machine.execGraphNode g s
  | .tasks q => Sys2Proof.Machine.execTasks q s
  | .wait q => Sys2Proof.Machine.execWait q s
  | .signalAdd q => Sys2Proof.Machine.execSignalAdd q s
  | .signalWrite q => Sys2Proof.Machine.execSignalWrite q s
  | .lgive q => Sys2Proof.Machine.execLgive q s
  | .ltake q => Sys2Proof.Machine.execLtake q s
  | .footprintQuery q => Sys2Proof.Machine.execFootprintQuery q s
  | .footprintVoid q => Sys2Proof.Machine.execFootprintVoid q s
  | .footprintDonate q => Sys2Proof.Machine.execFootprintDonate q s
  | .footprintResetAll q => Sys2Proof.Machine.execFootprintResetAll q s
  | .copy q => Sys2Proof.Machine.execCopy q s
  | .marker q => Sys2Proof.Machine.execMarker q s
  | .doorbell q wi => Sys2Proof.Machine.execDoorbell q wi s
  | .queueEnable q => Sys2Proof.Machine.execQueueEnable q s
  | .queueDisable q => Sys2Proof.Machine.execQueueDisable q s
  | .queueMap q => Sys2Proof.Machine.execQueueMap q s
  | .queueQuantumExpiry q => Sys2Proof.Machine.execQueueQuantumExpiry q s
  | .launchAdmission l => Sys2Proof.Machine.execLaunchAdmission l s
  | .workgroupDispatch l c => Sys2Proof.Machine.execWorkgroupDispatch l c s
  | .launchConfirm l => Sys2Proof.Machine.execLaunchConfirm l s
  | .darningStart l => Sys2Proof.Machine.execDarningStart l s
  | .taskDispatch p c => Sys2Proof.Machine.execTaskDispatch p c s
  | .taskCommit w => Sys2Proof.Machine.execTaskCommit w s
  | .taskTimeExpiry w => Sys2Proof.Machine.execTaskTimeExpiry w s
  | .taskUnpick w => Sys2Proof.Machine.execTaskUnpick w s
  | .batchIteration p => Sys2Proof.Machine.execBatchIteration p s
  | .batchCommit p => Sys2Proof.Machine.execBatchCommit p s
  | .roleMonitorWindow c t => Sys2Proof.Machine.execRoleMonitorWindow c t s
  | .forwardProgressSwap c => Sys2Proof.Machine.execForwardProgressSwap c s
  | .swapReadmit w c => Sys2Proof.Machine.execSwapReadmit w c s
  | .serviceReplay p => Sys2Proof.Machine.execServiceReplay p s
  | .serviceSkip p => Sys2Proof.Machine.execServiceSkip p s
  | .serviceEndLanes p => Sys2Proof.Machine.execServiceEndLanes p s
  | .serviceExtract p => Sys2Proof.Machine.execServiceExtract p s
  | .serviceRestore p => Sys2Proof.Machine.execServiceRestore p s
  | .serviceReplaySectors p => Sys2Proof.Machine.execServiceReplaySectors p s
  | .serviceEndWorkgroup p => Sys2Proof.Machine.execServiceEndWorkgroup p s
  | .serviceRespawn p => Sys2Proof.Machine.execServiceRespawn p s
  | .serviceDiscard p => Sys2Proof.Machine.execServiceDiscard p s
  | .serviceEndContext p => Sys2Proof.Machine.execServiceEndContext p s
  | .pageRequestResponse p prg ok => Sys2Proof.Machine.execPageRequestResponse p prg ok s
  | .atsInvalidation p lo hi => Sys2Proof.Machine.execAtsInvalidation p lo hi s
  | .translationInvalidate p lo hi => Sys2Proof.Machine.execTranslationInvalidate p lo hi s
  | .ringDescriptorWrite p r base size => Sys2Proof.Machine.execRingDescriptorWrite p r base size s
  | .hangWatchdogExpiry q => Sys2Proof.Machine.execHangWatchdogExpiry q s
  | .saveWatchdogExpiry p => Sys2Proof.Machine.execSaveWatchdogExpiry p s
  | .preemptPasid p => Sys2Proof.Machine.execPreemptPasid p s
  | .resumePasid p => Sys2Proof.Machine.execResumePasid p s
  | .seizePod pod nonce sig => Sys2Proof.Machine.execSeizePod pod nonce sig s
  | .seizeRequestMessage pod nonce sig => Sys2Proof.Machine.execSeizeRequestMessage pod nonce sig s
  | .releasePod => Sys2Proof.Machine.execReleasePod s
  | .discardFrozen p consent => Sys2Proof.Machine.execDiscardFrozen p consent s
  | .teardownPasid p => Sys2Proof.Machine.execTeardownPasid p s
  | .readSensors => Sys2Proof.Machine.execReadSensors s
  | .readEventLog idx restore => Sys2Proof.Machine.execReadEventLog idx restore s
  | .stageImage kind version rollback sig => Sys2Proof.Machine.execStageImage kind version rollback sig s
  | .activateImage kind => Sys2Proof.Machine.execActivateImage kind s
  | .egressLock => Sys2Proof.Machine.execEgressLock s
  | .hostCounterWrite pf n v => Sys2Proof.Machine.execHostCounterWrite pf n v s
  | .registerWrite vf off v => Sys2Proof.Machine.execRegisterWrite vf off v s
  | .functionLevelReset => Sys2Proof.Machine.execFunctionLevelReset s
  | .hostPostedWrite port a data => Sys2Proof.Machine.execHostPostedWrite port a data s
  | .hostAtomicOp op wide a x y => Sys2Proof.Machine.execHostAtomicOp op wide a x y s
  | .getVersion => Sys2Proof.Machine.execGetVersion s
  | .getCapabilities => Sys2Proof.Machine.execGetCapabilities s
  | .negotiateAlgorithms offer => Sys2Proof.Machine.execNegotiateAlgorithms offer s
  | .getDigests => Sys2Proof.Machine.execGetDigests s
  | .getCertificate off len => Sys2Proof.Machine.execGetCertificate off len s
  | .challenge nonce => Sys2Proof.Machine.execChallenge nonce s
  | .getMeasurements idx => Sys2Proof.Machine.execGetMeasurements idx s
  | .mctpSensorRead smbus => Sys2Proof.Machine.execMctpSensorRead smbus s
  | .fabricFlit link flit => Sys2Proof.Machine.execFabricFlit link flit s
  | .linkSilenceTimeout link => Sys2Proof.Machine.execLinkSilenceTimeout link s
  | .idleFlitTimer link => Sys2Proof.Machine.execIdleFlitTimer link s
  | .peerHeartbeatTimeout m => Sys2Proof.Machine.execPeerHeartbeatTimeout m s
  | .linkEventBroadcast m link hung => Sys2Proof.Machine.execLinkEventBroadcast m link hung s
  | .cpHeartbeatTimeout => Sys2Proof.Machine.execCpHeartbeatTimeout s
  | .cpTakeover => Sys2Proof.Machine.execCpTakeover s
  | .sensorSample vals => Sys2Proof.Machine.execSensorSample vals s
  | .powerLimitExcess => Sys2Proof.Machine.execPowerLimitExcess s
  | .thermalTrip => Sys2Proof.Machine.execThermalTrip s
  | .scrub sector ecc => Sys2Proof.Machine.execScrub sector ecc s
  | .powerOn failed => Sys2Proof.Machine.execPowerOn failed s
  | .deviceReset => Sys2Proof.Machine.execDeviceReset s
  | .managementCoreReset => Sys2Proof.Machine.execManagementCoreReset s
  | .illegalInstruction => Sys2Proof.Machine.execIllegalInstruction s
  | .instructionFetchFault => Sys2Proof.Machine.execInstructionFetchFault s
  | .l1SectorEviction c sector => Sys2Proof.Machine.execL1SectorEviction c sector s
  | .atsTranslationCompletion c p vpn present frame => Sys2Proof.Machine.execAtsTranslationCompletion c p vpn present frame s
  | .eccError unit c k correctable => Sys2Proof.Machine.execEccError unit c k correctable s
  | .powerLoss => Sys2Proof.Machine.execPowerLoss s

end Machine

end Sys2Proof
end

