-- ==== Sys2Proof/Machine/Step.lean ====
section
/-! DEFINITION. One step: the next event of the agenda, or in turn the next instruction of a slot and the next event of the device; a clock passes with
each. And a program placed from outside. -/

namespace Sys2Proof

namespace Machine

/-- What follows every change: a clock, the look at the fibres that may now be ready, and the hand over of issue. -/
def State.after (s : State) : State := s.pulse exec

/-- A clock passes after what a step did. -/
def afterStep : Host.Outcome State Fault Refusal → Host.Outcome State Fault Refusal
  | .next t => .next t.after
  | .fault r => .fault r
  | .refused r => .refused r

/-- The state after the first event of a list that changes something. -/
def firstChange (s : State) : List Instr → Option State
  | [] => none
  | e :: l => match exec e s with
    | .next t => if t = s then firstChange s l else some t
    | _ => firstChange s l

/-- The device performs the next event of its own. -/
def State.nextEvent (s : State) : Option State := firstChange s s.candidates

/-- Run what was latched. -/
def runLatched : Latched → Host.Outcome State Fault Refusal
  | .run i t => afterStep (exec i t)
  | .ended t => .next t.after

/-- One step. -/
def step (s : State) : Host.Outcome State Fault Refusal :=
  match s.agenda with
  | i :: l => if i.isEvent then afterStep (exec i { s with agenda := l }) else .next ({ s with agenda := l } : State).after
  | [] =>
    if s.clock % 2 = 0 then
      match s.issueNext with
      | some r => runLatched r
      | none => match s.nextEvent with
        | some t => .next t.after
        | none => .next s.after
    else
      match s.nextEvent with
      | some t => .next t.after
      | none => match s.issueNext with
        | some r => runLatched r
        | none => .next s.after

/-- The state in which the next step runs an instruction, numbered as the opcode table numbers its bits. -/
def State.withFetchWord (s : State) (nbits w : Nat) : State := s.place nbits w

end Machine

end Sys2Proof
end

