-- ==== Sys2Proof/Safety.lean ====
section
/-! DEFINITION. The terms in which statements about runs are made: when a latched instruction can issue, what an instruction leaves alone, and which
registers it wrote. -/

namespace Sys2Proof

namespace Machine

/-! ### When an instruction issues -/

/-- The latched instruction issues: its vector registers lie in the window (R27, R48), some lane is active (R49), no pending write and no held destination
blocks its registers (R52, R53, R339), and no register word of the core, the guard's predicate included, has an error (R276). -/
def State.Ready (s : State) (u : Uses) : Prop :=
  s.outside u = false ∧ s.cur.active ≠ 0 ∧ s.hazard u = none ∧ (s.core s.me.core).ecc = [] ∧ s.cur.gbad = false

/-- No pending write of the fibre lands with this issue (R52, R53), and its frontier has no spilled entry to move (R20). -/
def Fibre.Quiet (x : Fibre) : Prop :=
  x.spilled = [] ∧ x.frontier.length ≤ 8 ∧ ∀ p ∈ x.pend, p.arrived = true → 2 ≤ p.shadow

/-- The issuing fibre is quiet, and its issuing entry has lanes (R316). -/
def State.Quiet (s : State) : Prop := s.me.Quiet ∧ ∃ e, s.me.runEntry s.cur.age = some e ∧ e.mask ≠ 0

/-! ### What stays -/

/-- The state of a fibre besides its registers, its frontier, its pending writes and its floating-point status. -/
structure Fibre.Kept (x y : Fibre) : Prop where
  wg : y.wg = x.wg
  fibid : y.fibid = x.fibid
  core : y.core = x.core
  slot : y.slot = x.slot
  pos : y.pos = x.pos
  resident : y.resident = x.resident
  extracted : y.extracted = x.extracted
  spilled : y.spilled = x.spilled
  masks : y.masks = x.masks
  base : y.base = x.base
  size : y.size = x.size
  granted : y.granted = x.granted
  role : y.role = x.role
  rm : y.rm = x.rm
  outst : y.outst = x.outst
  waitPhase : y.waitPhase = x.waitPhase
  present : y.present = x.present
  helper : y.helper = x.helper
  sleep : y.sleep = x.sleep
  acqs : y.acqs = x.acqs
  wfail : y.wfail = x.wfail
  noMove : y.noMove = x.noMove
  home : y.home = x.home
  imageAt : y.imageAt = x.imageAt

/-- The state of a slot besides its registers and the issue's own marks. -/
structure Slot.Kept (x y : Slot) : Prop where
  queues : y.queues = x.queues
  pushes : y.pushes = x.pushes
  fbarIn : y.fbarIn = x.fbarIn
  fbarGen : y.fbarGen = x.fbarGen
  issuing : y.issuing = x.issuing
  last : y.last = x.last
  wg : y.wg = x.wg
  monStart : y.monStart = x.monStart
  monLow : y.monLow = x.monLow
  monHigh : y.monHigh = x.monHigh

/-- The machine besides the issuing fibre and its slot: every other fibre and slot, every core, workgroup, launch and context, the device, and what is
still to come from outside. -/
structure Around (s t : State) : Prop where
  fibres : ∀ f, f ≠ s.cur.fib → t.fibre f = s.fibre f
  slots : ∀ k, k ≠ s.slotOf s.cur.fib → t.slot k = s.slot k
  cores : t.cores = s.cores
  wgs : t.wgs = s.wgs
  launches : t.launches = s.launches
  ctxs : t.ctxs = s.ctxs
  dev : t.dev = s.dev
  agenda : t.agenda = s.agenda
  cur : t.cur = s.cur
  clock : t.clock = s.clock
  turn : t.turn = s.turn
  tick : t.tick = s.tick

/-- What an instruction that only writes registers leaves alone: everything but its fibre's registers, status and frontier, and every byte of memory. -/
structure Kept (s t : State) : Prop where
  mem : t.mem = s.mem
  around : Around s t
  fibre : s.me.Kept t.me
  slot : s.mySlot.Kept t.mySlot

/-- The issuing entry has moved to the next address (R19 rule 2, R45). -/
def Advanced (s t : State) : Prop := t.me.frontier = (s.me.advance s.cur 0).frontier

/-- The issuing entry, the other on-chip entries in order, and room for another; nothing is spilled. -/
structure Issuing (s : State) (e : Entry) : Prop where
  entry : s.me.runEntry s.cur.age = some e
  mask : e.mask = s.cur.mask
  prio : e.prio = s.cur.prio
  room : s.me.frontier.length ≤ 7
  some : s.cur.mask ≠ 0

/-- The on-chip entries besides the issuing one. -/
def State.others (s : State) : List Entry := (s.me.dropRun s.cur.age).frontier

/-- No other entry that may merge stands at an address (R19 rule 4, R340). -/
def State.clearAt (s : State) (pc : Word64) : Prop := ∀ x ∈ s.others, x.kind = .run → x.replay = false → x.pc ≠ pc

/-- A run entry that lanes form at an address (R18). -/
def Entry.at_ (pc : Word64) (prio : BitVec 4) (m : Mask) (age : Word) : Entry := ⟨.run, pc, 0, prio, m, age, false, 0, 0, false, 0⟩

/-! ### Which registers were written -/

/-- The lanes of a mask of window register `n` hold new values, and every other register word of the slot is as before. -/
def VecSet (s t : State) (n : Nat) (m : Mask) (f : Nat → Word) : Prop :=
  ∀ ph l, l < 32 → t.mySlot.getV ph l = if ph = 8 * s.me.base + n ∧ m.getLsbD l = true then f l else s.mySlot.getV ph l

/-- The lanes of a mask of the pair `n`, `n + 1` hold new values, low word first, and every other register word of the slot is as before (R48). -/
def VecSet2 (s t : State) (n : Nat) (m : Mask) (f : Nat → Word64) : Prop :=
  ∀ ph l, l < 32 → t.mySlot.getV ph l =
    if ph = 8 * s.me.base + n ∧ m.getLsbD l = true then (f l).extractLsb' 0 32
    else if ph = 8 * s.me.base + n + 1 ∧ m.getLsbD l = true then (f l).extractLsb' 32 32
    else s.mySlot.getV ph l

/-- Every vector register of the slot is as before. -/
def VecKept (s t : State) : Prop := ∀ ph l, l < 32 → t.mySlot.getV ph l = s.mySlot.getV ph l

/-- Uniform register `n` of the fibre holds a new value, and the others are as before. -/
def UniSet (s t : State) (n : Nat) (v : Word64) : Prop := ∀ k, t.ru k = if k = n then v else s.ru k

/-- Every uniform register of the fibre is as before. -/
def UniKept (s t : State) : Prop := ∀ k, t.ru k = s.ru k

/-- The lanes of a mask of predicate `n` hold new values, unless it is p15, whose writes are discarded (R34); the other predicates are as before. -/
def PredSet (s t : State) (n : Nat) (m : Mask) (f : Nat → Bool) : Prop :=
  ∀ k l, l < 32 → t.rp k l = if k = n ∧ n ≠ 15 ∧ m.getLsbD l = true then f l else s.rp k l

/-- Every predicate of the fibre is as before. -/
def PredKept (s t : State) : Prop := ∀ k l, l < 32 → t.rp k l = s.rp k l

/-- The sticky floating-point status is as before (R41). -/
def StatusKept (s t : State) : Prop := t.me.fpstat = s.me.fpstat

/-- No register of the slot or the fibre, no byte of memory and nothing outside the fibre and its slot has changed. -/
structure Still (s t : State) : Prop where
  mem : t.mem = s.mem
  around : Around s t
  slot : s.mySlot.Kept t.mySlot
  vec : VecKept s t
  uni : UniKept s t
  pred : PredKept s t
  status : StatusKept s t

/-! ### Results -/

/-- The instruction has completed and wrote lanes of one vector register, and nothing else. -/
structure VecResult (s t : State) (n : Nat) (m : Mask) (f : Nat → Word) : Prop where
  kept : Kept s t
  advanced : Advanced s t
  vec : VecSet s t n m f
  uni : UniKept s t
  pred : PredKept s t
  status : StatusKept s t

/-- The instruction has completed and wrote lanes of one register pair, and nothing else. -/
structure PairResult (s t : State) (n : Nat) (m : Mask) (f : Nat → Word64) : Prop where
  kept : Kept s t
  advanced : Advanced s t
  vec : VecSet2 s t n m f
  uni : UniKept s t
  pred : PredKept s t
  status : StatusKept s t

/-- The instruction has completed and wrote one uniform register, and nothing else. -/
structure UniResult (s t : State) (n : Nat) (v : Word64) : Prop where
  kept : Kept s t
  advanced : Advanced s t
  vec : VecKept s t
  uni : UniSet s t n v
  pred : PredKept s t
  status : StatusKept s t

/-- The instruction has completed and wrote lanes of one predicate, and nothing else. -/
structure PredResult (s t : State) (n : Nat) (m : Mask) (f : Nat → Bool) : Prop where
  kept : Kept s t
  advanced : Advanced s t
  vec : VecKept s t
  uni : UniKept s t
  pred : PredSet s t n m f
  status : StatusKept s t

/-- The instruction has completed and wrote no register. -/
structure PlainResult (s t : State) : Prop where
  kept : Kept s t
  advanced : Advanced s t
  vec : VecKept s t
  uni : UniKept s t
  pred : PredKept s t
  status : StatusKept s t

/-- The result of a twin (R57, R81): the active lanes of V[d] in vector form, S[d] in uniform form. -/
def TwinResult (s t : State) (v : Bool) (d : BitVec 7) (f : Nat → Word) (y : Word64) : Prop :=
  if v then UniResult s t d.toNat y else VecResult s t d.toNat s.cur.active f

/-- The instruction gives d := f(a, b) at either width, on operands read before anything is written (R81). -/
def GivesTwin (i : Instr) (v : Bool) (d a b : BitVec 7) (u : Bool) (f : BinOp) (s : State) : Prop :=
  ∃ t, exec i s = .next t ∧ TwinResult s t v d (fun l => f 32 (s.rv a.toNat l) (s.opb b u l)) (f 64 (s.usrc a.toNat) (s.usrc b.toNat))

/-- The instruction gives d := f(a, b, old d) at either width. -/
def GivesTwin3 (i : Instr) (v : Bool) (d a b : BitVec 7) (u : Bool) (f : TriOp) (s : State) : Prop :=
  ∃ t, exec i s = .next t ∧ TwinResult s t v d (fun l => f 32 (s.rv a.toNat l) (s.opb b u l) (s.rv d.toNat l))
    (f 64 (s.usrc a.toNat) (s.usrc b.toNat) (s.ru d.toNat))

/-- The instruction gives d := f(a) at either width. -/
def GivesTwin1 (i : Instr) (v : Bool) (d a : BitVec 7) (f : UnOp) (s : State) : Prop :=
  ∃ t, exec i s = .next t ∧ TwinResult s t v d (fun l => f 32 (s.rv a.toNat l)) (f 64 (s.usrc a.toNat))

/-- The instruction gives pair d := f(L) in the active lanes. -/
def GivesPair (i : Instr) (d : BitVec 7) (f : Nat → Word64) (s : State) : Prop :=
  ∃ t, exec i s = .next t ∧ PairResult s t d.toNat s.cur.active f

/-- The instruction gives V[d][L] := f(L) in the active lanes. -/
def GivesVec (i : Instr) (d : BitVec 7) (f : Nat → Word) (s : State) : Prop :=
  ∃ t, exec i s = .next t ∧ VecResult s t d.toNat s.cur.active f

/-- The instruction gives S[d] := v. -/
def GivesUni (i : Instr) (d : BitVec 7) (v : Word64) (s : State) : Prop := ∃ t, exec i s = .next t ∧ UniResult s t d.toNat v

/-- The instruction gives P[d][L] := f(L) in the active lanes. -/
def GivesPred (i : Instr) (d : BitVec 4) (f : Nat → Bool) (s : State) : Prop :=
  ∃ t, exec i s = .next t ∧ PredResult s t d.toNat s.cur.active f

/-! ### The words of the spec for some results -/

/-- The value of the low bits of a word under an integer type (R58, R89 step 1): codes 0 to 3 are signed, of 8, 16, 32 and 64 bits, and 4 to 7 unsigned. -/
def intTypeValue (c : BitVec 4) (x : Word64) : Int :=
  let w := 8 * 2 ^ (c.toNat % 4)
  if c.toNat < 4 then (x.setWidth w).toInt else ((x.setWidth w).toNat : Int)

/-- ICVT (R89): read the source type; clamp to the range of the destination type or keep the low bits; extend by the sign of the destination type. -/
def icvtSpec (sat : Bool) (src dst : BitVec 4) (x : Word64) : Word64 :=
  let v := intTypeValue src x
  let w := 8 * 2 ^ (dst.toNat % 4)
  let lo : Int := if dst.toNat < 4 then -2 ^ (w - 1) else 0
  let hi : Int := if dst.toNat < 4 then 2 ^ (w - 1) - 1 else 2 ^ w - 1
  BitVec.ofInt 64 (intTypeValue dst (BitVec.ofInt 64 (if sat then max lo (min v hi) else v)))

/-- The source lane of SHFL in lane `l` for the lane operand `k` (R94): at, rot, slide (signed, exact), mirror. -/
def shflSource (m : BitVec 2) (l : Nat) (k : Word) : Int :=
  match m.toNat with
  | 0 => (k.toNat % 32 : Nat)
  | 1 => ((l + k.toNat) % 32 : Nat)
  | 2 => (l : Int) + k.toInt
  | _ => (l ^^^ (k.toNat % 32) : Nat)

/-- The operations of REDUX (R59, R97): the sum, the signed and unsigned minimum and maximum, and the bitwise operations. -/
def reduction (o : BitVec 3) (x y : Word) : Word :=
  match o.toNat with
  | 0 => x + y
  | 1 => if x.toInt ≤ y.toInt then x else y
  | 2 => if x.toInt ≤ y.toInt then y else x
  | 3 => if x.toNat ≤ y.toNat then x else y
  | 4 => if x.toNat ≤ y.toNat then y else x
  | 5 => x &&& y
  | 6 => x ||| y
  | _ => x ^^^ y

/-- The conditions of SETP (R59): EQ, NE, and the signed and unsigned orders. -/
def comparison (c : BitVec 4) {w : Nat} (x y : BitVec w) : Bool :=
  match c.toNat with
  | 0 => decide (x = y)
  | 1 => decide (x ≠ y)
  | 2 => decide (x.toInt < y.toInt)
  | 3 => decide (x.toInt ≤ y.toInt)
  | 4 => decide (x.toInt > y.toInt)
  | 5 => decide (x.toInt ≥ y.toInt)
  | 6 => decide (x.toNat < y.toNat)
  | 7 => decide (x.toNat ≤ y.toNat)
  | 8 => decide (x.toNat > y.toNat)
  | _ => decide (x.toNat ≥ y.toNat)

/-! ### Registers that instructions of one shape use -/

/-- A twin with sources a and b (R57). -/
def usesTwin (v : Bool) (d a b : BitVec 7) (u : Bool) : Uses :=
  if v then ((Uses.rdU a.toNat).and (Uses.rdU b.toNat)).and (Uses.wrU d.toNat)
  else ((Uses.rdV a.toNat 1).and (Uses.rdB b u 1)).and (Uses.wrV d.toNat 1)

/-- A twin that also reads its destination (R57). -/
def usesTwin3 (v : Bool) (d a b : BitVec 7) (u : Bool) : Uses :=
  if v then (((Uses.rdU a.toNat).and (Uses.rdU b.toNat)).and (Uses.rdU d.toNat)).and (Uses.wrU d.toNat)
  else (((Uses.rdV a.toNat 1).and (Uses.rdB b u 1)).and (Uses.rdV d.toNat 1)).and (Uses.wrV d.toNat 1)

/-- A twin with one source. -/
def usesTwin1 (v : Bool) (d a : BitVec 7) : Uses :=
  if v then (Uses.rdU a.toNat).and (Uses.wrU d.toNat) else (Uses.rdV a.toNat 1).and (Uses.wrV d.toNat 1)

/-- A pair, a pair or 64-bit uniform, and a destination pair. -/
def usesPair (d a b : BitVec 7) (u : Bool) : Uses := ((Uses.rdV a.toNat 2).and (Uses.rdB b u 2)).and (Uses.wrV d.toNat 2)

/-- Two words and a destination pair that is also read. -/
def usesWide (d a b : BitVec 7) (u : Bool) : Uses :=
  (((Uses.rdV a.toNat 1).and (Uses.rdB b u 1)).and (Uses.rdV d.toNat 2)).and (Uses.wrV d.toNat 2)

/-- A twin with sources a, b and p13, and destinations d and p13 (R82). -/
def usesCarry (v : Bool) (d a b : BitVec 7) (u : Bool) : Uses :=
  if v then ((((Uses.rdU a.toNat).and (Uses.rdU b.toNat)).and (Uses.rdP 13)).and (Uses.wrU d.toNat)).and (Uses.wrP 13)
  else ((((Uses.rdV a.toNat 1).and (Uses.rdB b u 1)).and (Uses.rdP 13)).and (Uses.wrV d.toNat 1)).and (Uses.wrP 13)

/-! ### Floating point -/

/-- The instruction has completed, wrote lanes of one vector register, and ORed flags into the status (R41). -/
structure FpVec (s t : State) (n : Nat) (m : Mask) (f : Nat → Word) (fl : FpFlags) : Prop where
  kept : Kept s t
  advanced : Advanced s t
  vec : VecSet s t n m f
  uni : UniKept s t
  pred : PredKept s t
  status : t.me.fpstat = s.me.fpstat ||| fl

/-- The instruction has completed, wrote lanes of one register pair, and ORed flags into the status. -/
structure FpPair (s t : State) (n : Nat) (m : Mask) (f : Nat → Word64) (fl : FpFlags) : Prop where
  kept : Kept s t
  advanced : Advanced s t
  vec : VecSet2 s t n m f
  uni : UniKept s t
  pred : PredKept s t
  status : t.me.fpstat = s.me.fpstat ||| fl

/-- The registers of majors 0x20 to 0x27 (R127): pairs in .f64; s62 and s63 under dynamic rounding (R121). `two` says that b is read, `acc` that d is. -/
def usesFp (two acc : Bool) (t : BitVec 2) (r : Bool) (d a b : BitVec 7) (u : Bool) : Uses :=
  let k := if t = 1 then 2 else 1
  ((((Uses.rdV a.toNat k).and (if two then Uses.rdB b u k else Uses.none)).and
    (if acc then Uses.rdV d.toNat k else Uses.none)).and (Uses.rounds r)).and (Uses.wrV d.toNat k)

/-- The instruction gives d := op(a, b, d) in the type of code `t` under a rounding (R127, R128): .f32 and .f64 whole, .f16x2 and .bf16x2 in two halves that
do not depend on each other; the flags of every active lane and element are ORed into the status. -/
def GivesFp (i : Instr) (op : FpOp) (two acc : Bool) (mode : State → RMode) (t : BitVec 2) (r : Bool) (d a b : BitVec 7) (u : Bool) : Prop :=
  ∀ s : State, s.Quiet → s.Ready (usesFp two acc t r d a b u) →
    let act := lanesOf s.cur.active
    if t = 1 then
      let f := fun l => op .f64 (mode s) (s.rbits l 0) (s.rv2 a.toNat l).toNat (s.opb2T .f64 b u l).toNat (s.rv2 d.toNat l).toNat
      ∃ q, exec i s = .next q ∧ FpPair s q d.toNat s.cur.active (fun l => BitVec.ofNat 64 (f l).1) (act.foldl (fun x l => x ||| (f l).2) 0)
    else if t = 0 then
      let f := fun l => op .f32 (mode s) (s.rbits l 0) (s.rv a.toNat l).toNat (s.opbT .f32 b u l).toNat (s.rv d.toNat l).toNat
      ∃ q, exec i s = .next q ∧ FpVec s q d.toNat s.cur.active (fun l => BitVec.ofNat 32 (f l).1) (act.foldl (fun x l => x ||| (f l).2) 0)
    else
      let x := fun l => (s.rv a.toNat l).toNat
      let y := fun l => (s.opbT (if t = 2 then .f16 else .bf16) b u l).toNat
      let z := fun l => (s.rv d.toNat l).toNat
      let fmt := if t = 2 then Fmt.f16 else Fmt.bf16
      let lo := fun l => op fmt (mode s) (s.rbits l 0) (x l % 65536) (y l % 65536) (z l % 65536)
      let hi := fun l => op fmt (mode s) (s.rbits l 1) (x l / 65536) (y l / 65536) (z l / 65536)
      ∃ q, exec i s = .next q ∧ FpVec s q d.toNat s.cur.active (fun l => BitVec.ofNat 32 ((lo l).1 + (hi l).1 * 65536))
        (act.foldl (fun w l => w ||| ((lo l).2 ||| (hi l).2)) 0)

/-- The rounding of an instruction: RNE, or the mode in `fpctl.rm` (R128). -/
def roundingOf (r : Bool) (s : State) : RMode := if r then RMode.ofCode s.me.rm.toNat else .rne

/-! ### Memory instructions -/

/-- Every lane of a list passes the checks of an access (R150), no home holds it (R187, R331, R334), and the core has request places (R268). `oks` are the
lanes with the parts of their accesses: memory key, length and leaf. -/
structure State.Passes (s : State) (kind acc n al : Nat) (sup : Word64 → Bool) (va : Nat → Nat) (lanes : List Nat)
    (oks : List (Nat × List (Nat × Nat × Word64))) : Prop where
  access : s.access s.me.core s.myPasid acc n al sup va lanes = ⟨oks, [], []⟩
  held : s.holdAny kind va oks = none
  places : s.places s.me.core (placesOf oks) = true

/-- The fibre may issue a load-type access: no acquire part is open (R178). -/
def State.NoAcquire (s : State) : Prop := s.me.acqs = []

/-- A release at a scope need not wait, finds no failed write, and at system scope no posted host write without its flushing read (R177, R274, R284). -/
def State.CanRelease (s : State) (scope : Nat) : Prop :=
  s.released s.cur.fib scope = true ∧ s.me.wfail = false ∧ (scope = 4 → (s.core s.me.core).posted.any (fun e => e.1 == s.cur.fib) = false)

/-- The accesses of a workgroup meet no footprint machinery: it runs a task, or a launch that is not early and whose accesses are not checked (R325 to
R333). -/
def State.Unwatched (s : State) (w : Nat) : Prop := ∀ l, (s.wg w).launch = some l → (s.launch l).early = [] ∧ (s.launch l).fp ≠ .checked

/-- The fault ring of a context takes its next entry: it is not full and its memory does not fault (R310, R342). -/
def State.RingRoom (s : State) (p : Nat) : Prop :=
  (s.ctx p).faultRing.full = false ∧ (s.hubKeys p ((s.ctx p).faultRing.place (s.ctx p).faultRing.tail.toNat) 64 true).isSome = true

/-- `n` bytes from a key lie in one sector whose check holds (R275). -/
def State.GoodSector (s : State) (k n : Nat) : Prop := 0 < n ∧ k % 64 + n ≤ 64 ∧ s.sectorBad (sectorOf k) = false

/-- A step of an instruction that changed no register, no fibre but the issuing one, and no byte of memory. -/
structure OnlyPending (s t : State) : Prop where
  mem : t.mem = s.mem
  slots : t.slots = s.slots
  fibres : ∀ f, f ≠ s.cur.fib → t.fibre f = s.fibre f
  kept : s.me.Kept t.me
  frontier : t.me.frontier = s.me.frontier
  ureg : t.me.ureg = s.me.ureg
  pred : t.me.pred = s.me.pred
  status : t.me.fpstat = s.me.fpstat
  cur : t.cur = s.cur

/-- A pending write of the issuing instruction for a lane (R52): its values, its shadow, and its data not here yet. -/
structure Pending (s : State) (p : Pend) (la op lane : Nat) (vals : List PVal) : Prop where
  op : p.op = op
  lane : p.lane = lane
  vals : p.vals = vals
  shadow : p.shadow = la + 1
  arrived : p.arrived = false
  pc : p.pc = s.cur.pc
  npc : p.npc = s.cur.npc

/-- The instruction has issued, and values that it has already are pending behind its shadow (R52, R53): a younger reader in the shadow finds the old ones. -/
def GivesLate (i : Instr) (la : Nat) (vals : List PVal) (s : State) : Prop :=
  ∃ (w : State) (p : Pend), exec i s = .next w.finish ∧ OnlyPending s w ∧ w.me.pend = s.me.pend.map p.yield ++ [p] ∧ p.vals = vals ∧ p.shadow = la + 1
    ∧ p.arrived = true ∧ p.bad = false

/-- A value of a pending write stands in its register (R52). -/
def Landed (s t : State) (f : Nat) (v : PVal) : Prop :=
  match v.reg with
  | .v ph => (t.slot (s.slotOf f)).getV ph v.lane = v.val.extractLsb' 0 32
  | .u n => Sparse.get 0 n (t.fibre f).ureg = v.val
  | .p n => n = 15 ∨ (State.predMask (t.fibre f) n).getLsbD v.lane = (v.val != 0)

/-- A byte of memory after bytes are written from a key. -/
def BytesSet (s t : State) (k : Nat) (data : List Byte) : Prop :=
  ∀ a, rd8 t.mem a = if k ≤ a ∧ a < k + data.length then data.getD (a - k) 0 else rd8 s.mem a

/-- A finite value in units of 2^−2600, below which no sum of R123 has a bit; no other value counts. -/
def FVal.units : FVal → Int
  | .fin n m e => (if n then -1 else 1) * ((m * 2 ^ (e + 2600).toNat : Nat) : Int)
  | _ => 0

/-- What a held LDFUT of `k` words carries until its granule is answered: the number of each word's half, and p14 not yet known. -/
def heldVals (ph d k lane : Nat) : List PVal :=
  (List.range k).map (fun i => ⟨.v (ph + d + i), lane, BitVec.ofNat 64 i⟩) ++ [⟨.p 14, lane, 2⟩]

/-- Every LDFUT held for the granule has its data on the way (R171): the granule's words as memory now holds them, and p14 clear. -/
def FutAnswered (s t : State) (g : Nat) : Prop :=
  ∀ x ∈ s.dev.defer, x.granule = g → (∀ p ∈ (t.fibre x.fib).pend, p.fut ≠ some g)
    ∧ ∀ p ∈ (s.fibre x.fib).pend, p.fut = some g → ∀ ph d k lane, k ≤ 2 → p.vals = heldVals ph d k lane →
      ∃ q ∈ (t.fibre x.fib).pend, q.id = p.id ∧ q.fut = none ∧ q.vals = regVals ph d k lane (rdNum t.mem (8 * g) 8) ++ [⟨.p 14, lane, 0⟩]

/-! ### Engines -/

/-- The instruction has issued one engine operation (R36, R189): it stands last in the core's order, cnt.mat counts it, and no register and no byte of memory
has changed before the finish. -/
def IssuesEngine (i : Instr) (s : State) (op : EngOp) : Prop :=
  ∃ t : State, exec i s = .next t.finish ∧ t.mem = s.mem ∧ t.slots = s.slots ∧ (t.core s.me.core).eng = (s.core s.me.core).eng ++ [op]
    ∧ t.me.outst = s.me.outst ++ [⟨.mat, op.id, false⟩] ∧ s.me.Kept { t.me with outst := s.me.outst } ∧ t.me.frontier = s.me.frontier
    ∧ t.me.ureg = s.me.ureg ∧ t.me.pred = s.me.pred ∧ t.cur = s.cur

/-- The same, with a pending write of the fibre that the operation fills when it is performed (R204, R216, R217). -/
def IssuesEngineFor (i : Instr) (s : State) (op : EngOp) (la : Nat) (vals : List PVal) : Prop :=
  ∃ (t : State) (p : Pend), exec i s = .next t.finish ∧ t.mem = s.mem ∧ t.slots = s.slots ∧ (t.core s.me.core).eng = (s.core s.me.core).eng ++ [op]
    ∧ t.me.outst = s.me.outst ++ [⟨.mat, op.id, false⟩] ∧ t.me.frontier = s.me.frontier ∧ t.cur = s.cur ∧ t.me.pend = s.me.pend.map p.yield ++ [p]
    ∧ p.vals = vals ∧ p.eng = some op.id ∧ p.arrived = false ∧ p.shadow = la + 1

/-- The instruction has issued one state-store operation (R189, R212): it stands last in the core's order, the directory is `dir`, the workgroup is bound to the
core (R386), and no register and no byte of memory has changed before the finish. -/
def IssuesStateStore (i : Instr) (s : State) (op : EngOp) (dir : List SSEntry) : Prop :=
  ∃ t : State, exec i s = .next t.finish ∧ t.mem = s.mem ∧ t.slots = s.slots ∧ (t.core s.me.core).eng = (s.core s.me.core).eng ++ [op]
    ∧ (t.core s.me.core).ss = dir ∧ (t.wg s.me.wg).bound = true ∧ t.me.outst = s.me.outst ++ [⟨.mat, op.id, false⟩] ∧ t.me.frontier = s.me.frontier
    ∧ t.me.ureg = s.me.ureg ∧ t.me.pred = s.me.pred ∧ t.me.pend = s.me.pend ∧ t.cur = s.cur

/-- Operation `i` of core `c` of the chip may be performed now: it is there, every earlier conflicting access of the tile order has been performed (R190), and
it reads no bad word (R276). -/
def State.MayPerform (s : State) (c i : Nat) (o : EngOp) : Prop :=
  (s.core c).eng.find? (fun x => x.id == i) = some o ∧ o.broken = false ∧ (s.core c).tileReady i o.reads o.writes = true ∧ (s.core c).engBad o = false
    ∧ c < Config.cores

/-! ### Queues and packets -/

/-- Queue `q` may take its packet at ri now, and the packet's bits are `n` (R291 to R294): the queue is enabled and holds a slot, its context runs, no takeover is
under way, and the ring can be read. -/
structure State.PacketAt (s : State) (q n : Nat) : Prop where
  en : (s.queue q).en = true
  mapped : (s.queue q).mapped = true
  state : (s.queue q).state = .mapped
  pending : (s.queue q).ri ≠ (s.queue q).wi
  takeover : s.dev.mgmt.takeover = false
  live : (s.ctx (s.queue q).pasid.toNat).state = .active
  bits : s.hubNum (s.queue q).pasid.toNat (s.queue q).packetAddr 64 = some n

/-- The packet is of a kind, with no reserved bit in its header (R293). -/
def Packet (n kind : Nat) (hints : Bool) : Prop := bits n 7 0 = kind ∧ bits n 31 10 = 0 ∧ (hints = false → bits n 9 8 = 0)

/-- A step that changed device state and nothing else but the counter of the free values: no memory, no register, no fibre, no context. -/
def DeviceOnly (s t : State) : Prop := t = { s with dev := t.dev, tick := t.tick }

/-- The packet at ri of queue `q` has begun and is complete, and nothing else of the queues has changed (R289, R291). -/
def PacketPassed (s t : State) (q : Nat) : Prop :=
  t.queue q = { s.queue q with applied := some (s.queue q).ri, ri := (s.queue q).ri + 1, progress := s.clock } ∧ ∀ j, j ≠ q → t.queue j = s.queue j

/-- The PASID of a queue. -/
def State.queuePasid (s : State) (q : Nat) : Nat := (s.queue q).pasid.toNat

/-! ### Faults -/

/-- Lanes `m` of the issuing entry have left it for a new fault-parked entry at place `place`, with the instruction as replay address and `resume` as resume
address (R19 rule 5, R338), and one record of one page has gone to the fault ring (R342). No register, no rejoin mask and no byte outside the ring entry changed. -/
structure ParkedLanes (s t : State) (k : FKind) (acc page place : Nat) (resume : Word64) (hold : Nat) (m : Mask) : Prop where
  frontier : let y := (s.me.leave s.cur.age m).makeRoom
    t.me.frontier = y.frontier ++ [⟨.parked, s.cur.pc, resume, s.cur.prio, m, y.nextAge, false, 0, place, false, hold⟩]
  record : ∃ r : RecInfo, (t.ctx s.myPasid).recs = (s.ctx s.myPasid).recs ++ [r] ∧ r.kind = k.code ∧ r.acc = acc ∧ r.fib = s.cur.fib ∧ r.pc = s.cur.pc
    ∧ r.resume = resume ∧ r.lanes = m ∧ r.left = m ∧ r.page = page ∧ r.place = place ∧ bits r.image 7 0 = k.code
  ring : (t.ctx s.myPasid).faultRing = { (s.ctx s.myPasid).faultRing with tail := (s.ctx s.myPasid).faultRing.tail + 1 }
  contexts : ∀ q, q ≠ s.myPasid → t.ctx q = s.ctx q
  memory : ∀ ks, s.hubKeys s.myPasid ((s.ctx s.myPasid).faultRing.place (s.ctx s.myPasid).faultRing.tail.toNat) 64 true = some ks →
    ∀ a, (∀ e ∈ ks, a < e.1 ∨ e.1 + e.2 ≤ a) → rd8 t.mem a = rd8 s.mem a
  vector : ∀ j, (t.slot j).vreg = (s.slot j).vreg
  uniform : t.me.ureg = s.me.ureg
  predicate : t.me.pred = s.me.pred
  masks : t.me.masks = s.me.masks
  fibres : ∀ f, f ≠ s.cur.fib → t.fibre f = s.fibre f

/-- The lanes of a parked entry that a service leaves, and the other on-chip entries in order (R340, R345). -/
def Fibre.cutParked (x : Fibre) (place : Nat) (m : Mask) : List Entry :=
  (x.frontier.map (fun z => if z.kind == .parked && z.park == place then { z with mask := z.mask &&& ~~~m } else z)).filter (fun z => z.mask != 0)

/-- What the fields of a record hold fits them (R343). -/
structure FRec.Fits (r : FRec) : Prop where
  src : r.src < 4
  acc : r.acc < 4
  sub : r.sub < 16
  pasid : r.pasid < 2 ^ 20
  ltag : r.ltag < 2 ^ 8
  core : r.core < 2 ^ 8
  slot : r.slot < 2 ^ 4
  fibpos : r.fibpos < 4
  park : r.park < 4
  queue : r.queue < 2 ^ 16
  launch : r.launch < 2 ^ 32
  sfirst : r.sfirst < 2 ^ 16
  scount : r.scount < 2 ^ 16
  code : r.code < 2 ^ 32
  user : r.user < 2 ^ 32
  detail : r.detail < 2 ^ 64

/-! ### Fetch -/

/-- The issue of fibre `f` in slot `k` for entry `e`, with the words it has fetched in the instruction cache (R44, R265, R316). -/
def State.fetched (s : State) (k f : Nat) (e : Entry) (ws : List (Nat × Nat)) : State :=
  let t := { s.grant k f with cur := e.cur f }
  t.keepWords (s.fibre f).core (s.wg (s.fibre f).wg).pasid e.pc.toNat ws

/-- The same with an instruction latched: its next address (R45, R340) and its attributes. -/
def State.latched (s : State) (k f : Nat) (e : Entry) (ws : List (Nat × Nat)) (d : Decoded) : State :=
  let t := s.fetched k f e ws
  let npc := if e.replay = true ∧ e.resume ≠ e.pc then e.resume else e.pc + BitVec.ofNat 64 (4 * d.words)
  { t with cur := { e.cur f with npc := npc, attr := d.attr } }

/-- Nothing is to come from outside, and slot `k` issues for entry `e` of fibre `f` now: it is an issue clock, or no event changes anything (R315, R316). -/
structure State.Issues (s : State) (k f : Nat) (e : Entry) : Prop where
  agenda : s.agenda = []
  turn : s.clock % 2 = 0 ∨ s.nextEvent = none
  pick : s.pick = some (k, f)
  entry : (s.fibre f).issueEntry = some e

end Machine

end Sys2Proof
end

