-- ==== Sys2Proof/Certificates/Slice0/Obligations.lean ====
section
/-! DEFINITION. The statements for the provers. -/

section

open Sys2Proof Sys2Proof.Machine

/-- R82 to R84: the sixteen functions of majors 0x00 and 0x01, in vector and uniform form. ADDC and SUBB take p13 and write it: per active lane in vector
form; from the lowest active lane, to every active lane, in uniform form. A zero divisor gives all ones or returns a. Nothing else is written. -/
def Obligations.IntegerArithmetic : Prop :=
  (∀ (v : Bool) (d a b : BitVec 7) (u : Bool) (s : State), s.Ready (usesTwin v d a b u) → s.Quiet →
    GivesTwin (.add v d a b u) v d a b u (fun _ x y => x + y) s
    ∧ GivesTwin (.sub v d a b u) v d a b u (fun _ x y => x - y) s
    ∧ GivesTwin (.mul v d a b u) v d a b u (fun _ x y => x * y) s
    ∧ GivesTwin (.mulhiI v d a b u) v d a b u (fun w x y => (x.signExtend (2 * w) * y.signExtend (2 * w)).extractLsb' w w) s
    ∧ GivesTwin (.mulhiN v d a b u) v d a b u (fun w x y => (x.setWidth (2 * w) * y.setWidth (2 * w)).extractLsb' w w) s
    ∧ GivesTwin (.divI v d a b u) v d a b u (fun w x y => if y = 0 then BitVec.allOnes w else x.sdiv y) s
    ∧ GivesTwin (.divN v d a b u) v d a b u (fun w x y => if y = 0 then BitVec.allOnes w else x.udiv y) s
    ∧ GivesTwin (.remI v d a b u) v d a b u (fun _ x y => if y = 0 then x else x.srem y) s
    ∧ GivesTwin (.remN v d a b u) v d a b u (fun _ x y => if y = 0 then x else x.umod y) s)
  ∧ (∀ (v : Bool) (d a b : BitVec 7) (u : Bool) (s : State), s.Ready (usesTwin3 v d a b u) → s.Quiet →
    GivesTwin3 (.mad v d a b u) v d a b u (fun _ x y z => x * y + z) s)
  ∧ (∀ (d a b : BitVec 7) (u : Bool) (s : State), s.Ready (usesWide d a b u) → s.Quiet →
    GivesPair (.madWI d a b u) d (fun l => (s.rv a.toNat l).signExtend 64 * (s.opb b u l).signExtend 64 + s.rv2 d.toNat l) s
    ∧ GivesPair (.madWN d a b u) d (fun l => (s.rv a.toNat l).setWidth 64 * (s.opb b u l).setWidth 64 + s.rv2 d.toNat l) s)
  ∧ (∀ (d a b : BitVec 7) (u : Bool) (s : State), s.Ready (usesPair d a b u) → s.Quiet →
    GivesPair (.add64 d a b u) d (fun l => s.rv2 a.toNat l + s.opb2 b u l) s
    ∧ GivesPair (.sub64 d a b u) d (fun l => s.rv2 a.toNat l - s.opb2 b u l) s)
  ∧ (∀ (d a b : BitVec 7) (u : Bool) (s : State), s.Ready (usesCarry false d a b u) → s.Quiet →
    (∃ t, exec (.addc false d a b u) s = .next t ∧ Kept s t ∧ Advanced s t ∧ UniKept s t ∧ StatusKept s t
      ∧ VecSet s t d.toNat s.cur.active (fun l => s.rv a.toNat l + s.opb b u l + (BitVec.ofBool (s.rp 13 l)).setWidth 32)
      ∧ PredSet s t 13 s.cur.active (fun l => ((s.rv a.toNat l).toNat + (s.opb b u l).toNat + (s.rp 13 l).toNat).testBit 32))
    ∧ (∃ t, exec (.subb false d a b u) s = .next t ∧ Kept s t ∧ Advanced s t ∧ UniKept s t ∧ StatusKept s t
      ∧ VecSet s t d.toNat s.cur.active (fun l => s.rv a.toNat l - s.opb b u l - (BitVec.ofBool (s.rp 13 l)).setWidth 32)
      ∧ PredSet s t 13 s.cur.active (fun l => decide ((s.rv a.toNat l).toNat < (s.opb b u l).toNat + (s.rp 13 l).toNat))))
  ∧ (∀ (d a b : BitVec 7) (u : Bool) (low : Nat) (s : State), s.Ready (usesCarry true d a b u) → s.Quiet → lowestLane s.cur.active = some low →
    (∃ t, exec (.addc true d a b u) s = .next t ∧ Kept s t ∧ Advanced s t ∧ VecKept s t ∧ StatusKept s t
      ∧ UniSet s t d.toNat (s.usrc a.toNat + s.usrc b.toNat + (BitVec.ofBool (s.rp 13 low)).setWidth 64)
      ∧ PredSet s t 13 s.cur.active (fun _ => ((s.usrc a.toNat).toNat + (s.usrc b.toNat).toNat + (s.rp 13 low).toNat).testBit 64))
    ∧ (∃ t, exec (.subb true d a b u) s = .next t ∧ Kept s t ∧ Advanced s t ∧ VecKept s t ∧ StatusKept s t
      ∧ UniSet s t d.toNat (s.usrc a.toNat - s.usrc b.toNat - (BitVec.ofBool (s.rp 13 low)).setWidth 64)
      ∧ PredSet s t 13 s.cur.active (fun _ => decide ((s.usrc a.toNat).toNat < (s.usrc b.toNat).toNat + (s.rp 13 low).toNat))))

/-- R85: the sixteen functions of majors 0x02 and 0x03, in vector and uniform form. -/
def Obligations.LogicShiftMinMax : Prop :=
  (∀ (v : Bool) (d a b : BitVec 7) (u : Bool) (s : State), s.Ready (usesTwin v d a b u) → s.Quiet →
    GivesTwin (.and v d a b u) v d a b u (fun _ x y => x &&& y) s
    ∧ GivesTwin (.or v d a b u) v d a b u (fun _ x y => x ||| y) s
    ∧ GivesTwin (.xor v d a b u) v d a b u (fun _ x y => x ^^^ y) s
    ∧ GivesTwin (.andn v d a b u) v d a b u (fun _ x y => x &&& ~~~y) s
    ∧ GivesTwin (.shl v d a b u) v d a b u (fun _ x y => x <<< y.toNat) s
    ∧ GivesTwin (.shr v d a b u) v d a b u (fun _ x y => x >>> y.toNat) s
    ∧ GivesTwin (.sar v d a b u) v d a b u (fun _ x y => x.sshiftRight y.toNat) s
    ∧ GivesTwin (.rotl v d a b u) v d a b u (fun w x y => x <<< (y.toNat % w) ||| x >>> (w - y.toNat % w)) s
    ∧ GivesTwin (.minI v d a b u) v d a b u (fun _ x y => if x.sle y then x else y) s
    ∧ GivesTwin (.minN v d a b u) v d a b u (fun _ x y => if x.ule y then x else y) s
    ∧ GivesTwin (.maxI v d a b u) v d a b u (fun _ x y => if x.sle y then y else x) s
    ∧ GivesTwin (.maxN v d a b u) v d a b u (fun _ x y => if x.ule y then y else x) s)
  ∧ (∀ (v : Bool) (d a : BitVec 7) (u : Bool) (s : State), s.Ready (usesTwin1 v d a) → s.Quiet →
    GivesTwin1 (.popc v d a u) v d a (fun w x => BitVec.ofNat w ((List.range w).countP (fun i => x.getLsbD i))) s
    ∧ GivesTwin1 (.clz v d a u) v d a (fun w x => BitVec.ofNat w ((List.range w).takeWhile (fun i => !x.getLsbD (w - 1 - i))).length) s
    ∧ GivesTwin1 (.brev v d a u) v d a (fun w x => BitVec.ofFnLE (fun i : Fin w => x.getLsbD (w - 1 - i.val))) s
    ∧ GivesTwin1 (.abs v d a u) v d a (fun w x => BitVec.ofInt w x.toInt.natAbs) s)

/-- R86, R87: bit fields, byte permutation, moves and scaled addresses. The position of a field is b[7:0] and its length min(b[15:8], W − position). -/
def Obligations.FieldsAndAddresses : Prop :=
  (∀ (v : Bool) (d a b : BitVec 7) (u : Bool) (s : State), s.Ready (usesTwin v d a b u) → s.Quiet →
    GivesTwin (.bfxI v d a b u) v d a b u (fun w x y =>
      let pos := y.toNat % 256
      let len := min (y.toNat / 256 % 256) (w - pos)
      if len = 0 ∨ w ≤ pos then 0 else (x.extractLsb' pos len).signExtend w) s
    ∧ GivesTwin (.bfxN v d a b u) v d a b u (fun w x y =>
      let pos := y.toNat % 256
      let len := min (y.toNat / 256 % 256) (w - pos)
      if len = 0 ∨ w ≤ pos then 0 else (x.extractLsb' pos len).setWidth w) s)
  ∧ (∀ (v : Bool) (d a b : BitVec 7) (u : Bool) (s : State), s.Ready (usesTwin3 v d a b u) → s.Quiet →
    GivesTwin3 (.bfi v d a b u) v d a b u (fun w x y z =>
      let pos := y.toNat % 256
      let len := min (y.toNat / 256 % 256) (w - pos)
      BitVec.ofFnLE (fun i : Fin w => if pos ≤ i.val ∧ i.val < pos + len then x.getLsbD (i.val - pos) else z.getLsbD i.val)) s
    ∧ GivesTwin3 (.prmt v d a b u) v d a b u (fun w x y z =>
      BitVec.ofFnLE (fun i : Fin w =>
        let sel := z.extractLsb' (8 * (i.val / 8)) 8
        let src := (y ++ x).extractLsb' (8 * (sel.toNat % (w / 4))) 8
        if sel.getLsbD 4 then false else if sel.getLsbD 5 then src.getLsbD 7 else src.getLsbD (i.val % 8))) s)
  ∧ (∀ (d a b : BitVec 7) (u : Bool) (s : State), s.Quiet →
    (s.Ready ((Uses.rdB b u 1).and (Uses.wrV d.toNat 1)) → GivesVec (.mov false d b u) d (fun l => s.opb b u l) s)
    ∧ (s.Ready (usesTwin1 true d b) → GivesUni (.mov true d b u) d (s.usrc b.toNat) s)
    ∧ (s.Ready (((Uses.rdV a.toNat 2).and (Uses.rdB b u 1)).and (Uses.wrV d.toNat 2)) →
      GivesPair (.lea1 false d a b u) d (fun l => s.rv2 a.toNat l + (s.opb b u l).setWidth 64 * 1) s
      ∧ GivesPair (.lea2 false d a b u) d (fun l => s.rv2 a.toNat l + (s.opb b u l).setWidth 64 * 2) s
      ∧ GivesPair (.lea4 false d a b u) d (fun l => s.rv2 a.toNat l + (s.opb b u l).setWidth 64 * 4) s
      ∧ GivesPair (.lea8 false d a b u) d (fun l => s.rv2 a.toNat l + (s.opb b u l).setWidth 64 * 8) s)
    ∧ (s.Ready (usesTwin true d a b u) →
      GivesUni (.lea1 true d a b u) d (s.usrc a.toNat + s.usrc b.toNat * 1) s
      ∧ GivesUni (.lea2 true d a b u) d (s.usrc a.toNat + s.usrc b.toNat * 2) s
      ∧ GivesUni (.lea4 true d a b u) d (s.usrc a.toNat + s.usrc b.toNat * 4) s
      ∧ GivesUni (.lea8 true d a b u) d (s.usrc a.toNat + s.usrc b.toNat * 8) s))

/-- R88, R89: immediate forms and ICVT. An immediate is truncated to 32 bits in vector form and sign-extended to 64 bits in uniform form. ICVT reads the
source type from the low bits, clamps or wraps to the destination type, and extends the result by its sign. -/
def Obligations.ImmediatesAndConversion : Prop :=
  (∀ (v : Bool) (d a : BitVec 7) (s : State), s.Ready (usesTwin1 v d a) → s.Quiet →
    (∀ i : BitVec 38, ∃ t, exec (.addImm v d a i) s = .next t
      ∧ TwinResult s t v d (fun l => s.rv a.toNat l + i.setWidth 32) (s.usrc a.toNat + i.signExtend 64))
    ∧ (∀ c : BitVec 6, GivesTwin1 (.shlImm v d a c) v d a (fun _ x => x <<< c.toNat) s
      ∧ GivesTwin1 (.shrImm v d a c) v d a (fun _ x => x >>> c.toNat) s
      ∧ GivesTwin1 (.sarImm v d a c) v d a (fun _ x => x.sshiftRight c.toNat) s
      ∧ GivesTwin1 (.rotlImm v d a c) v d a (fun w x => x <<< (c.toNat % w) ||| x >>> (w - c.toNat % w)) s))
  ∧ (∀ (d : BitVec 7) (i : BitVec 38) (s : State), s.Quiet →
    (s.Ready (Uses.wrV d.toNat 1) → GivesVec (.movi false d i) d (fun _ => i.setWidth 32) s)
    ∧ (s.Ready (Uses.wrU d.toNat) → GivesUni (.movi true d i) d (i.signExtend 64) s))
  ∧ (∀ (d a : BitVec 7) (sat : Bool) (src dst : BitVec 4) (s : State), s.Quiet → src.toNat < 8 → dst.toNat < 8 →
    (s.Ready (usesTwin1 true d a) → GivesUni (.icvt true d a sat src dst) d (icvtSpec sat src dst (s.usrc a.toNat)) s)
    ∧ (s.Ready ((Uses.rdV a.toNat (if src.toNat % 4 = 3 then 2 else 1)).and (Uses.wrV d.toNat (if dst.toNat % 4 = 3 then 2 else 1))) →
      let x := fun l => if src.toNat % 4 = 3 then s.rv2 a.toNat l else (s.rv a.toNat l).setWidth 64
      if dst.toNat % 4 = 3 then GivesPair (.icvt false d a sat src dst) d (fun l => icvtSpec sat src dst (x l)) s
      else GivesVec (.icvt false d a sat src dst) d (fun l => (icvtSpec sat src dst (x l)).setWidth 32) s))

/-- R90 to R92 and R96: selection, comparison, predicate logic and votes. A write to p15 is discarded (R34). -/
def Obligations.SelectAndPredicates : Prop :=
  (∀ (d a b : BitVec 7) (u : Bool) (p : BitVec 4) (s : State), s.Quiet →
    s.Ready ((((Uses.rdV a.toNat 1).and (Uses.rdB b u 1)).and (Uses.rdP p.toNat)).and (Uses.wrV d.toNat 1)) →
    GivesVec (.sel d a b u p) d (fun l => if s.rp p.toNat l then s.rv a.toNat l else s.opb b u l) s)
  ∧ (∀ (p c : BitVec 4) (a b : BitVec 7) (u : Bool) (s : State), s.Quiet → c.toNat ≤ 9 →
    (s.Ready (((Uses.rdV a.toNat 1).and (Uses.rdB b u 1)).and (Uses.wrP p.toNat)) →
      GivesPred (.setp 0 p a b u c) p (fun l => comparison c (s.rv a.toNat l) (s.opb b u l)) s)
    ∧ (s.Ready (((Uses.rdV a.toNat 2).and (Uses.rdB b u 2)).and (Uses.wrP p.toNat)) →
      GivesPred (.setp 1 p a b u c) p (fun l => comparison c (s.rv2 a.toNat l) (s.opb2 b u l)) s))
  ∧ (∀ (d a b : BitVec 4) (s : State), s.Quiet → s.Ready (((Uses.rdP a.toNat).and (Uses.rdP b.toNat)).and (Uses.wrP d.toNat)) →
    GivesPred (.pand d a b) d (fun l => s.rp a.toNat l && s.rp b.toNat l) s
    ∧ GivesPred (.por d a b) d (fun l => s.rp a.toNat l || s.rp b.toNat l) s
    ∧ GivesPred (.pxor d a b) d (fun l => s.rp a.toNat l ^^ s.rp b.toNat l) s)
  ∧ (∀ (d a : BitVec 4) (s : State), s.Quiet → s.Ready ((Uses.rdP a.toNat).and (Uses.wrP d.toNat)) →
    GivesPred (.pnot d a) d (fun l => !s.rp a.toNat l) s
    ∧ GivesPred (.pmov d a) d (fun l => s.rp a.toNat l) s
    ∧ GivesPred (.voteAll d a) d (fun _ => (lanesOf s.cur.active).all (fun k => s.rp a.toNat k)) s
    ∧ GivesPred (.voteAny d a) d (fun _ => (lanesOf s.cur.active).any (fun k => s.rp a.toNat k)) s)
  ∧ (∀ (d : BitVec 7) (a : BitVec 4) (s : State), s.Quiet → s.Ready ((Uses.rdP a.toNat).and (Uses.wrU d.toNat)) →
    GivesUni (.voteBallot d a) d ((maskOf ((lanesOf s.cur.active).filter (fun k => s.rp a.toNat k))).setWidth 64) s)

/-- R93 to R95, R97: exchanges between lanes. Lane(n, j) is the register as held before the instruction, and 0 of an absent lane. A slide whose source lies
outside 0 to 31 keeps the destination. WRLANE writes its lane even when it is inactive, and nothing when it is absent. -/
def Obligations.LaneExchange : Prop :=
  (∀ (d a b : BitVec 7) (u : Bool) (m : BitVec 2) (s : State), s.Quiet →
    s.Ready ((((Uses.fromV a.toNat (fun l => shflLane m.toNat l (s.opb b u l))).and (Uses.rdB b u 1)).and (if m = 2 then Uses.rdV d.toNat 1 else Uses.none)).and (Uses.wrV d.toNat 1)) →
    GivesVec (.shfl d a b u m) d (fun l =>
      let j := shflSource m l (s.opb b u l)
      if 0 ≤ j ∧ j ≤ 31 then (if s.me.present.getLsbD j.toNat then s.rv a.toNat j.toNat else 0) else s.rv d.toNat l) s)
  ∧ (∀ (d a : BitVec 7) (m : BitVec 2) (s : State), s.Quiet → m.toNat ≤ 2 → 
    s.Ready ((Uses.fromV a.toNat (fun l => some (Nat.xor l (m.toNat + 1)))).and (Uses.wrV d.toNat 1)) →
    GivesVec (.qswap d a m) d (fun l =>
      let j := l ^^^ (m.toNat + 1)
      if s.me.present.getLsbD j then s.rv a.toNat j else 0) s)
  ∧ (∀ (d a : BitVec 7) (o : BitVec 3) (s : State), s.Quiet → s.Ready ((Uses.rdV a.toNat 1).and (Uses.wrU d.toNat)) →
    ∀ (first : Nat) (rest : List Nat), lanesOf s.cur.active = first :: rest →
      let r := (rest.map (s.rv a.toNat)).foldl (reduction o) (s.rv a.toNat first)
      GivesUni (.redux d a o) d (if o.toNat ≤ 2 then r.signExtend 64 else r.setWidth 64) s)
  ∧ (∀ (d a b : BitVec 7) (s : State), s.Quiet → 
    s.Ready (((Uses.lanesV a.toNat [((s.usrc b.toNat).toNat % 32, allLanes)]).and (Uses.rdU b.toNat)).and (Uses.wrU d.toNat)) →
    let j := (s.usrc b.toNat).toNat % 32
    GivesUni (.rdlane d a b) d ((if s.me.present.getLsbD j then s.rv a.toNat j else 0).setWidth 64) s)
  ∧ (∀ (d a b : BitVec 7) (s : State), s.Quiet →
    s.Ready (((Uses.rdU a.toNat).and (Uses.rdU b.toNat)).and (Uses.wrLane d.toNat ((s.usrc b.toNat).toNat % 32))) →
    let j := (s.usrc b.toNat).toNat % 32
    ∃ t, exec (.wrlane d a b) s = .next t
      ∧ VecResult s t d.toNat (if s.me.present.getLsbD j then maskOf [j] else 0) (fun _ => (s.usrc a.toNat).setWidth 32))

/-- R98 to R101: branches. The lanes of the issuing entry that take the branch stand at the target, the branch's address + 4 × offset, in an entry of the
branch's prio; the others stand at the next address. An entry that moves whole keeps its creation number. CALL writes the next address to its link pair in
every lane. BRX and RET clear bits [1:0] of the target; this is said for lanes that agree on their target. The frontier has a free place and no entry that
would merge. -/
def Obligations.BranchesMoveLanes : Prop :=
  ∀ (e : Entry) (s : State), s.Quiet → Issuing s e → s.clearAt s.cur.npc →
    (∀ (p c : BitVec 4) (n : Bool) (o : BitVec 42), s.Ready (Uses.rdP c.toNat) →
      let tgt := s.cur.pc + 4 * o.signExtend 64
      s.clearAt tgt → tgt ≠ s.cur.npc →
      (let taken := maskOf ((lanesOf s.cur.mask).filter (fun l => s.rp c.toNat l ^^ n))
      ∃ t, exec (.br p c n o) s = .next t ∧ Still s t ∧ s.me.Kept t.me ∧ t.me.frontier = s.others ++
        if taken = 0 then [.at_ s.cur.npc e.prio s.cur.mask s.cur.age]
        else if taken = s.cur.mask then [.at_ tgt p s.cur.mask s.cur.age]
        else [.at_ s.cur.npc e.prio (s.cur.mask &&& ~~~taken) s.cur.age, .at_ tgt p taken s.me.nextAge])
      ∧ (∀ low, lowestLane s.cur.mask = some low →
        ∃ t, exec (.jmp p c n o) s = .next t ∧ Still s t ∧ s.me.Kept t.me ∧ t.me.frontier = s.others ++
          [if (s.rp c.toNat low ^^ n) = true then .at_ tgt p s.cur.mask s.cur.age else .at_ s.cur.npc e.prio s.cur.mask s.cur.age]))
    ∧ (∀ (p : BitVec 4) (l : BitVec 5) (o : BitVec 42), s.Ready (Uses.wrV (2 * l.toNat) 2) →
      let tgt := s.cur.pc + 4 * o.signExtend 64
      s.clearAt tgt →
      ∃ t, exec (.call p l o) s = .next t ∧ Kept s t ∧ UniKept s t ∧ PredKept s t ∧ StatusKept s t
        ∧ VecSet2 s t (2 * l.toNat) s.cur.mask (fun _ => s.cur.npc)
        ∧ t.me.frontier = s.others ++ [.at_ tgt p s.cur.mask s.cur.age])
    ∧ (∀ (a : BitVec 7) (p : BitVec 4) (tgt : Word64), s.Ready (Uses.rdV a.toNat 2) → s.clearAt tgt → tgt ≠ s.cur.npc →
      s.cur.active &&& s.cur.mask = s.cur.active → (∀ l ∈ lanesOf s.cur.active, s.rv2 a.toNat l &&& ~~~(3 : Word64) = tgt) →
      ∀ i ∈ [Instr.brx a p, Instr.ret a p],
        ∃ t, exec i s = .next t ∧ Still s t ∧ s.me.Kept t.me ∧ t.me.frontier = s.others ++
          if s.cur.active = s.cur.mask then [.at_ tgt p s.cur.mask s.cur.age]
          else [.at_ s.cur.npc e.prio (s.cur.mask &&& ~~~s.cur.active) s.cur.age, .at_ tgt p s.cur.active s.me.nextAge])

/-- R102, R107, R108: NOP, EXIT, FSW and FBAR. EXIT retires its active lanes and the others advance; the fibre exits with its last lane, is
fault-stopped when only parked lanes are left, and either way its slot passes issue. FSW passes the slot. FBAR arrives and waits; when every fibre of the slot that has not exited, those moved off the core included, has
arrived, all leave it, ready where a lane can run, the arrivals are cleared and the generation flips. An exit that takes the last enrolled lanes that have not arrived out of a rejoin
mask releases the mask (R25). -/
def Obligations.ExitAndSlotPass : Prop :=
  (∀ s : State, s.Quiet → s.Ready Uses.none → ∃ t, exec .nop s = .next t ∧ PlainResult s t)
  ∧ (∀ (e : Entry) (s : State), s.Quiet → s.Ready Uses.none → Issuing s e → s.clearAt s.cur.npc → s.me.masks = [] → s.mySlot.fbarIn = [] →
    s.me.resident = true → s.me.extracted = false → (∀ p ∈ s.me.pend, p.arrived = false) →
    s.cur.active &&& s.cur.mask = s.cur.active → (∀ x ∈ s.others, x.mask &&& s.cur.active = 0 ∧ x.mask ≠ 0) →
    let runs := s.others.any (fun x => x.kind == .run)
    ∃ t, exec .exit s = .next t ∧ t.mem = s.mem ∧ Around s t ∧ VecKept s t ∧ UniKept s t ∧ PredKept s t
      ∧ t.me.frontier = s.others ++ (if s.cur.active = s.cur.mask then []
        else [.at_ s.cur.npc e.prio (s.cur.mask &&& ~~~s.cur.active) s.cur.age])
      ∧ (t.me.status = if s.cur.active ≠ s.cur.mask ∨ runs = true then .ready else if s.others = [] then .exited else .faultStopped)
      ∧ (s.cur.active = s.cur.mask ∧ runs = false → t.mySlot.issuing ≠ some s.cur.fib))
  ∧ (∀ s : State, s.Quiet → s.Ready Uses.none → ∃ t, exec .fsw s = .next t ∧ t.mem = s.mem ∧ Around s t ∧ VecKept s t ∧ UniKept s t ∧ PredKept s t
    ∧ StatusKept s t ∧ s.me.Kept t.me ∧ Advanced s t ∧ t.me.status = .ready
    ∧ t.mySlot.issuing = (if s.mySlot.issuing = some s.cur.fib then none else s.mySlot.issuing)
    ∧ t.mySlot.last = (if s.mySlot.issuing = some s.cur.fib then s.me.pos else s.mySlot.last))
  ∧ (∀ s : State, s.Quiet → s.Ready Uses.none → s.me.pend = [] →
    ∃ w, exec .fbar s = .next (w.fbarCheck (s.slotOf s.cur.fib)) ∧ w.mem = s.mem ∧ Around s w ∧ VecKept s w ∧ UniKept s w ∧ PredKept s w ∧ StatusKept s w
      ∧ s.me.Kept w.me ∧ Advanced s w ∧ w.me.status = .atFbar ∧ w.mySlot.fbarIn = s.mySlot.fbarIn ++ [s.cur.fib] ∧ w.mySlot.fbarGen = s.mySlot.fbarGen)
  ∧ (∀ (s : State) (k : Nat),
    let fs := s.partsOf k
    ((∃ f ∈ fs, f ∉ (s.slot k).fbarIn) → s.fbarCheck k = s)
    ∧ (fs ≠ [] → (∀ f ∈ fs, f ∈ (s.slot k).fbarIn) →
      (∀ f ∈ fs, let x := s.fibre f
        let st := ((s.fbarCheck k).fibre f).status
        (x.resident = true → x.extracted = false → x.hasRun = true → st = .ready)
        ∧ (x.resident = true → x.extracted = false → x.hasRun = false → x.lanes ≠ 0 → st = if x.waitsJwt then .blocked .rejoin else .faultStopped)
        ∧ (x.resident = true → x.extracted = true → st = .faultStopped) ∧ (x.resident = false → st = .blocked .partners))
      ∧ ((s.fbarCheck k).slot k).fbarIn = [] ∧ ((s.fbarCheck k).slot k).fbarGen = !(s.slot k).fbarGen ∧ (s.fbarCheck k).mem = s.mem))
  ∧ (∀ (e : Entry) (j : Nat) (r : Rejoin) (s : State), s.Quiet → s.Ready Uses.none → Issuing s e → s.clearAt s.cur.npc → s.me.masks = [(j, r)] →
    s.cur.active &&& s.cur.mask = s.cur.active → r.arrived ≠ 0 → r.arrived &&& s.cur.active = 0 → r.enrolled &&& s.cur.active ≠ 0 →
    r.enrolled &&& ~~~s.cur.active = r.arrived →
    let rest := if s.cur.active = s.cur.mask then [] else [Entry.at_ s.cur.npc e.prio (s.cur.mask &&& ~~~s.cur.active) s.cur.age]
    (∀ x ∈ s.others ++ rest, x.kind = .run → x.replay = false → x.pc ≠ r.wnext) →
    ∃ t, exec .exit s = .next t ∧ Still s t ∧ t.me.status = .ready ∧ t.me.masks = []
      ∧ t.me.frontier = s.others ++ rest ++ [.at_ r.wnext r.wprio r.arrived s.me.nextAge])

/-- R24: rejoin masks. JEN enrols the active lanes. A JWT parks the enrolled active lanes and lets the others pass; a fibre whose lanes
all wait so is blocked and its slot passes issue (R15). When all enrolled lanes have arrived
they re-enter the frontier at the next address of the JWT with the priority of the first arrival, and the mask is cleared. A JWT at another address than the one
where lanes have arrived takes the illegal-rejoin fault in its enrolled lanes. JSTR strikes the active lanes. -/
def Obligations.RejoinMasks : Prop :=
  ∀ (j : BitVec 3) (s : State), s.Quiet → s.Ready Uses.none →
    let r := Sparse.get Rejoin.zero j.toNat s.me.masks
    (∃ t, exec (.jen j) s = .next t ∧ Still s t ∧ Advanced s t ∧ s.me.Kept { t.me with masks := s.me.masks }
      ∧ ∀ k, Sparse.get Rejoin.zero k t.me.masks =
        if k = j.toNat then { r with enrolled := r.enrolled ||| s.cur.active } else Sparse.get Rejoin.zero k s.me.masks)
    ∧ (s.cur.active &&& r.enrolled = 0 → ∃ t, exec (.jwt j) s = .next t ∧ PlainResult s t)
    ∧ (s.cur.active &&& r.enrolled ≠ 0 → r.arrived ≠ 0 → r.wpc ≠ s.cur.pc → exec (.jwt j) s =
      .next (s.splitFaults ((lanesOf (s.cur.active &&& r.enrolled)).map (fun l => ⟨l, .illegalRejoin, 0, 0, 0, 0⟩)) Uses.none (fun _ u => u)))
    ∧ (∀ e, Issuing s e → s.clearAt s.cur.npc → s.cur.active &&& s.cur.mask = s.cur.active →
      let enr := s.cur.active &&& r.enrolled
      enr ≠ 0 → r.arrived = 0 ∨ r.wpc = s.cur.pc →
      let r' : Rejoin := if r.arrived = 0 then ⟨r.enrolled, enr, s.cur.pc, s.cur.npc, s.cur.prio⟩ else { r with arrived := r.arrived ||| enr }
      let rest := if enr = s.cur.mask then [] else [Entry.at_ s.cur.npc e.prio (s.cur.mask &&& ~~~enr) s.cur.age]
      (r'.arrived ≠ r'.enrolled → s.me.resident = true → s.me.extracted = false →
        let runs := (s.others ++ rest).any (fun x => x.kind == .run)
        ∃ t, exec (.jwt j) s = .next t ∧ t.mem = s.mem ∧ Around s t ∧ VecKept s t ∧ UniKept s t ∧ PredKept s t ∧ StatusKept s t
        ∧ t.me.frontier = s.others ++ rest ∧ (t.me.status = if runs = true then .ready else .blocked .rejoin)
        ∧ (runs = false → t.mySlot.issuing ≠ some s.cur.fib)
        ∧ ∀ k, Sparse.get Rejoin.zero k t.me.masks = if k = j.toNat then r' else Sparse.get Rejoin.zero k s.me.masks)
      ∧ (r'.arrived = r'.enrolled → (∀ x ∈ s.others ++ rest, x.kind = .run → x.replay = false → x.pc ≠ r'.wnext) →
        ∃ t, exec (.jwt j) s = .next t ∧ Still s t ∧ t.me.frontier = s.others ++ rest ++ [.at_ r'.wnext r'.wprio r'.arrived s.me.nextAge]
        ∧ ∀ k, Sparse.get Rejoin.zero k t.me.masks = if k = j.toNat then Rejoin.zero else Sparse.get Rejoin.zero k s.me.masks))
    ∧ (∀ e, Issuing s e → s.clearAt s.cur.npc →
      let kept := r.arrived &&& ~~~s.cur.active
      let frontier := s.others ++ [Entry.at_ s.cur.npc e.prio s.cur.mask s.cur.age]
      (¬(kept ≠ 0 ∧ kept = r.enrolled &&& ~~~s.cur.active) → (r.enrolled ||| r.arrived) &&& s.cur.active ≠ 0 →
        ∃ t, exec (.jstr j) s = .next t ∧ Still s t ∧ t.me.frontier = frontier
        ∧ (Sparse.get Rejoin.zero j.toNat t.me.masks).enrolled = r.enrolled &&& ~~~s.cur.active
        ∧ (Sparse.get Rejoin.zero j.toNat t.me.masks).arrived = kept)
      ∧ (kept ≠ 0 ∧ kept = r.enrolled &&& ~~~s.cur.active → (r.enrolled ||| r.arrived) &&& s.cur.active ≠ 0 →
        (∀ x ∈ frontier, x.kind = .run → x.replay = false → x.pc ≠ r.wnext) →
        ∃ t, exec (.jstr j) s = .next t ∧ Still s t ∧ t.me.frontier = frontier ++ [.at_ r.wnext r.wprio kept s.me.nextAge]
        ∧ Sparse.get Rejoin.zero j.toNat t.me.masks = Rejoin.zero))

/-- R104 to R106: the window. WBASE sets the base; an illegal base raises the illegal-register fault with the base unchanged. GROW takes available granules:
one taken from the free pool reads zero, one already granted keeps its contents. Where one is missing, the GROW waits, and takes the grow-deadlock fault when no fibre of the slot can
go on; in a task it triggers the split. SHRINK gives back the top granules. A GROW or SHRINK of 0 has no effect. -/
def Obligations.WindowControl : Prop :=
  (∀ (b : BitVec 6) (s : State), s.Quiet → s.Ready Uses.none → b.toNat + s.me.size ≤ 64 → granules b.toNat s.me.size &&& ~~~s.me.granted = 0 →
    ∃ t, exec (.wbase b) s = .next t ∧ Still s t ∧ Advanced s t ∧ t.me.base = b.toNat ∧ s.me.Kept { t.me with base := s.me.base })
  ∧ (∀ (b : BitVec 6) (s : State), 64 < b.toNat + s.me.size ∨ granules b.toNat s.me.size &&& ~~~s.me.granted ≠ 0 →
    exec (.wbase b) s = .next (s.precise .illegalRegister 0))
  ∧ (∀ (n : BitVec 5) (s : State), s.Quiet → s.Ready Uses.none → n ≠ 0 → s.me.size + n.toNat ≤ 16 → s.me.base + s.me.size + n.toNat ≤ 64 →
    (s.myWg.isTask = true → taskVwin s.myWg.task = 0 ∨ s.me.size + n.toNat ≤ taskVwin s.myWg.task) → s.me.deadlock = false →
    let want := (List.range n.toNat).map (fun i => s.me.base + s.me.size + i)
    (∀ g ∈ want, s.me.granted.getLsbD g = true ∨ s.granuleFree (s.slotOf s.cur.fib) g = true) →
    ∃ t, exec (.grow n) s = .next t ∧ t.mem = s.mem ∧ Around s t ∧ UniKept s t ∧ PredKept s t ∧ StatusKept s t ∧ Advanced s t
      ∧ s.me.Kept { t.me with size := s.me.size, granted := s.me.granted }
      ∧ t.me.size = s.me.size + n.toNat ∧ t.me.granted = s.me.granted ||| granules (s.me.base + s.me.size) n.toNat
      ∧ ∀ ph l, l < 32 → t.mySlot.getV ph l = if ph / 8 ∈ want ∧ s.me.granted.getLsbD (ph / 8) = false then 0 else s.mySlot.getV ph l)
  ∧ (∀ (n : BitVec 5) (s : State), s.Quiet → s.Ready Uses.none → n.toNat ≤ s.me.size →
    ∃ t, exec (.shrink n) s = .next t ∧ Still s t ∧ Advanced s t ∧ s.me.Kept { t.me with size := s.me.size, granted := s.me.granted }
      ∧ t.me.size = s.me.size - n.toNat
      ∧ t.me.granted = s.me.granted &&& ~~~granules (s.me.base + s.me.size - n.toNat) n.toNat)
  ∧ (∀ s : State, s.Quiet → s.Ready Uses.none → s.me.size ≤ 16 → s.me.base + s.me.size ≤ 64 → ∃ t, exec (.grow 0) s = .next t ∧ PlainResult s t)
  ∧ (∀ (n : BitVec 5) (s : State), 16 < s.me.size + n.toNat ∨ 64 < s.me.base + s.me.size + n.toNat → exec (.grow n) s = .next (s.precise .illegalRegister 0))
  ∧ (∀ (n : BitVec 5) (s : State), s.me.size < n.toNat → exec (.shrink n) s = .next (s.precise .illegalRegister 0))
  ∧ (∀ (n : BitVec 5) (s : State), s.Ready Uses.none → n ≠ 0 → s.me.size + n.toNat ≤ 16 → s.me.base + s.me.size + n.toNat ≤ 64 →
    let missing := ∃ i, i < n.toNat ∧ s.me.granted.getLsbD (s.me.base + s.me.size + i) = false
      ∧ s.granuleFree (s.slotOf s.cur.fib) (s.me.base + s.me.size + i) = false
    (s.me.deadlock = false → s.myWg.isTask = false → missing → exec (.grow n) s = .next (s.stall (.grow n.toNat)).growDeadlock)
    ∧ (s.me.deadlock = false → s.myWg.isTask = true → missing → exec (.grow n) s = .next (s.trigger s.me.wg s.cur.pc))
    ∧ (s.me.deadlock = true → exec (.grow n) s = .next (s.growFault n.toNat s.cur.fib)))
  ∧ (∀ s : State, (∃ f ∈ s.partsOf (s.slotOf s.cur.fib), ∀ n, (s.fibre f).status ≠ .blocked (.grow n)) → s.growDeadlock = s)
  ∧ (∀ (n f : Nat) (e : Entry) (s : State), bestEntry Entry.before ((s.fibre f).frontier.filter (fun e => e.kind == .run)) = some e →
    let t := ({ s with cur := ⟨f, e.age, e.pc, e.pc, e.mask, e.mask, e.prio, Attr.none, false⟩ } : State).precise .growDeadlock (n + (s.fibre f).size * 256)
    let u := s.growFault n f
    u.cur = s.cur ∧ u.mem = t.mem ∧ u.slots = t.slots ∧ (u.fibre f).frontier = (t.fibre f).frontier ∧ (u.fibre f).status = (t.fibre f).status)

/-- R127 to R135: the functions of majors 0x20 to 0x27, in every type and rounding that has them. The transcendental functions, FRSQ and the even majors round
to nearest even; FRND takes its own mode, and the dynamic one when that is 5. Nothing but d and the status is written. (Model's choices: log 9.) -/
def Obligations.FloatingPoint : Prop :=
  (∀ (t : BitVec 2) (r : Bool) (d a b : BitVec 7) (u : Bool),
    GivesFp (.fadd t r d a b u) fpAdd true false (roundingOf r) t r d a b u
    ∧ GivesFp (.fsub t r d a b u) fpSub true false (roundingOf r) t r d a b u
    ∧ GivesFp (.fmul t r d a b u) fpMul true false (roundingOf r) t r d a b u
    ∧ GivesFp (.fma t r d a b u) fpFma true true (roundingOf r) t r d a b u
    ∧ GivesFp (.fmin t r d a b u) (fpMinMax false) true false (roundingOf r) t r d a b u
    ∧ GivesFp (.fmax t r d a b u) (fpMinMax true) true false (roundingOf r) t r d a b u
    ∧ GivesFp (.fdiv t r d a b u) fpDiv true false (roundingOf r) t r d a b u
    ∧ GivesFp (.frcp t r d a) fpRcp false false (roundingOf r) t r d a 0 true
    ∧ GivesFp (.fsqrt t r d a) fpSqrt false false (roundingOf r) t r d a 0 true
    ∧ ∀ m : BitVec 3, GivesFp (.frnd t r d a m) fpRnd false false (fun s => RMode.ofCode (if m = 5 then s.me.rm.toNat else m.toNat)) t (m == 5) d a 0 true)
  ∧ (∀ d a : BitVec 7,
    GivesFp (.frsq d a) fpRsq false false (fun _ => .rne) 0 false d a 0 true
    ∧ GivesFp (.fexp2 d a) fpExp2 false false (fun _ => .rne) 0 false d a 0 true
    ∧ GivesFp (.flog2 d a) fpLog2 false false (fun _ => .rne) 0 false d a 0 true
    ∧ GivesFp (.fsinpi d a) fpSinPi false false (fun _ => .rne) 0 false d a 0 true
    ∧ GivesFp (.fcospi d a) fpCosPi false false (fun _ => .rne) 0 false d a 0 true)
  ∧ (∀ (t : BitVec 2) (r : Bool) (d a : BitVec 7) (s : State), s.Quiet → s.Ready ((Uses.rdV a.toNat (if t = 1 then 2 else 1)).and (Uses.wrV d.toNat 1)) →
    GivesVec (.fclass t r d a) d (fun l => BitVec.ofNat 32
      (if t = 1 then fclassBits .f64 (s.rv2 a.toNat l).toNat else fclassBits .f32 (s.rv a.toNat l).toNat)) s)

/-- R119, R121: the modes of rounding. For a magnitude m × 2^e and a coarser grid 2^g, the kept multiple k lies next to m / 2^(g−e): at or below it under RZ,
at or above it under RU for a positive and under RD for a negative value, nearest with ties to even under RNE, and under SR the next one exactly when the
random bits and the fraction reach one. A value on the grid is returned unchanged in every mode. Placed in a format, the result is that multiple of the format's
grid, with inx and unf as R120 sets them; beyond the greatest finite value it is an infinity, that value or e4m3's NaN, with ovf and inx (R120, R122). -/
def Obligations.RoundingModes : Prop :=
  ∀ (m rb : Nat) (e g : Int) (neg : Bool), e < g → rb < 65536 →
    let D := 2 ^ (g - e).toNat
    let k := fun mode => (roundAt mode rb neg m e false g).1
    (k .rz * D ≤ m ∧ m < (k .rz + 1) * D)
    ∧ (neg = false → m ≤ k .ru * D ∧ k .ru * D < m + D ∧ k .rd = k .rz)
    ∧ (neg = true → m ≤ k .rd * D ∧ k .rd * D < m + D ∧ k .ru = k .rz)
    ∧ (2 * m ≤ 2 * (k .rne * D) + D ∧ 2 * (k .rne * D) ≤ 2 * m + D ∧ (2 * m = 2 * (k .rne * D) + D ∨ 2 * (k .rne * D) = 2 * m + D → k .rne % 2 = 0))
    ∧ (k .sr = k .rz ∨ k .sr = k .rz + 1) ∧ (k .sr = k .rz + 1 ↔ 65536 * D ≤ rb * D + 65536 * (m % D))
    ∧ (∀ mode, (roundAt mode rb neg m e false g).2 = (m % D != 0) ∧ (m % D = 0 → k mode * D = m))
    ∧ ∀ (f : Fmt) (mode : RMode) (sat : Bool) (mm : Nat) (me : Int), f ∈ [Fmt.f64, .f32, .f16, .bf16, .e4m3, .e5m2, .e3m2, .e2m3, .e2m1] → m ≠ 0 →
      f.decode f.maxBits = .fin false mm me →
      let low := f.emin - f.m
      let grid := max (e + (Nat.log2 m : Nat) - f.m) low
      let r := roundAt mode rb neg m e false grid
      let p := f.place mode rb sat (.fin neg m e)
      let big := mm * 2 ^ (me - low).toNat < r.1 * 2 ^ (grid - low).toNat
      let toInf := mode = .rne ∨ mode = .sr ∨ (mode = .ru ∧ neg = false) ∨ (mode = .rd ∧ neg = true)
      (¬big → (∃ n x, f.decode p.1 = .fin neg n x ∧ n * 2 ^ (x - low).toNat = r.1 * 2 ^ (grid - low).toNat)
        ∧ p.2 = FpFlags.when r.2 FpFlags.inx ||| FpFlags.when (r.2 && r.1 < 2 ^ f.m && grid == low) FpFlags.unf)
      ∧ (big → p.2 = FpFlags.ovf ||| FpFlags.inx ∧ (sat = true ∨ ¬toInf ∨ f ∈ [Fmt.e3m2, .e2m3, .e2m1] → p.1 = f.signed neg f.maxBits)
        ∧ (sat = false → toInf → f = .e4m3 → p.1 = 0x7F) ∧ (sat = false → toInf → f ∈ [Fmt.f64, .f32, .f16, .bf16, .e5m2] → f.decode p.1 = .inf neg))

/-- R130 to R133: special operands. Results and flags of the operations on zeros, infinities, NaNs and negative operands, in every format of majors 0x20 to
0x27: addition, subtraction, product, quotient and fused product, minima and maxima, and the unary functions, FSINPI and FCOSPI of integers included. -/
def Obligations.FloatSpecials : Prop :=
  ∀ (f : Fmt) (mode : RMode) (rb a b d : Nat), f ∈ [Fmt.f64, .f32, .f16, .bf16] →
    let x := f.decode a
    let y := f.decode b
    let z := f.decode d
    let one := f.bias * 2 ^ f.m
    let inf := fun n => f.signed n f.infBits
    let zeroInf := ∃ n m e, (x = .fin n 0 e ∧ y = .inf m) ∨ (x = .inf n ∧ y = .fin m 0 e)
    (x.isNan = true ∨ y.isNan = true → ∀ op ∈ [fpAdd, fpSub, fpMul, fpDiv],
      op f mode rb a b d = (f.nan, if x.isSig || y.isSig then FpFlags.inv else 0))
    ∧ (x.isNan = true ∨ y.isNan = true ∨ z.isNan = true → ¬zeroInf →
      fpFma f mode rb a b d = (f.nan, if x.isSig || y.isSig || z.isSig then FpFlags.inv else 0))
    ∧ (zeroInf → fpMul f mode rb a b d = (f.nan, FpFlags.inv) ∧ fpFma f mode rb a b d = (f.nan, FpFlags.inv))
    ∧ (∀ n, x = .inf n → (y = .inf (!n) → fpAdd f mode rb a b d = (f.nan, FpFlags.inv)) ∧ (y = .inf n → fpSub f mode rb a b d = (f.nan, FpFlags.inv))
      ∧ ((y = .inf n ∨ ∃ m k e, y = .fin m k e) → fpAdd f mode rb a b d = (inf n, 0))
      ∧ ((y = .inf (!n) ∨ ∃ m k e, y = .fin m k e) → fpSub f mode rb a b d = (inf n, 0)))
    ∧ (∀ n m k e, x = .fin m k e → y = .inf n → fpAdd f mode rb a b d = (inf n, 0) ∧ fpSub f mode rb a b d = (inf (!n), 0))
    ∧ (∀ n m, (x = .inf n ∧ (y = .inf m ∨ ∃ k e, y = .fin m k e ∧ k ≠ 0) ∨ ∃ k e, x = .fin n k e ∧ k ≠ 0 ∧ y = .inf m) →
      fpMul f mode rb a b d = (inf (n != m), 0)
      ∧ (z = .inf (!(n != m)) → fpFma f mode rb a b d = (f.nan, FpFlags.inv))
      ∧ ((z = .inf (n != m) ∨ ∃ i k e, z = .fin i k e) → fpFma f mode rb a b d = (inf (n != m), 0)))
    ∧ (∀ n m e e', x = .fin n 0 e → y = .fin m 0 e' → fpAdd f mode rb a b d = (f.signed (if n = m then n else mode == .rd) 0, 0)
      ∧ fpSub f mode rb a b d = (f.signed (if n ≠ m then n else mode == .rd) 0, 0)
      ∧ fpMul f mode rb a b d = (f.signed (n != m) 0, 0) ∧ fpDiv f mode rb a b d = (f.nan, FpFlags.inv))
    ∧ (∀ n k e, x = .fin n k e → k ≠ 0 → (y = .fin (!n) k e → fpAdd f mode rb a b d = (f.signed (mode == .rd) 0, 0))
      ∧ (y = .fin n k e → fpSub f mode rb a b d = (f.signed (mode == .rd) 0, 0)))
    ∧ (∀ n k e m e', x = .fin n k e → y = .fin m 0 e' → fpMul f mode rb a b d = (f.signed (n != m) 0, 0)
      ∧ (k ≠ 0 → fpDiv f mode rb a b d = (inf (n != m), FpFlags.dz)))
    ∧ (∀ n m k e e', x = .fin n k e ∧ y = .fin m 0 e' ∨ x = .fin n 0 e ∧ y = .fin m k e' →
      (∀ i g, z = .fin i 0 g → fpFma f mode rb a b d = (f.signed (if (n != m) = i then i else mode == .rd) 0, 0)))
    ∧ (∀ n k e m, x = .fin n k e → y = .inf m → fpDiv f mode rb a b d = (f.signed (n != m) 0, 0))
    ∧ (∀ n m, x = .inf n → y = .inf m → fpDiv f mode rb a b d = (f.nan, FpFlags.inv))
    ∧ (∀ n e, x = .fin n 0 e → fpSqrt f mode rb a b d = (f.signed n 0, 0) ∧ fpRsq f mode rb a b d = (inf n, FpFlags.dz)
      ∧ fpLog2 f mode rb a b d = (inf true, FpFlags.dz) ∧ fpRcp f mode rb a b d = (inf n, FpFlags.dz) ∧ fpExp2 f mode rb a b d = (one, 0))
    ∧ (x.neg = true → x.isZero = false → fpSqrt f mode rb a b d = (f.nan, FpFlags.inv) ∧ fpRsq f mode rb a b d = (f.nan, FpFlags.inv)
      ∧ fpLog2 f mode rb a b d = (f.nan, FpFlags.inv))
    ∧ (x = .inf false → fpSqrt f mode rb a b d = (inf false, 0) ∧ fpRsq f mode rb a b d = (0, 0) ∧ fpLog2 f mode rb a b d = (inf false, 0))
    ∧ (∀ n, x = .inf n → fpSinPi f mode rb a b d = (f.nan, FpFlags.inv) ∧ fpCosPi f mode rb a b d = (f.nan, FpFlags.inv)
      ∧ fpExp2 f mode rb a b d = (if n then 0 else f.infBits, 0) ∧ fpRcp f mode rb a b d = (f.signed n 0, 0))
    ∧ (∀ n k e, x = .fin n k e → 0 ≤ e ∨ k % 2 ^ (-e).toNat = 0 → fpSinPi f mode rb a b d = (f.signed n 0, 0)
      ∧ (0 < e → fpCosPi f mode rb a b d = (one, 0)) ∧ (e ≤ 0 → fpCosPi f mode rb a b d = (f.signed (k / 2 ^ (-e).toNat % 2 == 1) one, 0)))
    ∧ (x.isNan = true → ∀ op ∈ [fpRcp, fpSqrt, fpRsq, fpExp2, fpLog2, fpSinPi, fpCosPi, fpRnd], op f mode rb a b d = (f.nan, if x.isSig then FpFlags.inv else 0))
    ∧ (∀ g, (x.isNan = true → y.isNan = false → fpMinMax g f mode rb a b d = (b, if x.isSig then FpFlags.inv else 0))
      ∧ (x.isNan = false → y.isNan = true → fpMinMax g f mode rb a b d = (a, if y.isSig then FpFlags.inv else 0))
      ∧ (x.isNan = true → y.isNan = true → fpMinMax g f mode rb a b d = (f.nan, if x.isSig || y.isSig then FpFlags.inv else 0)))
    ∧ (∀ e e', x = .fin true 0 e → y = .fin false 0 e' → fpMinMax false f mode rb a b d = (a, 0) ∧ fpMinMax true f mode rb a b d = (b, 0))
    ∧ (∀ e e', x = .fin false 0 e → y = .fin true 0 e' → fpMinMax false f mode rb a b d = (b, 0) ∧ fpMinMax true f mode rb a b d = (a, 0))

/-- R119 to R122, R136 to R140, R146: comparison, conversion, dot products and Wring. The functions that give the lanes their results are then stated: FCVT to an
integer rounds and clamps, to e8m0 follows the table of R139, and to a float is the rounded value placed in its format; a dot product is the exact sum of its
products and the addend rounded once, with the specials of R125; Wring is the loop of R121; and the rows of the example of R121. -/
def Obligations.ConversionAndDot : Prop :=
  (∀ (w : BitVec 3) (p c : BitVec 4) (a b : BitVec 7) (u : Bool) (s : State), s.Quiet →
    let k := if w = 1 then 2 else 1
    s.Ready (((Uses.rdV a.toNat k).and (Uses.rdB b u k)).and (Uses.wrP p.toNat)) →
    let x := fun l => if w = 1 then Fmt.f64.decode (s.rv2 a.toNat l).toNat else Fmt.f32.decode (s.rv a.toNat l).toNat
    let y := fun l => if w = 1 then Fmt.f64.decode (s.opb2T .f64 b u l).toNat else Fmt.f32.decode (s.opbT .f32 b u l).toNat
    ∃ t, exec (.fsetp w p a b u c) s = .next t ∧ Kept s t ∧ Advanced s t ∧ VecKept s t ∧ UniKept s t
      ∧ PredSet s t p.toNat s.cur.active (fun l => fpCond c.toNat (x l) (y l))
      ∧ t.me.fpstat = s.me.fpstat ||| (if (lanesOf s.cur.active).any (fun l => (x l).isSig || (y l).isSig) then FpFlags.inv else 0))
  ∧ (∀ (d a : BitVec 7) (sat : Bool) (r : BitVec 3) (x y : BitVec 4) (s : State), s.Quiet →
    s.Ready (((Uses.rdV a.toNat (if cvtWide x then 2 else 1)).and (Uses.rounds (r == 4 || r == 5))).and (Uses.wrV d.toNat (if cvtWide y then 2 else 1))) →
    let f := fun l => fcvt (CvtTy.ofCode x.toNat) (CvtTy.ofCode y.toNat) (RMode.ofCode (if r = 5 then s.me.rm.toNat else r.toNat)) (s.rbits l 0) sat
      (if cvtWide x then (s.rv2 a.toNat l).toNat else (s.rv a.toNat l).toNat)
    let fl := (lanesOf s.cur.active).foldl (fun z l => z ||| (f l).2) 0
    ∃ t, exec (.fcvt d a sat r x y) s = .next t ∧
      if cvtWide y then FpPair s t d.toNat s.cur.active (fun l => BitVec.ofNat 64 (f l).1) fl
      else FpVec s t d.toNat s.cur.active (fun l => BitVec.ofNat 32 (f l).1) fl)
  ∧ (∀ (d a b : BitVec 7) (u : Bool) (k : BitVec 2) (s : State), s.Quiet →
    s.Ready ((((Uses.rdV a.toNat 1).and (Uses.rdB b u 1)).and (Uses.rdV d.toNat 1)).and (Uses.wrV d.toNat 1)) →
    let x := fun l => (s.rv a.toNat l).toNat
    let y := fun l => (s.opb b u l).toNat
    let z := fun l => (s.rv d.toNat l).toNat
    let res := fun (g : Nat → Nat → Nat → Nat × FpFlags) (t : State) =>
      FpVec s t d.toNat s.cur.active (fun l => BitVec.ofNat 32 (g (x l) (y l) (z l)).1) ((lanesOf s.cur.active).foldl (fun q l => q ||| (g (x l) (y l) (z l)).2) 0)
    (∃ t, exec (.dot4 d a b u k) s = .next t ∧ res (match k.toNat with
      | 0 => dotFloat .e4m3 4 | 1 => dotFloat .e5m2 4 | 2 => dotInt 8 4 true | _ => dotInt 8 4 false) t)
    ∧ (∃ t, exec (.dot8 d a b u k) s = .next t ∧ res (match k.toNat with
      | 0 => dotFloat .e2m1 8 | 1 => dotInt 4 8 true | _ => dotInt 4 8 false) t))
  ∧ (∀ (d a b : BitVec 7) (u : Bool) (s : State), s.Quiet → s.Ready (((Uses.rdV a.toNat 1).and (Uses.rdB b u 2)).and (Uses.wrV d.toNat 1)) →
    GivesVec (.wring d a b u) d (fun l => wring (s.rv a.toNat l) (s.opb2 b u l)) s)
  ∧ (∀ (src : CvtTy) (mode : RMode) (rb x : Nat) (sat : Bool), rb < 65536 →
    let v := src.read x
    (∀ (w : Nat) (sg : Bool), w = 32 ∨ w = 64 →
      let lo : Int := if sg then -((2 ^ (w - 1) : Nat) : Int) else 0
      let hi : Int := if sg then ((2 ^ (w - 1) : Nat) : Int) - 1 else ((2 ^ w : Nat) : Int) - 1
      let word := fun (z : Int) => (z % ((2 ^ w : Nat) : Int)).toNat
      (∀ q, v = .nan q → fcvt src (.int w sg) mode rb sat x = (0, FpFlags.inv))
      ∧ (∀ n, v = .inf n → fcvt src (.int w sg) mode rb sat x = (word (if n then lo else hi), 0))
      ∧ ∀ n m e, v = .fin n m e → fcvt src (.int w sg) mode rb sat x
        = (word (max lo (min hi ((if n then -1 else 1) * (((roundAt mode rb n m e false 0).1 : Nat) : Int)))), 0))
    ∧ (let r := fcvt src .e8m0 mode rb sat x
      (∀ q, v = .nan q → r = (0xFF, FpFlags.inv)) ∧ (v = .inf true → r = (0xFF, FpFlags.inv)) ∧ (v = .inf false → r = (if sat then 0xFE else 0xFF, 0))
      ∧ (∀ n e, v = .fin n 0 e → r = (0, FpFlags.inv)) ∧ (∀ m e, v = .fin true m e → m ≠ 0 → r = (0xFF, FpFlags.inv))
      ∧ ∀ m e, v = .fin false m e → m ≠ 0 →
        let l := Nat.log2 m
        let top : Int := e + (l : Nat)
        let up := mode = .ru ∨ (mode = .rne ∧ 3 * 2 ^ l ≤ 2 * m) ∨ (mode = .sr ∧ 65536 * 2 ^ (l + 1) ≤ 65536 * m + rb * 2 ^ l)
        (top < -127 → r = (0, FpFlags.unf ||| FpFlags.inx))
        ∧ (-127 ≤ top → top ≤ 127 → m = 2 ^ l → r = ((top + 127).toNat, 0))
        ∧ (-127 ≤ top → top ≤ 127 → m ≠ 2 ^ l → ¬up → r = ((top + 127).toNat, FpFlags.inx))
        ∧ (-127 ≤ top → top ≤ 126 → m ≠ 2 ^ l → up → r = ((top + 128).toNat, FpFlags.inx))
        ∧ (127 < top ∨ (top = 127 ∧ m ≠ 2 ^ l ∧ up) → r = (if sat then 0xFE else 0xFF, FpFlags.ovf ||| FpFlags.inx)))
    ∧ ∀ f ∈ [Fmt.f64, .f32, .f16, .bf16, .e4m3, .e5m2, .e3m2, .e2m3, .e2m1],
      let r := fcvt src (.flt f) mode rb sat x
      let fin := f ∈ [Fmt.e3m2, .e2m3, .e2m1]
      (∀ q, v = .nan q → (¬fin → r = (f.nan, FpFlags.when q FpFlags.inv)) ∧ (fin → r = (0, FpFlags.inv)))
      ∧ (∀ n, v = .inf n → r.2 = 0 ∧ (sat = true ∨ fin → r.1 = f.signed n f.maxBits) ∧ (sat = false → f = .e4m3 → r.1 = 0x7F)
        ∧ (sat = false → ¬fin → f ≠ .e4m3 → f.decode r.1 = .inf n))
      ∧ ∀ n m e, v = .fin n m e → r = f.place mode rb sat (.fin n m e))
  ∧ (∀ x : Nat, x < 256 → CvtTy.e8m0.read x = if x = 255 then .nan false else .fin false 1 ((x : Int) - 127))
  ∧ (∀ (f : Fmt) (n a b d : Nat), f ∈ [Fmt.e4m3, .e5m2, .e2m1] → f.w * n = 32 →
    let x := fun i => f.decode (a / 2 ^ (f.w * i) % 2 ^ f.w)
    let y := fun i => f.decode (b / 2 ^ (f.w * i) % 2 ^ f.w)
    let z := Fmt.f32.decode d
    let isFin := fun (v : FVal) => ∃ s m e, v = .fin s m e
    let zeroInf := fun i => ∃ s t m e, m = 0 ∧ ((x i = .fin s m e ∧ y i = .inf t) ∨ (x i = .inf t ∧ y i = .fin s m e))
    let infTerm := fun s => z = .inf s ∨ ∃ i, i < n ∧ ((x i).mul (y i)).1 = .inf s
    let noNan := z.isNan = false ∧ ∀ i, i < n → (x i).isNan = false ∧ (y i).isNan = false ∧ ¬zeroInf i
    let total := z.units + ((List.range n).map (fun i => ((x i).mul (y i)).1.units)).sum
    (z.isNan = true ∨ (∃ i, i < n ∧ ((x i).isNan = true ∨ (y i).isNan = true)) → (dotFloat f n a b d).1 = Fmt.f32.nan)
    ∧ ((∃ i, i < n ∧ zeroInf i) → dotFloat f n a b d = (Fmt.f32.nan, FpFlags.inv))
    ∧ (noNan → infTerm true → infTerm false → dotFloat f n a b d = (Fmt.f32.nan, FpFlags.inv))
    ∧ (∀ s, noNan → infTerm s → ¬infTerm (!s) → dotFloat f n a b d = (Fmt.f32.signed s Fmt.f32.infBits, 0))
    ∧ ((∀ i, i < n → isFin (x i) ∧ isFin (y i)) → isFin z →
      (total ≠ 0 → dotFloat f n a b d = Fmt.f32.place .rne 0 false (.fin (decide (total < 0)) total.natAbs (-2600)))
      ∧ (total = 0 → dotFloat f n a b d = (Fmt.f32.signed
        (z.neg && (List.range n).all (fun i => ((x i).neg != (y i).neg) && ((x i).mul (y i)).1.units == 0) && z.units == 0) 0, 0))))
  ∧ (∀ (key : Word) (ctr : Word64),
    let turn := fun (x : Word × Word × Word) =>
      let a := x.1 * BitVec.ofNat 32 0x85EBCA77 + x.2.2
      let b := x.2.1 ^^^ (a <<< 11 ||| a >>> 21)
      (a ^^^ b * BitVec.ofNat 32 0xC2B2AE3D, b, x.2.2 + BitVec.ofNat 32 0x27D4EB2F)
    let r := turn (turn (turn (turn (ctr.setWidth 32, (ctr >>> 32).setWidth 32, key))))
    wring key ctr = r.1 ^^^ r.2.1)
  ∧ (let cv := fun mode rb x => fcvt (.flt .f32) (.flt .bf16) mode rb false x
    cv .rne 0 0x3F818000 = (0x3F82, FpFlags.inx) ∧ cv .rz 0 0x3F818000 = (0x3F81, FpFlags.inx) ∧ cv .sr 0x4000 0x3F818000 = (0x3F81, FpFlags.inx)
      ∧ cv .sr 0xC000 0x3F818000 = (0x3F82, FpFlags.inx) ∧ cv .ru 0 0xBF818000 = (0xBF81, FpFlags.inx) ∧ cv .rd 0 0xBF818000 = (0xBF82, FpFlags.inx)
      ∧ cv .rne 0 0x3F814000 = (0x3F81, FpFlags.inx) ∧ cv .ru 0 0x3F814000 = (0x3F82, FpFlags.inx))

/-- R140: the integer dot products. The result is d plus the sum of the products of the four 8-bit elements, signed or unsigned, modulo 2^32. -/
def Obligations.IntegerDot : Prop :=
  ∀ (a b d : Word),
    (dotInt 8 4 true a.toNat b.toNat d.toNat = ((BitVec.ofInt 32 (((List.range 4).map (fun i => (a.extractLsb' (8 * i) 8).toInt * (b.extractLsb' (8 * i) 8).toInt)).sum) + d).toNat, 0))
    ∧ (dotInt 8 4 false a.toNat b.toNat d.toNat = ((BitVec.ofNat 32 (((List.range 4).map (fun i => (a.extractLsb' (8 * i) 8).toNat * (b.extractLsb' (8 * i) 8).toNat)).sum) + d).toNat, 0))
    ∧ (dotInt 4 8 true a.toNat b.toNat d.toNat = ((BitVec.ofInt 32 (((List.range 8).map (fun i => (a.extractLsb' (4 * i) 4).toInt * (b.extractLsb' (4 * i) 4).toInt)).sum) + d).toNat, 0))
    ∧ (dotInt 4 8 false a.toNat b.toNat d.toNat = ((BitVec.ofNat 32 (((List.range 8).map (fun i => (a.extractLsb' (4 * i) 4).toNat * (b.extractLsb' (4 * i) 4).toNat)).sum) + d).toNat, 0))

/-- R142 to R145: block scales. SCL scales f32 lanes in place. QNT and DQNT handle every block with an active lane, in all its present lanes, as one event.
P6X packs sixteen containers into three registers, or unpacks them. Memory, uniforms and predicates are left alone.
(Model's choices: a signalling NaN under the scale 0xFF sets inv, log 49.) -/
def Obligations.BlockScales : Prop :=
  (∀ (d a : BitVec 7) (sel : BitVec 2) (f : BitVec 3) (s : State), s.Quiet →
    s.Ready (((Uses.scales f.toNat a.toNat).and (Uses.rdV d.toNat 1)).and (Uses.wrV d.toNat 1)) →
    let g := fun l =>
      let sc := ((s.laneVal a.toNat (l / (if f = 4 then 4 else 8))).extractLsb' (8 * sel.toNat) 8).toNat
      let x := Fmt.f32.decode (s.rv d.toNat l).toNat
      if sc = 255 ∨ x.isNan = true then (Fmt.f32.nan, if x.isSig then FpFlags.inv else 0)
      else Fmt.f32.place .rne 0 false (x.scale ((sc : Int) - 127))
    ∃ t, exec (.scl d a sel f) s = .next t
      ∧ FpVec s t d.toNat s.cur.active (fun l => BitVec.ofNat 32 (g l).1) ((lanesOf s.cur.active).foldl (fun x l => x ||| (g l).2) 0))
  ∧ (∀ (d a : BitVec 7) (sel lim : BitVec 2) (f : BitVec 3) (s : State), s.Quiet → s.Ready (Uses.qnt f.toNat d.toNat a.toNat) →
    let w := (s.activeBlocks f.toNat).foldl (State.qntOne f.toNat lim.toNat sel.toNat d.toNat a.toNat s) s
    ∃ t, exec (.qnt d a sel lim f) s = .next t ∧ Kept s t ∧ Advanced s t ∧ UniKept s t ∧ PredKept s t ∧ VecKept w t ∧ StatusKept w t)
  ∧ (∀ (d a : BitVec 7) (sel : BitVec 2) (f : BitVec 3) (s : State), s.Quiet →
    s.Ready (Uses.dqnt f.toNat d.toNat a.toNat) →
    let w := (s.activeBlocks f.toNat).foldl (State.dqntOne f.toNat sel.toNat d.toNat a.toNat s) s
    ∃ t, exec (.dqnt d a sel f) s = .next t ∧ Kept s t ∧ Advanced s t ∧ UniKept s t ∧ PredKept s t ∧ VecKept w t ∧ StatusKept w t)
  ∧ (∀ (d : BitVec 7) (r : BitVec 2) (f : BitVec 3) (s : State), s.Quiet → s.Ready ((Uses.rdV d.toNat (if r = 0 then 4 else 3)).and (Uses.wrV d.toNat (if r = 0 then 3 else 4))) →
    let old := fun k l => (List.range k).foldl (fun x i => x + (s.rv (d.toNat + i) l).toNat * 2 ^ (32 * i)) 0
    let packed := fun l => (List.range 16).foldl (fun x i => x + old 4 l / 2 ^ (8 * i) % 64 * 2 ^ (6 * i)) 0
    let spread := fun l => (List.range 16).foldl (fun x i => x + old 3 l / 2 ^ (6 * i) % 64 * 2 ^ (8 * i)) 0
    ∃ t, exec (.p6x d r f) s = .next t ∧ Kept s t ∧ Advanced s t ∧ UniKept s t ∧ PredKept s t ∧ StatusKept s t
      ∧ ∀ ph l, l < 32 → t.mySlot.getV ph l =
        let i := ph - (8 * s.me.base + d.toNat)
        if s.cur.active.getLsbD l = true ∧ 8 * s.me.base + d.toNat ≤ ph ∧ i < (if r = 0 then 3 else 4) then
          BitVec.ofNat 32 ((if r = 0 then packed l else spread l) / 2 ^ (32 * i))
        else s.mySlot.getV ph l)

/-- R152, R155 to R158, R161, R162: loads. When every active lane passes its checks and nothing must be waited for, the instruction issues one access per lane
and finishes; LDACQ leaves an acquire part. The access of a lane makes one pending write of the lane with the bytes of memory (for a weak access, of the
sector that L1 holds, or of memory with the core's own stores under way), little-endian, i8 and i16 sign-extended, under the shadow of its lookahead; older pending writes yield to it, and no byte and no register changes. The cache hint only marks lines of the L2. (Model's choices: log 6, 24.) -/
def Obligations.LoadsLeavePendingWrites : Prop :=
  (∀ (d b : BitVec 7) (la : BitVec 4) (ofs : BitVec 26) (c : BitVec 3) (s : State) (oks : List (Nat × List (Nat × Nat × Word64))),
    s.NoAcquire → s.meetsWrites oks = false →
    let va := fun l => (s.rv2 b.toNat l + ofs.signExtend 64).toNat
    let ph := 8 * s.me.base
    let passes := fun (weak : Bool) (n al : Nat) (va : Nat → Nat) (lanes : List Nat) => s.Passes (if weak then 3 else 0) accRead n al (fun _ => true) va lanes oks
    (∀ (w : BitVec 3), s.Ready { (Uses.rdV b.toNat 2).and (Uses.wrV d.toNat (wRegs w.toNat)) with la := la.toNat } →
      let mk := fun l x => regVals ph d.toNat (wRegs w.toNat) l (wExtend w.toNat 32 (ofBytes x))
      let n := wBytes w.toNat
      (∀ (o : Bool), passes (!o && c != 3) n n va (lanesOf s.cur.active) → exec (.ld d b la w o c ofs) s =
        .next ((oks.foldl (State.loadLane (!o && c != 3) la.toNat s.me.nextId va mk false) s).hintLines c.toNat oks).finish)
      ∧ (passes false n n va (lanesOf s.cur.active) → exec (.ldacq d b la w c ofs) s =
        .next ((oks.foldl (State.loadLane false la.toNat s.me.nextId va mk false) s).addAcq s.cur.fib c.toNat).finish))
    ∧ (s.Ready { (Uses.rdV b.toNat 2).and (Uses.wrV d.toNat 3) with la := la.toNat } →
      ∀ (o : BitVec 2), passes (o == 0 && c != 3) 12 4 va (lanesOf s.cur.active) → exec (.ld6 d b la o c ofs) s =
        .next ((oks.foldl (State.loadLane (o == 0 && c != 3) la.toNat s.me.nextId va (fun l x => regVals ph d.toNat 3 l (ofBytes x)) false) s).hintLines c.toNat oks).finish)
    ∧ (∀ (w : BitVec 3) (a : Nat), a = (s.usrc b.toNat + ofs.signExtend 64).toNat →
      s.Ready { (Uses.rdU b.toNat).and (Uses.wrU d.toNat) with la := la.toNat } →
      ∀ (o : BitVec 2), passes (o == 0 && c != 3) (wBytes w.toNat) (wBytes w.toNat) (fun _ => a) [0] →
        exec (.ldk d b la w o c ofs) s = .next (((oks.foldl (State.loadLane (o == 0 && c != 3) la.toNat s.me.nextId (fun _ => a)
          (fun _ x => [⟨.u d.toNat, 0, BitVec.ofNat 64 (wExtend w.toNat 64 (ofBytes x))⟩]) false) s).hintLines c.toNat oks).finish.pendAll s.me.nextId)))
  ∧ (∀ (c : Nat) (oks : List (Nat × List (Nat × Nat × Word64))) (s : State), ∃ h, s.hintLines c oks = s.modDev (fun d => { d with hint := h }))
  ∧ (∀ (weak : Bool) (la op l k n : Nat) (leaf : Word64) (va : Nat → Nat) (mk : Nat → List Byte → List PVal) (g : Bool) (s : State),
    s.GoodSector k n → s.Unwatched s.me.wg →
    let t := State.loadLane weak la op va mk g s (l, [(k, n, leaf)])
    let held := Sparse.get [] (sectorOf k) (s.core s.me.core).l1
    let sector := if held ≠ [] then held else (s.core s.me.core).overlay (sectorOf k) ((List.range 64).map (fun i => rd8 s.mem (64 * sectorOf k + i)))
    let bytes := if weak = true ∧ l1Page leaf = true then (sector.drop (k % 64)).take n else (List.range n).map (fun i => rd8 s.mem (k + i))
    OnlyPending s t ∧ ∃ p, t.me.pend = s.me.pend.map p.yield ++ [p] ∧ Pending s p la op l (mk l bytes) ∧ p.bad = false)
  ∧ (∀ (w x : Nat), wExtend w 32 x = if w = 5 then ((BitVec.ofNat 8 x).signExtend 32).toNat else if w = 6 then ((BitVec.ofNat 16 x).signExtend 32).toNat else x)

/-- R155 to R158, R177, R266: stores. A store whose lanes all pass puts one entry per lane into its core's write buffer and finishes; STREL first performs a
release at its scope. Memory changes when the entry is performed: then its bytes hold the data, every other byte is as before, the entry is gone, and the line,
if the L2 holds it, notes the core as its last writer. A packet whose check fails writes nothing, and its write has failed (R273, R274). (Model's choices: log 7.) -/
def Obligations.StoresChangeMemoryWhenPerformed : Prop :=
  (∀ (d b : BitVec 7) (la : BitVec 4) (w : BitVec 3) (ofs : BitVec 26) (c : BitVec 3) (s : State) (oks : List (Nat × List (Nat × Nat × Word64))),
    s.markedTask = false → s.Ready ((Uses.rdV b.toNat 2).and (Uses.rdV d.toNat (wRegs w.toNat))) →
    let go := fun (q : State) => (oks.foldl (State.storeLane 1 (q.ea b ofs) (fun l => toBytes (wBytes w.toNat) (q.regsVal d.toNat (wRegs w.toNat) l)) false) q).finish
    (s.Passes 1 accWrite (wBytes w.toNat) (wBytes w.toNat) (fun _ => true) (s.ea b ofs) (lanesOf s.doers) oks →
      (∀ o, exec (.st d b la w o c ofs) s = .next (go s)) ∧ exec (.stg d b la w ofs) s = .next (go s))
    ∧ (s.CanRelease c.toNat → (s.didRelease s.cur.fib).Passes 1 accWrite (wBytes w.toNat) (wBytes w.toNat) (fun _ => true)
        ((s.didRelease s.cur.fib).ea b ofs) (lanesOf (s.didRelease s.cur.fib).doers) oks →
      exec (.strel d b la w c ofs) s = .next (go (s.didRelease s.cur.fib))))
  ∧ (∀ (kind : Nat) (va : Nat → Nat) (data : Nat → List Byte) (fut : Bool) (l k n : Nat) (leaf : Word64) (s : State), (data l).length = n →
    let t := State.storeLane kind va data fut s (l, [(k, n, leaf)])
    OnlyPending s t ∧ t.me.pend = s.me.pend ∧ (t.core s.me.core).wbuf = (s.core s.me.core).wbuf ++
      [⟨(s.core s.me.core).nextId, s.cur.fib, s.me.wg, k, data l, va l, fut, false, l2Page leaf k, crc32c (data l)⟩])
  ∧ (∀ (c i : Nat) (b : WBuf) (s : State), (s.core c).wbuf.find? (fun x => x.id == i) = some b → b.spad = false →
    (∀ x ∈ (s.core c).wbuf, x.id < i → overlaps b.key b.data.length x.key x.data.length = false) →
    (∀ x ∈ (s.core c).reds, x.id < i → overlaps b.key b.data.length x.key (if x.wide then 8 else 4) = false) →
    s.GoodSector b.key b.data.length → s.Unwatched b.wg → packetOk b.data b.check = true →
    ∃ t, exec (.writeAcknowledge c i) s = .next t ∧ BytesSet s t b.key b.data ∧ (t.core c).wbuf = (s.core c).wbuf.filter (fun x => x.id != i)
      ∧ t.slots = s.slots ∧ (b.l2 = true → Sparse.get 0 (b.key / 512) t.dev.lastWriter = c + 1)
      ∧ (b.fut = true → Sparse.get false (b.key / 8) t.dev.fut = true))
  ∧ (∀ (c i : Nat) (b : WBuf) (s : State), (s.core c).wbuf.find? (fun x => x.id == i) = some b → b.spad = false →
    (∀ x ∈ (s.core c).wbuf, x.id < i → overlaps b.key b.data.length x.key x.data.length = false) →
    (∀ x ∈ (s.core c).reds, x.id < i → overlaps b.key b.data.length x.key (if x.wide then 8 else 4) = false) → s.Unwatched b.wg →
    packetOk b.data b.check = false → exec (.writeAcknowledge c i) s =
      .next ((s.modCore c (fun x => { x with wbuf := x.wbuf.filter (fun y => y.id != i) })).writeFailed b.fib b.va).wake)
  ∧ (∀ data : List Byte, packetOk data (crc32c data) = true)

/-- R159, R160: scratchpad accesses, of the core's own scratchpad and of the members of its cluster group, for every set of lanes. The lane's address is its register, or a
uniform plus lane times width, plus the offset, modulo 2^32. LDS makes one pending write per lane with the bytes that stand at its address when it issues; STS writes those of its own core at
once, the highest lane last, and no other byte, and puts the others into the write buffer, whose entries write them when they are performed. (Model's choices: log 6.) -/
def Obligations.ScratchpadAccess : Prop :=
  (∀ (d b : BitVec 7) (la : BitVec 4) (w : BitVec 3) (k : Bool) (ofs : BitVec 26) (tgt : Nat → Nat) (s : State),
    let n := wBytes w.toNat
    let r := wRegs w.toNat
    let e := fun l => ((if k then (s.usrc b.toNat).setWidth 32 + BitVec.ofNat 32 (l * n) else s.rv b.toNat l) + ofs.signExtend 32).toNat
    let core := fun l => (s.wg (tgt l)).core
    let off := fun l => (s.wg (tgt l)).sbase + e l % 2 ^ 21
    let key := fun l => spadKey (core l) (off l)
    let fits := fun l => e l % n = 0 ∧ e l < 2 ^ 24 ∧ s.spadTarget s.me.wg (e l) = some (tgt l) ∧ e l % 2 ^ 21 + n ≤ (s.wg (tgt l)).ssize
      ∧ (s.core (core l)).present (off l) = true
    let data := fun l => toBytes n (s.regsVal d.toNat r l)
    let act := lanesOf s.cur.active
    let own := (lanesOf s.doers).filter (fun l => core l == s.me.core)
    let far := (lanesOf s.doers).filter (fun l => core l != s.me.core)
    (s.Ready { (if k then Uses.rdU b.toNat else Uses.rdV b.toNat 1).and (Uses.wrV d.toNat r) with la := la.toNat } → (∀ l ∈ act, fits l) →
      s.NoAcquire → (∀ l ∈ act, (s.core s.me.core).unacked (key l) n = false) → s.places s.me.core act.length = true →
      exec (.lds d b la w k ofs) s = .next (act.foldl (fun t l => t.addPend (t.newPend la.toNat s.me.nextId l
        (regVals (8 * s.me.base) d.toNat r l (wExtend w.toNat 32 (rdNum s.mem (key l) n)))
        (if (s.core (core l)).ecc.contains (.line (off l / 128)) then some (e l) else none) (e l))) s).finish)
    ∧ (s.Ready ((if k then Uses.rdU b.toNat else Uses.rdV b.toNat 1).and (Uses.rdV d.toNat r)) → (∀ l ∈ lanesOf s.doers, fits l) →
      s.places s.me.core (lanesOf s.doers).length = true →
      ∃ t : State, exec (.sts d b la w k ofs) s = .next t.finish ∧ t.fibres = s.fibres ∧ t.slots = s.slots
        ∧ (∀ a, rd8 t.mem a = match own.reverse.find? (fun l => decide (key l ≤ a ∧ a < key l + n)) with
          | some l => (data l).getD (a - key l) 0
          | none => rd8 s.mem a)
        ∧ (t.core s.me.core).wbuf = (s.core s.me.core).wbuf ++ far.zipIdx.map (fun x =>
          ⟨(s.core s.me.core).nextId + x.2, s.cur.fib, s.me.wg, key x.1, data x.1, e x.1, false, true, false, crc32c (data x.1)⟩)))
  ∧ (∀ (la op l addr : Nat) (vals : List PVal) (bad : Option Nat) (s : State), let t := s.addPend (s.newPend la op l vals bad addr)
    OnlyPending s t ∧ ∃ p, t.me.pend = s.me.pend.map p.yield ++ [p] ∧ Pending s p la op l vals ∧ p.bad = bad.isSome)
  ∧ (∀ (w e : Nat) (s : State), (e / 2 ^ 23 % 2 = 0 → s.spadTarget w e = some w)
    ∧ (∀ t, e / 2 ^ 23 % 2 = 1 → s.spadTarget w e = some t → ∃ x, (t, x) ∈ s.wgs ∧ x.core = (s.wg w).core / 4 * 4 + e / 2 ^ 21 % 4 ∧ x.cg = (s.wg w).cg
      ∧ x.state = .running ∧ x.pasid = (s.wg w).pasid))
  ∧ (∀ (c i : Nat) (b : WBuf) (s : State), (s.core c).wbuf.find? (fun x => x.id == i) = some b → b.spad = true → b.fut = false → b.l2 = false →
    (∀ x ∈ (s.core c).wbuf, x.id < i → overlaps b.key b.data.length x.key x.data.length = false) →
    (∀ x ∈ (s.core c).reds, x.id < i → overlaps b.key b.data.length x.key (if x.wide then 8 else 4) = false) → packetOk b.data b.check = true →
    ∃ t, exec (.writeAcknowledge c i) s = .next t ∧ BytesSet s t b.key b.data ∧ (t.core c).wbuf = (s.core c).wbuf.filter (fun x => x.id != i) ∧ t.slots = s.slots)

/-- R53, R152: the data of a pending write arrives. With its shadow over, its values land in their registers and the pending write is gone; inside the shadow
it is only marked. No byte of memory changes. (Model's choices: log 6.) -/
def Obligations.LoadArrival : Prop :=
  ∀ (f i : Nat) (x : Pend) (s : State), (s.fibre f).pend.find? (fun p => p.id == i && !p.arrived && p.fut.isNone && p.eng.isNone) = some x → x.bad = false →
    (∀ p ∈ (s.fibre f).pend, p.id = i → p = x) → (∀ p ∈ (s.fibre f).pend, p ≠ x → p.due = false) →
    ∃ t, exec (.loadDataArrival f i) s = .next t ∧ t.mem = s.mem ∧ (t.fibre f).frontier = (s.fibre f).frontier
      ∧ (0 < x.shadow → (t.fibre f).pend = (s.fibre f).pend.map (fun p => if p.id == i then { p with arrived := true } else p) ∧ t.slots = s.slots
        ∧ (t.fibre f).ureg = (s.fibre f).ureg ∧ (t.fibre f).pred = (s.fibre f).pred)
      ∧ (x.shadow = 0 → (t.fibre f).pend = (s.fibre f).pend.filter (fun p => p != x)
        ∧ ((x.vals.map (fun v => (v.reg, v.lane))).Nodup → (∀ v ∈ x.vals, v.lane < 32) → (∀ v ∈ x.vals, (∃ n, v.reg = .u n) → v.lane = 0) →
          ∀ v ∈ x.vals, Landed s t f v))

/-- R163 to R166: atomics and reductions. ATOM and ATOMP perform every lane at issue and finish; RED puts one reduction per lane into its core and counts one
collective operation. Order field 1 or 3 leaves an acquire part; 2 or 3 performs a release first. (Model's choices: log 7.) -/
def Obligations.AtomicsAtIssue : Prop :=
  ∀ (d b : BitVec 7) (la : BitVec 4) (ofs : BitVec 26) (s : State) (oks : List (Nat × List (Nat × Nat × Word64))), s.markedTask = false →
    (∀ (i : Instr) (code n : Nat) (o sc : BitVec 2),
      (∃ w x, i = .atom d b la w o x sc ofs ∧ code = 8 * x.toNat + w.toNat ∧ n = 4) ∨ (∃ w x, i = .atom64 d b la w o x sc ofs ∧ code = 8 * x.toNat + w.toNat ∧ n = 8)
        ∨ (∃ m, i = .atomp d b la m o sc ofs ∧ code = 12 + m.toNat ∧ n = 8) →
      s.NoAcquire →
      s.Ready { ((Uses.rdV b.toNat 2).and (Uses.rdV d.toNat (if code = 9 then 2 * (n / 4) else n / 4))).and (Uses.wrV d.toNat (n / 4)) with la := la.toNat } →
      let go := fun (q : State) => oks.foldl (fun t x => x.2.foldl (State.atomPart code n d.toNat la.toNat q.me.nextId x.1 (q.ea b ofs x.1)) t) q
      let q := if o = 2 ∨ o = 3 then s.didRelease s.cur.fib else s
      (o = 2 ∨ o = 3 → s.CanRelease (atomScope sc.toNat)) → q.Passes 2 accRmw n n (atomSup code) (q.ea b ofs) (lanesOf q.doers) oks → q.meetsWrites oks = false →
      exec i s = .next (if o = 1 ∨ o = 3 then (go q).addAcq s.cur.fib (atomScope sc.toNat) else go q).finish)
    ∧ (∀ (w : BitVec 3) (z r x : Bool) (sc : BitVec 2),
      let code := 8 * x.toNat + w.toNat
      let n := if z then 8 else 4
      s.Ready ((Uses.rdV b.toNat 2).and (Uses.rdV d.toNat (n / 4))) →
      let q := if r then s.didRelease s.cur.fib else s
      (r = true → s.CanRelease (atomScope sc.toNat)) → q.Passes 2 accRmw n n (atomSup code) (q.ea b ofs) (lanesOf q.doers) oks → q.me.count .coll < 63 → oks ≠ [] →
      exec (.red d b la w z r x sc ofs) s = .next (oks.foldl (fun t o => o.2.foldl (State.redPart code z d.toNat q.me.nextId o.1 (q.ea b ofs o.1)) t)
        (q.modMe (fun y => { y.countUp .coll q.me.nextId with nextId := q.me.nextId + 1 }))).finish)

/-- R153, R163, R164, R166: one lane of an atomic. Its home takes the old value, writes the new one little-endian at the lane's address and nothing else, and
the old value is on its way to the lane's registers; this where no packet of the core is lost in transit. A reduction carries the check of its bytes, changes memory when it is performed with that check holding, and its count falls with the last lane. (Model's choices: log 7.) -/
def Obligations.AtomicAtHome : Prop :=
  (∀ (code n d la op lane va k : Nat) (leaf : Word64) (s : State), (n = 4 ∨ n = 8) → s.GoodSector k n → s.Unwatched s.me.wg →
    let t := State.atomPart code n d la op lane va s (k, n, leaf)
    let old := rdNum s.mem k n
    let x := s.regsVal d (if code = 9 then 2 * (n / 4) else n / 4) lane
    (s.core s.me.core).lost = false → BytesSet s t k (toBytes n (atomNew code (8 * n) old (x % 2 ^ (8 * n)) (x / 2 ^ (8 * n)))) ∧ t.slots = s.slots
      ∧ ∃ p, t.me.pend = s.me.pend.map p.yield ++ [p] ∧ Pending s p la op lane (regVals (8 * s.me.base) d (n / 4) lane old) ∧ p.bad = false)
  ∧ (∀ (code d op lane va k : Nat) (z : Bool) (n : Nat) (leaf : Word64) (s : State),
    let t := State.redPart code z d op lane va s (k, n, leaf)
    OnlyPending s t ∧ (t.core s.me.core).reds = (s.core s.me.core).reds ++ [⟨(s.core s.me.core).nextId, s.cur.fib, s.me.wg, op, k, va, code, z,
      BitVec.ofNat 64 (s.regsVal d (if z then 2 else 1) lane), l2Page leaf k,
      crc32c (toBytes (if z then 8 else 4) (BitVec.ofNat 64 (s.regsVal d (if z then 2 else 1) lane)).toNat)⟩])
  ∧ (∀ (c i : Nat) (r : RedOp) (s : State), (s.core c).reds.find? (fun x => x.id == i) = some r →
    let n := if r.wide then 8 else 4
    (∀ x ∈ (s.core c).wbuf, x.id < i → overlaps r.key n x.key x.data.length = false) →
    (∀ x ∈ (s.core c).reds, x.id < i → overlaps r.key n x.key (if x.wide then 8 else 4) = false) → s.GoodSector r.key n → s.Unwatched r.wg →
    packetOk (toBytes n r.val.toNat) r.check = true →
    ∃ t, exec (.redPerformed c i) s = .next t ∧ BytesSet s t r.key (toBytes n (atomNew r.code (8 * n) (rdNum s.mem r.key n) (r.val.toNat % 2 ^ (8 * n)) 0))
      ∧ (t.core c).reds = (s.core c).reds.filter (fun x => x.id != i) ∧ t.slots = s.slots)
  ∧ (∀ (w : Nat) (m v new : Nat), 0 < w → m < 2 ^ w → v < 2 ^ w →
    atomNew 0 w m v new = (m + v) % 2 ^ w ∧ atomNew 3 w m v new = min m v ∧ atomNew 4 w m v new = max m v ∧ atomNew 8 w m v new = v
    ∧ ((BitVec.ofNat w (atomNew 1 w m v new)).toInt = min (BitVec.ofNat w m).toInt (BitVec.ofNat w v).toInt)
    ∧ ((BitVec.ofNat w (atomNew 2 w m v new)).toInt = max (BitVec.ofNat w m).toInt (BitVec.ofNat w v).toInt)
    ∧ (atomNew 9 w m v new = if m = v then new else m) ∧ (atomNew 10 w m v new = if v ≤ m then 0 else m + 1)
    ∧ (atomNew 11 w m v new = if m = 0 ∨ v < m then v else m - 1))

/-- R168 to R173: futures. LDFUT of a granule that is set has its data on the way with p14 clear; of one that is not set it is held at the slice, or refused with
p14 set when the slice's buffer is full; of a sector whose check fails it is on the way as bad data. STFUT releases at device scope and stores; when its store is
acknowledged, the future bit is set, and every request held for the granule is answered with the granule's bytes after the store and p14 clear. (Model's choices:
log 6, 7.) -/
def Obligations.FuturesHoldAndAnswer : Prop :=
  (∀ (d b : BitVec 7) (la : BitVec 4) (w : Bool) (ofs : BitVec 26) (s : State) (oks : List (Nat × List (Nat × Nat × Word64))),
    let k := if w then 2 else 1
    (s.NoAcquire → s.Ready { ((Uses.rdV b.toNat 2).and (Uses.wrV d.toNat k)).and (Uses.wrP 14) with la := la.toNat } →
      s.Passes 2 accRead 8 8 futSup (s.ea b ofs) (lanesOf s.cur.active) oks → s.meetsWrites oks = false →
      exec (.ldfut d b la w ofs) s = .next (oks.foldl (State.ldfutLane la.toNat s.me.nextId k d.toNat (s.ea b ofs)) s).finish)
    ∧ (s.markedTask = false → s.CanRelease 2 → s.Ready ((Uses.rdV b.toNat 2).and (Uses.rdV d.toNat k)) →
      let q := s.didRelease s.cur.fib
      q.Passes 2 accWrite 8 8 futSup (q.ea b ofs) (lanesOf q.doers) oks →
      exec (.stfut d b la w ofs) s = .next (oks.foldl (State.storeLane 2 (q.ea b ofs) (fun l => toBytes (4 * k) (q.regsVal d.toNat k l)) true) q).finish))
  ∧ (∀ (la op k d l key : Nat) (leaf : Word64) (va : Nat → Nat) (s : State),
    let t := State.ldfutLane la op k d va s (l, [(key, 8, leaf)])
    let ph := 8 * s.me.base
    OnlyPending s t ∧ ∃ p, t.me.pend = s.me.pend.map p.yield ++ [p] ∧
      (s.sectorBad (sectorOf key) = true → p.fut = none ∧ p.bad = true)
      ∧ (s.sectorBad (sectorOf key) = false → p.bad = false
      ∧ (Sparse.get false (key / 8) s.dev.fut = true → p.fut = none ∧ Pending s p la op l (regVals ph d k l (rdNum s.mem key 8) ++ [⟨.p 14, l, 0⟩]))
      ∧ (Sparse.get false (key / 8) s.dev.fut = false → s.defersAt (sliceOf key) < 256 →
        p.fut = some (key / 8) ∧ Pending s p la op l (heldVals ph d k l) ∧ ∃ x ∈ t.dev.defer, x.granule = key / 8 ∧ x.fib = s.cur.fib ∧ x.op = op)
      ∧ (Sparse.get false (key / 8) s.dev.fut = false → 256 ≤ s.defersAt (sliceOf key) → (∀ x ∈ s.dev.defer, x.granule ≠ key / 8) →
        p.fut = none ∧ Pending s p la op l [⟨.p 14, l, 1⟩])))
  ∧ (∀ (g : Nat) (s : State), (s.answerFut g).mem = s.mem ∧ (∀ x ∈ (s.answerFut g).dev.defer, x.granule ≠ g) ∧ FutAnswered s (s.answerFut g) g)
  ∧ (∀ (c i : Nat) (b : WBuf) (s : State), (s.core c).wbuf.find? (fun x => x.id == i) = some b → b.fut = true → b.spad = false →
    (∀ x ∈ (s.core c).wbuf, x.id < i → overlaps b.key b.data.length x.key x.data.length = false) →
    (∀ r ∈ (s.core c).reds, r.id < i → overlaps b.key b.data.length r.key (if r.wide then 8 else 4) = false) →
    s.holds b.wg 1 b.va b.key = none → packetOk b.data b.check = true → s.GoodSector b.key b.data.length → s.Unwatched b.wg →
    ∃ t, exec (.writeAcknowledge c i) s = .next t ∧ BytesSet s t b.key b.data ∧ Sparse.get false (b.key / 8) t.dev.fut = true
      ∧ (∀ x ∈ t.dev.defer, x.granule ≠ b.key / 8) ∧ FutAnswered s t (b.key / 8))

/-- R175, R176: channel queues. QPUSH appends one element per active lane in lane order; QPOP removes as many from the front, the lowest active lane first;
QLEN counts. A push without room and a pop without enough elements wait and change no register and no queue. (Model's choices: log 25.) -/
def Obligations.ChannelQueues : Prop :=
  (∀ (q : BitVec 3) (a : BitVec 7) (s : State), s.Quiet → s.Ready (Uses.rdV a.toNat 1) →
    let data := (lanesOf s.cur.active).map (s.rv a.toNat)
    (64 < s.mySlot.qused q.toNat + data.length → exec (.qpush q a) s = .next (s.stall .queue))
    ∧ (s.mySlot.qused q.toNat + data.length ≤ 64 → s.me.pend = [] → s.mySlot.pushes = [] →
      ∃ t, exec (.qpush q a) s = .next t ∧ t.mem = s.mem ∧ VecKept s t ∧ UniKept s t ∧ PredKept s t ∧ StatusKept s t ∧ Advanced s t
        ∧ ∀ k, t.mySlot.qget k = if k = q.toNat then s.mySlot.qget k ++ data else s.mySlot.qget k))
  ∧ (∀ (d : BitVec 7) (q : BitVec 3) (s : State), s.Quiet → s.Ready (Uses.wrV d.toNat 1) →
    let ls := lanesOf s.cur.active
    let xs := s.mySlot.qget q.toNat
    (xs.length < ls.length → exec (.qpop d q) s = .next (s.stall .queue))
    ∧ (ls.length ≤ xs.length → ∃ t, exec (.qpop d q) s = .next t ∧ t.mem = s.mem ∧ Around s t ∧ UniKept s t ∧ PredKept s t ∧ StatusKept s t
      ∧ Advanced s t ∧ s.me.Kept t.me ∧ VecSet s t d.toNat s.cur.active (fun l => xs.getD (ls.filter (· < l)).length 0)
      ∧ ∀ k, t.mySlot.qget k = if k = q.toNat then xs.drop ls.length else s.mySlot.qget k))
  ∧ (∀ (d : BitVec 7) (q : BitVec 3) (s : State), s.Quiet → s.Ready (Uses.wrU d.toNat) →
    GivesUni (.qlen d q) d (BitVec.ofNat 64 (s.mySlot.qget q.toNat).length) s)

/-- R177 to R182, R185: ordering. A release waits until the earlier writes are acknowledged at its scope, at system
scope also for one flushing read on each host port that carried a write of the fibre, and then marks the core's latest release; an acquire
waits until the earlier loads have returned and, beyond core scope, empties the core's L1. FENCE performs the release first. CWAIT ends when at most n operations
of its class are outstanding. CINV empties L1. (Model's choices: log 24, 40.) -/
def Obligations.ReleaseAndAcquireOrder : Prop :=
  (∀ (p : BitVec 3) (k : BitVec 2) (l : BitVec 4) (s : State), s.Ready Uses.none →
    let r := if k.getLsbD 1 then s.didRelease s.cur.fib else s
    (k.getLsbD 1 = true → s.released s.cur.fib p.toNat = false → exec (.fence p k l) s = .next (s.stall .acknowledge))
    ∧ (k.getLsbD 1 = true → s.released s.cur.fib p.toNat = true → s.me.wfail = true →
      exec (.fence p k l) s = .next ((s.modMe (fun x => { x with wfail := false })).precise .dataCheck 0))
    ∧ (k.getLsbD 1 = true → p = 4 → s.released s.cur.fib 4 = true → s.me.wfail = false → (s.core s.me.core).posted.any (fun e => e.1 == s.cur.fib) = true →
      exec (.fence p k l) s = .next ((s.flushPorts s.cur.fib).stall .acknowledge).wake)
    ∧ ((k.getLsbD 1 = true → s.CanRelease p.toNat) →
      (k.getLsbD 0 = true → (s.me.loadsBack = false ∨ s.me.acqs ≠ []) → exec (.fence p k l) s = .next (r.stall .acquire))
      ∧ ((k.getLsbD 0 = true → s.me.loadsBack = true ∧ s.me.acqs = []) →
        exec (.fence p k l) s = .next (if k.getLsbD 0 then r.acquire r.cur.fib p.toNat else r).finish)))
  ∧ (∀ (f scope : Nat) (s : State), (s.acquire f scope).mem = s.mem ∧ (scope ≠ 0 → ((s.acquire f scope).core (s.fibre f).core).l1 = [])
    ∧ (scope = 0 → s.acquire f scope = s) ∧ (s.didRelease f).mem = s.mem
    ∧ ((s.didRelease f).core (s.fibre f).core).rel = (s.core (s.fibre f).core).nextId
    ∧ (s.flushPorts f).mem = s.mem ∧ (s.flushPorts f).dev.out = s.dev.out ++ (s.portsOf f).map Out.flush
    ∧ (s.portsOf f).Nodup ∧ (∀ b, b ∈ s.portsOf f ↔ (f, b) ∈ (s.core (s.fibre f).core).posted)
    ∧ ∀ e, e ∈ ((s.flushPorts f).core (s.fibre f).core).posted ↔ e ∈ (s.core (s.fibre f).core).posted ∧ e.1 ≠ f)
  ∧ (∀ (f scope : Nat) (s : State), s.released f scope = true ↔
    (∀ r ∈ (s.core (s.fibre f).core).reds, r.fib ≠ f) ∧ (∀ e ∈ (s.core (s.fibre f).core).eng, e.fib = f → e.kind ≠ .tst ∧ e.kind ≠ .ast)
      ∧ (scope ≠ 0 → ∀ b ∈ (s.core (s.fibre f).core).wbuf, b.fib ≠ f))
  ∧ (∀ (c : BitVec 2) (q : Bool) (n : BitVec 6) (l : BitVec 4) (s : State), s.Ready Uses.none →
    let cls := match c.toNat with | 0 => Cls.copy | 1 => Cls.mat | 2 => Cls.gath | _ => Cls.coll
    (s.me.count cls ≤ n.toNat → (q = true → s.me.loadsBack = true ∧ s.me.acqs = []) →
      exec (.cwait c q n l) s = .next (if q then s.acquire s.cur.fib 2 else s).finish)
    ∧ (n.toNat < s.me.count cls → (c = 1 → ∀ e ∈ (s.core s.me.core).eng, e.fib = s.cur.fib → e.broken = false) →
      exec (.cwait c q n l) s = .next (s.stall .counter))
    ∧ (n.toNat < s.me.count cls → c = 1 → (∃ e ∈ (s.core s.me.core).eng, e.fib = s.cur.fib ∧ e.broken = true) →
      exec (.cwait c q n l) s = .next (s.stopWg s.me.wg)))
  ∧ (∀ (l : BitVec 4) (s : State), s.Ready Uses.none → ∃ w : State, exec (.cinv l) s = .next w.finish ∧ OnlyPending s w ∧ (w.core s.me.core).l1 = [])
  ∧ (∀ (b : BitVec 7) (l : BitVec 4) (key n : Nat) (leaf : Word64) (s : State), s.Ready (Uses.rdU b.toNat) →
    s.checkPart s.me.core s.myPasid accRead (fun _ => true) (s.usrc b.toNat).toNat = .ok [(key, n, leaf)] →
    let o := Sparse.get 0 (key / 512) s.dev.lastWriter
    let t := if isDevice key && o != 0 && o != s.me.core + 1 then s.drainProbe (o - 1) else s
    (isDevice key = true → o ≠ 0 → o ≠ s.me.core + 1 → ∀ x ∈ (t.core (o - 1)).wbuf, (t.core (o - 1)).rel ≤ x.id) → t.me.loadsBack = true → t.me.acqs = [] →
    exec (.acqr b l) s = .next (t.acquire t.cur.fib 2).finish)
  ∧ (∀ (b : BitVec 7) (v : Bool) (l : BitVec 4) (key n : Nat) (leaf : Word64) (s : State), s.Ready (Uses.rdU b.toNat) →
    s.checkPart s.me.core s.myPasid accRead (fun leaf => fieldB leaf 5 4 == 0 || fieldB leaf 5 4 == 3) (s.usrc b.toNat).toNat = .ok [(key, n, leaf)] →
    ∃ w : State, exec (.pref b v l) s = .next w.finish ∧ OnlyPending s w ∧ (v = true → l1Page leaf = true → isDevice key = true → s.places s.me.core 1 = true →
      ∀ i, i < 8 → s.sectorBad (key / 512 * 8 + i) = false → Sparse.get [] (key / 512 * 8 + i) (w.core s.me.core).l1 ≠ []))

/-- R183, R186, R167, R228: ALLOC bumps a heap descriptor at its home and has the address, or 0, on its way; SPRES has the presence mask on its way; GATH counts
one gather and makes for each of its lanes one pending write of the lane's elements, the bytes of memory at each element's address, changing no register and no
byte; where no packet of the core is lost in transit, ALLOC changes the descriptor's next and nothing else; STG of a task appends its lanes to the staging area. (Model's choices: log 6.) -/
def Obligations.HeapGatherStage : Prop :=
  (∀ (b d : BitVec 7) (l : BitVec 4) (s : State) (oks : List (Nat × List (Nat × Nat × Word64))),
    let x := s.ru b.toNat
    let y := s.ru (b.toNat + 1)
    s.Ready { ((Uses.rdU b.toNat).and (Uses.rdU (b.toNat + 1))).and (Uses.wrU d.toNat) with la := l.toNat } → s.NoAcquire →
    fieldB x 63 57 = 0 → fieldB y 63 36 = 0 → 4 ≤ fieldB y 35 32 → fieldB y 35 32 ≤ 12 → s.doers ≠ 0 →
    s.Passes 2 accRmw 16 16 heapSup (fun _ => fieldB x 56 0) [0] oks → s.places s.me.core 1 = true → s.meetsWrites oks = false →
    exec (.alloc b d l) s = .next (oks.foldl (fun t o => o.2.foldl (State.allocPart l.toNat d.toNat (fieldB x 56 0) (fieldB y 31 0) (fieldB y 35 32)) t) s).finish)
  ∧ (∀ (la d va size al k : Nat) (leaf : Word64) (s : State), s.GoodSector k 16 → s.Unwatched s.me.wg → (s.core s.me.core).lost = false →
    let t := State.allocPart la d va size al s (k, 16, leaf)
    let next := rdNum s.mem k 8
    let limit := rdNum s.mem (k + 8) 8
    ∃ p : Pend, t.me.pend = s.me.pend.map p.yield ++ [p] ∧ t.slots = s.slots ∧
      (∀ a, a = (next + 2 ^ al - 1) % 2 ^ 64 / 2 ^ al * 2 ^ al → (next ≤ a ∧ a + size ≤ limit →
          BytesSet s t k (toBytes 8 (a + size)) ∧ Pending s p la s.me.nextId 0 [⟨.u d, 0, BitVec.ofNat 64 a⟩])
        ∧ (¬(next ≤ a ∧ a + size ≤ limit) → t.mem = s.mem ∧ Pending s p la s.me.nextId 0 [⟨.u d, 0, 0⟩])))
  ∧ (∀ (b d : BitVec 7) (l : BitVec 4) (s : State), s.Ready { (Uses.rdU b.toNat).and (Uses.wrU d.toNat) with la := l.toNat } →
    let e := ((s.usrc b.toNat).setWidth 32).toNat
    e < 2 ^ 24 → ∃ (w : State) (p : Pend), exec (.spres b d l) s = .next w.finish ∧ OnlyPending s w ∧ w.me.pend = s.me.pend.map p.yield ++ [p]
      ∧ Pending s p l.toNat s.me.nextId 0 [⟨.u d.toNat, 0, s.presenceMask e⟩])
  ∧ (∀ (e i : Nat) (s : State), e < 2 ^ 23 → i < 64 → (s.presenceMask e).getLsbD i =
    (decide (128 * (e % 2 ^ 21 / 128 + i) < s.myWg.ssize) && (s.core s.myWg.core).present (s.myWg.sbase + 128 * (e % 2 ^ 21 / 128 + i))))
  ∧ (∀ (b d : BitVec 7) (l : BitVec 4) (s : State) (oks : List (Nat × List (Nat × Nat × Word64))),
    let x := s.ru b.toNat
    let y := s.ru (b.toNat + 1)
    let i := fieldB y 6 0
    let n := fieldB y 9 7 + 1
    let k := fieldB y 10 10 + 1
    let va := fun (m : Nat) => (fieldB x 56 0 + (s.rv (i + m / 32) (m % 32)).toNat * (4 * k)) % 2 ^ 64
    s.Ready { (Uses.rdU b.toNat).and (Uses.rdU (b.toNat + 1)) with win := [(d.toNat, 1)], la := l.toNat } → s.Ready { (Uses.rdV i n).and (Uses.wrV d.toNat (n * k)) with la := l.toNat } → s.NoAcquire → s.cur.gbad = false →
    fieldB x 63 57 = 0 → fieldB y 63 11 = 0 → ¬(i < d.toNat + n * k ∧ d.toNat < i + n) → (k = 2 → d.toNat % 2 = 0) → s.me.count .gath < 63 →
    s.access s.me.core s.myPasid accRead (4 * k) (4 * k) (fun _ => true) va
      ((List.range n).flatMap (fun j => (lanesOf s.cur.active).map (fun ln => 32 * j + ln))) = ⟨oks, [], []⟩ →
    s.holdAny 0 va oks = none → s.places s.me.core (gathPlaces oks) = true → s.meetsWrites oks = false → oks ≠ [] →
    exec (.gath b d l) s = .next ((gathLanes (oks.map (·.1))).foldl (State.gathLane k d.toNat s.me.nextId l.toNat va oks n)
      (s.modMe (fun z => z.countUp .gath s.me.nextId))).finish)
  ∧ (∀ (k d op la n lane : Nat) (va key : Nat → Nat) (leaf : Nat → Word64) (oks : List (Nat × List (Nat × Nat × Word64))) (s : State), (k = 1 ∨ k = 2) →
    s.Unwatched s.me.wg → (∀ j, j < n → s.GoodSector (key j) (4 * k) ∧ oks.find? (fun o => o.1 == 32 * j + lane) = some (32 * j + lane, [(key j, 4 * k, leaf j)])) →
    let t := State.gathLane k d op la va oks n s lane
    OnlyPending s t ∧ ∃ p, t.me.pend = s.me.pend.map p.yield ++ [p] ∧ p.bad = false ∧ p.gath = true
      ∧ Pending s p la op lane ((List.range n).flatMap (fun j => regVals (8 * s.me.base) (d + k * j) k lane (rdNum s.mem (key j) (4 * k)))))
  ∧ (∀ (d b : BitVec 7) (l : BitVec 4) (w : BitVec 3) (ofs : BitVec 26) (s : State), s.inTask = true →
    s.Ready ((Uses.rdV b.toNat 2).and (Uses.rdV d.toNat (wRegs w.toNat))) →
    let n := wBytes w.toNat
    let ls := lanesOf s.doers
    let need := ls.length * (if n = 16 then 32 else 16)
    (∀ ln ∈ ls, s.ea b ofs ln % n = 0) →
    (s.myWg.stageSize < s.myWg.stagedUsed + need → exec (.stg d b l w ofs) s = .next (s.trigger s.me.wg s.cur.pc))
    ∧ (s.myWg.stagedUsed + need ≤ s.myWg.stageSize → ∃ t : State, exec (.stg d b l w ofs) s = .next t.finish ∧ t.mem = s.mem ∧ t.slots = s.slots ∧ t.me = s.me
      ∧ (t.wg s.me.wg).stagedUsed = s.myWg.stagedUsed + need
      ∧ (t.wg s.me.wg).staged = s.myWg.staged ++ ls.map (fun ln => ⟨s.ea b ofs ln, toBytes n (s.regsVal d.toNat (wRegs w.toNat) ln), s.cur.pc⟩)))

/-- R184, R299, R300: the signal unit. SIG releases and applies one operation to a granted counter, or holds it in a task and in a launch that started early; where its record finds
the fault queue full, it waits (R342). An add that
would pass 2^64 − 1 saturates and a write below the value is refused; both leave a record. Other counters are as before. (Model's choices: log 40.) -/
def Obligations.SignalsUpdateCounters : Prop :=
  (∀ (b : BitVec 7) (l : BitVec 4) (s : State), s.Ready ((Uses.rdU b.toNat).and (Uses.rdU (b.toNat + 1))) →
    let x := s.ru b.toNat
    let ctr := fieldB x 11 0
    let op := fieldB x 13 12
    let q := s.didRelease s.cur.fib
    let t := q.counterOp (q.fibreRec s.cur.fib .timeline) op ctr (s.ru (b.toNat + 1))
    fieldB x 63 15 = 0 → op < 2 → s.doers ≠ 0 → s.ctrOk s.myPasid ctr = true → s.CanRelease (if fieldB x 14 14 = 0 then 2 else 4) →
    (s.inTask = false → (s.launchOf s.me.wg).wasEarly = false →
      exec (.sig b l) s = .next (if q.waitsMore t s.myPasid then (q.faultRingWaits s.myPasid).stall .recordRoom else t.finish))
    ∧ (s.inTask = false → ∀ n, s.myWg.launch = some n → (s.launch n).wasEarly = true → ∃ t : State, exec (.sig b l) s = .next t.finish
      ∧ t.dev.counters = q.dev.counters ∧ (t.launch n).sigs = (s.launch n).sigs ++ [⟨ctr, op, s.ru (b.toNat + 1)⟩])
    ∧ (s.inTask = true → ∃ t : State, exec (.sig b l) s = .next t.finish ∧ t.dev.counters = q.dev.counters
      ∧ (t.wg s.me.wg).sigs = s.myWg.sigs ++ [⟨ctr, op, s.ru (b.toNat + 1)⟩]))
  ∧ (∀ (r : FRec) (i j : Nat) (v : Word64) (s : State),
    (s.counter i).toNat + v.toNat < 2 ^ 64 → (s.counterOp r 0 i v).counter j = if j = i then s.counter i + v else s.counter j)
  ∧ (∀ (r : FRec) (i : Nat) (v : Word64) (s : State), 2 ^ 64 ≤ (s.counter i).toNat + v.toNat →
    s.counterOp r 0 i v = (s.setCounter i (BitVec.allOnes 64)).report (counterRec r 0 i) RecInfo.zero)
  ∧ (∀ (r : FRec) (i j : Nat) (v : Word64) (s : State), s.counter i ≤ v → (s.counterOp r 1 i v).counter j = if j = i then v else s.counter j)
  ∧ (∀ (r : FRec) (i : Nat) (v : Word64) (s : State), v < s.counter i → s.counterOp r 1 i v = s.report (counterRec r 1 i) RecInfo.zero)

/-- R189, R193, R195, R202: TLD, TST, ALD, AST, TZERO and AZERO at issue. A block without reserved bits, tiles and accumulators inside the allocation, aligned
addresses, a scratchpad range inside the allocation it names and room in cnt.mat: the instruction enters one operation into the tile order. -/
def Obligations.TileIssue : Prop :=
  ∀ (b : BitVec 7) (l : BitVec 4) (s : State), s.me.count .mat < 63 →
    let bl := s.block b.toNat 2
    let a := bl.getD 0 0
    let x := bl.getD 1 0
    let e := a % 2 ^ 32
    (s.Ready (Uses.block b.toNat 2) → bits a 63 57 = 0 →
      (∀ tl, bits x 31 26 = 0 → bits x 63 58 = 0 → (bits x 15 6 + 1) * ((bits x 25 16 + 1) * 16) ≤ 16384 → bits x 57 32 % 16 = 0 → a % 16 = 0 →
        (bits x 5 5 = 1 → s.spadOut e (bits e 20 0 + (bits x 15 6 + 1 - 1) * bits x 57 32 + (bits x 25 16 + 1) * 16) = false) → s.tileOf (bits x 4 0) = some tl →
        (let op := s.newEng .tld bl [] [resTile tl]
         IssuesEngine (.tld b l) s { op with due := sectorList op.rows })
        ∧ (s.markedTask = false → s.doers ≠ 0 →
          let op := s.newEng .tst bl [resTile tl] []
          IssuesEngine (.tst b l) s { op with due := sectorList op.rows }))
      ∧ (∀ ac, bits x 8 6 < 5 → bits x 13 13 = 0 → s.accOf (bits x 4 0) = some ac →
        let dim := if bits x 8 6 = 3 then 64 else 128
        bits x 20 14 + bits x 27 21 + 1 ≤ dim → bits x 34 28 + bits x 41 35 + 1 ≤ dim → bits x 63 42 % mtSize (bits x 8 6) = 0 → a % mtSize (bits x 8 6) = 0 →
        (bits x 5 5 = 1 → s.spadOut e (bits e 20 0 + (bits x 27 21 + 1 - 1) * bits x 63 42 + (bits x 41 35 + 1) * mtSize (bits x 8 6)) = false) →
        (bits x 12 9 = 0 →
          let op := s.newEng .ald bl [] [resAcc ac]
          IssuesEngine (.ald b l) s { op with due := sectorList op.rows })
        ∧ (s.markedTask = false → s.doers ≠ 0 → bits x 11 9 < 4 →
          let op := s.newEng .ast bl [resAcc ac] []
          IssuesEngine (.ast b l) s { op with due := sectorList op.rows })))
    ∧ (∀ n : BitVec 5, s.Ready Uses.none → n.toNat < s.myWg.ntile →
      IssuesEngine (.tzero n l) s (s.newEng .tzero [] [] [resTile (s.myWg.tbase + n.toNat)]))
    ∧ (∀ n : BitVec 5, s.Ready Uses.none → n.toNat < s.myWg.nacc →
      IssuesEngine (.azero n l) s (s.newEng .azero [] [] [resAcc (s.myWg.abase + n.toNat)]))
    ∧ (∀ n : BitVec 5, s.myWg.ntile ≤ n.toNat → exec (.tzero n l) s = .next (s.precise .illegalRegister 0))
    ∧ (∀ n : BitVec 5, s.myWg.nacc ≤ n.toNat → exec (.azero n l) s = .next (s.precise .illegalRegister 0))

/-- R196 to R201, R204: MMA, MMAJ and AQ at issue. The scales and the bitmap are read then; AQ leaves a pending write of the present
lanes of its four scale registers. An illegal
block takes the illegal-instruction fault, and numbers beyond the allocation or the window the illegal-register fault. (Model's choices:
AQ reads its scale registers at issue, log 28.) -/
def Obligations.ProductIssue : Prop :=
  ∀ (b : BitVec 7) (l : BitVec 4) (s : State), s.Ready (Uses.block b.toNat 1) →
    let x := (s.ru b.toNat).toNat
    let w := s.myWg
    let ns := if (mfmt (mFa x)).mx then (mfmt (mFa x)).k / 32 else 0
    let nb := if mSp x then bmCount (mFa x) else 0
    let sa := bits x 30 24
    let sb := bits x 37 31
    let tiles := fun (f first : Nat) => if (mfmt f).w = 6 then [resTile first, resTile (first + 1)] else [resTile first]
    let op := fun (k : EngK) (n : Nat) =>
      { s.newEng k [x] (tiles (mFa x) (w.tbase + bits x 4 0) ++ tiles (mFb x) (w.tbase + bits x 9 5)) ((List.range n).map (fun i => resAcc (w.abase + bits x 14 10 + i))) with
        sa := s.scaleWords sa ns, sb := s.scaleWords sb ns, bm := s.block (bits x 44 39) nb, turn := w.mmajs, left := n }
    (∀ i ∈ [Instr.mma b l, .mmaj b l], mIllegal x = true → exec i s = .next (s.precise .illegalInstruction 0))
    ∧ (w.cgSize ≠ 4 → exec (.mmaj b l) s = .next (s.precise .illegalInstruction 0))
    ∧ (mIllegal x = false → s.mOutside x 1 = true → exec (.mma b l) s = .next (s.precise .illegalRegister 0))
    ∧ (mIllegal x = false → s.me.count .mat < 63 →
      s.Ready ((List.range ns).foldl (fun u g => (u.and (Uses.allV (sa + g))).and (Uses.allV (sb + g))) (Uses.block (bits x 44 39) nb)) →
      (s.mOutside x 1 = false → IssuesEngine (.mma b l) s (op .mma 1))
      ∧ (w.cgSize = 4 → s.mOutside x 4 = false → IssuesEngine (.mmaj b l) s (op .mmaj 4)))
    ∧ (∀ a tl, bits x 12 10 < 5 → bits x 63 23 = 0 → (bits x 12 10 ≠ 4 → bits x 22 22 = 0) → s.accOf (bits x 4 0) = some a → s.tileOf (bits x 9 5) = some tl →
      let sr := bits x 21 15
      sr + 4 ≤ 8 * s.me.size → s.me.count .mat < 63 → 
      s.Ready { (List.range 4).foldl (fun u g => u.and (Uses.allV (sr + g))) Uses.none with win := [], wr := Uses.grp sr 4, la := l.toNat } →
      IssuesEngineFor (.aq b l) s { s.newEng .aq [x] [resAcc a] [resTile tl] with sa := s.scaleWords sr 4, ent := some (8 * s.me.base + sr) } l.toNat
        ((List.range 4).flatMap (fun g => (lanesOf s.me.present).map (fun ln => (⟨.v (8 * s.me.base + sr + g), ln, 0⟩ : PVal)))))

/-- R124, R125, R189 to R191, R193 to R195, R197 to R204, R213: ENGINE_OP_COMPLETE performs engine operations in the tile order, and completes: the operation leaves the engine and falls
out of cnt.mat. A zeroing clears its tile or accumulator and nothing else. An MMA writes
every element of its accumulator from the old one, A, B, scales and bitmap, leaves every other byte alone, and counts its power; an MMAJ, performed once the four members of
its group have issued, does so in four accumulators with the B of each member; AQ writes the rows of its tile; SSLD and SSST move the quadrant's rows. A transfer whose sectors
all pass its checks moves its pieces and ends: a piece of a load writes its bytes at its place of the tile or accumulator and no other byte, a part of a store its bytes at
its address and no other byte. The remaining state-store operations are performed as their unit describes. An operation that reads a bad word breaks off. (Model's choices: log 3, 7, 28.) -/
def Obligations.EnginePerforms : Prop :=
  (∀ (c i : Nat) (o : EngOp) (s : State), s.MayPerform c i o →
    (o.kind ∈ [EngK.tzero, .azero, .mma] ∨ (o.kind ∈ [EngK.ssld, .ssfree] ∧ o.due ≠ []) → ∃ t, exec (.engineOpComplete c i) s = .next t
      ∧ (t.core c).eng = (s.core c).eng.filter (fun y => y.id != o.id) ∧ (t.fibre o.fib).outst = ((s.fibre o.fib).countDone .mat o.id).outst
      ∧ t.slots = s.slots ∧ ∀ f, f ≠ o.fib → t.fibre f = s.fibre f)
    ∧ (o.kind ∈ [EngK.tld, .tst, .ald, .ast] → o.due ≠ [] → o.onSpad = false → o.stalled = [] →
      let kind := if o.kind = .tld ∨ o.kind = .ald then 0 else 1
      let sec := secNo (o.pieces.headD ⟨0, 0, 16⟩).len
      let r := s.xferCheck c o.wg o.fib o.id kind ((o.pieces.zipIdx.filter (fun x => o.due.contains (sec x.2))).map (fun x => ⟨x.2, x.1.va % 2 ^ 64, x.1.len⟩))
      r.1.wait = [] → r.1.bad = [] → ∃ t, exec (.engineOpComplete c i) s = .next t ∧ (t.core c).eng = (s.core c).eng.filter (fun y => y.id != o.id))
    ∧ (o.kind = .mmaj → o.done = false →
      let peers := (List.range 4).filterMap (fun p => s.mmajPeer o p)
      let x := o.blk.getD 0 0
      let n := if mFa x = 9 then 64 else 128
      let size := if mFa x = 9 then 8 else 4
      let acc := o.acc0 s
      peers.length = 4 → (∀ p ∈ peers, (s.core p.1).tileReady p.2.id (p.2.readsB s) [] = true) →
      (∀ p ∈ peers, ∀ k, Ecc.tile k ∈ (s.core p.1).ecc → resTile k ∉ p.2.readsB s) →
      ∃ t, exec (.engineOpComplete c i) s = .next t ∧ (t.fibre o.fib).outst = ((s.fibre o.fib).countDone .mat o.id).outst
        ∧ (o.tileA s < 32 → (∀ p ∈ peers, p.2.tileB s < 32) → acc + 4 ≤ 24 →
          (∀ m p, peers[m]? = some p → ∀ r k, r < n → k < n → rdNum t.mem (accKey c (acc + m) (size * (n * r + k))) size =
            (s.mmaElem c (o.tileA s) p.1 (p.2.tileB s) (mFa x) (mFb x) (mSp x) o.bm o.sa p.2.sb r k
              (if mInit x then 0 else rdNum s.mem (accKey c (acc + m) (size * (n * r + k))) size)).1 % 2 ^ (8 * size))
          ∧ ∀ a, ¬(accKey c acc 0 ≤ a ∧ a < accKey c (acc + 4) 0) → rd8 t.mem a = rd8 s.mem a))
    ∧ (o.kind = .tzero → ∃ t, exec (.engineOpComplete c i) s = .next t ∧ (t.core c).eng = (s.core c).eng.filter (fun y => y.id != o.id)
      ∧ ∀ a, rd8 t.mem a = if tileKey c (o.writes.headD 0) 0 ≤ a ∧ a < tileKey c (o.writes.headD 0) 16384 then 0 else rd8 s.mem a)
    ∧ (o.kind = .azero → ∃ t, exec (.engineOpComplete c i) s = .next t ∧ (t.core c).eng = (s.core c).eng.filter (fun y => y.id != o.id)
      ∧ ∀ a, rd8 t.mem a = if accKey c (o.writes.headD 0 - 32) 0 ≤ a ∧ a < accKey c (o.writes.headD 0 - 32) 65536 then 0 else rd8 s.mem a)
    ∧ (o.kind = .mma →
      let x := o.blk.getD 0 0
      let n := if mFa x = 9 then 64 else 128
      let size := if mFa x = 9 then 8 else 4
      let acc := o.acc0 s
      ∃ t, exec (.engineOpComplete c i) s = .next t ∧ (t.core c).eng = (s.core c).eng.filter (fun y => y.id != o.id)
        ∧ (∀ r k, r < n → k < n → rdNum t.mem (accKey c acc (size * (n * r + k))) size =
          (s.mmaElem c (o.tileA s) c (o.tileB s) (mFa x) (mFb x) (mSp x) o.bm o.sa o.sb r k
            (if mInit x then 0 else rdNum s.mem (accKey c acc (size * (n * r + k))) size)).1 % 2 ^ (8 * size))
        ∧ ∀ a, ¬(accKey c acc 0 ≤ a ∧ a < accKey c acc (size * (n * n))) → rd8 t.mem a = rd8 s.mem a)
    ∧ (o.kind = .aq →
      let x := o.blk.getD 0 0
      let w := (narrowFmt (bits x 12 10)).w
      let off := fun r => if w = 6 then 96 * r else 128 * r + (if w = 4 then 64 * bits x 22 22 else 0)
      let tl := o.writes.headD 0
      ∃ t, exec (.engineOpComplete c i) s = .next t ∧ (t.core c).eng = (s.core c).eng.filter (fun y => y.id != o.id)
        ∧ (∀ r, r < 128 → rdBytes t.mem (tileKey c tl (off r)) (16 * w) =
          toBytes (16 * w) (packRow w ((List.range 4).flatMap (fun k => (s.aqBlock c (o.reads.headD 32 - 32) (bits x 12 10) (bits x 14 13) o.sa r k).1))))
        ∧ ∀ a, (∀ r, r < 128 → ¬(tileKey c tl (off r) ≤ a ∧ a < tileKey c tl (off r) + 16 * w)) → rd8 t.mem a = rd8 s.mem a)
    ∧ (o.kind = .ssld → o.due ≠ [] →
      let q := bits (o.blk.getD 0 0) 46 45
      let ac := o.writes.headD 32 - 32
      ∃ t, exec (.engineOpComplete c i) s = .next t
        ∧ ((s.core c).ssOf o.ent = none → ∀ r k, r < 64 → k < 256 → rd8 t.mem (quadKey c ac q r 0 + k) = 0)
        ∧ (∀ e, (s.core c).ssOf o.ent = some e → ac + 9 * e.idx / 4 < 23 → ∀ r k, r < 64 → k < 256 →
          rd8 t.mem (quadKey c ac q r 0 + k) = rd8 s.mem (ssKey c e.idx 0 (256 * r) + k))
        ∧ ∀ a, (∀ r, r < 64 → ¬(quadKey c ac q r 0 ≤ a ∧ a < quadKey c ac q r 0 + 256)) → rd8 t.mem a = rd8 s.mem a)
    ∧ (∀ e, o.kind = .ssst → o.due ≠ [] → o.created = false → (s.core c).ssOf o.ent = some e →
      let q := bits (o.blk.getD 0 0) 46 45
      let ac := o.reads.headD 32 - 32
      ∃ t, exec (.engineOpComplete c i) s = .next t ∧ (t.core c).eng = (s.core c).eng.filter (fun y => y.id != o.id)
        ∧ (ac + 9 * e.idx / 4 < 23 → ∀ r k, r < 64 → k < 256 → rd8 t.mem (ssKey c e.idx 0 (256 * r) + k) = rd8 s.mem (quadKey c ac q r 0 + k))
        ∧ ∀ a, ¬(ssKey c e.idx 0 0 ≤ a ∧ a < ssKey c e.idx 0 0 + 16384) → rd8 t.mem a = rd8 s.mem a)
    ∧ (o.kind ∈ [EngK.tld, .tst, .ald, .ast] → o.due ≠ [] → exec (.engineOpComplete c i) s = .next (s.runRect c o))
    ∧ (o.kind = .mmaj → exec (.engineOpComplete c i) s = .next (s.runMmaj c o))
    ∧ (o.kind ∈ [EngK.ssnap, .ssrb, .ssqry, .ssfree] → o.due ≠ [] → o.created = false → exec (.engineOpComplete c i) s = .next (s.runSS c o))
    ∧ (o.kind = .sscopy → o.due ≠ [] → exec (.engineOpComplete c i) s = .next ((s.eccWritten c o).runSS c o)))
  ∧ (∀ (c : Nat) (o : EngOp) (p : Piece) (rd : List Byte) (s : State),
    (o.kind = .tld → BytesSet s (s.loadPiece c o p rd) (tileKey c (o.writes.headD 0) p.off) rd)
    ∧ (o.kind = .ald → let mt := bits (o.blk.getD 1 0) 8 6
      BytesSet s (s.loadPiece c o p rd) (accKey c (o.writes.headD 32 - 32) p.off) (toBytes (if mt = 3 then 8 else 4) (aldElem mt (ofBytes rd)).1))
    ∧ (o.kind = .tst → s.pieceData c o p = (rdBytes s.mem (tileKey c (o.reads.headD 0) p.off) p.len, 0))
    ∧ (o.kind = .ast → let b := o.blk.getD 1 0
      let v := astElem (bits b 8 6) (bits b 11 9) (bits b 12 12 == 1) (rdNum s.mem (accKey c (o.reads.headD 32 - 32) p.off) (if bits b 8 6 = 3 then 8 else 4))
      s.pieceData c o p = (toBytes p.len v.1, v.2)))
  ∧ (∀ (c f w va key : Nat) (leaf : Word64) (data : List Byte) (s : State), s.GoodSector key data.length → s.Unwatched w → (s.core c).lost = false →
    BytesSet s (s.engWrite c f w va key leaf data) key data)
  ∧ (∀ (c i : Nat) (o : EngOp) (s : State), (s.core c).eng.find? (fun x => x.id == i) = some o → (s.core c).tileReady i o.reads o.writes = false →
    exec (.engineOpComplete c i) s = .next s)
  ∧ (∀ (c i : Nat) (o : EngOp) (s : State), (s.core c).eng.find? (fun x => x.id == i) = some o → o.broken = false →
    (s.core c).tileReady i o.reads o.writes = true → (s.core c).engBad o = true → c < Config.cores →
    exec (.engineOpComplete c i) s = .next (s.breakEng c o) ∧ (s.breakEng c o).fibres = s.fibres
    ∧ ((s.breakEng c o).core c).eng = (s.core c).eng.map (fun y => if y.id = o.id then { y with broken := true } else y))

/-- R205 to R208: copies. CPY and CPYT issue one copy operation, counted by cnt.copy; a CPY clears the presence of the lines it will write. A sector that
arrives writes its bytes at the destination and nothing else, counts them at the barrier, makes present the lines that no copy still owes, and the last one ends the copy. (Model's choices: log 3, 10.) -/
def Obligations.CopiesBySector : Prop :=
  (∀ (b br : BitVec 7) (l : BitVec 4) (tile : Bool) (s : State),
    let d1 := (s.ru (b.toNat + 1)).toNat
    let dims := bits d1 34 32 + 1
    let bl := s.block b.toNat (3 + dims)
    let x0 := bl.getD 0 0
    let x2 := bl.getD 2 0
    let x3 := bl.getD 3 0
    let dst := bits d1 31 0
    let ext := ([bits x2 31 0, bits x2 47 32, bits x2 63 48, bits x3 15 0, bits x3 31 16]).take dims
    let strs := (List.range (dims - 1)).map (fun k => bl.getD (4 + k) 0)
    let total := ext.foldl (· * ·) 1
    s.Ready (Uses.block b.toNat 4) → s.Ready (Uses.block b.toNat (3 + dims)) → dims ≤ 5 → b.toNat + dims + 3 ≤ 64 → bits x0 63 57 = 0 → bits d1 63 35 = 0 → bits x3 63 32 = 0 →
    (∀ v ∈ strs, bits v 63 57 = 0 ∧ v % 16 = 0) → br.toNat < s.myWg.nbar → s.doers ≠ 0 → bits x0 56 0 % 16 = 0 → ext.headD 0 % 16 = 0 → total ≠ 0 →
    s.me.count .copy < 63 → bits dst 23 23 = 0 →
    (tile = true → bits d1 31 19 = 0 ∧ bits dst 18 14 < s.myWg.ntile ∧ bits dst 13 0 + total ≤ 16384) →
    (tile = false → bits dst 31 24 = 0 ∧ bits dst 20 0 + total ≤ s.myWg.ssize ∧ s.myWg.core = s.me.core) →
    ∃ (t : State) (o : CopyOp), exec (if tile then .cpyt b br l else .cpy b br l) s = .next t.finish ∧ t.mem = s.mem ∧ t.slots = s.slots
      ∧ (t.core s.me.core).copies = (s.core s.me.core).copies ++ [o] ∧ t.me.outst = s.me.outst ++ [⟨.copy, o.id, false⟩] ∧ t.me.frontier = s.me.frontier
      ∧ o.src = bits x0 56 0 ∧ o.ext = ext ∧ o.str = strs ∧ o.total = total ∧ o.bar = s.myWg.bbase + br.toNat ∧ o.due = List.range ((total + 63) / 64)
      ∧ o.dst = (if tile then tileKey s.me.core (s.myWg.tbase + bits dst 18 14) (bits dst 13 0) else spadKey s.me.core (s.myWg.sbase + bits dst 20 0))
      ∧ (tile = false → ∀ off, s.myWg.sbase + bits dst 20 0 ≤ off → off < s.myWg.sbase + bits dst 20 0 + total → (t.core s.me.core).present off = false))
  ∧ (∀ (c n : Nat) (o : CopyOp) (data : List Byte) (s : State), 64 * n < o.total → data.length = min 64 (o.total - 64 * n) →
    let t := s.deliver c o n data
    BytesSet s t (o.dst + 64 * n) data ∧ t.slots = s.slots
    ∧ (t.barrier o.tcore o.bar).bgot = (s.barrier o.tcore o.bar).bgot + BitVec.ofNat 32 (min 64 (o.total - 64 * n))
    ∧ (∀ k b, k ≠ o.tcore ∨ b ≠ o.bar → t.barrier k b = s.barrier k b)
    ∧ (o.tile = false → ∀ off, o.off + 64 * n ≤ off → off < o.off + 64 * n + min 64 (o.total - 64 * n) → t.owed o.tcore (off / 128) = false →
      (t.core o.tcore).present off = true)
    ∧ (o.due.filter (· != n) = [] → o.stalled = [] → ∀ y ∈ (t.core c).copies, y.id ≠ o.id))
  ∧ (∀ (c i n : Nat) (o : CopyOp) (s : State), (s.core c).copies.find? (fun x => x.id == i) = some o → n ∈ o.due →
    c < Config.cores → (o.ordered = true → ∀ m ∈ o.due, n ≤ m) → s.stsUnderWay o n = false →
    (∀ b ∈ (s.core c).wbuf, b.fib = o.fib → i ≤ b.id) → (∀ r ∈ (s.core c).reds, r.fib = o.fib → i ≤ r.id) →
    (o.tile = true → (s.core c).tileReady i [] [resTile o.off] = true) →
    let ch := o.chunks n
    let r := s.xferCheck c o.wg o.fib i 0 (ch.zipIdx.map (fun x => ⟨x.2, x.1.1, 16⟩))
    (r.1.wait = [] → r.1.bad = [] → exec (.copySectorArrival c i n) s =
      .next (let d := r.1.ok.foldl (fun (a : List Byte × State) x =>
          (a.1 ++ a.2.homeRead o.wg (ch.getD x.1 (0, 0)).1 x.2.1 16, ((a.2.noteAccess o.wg 0 (ch.getD x.1 (0, 0)).1 x.2.1 x.2.2).noteL2 x.2.2 (c + 1) false x.2.1 16).reqPeer 9 x.2.1)) ([], r.2)
        d.2.deliver c o n d.1))
    ∧ (r.1.wait ≠ [] → exec (.copySectorArrival c i n) s = .next r.2)
    ∧ (r.1.wait = [] → r.1.bad ≠ [] → exec (.copySectorArrival c i n) s = .next (r.2.copyBad c o n r.1.bad)))

/-- R37, R38, R209 to R211: named barriers. A barrier whose arrivals and bytes have come is released: its phase flips, arrivals and expectations are zero, and
bytes beyond the expectation stay. BARR arrives after a core-scope release, BEXP adds expectations, BWAIT passes when the phase differs from the fibre's bit or a
release has come while it blocked, and flips the bit, BTRY tells by p14 and never blocks. A number beyond the allocation takes the illegal-register fault. -/
def Obligations.NamedBarriers : Prop :=
  (∀ x : Barrier, (x.atgt ≤ x.agot → x.bexp ≤ x.bgot → x.eval = ⟨0, x.bgot - x.bexp, 0, 0, !x.phase⟩) ∧ (¬(x.atgt ≤ x.agot ∧ x.bexp ≤ x.bgot) → x.eval = x)
    ∧ (x.arrive.agot.toNat = min 63 (x.agot.toNat + 1))
    ∧ ∀ n m, (x.expect n m).bexp.toNat = min (2 ^ 32 - 1) (x.bexp.toNat + n) ∧ (x.expect n m).atgt.toNat = min 63 (x.atgt.toNat + m))
  ∧ (∀ (b : BitVec 7) (l : BitVec 4) (s : State), s.myWg.nbar ≤ b.toNat →
    ∀ i ∈ [Instr.barr b l, .bwait b l, .btry b l, .bexp 0 b l], exec i s = .next (s.precise .illegalRegister 0))
  ∧ (∀ (b r : BitVec 7) (l : BitVec 4) (s : State), b.toNat < s.myWg.nbar →
    let c := s.me.core
    let k := s.myWg.bbase + b.toNat
    let x := s.barrier c k
    let old := s.me.waitPhase.getLsbD b.toNat
    let free := s.me.bwait = some (b.toNat, s.cur.age, s.cur.pc, true)
    let evaluated := fun (t : State) (y : Barrier) => t.mem = s.mem ∧ t.slots = s.slots ∧ t.cur = s.cur ∧ (∀ f, ∃ w, t.fibre f = { s.fibre f with bwait := w })
      ∧ t.barrier c k = y ∧ ∀ j, j ≠ k → t.barrier c j = s.barrier c j
    (s.Ready Uses.none → s.CanRelease 0 → ∃ t : State, exec (.barr b l) s = .next t.finish ∧ evaluated t x.arrive.eval)
    ∧ (s.Ready (Uses.rdU r.toNat) →
      let v := (s.usrc r.toNat).toNat
      ∃ t : State, exec (.bexp r b l) s = .next t.finish ∧ evaluated t (x.expect (bits v 31 0) (bits v 37 32)).eval)
    ∧ (s.Ready Uses.none → x.phase = old → ¬free → (∀ e ∈ (s.core c).eng, e.wg = s.me.wg → e.broken = false) →
      exec (.bwait b l) s = .next ((s.modMe (fun y => { y with bwait := some (b.toNat, s.cur.age, s.cur.pc, false) })).stall .barrier))
    ∧ (s.Ready Uses.none → x.phase = old → ¬free → (∃ e ∈ (s.core c).eng, e.wg = s.me.wg ∧ e.broken = true) →
      exec (.bwait b l) s = .next (s.stopWg s.me.wg))
    ∧ (s.Ready Uses.none → (x.phase ≠ old ∨ free) → s.me.loadsBack = true → s.me.acqs = [] →
      ∃ t : State, exec (.bwait b l) s = .next t.finish ∧ t.mem = s.mem ∧ t.slots = s.slots ∧ t.cores = s.cores ∧ t.me.frontier = s.me.frontier
        ∧ t.me.bwait = none ∧ ∀ j, j < 128 → t.me.waitPhase.getLsbD j = if j = b.toNat then !old else s.me.waitPhase.getLsbD j)
    ∧ (s.Ready { Uses.wrP 14 with la := l.toNat } → x.phase = old →
      GivesLate (.btry b l) l.toNat ((lanesOf s.cur.active).map (fun ln => ⟨.p 14, ln, 1⟩)) s
      ∧ (l = 0 → s.Quiet → s.mySlot.pushes = [] → GivesPred (.btry b l) 14 (fun _ => true) s))
    ∧ (s.Ready { Uses.wrP 14 with la := l.toNat } → x.phase ≠ old →
      (∃ (w : State) (p : Pend), exec (.btry b l) s = .next w.finish ∧ w.mem = s.mem ∧ w.slots = s.slots ∧ w.me.frontier = s.me.frontier
        ∧ w.me.pend = s.me.pend.map p.yield ++ [p] ∧ p.vals = (lanesOf s.cur.active).map (fun ln => (⟨.p 14, ln, 0⟩ : PVal)) ∧ p.shadow = l.toNat + 1
        ∧ p.arrived = true ∧ (∀ j, j < 128 → w.me.waitPhase.getLsbD j = if j = b.toNat then x.phase else s.me.waitPhase.getLsbD j)
        ∧ (s.me.loadsBack = true → s.me.acqs = [] → w.me.acqs = [])
        ∧ (s.me.loadsBack = false → (∀ q ∈ s.me.pend, q.id < s.me.nextId) → w.me.acqs ≠ []))
      ∧ (l = 0 → s.Quiet → s.mySlot.pushes = [] → ∃ t, exec (.btry b l) s = .next t ∧ t.mem = s.mem ∧ VecKept s t ∧ UniKept s t ∧ Advanced s t
        ∧ PredSet s t 14 s.cur.active (fun _ => false) ∧ t.me.waitPhase.getLsbD b.toNat = x.phase)))
  ∧ (∀ (c k : Nat) (s : State), (s.barrier c k).eval ≠ s.barrier c k → ∀ f n age pc v, (s.fibre f).bwait = some (n, age, pc, v) →
    (s.wg (s.fibre f).wg).core = c → (s.wg (s.fibre f).wg).bbase + n = k → ((s.evalBarrier c k).fibre f).bwait = some (n, age, pc, true))
  ∧ (∀ (c b : Nat) (s : State), (s.core c).evals.contains b = true → (s.barrier c b).bexp ≠ 0 →
    ∃ t, exec (.barrierByteEvaluation c b) s = .next t ∧ t.mem = s.mem ∧ t.barrier c b = (s.barrier c b).eval ∧ (t.core c).evals = (s.core c).evals.filter (· != b))

/-- R43, R212 to R217, R386, R387 at issue. A state-store instruction judges the presence of its entry now, binds its workgroup to the core, and enters one
operation in the tile order; an SSST or SSCOPY without its entry creates one, an SSFREE takes the entry out of the directory. SSNAP and SSCOPY of an absent entry, and a
creation without room, take the state-store fault, and a spill address of a new entry that is not a multiple of 256 the misaligned fault; reserved bits take the
illegal-instruction fault. -/
def Obligations.StateStoreIssue : Prop :=
  ∀ (b d : BitVec 7) (l : BitVec 4) (s : State), s.me.count .mat < 63 →
    let b1 := s.block b.toNat 1
    let b2 := s.block b.toNat 2
    let x := b2.getD 0 0
    let y := b2.getD 1 0
    let c := s.me.core
    let slot := bits x 23 0
    let layer := bits x 39 24
    let dir := (s.core c).ss
    let e := (s.core c).ssFind slot layer
    let f := (s.core c).ssFind (bits y 23 0) layer
    let op := fun (k : EngK) (bl reads writes : List Nat) (src dst : Option SSEntry) =>
      ({ s.newEng k bl reads (writes ++ entRes src ++ entRes dst) with due := [0], ent := src.map (·.uid), ent2 := dst.map (·.uid) } : EngOp)
    let n := (s.core c).nextId
    let made := fun (o : EngOp) => ({ o with id := n + 1, created := true } : EngOp)
    let illegal := fun (i : Instr) => exec i s = .next (s.precise .illegalInstruction 0)
    let absent := fun (i : Instr) => exec i s = .next (s.bindWg.laneFault .stateStore accRead 0)
    ((s.Ready (Uses.block b.toNat 1) → (bits x 63 47 ≠ 0 → illegal (.ssld b l)) ∧ (bits x 63 40 ≠ 0 → illegal (.ssfree b l)))
      ∧ (s.Ready (Uses.block b.toNat 2) → (bits x 63 47 ≠ 0 ∨ bits y 63 57 ≠ 0 → illegal (.ssst b l))
        ∧ (bits x 63 40 ≠ 0 ∨ bits y 63 32 ≠ 0 → illegal (.ssnap b l)) ∧ (bits x 63 40 ≠ 0 ∨ bits y 63 24 ≠ 0 → illegal (.sscopy b l)))
      ∧ (s.Ready { (Uses.block b.toNat 2).and (Uses.wrP 14) with la := l.toNat } → bits x 63 40 ≠ 0 ∨ bits y 63 32 ≠ 0 → illegal (.ssrb b l))
      ∧ (s.Ready { (Uses.block b.toNat 1).and ((List.range 5).foldl (fun u i => u.and (Uses.wrU (d.toNat + i))) Uses.none) with la := l.toNat } →
        bits x 63 40 ≠ 0 → illegal (.ssqry b d l)))
    ∧ (bits x 63 47 = 0 →
    (∀ a, s.accOf (bits x 44 40) = some a →
      (s.Ready (Uses.block b.toNat 1) → IssuesStateStore (.ssld b l) s (op .ssld b1 [] [resAcc a] e none) dir)
      ∧ (s.Ready (Uses.block b.toNat 2) → bits y 63 57 = 0 → (e ≠ none → IssuesStateStore (.ssst b l) s (op .ssst b2 [resAcc a] [] e none) dir)
        ∧ (e = none → bits y 56 0 % 256 = 0 → ∀ i, s.ssFree c = some i →
          let z : SSEntry := ⟨n, i, false, slot, layer, [], bits y 56 0⟩
          IssuesStateStore (.ssst b l) s (made (op .ssst b2 [resAcc a] [] (some z) none)) (dir ++ [z]))
        ∧ (e = none → bits y 56 0 % 256 = 0 → s.ssFree c = none → absent (.ssst b l))
        ∧ (e = none → bits y 56 0 % 256 ≠ 0 → exec (.ssst b l) s = .next (s.bindWg.laneFault .misaligned accWrite (bits y 56 0)))))
    ∧ (bits x 46 40 = 0 →
      (s.Ready (Uses.block b.toNat 2) →
        (bits y 63 32 = 0 → e ≠ none → IssuesStateStore (.ssnap b l) s (op .ssnap b2 [] [] e none) dir)
        ∧ (bits y 63 32 = 0 → e = none → absent (.ssnap b l))
        ∧ (bits y 63 24 = 0 → (e = none → absent (.sscopy b l))
          ∧ (e ≠ none → bits y 23 0 = slot → IssuesStateStore (.sscopy b l) s (op .sscopy b2 [] [] e none) dir)
          ∧ (e ≠ none → bits y 23 0 ≠ slot → f ≠ none → IssuesStateStore (.sscopy b l) s (op .sscopy b2 [] [] e f) dir)
          ∧ (e ≠ none → bits y 23 0 ≠ slot → f = none → ∀ i, s.ssFree c = some i →
            let z : SSEntry := ⟨n, i, false, bits y 23 0, layer, [], 0⟩
            IssuesStateStore (.sscopy b l) s (made (op .sscopy b2 [] [] e (some z))) (dir ++ [z]))
          ∧ (e ≠ none → f = none → s.ssFree c = none → absent (.sscopy b l))))
      ∧ (s.Ready (Uses.block b.toNat 1) → IssuesStateStore (.ssfree b l) s (op .ssfree b1 [] [] e none)
          (dir.map (fun z => if (e.map (·.uid)) = some z.uid then { z with dead := true } else z)))
      ∧ (s.Ready { (Uses.block b.toNat 2).and (Uses.wrP 14) with la := l.toNat } → bits y 63 32 = 0 →
        IssuesEngineFor (.ssrb b l) s (op .ssrb b2 [] [] e none) l.toNat ((lanesOf s.cur.active).map (fun ln => ⟨.p 14, ln, 0⟩)))
      ∧ (s.Ready { (Uses.block b.toNat 1).and ((List.range 5).foldl (fun u i => u.and (Uses.wrU (d.toNat + i))) Uses.none) with la := l.toNat } →
        IssuesEngineFor (.ssqry b d l) s (op .ssqry b1 [] [] e none) l.toNat ((List.range 5).map (fun i => ⟨.u (d.toNat + i), 0, BitVec.ofNat 64 i⟩)))))

/-- R222, R223, R226, R227, R231, R232, R236: the task pool. TKSPAWN places a valid record in the pool after a device-scope release, at the front or the back; in a
task it stages the record. TKEND marks the workgroup and retires its lanes. TKSPLIT unpicks a task that can be split. TKINFO reads the running record;
its result lands behind its shadow. (Model's choices: a TKSPAWN whose kernel descriptor lies in a host page not yet asked for waits, log 49.) -/
def Obligations.TaskInstructions : Prop :=
  (∀ (b : BitVec 7) (l : BitVec 4) (o : Nat × List (Nat × Nat × Word64)) (s : State),
    let x := s.usrc b.toNat
    let va := fieldB x 56 0
    let r := ofBytes (o.2.flatMap (fun p => rdBytes s.mem p.1 p.2.1))
    let q := s.didRelease s.cur.fib
    s.Ready (Uses.rdU b.toNat) → fieldB x 63 57 = 0 → s.doers ≠ 0 →
    s.access s.me.core s.myPasid accRead 64 64 (fun _ => true) (fun _ => va) [0] = ⟨[o], [], []⟩ → s.meetsWrites [o] = false →
    (∀ p ∈ o.2, s.rangeBad p.1 p.2.1 = false) →
    (s.recordWaits s.myPasid r = true → exec (.tkspawn b l) s = .next ((s.askHost s.myPasid (tEntry r) false).stall .translation))
    ∧ (s.recordWaits s.myPasid r = false → s.recordOk s.myPasid r = false → exec (.tkspawn b l) s =
      .next (s.splitFaults ((lanesOf s.cur.active).map (fun ln => ⟨ln, .taskRecord, 0, accRead, va, va⟩)) Uses.none (fun _ t => t)))
    ∧ (s.recordWaits s.myPasid r = false → s.recordOk s.myPasid r = true → s.inTask = true → s.myWg.stagedUsed + 64 ≤ s.myWg.stageSize → ∃ t : State, exec (.tkspawn b l) s = .next t.finish
      ∧ t.mem = s.mem ∧ t.me = s.me ∧ t.slots = s.slots ∧ t.ctxs = s.ctxs
      ∧ t.wg s.me.wg = { s.myWg with stagedRecs := s.myWg.stagedRecs ++ [r], stagedUsed := s.myWg.stagedUsed + 64 })
    ∧ (s.recordWaits s.myPasid r = false → s.recordOk s.myPasid r = true → s.inTask = true → s.myWg.stageSize < s.myWg.stagedUsed + 64 → exec (.tkspawn b l) s = .next (s.trigger s.me.wg s.cur.pc))
    ∧ (s.recordWaits s.myPasid r = false → s.recordOk s.myPasid r = true → s.inTask = false → s.CanRelease 2 → q.poolRoom s.myPasid 1 = true →
      exec (.tkspawn b l) s = .next (q.poolPut s.myPasid (tFront r) r).finish)
    ∧ (s.recordWaits s.myPasid r = false → s.recordOk s.myPasid r = true → s.inTask = false → s.CanRelease 2 → q.poolRoom s.myPasid 1 = false → exec (.tkspawn b l) s = .next (q.stall .poolRoom)))
  ∧ (∀ (p r : Nat) (front : Bool) (s : State), let t := s.poolPut p front r
    (t.ctx p).pool = (if front then ⟨s.freePlace p, r⟩ :: (s.ctx p).pool else (s.ctx p).pool ++ [⟨s.freePlace p, r⟩])
    ∧ (∀ k, k ≠ p → t.ctx k = s.ctx k) ∧ t.fibres = s.fibres ∧ t.slots = s.slots ∧ t.wgs = s.wgs ∧ ¬(s.freePlace p ∈ s.usedPlaces p))
  ∧ (∀ (l : BitVec 4) (s : State), s.Ready Uses.none →
    (s.inTask = true → ∃ t : State, exec (.tkend l) s = .next t.exitActive ∧ t.wg s.me.wg = { s.myWg with tkend := true, trigger := some s.cur.pc }
      ∧ t.mem = s.mem ∧ t.fibres = s.fibres ∧ t.slots = s.slots ∧ t.cur = s.cur)
    ∧ (s.inTask = false → exec (.tkend l) s = exec .exit s)
    ∧ (s.inTask = true → parks s.myWg.task = true → exec (.tksplit l) s = .next s.finish)
    ∧ (s.inTask = true → parks s.myWg.task = false → exec (.tksplit l) s = .next (s.trigger s.me.wg s.cur.pc)))
  ∧ (∀ (l : BitVec 4) (s : State), s.inTask = false → exec (.tksplit l) s = .next (s.precise .illegalInstruction 0))
  ∧ (∀ (w : Nat) (pc : Word64) (s : State), let t := s.trigger w pc
    t.mem = s.mem ∧ t.fibres = s.fibres ∧ t.slots = s.slots
    ∧ ((s.wg w).state = .running → t.wg w = { s.wg w with state := .unpicking, trigger := some pc }) ∧ ((s.wg w).state ≠ .running → t.wgs = s.wgs))
  ∧ (∀ (b d : BitVec 7) (l : BitVec 4) (s : State), s.Ready { (Uses.rdU b.toNat).and (Uses.wrU d.toNat) with la := l.toNat } →
    let x := (s.usrc b.toNat).toNat
    let w := s.myWg
    (10 ≤ x → exec (.tkinfo b d l) s = .next (s.precise .illegalInstruction 0))
    ∧ (x < 10 →
      let v : Word64 := if w.isTask = false then 0 else if x < 8 then BitVec.ofNat 64 (w.task / 2 ^ (64 * x)) else if x = 8 then BitVec.ofNat 64 (s.timeUsed w)
        else BitVec.ofNat 64 w.stagedUsed
      GivesLate (.tkinfo b d l) l.toNat [⟨.u d.toNat, 0, v⟩] s ∧ (l = 0 → s.Quiet → s.mySlot.pushes = [] → GivesUni (.tkinfo b d l) d v s)))

/-- R230: SALLOC sets and SFREE clears the presence bits of the lines of a range of the allocation, and touch no other line, register or byte. Misaligned ranges,
ranges outside and remote addresses fault; an SALLOC of a task beyond its allocation triggers its split. (Model's choices: a range of length zero beyond
the allocation faults, log 49.) -/
def Obligations.ScratchpadRanges : Prop :=
  ∀ (b : BitVec 7) (l : BitVec 4) (s : State), s.Ready (Uses.rdU b.toNat) →
    let x := s.usrc b.toNat
    let off := fieldB x 20 0
    let n := fieldB x 52 32
    let w := s.myWg
    let bad := fun (k : FKind) => s.laneFault k accWrite (fieldB x 31 0)
    (∀ i ∈ [Instr.salloc b l, .sfree b l],
      (fieldB x 63 53 ≠ 0 → exec i s = .next (s.precise .illegalInstruction 0))
      ∧ (fieldB x 63 53 = 0 → off % 128 ≠ 0 ∨ n % 128 ≠ 0 → exec i s = .next (bad .misaligned))
      ∧ (fieldB x 63 53 = 0 → off % 128 = 0 → n % 128 = 0 → fieldB x 31 23 ≠ 0 → exec i s = .next (bad .scratchpadRange)))
    ∧ (fieldB x 63 53 = 0 → off % 128 = 0 → n % 128 = 0 → fieldB x 31 23 = 0 →
      (w.ssize < off + n → exec (.sfree b l) s = .next (bad .scratchpadRange)
        ∧ exec (.salloc b l) s = .next (if w.isTask then s.trigger s.me.wg s.cur.pc else bad .scratchpadRange))
      ∧ (off + n ≤ w.ssize → w.sbase % 128 = 0 →
        (∃ t : State, exec (.salloc b l) s = .next t.finish ∧ OnlyPending s t ∧ t.me = s.me
          ∧ ∀ a, (t.core w.core).present a = if w.sbase + off ≤ a ∧ a < w.sbase + off + n then true else (s.core w.core).present a)
        ∧ (∃ t : State, exec (.sfree b l) s = .next t.finish ∧ OnlyPending s t ∧ t.me = s.me
          ∧ ∀ a, (t.core w.core).present a = if w.sbase + off ≤ a ∧ a < w.sbase + off + n then false else (s.core w.core).present a)))

/-- R238 to R242, R321, R324, R375, R380: footprint records and the two instructions that overlap launches. In a launch that started early the footprint instructions wait
for its predecessors. FPQRY reads a record, and its result lands behind its
shadow; FPVOID makes it VOID with reason 9; FPDON copies a VALID record and empties the destination otherwise, across contexts
only under a donation grant. SUCC marks the workgroup; WPRED acquires once the earlier launches have confirmed. -/
def Obligations.FootprintInstructions : Prop :=
  (∀ (b d : BitVec 7) (l : BitVec 4) (s : State), (s.launchOf s.me.wg).early = [] →
    let k2 := s.block b.toNat 2
    let k4 := s.block b.toNat 4
    let kern := bits (k2.getD 0 0) 56 0
    let hash : Word := BitVec.ofNat 32 (bits (k2.getD 1 0) 31 0)
    let p := s.myPasid
    (s.Ready ((Uses.block b.toNat 2).and { Uses.wrU d.toNat with la := l.toNat }) → fpKeyBad k2 = false →
      GivesLate (.fpqry b d l) l.toNat [⟨.u d.toNat, 0, (s.ctx p).fpQuery kern hash⟩] s
      ∧ (l = 0 → s.Quiet → s.mySlot.pushes = [] → GivesUni (.fpqry b d l) d ((s.ctx p).fpQuery kern hash) s))
    ∧ (s.Ready ((Uses.block b.toNat 2).and Uses.none) → fpKeyBad k2 = false → exec (.fpvoid b l) s = .next (s.fpVoid p kern hash).finish)
    ∧ (s.Ready ((Uses.block b.toNat 4).and Uses.none) → fpKeyBad k4 = false → bits (k4.getD 2 0) 63 57 = 0 → bits (k4.getD 3 0) 63 53 = 0 →
      let x := k4.getD 3 0
      let p2 := if bits x 52 52 = 1 then bits x 51 32 else p
      (p2 = p ∨ s.dev.donGrant.contains (p, p2) = true → exec (.fpdon b l) s =
        .next (s.fpDonate p kern hash p2 (bits (k4.getD 2 0) 56 0) (BitVec.ofNat 32 (bits x 31 0))).finish)
      ∧ (p2 ≠ p → s.dev.donGrant.contains (p, p2) = false → exec (.fpdon b l) s = .next (s.laneFault .protection accWrite 0))))
  ∧ (∀ (b d : BitVec 7) (l : BitVec 4) (s : State), (s.launchOf s.me.wg).early ≠ [] →
    (s.Ready ((Uses.block b.toNat 2).and { Uses.wrU d.toNat with la := l.toNat }) → fpKeyBad (s.block b.toNat 2) = false →
      exec (.fpqry b d l) s = .next (s.stall .predecessors))
    ∧ (s.Ready ((Uses.block b.toNat 2).and Uses.none) → fpKeyBad (s.block b.toNat 2) = false → exec (.fpvoid b l) s = .next (s.stall .predecessors)))
  ∧ (∀ (kern i : Nat) (hash : Word) (x : Ctx), x.fpFind kern hash = some i →
    i < 65536 ∧ (x.fpAt i).kern = kern ∧ (x.fpAt i).hash = hash ∧ (x.fpQuery kern hash).toNat % 4 = (x.fpAt i).state.code
      ∧ ((x.fpAt i).read.length < 64 → (x.fpAt i).write.length < 64 → (x.fpQuery kern hash).toNat / 2 ^ 34 = 1))
  ∧ (∀ (kern : Nat) (hash : Word) (x : Ctx), x.fpFind kern hash = none → x.fpQuery kern hash = 0)
  ∧ (∀ (p kern i : Nat) (hash : Word) (s : State), (s.ctx p).fpEnter kern hash = some i →
    let t := s.fpVoid p kern hash
    let r := (s.ctx p).fpAt i
    let n := if r.state = .void then r.voids else min (2 ^ 32 - 1) (r.voids + 1)
    ((t.ctx p).fpAt i) = { r with kern := kern, hash := hash, state := .void, perm := false, reason := 9, voids := n }
    ∧ (∀ j, j ≠ i → (t.ctx p).fpAt j = (s.ctx p).fpAt j) ∧ t.fibres = s.fibres ∧ t.slots = s.slots)
  ∧ (∀ (p kern p2 kern2 j : Nat) (hash hash2 : Word) (s : State), (s.ctx p2).fpEnter kern2 hash2 = some j →
    let t := s.fpDonate p kern hash p2 kern2 hash2
    (∀ i, (s.ctx p).fpFind kern hash = some i → ((s.ctx p).fpAt i).state = .valid →
      let a := (t.ctx p2).fpAt j
      a.kern = kern2 ∧ a.hash = hash2 ∧ a.state = .valid ∧ a.perm = false ∧ a.read = ((s.ctx p).fpAt i).read ∧ a.write = ((s.ctx p).fpAt i).write)
    ∧ ((∀ i, (s.ctx p).fpFind kern hash = some i → ((s.ctx p).fpAt i).state ≠ .valid) → ((t.ctx p2).fpAt j).state = .empty ∧ ((t.ctx p2).fpAt j).read = []))
  ∧ (∀ (l : BitVec 4) (s : State), s.Ready Uses.none →
    (∃ t : State, exec (.succ l) s = .next t.finish ∧ OnlyPending s t ∧ t.wg s.me.wg = { s.myWg with succ := true } ∧ ∀ w, w ≠ s.me.wg → t.wg w = s.wg w)
    ∧ (s.predsOut = true → exec (.wpred l) s = .next (s.stall .predecessors))
    ∧ (s.predsOut = false → s.me.loadsBack = true → s.me.acqs = [] → exec (.wpred l) s = .next (s.acquire s.cur.fib 2).finish))

/-- R244, R245, R382: a service call. The calling lanes leave their run entry for a parked entry with the call's tag, after a system-scope release; the request ring takes one
entry for each of them; the call is outstanding with its lanes and its registers; the vector is raised unless it is masked
or no vector of the function (R361). (Model's choices: log 40; the call holds its registers by their physical numbers as of its issue, log 28.) -/
def Obligations.ServiceCalls : Prop :=
  (∀ (b x : BitVec 7) (s v : State) (r' : Ring) (place : Nat), s.Ready ((Uses.rdU b.toNat).and (Uses.rdV x.toNat 8)) → s.doers ≠ 0 →
    s.me.freePark = some place → s.CanRelease 4 →
    let q := s.didRelease s.cur.fib
    let p := s.myPasid
    let c := s.ctx p
    let m := s.doers
    let tag := nextTag c.calls (c.calls.length + 2) c.callCtr
    let es := (lanesOf m).zipIdx.map (fun ln => svcEntry ((c.reqRing.tail.toNat + ln.2) % 2 ^ 64) (fieldB (s.usrc b.toNat) 31 0) tag
      (s.launchOf s.me.wg).launchid ln.1 s.cur.pc ((List.range 8).map (fun i => s.rv (x.toNat + i) ln.1)))
    q.ringPutAll p c.reqRing es = some (v, r') →
    ∃ t : State, exec (.svc b x) s = .next t.finish ∧ t.mem = v.mem ∧ t.slots = s.slots
      ∧ t.me.frontier = ((s.me.leave s.cur.age m).makeRoom).frontier
        ++ [⟨.parked, s.cur.pc, s.cur.npc, s.cur.prio, m, ((s.me.leave s.cur.age m).makeRoom).nextAge, true, tag, place, false, 0⟩]
      ∧ (t.ctx p).calls = c.calls ++ [⟨tag, s.cur.fib, 8 * s.me.base + x.toNat, m, 0⟩] ∧ (t.ctx p).callCtr = tag + 1
      ∧ (t.ctx p).reqRing.tail = c.reqRing.tail + BitVec.ofNat 64 es.length
      ∧ t.dev.out = (if c.vectors.getLsbD 48 || (decide (64 ≤ fieldB c.vectors 42 32) && s.dev.vfCtx.any (fun e => e.2 == p + 1)) then q.dev.out else q.dev.out ++ [.interrupt p (fieldB c.vectors 42 32)]))
  ∧ (∀ (b x : BitVec 7) (s : State), s.Ready ((Uses.rdU b.toNat).and (Uses.rdV x.toNat 8)) →
    (s.doers = 0 → exec (.svc b x) s = .next s.finish)
    ∧ (s.doers ≠ 0 → s.me.freePark = none → exec (.svc b x) s = .next (s.stall .parkPlace))
    ∧ (s.doers ≠ 0 → s.me.freePark ≠ none → s.released s.cur.fib 4 = false → exec (.svc b x) s = .next (s.stall .acknowledge)))
  ∧ (∀ (calls : List Call) (t : Word), calls.length < 2 ^ 31 →
    nextTag calls (calls.length + 2) t ≠ 0 ∧ ∀ c ∈ calls, c.tag ≠ nextTag calls (calls.length + 2) t)
  ∧ (∀ (seq svc lane i : Nat) (tag launch : Word) (pc : Word64) (args : List Word), seq < 2 ^ 64 → svc < 2 ^ 32 → lane < 32 → args.length = 8 → i < 8 →
    let n := ofBytes (svcEntry seq svc tag launch lane pc args)
    bits n 63 0 = seq ∧ bits n 95 64 = svc ∧ bits n 127 96 = tag.toNat ∧ bits n 159 128 = launch.toNat ∧ bits n 164 160 = lane ∧ bits n 255 192 = pc.toNat
      ∧ bits n (256 + 32 * i + 31) (256 + 32 * i) = (args.getD i 0).toNat)

/-- R247, R338, R342, R343: breakpoints and traps. The active lanes leave their run entry for a fault-parked entry that resumes at the BRK itself or after the TRAP, and one record
with the code is written while the fault ring has room. (Model's choices: log 14.) -/
def Obligations.BreakpointsAndTraps : Prop :=
  ∀ (c : BitVec 7) (l : BitVec 4) (s : State) (place : Nat), s.Ready Uses.none → s.RingRoom s.myPasid →
    let m := s.cur.active
    let p := s.myPasid
    ∀ i k resume, (i = Instr.brk c l ∧ k = FKind.breakpoint ∧ resume = s.cur.pc) ∨ (i = Instr.trap c l ∧ k = FKind.trap ∧ resume = s.cur.npc) →
      (s.me.leave s.cur.age m).parkedAt s.cur.pc resume = none → (s.me.leave s.cur.age m).freePark = some place →
      ∃ t r, exec i s = .next (State.finish t) ∧ t.slots = s.slots ∧ t.cur = s.cur
        ∧ t.me.frontier = ((s.me.leave s.cur.age m).makeRoom).frontier
          ++ [⟨.parked, s.cur.pc, resume, s.cur.prio, m, ((s.me.leave s.cur.age m).makeRoom).nextAge, false, 0, place, false, 0⟩]
        ∧ (t.ctx p).recs = (s.ctx p).recs ++ [r] ∧ (t.ctx p).faultRing.tail = (s.ctx p).faultRing.tail + 1 ∧ r.ridx = (s.ctx p).faultRing.tail
        ∧ r.kind = k.code ∧ r.pc = s.cur.pc ∧ r.resume = resume ∧ r.left = m
        ∧ r.image = FRec.image { s.fibreRec s.cur.fib k with park := place, lanes := m, pc := s.cur.pc, code := c.toNat } (Config.hubTime s.tick)
        ∧ t.dev.out = (if (s.ctx p).vectors.getLsbD 16 || (decide (64 ≤ fieldB (s.ctx p).vectors 10 0) && s.dev.vfCtx.any (fun e => e.2 == p + 1)) then s.dev.out else s.dev.out ++ [.interrupt p (fieldB (s.ctx p).vectors 10 0)])

/-- R40, R41, R147, R248 to R250: special registers and sleep. RDSR reads a special register into every active lane or into a uniform; fpstat waits for the fibre's engine
operations that may still set flags. WRSR writes role, fpctl.rm (a value above 4 changes nothing) and fpstat. SLEEP of n stops the fibre for n clocks, SLEEP of 0 ends at once. (Model's choices: log 4.) -/
def Obligations.SpecialRegisters : Prop :=
  (∀ (d x : BitVec 7) (s : State), (x = 0x0C → s.flagsOut = false) → s.Quiet →
    ((x = 0x0A ∨ x = 0x0D) → s.Ready (Uses.wrV d.toNat 2) → GivesPair (.rdsrVector d x) d (fun ln => s.special x.toNat ln) s)
    ∧ (¬(x = 0x0A ∨ x = 0x0D) → s.Ready (Uses.wrV d.toNat 1) → GivesVec (.rdsrVector d x) d (fun ln => (s.special x.toNat ln).setWidth 32) s)
    ∧ (s.Ready (Uses.wrU d.toNat) → GivesUni (.rdsrUniform d x) d (s.special x.toNat 0) s))
  ∧ (∀ (d : BitVec 7) (s : State), s.flagsOut = true → (s.Ready (Uses.wrV d.toNat 1) → exec (.rdsrVector d 0x0C) s = .next (s.stall .scoreboard))
    ∧ (s.Ready (Uses.wrU d.toNat) → exec (.rdsrUniform d 0x0C) s = .next (s.stall .scoreboard)))
  ∧ (∀ (lane : Nat) (s : State), s.special 0x00 lane = BitVec.ofNat 64 lane ∧ s.special 0x01 lane = BitVec.ofNat 64 s.me.fibid
    ∧ s.special 0x07 lane = BitVec.ofNat 64 s.me.core ∧ s.special 0x0A lane = BitVec.ofNat 64 (s.clock - (s.core s.me.core).clock0)
    ∧ s.special 0x0B lane = s.me.rm.zeroExtend 64 ∧ s.special 0x0C lane = s.me.fpstat.zeroExtend 64
    ∧ s.special 0x0F lane = (if s.me.helper.getLsbD lane then 1 else 0) ∧ s.special 0x13 lane = BitVec.ofNat 64 s.me.base
    ∧ s.special 0x14 lane = BitVec.ofNat 64 s.me.size ∧ s.special 0x15 lane = BitVec.ofNat 64 (s.me.frontier.length + s.me.spilled.length)
    ∧ s.special 0x16 lane = BitVec.ofNat 64 s.myPasid)
  ∧ (∀ (b x : BitVec 7) (s : State), (x = 0x0C → s.flagsOut = false) → s.Ready (Uses.rdU b.toNat) →
    let v := s.usrc b.toNat
    ∃ t : State, exec (.wrsr b x) s = .next t.finish ∧ t.mem = s.mem ∧ t.slots = s.slots ∧ (∀ f, f ≠ s.cur.fib → t.fibre f = s.fibre f)
      ∧ (x = 0x09 → t.me = { s.me with role := v.setWidth 2, roleAt := s.clock + 1 })
      ∧ (x = 0x0B → t.me = if v.toNat % 8 ≤ 4 then { s.me with rm := v.setWidth 3 } else s.me)
      ∧ (x = 0x0C → t.me = { s.me with fpstat := v.setWidth 6 })
      ∧ (x ≠ 0x09 → x ≠ 0x0B → x ≠ 0x0C → t.me = s.me))
  ∧ (∀ (b : BitVec 7) (l : BitVec 4) (s : State), s.Ready (Uses.rdU b.toNat) →
    let n := min (s.usrc b.toNat).toNat (2 ^ 32 - 1)
    (n = 0 → exec (.sleep b l) s = .next s.finish)
    ∧ (n ≠ 0 → s.Quiet → ∃ t : State, exec (.sleep b l) s = .next t ∧ t.me.status = .sleeping ∧ t.me.sleep = s.clock + 1 + n ∧ t.mem = s.mem ∧ Advanced s t
      ∧ VecKept s t ∧ UniKept s t ∧ PredKept s t))
  ∧ (∀ (f : Nat) (s : State),
    ((s.fibre f).status = .sleeping → (s.fibre f).sleep ≤ s.clock → ∃ t : State, exec (.sleepExpire f) s = .next t ∧ t.fibre f = { s.fibre f with sleep := 0, status := .ready }
      ∧ (∀ g, g ≠ f → t.fibre g = s.fibre g) ∧ t.mem = s.mem ∧ t.slots = s.slots)
    ∧ (s.clock < (s.fibre f).sleep → exec (.sleepExpire f) s = .next s))

/-- R289 to R292, R295: queues and their slots. A doorbell moves wi, or puts the queue in error 0x01 when it asks for more than the ring holds; during a takeover it is latched.
Enabling clears err and leaves ri; disabling puts the queue in state 5, and a WAIT or LTAKE on which it was parked is open no more. A queue is mapped to a free slot, and one whose quantum has run out gives its slot up. No other queue changes. (Model's choices: log 10; the open packet of a parked queue that is disabled, log 49.) -/
def Obligations.QueuesMapAndUnmap : Prop :=
  (∀ (q : Nat) (wi : Word) (s : State),
    let x := s.queue q
    (s.dev.mgmt.takeover = true → ∃ t : State, exec (.doorbell q wi) s = .next t ∧ t.dev.mgmt.latched = s.dev.mgmt.latched ++ [(q, wi)]
      ∧ t.dev.queues = s.dev.queues ∧ t.mem = s.mem ∧ t.fibres = s.fibres)
    ∧ (s.dev.mgmt.takeover = false → (wi - x.ri).toNat ≤ 2 ^ x.lsize.toNat → ∃ t : State, exec (.doorbell q wi) s = .next t
      ∧ t.queue q = { x with wi := wi, readySince := if x.ri = x.wi then s.clock else x.readySince } ∧ (∀ j, j ≠ q → t.queue j = s.queue j) ∧ t.mem = s.mem ∧ t.fibres = s.fibres)
    ∧ (s.dev.mgmt.takeover = false → 2 ^ x.lsize.toNat < (wi - x.ri).toNat → ∃ t : State, exec (.doorbell q wi) s = .next t
      ∧ t.queue q = { x with wi := wi, state := .error, err := 1, mapped := false, open_ := if x.state = .onWait ∨ x.state = .onLtake then x.open_.dropLast else x.open_ }
      ∧ ∀ j, j ≠ q → t.queue j = s.queue j))
  ∧ (∀ (q : Nat) (s : State),
    let x := s.queue q
    (∃ t : State, exec (.queueEnable q) s = .next t ∧ (x.state = .disabled → t.queue q = { x with en := true, state := .idle, err := 0, readySince := s.clock })
      ∧ (x.state ≠ .disabled → t.queue q = { x with en := true }) ∧ (∀ j, j ≠ q → t.queue j = s.queue j) ∧ t.mem = s.mem ∧ t.fibres = s.fibres)
    ∧ (∃ t : State, exec (.queueDisable q) s = .next t ∧ t.queue q =
        { x with en := false, state := .disabled, mapped := false, yieldSlot := false, open_ := if x.state = .onWait ∨ x.state = .onLtake then x.open_.dropLast else x.open_ }
      ∧ (∀ j, j ≠ q → t.queue j = s.queue j) ∧ t.mem = s.mem ∧ t.fibres = s.fibres)
    ∧ (s.dev.mgmt.takeover = false → (bestQueue s.runnables).map (·.1) = some q → s.mappedQueues.length < 64 → ∃ t : State, exec (.queueMap q) s = .next t
      ∧ t.queue q = { x with mapped := true, state := .mapped, progress := s.clock } ∧ (∀ j, j ≠ q → t.queue j = s.queue j) ∧ t.mem = s.mem ∧ t.fibres = s.fibres)
    ∧ ((bestQueue s.runnables).map (·.1) ≠ some q → exec (.queueMap q) s = .next s)
    ∧ (x.mapped = true → 64 ≤ s.mappedQueues.length → (∃ e ∈ s.runnables, x.qprio ≤ e.2.qprio) → ∃ t : State, exec (.queueQuantumExpiry q) s = .next t
      ∧ t.queue q = { x with mapped := false, yieldSlot := false, readySince := s.clock, state := if x.state = .mapped then .idle else x.state }
      ∧ (∀ j, j ≠ q → t.queue j = s.queue j) ∧ t.mem = s.mem ∧ t.fibres = s.fibres)
    ∧ (x.mapped = true → s.mappedQueues.length < 64 → ∃ t : State, exec (.queueQuantumExpiry q) s = .next t ∧ t.queue q = { x with yieldSlot := true }
      ∧ (∀ j, j ≠ q → t.queue j = s.queue j) ∧ t.mem = s.mem ∧ t.fibres = s.fibres))
  ∧ (∀ (l : List (Nat × Queue)) (e : Nat × Queue), bestQueue l = some e → e ∈ l ∧ ∀ y ∈ l, y.2.qprio ≤ e.2.qprio)
  ∧ (∀ (q n : Nat) (i : Instr) (s : State), s.PacketAt q n → i ∈ [Instr.wait q, .ltake q] → (bits n 7 0 = 0 ∨ 10 < bits n 7 0) →
    ∃ t : State, exec i s = .next t ∧ t = s.reject q 2 (BitVec.ofNat 32 (bits n 63 32)) ∧ (t.queue q).state = .error ∧ (t.queue q).err = 2 ∧ (t.queue q).ri = (s.queue q).ri
      ∧ (t.queue q).mapped = false)

/-- R299 to R302, R311: WAIT, SIGNAL, LGIVE, LTAKE and MARKER. A WAIT below its threshold parks the queue, and the packet completes when the counter comes up. A SIGNAL applies
one operation to a granted counter, at system scope after a flushing read on each host port; where its record finds the fault queue full it waits (R342). LGIVE adds tokens up to 2^32 − 1, leaves a record where they saturate, and serves a parked taker; LTAKE takes them or parks. MARKER writes ri, the queue and the time.
(Model's choices: log 30; a MARKER's record without a user word, log 49.) -/
def Obligations.CounterAndLinkPackets : Prop :=
  (∀ (q : Nat) (s : State), PacketPassed s (s.passPacket q) q ∧ (s.passPacket q).mem = s.mem ∧ (s.passPacket q).fibres = s.fibres)
  ∧ (∀ (q n : Nat) (s : State), s.PacketAt q n →
    let x := s.queue q
    let p := s.queuePasid q
    let i := bits n 75 64
    let v := BitVec.ofNat 64 (bits n 191 128)
    let j := bits n 71 64
    let k := bits n 159 128
    (Packet n 4 false → bits n 127 76 = 0 → bits n 511 192 = 0 → s.ctrOk p i = true →
      (v ≤ s.counter i → exec (.wait q) s = .next (s.passPacket q))
      ∧ (s.counter i < v → ∃ t : State, exec (.wait q) s = .next t ∧ t.mem = s.mem ∧ t.dev.counters = s.dev.counters ∧ t.queue q =
        { x with state := .onWait, mapped := false, yieldSlot := false, waitCtr := i, waitThr := v, open_ := x.open_ ++ [x.ri], applied := some x.ri, ri := x.ri + 1 }))
    ∧ (Packet n 5 false → s.allDone q = true → bits n 127 79 = 0 → bits n 511 192 = 0 → s.ctrOk p i = true →
      let r := s.queueFields q .timeline (BitVec.ofNat 32 (bits n 63 32))
      let u := if n.testBit 78 then (s.emit (.flush false)).emit (.flush true) else s
      let t := fun (op : Nat) => (u.counterOp r op i v).passPacket q
      (bits n 77 76 = 0 → exec (.signalAdd q) s = .next (if s.waitsMore (t 0) p then s.faultRingWaits p else t 0))
      ∧ (bits n 77 76 = 1 → exec (.signalWrite q) s = .next (if s.waitsMore (t 1) p then s.faultRingWaits p else t 1)))
    ∧ (Packet n 6 false → s.allDone q = true → linkReserved n = false → (s.link j).giver.toNat = q → s.linkOk p j = true →
      let u := s.modLink j (fun l => { l with tokens := BitVec.ofNat 32 (min (2 ^ 32 - 1) ((s.link j).tokens.toNat + k)) })
      ((s.link j).tokens.toNat + k < 2 ^ 32 → exec (.lgive q) s = .next ((u.linkWake j).passPacket q))
      ∧ (2 ^ 32 ≤ (s.link j).tokens.toNat + k →
        let t := ((u.report (s.queueFields q .linkSaturated (BitVec.ofNat 32 (bits n 63 32))) RecInfo.zero).linkWake j).passPacket q
        exec (.lgive q) s = .next (if s.waitsMore t p then s.faultRingWaits p else t)))
    ∧ (Packet n 6 false → s.allDone q = true → linkReserved n = false → (s.link j).giver.toNat = q → s.linkOk p j = true →
      (s.queue (s.link j).taker.toNat).state ≠ .onLtake → (s.link j).tokens.toNat + k < 2 ^ 32 →
      ∃ t : State, exec (.lgive q) s = .next (t.passPacket q) ∧ (t.link j).tokens.toNat = (s.link j).tokens.toNat + k ∧ (∀ m, m ≠ j → t.link m = s.link m)
        ∧ t.dev.queues = s.dev.queues ∧ t.mem = s.mem)
    ∧ (Packet n 7 false → linkReserved n = false → (s.link j).taker.toNat = q → s.linkOk p j = true →
      (k ≤ (s.link j).tokens.toNat → ∃ t : State, exec (.ltake q) s = .next (t.passPacket q) ∧ (t.link j).tokens.toNat + k = (s.link j).tokens.toNat
        ∧ t.dev.queues = s.dev.queues ∧ t.mem = s.mem)
      ∧ ((s.link j).tokens.toNat < k → ∃ t : State, exec (.ltake q) s = .next t ∧ t.link j = s.link j ∧ t.mem = s.mem ∧ t.queue q =
        { x with state := .onLtake, mapped := false, yieldSlot := false, waitCtr := j, waitThr := BitVec.ofNat 64 k, open_ := x.open_ ++ [x.ri], applied := some x.ri, ri := x.ri + 1 }))
    ∧ (Packet n 10 false → s.allDone q = true → bits n 511 121 = 0 →
      (bits n 120 64 = 0 → exec (.marker q) s = .next (s.passPacket q))
      ∧ (∀ t, bits n 120 64 ≠ 0 → State.hubPut p (bits n 120 64) (toBytes 4 x.ri.toNat ++ toBytes 4 q ++ toBytes 8 (Config.hubTime s.tick).toNat) { s with tick := s.tick + 1 } = some t →
        exec (.marker q) s = .next (t.passPacket q))))
  ∧ (∀ (i : Nat) (s : State), let q := (s.link i).taker.toNat
    let x := s.queue q
    x.state = .onLtake → x.waitCtr = i → x.waitThr.toNat ≤ (s.link i).tokens.toNat →
    ((s.linkWake i).link i).tokens.toNat + x.waitThr.toNat = (s.link i).tokens.toNat ∧ ((s.linkWake i).queue q).state = .idle ∧ ((s.linkWake i).queue q).open_ = x.open_.dropLast)
  ∧ (∀ (i q : Nat) (v : Word64) (s : State), Sparse.wf Queue.zero s.dev.queues = true → (s.queue q).state = .onWait → (s.queue q).waitCtr = i →
    (((s.queue q).waitThr ≤ v → ((s.setCounter i v).queue q).state = .idle) ∧ (v < (s.queue q).waitThr → (s.setCounter i v).queue q = s.queue q)))

/-- R294 to R297, R303 to R305: LAUNCH and GRAPH packets. A launch that passes its checks gets the next launch id and number; each check fails with its err. A graph is loaded,
run and unloaded in its slot; its nodes launch, loop, branch on a word and signal. (Model's choices: log 10, 13, 31.) -/
def Obligations.LaunchAndGraphPackets : Prop :=
  (∀ (q n : Nat) (s : State), s.PacketAt q n →
    let p := s.queuePasid q
    let user : Word := BitVec.ofNat 32 (bits n 63 32)
    let g := bits n 71 68
    (Packet n 1 true → s.othersDone q = true →
      let r := s.beginLaunch q (s.queue q).ri user (n.testBit 8) (n.testBit 9) n (lArgs n) none
      (∀ l t, r = .ok l t → exec (.launch q) s = .next (t.beginPacket q)) ∧ (∀ t, r = .wait t → exec (.launch q) s = .next t)
      ∧ (∀ e, r = .bad e → exec (.launch q) s = .next (s.reject q e user)))
    ∧ (Packet n 2 true → s.allDone q = true → bits n 127 80 = 0 → bits n 511 185 = 0 → s.graphOk p g = true → (s.graph g).running = none →
      (∀ l, bits n 67 64 = 0 → bits n 184 128 % 64 = 0 →
        (List.range (bits n 79 72 + 1)).mapM (fun i => s.hubNum p (bits n 184 128 + 64 * i) 64) = some l →
        (l.any (nodeBad (bits n 79 72)) = true → exec (.graphLoad q) s = .next (s.reject q 4 user))
        ∧ (l.any (nodeBad (bits n 79 72)) = false → ∃ t : State, exec (.graphLoad q) s = .next (t.passPacket q)
          ∧ t.graph g = { Graph.zero with owner := some p, nodes := l } ∧ (∀ j, j ≠ g → t.graph j = s.graph j) ∧ t.dev.queues = s.dev.queues))
      ∧ (bits n 67 64 = 1 → ((s.graph g).nodes = [] → exec (.graphRun q) s = .next (s.reject q 4 user))
        ∧ ((s.graph g).nodes ≠ [] → ∃ t : State, exec (.graphRun q) s = .next (t.openPacket q) ∧ t.dev.queues = s.dev.queues ∧ t.graph g =
          { s.graph g with running := some q, node := 0, active := [], hint := n.testBit 8, strict := n.testBit 9, user := user, pidx := (s.queue q).ri }))
      ∧ (bits n 67 64 = 2 → ∃ t : State, exec (.graphUnload q) s = .next (t.passPacket q) ∧ t.graph g = Graph.zero ∧ t.dev.queues = s.dev.queues)))
  ∧ (∀ (q : Nat) (s : State), let t := s.beginPacket q
    t.queue q = { s.queue q with applied := some (s.queue q).ri, ri := (s.queue q).ri + 1 } ∧ (∀ j, j ≠ q → t.queue j = s.queue j) ∧ t.mem = s.mem ∧ t.fibres = s.fibres)
  ∧ (∀ (q n args k m : Nat) (pidx user : Word) (hint strict : Bool) (g : Option Nat) (s : State),
    let p := s.queuePasid q
    let r := s.beginLaunch q pidx user hint strict n args g
    (lReserved n = true → r = .bad 2)
    ∧ (lReserved n = false → (lIllegal n = true ∨ args % 8 ≠ 0) → r = .bad 3)
    ∧ (lReserved n = false → lIllegal n = false → args % 8 = 0 → s.hubNum p (lDesc n) 64 = some k →
      (kBad k = true → r = .bad 4)
      ∧ (kBad k = false → s.hubNum p (kArgmap k) (2 * kNargs k) = some m → (s.hubGet p args (8 * kNargs k)).isSome = true →
        (s.neverFits k n = true → r = .bad 5)
        ∧ (s.neverFits k n = false → lSop n ≠ 0 → s.ctrOk p (lSctr n) = false → r = .bad 6)
        ∧ (s.neverFits k n = false → (lSop n = 0 ∨ s.ctrOk p (lSctr n) = true) → ∃ t : State, r = .ok s.dev.nextLaunch t ∧ t.mem = s.mem ∧ t.fibres = s.fibres
          ∧ t.dev.nextLaunch = s.dev.nextLaunch + 1 ∧ (t.ctx p).nextLaunch = (s.ctx p).nextLaunch + 1 ∧ (∀ l, l ≠ s.dev.nextLaunch → t.launch l = s.launch l)
          ∧ let x := t.launch s.dev.nextLaunch
            x.pasid = p ∧ x.queue = q ∧ x.pidx = pidx ∧ x.user = user ∧ x.launchid = (s.ctx p).nextLaunch ∧ x.hint = hint ∧ x.strict = strict ∧ x.args = args
            ∧ x.nx = lNx n ∧ x.ny = bits n 239 224 ∧ x.nz = bits n 255 240 ∧ x.kern = k ∧ x.amap = m ∧ x.started = false ∧ x.begun = 0 ∧ x.graph = g))))
  ∧ (∀ (g q n : Nat) (s : State), (s.graph g).running = some q → (s.graph g).nodes[(s.graph g).node]? = some n → (s.ctx (s.queuePasid q)).state = .active →
    let x := s.graph g
    let next := bits n 24 16
    let alt := bits n 40 32
    let p := s.queuePasid q
    let quiet := ∀ e ∈ s.launches, e.2.graph ≠ some g
    (bits n 7 0 = 1 → (∀ l t, s.beginLaunch q x.pidx x.user x.hint x.strict n (lArgs n) (some g) = .ok l t → exec (.graphNode g) s = .next (t.graphGo g q next))
      ∧ (∀ e, s.beginLaunch q x.pidx x.user x.hint x.strict n (lArgs n) (some g) = .bad e → exec (.graphNode g) s = .next (s.graphFail g q e)))
    ∧ (bits n 7 0 = 2 → x.active.contains x.node = false → ∃ t : State, exec (.graphNode g) s = .next (t.graphGo g q alt) ∧ t.graph g = { x with active := x.node :: x.active })
    ∧ (∀ v, bits n 7 0 = 2 → x.active.contains x.node = true → quiet → s.hubNum p (bits n 120 64) 4 = some v →
      (v ≠ 0 → exec (.graphNode g) s = .next (s.graphGo g q alt))
      ∧ (v = 0 → ∃ t : State, exec (.graphNode g) s = .next (t.graphGo g q next) ∧ t.graph g = { x with active := x.active.erase x.node }))
    ∧ (∀ v, bits n 7 0 = 3 → quiet → s.hubNum p (bits n 120 64) 4 = some v → exec (.graphNode g) s = .next (s.graphGo g q (if v = 0 then next else alt)))
    ∧ (bits n 7 0 = 4 → quiet → s.ctrOk p (bits n 75 64) = true →
      let t := (s.signal (s.queueFields q .timeline x.user) (bits n 77 76) (bits n 75 64) (n.testBit 78) (BitVec.ofNat 64 (bits n 191 128))).graphGo g q next
      exec (.graphNode g) s = .next (if s.waitsMore t p then s.faultRingWaits p else t))
    ∧ (¬quiet → bits n 7 0 = 3 ∨ bits n 7 0 = 4 → exec (.graphNode g) s = .next s))
  ∧ (∀ (g q n : Nat) (s : State), (n = 256 → ((s.graphGo g q n).graph g).running = none ∧ ((s.graphGo g q n).queue q).open_ = (s.queue q).open_.erase (s.graph g).pidx)
    ∧ (n ≠ 256 → (s.graphGo g q n).graph g = { s.graph g with node := n } ∧ (s.graphGo g q n).dev.queues = s.dev.queues))

/-- R306, R308, R309: TASKS, FOOTPRINT and COPY packets. A TASKS packet with valid records that some core can hold is held and places them in order as the pool has room; FOOTPRINT reads, voids, donates and
resets records; a COPY moves bytes in order, and ends with its completion record and its signal. (Model's choices: log 32; err 0x05 for a task that no
core can ever hold, log 49.) -/
def Obligations.TaskFootprintCopyPackets : Prop :=
  (∀ (q n : Nat) (s : State), s.PacketAt q n → s.allDone q = true →
    let p := s.queuePasid q
    let user : Word := BitVec.ofNat 32 (bits n 63 32)
    (∀ l, Packet n 3 false → s.dev.tasks.find? (fun x => x.queue == q) = none → bits n 127 121 = 0 → bits n 511 161 = 0 → bits n 120 64 % 64 = 0 →
      s.readRecords p (bits n 120 64) (bits n 159 128) = some l → (∀ r ∈ l, s.recordWaits p r = false) →
      ((∃ r ∈ l, s.recordOk p r = false) → exec (.tasks q) s = .next (s.reject q 4 user))
      ∧ ((∀ r ∈ l, s.recordOk p r = true) → (∃ r ∈ l, s.taskNeverFits p r = true) → exec (.tasks q) s = .next (s.reject q 5 user))
      ∧ ((∀ r ∈ l, s.recordOk p r = true) → (∀ r ∈ l, s.taskNeverFits p r = false) → ∃ t : State, exec (.tasks q) s = .next (t.openPacket q)
        ∧ t.dev.tasks = s.dev.tasks ++ [⟨q, (s.queue q).ri, p, l, n.testBit 160⟩] ∧ t.dev.queues = s.dev.queues ∧ t.ctxs = s.ctxs))
    ∧ (Packet n 8 false → bits n 127 68 = 0 → bits n 191 185 = 0 → bits n 255 224 = 0 → bits n 319 313 = 0 → bits n 383 373 = 0 → bits n 511 441 = 0 →
      let o := bits n 67 64
      let r := match (s.ctx p).fpFind (pKern n) (pHash n) with | some i => (s.ctx p).fpAt i | none => FpRec.zero
      let p2 := if n.testBit 372 then bits n 371 352 else p
      (∀ t, o = 0 → State.hubPut p (bits n 440 384) r.bytes s = some t → exec (.footprintQuery q) s = .next (t.passPacket q))
      ∧ (o = 1 → exec (.footprintVoid q) s = .next ((s.fpVoid p (pKern n) (pHash n)).passPacket q))
      ∧ (o = 2 → (p2 = p ∨ s.dev.donGrant.contains (p, p2) = true) →
        exec (.footprintDonate q) s = .next ((s.fpDonate p (pKern n) (pHash n) p2 (bits n 312 256) (BitVec.ofNat 32 (bits n 351 320))).passPacket q))
      ∧ (o = 2 → p2 ≠ p → s.dev.donGrant.contains (p, p2) = false → exec (.footprintDonate q) s = .next (s.reject q 6 user))
      ∧ (o = 3 → exec (.footprintResetAll q) s = .next ((s.fpResetAll p).passPacket q))
      ∧ (4 ≤ o → exec (.footprintQuery q) s = .next (s.reject q 3 user)))
    ∧ (Packet n 9 false → s.dev.copies.find? (fun o => o.queue == q) = none → bits n 127 121 = 0 → bits n 191 185 = 0 → bits n 255 232 = 0 → bits n 319 313 = 0 →
      bits n 447 399 = 0 → bits n 397 396 ≠ 3 → (bits n 397 396 = 0 ∨ s.ctrOk p (bits n 395 384) = true) → bits n 312 256 = 0 →
      ∃ (t : State) (o : HubCopy), exec (.copy q) s = .next (t.openPacket q) ∧ t.dev.copies = s.dev.copies ++ [o] ∧ t.dev.queues = s.dev.queues ∧ t.mem = s.mem ∧ o.pasid = p
        ∧ o.src = bits n 120 64 ∧ o.dst = bits n 184 128 ∧ o.len = bits n 231 192 ∧ o.done = 0 ∧ o.finished = false ∧ o.pidx = (s.queue q).ri))
  ∧ (∀ (x : TasksPkt) (r : Nat) (l : List Nat) (s : State), x.recs = r :: l →
    (s.poolRoom x.pasid 1 = false → s.tasksGo x = s)
    ∧ (s.poolRoom x.pasid 1 = true → ((s.tasksGo x).ctx x.pasid).pool = if tFront r then ⟨s.freePlace x.pasid, r⟩ :: (s.ctx x.pasid).pool
      else (s.ctx x.pasid).pool ++ [⟨s.freePlace x.pasid, r⟩]))
  ∧ (∀ (q : Nat) (x : TasksPkt) (s : State), s.dev.tasks.find? (fun x => x.queue == q) = some x → (s.ctx x.pasid).state = .active → exec (.tasks q) s = .next (s.tasksGo x))
  ∧ (∀ (p i : Nat) (s : State), ((s.fpResetAll p).ctx p).fpAt i = FpRec.zero)
  ∧ (∀ (q ka kb : Nat) (o : HubCopy) (s : State), s.dev.copies.find? (fun o => o.queue == q) = some o → (s.ctx o.pasid).state = .active →
    (o.finished = true → exec (.copy q) s = .next (s.hubFinish o))
    ∧ (o.finished = false → exec (.copy q) s = .next (s.hubMove o))
    ∧ (o.finished = false → o.done < o.len →
      let a := (o.src + o.done) % 2 ^ 57
      let b := (o.dst + o.done) % 2 ^ 57
      let n := min (min (o.len - o.done) (s.hubRoom o.pasid b)) (min (4096 - a % 4096) (4096 - b % 4096))
      s.hubFault o.pasid a false = none → s.hubFault o.pasid b true = none → s.hubKey o.pasid a false = some ka → s.hubKey o.pasid b true = some kb →
      s.rangeBad ka n = false → s.rangeBad kb n = false → ∃ t : State, exec (.copy q) s = .next t ∧ BytesSet s t kb (rdBytes s.mem ka n)
        ∧ t.dev.copies = s.dev.copies.map (fun y => if y.id = o.id then { y with done := y.done + n } else y)))

/-- R42, R298, R327 to R329, R335, R346, R379, R389: the life of a launch. It is admitted once the launches before it in its stream have started, with the lowest free tag, whether it starts then or later; it starts at once without
predecessors, or early when its record and theirs meet in no tile; its workgroups are placed and start in the state of R42; they end when their fibres have exited, and their granules are free once the writes pending to them have landed (R29); it is confirmed when its predecessors are, unless a record of its
signals finds the fault queue full (R342), and a marked one runs again in full. (Model's choices: log 10, 13, 29.) -/
def Obligations.LaunchLife : Prop :=
  (∀ (l : Nat) (s : State), s.launches.any (fun e => e.1 == l) = true → (s.ctx (s.launch l).pasid).state = .active → (s.launch l).started = false →
    ((s.launch l).admitted = false → (∃ e ∈ s.predsOf l, e.2.started = false) → exec (.launchAdmission l) s = .next s)
    ∧ ((s.launch l).admitted = true → exec (.launchAdmission l) s = .next (s.tryStart l))
    ∧ (∀ t, (s.launch l).admitted = false → (∀ e ∈ s.predsOf l, e.2.started = true) → s.freeTag = some t →
      let u := (s.modLaunch l (fun x => { x with admitted := true, tag := BitVec.ofNat 8 t })).admitRecord l
      (s.predsOf l = [] → ∃ v : State, exec (.launchAdmission l) s = .next v ∧ (v.launch l).admitted = true ∧ (v.launch l).started = true
        ∧ (v.launch l).tag = BitVec.ofNat 8 t ∧ (v.launch l).early = (s.launch l).early ∧ v.fibres = s.fibres)
      ∧ (u.predsOf l ≠ [] → u.earlyTest l = true → ∃ v : State, exec (.launchAdmission l) s = .next v ∧ (v.launch l).started = true ∧ (v.launch l).wasEarly = true
        ∧ (v.launch l).early = (u.predsOf l).map (·.1))
      ∧ (u.predsOf l ≠ [] → u.earlyTest l = false → u.hintTest l = false → ∃ v : State, exec (.launchAdmission l) s = .next v ∧ (v.launch l).admitted = true
        ∧ (v.launch l).tag = BitVec.ofNat 8 t ∧ (v.launch l).started = false ∧ v.fibres = s.fibres)))
  ∧ (∀ (l : Nat) (s : State), s.earlyTest l = true → (s.launch l).strict = false ∧ (s.launch l).fp = .checked ∧ (s.predsOf l).length ≤ 15
    ∧ ∀ e ∈ s.predsOf l, e.2.admitted = true ∧ e.2.fp = .checked ∧ ∀ t,
      ¬(tileIn t e.2.wset = true ∧ (tileIn t (s.launch l).rset = true ∨ tileIn t (s.launch l).wset = true)) ∧ ¬(tileIn t e.2.rset = true ∧ tileIn t (s.launch l).wset = true))
  ∧ (∀ (l c : Nat) (s t : State), let x := s.launch l
    s.launches.any (fun e => e.1 == l) = true → x.started = true → x.failed = false → x.begun < x.total → (s.ctx x.pasid).state = .active →
    (∀ w ∈ s.wgs, w.2.pasid = x.pasid → w.2.state ≠ .swapped) → s.dispatch l c = some t →
    exec (.workgroupDispatch l c) s = .next t ∧ (t.launch l).begun = x.begun + x.cg + 1 ∧ t.dev.nextWg = s.dev.nextWg + x.cg + 1)
  ∧ (∀ (w : Workgroup) (pl : Place) (args : Sparse Word64) (s : State), let t := s.startWg w pl args
    let y := t.wg w.id
    y.state = .running ∧ y.sbase = pl.sbase ∧ y.tbase = pl.tbase ∧ y.abase = pl.abase ∧ y.bbase = pl.bbase ∧ y.core = w.core
    ∧ (∀ i, i < w.nfib → let f := t.fibre (32 * w.id + i)
      f.wg = w.id ∧ f.fibid = i ∧ f.core = w.core ∧ f.status = .ready ∧ f.ureg = args ∧ f.pred = [] ∧ f.masks = [] ∧ f.fpstat = 0 ∧ f.rm = 0
        ∧ f.frontier = [⟨.run, BitVec.ofNat 64 (kEntry w.descr), 0, 0, f.present, 0, false, 0, 0, false, 0⟩])
    ∧ (∀ k ∈ pl.slots, (t.slot (16 * w.core + k)).vreg = [] ∧ (t.slot (16 * w.core + k)).queues = [] ∧ (t.slot (16 * w.core + k)).wg = some w.id))
  ∧ (∀ (w l : Nat) (s : State), (s.wg w).launch = some l → (s.wg w).state = .running →
    (s.allExited w = true → s.wgQuiet w = true → ∃ t : State, exec (.workgroupEnd w) s = .next t ∧ t.mem = s.mem ∧ (t.launch l).ended = (s.launch l).ended + 1
      ∧ (s.wgLanded w = true → t.wg w = Workgroup.zero ∧ ∀ f, (s.fibre f).wg = w → t.fibre f = Fibre.zero)
      ∧ (s.wgLanded w = false → t.wg w = { s.wg w with state := .ended } ∧ t.fibres = s.fibres ∧ t.slots = s.slots))
    ∧ (s.allExited w = false → exec (.workgroupEnd w) s = .next s))
  ∧ (∀ (w l : Nat) (s : State), (s.wg w).launch = some l → (s.wg w).state = .ended → s.wgs.any (fun e => e.1 == w) = true →
    exec (.workgroupEnd w) s = .next (if s.wgLanded w then s.freeWg w else s))
  ∧ (∀ (l : Nat) (s : State),
    (s.mayConfirm l = true → ∃ t : State, exec (.launchConfirm l) s = .next (if s.waitsMore t (s.launch l).pasid then s.faultRingWaits (s.launch l).pasid else t)
      ∧ (((s.launch l).failed = true ∨ (s.launch l).sigs = [] ∧ (s.launch l).sop = 0) → s.waitsMore t (s.launch l).pasid = false)
      ∧ t.launch l = Launch.zero ∧ t.fibres = s.fibres
      ∧ (∀ j, j ≠ l → (t.launch j).early = (s.launch j).early.filter (· != l))
      ∧ ((s.launch l).failed = true → t.dev.counters = s.dev.counters)
      ∧ ((s.launch l).failed = false → (s.launch l).sigs = [] → (s.launch l).sop = 0 → t.dev.counters = s.dev.counters))
    ∧ (s.mayConfirm l = false → exec (.launchConfirm l) s = .next s)
    ∧ (s.mayConfirm l = true → s.predsOf l = [] ∧ (s.launch l).darnMarked = false ∧ ((s.launch l).failed = false → (s.launch l).ended = (s.launch l).total)))
  ∧ (∀ (l : Nat) (s : State), let x := s.launch l
    (s.launches.any (fun e => e.1 == l) = true → x.completed = true → s.predsOf l = [] → x.darnMarked = true → ∃ t : State, exec (.darningStart l) s = .next t ∧ t.mem = s.mem
      ∧ t.launch l = { x with begun := 0, ended := 0, darning := true, darnMarked := false, wasEarly := false, early := [], sigs := [] })
    ∧ (x.darnMarked = false → exec (.darningStart l) s = .next s))

/-- R225, R231 to R235, R237, R307: the life of a task. The best record of the pool starts a workgroup, or is parked when its kernel is not fit or fits no core. A task that ends commits step by step:
its accesses return, its stores drain, its SIGs and records take effect, its successor counter falls, and it is freed. A triggered one is split in two or parked. (Model's choices: log 10, 33; log 49 for a task that
no core can hold, R306, and for a successor record at an address that is not a multiple of 64, R224.) -/
def Obligations.TaskLife : Prop :=
  (∀ (l : List PoolRec) (x : PoolRec), nextTask l = some x → x ∈ l ∧ ∀ y ∈ l, tPrio y.image ≤ tPrio x.image)
  ∧ (∀ (p c k m : Nat) (x : PoolRec) (pl : Place) (s : State), (∀ w ∈ s.wgs, w.2.pasid = p → w.2.state ≠ .swapped) → nextTask (s.ctx p).pool = some x → (s.ctx p).state = .active →
    s.hubNum p (tEntry x.image) 64 = some k → s.splitRoom p = true →
    ((kBad k = true ∨ kTask k = false ∨ s.taskNeverFits p x.image = true) → ∃ t : State, exec (.taskDispatch p c) s = .next t ∧ (t.ctx p).pool = (s.ctx p).pool.erase x ∧ (t.ctx p).parked = (s.ctx p).parked ++ [x])
    ∧ (kBad k = false → kTask k = true → s.taskNeverFits p x.image = false → s.hubNum p (kArgmap k) (2 * kNargs k) = some m → (s.hubGet p (tArgs x.image) (8 * kNargs k)).isSome = true →
      let size := 1024 * (if tSpad x.image = 0 then kScratch k else tSpad x.image)
      s.placeOn c p (kSlots k) (size + 1024 * tStage x.image) (kTiles k) (kAcc k) (kNbar k) = some pl →
      ∃ t : State, exec (.taskDispatch p c) s = .next t ∧ (t.ctx p).pool = (s.ctx p).pool.erase x ∧ t.dev.nextWg = s.dev.nextWg + 1
        ∧ let w := t.wg s.dev.nextWg
          w.isTask = true ∧ w.task = x.image ∧ w.place = x.place ∧ w.state = .running ∧ w.core = c ∧ w.pasid = p ∧ w.ssize = size ∧ w.x = tPos x.image 0
          ∧ w.y = tPos x.image 1 ∧ w.z = tPos x.image 2))
  ∧ (∀ (p c : Nat) (s : State), (s.ctx p).pool = [] ∨ s.splitRoom p = false → exec (.taskDispatch p c) s = .next s)
  ∧ (∀ (w : Nat) (s : State), let x := s.wg w
    let v := s.modWg w (fun y => { y with state := .committing })
    x.isTask = true → s.allExited w = true → x.waits = false → (x.state = .running ∨ x.state = .committing) →
    (x.tkend = true → exec (.taskCommit w) s = .next (v.commitStep w).wake)
    ∧ (x.tkend = false → s.wgLoadsBack w = true → s.wgQuiet w = true → ∃ t : State, exec (.taskCommit w) s = .next t ∧ t.wg w = Workgroup.zero ∧ t.dev.counters = s.dev.counters))
  ∧ (∀ (w : Nat) (s : State), let x := s.wg w
    let t := s.commitStep w
    (x.step = 0 → ¬(s.wgLoadsBack w = true ∧ s.wgQuiet w = true) → t = s)
    ∧ (x.step = 0 → s.wgLoadsBack w = true → s.wgQuiet w = true → t.wg w = { x with step := 1 } ∧ t.mem = s.mem)
    ∧ (x.step = 1 → x.staged = [] → t.wg w = { x with step := 2 } ∧ t.mem = s.mem)
    ∧ (∀ e l k leaf, x.step = 1 → x.staged = e :: l → s.check x.core x.pasid accWrite e.data.length 1 (fun _ => true) e.va = .ok [(k, e.data.length, leaf)] → x.launch = none →
      s.rangeBad k e.data.length = false → (s.core x.core).lost = false → s.writeUnderWay x.core k e.data.length = false → t.wg w = { x with staged := l } ∧ BytesSet s t k e.data)
    ∧ (x.step = 2 → ((t.wg w).sigs = [] ∧ (t.wg w).step = 3) ∨ t = s.faultRingWaits x.pasid)
    ∧ (x.step = 2 → x.sigs = [] → t.wg w = { x with step := 3 })
    ∧ (∀ r l, x.step = 3 → x.stagedRecs = r :: l → s.poolRoom x.pasid 1 = true → t.wg w = { x with stagedRecs := l }
      ∧ ∃ i, (t.ctx x.pasid).pool = if tFront r then ⟨i, r⟩ :: (s.ctx x.pasid).pool else (s.ctx x.pasid).pool ++ [⟨i, r⟩])
    ∧ (x.step = 3 → x.stagedRecs = [] → t.wg w = { x with step := 4 })
    ∧ (x.step = 4 → tSucc x.task = 0 → t.wg w = { x with step := 5 } ∧ t.mem = s.mem)
    ∧ (5 ≤ x.step → t.wg w = Workgroup.zero ∧ t.mem = s.mem))
  ∧ (∀ (p k a : Nat) (f : FRec) (s : State), let n := rdNum s.mem k 16
    (bits n 31 0 = 0 → s.decrement p k f a = (s.report { f with kind := .successor, sub := 0, src := 1, detail := a } RecInfo.zero, true))
    ∧ (bits n 31 0 ≠ 0 → (bits n 31 0 ≠ 1 ∨ bits n 120 64 = 0) → s.decrement p k f a = ((s.homeWrite k (toBytes 4 (bits n 31 0 - 1))).hubTouch p a true k 4, true))
    ∧ (bits n 31 0 = 1 → bits n 120 64 ≠ 0 → s.hubFault p (bits n 120 64) false = some (.translation, 2) →
      s.decrement p k f a = (s.askHost p (bits n 120 64) false, false))
    ∧ (∀ r, bits n 31 0 = 1 → bits n 120 64 ≠ 0 → s.hubFault p (bits n 120 64) false ≠ some (.translation, 2) → s.hubNum p (bits n 120 64) 64 = some r →
      s.recordWaits p r = false → s.recordOk p r = true →
      s.decrement p k f a = (if s.poolRoom p 1 then (((s.homeWrite k (toBytes 4 0)).hubTouch p a true k 4).spawnSucc p (bits n 120 64) f, true) else (s, false))))
  ∧ (∀ (w : Nat) (s : State), let x := s.wg w
    (x.isTask = true → x.state = .running → tTime x.task ≠ 0 → tTime x.task ≤ s.timeUsed x → s.allExited w = false → exec (.taskTimeExpiry w) s = .next (s.trigger w 0))
    ∧ (s.timeUsed x < tTime x.task → exec (.taskTimeExpiry w) s = .next s)
    ∧ (x.state ≠ .unpicking → exec (.taskUnpick w) s = .next s)
    ∧ (x.state = .unpicking → x.waits = false → s.wgLoadsBack w = true → s.wgQuiet w = true →
      (parks x.task = true → ∃ t : State, exec (.taskUnpick w) s = .next t ∧ t.wg w = Workgroup.zero ∧ (t.ctx x.pasid).parked = (s.ctx x.pasid).parked ++ [⟨x.place, x.task⟩])
      ∧ (∀ d, parks x.task = false → splitDim x.task = some d → tSucc x.task = 0 → ∃ (t : State) (i j : Nat), exec (.taskUnpick w) s = .next t ∧ t.wg w = Workgroup.zero
        ∧ (t.ctx x.pasid).pool = ⟨i, (children x.task d).1⟩ :: ⟨j, (children x.task d).2⟩ :: (s.ctx x.pasid).pool)))
  ∧ (∀ r d, d < 3 → tDepth r < 15 → let c := children r d
    tExt c.1 d = tExt r d / 2 ∧ tExt c.2 d = tExt r d - tExt r d / 2 ∧ tPos c.1 d = tPos r d ∧ (tPos r d + tExt r d < 65536 → tPos c.2 d = tPos r d + tExt r d / 2)
    ∧ tDepth c.1 = tDepth r + 1 ∧ tDepth c.2 = tDepth r + 1 ∧ ∀ e, e < 3 → e ≠ d → tPos c.1 e = tPos r e ∧ tExt c.1 e = tExt r e ∧ tPos c.2 e = tPos r e ∧ tExt c.2 e = tExt r e)

/-- R245, R246, R381, R383 to R385: fibres off the core and replies. A fibre with nothing but parked entries is written to its image and leaves its place, unless it shares a granule; a place that ATS was not asked for is asked for first; it
comes back from the image when a call of its is answered. A reply writes its words into the lane's registers; an unknown one is rejected. (Model's choices: log 11, 34.) -/
def Obligations.OffCoreAndReplies : Prop :=
  (∀ (f : Nat) (s : State), let x := s.fibre f
    x.resident = true → x.status ≠ .exited → x.noMove = false → x.noRun = true → x.frontier.any (fun e => e.svc) = true → x.outst = [] → x.loadsBack = true →
    (s.wg x.wg).state = .running → (s.ctx (s.wg x.wg).pasid).state = .active → s.placeTaken f = false →
    let p := (s.wg x.wg).pasid
    (s.sharesGranule f = true → exec (.offcoreMove f) s = .next ((s.stopAs f .faultStopped).pass f))
    ∧ (∀ a, s.sharesGranule f = false → s.unasked p (s.placeNo f).2 24576 = some a → exec (.offcoreMove f) s = .next (s.askHost p a true))
    ∧ (s.sharesGranule f = false → s.unasked p (s.placeNo f).2 24576 = none → let a := (s.placeNo f).2
      let u := s.modFibre f (fun y => { y with home := (s.placeNo f).1, imageAt := a })
      ∀ v, u.writeImage f a = some v → ∃ t : State, exec (.offcoreMove f) s = .next t ∧ t.mem = v.mem
        ∧ t.fibre f = { x with home := (s.placeNo f).1, imageAt := a, sleep := x.sleep - s.clock, resident := false, status := if x.status = .atFbar then .atFbar else .blocked .partners }))
  ∧ (∀ (f : Nat) (st : FStatus) (s : State), ((s.fibre f).status = .atFbar → s.stopAs f st = s) ∧ ((s.fibre f).status ≠ .atFbar → s.stopAs f st = s.setStatus f st))
  ∧ (∀ (f : Nat) (s : State), (s.fibre f).resident = false → (∀ e ∈ (s.fibre f).frontier, e.svc = false) → (s.ctx (s.wg (s.fibre f).wg).pasid).calls = [] →
    exec (.offcoreMove f) s = .next s ∧ exec (.offcoreReturn f) s = .next s)
  ∧ (∀ (f j pos : Nat) (k : Call) (d : ImageData) (s : State), let x := s.fibre f
    x.resident = false → x.status ≠ .exited → x.extracted = false → (s.ctx (s.wg x.wg).pasid).state = .active → (s.wg x.wg).state = .running →
    s.unasked (s.wg x.wg).pasid (s.offPlace f) 24576 = none → (s.ctx (s.wg x.wg).pasid).calls.find? (fun k => k.fib == f && k.answered == k.lanes) = some k → s.returnPlace f = some (j, pos) → s.readImage f (s.offPlace f) = some d →
    ∃ t : State, exec (.offcoreReturn f) s = .next t ∧ (t.fibre f).resident = true ∧ (t.fibre f).slot = j % 16 ∧ (t.fibre f).pos = pos ∧ (t.fibre f).ureg = d.ureg
      ∧ (t.fibre f).masks = d.masks.map (fun e => (e.1, e.2.only x.present))
      ∧ ∀ n l, n < 15 → l < 32 → (Sparse.get 0 n (t.fibre f).pred).getLsbD l = (if x.present.getLsbD l then Sparse.get 0 n d.pred else Sparse.get 0 n x.pred).getLsbD l)
  ∧ (∀ (p : Nat) (s : State), let r := (s.ctx p).repRing
    (r.head = r.tail → exec (.svcReply p) s = .next s)
    ∧ (∀ n, r.head ≠ r.tail → r.size ≠ 0 → (s.ctx p).state = .active → s.hubNum p (r.place r.head.toNat) 64 = some n →
      (∀ k ∈ (s.ctx p).calls, k.tag.toNat = bits n 31 0 → ((s.fibre k.fib).resident = true ∧ (s.fibre k.fib).extracted = false) ∨ s.unasked p (s.offPlace k.fib) 24576 = none) →
      ∃ u : State, exec (.svcReply p) s = .next (u.takeReply p n) ∧ (u.ctx p).repRing.head = r.head + 1 ∧ (u.ctx p).calls = (s.ctx p).calls ∧ u.mem = s.mem ∧ u.fibres = s.fibres))
  ∧ (∀ (p n : Nat) (k : Call) (s : State), let lane := bits n 36 32
    (s.ctx p).calls.find? (fun k => k.tag.toNat == bits n 31 0) = some k → k.lanes.getLsbD lane = true → k.answered.getLsbD lane = false → bits n 39 37 = 0 → bits n 255 40 = 0 →
    (s.fibre k.fib).resident = true → (s.fibre k.fib).extracted = false → (s.wg (s.fibre k.fib).wg).state ≠ .swapped → k.answered ||| maskOf [lane] ≠ k.lanes →
    let t := s.takeReply p n
    t.fibres = s.fibres ∧ t.mem = s.mem
    ∧ (∀ ph l, l < 32 → (t.slot (s.slotOf k.fib)).getV ph l = if k.reg ≤ ph ∧ ph < k.reg + 8 ∧ l = lane then
        BitVec.ofNat 32 (bits n (256 + 32 * (ph - k.reg) + 31) (256 + 32 * (ph - k.reg))) else (s.slot (s.slotOf k.fib)).getV ph l)
    ∧ (t.ctx p).calls = (s.ctx p).calls.map (fun z => if z.tag = k.tag then { k with answered := k.answered ||| maskOf [lane] } else z))
  ∧ (∀ (p n : Nat) (s : State), (∀ k ∈ (s.ctx p).calls, k.tag.toNat ≠ bits n 31 0) → s.takeReply p n = s.rejectReply p none (bits n 31 0) (bits n 36 32))
  ∧ (∀ (p : Nat) (tail : Word64) (s : State), ∃ t : State, exec (.svcReplyTailWrite p tail) s = .next t ∧ (t.ctx p).repRing.tail = tail
    ∧ (t.ctx p).repRing.head = (s.ctx p).repRing.head ∧ (∀ q, q ≠ p → t.ctx q = s.ctx q) ∧ t.mem = s.mem ∧ t.fibres = s.fibres)

/-- R312 to R314, R317, R318: batching, role monitors and the swap. An iteration snapshots the table and issues the template launch; its commit
delivers each valid token and advances its entry, ends the iteration, and adds 1 to the iteration counter after a flushing read on each host port. A monitor that saw
its queue low, or high, for a whole window flips one fibre's role. A due swap brings the group's accesses and engine work to an end, writes its images and puts it aside, and admits what waits; it comes back when a core has room. (Model's choices: log 39, 45;
the snapshot's bytes log 49, the swap's images log 11, pinned pages log 41.) -/
def Obligations.BatchesRolesSwaps : Prop :=
  (∀ (p n id : Nat) (l : List (Nat × Nat)) (t u : State) (s : State), let b := (s.ctx p).batch
    let q := b.queue.toNat
    let snap := b.snap.toNat % 2 ^ 57
    b.count ≠ 0 → b.launch = none → s.othersDone q = true → (s.queue q).state ≠ .onWait → (s.queue q).state ≠ .onLtake → (s.ctx p).state = .active → (s.queue q).en = true → (s.queue q).pasid.toNat = p → (s.queue q).state ≠ .error → (s.queue q).state ≠ .disabled →
    s.dev.mgmt.takeover = false → s.snapshot p b b.count.toNat = some l → s.hubNum p (b.templ.toNat % 2 ^ 57) 64 = some n → State.hubPut p snap (snapBytes l) s = some t →
    bits n 7 0 = 1 → bits n 31 10 = 0 → t.beginLaunch q (s.queue q).ri (BitVec.ofNat 32 (bits n 63 32)) (n.testBit 8) (n.testBit 9) n snap none = .ok id u →
    ∃ v : State, exec (.batchIteration p) s = .next v ∧ v.mem = u.mem ∧ v.launches = u.launches
      ∧ (v.ctx p).batch = { b with next := 0, launch := some id, included := l.map (fun e => (e.1, BitVec.ofNat 64 (bVersion e.2))) })
  ∧ (∀ (p : Nat) (s : State), ((s.ctx p).batch.count = 0 ∨ (s.ctx p).batch.launch ≠ none → exec (.batchIteration p) s = .next s)
    ∧ ((s.ctx p).batch.launch = none → exec (.batchCommit p) s = .next s)
    ∧ (∀ l, (s.ctx p).batch.launch = some l → (s.ctx p).state = .active → (∀ e ∈ s.launches, e.1 ≠ l) →
      let r := s.commitFrom p (s.ctx p).batch (s.ctx p).batch.included.length (s.ctx p).batch.next
      (r.2 = false → exec (.batchCommit p) s = .next r.1)
      ∧ (r.2 = true → let v := r.1.modCtx p (fun y => { y with batch := { y.batch with launch := none, included := [], next := 0 } })
        let i := (s.ctx p).batch.ctr.toNat
        let t := (v.signal (v.queueFields (s.ctx p).batch.queue.toNat .timeline 0) 0 i true 1).wake
        exec (.batchCommit p) s = .next (if r.1.waitsMore t p then r.1.faultRingWaits p else t)
        ∧ (t.ctx p).batch.launch = none ∧ (t.ctx p).batch.included = []
        ∧ ((r.1.counter i).toNat + 1 < 2 ^ 64 → t.dev.out = r.1.dev.out ++ [.flush false, .flush true] ∧ ∀ j, t.counter j = if j = i then r.1.counter i + 1 else r.1.counter j))
      ∧ ((s.ctx p).batch.included = [] → r.2 = true))
    ∧ (∀ l, (s.ctx p).batch.launch = some l → s.launches.any (fun e => e.1 == l) = true → exec (.batchCommit p) s = .next s))
  ∧ (∀ (p r n i : Nat) (v : Word64) (j : Nat) (b : Batch) (s : State), s.hubNum p (b.snap.toNat % 2 ^ 57 + 8 + 128 * b.included.length + 16 * j) 16 = some r → s.hubNum p (b.entry i) 128 = some n →
    ((r.testBit 32 = false ∨ bits r 63 34 ≠ 0 ∨ bReserved n = true ∨ bVersion n ≠ v.toNat) → s.commitEntry p b j (i, v) = (s, true))
    ∧ (∀ t, r.testBit 32 = true → bits r 63 34 = 0 → bReserved n = false → bVersion n = v.toNat → (s.hubPut p (b.entry i) (toBytes 68 n)).isSome = true →
      let tok := bits r 31 0
      s.memRing p (bDring n) (toBytes 16 (bRid n + tok * 2 ^ 64 + bPos n * 2 ^ 96)) = .ok t →
      ∃ m, s.commitEntry p b j (i, v) = ((State.hubPut p (b.entry i) (toBytes 68 m) t).getD t, true)
        ∧ bVersion m = (v.toNat + 2) % 2 ^ 64 ∧ bStatus m = (if r.testBit 33 then 3 else 1) ∧ bPos m = (bPos n + 1) % 2 ^ 32 ∧ bits m 319 256 = bits r 127 64
        ∧ bNcom m = (bNcom n + 1) % 2 ^ 64 ∧ bits m 543 512 = tok))
  ∧ (∀ (c k : Nat) (s : State), let n := 16 * c + k
    (s.monitorOf n = none → exec (.roleMonitorWindow c k) s = .next s)
    ∧ (∀ l, s.monitorOf n = some l → s.clock < (s.slot n).monStart + 2 ^ l.wlog → exec (.roleMonitorWindow c k) s = .next s)
    ∧ (∀ l, s.monitorOf n = some l → (s.slot n).monStart + 2 ^ l.wlog ≤ s.clock → ∃ t : State, exec (.roleMonitorWindow c k) s = .next t ∧ t.mem = s.mem
      ∧ t.slot n = { s.slot n with monStart := (s.slot n).monStart + 2 ^ l.wlog, monLow := true, monHigh := true }
      ∧ (∀ g, (s.slot n).monLow = true → s.roleFibre n 1 true = some g → ((s.fibre g).roleAt ≠ s.clock ∨ s.clock = 0) → t.fibre g = { s.fibre g with role := 0 } ∧ ∀ h, h ≠ g → t.fibre h = s.fibre h)
      ∧ (∀ g, ((s.slot n).monLow = false ∨ s.roleFibre n 1 true = none) → (s.slot n).monHigh = true → s.roleFibre n 0 false = some g → ((s.fibre g).roleAt ≠ s.clock ∨ s.clock = 0) → t.fibre g = { s.fibre g with role := 1 })
      ∧ ((s.slot n).monLow = false → (s.slot n).monHigh = false → t.fibres = s.fibres)))
  ∧ (∀ (c : Nat) (s : State), (s.swapDue c = false → exec (.forwardProgressSwap c) s = .next s) ∧ (s.swapVictim c = none → exec (.forwardProgressSwap c) s = .next s)
    ∧ (∀ x, s.swapVictim c = some x → s.swapDue c = true → s.waiting x.pasid = true → (s.ctx x.pasid).state = .active →
      let ids := (s.groupOf x).map (·.id)
      let q := s.quiesceAll ids
      q.opsAsk ids = false →
      let t := (((s.groupOf x).foldl (fun t y => (t.swapImage y.id).putAside y.id .swapped) q).pinsIdle x.pasid).pinsIn x.pasid
      let u := (t.admitWaiting x.pasid c ((s.wgs.map (·.2)).filter (fun y => y.pasid == x.pasid && y.state == .swapped))).getD t
      ∃ v : State, exec (.forwardProgressSwap c) s = .next v ∧ v.mem = u.mem ∧ v.wgs = u.wgs ∧ (v.core c).lastSwap = s.clock)
    ∧ (∀ x, s.swapVictim c = some x → s.swapDue c = true → s.waiting x.pasid = true → (s.ctx x.pasid).state = .active →
      let q := s.quiesceAll ((s.groupOf x).map (·.id))
      q.opsAsk ((s.groupOf x).map (·.id)) = true → exec (.forwardProgressSwap c) s = .next q))
  ∧ (∀ (w c : Nat) (s : State), let x := s.wg w
    (x.state ≠ .swapped → exec (.swapReadmit w c) s = .next s)
    ∧ (x.state = .swapped → (s.ctx x.pasid).state = .active → (s.nextSwapped x.pasid).map (·.id) = some w →
      (s.swapsOk x = false → exec (.swapReadmit w c) s = .next (s.loseContext x.pasid))
      ∧ (s.swapsOk x = true → ∀ t, (s.pinsIn x.pasid).readmit x c = some t → exec (.swapReadmit w c) s = .next t) ∧ (s.swapsOk x = true → (s.pinsIn x.pasid).readmit x c = none → exec (.swapReadmit w c) s = .next s)))
  ∧ (∀ (l : List Workgroup) (x : Workgroup), oldestSwap l = some x → x ∈ l ∧ ∀ y ∈ l, x.timeSince ≤ y.timeSince)

/-- R207, R340, R345 to R348: service entries. The entry at the head of the service ring is taken when its op and the record it names fit and its reserved fields are zero; one with an unknown
op, a set reserved bit, a record not known or already serviced, lanes outside the record or already serviced, or an op not allowed for the record is discarded with a
record. Op 1 replays the named lanes
or resumes stopped ones; op 2 sends them elsewhere; op 3 makes them exit; ops 4 and 5 save and restore the fibre; op 6 tries sectors or a counter again; op 7 ends the workgroup; ops 8 and 9
replace or remove a parked task, with a fall of its successor counter when the address is 1; op 10 ends the context. (Model's choices: log 34, 35.) -/
def Obligations.ServiceEntries : Prop :=
  (∀ (p n : Nat) (i : RecInfo) (s : State), let c := s.ctx p
    let r := c.serviceRing
    let lanes : Mask := BitVec.ofNat 32 (bits n 223 192)
    let m := if lanes = 0 then i.left else i.left &&& lanes
    let a := bits n 184 128
    let pc : Word64 := BitVec.ofNat 64 (a / 4 * 4)
    let is := fun (op : Nat) => bits n 71 64 = op
    r.head ≠ r.tail → r.size ≠ 0 → c.state = .active → s.hubNum p (r.place r.head.toNat) 64 = some n → c.recs.find? (fun i => i.ridx.toNat == bits n 63 0) = some i →
    bits n 127 72 = 0 → bits n 191 185 = 0 → bits n 511 224 = 0 → i.served = false → lanes &&& ~~~i.lanes = 0 → (lanes = 0 ∨ m ≠ 0) →
    (s.laneRecOk i = true →
      (is 1 → exec (.serviceReplay p) s = .next (State.nextEntry p ((if i.kind = 0x10 ∨ i.kind = 0x11 ∨ i.pc = i.resume
        then (s.unpark i.fib i.place m (some i.resume)).syncImage i.fib else s.replayRec i m).modCtx p (fun c => c.serve i.ridx m))))
      ∧ (is 2 → let t := s.unpark i.fib i.place m (some pc)
        let u := if pc = i.resume then t else (t.modFibre i.fib (Fibre.strikeAll m)).settleFrontier i.fib
        exec (.serviceSkip p) s = .next (((u.syncImage i.fib).modCtx p (fun c => c.serve i.ridx m)).nextEntry p))
      ∧ (is 3 → ∃ t : State, exec (.serviceEndLanes p) s = .next t ∧ (t.ctx p).serviceRing.head = r.head + 1
        ∧ ((s.fibre i.fib).resident = true → ∀ l, m.getLsbD l = true → ∀ e ∈ (t.fibre i.fib).frontier ++ (t.fibre i.fib).spilled, e.mask.getLsbD l = false))
      ∧ (is 4 → ((s.fibre i.fib).resident = false ∨ (s.fibre i.fib).outst ≠ [] ∨ (s.fibre i.fib).loadsBack = false → exec (.serviceExtract p) s = .next s)
        ∧ ((s.fibre i.fib).resident = true → (s.fibre i.fib).outst = [] → (s.fibre i.fib).loadsBack = true → (∀ j, j < 6 → s.hubFault p (a + 4096 * j) true 4096 = none) →
          ∃ t : State, exec (.serviceExtract p) s = .next t ∧ (t.fibre i.fib).extracted = true ∧ (t.fibre i.fib).status = (if (s.fibre i.fib).status = .atFbar then .atFbar else .faultStopped) ∧ (t.fibre i.fib).imageAt = a
            ∧ (t.fibre i.fib).resident = s.sharesGranule i.fib)))
    ∧ (is 5 → s.fibreRecOk i = true → (s.fibre i.fib).extracted = true → (∀ j, j < 6 → s.hubFault p (a + 4096 * j) false = none) →
      (s.hubGet p a 24576 = none → exec (.serviceRestore p) s = .next ((s.loseContext p).nextEntry p))
      ∧ (∀ b d, s.hubGet p a 24576 = some b → ofBytes ((b.drop 508).take 4) = (crc32c (b.take 508)).toNat → s.readImage i.fib a = some d →
        (s.imageBad i.fib b d = true → exec (.serviceRestore p) s = .next (s.dropEntry p r.head))
        ∧ (s.imageBad i.fib b d = false → (s.fibre i.fib).resident = true → (s.wg (s.fibre i.fib).wg).state ≠ .swapped → ∃ t : State, exec (.serviceRestore p) s = .next t ∧ (t.fibre i.fib).extracted = false
          ∧ (t.fibre i.fib).resident = true ∧ (t.fibre i.fib).ureg = d.ureg ∧ ∀ n l, n < 15 → l < 32 → (Sparse.get 0 n (t.fibre i.fib).pred).getLsbD l
            = (if (s.fibre i.fib).present.getLsbD l then Sparse.get 0 n d.pred else Sparse.get 0 n (s.fibre i.fib).pred).getLsbD l)))
    ∧ (is 6 → s.engineRecOk i = true → ∃ t : State, exec (.serviceReplaySectors p) s = .next t ∧ (t.ctx p).serviceRing.head = r.head + 1
      ∧ (i.what = 2 → (t.wg i.wg).waits = false) ∧ (∀ y ∈ (t.ctx p).recs, y.ridx ≠ i.ridx) ∧ (i.what ≠ 4 → t.mem = s.mem)
      ∧ (i.what = 4 → t.mem = (s.discardTask i.page i.place).2.mem))
    ∧ (∀ l, is 7 → i.what ≠ 3 → s.wgs.any (fun e => e.1 == i.wg && (e.2.state == .running || e.2.state == .swapped || e.2.state == .saved)) = true → (s.wg i.wg).launch = some l →
      ∃ t : State, exec (.serviceEndWorkgroup p) s = .next t ∧ (t.launch l).failed = true ∧ (∀ f, (s.fibre f).wg = i.wg → (t.fibre f).status = .exited)
        ∧ (t.queue (s.launch l).queue).state = .error ∧ (t.queue (s.launch l).queue).err = 8)
    ∧ (∀ v, is 8 → State.parkedRecOk p s i = true → s.hubNum p a 64 = some v → s.recordWaits p v = false → s.recordOk p v = true →
      ∃ t : State, exec (.serviceRespawn p) s = .next t ∧ (t.ctx p).parked = c.parked.filter (fun y => y.place != i.place)
        ∧ (t.ctx p).pool = if tFront v then ⟨i.place, v⟩ :: c.pool else c.pool ++ [⟨i.place, v⟩])
    ∧ (is 9 → State.parkedRecOk p s i = true → a ≠ 1 → ∃ t : State, exec (.serviceDiscard p) s = .next t ∧ (t.ctx p).parked = c.parked.filter (fun y => y.place != i.place)
      ∧ t.mem = s.mem ∧ (t.ctx p).pool = c.pool)
    ∧ (is 9 → State.parkedRecOk p s i = true → a = 1 →
      exec (.serviceDiscard p) s = .next (if (s.discardTask p i.place).1 then (s.discardTask p i.place).2.nextEntry p else (s.discardTask p i.place).2))
    ∧ (is 10 → exec (.serviceEndContext p) s = .next ((s.teardown p).nextEntry p)))
  ∧ (∀ (p op : Nat) (allowed : State → RecInfo → Bool) (k : RecInfo → Nat → Mask → State → SvcRes) (s : State), (s.ctx p).serviceRing.head = (s.ctx p).serviceRing.tail →
    s.service p op allowed k = s)
  ∧ (∀ (p n op : Nat) (ins : Instr) (allowed : State → RecInfo → Bool) (s : State), let r := (s.ctx p).serviceRing
    let lanes : Mask := BitVec.ofNat 32 (bits n 223 192)
    (op, ins, allowed) ∈ [(1, Instr.serviceReplay p, State.laneRecOk), (2, .serviceSkip p, State.laneRecOk), (3, .serviceEndLanes p, State.laneRecOk),
      (4, .serviceExtract p, State.laneRecOk), (5, .serviceRestore p, fun t i => t.fibreRecOk i && (t.fibre i.fib).extracted),
      (6, .serviceReplaySectors p, State.engineRecOk), (7, .serviceEndWorkgroup p, fun t i => (i.what != 3 || i.kind != FKind.grain.code)
        && t.wgs.any (fun e => e.1 == i.wg && e.2.state != .ended && (e.2.waits || e.2.state == .running || e.2.state == .swapped || e.2.state == .saved))),
      (8, .serviceRespawn p, State.parkedRecOk p), (9, .serviceDiscard p, State.parkedRecOk p), (10, .serviceEndContext p, fun _ _ => true)] →
    r.head ≠ r.tail → r.size ≠ 0 → (s.ctx p).state = .active → s.hubNum p (r.place r.head.toNat) 64 = some n →
    (bits n 71 64 = 0 ∨ 10 < bits n 71 64 ∨ (bits n 71 64 = op ∧ (bits n 127 72 ≠ 0 ∨ bits n 191 185 ≠ 0 ∨ bits n 511 224 ≠ 0
        ∨ (∀ i ∈ (s.ctx p).recs, i.ridx.toNat ≠ bits n 63 0)
        ∨ ∃ i, (s.ctx p).recs.find? (fun i => i.ridx.toNat == bits n 63 0) = some i ∧ (i.served = true ∨ lanes &&& ~~~i.lanes ≠ 0
          ∨ (lanes ≠ 0 ∧ i.left &&& lanes = 0) ∨ allowed s i = false))) → exec ins s = .next (s.dropEntry p r.head))
    ∧ (1 ≤ bits n 71 64 → bits n 71 64 ≤ 10 → bits n 71 64 ≠ op → exec ins s = .next s))
  ∧ (∀ (p : Nat) (idx : Word64) (s : State),
    s.dropEntry p idx = (s.report { kind := .queueError, src := 2, pasid := p, code := 3, detail := idx.toNat } RecInfo.zero).nextEntry p)
  ∧ (∀ (p : Nat) (s : State), ((s.nextEntry p).ctx p).serviceRing.head = (s.ctx p).serviceRing.head + 1 ∧ (s.nextEntry p).mem = s.mem)

/-- R262, R310, R348 to R351, R358, R377: pages. A walk of a core ends with what the tables say: a translation, a host page asked of ATS, or none. An ATS answer ends it. A page response
replays what waits, or gives it a record with sub 4; a saved context keeps it. Invalidations drop the range once every access that
used it is performed, and wait until then; a rewritten ring is tried again. (Model's choices: log 14, 21, 23; the pages of a reserve, log 41.) -/
def Obligations.PagesAndRings : Prop :=
  (∀ (c i : Nat) (w : Walk) (s : State), (s.core c).walks[i]? = some w → w.stage = 0 →
    let r := s.walk w.pasid w.vpn
    let m := if r.1 = .ok ∧ fieldB r.2.1 7 6 = 0 ∧ fieldB r.2.1 5 4 = 2 then (s.pinLoad w.pasid (fieldB r.2.1 59 52)).mem else s.mem
    let ends := fun (t : Tlb) => ∃ u : State, exec (.translationWalkDone c i) s = .next u ∧ (u.core c).tlb = ((s.core c).putTlb t).tlb ∧ (u.core c).walks = (s.core c).walks.eraseIdx i
      ∧ u.mem = m ∧ u.fibres = s.fibres
    (r.1 ≠ .ok → ends ⟨w.pasid, w.vpn, r.1, 0, 0⟩)
    ∧ (r.1 = .ok → fieldB r.2.1 7 6 ≠ 1 → ends ⟨w.pasid, w.vpn, .ok, r.2.1, r.2.2⟩)
    ∧ (r.1 = .ok → fieldB r.2.1 7 6 = 1 → let a := Sparse.get 0 w.vpn (s.ctx w.pasid).ats
      (a = 1 → ends ⟨w.pasid, w.vpn, .absent, r.2.1, 0⟩) ∧ (2 ≤ a → ends ⟨w.pasid, w.vpn, .ok, r.2.1, a - 2⟩)
      ∧ (a = 0 → ∃ u : State, exec (.translationWalkDone c i) s = .next u ∧ (u.core c).walks = (s.core c).walks.set i { w with stage := 1 } ∧ (u.core c).tlb = (s.core c).tlb
        ∧ u.dev.out = s.dev.out ++ [.atsRequest w.pasid w.vpn])))
  ∧ (∀ (c p vpn frame : Nat) (present : Bool) (s : State), (s.ctx p).state ≠ .ended → (s.ctx p).waiting = [] → ∃ t : State, exec (.atsTranslationCompletion c p vpn present frame) s = .next t
    ∧ Sparse.get 0 vpn (t.ctx p).ats = (if present then frame + 2 else 1) ∧ (∀ v, v ≠ vpn → Sparse.get 0 v (t.ctx p).ats = Sparse.get 0 v (s.ctx p).ats) ∧ t.mem = s.mem
    ∧ (∀ w ∈ (t.core c).walks, ¬(w.stage = 1 ∧ w.pasid = p ∧ w.vpn = vpn)))
  ∧ (∀ (p i : Nat) (ok : Bool) (r : Prg) (s : State), (s.ctx p).prgs.find? (fun r => r.idx == i) = some r →
    (((s.ctx p).state = .preempted ∨ (s.ctx p).state = .saving ∨ (s.ctx p).state = .frozen) → ∃ t : State, exec (.pageRequestResponse p i ok) s = .next t
      ∧ (t.ctx p).deferred = (s.ctx p).deferred ++ [.pageRequestResponse p i ok] ∧ (t.ctx p).prgs = (s.ctx p).prgs ∧ t.fibres = s.fibres)
    ∧ ((s.ctx p).state = .active → r.again = false → (s.ctx p).waiting = [] → (∀ y ∈ (s.ctx p).recs, y.prg ≠ some i) → ∃ t : State, exec (.pageRequestResponse p i ok) s = .next t
      ∧ (t.ctx p).prgs = (s.ctx p).prgs.filter (fun z => z.idx != i) ∧ t.fibres = s.fibres ∧ t.mem = s.mem ∧ Sparse.get 0 r.vpn (t.ctx p).ats = 0
      ∧ (∀ c, ∀ x ∈ (t.core c).tlb, ¬(x.pasid = p ∧ x.vpn = r.vpn ∧ x.st = .absent)) ∧ (ok = true → (t.ctx p).ringBad = [])))
  ∧ (∀ (p i : Nat) (ok : Bool) (s : State), (∀ r ∈ (s.ctx p).prgs, r.idx ≠ i) → exec (.pageRequestResponse p i ok) s = .next s)
  ∧ (∀ (p lo hi : Nat) (s : State),
    let r := s.invalidate p lo hi
    ((∀ c, (s.core c).wbuf = [] ∧ (s.core c).reds = []) → r.2 = true)
    ∧ (r.2 = false → exec (.translationInvalidate p lo hi) s = .next (r.1.awaitWrites (false, p, lo, hi))
      ∧ exec (.atsInvalidation p lo hi) s = .next (r.1.awaitWrites (true, p, lo, hi)))
    ∧ (r.2 = true → ∃ t : State, exec (.translationInvalidate p lo hi) s = .next t ∧ ∀ c, ∀ x ∈ (t.core c).tlb, ¬(x.pasid = p ∧ lo ≤ x.vpn ∧ x.vpn ≤ hi))
    ∧ (r.2 = true → ∃ t : State, exec (.atsInvalidation p lo hi) s = .next t ∧ (∀ c, ∀ x ∈ (t.core c).tlb, ¬(x.pasid = p ∧ lo ≤ x.vpn ∧ x.vpn ≤ hi))
      ∧ (∀ e ∈ (t.ctx p).ats, ¬(lo ≤ e.1 ∧ e.1 ≤ hi)) ∧ t.dev.out.getLast? = some (.atsInvalidated p lo hi)))
  ∧ (∀ (p : Nat) (base : Word64) (size : Word) (s : State), (s.ctx p).waiting = [] →
    (∃ t : State, exec (.ringDescriptorWrite p 0 base size) s = .next t ∧ (t.ctx p).faultRing.base = base &&& BitVec.ofNat 64 (2 ^ 57 - 1) ∧ (t.ctx p).faultRing.size = size
      ∧ (t.ctx p).faultRing.head = (s.ctx p).faultRing.head ∧ (t.ctx p).faultRing.tail = (s.ctx p).faultRing.tail ∧ (t.ctx p).ringBad = (s.ctx p).ringBad.filter (· != 0) ∧ t.mem = s.mem)
    ∧ (∃ t : State, exec (.ringDescriptorWrite p 1 base size) s = .next t ∧ (t.ctx p).serviceRing.size = size ∧ (t.ctx p).faultRing = (s.ctx p).faultRing))
  ∧ (∀ (c sector : Nat) (s : State), ∃ t : State, exec (.l1SectorEviction c sector) s = .next t ∧ t.mem = s.mem ∧ t.fibres = s.fibres
    ∧ ∀ k, Sparse.get [] k (t.core c).l1 = if k = sector then [] else Sparse.get [] k (s.core c).l1)

/-- R352 to R357, R365, R374: contexts are saved, resumed, lost and torn down. The safe state refuses the commands. A context without work is pre-empted at once; a resumed one takes its
deferred events; a save that outlasts its watchdog loses it; a mapped queue
whose packets, whose launches' fibres and whose predecessors' fibres made no progress for the period of the watchdog is put in error 9; a teardown disables its queues and forgets it.
(Model's choices: log 36; the cores a save watchdog resets, log 49; the watchdog's period, log 4.) -/
def Obligations.ContextLife : Prop :=
  (∀ (p : Nat) (s : State), s.dev.mgmt.safe = true → ∀ i ∈ [Instr.preemptPasid p, .resumePasid p, .teardownPasid p, .releasePod, .discardFrozen p 0], exec i s = .next (s.answer 6 []))
  ∧ (∀ (p : Nat) (s : State), s.dev.mgmt.safe = false →
    (∃ t : State, exec (.preemptPasid p) s = .next t ∧ t.dev.mbox.done = true ∧ t.dev.mbox.busy = false ∧ t.dev.mbox.result = 0
      ∧ ((s.ctx p).state = .active → s.wgsOn p = [] → (∀ e ∈ s.launches, e.2.pasid = p → s.mayConfirm e.1 = false) → (t.ctx p).state = .preempted ∧ t.fibres = s.fibres
        ∧ ((∀ e ∈ s.dev.pinOwner, e.2 ≠ p + 1) → t.mem = s.mem))
      ∧ ((s.ctx p).state = .active → (∃ x ∈ s.wgsOn p, s.midCommit x = true) → (t.ctx p).state = .saving))
    ∧ (∃ t : State, exec (.resumePasid p) s = .next t ∧ t.dev.mbox.done = true ∧ t.dev.mbox.result = 0
      ∧ ((s.ctx p).state = .preempted → s.imagesOk p = true → (t.ctx p).state = .active ∧ t.agenda = (s.ctx p).deferred ++ s.agenda ∧ (t.ctx p).deferred = []
        ∧ ∀ w, (s.wg w).pasid = p → (s.wg w).state = .saved → (t.wg w).state = .swapped)
      ∧ ((s.ctx p).state = .preempted → s.imagesOk p = false → (t.ctx p).state = .lost)
      ∧ ((s.ctx p).state ≠ .preempted → t.ctxs = s.ctxs ∧ t.wgs = s.wgs))
    ∧ (exec (.teardownPasid p) s = .next ((s.teardown p).answer 0 [])))
  ∧ (∀ (p : Nat) (s : State), let t := s.teardown p
    ((s.ctx p).state = .ended → t = s)
    ∧ ((s.ctx p).state ≠ .ended → ((t.ctx p).state = .ended ∨ (t.ctx p).state = .gone) ∧ (∀ e ∈ t.launches, e.2.pasid ≠ p) ∧ ((∀ w ∈ s.wgs, w.2.pasid ≠ p) → (∀ o ∈ s.dev.copies, o.pasid ≠ p) →
        ∀ q, s.queue q ≠ Queue.zero → (s.queue q).pasid.toNat = p → (t.queue q).en = false ∧ (t.queue q).state = .disabled) ∧ (t.ctx p).pool = [] ∧ (t.ctx p).calls = [] ∧ (t.ctx p).recs = [] ∧ (∀ o ∈ t.dev.copies, o.pasid ≠ p) ∧ (∀ y ∈ t.dev.tasks, y.pasid ≠ p)))
  ∧ (∀ (q : Nat) (s : State),
    let due := s.progressAt q + Config.hangClocks s.dev.cfg.hang.toNat
    ((s.queue q).mapped = false ∨ s.clock < due → exec (.hangWatchdogExpiry q) s = .next s)
    ∧ ((s.queue q).progress ≤ s.progressAt q ∧ ∀ l k w, (∃ e ∈ s.launches, e.1 = l ∧ e.2.queue = q) → (s.slot k).wg = some w →
      (∃ m, (s.wg w).launch = some m ∧ (m = l ∨ ∃ e ∈ s.predsOf l, e.1 = m)) → (s.slot k).lastIssue ≤ s.progressAt q)
    ∧ ((s.queue q).mapped = true → due ≤ s.clock → (s.ctx (s.queuePasid q)).state ≠ .saving → ∃ t : State, exec (.hangWatchdogExpiry q) s = .next t ∧ (t.queue q).state = .error ∧ (t.queue q).err = 9
      ∧ (t.queue q).mapped = false))
  ∧ (∀ (p : Nat) (s : State), ((s.ctx p).state ≠ .saving → exec (.saveWatchdogExpiry p) s = .next s)
    ∧ ((s.ctx p).state = .saving → ∃ t : State, exec (.saveWatchdogExpiry p) s = .next t ∧ (t.ctx p).state = .lost
      ∧ ∀ x ∈ s.wgsOn p, t.core x.core = { Core.zero with clock0 := s.clock } ∧ ∀ j, j < 16 → t.slot (16 * x.core + j) = Slot.zero))

/-- R359, R360, R364 to R369: seizure and the fabric. A seize request needs a valid signature, then a newer nonce, then an armed region; it presses every context. A release brings the frozen
ones back, a discard needs consent. A link refuses bad flits and goes down after eight or by silence; a good flit carries credits, which acknowledge messages, and requests about this
module's memory; a request that is not sound is answered with an error; a message waits for a credit of its channel; nothing is sent outside the peer set; a lost peer loses the contexts that map it. (Model's choices: log 36, 37, 38.) -/
def Obligations.PressAndFabric : Prop :=
  (∀ (pod sig : Nat) (nonce : Word64) (s : State), s.dev.mgmt.safe = false →
    let good := Config.seizeOk pod nonce sig
    (good = false → exec (.seizePod pod nonce sig) s = .next (s.answer 4 []) ∧ exec (.seizeRequestMessage pod nonce sig) s = .next s)
    ∧ (good = true → nonce ≤ s.dev.mgmt.nonce → exec (.seizePod pod nonce sig) s = .next (s.answer 3 []) ∧ exec (.seizeRequestMessage pod nonce sig) s = .next s)
    ∧ (good = true → s.dev.mgmt.nonce < nonce → s.armed = false → (∃ t : State, exec (.seizePod pod nonce sig) s = .next t ∧ t.dev.mgmt.nonce = nonce ∧ t.dev.mbox.result = 5
        ∧ t.dev.out.getLast? = some (.report 2) ∧ t.ctxs = s.ctxs ∧ t.mem = s.mem)
      ∧ ∃ t : State, exec (.seizeRequestMessage pod nonce sig) s = .next t ∧ t.dev.mgmt.nonce = nonce ∧ t.dev.out.getLast? = some (.report 2))
    ∧ (good = true → s.dev.mgmt.nonce < nonce → s.armed = true → ∃ v : State, v.dev.mgmt.nonce = nonce ∧ v.dev.mgmt.seized = true ∧ v.ctxs = s.ctxs ∧ v.mem = s.mem
      ∧ exec (.seizePod pod nonce sig) s = .next ((v.startPress (s.ctxs.map (·.1)) 1).answer 0 [])
      ∧ exec (.seizeRequestMessage pod nonce sig) s = .next (v.startPress (s.ctxs.map (·.1)) 1)))
  ∧ (∀ (pod sig : Nat) (nonce : Word64) (s : State), s.dev.mgmt.safe = true → exec (.seizeRequestMessage pod nonce sig) s = .next s ∧ exec (.seizePod pod nonce sig) s = .next (s.answer 6 []))
  ∧ (∀ (p consent : Nat) (s : State), s.dev.mgmt.safe = false →
    (s.dev.mgmt.seized = false → s.dev.mgmt.frozen = [] → exec .releasePod s = .next (s.answer 3 []))
    ∧ (s.dev.mgmt.seized = true → s.dev.mgmt.frozen = [] → ∃ t : State, exec .releasePod s = .next t ∧ t.dev.mgmt.seized = false ∧ t.dev.mbox.result = 0 ∧ t.mem = s.mem)
    ∧ (s.dev.mgmt.frozen ≠ [] → exec .releasePod s = .next (State.answer 0 [] (State.modMgmt (s.dev.mgmt.frozen.foldl State.thaw s) (fun m => { m with seized := false }))))
    ∧ ((s.ctx p).state ≠ .frozen → exec (.discardFrozen p consent) s = .next (s.answer 2 []))
    ∧ ((s.ctx p).state = .frozen → Config.consentOk p consent = false → exec (.discardFrozen p consent) s = .next (s.answer 4 []))
    ∧ ((s.ctx p).state = .frozen → Config.consentOk p consent = true → exec (.discardFrozen p consent) s = .next ((s.teardown p).answer 0 [])))
  ∧ (∀ (k : Nat) (flit : List Byte) (s : State), let x := s.flink k
    let own := s.dev.cfg.modIdx.toNat
    let n := ofBytes flit
    let vc := bits n 1 0
    (x.down = true ∨ 16 ≤ k → ∀ i ∈ [Instr.fabricFlit k flit, .linkSilenceTimeout k, .idleFlitTimer k, .linkEventBroadcast own k false], exec i s = .next s)
    ∧ (x.down = false → k < 16 →
      (flit.length = 256 → Config.linkCheckOk n = true → ∃ t : State,
        (let u := t.drainLink k vc x.waiting.length;
          exec (.fabricFlit k flit) s = .next (if bits n 17 10 = own then (Config.fabricMessages n).foldl (State.takeMsg (bits n 9 2)) u else u))
        ∧ t.mem = s.mem ∧ t.ctxs = s.ctxs ∧ (∀ j, j ≠ k → t.flink j = s.flink j) ∧ (t.flink k).fails = 0 ∧ (t.flink k).seqIn = BitVec.ofNat 16 (bits n 33 18)
        ∧ Sparse.get linkCredits vc (t.flink k).credits = Sparse.get linkCredits vc x.credits + bits n 63 34 ∧ (t.flink k).waiting = x.waiting
        ∧ (∀ v, v ≠ vc → (t.flink k).replay.filter (fun y => y.vc == v) = x.replay.filter (fun y => y.vc == v))
        ∧ (t.flink k).replay.filter (fun y => y.vc == vc) = (x.replay.filter (fun y => y.vc == vc)).drop (bits n 63 34))
      ∧ ((flit.length ≠ 256 ∨ Config.linkCheckOk n = false) → x.fails + 1 < 8 → ∃ t : State, exec (.fabricFlit k flit) s = .next t ∧ t.flink k = { x with fails := x.fails + 1 } ∧ t.mem = s.mem)
      ∧ ((flit.length ≠ 256 ∨ Config.linkCheckOk n = false) → 8 ≤ x.fails + 1 → exec (.fabricFlit k flit) s = exec (.linkSilenceTimeout k) s)
      ∧ (let u := s.loseLink k;
        exec (.linkSilenceTimeout k) s = .next ((u.dev.mgmt.hung.filter (fun m => !s.dev.mgmt.hung.contains m)).foldl (fun w m => w.broadcast 4 m) (u.broadcast 3 k)))
      ∧ (exec (.linkEventBroadcast own k false) s = .next (s.loseLink k))
      ∧ (∃ t : State, exec (.idleFlitTimer k) s = .next t ∧ t.flink k = { x with seqOut := x.seqOut + 1 } ∧ t.dev.out = s.dev.out ++ [.fabric k 1 x.seqOut.toNat])))
  ∧ (∀ (m : Nat) (x : FabricMsg) (s : State), let t := s.takeMsg m x
    (x.sound = false → t.mem = s.mem ∧ ((x.kind = .read ∨ x.kind = .write ∨ ∃ op wide p q, x.kind = .atomic op wide p q) → t = s.send ⟨2, m, x.addr, 8, x.tag⟩)
      ∧ (x.kind ≠ .read → x.kind ≠ .write → (∀ op wide p q, x.kind ≠ .atomic op wide p q) → t = s))
    ∧ (x.sound = true → x.kind = .read → t.mem = s.mem)
    ∧ (x.sound = true → x.kind = .write → x.addr < deviceBytes → x.data.length = 64 → x.mask = 2 ^ 64 - 1 → s.sectorBad (sectorOf x.addr) = false →
      BytesSet s t (x.addr / 64 * 64) x.data)
    ∧ (∀ op wide p q, x.sound = true → x.kind = .atomic op wide p q → let b := if wide then 8 else 4
      x.addr + b ≤ deviceBytes → x.addr % b = 0 → s.sectorBad (sectorOf x.addr) = false → BytesSet s t x.addr (toBytes b (outsideNew op b (rdNum s.mem x.addr b) p q))))
  ∧ (∀ (x : Msg) (s : State), s.dev.cfg.peers.getLsbD x.dst = false → s.send x = s)
  ∧ (∀ (x : Msg) (l : Nat) (s : State), s.dev.cfg.peers.getLsbD x.dst = true → linkFor (s.linksTo x.dst) x.addr = some l →
    let y := s.flink l
    let c := Sparse.get linkCredits x.vc y.credits
    let t := s.send x
    (c = 0 ∨ (∃ z ∈ y.waiting, z.vc = x.vc) → t.flink l = { y with waiting := y.waiting ++ [x] } ∧ t.dev.out = s.dev.out)
    ∧ (0 < c → (∀ z ∈ y.waiting, z.vc ≠ x.vc) → (t.flink l).replay = y.replay ++ [x] ∧ (t.flink l).seqOut = y.seqOut + 1 ∧ (t.flink l).waiting = y.waiting
      ∧ Sparse.get linkCredits x.vc (t.flink l).credits = c - 1 ∧ t.dev.out = s.dev.out ++ [.fabric l x.code x.data])
    ∧ t.mem = s.mem ∧ ∀ j, j ≠ l → t.flink j = s.flink j)
  ∧ (∀ (k : Nat) (r : BitVec 19), bits r.toNat 18 16 ≤ 4 → routeLinks (dropLink k r) = (routeLinks r).filter (· != k))
  ∧ (∀ (m k : Nat) (s : State),
    (s.dev.mgmt.hung.contains m = true → exec (.peerHeartbeatTimeout m) s = .next s ∧ exec (.linkEventBroadcast m k true) s = .next s)
    ∧ (s.dev.mgmt.hung.contains m = false → exec (.peerHeartbeatTimeout m) s = .next ((s.losePeer m).broadcast 4 m) ∧ exec (.linkEventBroadcast m k true) s = .next (s.losePeer m)))

/-- R284, R290, R299, R361 to R364, R392, R393: the host's registers and accesses. A counter moves up by any function, down only through PF0 while nobody waits; registers hold what their layout
keeps; the lock fixes the egress windows until a function-level reset; posted writes and AtomicOps are performed at their home, and a
write of more than 512 bytes, a request that the safe state or an unfinished self-test hides, a request that is not supported, or that meets a bad sector, is reported. A read of a register returns what the map shows to the function, and zero elsewhere. (Model's choices: log 12, 16, 43.) -/
def Obligations.HostAccess : Prop :=
  (∀ (pf : Bool) (i : Nat) (v : Word64) (s : State), s.hidden = true → exec (.hostCounterWrite pf i v) s = .next s)
  ∧ (∀ (pf : Bool) (i : Nat) (v : Word64) (s : State), s.hidden = false →
    (s.counter i ≤ v → ∃ t : State, exec (.hostCounterWrite pf i v) s = .next t ∧ t.counter i = v ∧ (∀ j, j ≠ i → t.counter j = s.counter j) ∧ t.mem = s.mem ∧ t.fibres = s.fibres)
    ∧ (v < s.counter i → (∀ e ∈ s.dev.queues, ¬(e.2.state = .onWait ∧ e.2.waitCtr = i)) → ∃ t : State, exec (.hostCounterWrite true i v) s = .next t ∧ t.counter i = v ∧ (∀ j, j ≠ i → t.counter j = s.counter j)
      ∧ t.mem = s.mem ∧ t.fibres = s.fibres ∧ t.dev.queues = s.dev.queues)
    ∧ (v < s.counter i → (pf = false ∨ ∃ e ∈ s.dev.queues, e.2.state = .onWait ∧ e.2.waitCtr = i) →
      exec (.hostCounterWrite pf i v) s = .next (s.report (counterRec { kind := .timeline, pasid := s.ctrOwner i } 1 i) RecInfo.zero)))
  ∧ (∀ (off : Nat) (v : Word64) (s : State), s.dev.mgmt.safe = false → s.dev.mgmt.tested = true →
    (∀ q, q < 4096 → off = 64 * q → ∃ t : State, exec (.registerWrite 0 off v) s = .next t ∧ t.queue q = { s.queue q with ring := BitVec.ofNat 64 (v.toNat % 2 ^ 57 / 4096 * 4096) }
      ∧ (∀ j, j ≠ q → t.queue j = s.queue j) ∧ DeviceOnly s t)
    ∧ (∀ q, q < 4096 → off = 64 * q + 16 → s.dev.mgmt.takeover = false → exec (.registerWrite 0 off v) s = exec (.doorbell q (v.setWidth 32)) s)
    ∧ (∀ i, i < 4096 → off = 0x40000 + 8 * i → exec (.registerWrite 0 off v) s = exec (.hostCounterWrite true i v) s)
    ∧ (∀ i vf, i < 4096 → 0 < vf → vf ≤ 16 → off = 0x40000 + 8 * i → Sparse.get 0 i s.dev.vfCtr = vf → exec (.registerWrite vf off v) s = exec (.hostCounterWrite false i v) s)
    ∧ (∀ i vf, i < 4096 → 0 < vf → vf ≤ 16 → off = 0x40000 + 8 * i → Sparse.get 0 i s.dev.vfCtr ≠ vf → exec (.registerWrite vf off v) s = .next s)
    ∧ (∀ i, i < 256 → off = 0x48000 + 16 * i → ∃ t : State, exec (.registerWrite 0 off v) s = .next t ∧ (t.link i).giver = v.setWidth 12 ∧ (t.link i).taker = (v >>> 16).setWidth 12
      ∧ (t.link i).tokens = (s.link i).tokens ∧ (∀ j, j ≠ i → t.link j = s.link j) ∧ t.dev.queues = s.dev.queues ∧ DeviceOnly s t)
    ∧ (∀ vf, 16 < vf → exec (.registerWrite vf off v) s = .next s)
    ∧ (off = 0x60000 → exec (.registerWrite 0 off v) s = .next (s.modDev (fun d => { d with select := v.setWidth 20 })))
    ∧ (off = 0x70000 → exec (.registerWrite 0 off v) s = .next (if v.getLsbD 0 then s.modCfg (fun c => { c with lock := true }) else s))
    ∧ (∀ vf, 0 < vf → 0x70000 ≤ off → exec (.registerWrite vf off v) s = .next s)
    ∧ (off = 0x70008 → ((1024 ≤ v.toNat ∧ v.toNat ≤ 2 ^ 24) → exec (.registerWrite 0 off v) s = .next (s.modCfg (fun c => { c with swapN := v.setWidth 25 })))
      ∧ (¬(1024 ≤ v.toNat ∧ v.toNat ≤ 2 ^ 24) → exec (.registerWrite 0 off v) s = .next s)))
  ∧ (∀ (vf off : Nat) (v : Word64) (s : State), s.dev.mgmt.safe = true → off < 0x50000 → exec (.registerWrite vf off v) s = .next s)
  ∧ (∀ (off vf : Nat) (s : State),
    (16 < vf ∨ s.dev.mgmt.safe = true ∧ off < 0x50000 → s.readRegister vf off = 0)
    ∧ (s.dev.mgmt.safe = false → s.dev.mgmt.tested = true →
      (∀ i, i < 4096 → off = 0x40000 + 8 * i → s.readRegister 0 off = s.counter i)
      ∧ (∀ i, i < 4096 → 0 < vf → off = 0x40000 + 8 * i → Sparse.get 0 i s.dev.vfCtr ≠ vf → s.readRegister vf off = 0)
      ∧ (off = 0x60000 → s.readRegister 0 off = s.dev.select.setWidth 64)
      ∧ (off = 0x70008 → s.readRegister 0 off = s.dev.cfg.swapN.setWidth 64)
      ∧ (0x70060 ≤ off → off < 0x70080 → s.readRegister 0 off = 0)))
  ∧ (∀ (off : Nat) (v : Word64) (c : Ctx), 0x180 ≤ off → off < 0x200 → (c.writeReg true off v).egress = c.egress)
  ∧ (∀ s : State, (∃ t : State, exec .egressLock s = .next t ∧ t.dev.cfg = { s.dev.cfg with lock := true } ∧ DeviceOnly s t)
    ∧ (∃ t : State, exec .functionLevelReset s = .next t ∧ t.dev.cfg = { s.dev.cfg with lock := false } ∧ DeviceOnly s t))
  ∧ (∀ (port a : Nat) (data : List Byte) (s : State),
    (a + data.length ≤ deviceBytes → data.length ≤ 512 → s.hidden = false → s.rangeBad a data.length = false → ∃ t : State, exec (.hostPostedWrite port a data) s = .next t ∧ BytesSet s t a data ∧ t.fibres = s.fibres
      ∧ ∀ b, a ≤ b → b < a + data.length → Sparse.get 0 (b / 512) t.dev.lastWriter = 0)
    ∧ (deviceBytes < a + data.length ∨ 512 < data.length ∨ s.hidden = true → exec (.hostPostedWrite port a data) s = .next (s.emit (.aer 0))))
  ∧ (∀ (op a : Nat) (wide : Bool) (x y : Word64) (s : State), let n := if wide then 8 else 4
    let old := rdNum s.mem a n
    (2 < op ∨ a % n ≠ 0 ∨ deviceBytes < a + n ∨ s.hidden = true → exec (.hostAtomicOp op wide a x y) s = .next (s.emit (.aer 0))) ∧
    let new := if op = 0 then (old + x.toNat) % 2 ^ (8 * n) else if op = 1 then x.toNat % 2 ^ (8 * n) else if old = x.toNat % 2 ^ (8 * n) then y.toNat % 2 ^ (8 * n) else old
    op ≤ 2 → a % n = 0 → a + n ≤ deviceBytes → s.hidden = false →
    (s.sectorBad (sectorOf a) = false → ∃ t : State, exec (.hostAtomicOp op wide a x y) s = .next t ∧ BytesSet s t a (toBytes n new)
      ∧ t.dev.out = s.dev.out ++ [.atomicDone (BitVec.ofNat 64 old)])
    ∧ (s.sectorBad (sectorOf a) = true → ∃ t : State, exec (.hostAtomicOp op wide a x y) s = .next t ∧ t.mem = s.mem ∧ t.sectorBad (sectorOf a) = true
      ∧ t.dev.out = s.dev.out ++ [.aer 1]))

/-- R365, R370 to R372: the management core. Sensor readings and the log go out, or the log goes to a host buffer that a request names; images are staged and activated when their signature and rollback number stand; SPDM requests are answered.
Each changes device state only: no memory, no register and no fibre. (Model's choices: log 15, 42.) -/
def Obligations.ManagementCommands : Prop :=
  (∀ (vals : List Nat) (smbus : Bool) (s : State), let m := s.dev.mgmt
    (∃ t : State, exec (.sensorSample vals) s = .next t ∧ t.dev.mgmt.sensors = (List.range sensorCount).map (fun i => vals.getD i 0) ∧ DeviceOnly s t
      ∧ ((∀ i, i < sensorCount → Config.sensorCrossing i (m.sample i) (vals.getD i 0) = 0) → t.dev.mgmt = { m with sensors := (List.range sensorCount).map (fun i => vals.getD i 0) }))
    ∧ (∃ t : State, exec (.mctpSensorRead smbus) s = .next t ∧ t.dev.out = s.dev.out ++ [.sensors m.readings] ∧ DeviceOnly s t)
    ∧ (∃ t : State, exec .readSensors s = .next t ∧ t.dev.mbox.done = true ∧ t.dev.mbox.busy = false ∧ t.dev.mbox.result = 0 ∧ DeviceOnly s t
      ∧ ∀ i, i < (m.readings.flatMap (toBytes 4)).length → Sparse.get 0 i t.dev.mbox.resp = (m.readings.flatMap (toBytes 4)).getD i 0)
    ∧ m.readings.take sensorCount = (List.range sensorCount).map m.sample)
  ∧ (∀ (idx : Nat) (s : State),
    (s.dev.mbox.mirror = none → ∃ t : State, exec (.readEventLog idx false) s = .next t ∧ t.dev.mbox.done = true ∧ t.dev.mgmt = s.dev.mgmt ∧ DeviceOnly s t
      ∧ t.dev.mbox.rlen = BitVec.ofNat 16 ((((s.dev.mgmt.log.drop idx).take 512).flatMap LogEntry.bytes).length))
    ∧ (∀ a, s.dev.mbox.mirror = some a → ∃ t : State, exec (.readEventLog idx false) s = .next t ∧ t.dev.mgmt = { s.dev.mgmt with logBuf := a, mirrored := s.dev.mgmt.logCount } ∧ DeviceOnly s t)
    ∧ (∃ t : State, exec (.readEventLog idx true) s = .next t ∧ t.dev.mgmt.log.length ≤ max 16384 s.dev.mgmt.log.length ∧ DeviceOnly s t
      ∧ (s.dev.mgmt.log.length ≤ 16384 → t.dev.mgmt.log.drop (t.dev.mgmt.log.length - s.dev.mgmt.log.length) = s.dev.mgmt.log)))
  ∧ (∀ (kind version rollback sig : Nat) (s : State), let i : Image := ⟨kind, version, rollback, sig⟩
    (2 < kind → exec (.stageImage kind version rollback sig) s = .next (s.answer 2 []))
    ∧ (kind ≤ 2 → ∃ t : State, exec (.stageImage kind version rollback sig) s = .next t ∧ t.dev.mbox.result = 0 ∧ t.dev.mgmt.staged.find? (fun y => y.kind == kind) = some i ∧ DeviceOnly s t
      ∧ t.dev.mgmt.images = s.dev.mgmt.images))
  ∧ (∀ (kind : Nat) (s : State),
    (s.dev.mgmt.staged.find? (fun i => i.kind == kind) = none → exec (.activateImage kind) s = .next (s.answer 2 []))
    ∧ (∀ i, s.dev.mgmt.staged.find? (fun i => i.kind == kind) = some i →
      (Config.imageOk i.signed = false → exec (.activateImage kind) s = .next (s.answer 4 []))
      ∧ (Config.imageOk i.signed = true → i.rollback < s.dev.mgmt.fusedMin → exec (.activateImage kind) s = .next (s.answer 3 []))
      ∧ (Config.imageOk i.signed = true → s.dev.mgmt.fusedMin ≤ i.rollback → ∃ t : State, exec (.activateImage kind) s = .next t ∧ t.dev.mbox.result = 0
        ∧ DeviceOnly s t ∧ t.dev.mgmt.activated.head? = some i ∧ (∀ y ∈ t.dev.mgmt.staged, y.kind ≠ kind) ∧ t.dev.mgmt.images = s.dev.mgmt.images ∧ (kind = 0 → t.dev.mgmt.takeover = true))))
  ∧ (∀ (a b n : Nat) (s : State), let tells := fun (i : Instr) (code data : Nat) => ∃ t : State, exec i s = .next t ∧ t.dev.out = s.dev.out ++ [.spdm code data] ∧ DeviceOnly s t
    tells .getVersion 1 0x12 ∧ tells .getCapabilities 2 (Config.spdmData 2 0) ∧ tells (.negotiateAlgorithms a) 3 (a % 2) ∧ tells .getDigests 4 (Config.spdmData 4 0)
    ∧ tells (.getCertificate a b) 5 (Config.spdmData 5 (a + 2 ^ 16 * b)) ∧ tells (.challenge n) 6 (Config.spdmData 6 n)
    ∧ (1 ≤ n → n ≤ 5 → tells (.getMeasurements n) 7 (Config.spdmData 7 (n + 8 * s.measured n))) ∧ (n = 0 ∨ 5 < n → tells (.getMeasurements n) 0x7F n))
  ∧ (∀ (r : Nat) (l : List Byte) (s : State), let t := s.answer r l
    DeviceOnly s t ∧ t.dev.mgmt = s.dev.mgmt ∧ t.dev.mbox.go = false ∧ t.dev.mbox.busy = false ∧ t.dev.mbox.done = true ∧ t.dev.mbox.result = BitVec.ofNat 8 r)

/-- R271, R276, R288, R289, R372 to R374: command processors, limits, memory errors and bring-up. A takeover changes the active complex and reads latched doorbells; power and heat limits act;
errors that are corrected are only counted and others poison or mark, spoil or lose a packet, or drop a clean sector; the log names a failed unit and its test; a reset clears the device but keeps flash and the memory outside it, and
after a failed test the fabric links stay down. (Model's choices: log 18, 42.) -/
def Obligations.DeviceLife : Prop :=
  (∀ s : State, (∃ t : State, exec .cpHeartbeatTimeout s = .next t ∧ t.dev.mgmt.takeover = true ∧ t.dev.queues = s.dev.queues ∧ t.mem = s.mem)
    ∧ (s.dev.mgmt.takeover = false → exec .cpTakeover s = .next s)
    ∧ (s.dev.mgmt.takeover = true → (∀ e ∈ s.ctxs, e.2.batch.launch = none) → s.dev.mgmt.latched = [] →
      (s.dev.mgmt.activated.find? (fun i => i.kind == 0) = none → ∃ t : State, exec .cpTakeover s = .next t ∧ t.dev.mgmt.complex = (!s.dev.mgmt.complex) ∧ t.dev.mgmt.takeover = false
        ∧ t.dev.queues = s.dev.queues ∧ t.mem = s.mem)
      ∧ (∀ i, s.dev.mgmt.activated.find? (fun i => i.kind == 0) = some i → Config.knowsTable i.version = true → ∃ t : State, exec .cpTakeover s = .next t
        ∧ t.dev.mgmt.tableVersion = s.dev.mgmt.tableVersion + 1 ∧ t.dev.mgmt.images.head? = some i ∧ t.dev.mgmt.complex = (!s.dev.mgmt.complex))
      ∧ (∀ i, s.dev.mgmt.activated.find? (fun i => i.kind == 0) = some i → Config.knowsTable i.version = false → ∃ t : State, exec .cpTakeover s = .next t
        ∧ t.dev.mgmt.complex = s.dev.mgmt.complex ∧ t.dev.mgmt.images = s.dev.mgmt.images ∧ t.dev.mgmt.takeover = false)))
  ∧ (∀ s : State, (∃ t : State, exec .powerLimitExcess s = .next t ∧ t.dev.mgmt.clockStep = s.dev.mgmt.clockStep + 1 ∧ t.mem = s.mem ∧ t.fibres = s.fibres ∧ t.cores = s.cores)
    ∧ (∃ t : State, exec .thermalTrip s = .next t ∧ t.dev.mgmt.tripped = true ∧ ∀ c, c < Config.cores → (t.core c).poweredOff = true))
  ∧ (∀ (sector unit c k n : Nat) (s : State),
    (exec (.scrub sector 0) s = .next s)
    ∧ (∃ t : State, exec (.scrub sector 1) s = .next t ∧ t.mem = s.mem ∧ t.dev.mgmt.eccCorrected = Sparse.modify 0 10 (· + 1) s.dev.mgmt.eccCorrected ∧ t.dev.poison = s.dev.poison)
    ∧ (2 ≤ n → ∃ t : State, exec (.scrub sector n) s = .next t ∧ t.mem = s.mem ∧ t.sectorBad sector = true ∧ t.dev.mgmt.eccUncorrectable = Sparse.modify 0 10 (· + 1) s.dev.mgmt.eccUncorrectable)
    ∧ (∃ t : State, exec (.eccError unit c k true) s = .next t ∧ t.mem = s.mem ∧ t.cores = s.cores ∧ t.fibres = s.fibres
      ∧ t.dev.mgmt.eccCorrected = if unit < 11 then Sparse.modify 0 (min unit 9) (· + 1) s.dev.mgmt.eccCorrected else s.dev.mgmt.eccCorrected)
    ∧ (unit = 4 → ∃ t : State, exec (.eccError unit c k false) s = .next t ∧ t.mem = s.mem ∧ Ecc.tile k ∈ (t.core c).ecc ∧ t.fibres = s.fibres)
    ∧ (unit = 1 → ∃ t : State, exec (.eccError unit c k false) s = .next t ∧ Ecc.uni (k / 64) (k % 64) ∈ (t.core c).ecc ∧ t.fibres = s.fibres)
    ∧ (unit = 7 → ∃ t : State, exec (.eccError unit c k false) s = .next t ∧ Sparse.get [] k (t.core c).l1 = [] ∧ t.mem = s.mem)
    ∧ (unit = 9 → s.dev.dirtyL2 k = true → ∃ t : State, exec (.eccError unit c k false) s = .next t ∧ t.sectorBad k = true ∧ t.mem = s.mem)
    ∧ (unit = 9 → s.dev.dirtyL2 k = false → ∃ t : State, exec (.eccError unit c k false) s = .next t ∧ t.dev.poison = s.dev.poison ∧ t.mem = s.mem)
    ∧ (unit = 10 → ∃ t : State, exec (.eccError unit c k false) s = .next t ∧ t.sectorBad k = true ∧ t.mem = s.mem)
    ∧ (unit = 11 → ∃ t : State, exec (.eccError unit c k false) s = .next t ∧ t.mem = s.mem ∧ t.fibres = s.fibres
      ∧ (t.core c).wbuf = (s.core c).wbuf.map (fun b => if b.id = k then { b with check := ~~~b.check } else b))
    ∧ (unit = 13 → ∃ t : State, exec (.eccError unit c k false) s = .next t ∧ t.mem = s.mem ∧ t.fibres = s.fibres ∧ (t.core c).lost = true))
  ∧ (∀ (failed : Nat) (s : State), let m := s.dev.mgmt
    let kept := fun (t : State) => t.fibres = [] ∧ t.slots = [] ∧ t.cores = [] ∧ t.wgs = [] ∧ t.launches = [] ∧ t.ctxs = [] ∧ t.dev.queues = [] ∧ t.dev.counters = [] ∧ t.dev.cfg = DevCfg.zero
      ∧ t.dev.mgmt.nonce = m.nonce ∧ t.dev.mgmt.fusedMin = m.fusedMin ∧ t.dev.mgmt.seized = false ∧ t.dev.poison = []
      ∧ ∀ a, rd8 t.mem a = if isHost a = true ∨ isPeer a = true then rd8 s.mem a else 0
    (∃ t : State, exec (.powerOn failed) s = .next t ∧ kept t ∧ (m.failedUnit = 0 → (t.dev.mgmt.safe = true ↔ failed ≠ 0) ∧ (t.dev.mgmt.tested = true ↔ failed = 0)) ∧ (2 ≤ m.failedUnit → t.dev.mgmt.safe = true)
      ∧ (t.dev.mgmt.safe = true → ∀ l, l < 16 → (t.flink l).down = true)
      ∧ (m.failedUnit = 0 → ∃ e, t.dev.mgmt.log.getLast? = some e ∧ e.kind = LogKind.selfTest.code ∧ e.source = failed ∧ e.detail = selfTestOf failed))
    ∧ (∃ t : State, exec .deviceReset s = .next t ∧ kept t ∧ t.dev.mgmt.staged = m.staged ∧ (m.failedUnit = 0 → t.dev.mgmt.safe = false ∧ t.dev.mgmt.tested = true))
    ∧ (∃ t : State, exec .powerLoss s = .next t ∧ kept t ∧ t.dev.mgmt.staged = m.staged ∧ t.dev.mgmt.images = m.images ∧ t.dev.mgmt.tested = false)
    ∧ (∃ t : State, exec .managementCoreReset s = .next t ∧ t.mem = s.mem ∧ t.fibres = s.fibres ∧ t.ctxs = s.ctxs ∧ t.dev.queues = s.dev.queues ∧ t.dev.mbox = Mailbox.zero
      ∧ (∀ i, m.activated.find? (fun i => i.kind == 2) = some i → t.dev.mgmt.images.head? = some i) ∧ (m.activated.find? (fun i => i.kind == 2) = none → t.dev.mgmt = m)))
/-- R18, R19, R69, R99, R338 to R343: taking a fault and its replay. A refused instruction, or a fetch that fails, parks the whole entry with both addresses at the
instruction; one record goes to the fault ring; the fibre of a refused instruction is fault-stopped and its slot passes. With no free place it is fault-stopped at
once, and with no room in the ring it waits. The destinations of a faulting instruction are held, and what touches them does not issue. A replay turns the parked
lanes into a run entry at the instruction, and a skip into one at another address. (Model's choices: log 17, 19, 20.) -/
def Obligations.FaultsAndReplays : Prop :=
  (∀ (k : FKind) (d place : Nat) (s : State), s.cur.mask ≠ 0 → s.me.parkedAt s.cur.pc s.cur.pc = none →
    exec .illegalInstruction s = .next (s.precise .illegalInstruction 0)
    ∧ (s.me.freePark = some place → s.RingRoom s.myPasid → s.me.spilled = [] → (s.me.leave s.cur.age s.cur.mask).frontier.length ≤ 7 → ∃ t : State, s.precise k d = t ∧ ParkedLanes s t k accRead 0 place s.cur.pc 0 s.cur.mask
      ∧ t.me.status = .faultStopped ∧ (s.mySlot.issuing = some s.cur.fib → t.mySlot.issuing = none))
    ∧ (s.me.freePark = none → s.precise k d = s.faultStop)
    ∧ (s.me.freePark = some place → (s.ctx s.myPasid).faultRing.full = true → s.precise k d = s.stall .ringRoom))
  ∧ (∀ (e : Entry) (s : State), s.cur.mask ≠ 0 → s.me.parkedAt s.cur.pc s.cur.pc = some e → s.RingRoom s.myPasid → s.me.spilled = [] →
    ∃ t : State, exec .illegalInstruction s = .next t ∧ t.me.status = .faultStopped
      ∧ t.me.frontier = (s.me.leave s.cur.age s.cur.mask).frontier.map (fun z => if z.kind == .parked && z.park == e.park then { z with mask := z.mask ||| s.cur.mask } else z))
  ∧ (∀ (k : FKind) (sub a place : Nat) (s : State), (s.fetchWords s.me.core s.myPasid 3 s.cur.pc.toNat).2 = some (.bad k sub, a) → sub ≠ 2 → s.cur.mask ≠ 0 →
    s.me.parkedAt s.cur.pc s.cur.pc = none → s.me.freePark = some place → s.RingRoom s.myPasid → s.me.spilled = [] → (s.me.leave s.cur.age s.cur.mask).frontier.length ≤ 7 →
    ∃ t : State, exec .instructionFetchFault s = .next t ∧ ParkedLanes s t k accFetch (a / 4096) place s.cur.pc 0 s.cur.mask)
  ∧ (∀ (k : FKind) (sub acc page place : Nat) (lanes : List Nat) (va : Nat → Nat) (u : Uses) (s : State), lanes ≠ [] → (∀ l ∈ lanes, va l / 4096 = page) → u.wr ≠ [] →
    s.replayHold = 0 → s.me.parkedAt s.cur.pc s.cur.npc = none → s.me.freePark = some place → s.RingRoom s.myPasid →
    ∃ t : State, s.parkHeld (lanes.map (fun l => ⟨l, k, sub, acc, va l, 0⟩)) u = some t
      ∧ ParkedLanes s t k acc page place s.cur.npc (s.me.nextId + 1) (maskOf lanes)
      ∧ t.me.held = s.me.held.filter (fun z => z.id != s.me.nextId + 1) ++ [⟨s.me.nextId + 1, u.wr.map (Reg.phys s.me.base), s.cur.pc, u.la + 1⟩])
  ∧ (∀ (v : Bool) (d a b : BitVec 7) (u : Bool) (s : State), let w := usesTwin v d a b u
    s.outside w = false → s.cur.active ≠ 0 →
    (∃ h ∈ s.me.held, h.shadow = 0 ∧ h.id ≠ s.replayHold ∧ ∃ r ∈ (w.rd ++ w.wr).map (Reg.phys s.me.base), r ∈ h.regs) →
    exec (.add v d a b u) s = .next s.faultStop)
  ∧ (∀ (f place : Nat) (m : Mask) (e : Entry) (s : State), (s.fibre f).spilled = [] → (s.fibre f).frontier.length ≤ 7 →
    (s.fibre f).frontier.find? (fun z => z.kind == .parked && z.park == place) = some e → e.mask &&& m ≠ 0 →
    let same := fun t : State => t.mem = s.mem ∧ (∀ g, g ≠ f → t.fibre g = s.fibre g) ∧ t.slots = s.slots ∧ (t.fibre f).ureg = (s.fibre f).ureg
      ∧ (t.fibre f).pred = (s.fibre f).pred ∧ (t.fibre f).masks = (s.fibre f).masks
    (same (s.unpark f place m none) ∧ ((s.unpark f place m none).fibre f).frontier =
      (s.fibre f).cutParked place m ++ [⟨.run, e.pc, e.resume, e.prio, e.mask &&& m, (s.fibre f).nextAge, false, 0, 0, true, e.hold⟩])
    ∧ (∀ pc, (∀ z ∈ (s.fibre f).frontier, z.kind = .run → z.replay = false → z.pc ≠ pc) → same (s.unpark f place m (some pc))
      ∧ ((s.unpark f place m (some pc)).fibre f).frontier = (s.fibre f).cutParked place m ++ [Entry.at_ pc e.prio (e.mask &&& m) (s.fibre f).nextAge])
    ∧ ((s.fibre f).status = .faultStopped → ∀ dst, ((s.unpark f place m dst).fibre f).status = .ready))
  ∧ (∀ (r : FRec) (time : Word64), r.Fits → let n := r.image time
    bits n 7 0 = r.kind.code ∧ bits n 9 8 = r.src ∧ bits n 11 10 = r.acc ∧ bits n 15 12 = r.sub ∧ bits n 35 16 = r.pasid ∧ bits n 39 36 = 0 ∧ bits n 47 40 = r.ltag
    ∧ bits n 63 48 = 0 ∧ bits n 120 64 = r.addr % 2 ^ 57 ∧ bits n 127 121 = 0 ∧ bits n 135 128 = r.core ∧ bits n 139 136 = r.slot ∧ bits n 141 140 = r.fibpos
    ∧ bits n 143 142 = r.park ∧ bits n 175 144 = r.lanes.toNat ∧ bits n 191 176 = r.queue ∧ bits n 248 192 = r.pc.toNat % 2 ^ 57 ∧ bits n 255 249 = 0
    ∧ bits n 287 256 = r.launch ∧ bits n 303 288 = r.sfirst ∧ bits n 319 304 = r.scount ∧ bits n 351 320 = r.code ∧ bits n 383 352 = r.user
    ∧ bits n 447 384 = r.detail ∧ bits n 511 448 = time.toNat)

/-- R44, R45, R49 to R51, R56 to R68, R77: decode and encode agree. Every well-formed instruction of a program, under every attribute group that it may carry, with every operand at
every value, is what the decoder reads from its encoded words, and from their bytes whatever follows them. -/
def Obligations.EncodingRoundTrip : Prop :=
  ∀ (a : Attr) (i : Instr), i.isEvent = false → i ≠ .illegalInstruction → i ≠ .instructionFetchFault → WellFormed i = true → a.wf = true →
    (isFormatB i = true → a.ge = false) →
    decodeWords (encode a i) = .ok ⟨a, i, (encode a i).length⟩
    ∧ ∀ l : List Byte, decodeBytes (encodeBytes a i ++ l) = .ok (⟨a, i, (encode a i).length⟩, l)

/-- R46, R49, R51, R56 to R68: words written out from the encoding tables decode to their instruction, one or two of each format and family, the spec's own examples among them; words of
R68 are refused. -/
def Obligations.DecodedWords : Prop :=
  let reads := fun (l : List Nat) (i : Instr) => decodeWords l = .ok ⟨Attr.none, i, l.length⟩
  reads [0x00000000] (.add false 0 0 0 false)
  ∧ reads [0b000001_0000101_1000000_0000111_10010] (.sub true 5 64 7 true)
  ∧ reads [0b000100_0001000_0000100_0000110_00111] (.lea4 false 8 4 6 false)
  ∧ reads [0xF8000123, 0x24280456] (.movi true 5 0x123456)
  ∧ reads [0b000110_0000010_0000001_111111111111] (.addImm false 2 1 (-1))
  ∧ reads [0b010000_001_1010_0000100_0000110_00010] (.setp 1 10 4 6 false 2)
  ∧ reads [0b011000_0_0011_1110_1_1111111111111110] (.br 3 14 true (-2))
  ∧ reads [0b011010_0000010_0000000_0000000_00111] (.jwt 2)
  ∧ reads [0x80201043] (.fma 0 false 4 1 2 false)
  ∧ reads [0b101001_0000111_0001000_0_001_0001_0100] (.fcvt 7 8 false 1 1 4)
  ∧ reads [0b101010_0001000_0000010_0000001_00110] (.dot8 8 2 1 false 2)
  ∧ reads [0b101100_0000111_0000010_0011_010_01_011] (.ld 7 2 3 2 true 3 0)
  ∧ reads [0xF8000010, 0b101101_0001000_0000010_0000_100_11_010] (.strel 8 2 0 4 2 0x10)
  ∧ reads [0b110010_0001010_0000100_0001_000_11_111] (.atom 10 4 1 0 3 true 3 0)
  ∧ reads [0b110110_0000101_0000011_0000000_00000] (.qpush 5 3)
  ∧ reads [0b110111_0000000_0010010_0000_00000000] (.fence 4 2 0)
  ∧ reads [0b111000_0000100_0000000_0010_00000011] (.mma 4 2)
  ∧ reads [0b111001_0001000_0000101_0001_00000000] (.cpy 8 5 1)
  ∧ reads [0b111010_0000000_0000111_0000_00000010] (.bwait 7 0)
  ∧ reads [0b111011_0000010_0000101_0000_00000101] (.ssqry 2 5 0)
  ∧ reads [0b111100_0000011_0000000_0000_00000000] (.tkspawn 3 0)
  ∧ reads [0b111100_0000111_0000001_0000_00010100] (.rdsrUniform 7 1)
  ∧ decodeWords [0xFE800000, 0xB8383341] = .ok ⟨⟨true, 2, false, false, false, 0⟩, .lds 7 3 3 2 true 0, 2⟩
  ∧ (∀ m ∈ [0x0F, 0x17, 0x1E, 0x1F, 0x2B], decodeWords [m * 2 ^ 26] = .error .unassigned)
  ∧ decodeWords [0xFFFFFFFF] = .error .reservedPrefix
  ∧ decodeWords [0xFC000000, 0xFC000000, 0] = .error .repeatedPrefix
  ∧ decodeWords [0xF8000000, 0] = .error .extensionNotAllowed
  ∧ decodeWords [0xFC100000, 0x60000000] = .error .guardOnBranch
  ∧ decodeWords [0b000001_0000000_0000000_0000000_00000] = .error .illegalField

/-- R44, R45, R49, R68, R99, R340: a step runs the decoded instruction. When the words at the pc of the entry that issues decode to an instruction, step is exec of it over the
state that holds it latched, and then a clock passes, and the fibres that may now be ready are looked at; its active lanes are the entry's, or those whose guard is true. Words that are no instruction run the illegal-instruction
fault; a word that cannot be fetched runs the fetch fault, or waits for its translation. (Model's choices: log 3, 4.) -/
def Obligations.StepRunsTheDecodedInstruction : Prop :=
  (∀ (k f : Nat) (e : Entry) (s : State), s.Issues k f e →
    let c := (s.fibre f).core
    let r := s.fetchWords c (s.wg (s.fibre f).wg).pasid 3 e.pc.toNat
    let start := { s.grant k f with cur := e.cur f }
    (r.2 = none →
      (∀ err, decodeWords (r.1.map (·.1)) = .error err → step s = afterStep (exec .illegalInstruction (s.fetched k f e r.1)))
      ∧ (∀ d, decodeWords (r.1.map (·.1)) = .ok d → let l := s.latched k f e r.1 d
        (d.attr.ge = false → step s = afterStep (exec d.instr l))
        ∧ (d.attr.ge = true → let u := Uses.rdP d.attr.gp.toNat
          (l.hazard u = none → l.eccLanes u = 0 → step s = afterStep (exec d.instr { l with cur := { l.cur with active := l.guardMask f d.attr e.mask } }))
          ∧ (l.hazard u = some false → step s = .next (l.stall .scoreboard).after)
          ∧ (l.hazard u = some true → step s = .next l.faultStop.after)
          ∧ (l.hazard u = none → l.eccLanes u ≠ 0 → step s = afterStep (exec d.instr { l with cur := { l.cur with gbad := true } })))))
    ∧ (∀ kind sub a, r.2 = some (.bad kind sub, a) → step s = afterStep (exec .instructionFetchFault start))
    ∧ (∀ v a, r.2 = some (.miss v, a) → step s = .next ((start.modCore c (fun x => x.askWalk (s.wg (s.fibre f).wg).pasid v false)).stall .translation).after))
  ∧ (∀ (i : Instr) (l : List Instr) (s : State), s.agenda = i :: l → i.isEvent = true → step s = afterStep (exec i { s with agenda := l }))
  ∧ (∀ s t : State, s.agenda = [] → s.clock % 2 = 1 → s.nextEvent = some t → step s = .next t.after)
  ∧ (∀ s : State, s.agenda = [] → s.issueNext = none → s.nextEvent = none → step s = .next s.after)
  ∧ (∀ (i : Instr) (s t : State), exec i s = .next t → afterStep (exec i s) = .next t.after)

/-- R22, R271, R290, R299, R374, R393: what reset leaves. Every byte reads zero, nothing is resident, every queue is disabled and every counter is zero, and the registers of R393 hold
their reset values. (Model's choices: every register whose reset value no rule gives is zero, which is most of what Fibre.zero, Slot.zero, Workgroup.zero, Launch.zero,
Core.zero and Ctx.zero hold: log 1. Memory other than this module's device memory, host and peer memory included, and the fields of the model's own are zero: log 2.) -/
def Obligations.ResetState : Prop :=
  let s := State.reset
  Memory.wf s.mem = true ∧ (∀ a, rd8 s.mem a = 0)
  ∧ (∀ f, s.fibre f = Fibre.zero) ∧ (∀ k, s.slot k = Slot.zero) ∧ (∀ w, s.wg w = Workgroup.zero) ∧ (∀ l, s.launch l = Launch.zero)
  ∧ (∀ c, s.core c = Core.zero) ∧ (∀ p, s.ctx p = Ctx.zero)
  ∧ (∀ q, (s.queue q).en = false ∧ (s.queue q).mapped = false ∧ (s.queue q).ri = 0 ∧ (s.queue q).wi = 0) ∧ (∀ i, s.counter i = 0)
  ∧ s.dev.cfg.lock = false ∧ s.dev.cfg.swapN = 65536 ∧ s.dev.cfg.quantum = 2000 ∧ s.dev.cfg.hang = 4000 ∧ s.dev.cfg.saveWd = 250 ∧ s.dev.select = 0
  ∧ s.dev.mbox.busy = false ∧ s.dev.mbox.done = false ∧ s.dev.mbox.result = 0
  ∧ s.eligible = [] ∧ s.issueNext = none

/-- R251: an invariant. Every step keeps memory in its canonical form: addresses strictly rising and no entry that an unlisted address reads as. (The form is the
model's own: log 2.) -/
def Obligations.MemoryKept : Prop :=
  ∀ s t : State, Memory.wf s.mem = true → step s = .next t → Memory.wf t.mem = true

end
end

