-- ==== Sys2Proof/Laws/Sparse.lean ====
section
/-! SUPPORT. The laws of the sparse map: a read after a write, and that every operation keeps the canonical form. -/

namespace Sys2Proof

namespace Sparse

variable {α : Type} {d v : α} {k j lo : Nat} {m : Sparse α}

@[simp] theorem get_nil : get d k ([] : Sparse α) = d := rfl

theorem get_insert : get d j (insert k v m) = if j = k then v else get d j m := by
  induction m with
  | nil => simp [insert, get]
  | cons e l ih =>
    obtain ⟨k', w⟩ := e
    unfold insert
    split
    · simp only [get]
    · split
      · rename_i h; subst h; simp only [get]; split <;> rfl
      · simp only [get, ih]
        split <;> rename_i h1
        · subst h1; split
          · omega
          · rfl
        · rfl

theorem get_erase : get d j (erase k m) = if j = k then d else get d j m := by
  induction m with
  | nil => simp [erase, get]
  | cons e l ih =>
    obtain ⟨k', w⟩ := e
    simp only [erase, get]
    by_cases h1 : k = k'
    · subst h1; simp only [if_true, ih]; split <;> rfl
    · simp only [h1, if_false, get, ih]
      split
      · rename_i h2; subst h2; rw [if_neg (Ne.symm h1)]
      · rfl

section
variable [DecidableEq α]

/-- A read of any key after a write. -/
theorem get_set : get d j (set d k v m) = if j = k then v else get d j m := by
  unfold set
  split
  · rename_i h; subst h; exact get_erase
  · exact get_insert

@[simp] theorem get_set_self : get d k (set d k v m) = v := by simp [get_set]

theorem get_set_ne (h : j ≠ k) : get d j (set d k v m) = get d j m := by simp [get_set, h]

theorem wfFrom_mono (h : wfFrom d lo m = true) (hl : j ≤ lo) : wfFrom d j m = true := by
  cases m with
  | nil => rfl
  | cons e l => obtain ⟨k', w⟩ := e; simp_all [wfFrom]; omega

theorem wfFrom_insert (hv : v ≠ d) (hk : lo ≤ k) (h : wfFrom d lo m = true) : wfFrom d lo (insert k v m) = true := by
  induction m generalizing lo with
  | nil => simp [insert, wfFrom, hk, hv]
  | cons e l ih =>
    obtain ⟨k', w⟩ := e
    simp only [wfFrom, Bool.and_eq_true, decide_eq_true_eq] at h
    unfold insert
    split
    · simp only [wfFrom, Bool.and_eq_true, decide_eq_true_eq]
      exact ⟨⟨hk, hv⟩, ⟨by omega, h.1.2⟩, h.2⟩
    · split
      · rename_i he; subst he
        simp only [wfFrom, Bool.and_eq_true, decide_eq_true_eq]
        exact ⟨⟨hk, hv⟩, h.2⟩
      · simp only [wfFrom, Bool.and_eq_true, decide_eq_true_eq]
        exact ⟨h.1, ih (by omega) h.2⟩

theorem wfFrom_erase (h : wfFrom d lo m = true) : wfFrom d lo (erase k m) = true := by
  induction m generalizing lo with
  | nil => rfl
  | cons e l ih =>
    obtain ⟨k', w⟩ := e
    simp only [wfFrom, Bool.and_eq_true, decide_eq_true_eq] at h
    unfold erase
    split
    · exact wfFrom_mono (ih h.2) (by omega)
    · simp only [wfFrom, Bool.and_eq_true, decide_eq_true_eq]
      exact ⟨h.1, ih h.2⟩

/-- A write keeps the canonical form. -/
theorem wf_set (h : wf d m = true) : wf d (set d k v m) = true := by
  unfold set
  split
  · exact wfFrom_erase h
  · rename_i hv; exact wfFrom_insert hv (Nat.zero_le _) h

theorem wf_modify {f : α → α} (h : wf d m = true) : wf d (modify d k f m) = true := wf_set h

end

end Sparse

end Sys2Proof
end

