-- ==== Sys2Proof/Laws/State.lean ====
section
/-! SUPPORT. One lemma per field and per accessor for every update of the state. -/

namespace Sys2Proof

namespace Machine

namespace State

/-! ### setFibre -/

section
variable (s : State) (f i : Nat) (x : Fibre)

@[simp] theorem setFibre_mem : (s.setFibre f x).mem = s.mem := rfl
@[simp] theorem setFibre_slots : (s.setFibre f x).slots = s.slots := rfl
@[simp] theorem setFibre_cores : (s.setFibre f x).cores = s.cores := rfl
@[simp] theorem setFibre_wgs : (s.setFibre f x).wgs = s.wgs := rfl
@[simp] theorem setFibre_launches : (s.setFibre f x).launches = s.launches := rfl
@[simp] theorem setFibre_ctxs : (s.setFibre f x).ctxs = s.ctxs := rfl
@[simp] theorem setFibre_dev : (s.setFibre f x).dev = s.dev := rfl
@[simp] theorem setFibre_agenda : (s.setFibre f x).agenda = s.agenda := rfl
@[simp] theorem setFibre_cur : (s.setFibre f x).cur = s.cur := rfl
@[simp] theorem setFibre_stalled : (s.setFibre f x).stalled = s.stalled := rfl
@[simp] theorem setFibre_clock : (s.setFibre f x).clock = s.clock := rfl
@[simp] theorem setFibre_turn : (s.setFibre f x).turn = s.turn := rfl
@[simp] theorem setFibre_tick : (s.setFibre f x).tick = s.tick := rfl
@[simp] theorem setFibre_slot : (s.setFibre f x).slot i = s.slot i := rfl
@[simp] theorem setFibre_core : (s.setFibre f x).core i = s.core i := rfl
@[simp] theorem setFibre_wg : (s.setFibre f x).wg i = s.wg i := rfl
@[simp] theorem setFibre_launch : (s.setFibre f x).launch i = s.launch i := rfl
@[simp] theorem setFibre_ctx : (s.setFibre f x).ctx i = s.ctx i := rfl
@[simp] theorem setFibre_fibre_self : (s.setFibre f x).fibre f = x := Sparse.get_set_self
theorem setFibre_fibre_ne (h : i ≠ f) : (s.setFibre f x).fibre i = s.fibre i := Sparse.get_set_ne h
theorem setFibre_fibre : (s.setFibre f x).fibre i = if i = f then x else s.fibre i := Sparse.get_set

end

/-! ### modFibre -/

section
variable (s : State) (f i : Nat) (g : Fibre → Fibre)

@[simp] theorem modFibre_mem : (s.modFibre f g).mem = s.mem := rfl
@[simp] theorem modFibre_slots : (s.modFibre f g).slots = s.slots := rfl
@[simp] theorem modFibre_cores : (s.modFibre f g).cores = s.cores := rfl
@[simp] theorem modFibre_wgs : (s.modFibre f g).wgs = s.wgs := rfl
@[simp] theorem modFibre_launches : (s.modFibre f g).launches = s.launches := rfl
@[simp] theorem modFibre_ctxs : (s.modFibre f g).ctxs = s.ctxs := rfl
@[simp] theorem modFibre_dev : (s.modFibre f g).dev = s.dev := rfl
@[simp] theorem modFibre_agenda : (s.modFibre f g).agenda = s.agenda := rfl
@[simp] theorem modFibre_cur : (s.modFibre f g).cur = s.cur := rfl
@[simp] theorem modFibre_stalled : (s.modFibre f g).stalled = s.stalled := rfl
@[simp] theorem modFibre_clock : (s.modFibre f g).clock = s.clock := rfl
@[simp] theorem modFibre_turn : (s.modFibre f g).turn = s.turn := rfl
@[simp] theorem modFibre_tick : (s.modFibre f g).tick = s.tick := rfl
@[simp] theorem modFibre_slot : (s.modFibre f g).slot i = s.slot i := rfl
@[simp] theorem modFibre_core : (s.modFibre f g).core i = s.core i := rfl
@[simp] theorem modFibre_wg : (s.modFibre f g).wg i = s.wg i := rfl
@[simp] theorem modFibre_launch : (s.modFibre f g).launch i = s.launch i := rfl
@[simp] theorem modFibre_ctx : (s.modFibre f g).ctx i = s.ctx i := rfl
@[simp] theorem modFibre_fibre_self : (s.modFibre f g).fibre f = g (s.fibre f) := Sparse.get_set_self
theorem modFibre_fibre_ne (h : i ≠ f) : (s.modFibre f g).fibre i = s.fibre i := Sparse.get_set_ne h
theorem modFibre_fibre : (s.modFibre f g).fibre i = if i = f then g (s.fibre f) else s.fibre i := Sparse.get_set

end

/-! ### setSlot -/

section
variable (s : State) (k i : Nat) (x : Slot)

@[simp] theorem setSlot_mem : (s.setSlot k x).mem = s.mem := rfl
@[simp] theorem setSlot_fibres : (s.setSlot k x).fibres = s.fibres := rfl
@[simp] theorem setSlot_cores : (s.setSlot k x).cores = s.cores := rfl
@[simp] theorem setSlot_wgs : (s.setSlot k x).wgs = s.wgs := rfl
@[simp] theorem setSlot_launches : (s.setSlot k x).launches = s.launches := rfl
@[simp] theorem setSlot_ctxs : (s.setSlot k x).ctxs = s.ctxs := rfl
@[simp] theorem setSlot_dev : (s.setSlot k x).dev = s.dev := rfl
@[simp] theorem setSlot_agenda : (s.setSlot k x).agenda = s.agenda := rfl
@[simp] theorem setSlot_cur : (s.setSlot k x).cur = s.cur := rfl
@[simp] theorem setSlot_stalled : (s.setSlot k x).stalled = s.stalled := rfl
@[simp] theorem setSlot_clock : (s.setSlot k x).clock = s.clock := rfl
@[simp] theorem setSlot_turn : (s.setSlot k x).turn = s.turn := rfl
@[simp] theorem setSlot_tick : (s.setSlot k x).tick = s.tick := rfl
@[simp] theorem setSlot_fibre : (s.setSlot k x).fibre i = s.fibre i := rfl
@[simp] theorem setSlot_core : (s.setSlot k x).core i = s.core i := rfl
@[simp] theorem setSlot_wg : (s.setSlot k x).wg i = s.wg i := rfl
@[simp] theorem setSlot_launch : (s.setSlot k x).launch i = s.launch i := rfl
@[simp] theorem setSlot_ctx : (s.setSlot k x).ctx i = s.ctx i := rfl
@[simp] theorem setSlot_slot_self : (s.setSlot k x).slot k = x := Sparse.get_set_self
theorem setSlot_slot_ne (h : i ≠ k) : (s.setSlot k x).slot i = s.slot i := Sparse.get_set_ne h
theorem setSlot_slot : (s.setSlot k x).slot i = if i = k then x else s.slot i := Sparse.get_set

end

/-! ### modSlot -/

section
variable (s : State) (k i : Nat) (g : Slot → Slot)

@[simp] theorem modSlot_mem : (s.modSlot k g).mem = s.mem := rfl
@[simp] theorem modSlot_fibres : (s.modSlot k g).fibres = s.fibres := rfl
@[simp] theorem modSlot_cores : (s.modSlot k g).cores = s.cores := rfl
@[simp] theorem modSlot_wgs : (s.modSlot k g).wgs = s.wgs := rfl
@[simp] theorem modSlot_launches : (s.modSlot k g).launches = s.launches := rfl
@[simp] theorem modSlot_ctxs : (s.modSlot k g).ctxs = s.ctxs := rfl
@[simp] theorem modSlot_dev : (s.modSlot k g).dev = s.dev := rfl
@[simp] theorem modSlot_agenda : (s.modSlot k g).agenda = s.agenda := rfl
@[simp] theorem modSlot_cur : (s.modSlot k g).cur = s.cur := rfl
@[simp] theorem modSlot_stalled : (s.modSlot k g).stalled = s.stalled := rfl
@[simp] theorem modSlot_clock : (s.modSlot k g).clock = s.clock := rfl
@[simp] theorem modSlot_turn : (s.modSlot k g).turn = s.turn := rfl
@[simp] theorem modSlot_tick : (s.modSlot k g).tick = s.tick := rfl
@[simp] theorem modSlot_fibre : (s.modSlot k g).fibre i = s.fibre i := rfl
@[simp] theorem modSlot_core : (s.modSlot k g).core i = s.core i := rfl
@[simp] theorem modSlot_wg : (s.modSlot k g).wg i = s.wg i := rfl
@[simp] theorem modSlot_launch : (s.modSlot k g).launch i = s.launch i := rfl
@[simp] theorem modSlot_ctx : (s.modSlot k g).ctx i = s.ctx i := rfl
@[simp] theorem modSlot_slot_self : (s.modSlot k g).slot k = g (s.slot k) := Sparse.get_set_self
theorem modSlot_slot_ne (h : i ≠ k) : (s.modSlot k g).slot i = s.slot i := Sparse.get_set_ne h
theorem modSlot_slot : (s.modSlot k g).slot i = if i = k then g (s.slot k) else s.slot i := Sparse.get_set

end

/-! ### setCore -/

section
variable (s : State) (c i : Nat) (x : Core)

@[simp] theorem setCore_mem : (s.setCore c x).mem = s.mem := rfl
@[simp] theorem setCore_fibres : (s.setCore c x).fibres = s.fibres := rfl
@[simp] theorem setCore_slots : (s.setCore c x).slots = s.slots := rfl
@[simp] theorem setCore_wgs : (s.setCore c x).wgs = s.wgs := rfl
@[simp] theorem setCore_launches : (s.setCore c x).launches = s.launches := rfl
@[simp] theorem setCore_ctxs : (s.setCore c x).ctxs = s.ctxs := rfl
@[simp] theorem setCore_dev : (s.setCore c x).dev = s.dev := rfl
@[simp] theorem setCore_agenda : (s.setCore c x).agenda = s.agenda := rfl
@[simp] theorem setCore_cur : (s.setCore c x).cur = s.cur := rfl
@[simp] theorem setCore_stalled : (s.setCore c x).stalled = s.stalled := rfl
@[simp] theorem setCore_clock : (s.setCore c x).clock = s.clock := rfl
@[simp] theorem setCore_turn : (s.setCore c x).turn = s.turn := rfl
@[simp] theorem setCore_tick : (s.setCore c x).tick = s.tick := rfl
@[simp] theorem setCore_fibre : (s.setCore c x).fibre i = s.fibre i := rfl
@[simp] theorem setCore_slot : (s.setCore c x).slot i = s.slot i := rfl
@[simp] theorem setCore_wg : (s.setCore c x).wg i = s.wg i := rfl
@[simp] theorem setCore_launch : (s.setCore c x).launch i = s.launch i := rfl
@[simp] theorem setCore_ctx : (s.setCore c x).ctx i = s.ctx i := rfl
@[simp] theorem setCore_core_self : (s.setCore c x).core c = x := Sparse.get_set_self
theorem setCore_core_ne (h : i ≠ c) : (s.setCore c x).core i = s.core i := Sparse.get_set_ne h
theorem setCore_core : (s.setCore c x).core i = if i = c then x else s.core i := Sparse.get_set

end

/-! ### modCore -/

section
variable (s : State) (c i : Nat) (g : Core → Core)

@[simp] theorem modCore_mem : (s.modCore c g).mem = s.mem := rfl
@[simp] theorem modCore_fibres : (s.modCore c g).fibres = s.fibres := rfl
@[simp] theorem modCore_slots : (s.modCore c g).slots = s.slots := rfl
@[simp] theorem modCore_wgs : (s.modCore c g).wgs = s.wgs := rfl
@[simp] theorem modCore_launches : (s.modCore c g).launches = s.launches := rfl
@[simp] theorem modCore_ctxs : (s.modCore c g).ctxs = s.ctxs := rfl
@[simp] theorem modCore_dev : (s.modCore c g).dev = s.dev := rfl
@[simp] theorem modCore_agenda : (s.modCore c g).agenda = s.agenda := rfl
@[simp] theorem modCore_cur : (s.modCore c g).cur = s.cur := rfl
@[simp] theorem modCore_stalled : (s.modCore c g).stalled = s.stalled := rfl
@[simp] theorem modCore_clock : (s.modCore c g).clock = s.clock := rfl
@[simp] theorem modCore_turn : (s.modCore c g).turn = s.turn := rfl
@[simp] theorem modCore_tick : (s.modCore c g).tick = s.tick := rfl
@[simp] theorem modCore_fibre : (s.modCore c g).fibre i = s.fibre i := rfl
@[simp] theorem modCore_slot : (s.modCore c g).slot i = s.slot i := rfl
@[simp] theorem modCore_wg : (s.modCore c g).wg i = s.wg i := rfl
@[simp] theorem modCore_launch : (s.modCore c g).launch i = s.launch i := rfl
@[simp] theorem modCore_ctx : (s.modCore c g).ctx i = s.ctx i := rfl
@[simp] theorem modCore_core_self : (s.modCore c g).core c = g (s.core c) := Sparse.get_set_self
theorem modCore_core_ne (h : i ≠ c) : (s.modCore c g).core i = s.core i := Sparse.get_set_ne h
theorem modCore_core : (s.modCore c g).core i = if i = c then g (s.core c) else s.core i := Sparse.get_set

end

/-! ### setWg -/

section
variable (s : State) (w i : Nat) (x : Workgroup)

@[simp] theorem setWg_mem : (s.setWg w x).mem = s.mem := rfl
@[simp] theorem setWg_fibres : (s.setWg w x).fibres = s.fibres := rfl
@[simp] theorem setWg_slots : (s.setWg w x).slots = s.slots := rfl
@[simp] theorem setWg_cores : (s.setWg w x).cores = s.cores := rfl
@[simp] theorem setWg_launches : (s.setWg w x).launches = s.launches := rfl
@[simp] theorem setWg_ctxs : (s.setWg w x).ctxs = s.ctxs := rfl
@[simp] theorem setWg_dev : (s.setWg w x).dev = s.dev := rfl
@[simp] theorem setWg_agenda : (s.setWg w x).agenda = s.agenda := rfl
@[simp] theorem setWg_cur : (s.setWg w x).cur = s.cur := rfl
@[simp] theorem setWg_stalled : (s.setWg w x).stalled = s.stalled := rfl
@[simp] theorem setWg_clock : (s.setWg w x).clock = s.clock := rfl
@[simp] theorem setWg_turn : (s.setWg w x).turn = s.turn := rfl
@[simp] theorem setWg_tick : (s.setWg w x).tick = s.tick := rfl
@[simp] theorem setWg_fibre : (s.setWg w x).fibre i = s.fibre i := rfl
@[simp] theorem setWg_slot : (s.setWg w x).slot i = s.slot i := rfl
@[simp] theorem setWg_core : (s.setWg w x).core i = s.core i := rfl
@[simp] theorem setWg_launch : (s.setWg w x).launch i = s.launch i := rfl
@[simp] theorem setWg_ctx : (s.setWg w x).ctx i = s.ctx i := rfl
@[simp] theorem setWg_wg_self : (s.setWg w x).wg w = x := Sparse.get_set_self
theorem setWg_wg_ne (h : i ≠ w) : (s.setWg w x).wg i = s.wg i := Sparse.get_set_ne h
theorem setWg_wg : (s.setWg w x).wg i = if i = w then x else s.wg i := Sparse.get_set

end

/-! ### modWg -/

section
variable (s : State) (w i : Nat) (g : Workgroup → Workgroup)

@[simp] theorem modWg_mem : (s.modWg w g).mem = s.mem := rfl
@[simp] theorem modWg_fibres : (s.modWg w g).fibres = s.fibres := rfl
@[simp] theorem modWg_slots : (s.modWg w g).slots = s.slots := rfl
@[simp] theorem modWg_cores : (s.modWg w g).cores = s.cores := rfl
@[simp] theorem modWg_launches : (s.modWg w g).launches = s.launches := rfl
@[simp] theorem modWg_ctxs : (s.modWg w g).ctxs = s.ctxs := rfl
@[simp] theorem modWg_dev : (s.modWg w g).dev = s.dev := rfl
@[simp] theorem modWg_agenda : (s.modWg w g).agenda = s.agenda := rfl
@[simp] theorem modWg_cur : (s.modWg w g).cur = s.cur := rfl
@[simp] theorem modWg_stalled : (s.modWg w g).stalled = s.stalled := rfl
@[simp] theorem modWg_clock : (s.modWg w g).clock = s.clock := rfl
@[simp] theorem modWg_turn : (s.modWg w g).turn = s.turn := rfl
@[simp] theorem modWg_tick : (s.modWg w g).tick = s.tick := rfl
@[simp] theorem modWg_fibre : (s.modWg w g).fibre i = s.fibre i := rfl
@[simp] theorem modWg_slot : (s.modWg w g).slot i = s.slot i := rfl
@[simp] theorem modWg_core : (s.modWg w g).core i = s.core i := rfl
@[simp] theorem modWg_launch : (s.modWg w g).launch i = s.launch i := rfl
@[simp] theorem modWg_ctx : (s.modWg w g).ctx i = s.ctx i := rfl
@[simp] theorem modWg_wg_self : (s.modWg w g).wg w = g (s.wg w) := Sparse.get_set_self
theorem modWg_wg_ne (h : i ≠ w) : (s.modWg w g).wg i = s.wg i := Sparse.get_set_ne h
theorem modWg_wg : (s.modWg w g).wg i = if i = w then g (s.wg w) else s.wg i := Sparse.get_set

end

/-! ### setLaunch -/

section
variable (s : State) (l i : Nat) (x : Launch)

@[simp] theorem setLaunch_mem : (s.setLaunch l x).mem = s.mem := rfl
@[simp] theorem setLaunch_fibres : (s.setLaunch l x).fibres = s.fibres := rfl
@[simp] theorem setLaunch_slots : (s.setLaunch l x).slots = s.slots := rfl
@[simp] theorem setLaunch_cores : (s.setLaunch l x).cores = s.cores := rfl
@[simp] theorem setLaunch_wgs : (s.setLaunch l x).wgs = s.wgs := rfl
@[simp] theorem setLaunch_ctxs : (s.setLaunch l x).ctxs = s.ctxs := rfl
@[simp] theorem setLaunch_dev : (s.setLaunch l x).dev = s.dev := rfl
@[simp] theorem setLaunch_agenda : (s.setLaunch l x).agenda = s.agenda := rfl
@[simp] theorem setLaunch_cur : (s.setLaunch l x).cur = s.cur := rfl
@[simp] theorem setLaunch_stalled : (s.setLaunch l x).stalled = s.stalled := rfl
@[simp] theorem setLaunch_clock : (s.setLaunch l x).clock = s.clock := rfl
@[simp] theorem setLaunch_turn : (s.setLaunch l x).turn = s.turn := rfl
@[simp] theorem setLaunch_tick : (s.setLaunch l x).tick = s.tick := rfl
@[simp] theorem setLaunch_fibre : (s.setLaunch l x).fibre i = s.fibre i := rfl
@[simp] theorem setLaunch_slot : (s.setLaunch l x).slot i = s.slot i := rfl
@[simp] theorem setLaunch_core : (s.setLaunch l x).core i = s.core i := rfl
@[simp] theorem setLaunch_wg : (s.setLaunch l x).wg i = s.wg i := rfl
@[simp] theorem setLaunch_ctx : (s.setLaunch l x).ctx i = s.ctx i := rfl
@[simp] theorem setLaunch_launch_self : (s.setLaunch l x).launch l = x := Sparse.get_set_self
theorem setLaunch_launch_ne (h : i ≠ l) : (s.setLaunch l x).launch i = s.launch i := Sparse.get_set_ne h
theorem setLaunch_launch : (s.setLaunch l x).launch i = if i = l then x else s.launch i := Sparse.get_set

end

/-! ### modLaunch -/

section
variable (s : State) (l i : Nat) (g : Launch → Launch)

@[simp] theorem modLaunch_mem : (s.modLaunch l g).mem = s.mem := rfl
@[simp] theorem modLaunch_fibres : (s.modLaunch l g).fibres = s.fibres := rfl
@[simp] theorem modLaunch_slots : (s.modLaunch l g).slots = s.slots := rfl
@[simp] theorem modLaunch_cores : (s.modLaunch l g).cores = s.cores := rfl
@[simp] theorem modLaunch_wgs : (s.modLaunch l g).wgs = s.wgs := rfl
@[simp] theorem modLaunch_ctxs : (s.modLaunch l g).ctxs = s.ctxs := rfl
@[simp] theorem modLaunch_dev : (s.modLaunch l g).dev = s.dev := rfl
@[simp] theorem modLaunch_agenda : (s.modLaunch l g).agenda = s.agenda := rfl
@[simp] theorem modLaunch_cur : (s.modLaunch l g).cur = s.cur := rfl
@[simp] theorem modLaunch_stalled : (s.modLaunch l g).stalled = s.stalled := rfl
@[simp] theorem modLaunch_clock : (s.modLaunch l g).clock = s.clock := rfl
@[simp] theorem modLaunch_turn : (s.modLaunch l g).turn = s.turn := rfl
@[simp] theorem modLaunch_tick : (s.modLaunch l g).tick = s.tick := rfl
@[simp] theorem modLaunch_fibre : (s.modLaunch l g).fibre i = s.fibre i := rfl
@[simp] theorem modLaunch_slot : (s.modLaunch l g).slot i = s.slot i := rfl
@[simp] theorem modLaunch_core : (s.modLaunch l g).core i = s.core i := rfl
@[simp] theorem modLaunch_wg : (s.modLaunch l g).wg i = s.wg i := rfl
@[simp] theorem modLaunch_ctx : (s.modLaunch l g).ctx i = s.ctx i := rfl
@[simp] theorem modLaunch_launch_self : (s.modLaunch l g).launch l = g (s.launch l) := Sparse.get_set_self
theorem modLaunch_launch_ne (h : i ≠ l) : (s.modLaunch l g).launch i = s.launch i := Sparse.get_set_ne h
theorem modLaunch_launch : (s.modLaunch l g).launch i = if i = l then g (s.launch l) else s.launch i := Sparse.get_set

end

/-! ### setCtx -/

section
variable (s : State) (p i : Nat) (x : Ctx)

@[simp] theorem setCtx_mem : (s.setCtx p x).mem = s.mem := rfl
@[simp] theorem setCtx_fibres : (s.setCtx p x).fibres = s.fibres := rfl
@[simp] theorem setCtx_slots : (s.setCtx p x).slots = s.slots := rfl
@[simp] theorem setCtx_cores : (s.setCtx p x).cores = s.cores := rfl
@[simp] theorem setCtx_wgs : (s.setCtx p x).wgs = s.wgs := rfl
@[simp] theorem setCtx_launches : (s.setCtx p x).launches = s.launches := rfl
@[simp] theorem setCtx_dev : (s.setCtx p x).dev = s.dev := rfl
@[simp] theorem setCtx_agenda : (s.setCtx p x).agenda = s.agenda := rfl
@[simp] theorem setCtx_cur : (s.setCtx p x).cur = s.cur := rfl
@[simp] theorem setCtx_stalled : (s.setCtx p x).stalled = s.stalled := rfl
@[simp] theorem setCtx_clock : (s.setCtx p x).clock = s.clock := rfl
@[simp] theorem setCtx_turn : (s.setCtx p x).turn = s.turn := rfl
@[simp] theorem setCtx_tick : (s.setCtx p x).tick = s.tick := rfl
@[simp] theorem setCtx_fibre : (s.setCtx p x).fibre i = s.fibre i := rfl
@[simp] theorem setCtx_slot : (s.setCtx p x).slot i = s.slot i := rfl
@[simp] theorem setCtx_core : (s.setCtx p x).core i = s.core i := rfl
@[simp] theorem setCtx_wg : (s.setCtx p x).wg i = s.wg i := rfl
@[simp] theorem setCtx_launch : (s.setCtx p x).launch i = s.launch i := rfl
@[simp] theorem setCtx_ctx_self : (s.setCtx p x).ctx p = x := Sparse.get_set_self
theorem setCtx_ctx_ne (h : i ≠ p) : (s.setCtx p x).ctx i = s.ctx i := Sparse.get_set_ne h
theorem setCtx_ctx : (s.setCtx p x).ctx i = if i = p then x else s.ctx i := Sparse.get_set

end

/-! ### modCtx -/

section
variable (s : State) (p i : Nat) (g : Ctx → Ctx)

@[simp] theorem modCtx_mem : (s.modCtx p g).mem = s.mem := rfl
@[simp] theorem modCtx_fibres : (s.modCtx p g).fibres = s.fibres := rfl
@[simp] theorem modCtx_slots : (s.modCtx p g).slots = s.slots := rfl
@[simp] theorem modCtx_cores : (s.modCtx p g).cores = s.cores := rfl
@[simp] theorem modCtx_wgs : (s.modCtx p g).wgs = s.wgs := rfl
@[simp] theorem modCtx_launches : (s.modCtx p g).launches = s.launches := rfl
@[simp] theorem modCtx_dev : (s.modCtx p g).dev = s.dev := rfl
@[simp] theorem modCtx_agenda : (s.modCtx p g).agenda = s.agenda := rfl
@[simp] theorem modCtx_cur : (s.modCtx p g).cur = s.cur := rfl
@[simp] theorem modCtx_stalled : (s.modCtx p g).stalled = s.stalled := rfl
@[simp] theorem modCtx_clock : (s.modCtx p g).clock = s.clock := rfl
@[simp] theorem modCtx_turn : (s.modCtx p g).turn = s.turn := rfl
@[simp] theorem modCtx_tick : (s.modCtx p g).tick = s.tick := rfl
@[simp] theorem modCtx_fibre : (s.modCtx p g).fibre i = s.fibre i := rfl
@[simp] theorem modCtx_slot : (s.modCtx p g).slot i = s.slot i := rfl
@[simp] theorem modCtx_core : (s.modCtx p g).core i = s.core i := rfl
@[simp] theorem modCtx_wg : (s.modCtx p g).wg i = s.wg i := rfl
@[simp] theorem modCtx_launch : (s.modCtx p g).launch i = s.launch i := rfl
@[simp] theorem modCtx_ctx_self : (s.modCtx p g).ctx p = g (s.ctx p) := Sparse.get_set_self
theorem modCtx_ctx_ne (h : i ≠ p) : (s.modCtx p g).ctx i = s.ctx i := Sparse.get_set_ne h
theorem modCtx_ctx : (s.modCtx p g).ctx i = if i = p then g (s.ctx p) else s.ctx i := Sparse.get_set

end

/-! ### The other updates -/

section
variable (s : State) (i : Nat) (g : Dev → Dev) (o : Out)

@[simp] theorem modDev_mem : (s.modDev g).mem = s.mem := rfl
@[simp] theorem modDev_fibres : (s.modDev g).fibres = s.fibres := rfl
@[simp] theorem modDev_slots : (s.modDev g).slots = s.slots := rfl
@[simp] theorem modDev_cores : (s.modDev g).cores = s.cores := rfl
@[simp] theorem modDev_wgs : (s.modDev g).wgs = s.wgs := rfl
@[simp] theorem modDev_launches : (s.modDev g).launches = s.launches := rfl
@[simp] theorem modDev_ctxs : (s.modDev g).ctxs = s.ctxs := rfl
@[simp] theorem modDev_agenda : (s.modDev g).agenda = s.agenda := rfl
@[simp] theorem modDev_cur : (s.modDev g).cur = s.cur := rfl
@[simp] theorem modDev_stalled : (s.modDev g).stalled = s.stalled := rfl
@[simp] theorem modDev_clock : (s.modDev g).clock = s.clock := rfl
@[simp] theorem modDev_turn : (s.modDev g).turn = s.turn := rfl
@[simp] theorem modDev_tick : (s.modDev g).tick = s.tick := rfl
@[simp] theorem modDev_fibre : (s.modDev g).fibre i = s.fibre i := rfl
@[simp] theorem modDev_slot : (s.modDev g).slot i = s.slot i := rfl
@[simp] theorem modDev_core : (s.modDev g).core i = s.core i := rfl
@[simp] theorem modDev_wg : (s.modDev g).wg i = s.wg i := rfl
@[simp] theorem modDev_launch : (s.modDev g).launch i = s.launch i := rfl
@[simp] theorem modDev_ctx : (s.modDev g).ctx i = s.ctx i := rfl
@[simp] theorem emit_mem : (s.emit o).mem = s.mem := rfl
@[simp] theorem emit_fibres : (s.emit o).fibres = s.fibres := rfl
@[simp] theorem emit_slots : (s.emit o).slots = s.slots := rfl
@[simp] theorem emit_cores : (s.emit o).cores = s.cores := rfl
@[simp] theorem emit_wgs : (s.emit o).wgs = s.wgs := rfl
@[simp] theorem emit_launches : (s.emit o).launches = s.launches := rfl
@[simp] theorem emit_ctxs : (s.emit o).ctxs = s.ctxs := rfl
@[simp] theorem emit_agenda : (s.emit o).agenda = s.agenda := rfl
@[simp] theorem emit_cur : (s.emit o).cur = s.cur := rfl
@[simp] theorem emit_stalled : (s.emit o).stalled = s.stalled := rfl
@[simp] theorem emit_clock : (s.emit o).clock = s.clock := rfl
@[simp] theorem emit_turn : (s.emit o).turn = s.turn := rfl
@[simp] theorem emit_tick : (s.emit o).tick = s.tick := rfl
@[simp] theorem emit_fibre : (s.emit o).fibre i = s.fibre i := rfl
@[simp] theorem emit_slot : (s.emit o).slot i = s.slot i := rfl
@[simp] theorem emit_core : (s.emit o).core i = s.core i := rfl
@[simp] theorem emit_wg : (s.emit o).wg i = s.wg i := rfl
@[simp] theorem emit_launch : (s.emit o).launch i = s.launch i := rfl
@[simp] theorem emit_ctx : (s.emit o).ctx i = s.ctx i := rfl
@[simp] theorem wake_mem : (s.wake).mem = s.mem := rfl
@[simp] theorem wake_fibres : (s.wake).fibres = s.fibres := rfl
@[simp] theorem wake_slots : (s.wake).slots = s.slots := rfl
@[simp] theorem wake_cores : (s.wake).cores = s.cores := rfl
@[simp] theorem wake_wgs : (s.wake).wgs = s.wgs := rfl
@[simp] theorem wake_launches : (s.wake).launches = s.launches := rfl
@[simp] theorem wake_ctxs : (s.wake).ctxs = s.ctxs := rfl
@[simp] theorem wake_dev : (s.wake).dev = s.dev := rfl
@[simp] theorem wake_agenda : (s.wake).agenda = s.agenda := rfl
@[simp] theorem wake_cur : (s.wake).cur = s.cur := rfl
@[simp] theorem wake_clock : (s.wake).clock = s.clock := rfl
@[simp] theorem wake_turn : (s.wake).turn = s.turn := rfl
@[simp] theorem wake_tick : (s.wake).tick = s.tick := rfl
@[simp] theorem wake_fibre : (s.wake).fibre i = s.fibre i := rfl
@[simp] theorem wake_slot : (s.wake).slot i = s.slot i := rfl
@[simp] theorem wake_core : (s.wake).core i = s.core i := rfl
@[simp] theorem wake_wg : (s.wake).wg i = s.wg i := rfl
@[simp] theorem wake_launch : (s.wake).launch i = s.launch i := rfl
@[simp] theorem wake_ctx : (s.wake).ctx i = s.ctx i := rfl
@[simp] theorem modDev_dev : (s.modDev g).dev = g s.dev := rfl
@[simp] theorem wake_stalled : s.wake.stalled = [] := rfl

end

section
variable (s : State) (g : Fibre → Fibre)

@[simp] theorem modMe_me : (s.modMe g).me = g s.me := modFibre_fibre_self s s.cur.fib g
@[simp] theorem modMe_mem : (s.modMe g).mem = s.mem := rfl
@[simp] theorem modMe_slots : (s.modMe g).slots = s.slots := rfl
@[simp] theorem modMe_cores : (s.modMe g).cores = s.cores := rfl
@[simp] theorem modMe_wgs : (s.modMe g).wgs = s.wgs := rfl
@[simp] theorem modMe_launches : (s.modMe g).launches = s.launches := rfl
@[simp] theorem modMe_ctxs : (s.modMe g).ctxs = s.ctxs := rfl
@[simp] theorem modMe_dev : (s.modMe g).dev = s.dev := rfl
@[simp] theorem modMe_agenda : (s.modMe g).agenda = s.agenda := rfl
@[simp] theorem modMe_cur : (s.modMe g).cur = s.cur := rfl
@[simp] theorem modMe_stalled : (s.modMe g).stalled = s.stalled := rfl
@[simp] theorem modMe_clock : (s.modMe g).clock = s.clock := rfl
@[simp] theorem modMe_turn : (s.modMe g).turn = s.turn := rfl
@[simp] theorem modMe_tick : (s.modMe g).tick = s.tick := rfl
@[simp] theorem modMe_slot (k : Nat) : (s.modMe g).slot k = s.slot k := rfl
@[simp] theorem modMe_core (k : Nat) : (s.modMe g).core k = s.core k := rfl
theorem modMe_fibre_ne (f : Nat) (h : f ≠ s.cur.fib) : (s.modMe g).fibre f = s.fibre f := modFibre_fibre_ne s s.cur.fib f g h

end

end State

end Machine

end Sys2Proof
end

