-- ==== Sys2Proof/Laws/Issue.lean ====
section
/-! SUPPORT. What issuing and finishing an instruction do, once: the checks that pass, the entry's move, and what a quiet finish leaves alone. -/

namespace Sys2Proof

namespace Machine

variable {s t : State} {u : Uses} {x : Fibre} {c : Cur}

/-! ### Issue -/

theorem issue_ready {body : State → State} (h : s.Ready u) : s.issue u body = body s := by
  obtain ⟨h1, h2, h3, h4, h5⟩ := h
  unfold State.issue; rw [if_neg (by simp [h1]), if_neg (by simp [h5]), if_neg h2, h3]; simp [h4]

theorem plain_ready {eff : State → State} (h : s.Ready u) : s.plain u eff = (eff s).finish := issue_ready h

theorem issueIf_none {body : State → State} : s.issueIf none u body = s.issue u body := rfl

/-! ### The frontier -/

@[simp] theorem dropRun_spilled (a : Word) : (x.dropRun a).spilled = x.spilled := rfl

@[simp] theorem putEntry_spilled (e : Entry) : (x.putEntry e).spilled = x.spilled := rfl

theorem runEntry_mem {a : Word} {e : Entry} (h : x.runEntry a = some e) : e ∈ x.frontier ∧ e.kind = .run ∧ e.age = a := by
  have h1 := List.mem_of_find?_eq_some h
  have h2 := List.find?_some h
  simp at h2
  exact ⟨h1, h2.1, h2.2⟩

theorem dropRun_length {a : Word} {e : Entry} (h : x.runEntry a = some e) : (x.dropRun a).frontier.length < x.frontier.length := by
  obtain ⟨h1, h2, h3⟩ := runEntry_mem h
  refine Nat.lt_of_le_of_ne (List.length_filter_le _ _) (fun he => ?_)
  have := List.length_filter_eq_length_iff.mp he e h1
  simp [h2, h3] at this

/-- Adding lanes leaves a run entry. -/
theorem addRun_hasRun (pc : Word64) (p : BitVec 4) {m : Mask} (a : Word) (h : m ≠ 0) : (x.addRun pc p m a).hasRun = true := by
  unfold Fibre.addRun
  rw [if_neg h]
  split
  · rename_i e he
    have := List.find?_some (l := x.frontier) he
    simp only [Bool.and_eq_true] at this
    simp [Fibre.hasRun, this.1.1]
  · simp [Fibre.hasRun]

/-- An issuing entry that moves on is still there. -/
theorem advance_hasRun {e : Entry} (h : x.runEntry c.age = some e) (hm : e.mask ≠ 0) : (x.advance c 0).hasRun = true := by
  unfold Fibre.advance
  rw [h]
  simp only
  rw [if_pos (by show (0 : Mask) &&& e.mask = 0; simp)]
  exact addRun_hasRun _ _ _ (by rw [show ~~~(0 : Mask) = BitVec.allOnes 32 from rfl, BitVec.and_allOnes]; exact hm)

theorem makeRoom_of_lt (h : x.frontier.length < 8) : x.makeRoom = x := by simp [Fibre.makeRoom, h]

/-- Adding lanes while a place is free touches the on-chip frontier only. -/
theorem addRun_kept (pc : Word64) (p : BitVec 4) (m : Mask) (a : Word) (h : x.frontier.length < 8) :
    ∃ l, x.addRun pc p m a = { x with frontier := l } := by
  unfold Fibre.addRun
  split
  · exact ⟨x.frontier, rfl⟩
  · split
    · exact ⟨_, rfl⟩
    · rw [makeRoom_of_lt h]; exact ⟨_, rfl⟩

/-- The issuing entry's move to its next address touches the on-chip frontier only. -/
theorem advance_kept (h : x.frontier.length ≤ 8) : ∃ l, x.advance c 0 = { x with frontier := l } := by
  unfold Fibre.advance
  split
  · exact ⟨x.frontier, rfl⟩
  · rename_i e he
    have hl := dropRun_length he
    rw [if_pos (by show (0 : Mask) &&& e.mask = 0; simp)]
    obtain ⟨l, hl⟩ := addRun_kept (x := x.dropRun c.age) c.npc e.prio (e.mask &&& ~~~0) c.age (by omega)
    exact ⟨l, by rw [hl]; rfl⟩

/-! ### Finish -/

/-- The issuing fibre after a quiet finish. -/
def Fibre.finished (x : Fibre) (c : Cur) : Fibre := { ((x.advance c 0).tickShadows).releaseHeld with status := .ready }

/-- The marks that an issue leaves in its slot. -/
def Slot.issued (s : State) (t : Slot) : Slot :=
  { t with lastIssue := s.clock + 1,
           gapUntil := if s.cur.attr.gap = 0 then t.gapUntil else s.clock + 1 + s.cur.attr.gap.toNat,
           yield := s.cur.attr.yield }

theorem releaseHeld_eq : ∃ l, x.releaseHeld = { x with held := l } := by
  unfold Fibre.releaseHeld; split
  · exact ⟨x.held, rfl⟩
  · exact ⟨_, rfl⟩

theorem finished_eq (h : x.frontier.length ≤ 8) : ∃ l, x.finished c =
    { x with frontier := (x.advance c 0).frontier, status := .ready, held := l, pend := x.pend.map (fun p => { p with shadow := p.shadow - 1 }) } := by
  obtain ⟨l, hl⟩ := advance_kept (c := c) h
  obtain ⟨k, hk⟩ := releaseHeld_eq (x := (x.advance c 0).tickShadows)
  refine ⟨k, ?_⟩
  unfold Fibre.finished
  rw [hk, hl]
  rfl

/-- The second half of a finish's effect on the fibre. -/
def Fibre.issuedOnce (x : Fibre) : Fibre := { (x.tickShadows).releaseHeld with status := .ready }

@[simp] theorem modMe_slotOf_of {g : Fibre → Fibre} (h1 : (g s.me).core = s.me.core) (h2 : (g s.me).slot = s.me.slot) :
    (s.modMe g).slotOf s.cur.fib = s.slotOf s.cur.fib := by
  have h : (s.modMe g).fibre s.cur.fib = g s.me := State.modMe_me s g
  unfold State.slotOf
  rw [h, h1, h2]
  rfl

/-- The state of a finish before the fibre rests. -/
def State.marked (s : State) : State :=
  (((s.modMe Fibre.issuedOnce).settleFrontier s.cur.fib).landDue s.cur.fib).modSlot
    ((((s.modMe Fibre.issuedOnce).settleFrontier s.cur.fib).landDue s.cur.fib).slotOf s.cur.fib)
    (Slot.issued (((s.modMe Fibre.issuedOnce).settleFrontier s.cur.fib).landDue s.cur.fib))

theorem done_eq : s.done = (s.marked.rest s.cur.fib).wake := rfl

theorem finish_eq_done : s.finish = (s.modMe (fun x => x.advance s.cur 0)).done := rfl

/-- A fibre with lanes to run does not rest. -/
theorem rest_hasRun {f : Nat} (h : (s.fibre f).hasRun = true) : s.rest f = s := by
  unfold State.rest
  simp [h]

/-- A quiet finish: the entry moves on and its slot is marked; nothing else changes. -/
theorem finish_quiet (h : s.Quiet) :
    s.finish = (((s.modMe (fun x => x.advance s.cur 0)).modMe Fibre.issuedOnce).modSlot (s.slotOf s.cur.fib) (Slot.issued s)).wake := by
  obtain ⟨⟨h1, h2, h3⟩, e0, he0, hm0⟩ := h
  obtain ⟨l, hf⟩ := finished_eq (c := s.cur) h2
  have e1 : ((s.modMe (fun x => x.advance s.cur 0)).modMe Fibre.issuedOnce).fibre s.cur.fib = s.me.finished s.cur := by
    have h := State.modMe_me (s.modMe (fun x => x.advance s.cur 0)) Fibre.issuedOnce
    rw [State.modMe_me s] at h
    exact h
  generalize hq : (s.modMe (fun x => x.advance s.cur 0)).modMe Fibre.issuedOnce = q at e1 ⊢
  have hc : q.cur = s.cur := by rw [← hq]; rfl
  have hk : q.clock = s.clock := by rw [← hq]; rfl
  have e2 : q.settleFrontier s.cur.fib = q := by
    unfold State.settleFrontier
    have : (q.fibre s.cur.fib).spilled = [] := by rw [e1, hf]; exact h1
    simp [this]
  have e3 : q.landDue s.cur.fib = q := by
    unfold State.landDue
    have : (q.fibre s.cur.fib).pend.any Pend.due = false := by
      rw [e1, hf]
      simp only [List.any_map, List.any_eq_false]
      intro p hp
      have := h3 p hp
      simp only [Function.comp, Pend.due, Bool.and_eq_true, beq_iff_eq, not_and]
      intro ha; have := this ha.1; omega
    simp [this]
  have e4 : q.slotOf s.cur.fib = s.slotOf s.cur.fib := by
    unfold State.slotOf
    rw [e1, hf]
    rfl
  have e5 : (q.modSlot (s.slotOf s.cur.fib) (Slot.issued q)).rest s.cur.fib = q.modSlot (s.slotOf s.cur.fib) (Slot.issued q) := by
    refine rest_hasRun ?_
    rw [State.modSlot_fibre, e1]
    have h := advance_hasRun he0 hm0
    obtain ⟨k, hk⟩ := releaseHeld_eq (x := (s.me.advance s.cur 0).tickShadows)
    unfold Fibre.finished
    rw [hk]
    exact h
  rw [finish_eq_done, done_eq, State.modMe_cur]
  unfold State.marked
  rw [State.modMe_cur, hq, e2, e3, e4, e5]
  unfold Slot.issued
  rw [hc, hk]

end Machine

end Sys2Proof
end

