-- ==== Sys2Proof/Laws/Effects.lean ====
section
/-! SUPPORT. What writing registers does, once, and how it composes with the finish of an instruction. -/

namespace Sys2Proof

namespace Machine

variable {s t e : State}

/-! ### Order of the frames -/

theorem Fibre.Kept.refl (x : Fibre) : x.Kept x := by constructor <;> rfl

theorem Fibre.Kept.trans {x y z : Fibre} (h : x.Kept y) (k : y.Kept z) : x.Kept z := by
  constructor
  all_goals first
    | exact k.wg.trans h.wg | exact k.fibid.trans h.fibid | exact k.core.trans h.core | exact k.slot.trans h.slot | exact k.pos.trans h.pos
    | exact k.resident.trans h.resident | exact k.extracted.trans h.extracted | exact k.spilled.trans h.spilled | exact k.masks.trans h.masks
    | exact k.base.trans h.base | exact k.size.trans h.size | exact k.granted.trans h.granted | exact k.role.trans h.role | exact k.rm.trans h.rm
    | exact k.outst.trans h.outst | exact k.waitPhase.trans h.waitPhase | exact k.present.trans h.present | exact k.helper.trans h.helper
    | exact k.sleep.trans h.sleep | exact k.acqs.trans h.acqs | exact k.wfail.trans h.wfail | exact k.noMove.trans h.noMove
    | exact k.home.trans h.home | exact k.imageAt.trans h.imageAt

theorem Slot.Kept.refl (x : Slot) : x.Kept x := by constructor <;> rfl

theorem Slot.Kept.trans {x y z : Slot} (h : x.Kept y) (k : y.Kept z) : x.Kept z := by
  constructor
  all_goals first
    | exact k.queues.trans h.queues | exact k.pushes.trans h.pushes | exact k.fbarIn.trans h.fbarIn | exact k.fbarGen.trans h.fbarGen
    | exact k.issuing.trans h.issuing | exact k.last.trans h.last | exact k.wg.trans h.wg | exact k.monStart.trans h.monStart
    | exact k.monLow.trans h.monLow | exact k.monHigh.trans h.monHigh

theorem Kept.slotOf (h : Kept s t) : t.slotOf t.cur.fib = s.slotOf s.cur.fib := by
  have h1 := h.fibre.core
  have h2 := h.fibre.slot
  unfold State.me at h1 h2
  unfold State.slotOf
  rw [h1, h2]

theorem Kept.base (h : Kept s t) : t.me.base = s.me.base := h.fibre.base

theorem Kept.cur (h : Kept s t) : t.cur = s.cur := h.around.cur

theorem Kept.trans (h : Kept s e) (k : Kept e t) : Kept s t where
  mem := k.mem.trans h.mem
  fibre := h.fibre.trans k.fibre
  slot := h.slot.trans k.slot
  around :=
    { fibres := fun f hf => (k.around.fibres f (by rw [h.cur]; exact hf)).trans (h.around.fibres f hf)
      slots := fun f hf => (k.around.slots f (by rw [h.slotOf]; exact hf)).trans (h.around.slots f hf)
      cores := k.around.cores.trans h.around.cores
      wgs := k.around.wgs.trans h.around.wgs
      launches := k.around.launches.trans h.around.launches
      ctxs := k.around.ctxs.trans h.around.ctxs
      dev := k.around.dev.trans h.around.dev
      agenda := k.around.agenda.trans h.around.agenda
      cur := k.around.cur.trans h.around.cur
      clock := k.around.clock.trans h.around.clock
      turn := k.around.turn.trans h.around.turn
      tick := k.around.tick.trans h.around.tick }

/-! ### An effect before the finish -/

/-- An effect that writes registers only, and leaves the frontier and the timing of pending writes as they are. -/
structure Eff (s e : State) : Prop where
  kept : Kept s e
  frontier : e.me.frontier = s.me.frontier
  quiet : s.Quiet → e.Quiet

theorem Eff.trans (h : Eff s e) (k : Eff e t) : Eff s t :=
  ⟨h.kept.trans k.kept, k.frontier.trans h.frontier, fun q => k.quiet (h.quiet q)⟩

theorem Eff.refl (s : State) : Eff s s :=
  ⟨⟨rfl, ⟨fun _ _ => rfl, fun _ _ => rfl, rfl, rfl, rfl, rfl, rfl, rfl, rfl, rfl, rfl, rfl⟩, .refl _, .refl _⟩, rfl, id⟩

/-- The frontier after the entry's move depends on the frontier alone. -/
theorem advance_frontier {x y : Fibre} {c : Cur} (h : x.frontier = y.frontier) (hl : x.frontier.length ≤ 8) :
    (x.advance c 0).frontier = (y.advance c 0).frontier := by
  have hr : y.runEntry c.age = x.runEntry c.age := by unfold Fibre.runEntry; rw [h]
  unfold Fibre.advance
  rw [hr]
  cases he : x.runEntry c.age with
  | none => exact h
  | some en =>
    have h0 : (0 : Mask) &&& en.mask = 0 := by simp
    have hx := dropRun_length he
    have hy : (y.dropRun c.age).frontier = (x.dropRun c.age).frontier := by unfold Fibre.dropRun; rw [h]
    simp only [h0, if_true]
    unfold Fibre.addRun
    split
    · exact hy.symm
    · have hz : (y.dropRun c.age).runAt c.npc = (x.dropRun c.age).runAt c.npc := by unfold Fibre.runAt; rw [hy]
      rw [hz]
      split
      · simp only [Fibre.dropRun] at hy ⊢; rw [h]
      · rw [makeRoom_of_lt (by omega), makeRoom_of_lt (by rw [hy]; omega)]
        simp only [hy]

/-- After a quiet finish of an effect: everything else is kept, the entry has advanced, and the registers are those of the effect. -/
structure Finished (s e t : State) : Prop where
  kept : Kept s t
  advanced : Advanced s t
  vec : VecKept e t
  uni : UniKept e t
  pred : PredKept e t
  status : StatusKept e t

theorem finish_frame (q : s.Quiet) : Finished s s s.finish := by
  obtain ⟨l, hl⟩ := finished_eq (c := s.cur) q.1.2.1
  have hfq := finish_quiet q
  have hme : (((s.modMe (fun x => x.advance s.cur 0)).modMe Fibre.issuedOnce).modSlot (s.slotOf s.cur.fib) (Slot.issued s)).me
      = s.me.finished s.cur := by
    have h := State.modMe_me (s.modMe (fun x => x.advance s.cur 0)) Fibre.issuedOnce
    rw [State.modMe_me s] at h
    exact h
  generalize hw : ((s.modMe (fun x => x.advance s.cur 0)).modMe Fibre.issuedOnce).modSlot (s.slotOf s.cur.fib) (Slot.issued s) = w at hme hfq
  have hsl : w.slot (s.slotOf s.cur.fib) = Slot.issued s (s.slot (s.slotOf s.cur.fib)) := by rw [← hw]; simp
  rw [hfq]
  have hcur : w.wake.cur = s.cur := by rw [← hw]; rfl
  have hme' : w.wake.me = s.me.finished s.cur := hme
  have hso : w.wake.slotOf w.wake.cur.fib = s.slotOf s.cur.fib := by
    unfold State.slotOf
    rw [show w.wake.fibre w.wake.cur.fib = s.me.finished s.cur from hme', hl]
    rfl
  have hms : w.wake.mySlot = Slot.issued s s.mySlot := by
    unfold State.mySlot; rw [hso]; exact hsl
  have hk : s.me.Kept (s.me.finished s.cur) := by rw [hl]; constructor <;> rfl
  refine ⟨⟨by rw [← hw]; simp, ⟨?_, ?_, ?_, ?_, ?_, ?_, ?_, ?_, hcur, ?_, ?_, ?_⟩, by rw [hme']; exact hk, by rw [hms]; constructor <;> rfl⟩, ?_, ?_, ?_, ?_, ?_⟩
  · intro f hf
    rw [← hw]
    exact (State.modMe_fibre_ne (s.modMe (fun x => x.advance s.cur 0)) Fibre.issuedOnce f hf).trans (State.modMe_fibre_ne s _ f hf)
  · intro k hk'
    rw [← hw, State.wake_slot, State.modSlot_slot_ne _ _ _ _ hk', State.modMe_slot, State.modMe_slot]
  iterate 9 (· rw [← hw]; simp)
  · unfold Advanced; rw [hme', hl]
  · intro ph l' _; rw [hms]; rfl
  · intro n; unfold State.ru; rw [hme', hl]
  · intro n l' _; unfold State.rp State.predMask; rw [hme', hl]
  · unfold StatusKept; rw [hme', hl]

theorem finish_of_eff (h : Eff s e) (q : s.Quiet) : Finished s e e.finish := by
  have f := finish_frame (h.quiet q)
  refine ⟨h.kept.trans f.kept, ?_, f.vec, f.uni, f.pred, f.status⟩
  have := f.advanced
  unfold Advanced at this ⊢
  rw [this, h.kept.cur]
  exact advance_frontier h.frontier (by rw [h.frontier]; exact q.1.2.1)

/-! ### Writing vector registers -/

theorem lane_index_inj {p p' l l' : Nat} (h : l < 32) (h' : l' < 32) (he : 32 * p + l = 32 * p' + l') : p = p' ∧ l = l' := by omega

/-- A register word of a slot after lanes of a register are written. -/
theorem getV_setV {x : Slot} {ph : Nat} {f : Nat → Word} {ls : List Nat} (hls : ∀ l ∈ ls, l < 32) (p l : Nat) (hl : l < 32) :
    (x.setV ph f ls).getV p l = if p = ph ∧ l ∈ ls then f l else x.getV p l := by
  induction ls generalizing x with
  | nil => simp [Slot.setV]
  | cons a as ih =>
    rw [Slot.setV, ih (fun l h => hls l (List.mem_cons_of_mem _ h))]
    have ha := hls a List.mem_cons_self
    simp only [List.mem_cons, Slot.getV, Sparse.get_set]
    by_cases h1 : p = ph ∧ l ∈ as
    · simp [h1]
    · rw [if_neg h1]
      by_cases h2 : 32 * p + l = 32 * ph + a
      · obtain ⟨rfl, rfl⟩ := lane_index_inj hl ha h2; simp
      · rw [if_neg h2]
        have : ¬(p = ph ∧ (l = a ∨ l ∈ as)) := by
          rintro ⟨rfl, rfl | h⟩
          · exact h2 rfl
          · exact h1 ⟨rfl, h⟩
        rw [if_neg this]

/-- Writing register words leaves the rest of the slot. -/
theorem setV_rest (x : Slot) (ph : Nat) (f : Nat → Word) (ls : List Nat) : ∃ v, x.setV ph f ls = { x with vreg := v } := by
  induction ls generalizing x with
  | nil => exact ⟨x.vreg, rfl⟩
  | cons a as ih => rw [Slot.setV]; obtain ⟨v, hv⟩ := ih { x with vreg := Sparse.set 0 (32 * ph + a) (f a) x.vreg }; exact ⟨v, hv⟩

theorem mem_lanesOf {m : Mask} {l : Nat} : l ∈ lanesOf m ↔ l < 32 ∧ m.getLsbD l = true := by simp [lanesOf]

/-- A pending write loses values, not its timing. -/
theorem cancel_quiet {x : Fibre} {r : Reg} {m : Mask} (h : x.Quiet) : ({ x with pend := x.pend.map (Pend.cancel r m) } : Fibre).Quiet := by
  refine ⟨h.1, h.2.1, ?_⟩
  intro p hp ha
  simp only [List.mem_map] at hp
  obtain ⟨p', hp', rfl⟩ := hp
  exact h.2.2 p' hp' ha

/-- A state whose issuing fibre has the same frontier is quiet too when the fibre is. -/
theorem quiet_of (hc : e.cur = s.cur) (hf : e.me.frontier = s.me.frontier) (hq : s.me.Quiet → e.me.Quiet) (q : s.Quiet) : e.Quiet := by
  refine ⟨hq q.1, ?_⟩
  unfold Fibre.runEntry
  rw [hf, hc]
  exact q.2

/-- A change of the issuing fibre and of its slot. -/
theorem eff_of {g : Fibre → Fibre} {k : Slot → Slot} (hk : s.me.Kept (g s.me)) (hf : (g s.me).frontier = s.me.frontier)
    (hq : s.me.Quiet → (g s.me).Quiet) (hs : s.mySlot.Kept (k s.mySlot)) :
    let e := (s.modSlot (s.slotOf s.cur.fib) k).modMe g
    Eff s e ∧ e.me = g s.me ∧ e.mySlot = k s.mySlot := by
  intro e
  have hme : e.me = g s.me := State.modMe_me (s.modSlot (s.slotOf s.cur.fib) k) g
  have hso : e.slotOf e.cur.fib = s.slotOf s.cur.fib := by
    unfold State.slotOf
    rw [show e.fibre e.cur.fib = g s.me from hme, hk.core, hk.slot]
    rfl
  have hms : e.mySlot = k s.mySlot := by
    unfold State.mySlot
    rw [hso]
    exact State.modSlot_slot_self s _ k
  refine ⟨⟨⟨rfl, ⟨?_, ?_, rfl, rfl, rfl, rfl, rfl, rfl, rfl, rfl, rfl, rfl⟩, by rw [hme]; exact hk, by rw [hms]; exact hs⟩, by rw [hme]; exact hf, ?_⟩, hme, hms⟩
  · intro f h; exact State.modMe_fibre_ne (s.modSlot (s.slotOf s.cur.fib) k) g f h
  · intro j h; exact State.modSlot_slot_ne s _ _ k h
  · exact quiet_of rfl (by rw [hme]; exact hf) (by rw [hme]; exact hq)

/-- A change of the issuing fibre. -/
theorem eff_me {g : Fibre → Fibre} (hk : s.me.Kept (g s.me)) (hf : (g s.me).frontier = s.me.frontier) (hq : s.me.Quiet → (g s.me).Quiet) :
    Eff s (s.modMe g) ∧ (s.modMe g).me = g s.me ∧ (s.modMe g).mySlot = s.mySlot := by
  have hme : (s.modMe g).me = g s.me := State.modMe_me s g
  have hso : (s.modMe g).slotOf (s.modMe g).cur.fib = s.slotOf s.cur.fib := by
    unfold State.slotOf
    rw [show (s.modMe g).fibre (s.modMe g).cur.fib = g s.me from hme, hk.core, hk.slot]
    rfl
  have hms : (s.modMe g).mySlot = s.mySlot := by unfold State.mySlot; rw [hso]; rfl
  refine ⟨⟨⟨rfl, ⟨?_, ?_, rfl, rfl, rfl, rfl, rfl, rfl, rfl, rfl, rfl, rfl⟩, by rw [hme]; exact hk, by rw [hms]; exact .refl _⟩, by rw [hme]; exact hf, ?_⟩, hme, hms⟩
  · intro f h; exact State.modMe_fibre_ne s g f h
  · intro j h; rfl
  · exact quiet_of rfl (by rw [hme]; exact hf) (by rw [hme]; exact hq)

/-- What a write of a vector register does. -/
theorem wv_spec (n : Nat) (m : Mask) (f : Nat → Word) :
    Eff s (s.wv n m f) ∧ VecSet s (s.wv n m f) n m f ∧ UniKept s (s.wv n m f) ∧ PredKept s (s.wv n m f) ∧ StatusKept s (s.wv n m f) := by
  obtain ⟨v, hv⟩ := setV_rest s.mySlot (8 * s.me.base + n) f (lanesOf m)
  obtain ⟨h1, h2, h3⟩ := eff_of (s := s) (g := fun x => { x with pend := x.pend.map (Pend.cancel (.v (8 * s.me.base + n)) m) })
    (k := fun x => x.setV (8 * s.me.base + n) f (lanesOf m)) (by constructor <;> rfl) rfl cancel_quiet (by rw [hv]; constructor <;> rfl)
  change Eff s (s.wv n m f) at h1
  change (s.wv n m f).me = _ at h2
  change (s.wv n m f).mySlot = _ at h3
  refine ⟨h1, ?_, ?_, ?_, ?_⟩
  · intro ph l hl
    rw [h3, getV_setV (fun l h => (mem_lanesOf.mp h).1) ph l hl]
    simp [mem_lanesOf, hl]
  · intro k; unfold State.ru; rw [h2]
  · intro k l _; unfold State.rp State.predMask; rw [h2]
  · unfold StatusKept; rw [h2]

/-- What a write of a pair does. -/
theorem wv2_spec (n : Nat) (m : Mask) (f : Nat → Word64) :
    Eff s (s.wv2 n m f) ∧ VecSet2 s (s.wv2 n m f) n m f ∧ UniKept s (s.wv2 n m f) ∧ PredKept s (s.wv2 n m f) ∧ StatusKept s (s.wv2 n m f) := by
  obtain ⟨a1, a2, a3, a4, a5⟩ := wv_spec (s := s) n m (fun l => (f l).extractLsb' 0 32)
  obtain ⟨b1, b2, b3, b4, b5⟩ := wv_spec (s := s.wv n m (fun l => (f l).extractLsb' 0 32)) (n + 1) m (fun l => (f l).extractLsb' 32 32)
  refine ⟨a1.trans b1, ?_, fun k => (b3 k).trans (a3 k), fun k l h => (b4 k l h).trans (a4 k l h), b5.trans a5⟩
  intro ph l hl
  unfold State.wv2
  rw [b2 ph l hl, a2 ph l hl, a1.kept.base]
  by_cases h1 : ph = 8 * s.me.base + n
  · have h2 : ph ≠ 8 * s.me.base + (n + 1) := by omega
    simp [h1]
  · simp [h1, ← Nat.add_assoc]

/-- What a write of a uniform register does. -/
theorem wu_spec (n : Nat) (v : Word64) :
    Eff s (s.wu n v) ∧ UniSet s (s.wu n v) n v ∧ VecKept s (s.wu n v) ∧ PredKept s (s.wu n v) ∧ StatusKept s (s.wu n v) := by
  obtain ⟨h1, h2, h3⟩ := eff_me (s := s) (g := fun x => { x with ureg := Sparse.set 0 n v x.ureg, pend := x.pend.map (Pend.cancel (.u n) allLanes) })
    (by constructor <;> rfl) rfl cancel_quiet
  change Eff s (s.wu n v) at h1
  change (s.wu n v).me = _ at h2
  change (s.wu n v).mySlot = _ at h3
  refine ⟨h1, ?_, ?_, ?_, ?_⟩
  · intro k; unfold State.ru; rw [h2]; exact Sparse.get_set
  · intro ph l _; rw [h3]
  · intro k l _; unfold State.rp State.predMask; rw [h2]
  · unfold StatusKept; rw [h2]

theorem getLsbD_foldl_or {ls : List Nat} (hls : ∀ l ∈ ls, l < 32) (m : Mask) (i : Nat) (hi : i < 32) :
    (ls.foldl (fun m i => m ||| BitVec.ofNat 32 (2 ^ i)) m).getLsbD i = (m.getLsbD i || decide (i ∈ ls)) := by
  induction ls generalizing m with
  | nil => simp
  | cons a as ih =>
    rw [List.foldl_cons, ih (fun l h => hls l (List.mem_cons_of_mem _ h))]
    have ha := hls a List.mem_cons_self
    have : (BitVec.ofNat 32 (2 ^ a)).getLsbD i = decide (i = a) := by
      rw [BitVec.getLsbD_ofNat, Nat.testBit_two_pow]
      simp [hi, eq_comm]
    simp only [BitVec.getLsbD_or, this, List.mem_cons, Bool.decide_or, Bool.or_assoc]

/-- The bits of the mask of a list of lanes. -/
theorem getLsbD_maskOf {ls : List Nat} (hls : ∀ l ∈ ls, l < 32) (i : Nat) (hi : i < 32) : (maskOf ls).getLsbD i = decide (i ∈ ls) := by
  unfold maskOf
  rw [getLsbD_foldl_or hls 0 i hi]
  simp

theorem getLsbD_blend (old m : Mask) (f : Nat → Bool) (l : Nat) (hl : l < 32) :
    (State.blend old m f).getLsbD l = if m.getLsbD l = true then f l else old.getLsbD l := by
  unfold State.blend
  rw [BitVec.getLsbD_or, getLsbD_maskOf (fun l h => (mem_lanesOf.mp (List.mem_filter.mp h).1).1) l hl]
  simp only [BitVec.getLsbD_and, BitVec.getLsbD_not, hl, List.mem_filter, mem_lanesOf, decide_true, Bool.true_and, true_and]
  cases hm : m.getLsbD l <;> simp

/-- What a write of a predicate does. -/
theorem wp_spec (n : Nat) (m : Mask) (f : Nat → Bool) :
    Eff s (s.wp n m f) ∧ PredSet s (s.wp n m f) n m f ∧ VecKept s (s.wp n m f) ∧ UniKept s (s.wp n m f) ∧ StatusKept s (s.wp n m f) := by
  by_cases hn : n = 15
  · have : s.wp n m f = s := by unfold State.wp; simp [hn]
    rw [this]
    exact ⟨.refl s, fun k l _ => by simp [hn], fun _ _ _ => rfl, fun _ => rfl, rfl⟩
  · have hw : s.wp n m f = s.modMe (fun x => { x with pred := Sparse.set 0 n (State.blend (State.predMask x n) m f) x.pred, pend := x.pend.map (Pend.cancel (.p n) m) }) := by unfold State.wp; simp [hn]
    obtain ⟨h1, h2, h3⟩ := eff_me (s := s) (g := fun x => { x with pred := Sparse.set 0 n (State.blend (State.predMask x n) m f) x.pred, pend := x.pend.map (Pend.cancel (.p n) m) }) (by constructor <;> rfl) rfl cancel_quiet
    rw [hw]
    refine ⟨h1, ?_, ?_, ?_, ?_⟩
    · intro k l hl
      unfold State.rp
      rw [h2]
      unfold State.predMask
      by_cases hk : k = 15
      · simp [hk, Ne.symm hn]
      · simp only [hk, hn, if_false, Sparse.get_set]
        by_cases hkn : k = n
        · simp [hkn, hn, getLsbD_blend _ _ _ _ hl]
        · simp [hkn]
    · intro ph l _; rw [h3]
    · intro k; unfold State.ru; rw [h2]
    · unfold StatusKept; rw [h2]

/-- What raising floating-point flags does (R41). -/
theorem raise_spec (fl : FpFlags) :
    Eff s (s.raise fl) ∧ (s.raise fl).me.fpstat = s.me.fpstat ||| fl ∧ VecKept s (s.raise fl) ∧ UniKept s (s.raise fl) ∧ PredKept s (s.raise fl) := by
  obtain ⟨h1, h2, h3⟩ := eff_me (s := s) (g := fun x => { x with fpstat := x.fpstat ||| fl }) (by constructor <;> rfl) rfl id
  refine ⟨h1, by unfold State.raise; rw [h2], ?_, ?_, ?_⟩
  · intro ph l _; unfold State.raise; rw [h3]
  · intro k; unfold State.raise State.ru; rw [h2]
  · intro k l _; unfold State.raise State.rp State.predMask; rw [h2]

end Machine

end Sys2Proof
end

