-- ==== Sys2Proof/Laws/Shapes.lean ====
section
/-! SUPPORT. The result of an instruction of each shape: what it writes when it is ready and the fibre is quiet. -/

namespace Sys2Proof

namespace Machine

variable {s e : State} {us : Uses}

/-! ### From an effect to the result of the instruction -/

theorem vec_of_eff {n : Nat} {m : Mask} {f : Nat → Word} (q : s.Quiet) (h : Eff s e) (h1 : VecSet s e n m f) (h2 : UniKept s e) (h3 : PredKept s e)
    (h4 : StatusKept s e) : VecResult s e.finish n m f := by
  obtain ⟨k, a, v, u, p, st⟩ := finish_of_eff h q
  exact ⟨k, a, fun ph l hl => (v ph l hl).trans (h1 ph l hl), fun x => (u x).trans (h2 x), fun x l hl => (p x l hl).trans (h3 x l hl), st.trans h4⟩

theorem pair_of_eff {n : Nat} {m : Mask} {f : Nat → Word64} (q : s.Quiet) (h : Eff s e) (h1 : VecSet2 s e n m f) (h2 : UniKept s e) (h3 : PredKept s e)
    (h4 : StatusKept s e) : PairResult s e.finish n m f := by
  obtain ⟨k, a, v, u, p, st⟩ := finish_of_eff h q
  exact ⟨k, a, fun ph l hl => (v ph l hl).trans (h1 ph l hl), fun x => (u x).trans (h2 x), fun x l hl => (p x l hl).trans (h3 x l hl), st.trans h4⟩

theorem uni_of_eff {n : Nat} {y : Word64} (q : s.Quiet) (h : Eff s e) (h1 : UniSet s e n y) (h2 : VecKept s e) (h3 : PredKept s e)
    (h4 : StatusKept s e) : UniResult s e.finish n y := by
  obtain ⟨k, a, v, u, p, st⟩ := finish_of_eff h q
  exact ⟨k, a, fun ph l hl => (v ph l hl).trans (h2 ph l hl), fun x => (u x).trans (h1 x), fun x l hl => (p x l hl).trans (h3 x l hl), st.trans h4⟩

theorem pred_of_eff {n : Nat} {m : Mask} {f : Nat → Bool} (q : s.Quiet) (h : Eff s e) (h1 : PredSet s e n m f) (h2 : VecKept s e) (h3 : UniKept s e)
    (h4 : StatusKept s e) : PredResult s e.finish n m f := by
  obtain ⟨k, a, v, u, p, st⟩ := finish_of_eff h q
  exact ⟨k, a, fun ph l hl => (v ph l hl).trans (h2 ph l hl), fun x => (u x).trans (h3 x), fun x l hl => (p x l hl).trans (h1 x l hl), st.trans h4⟩

theorem plain_of_eff (q : s.Quiet) (h : Eff s e) (h2 : VecKept s e) (h3 : UniKept s e) (h5 : PredKept s e) (h4 : StatusKept s e) :
    PlainResult s e.finish := by
  obtain ⟨k, a, v, u, p, st⟩ := finish_of_eff h q
  exact ⟨k, a, fun ph l hl => (v ph l hl).trans (h2 ph l hl), fun x => (u x).trans (h3 x), fun x l hl => (p x l hl).trans (h5 x l hl), st.trans h4⟩

theorem finish_plain (q : s.Quiet) : PlainResult s s.finish := by
  obtain ⟨k, a, v, u, p, st⟩ := finish_frame q
  exact ⟨k, a, v, u, p, st⟩

/-! ### Shapes -/

theorem plain_vec (h : s.Ready us) (q : s.Quiet) (n : Nat) (f : State → Nat → Word) :
    VecResult s (s.plain us (fun t => t.wv n t.cur.active (f t))) n s.cur.active (f s) := by
  rw [plain_ready h]
  obtain ⟨h1, h2, h3, h4, h5⟩ := wv_spec (s := s) n s.cur.active (f s)
  exact vec_of_eff q h1 h2 h3 h4 h5

theorem plain_pair (h : s.Ready us) (q : s.Quiet) (n : Nat) (f : State → Nat → Word64) :
    PairResult s (s.plain us (fun t => t.wv2 n t.cur.active (f t))) n s.cur.active (f s) := by
  rw [plain_ready h]
  obtain ⟨h1, h2, h3, h4, h5⟩ := wv2_spec (s := s) n s.cur.active (f s)
  exact pair_of_eff q h1 h2 h3 h4 h5

theorem plain_uni (h : s.Ready us) (q : s.Quiet) (n : Nat) (f : State → Word64) : UniResult s (s.plain us (fun t => t.wu n (f t))) n (f s) := by
  rw [plain_ready h]
  obtain ⟨h1, h2, h3, h4, h5⟩ := wu_spec (s := s) n (f s)
  exact uni_of_eff q h1 h2 h3 h4 h5

theorem plain_pred (h : s.Ready us) (q : s.Quiet) (n : Nat) (f : State → Nat → Bool) :
    PredResult s (s.plain us (fun t => t.wp n t.cur.active (f t))) n s.cur.active (f s) := by
  rw [plain_ready h]
  obtain ⟨h1, h2, h3, h4, h5⟩ := wp_spec (s := s) n s.cur.active (f s)
  exact pred_of_eff q h1 h2 h3 h4 h5

/-- A vector register and a predicate are written. -/
theorem plain_vec_pred (h : s.Ready us) (q : s.Quiet) (n k : Nat) (f : State → Nat → Word) (g : State → Nat → Bool) :
    let t := s.plain us (fun t => (t.wv n t.cur.active (f t)).wp k t.cur.active (g t))
    Kept s t ∧ Advanced s t ∧ UniKept s t ∧ StatusKept s t ∧ VecSet s t n s.cur.active (f s) ∧ PredSet s t k s.cur.active (g s) := by
  intro t
  have ht : t = ((s.wv n s.cur.active (f s)).wp k s.cur.active (g s)).finish := plain_ready h
  obtain ⟨h1, h2, h3, h4, h5⟩ := wv_spec (s := s) n s.cur.active (f s)
  obtain ⟨k1, k2, k3, k4, k5⟩ := wp_spec (s := s.wv n s.cur.active (f s)) k s.cur.active (g s)
  obtain ⟨kp, ad, vv, uu, p, st⟩ := finish_of_eff (h1.trans k1) q
  rw [ht]
  refine ⟨kp, ad, fun x => (uu x).trans ((k4 x).trans (h3 x)), st.trans (k5.trans h5), ?_, ?_⟩
  · intro ph l hl; rw [vv ph l hl, k3 ph l hl, h2 ph l hl]
  · intro n l hl; rw [p n l hl, k2 n l hl]; split
    · rfl
    · exact h4 n l hl

/-- A uniform register and a predicate are written. -/
theorem plain_uni_pred (h : s.Ready us) (q : s.Quiet) (n k : Nat) (f : State → Word64) (g : State → Nat → Bool) :
    let t := s.plain us (fun t => (t.wu n (f t)).wp k t.cur.active (g t))
    Kept s t ∧ Advanced s t ∧ VecKept s t ∧ StatusKept s t ∧ UniSet s t n (f s) ∧ PredSet s t k s.cur.active (g s) := by
  intro t
  have ht : t = ((s.wu n (f s)).wp k s.cur.active (g s)).finish := plain_ready h
  obtain ⟨h1, h2, h3, h4, h5⟩ := wu_spec (s := s) n (f s)
  obtain ⟨k1, k2, k3, k4, k5⟩ := wp_spec (s := s.wu n (f s)) k s.cur.active (g s)
  obtain ⟨kp, ad, vv, uu, p, st⟩ := finish_of_eff (h1.trans k1) q
  rw [ht]
  refine ⟨kp, ad, fun ph l hl => (vv ph l hl).trans ((k3 ph l hl).trans (h3 ph l hl)), st.trans (k5.trans h5), ?_, ?_⟩
  · intro x; rw [uu x, k4 x, h2 x]
  · intro n l hl; rw [p n l hl, k2 n l hl]; split
    · rfl
    · exact h4 n l hl

theorem binary_result {f : BinOp} {v : Bool} {d a b : BitVec 7} {u : Bool} (h : s.Ready (usesTwin v d a b u)) (q : s.Quiet) :
    TwinResult s (s.binary f v d a b u) v d (fun l => f 32 (s.rv a.toNat l) (s.opb b u l)) (f 64 (s.usrc a.toNat) (s.usrc b.toNat)) := by
  cases v
  · exact plain_vec h q d.toNat (fun t l => f 32 (t.rv a.toNat l) (t.opb b u l))
  · exact plain_uni h q d.toNat (fun t => f 64 (t.usrc a.toNat) (t.usrc b.toNat))

theorem ternary_result {f : TriOp} {v : Bool} {d a b : BitVec 7} {u : Bool} (h : s.Ready (usesTwin3 v d a b u)) (q : s.Quiet) :
    TwinResult s (s.ternary f v d a b u) v d (fun l => f 32 (s.rv a.toNat l) (s.opb b u l) (s.rv d.toNat l))
      (f 64 (s.usrc a.toNat) (s.usrc b.toNat) (s.ru d.toNat)) := by
  cases v
  · exact plain_vec h q d.toNat (fun t l => f 32 (t.rv a.toNat l) (t.opb b u l) (t.rv d.toNat l))
  · exact plain_uni h q d.toNat (fun t => f 64 (t.usrc a.toNat) (t.usrc b.toNat) (t.ru d.toNat))

theorem unary_result {f : UnOp} {v : Bool} {d a : BitVec 7} (h : s.Ready (usesTwin1 v d a)) (q : s.Quiet) :
    TwinResult s (s.unary f v d a) v d (fun l => f 32 (s.rv a.toNat l)) (f 64 (s.usrc a.toNat)) := by
  cases v
  · exact plain_vec h q d.toNat (fun t l => f 32 (t.rv a.toNat l))
  · exact plain_uni h q d.toNat (fun t => f 64 (t.usrc a.toNat))

theorem pairBinary_result {f : Word64 → Word64 → Word64} {d a b : BitVec 7} {u : Bool} (h : s.Ready (usesPair d a b u)) (q : s.Quiet) :
    PairResult s (s.pairBinary f d a b u) d.toNat s.cur.active (fun l => f (s.rv2 a.toNat l) (s.opb2 b u l)) :=
  plain_pair h q d.toNat (fun t l => f (t.rv2 a.toNat l) (t.opb2 b u l))

theorem pairMad_result {f : Word → Word → Word64 → Word64} {d a b : BitVec 7} {u : Bool} (h : s.Ready (usesWide d a b u)) (q : s.Quiet) :
    PairResult s (s.pairMad f d a b u) d.toNat s.cur.active (fun l => f (s.rv a.toNat l) (s.opb b u l) (s.rv2 d.toNat l)) :=
  plain_pair h q d.toNat (fun t l => f (t.rv a.toNat l) (t.opb b u l) (t.rv2 d.toNat l))

/-- ADDC and SUBB in vector form (R82). -/
theorem carryOp_vec {f : (w : Nat) → BitVec w → BitVec w → Bool → BitVec w} {co : (w : Nat) → BitVec w → BitVec w → Bool → Bool}
    {d a b : BitVec 7} {u : Bool} (h : s.Ready (usesCarry false d a b u)) (q : s.Quiet) :
    let t := s.carryOp f co false d a b u
    Kept s t ∧ Advanced s t ∧ UniKept s t ∧ StatusKept s t
      ∧ VecSet s t d.toNat s.cur.active (fun l => f 32 (s.rv a.toNat l) (s.opb b u l) (s.rp 13 l))
      ∧ PredSet s t 13 s.cur.active (fun l => co 32 (s.rv a.toNat l) (s.opb b u l) (s.rp 13 l)) :=
  plain_vec_pred h q d.toNat 13 (fun t l => f 32 (t.rv a.toNat l) (t.opb b u l) (t.rp 13 l))
    (fun t l => co 32 (t.rv a.toNat l) (t.opb b u l) (t.rp 13 l))

/-- ADDC and SUBB in uniform form (R82). -/
theorem carryOp_uni {f : (w : Nat) → BitVec w → BitVec w → Bool → BitVec w} {co : (w : Nat) → BitVec w → BitVec w → Bool → Bool}
    {d a b : BitVec 7} {u : Bool} {low : Nat} (h : s.Ready (usesCarry true d a b u)) (q : s.Quiet) (hl : lowestLane s.cur.active = some low) :
    let t := s.carryOp f co true d a b u
    Kept s t ∧ Advanced s t ∧ VecKept s t ∧ StatusKept s t
      ∧ UniSet s t d.toNat (f 64 (s.usrc a.toNat) (s.usrc b.toNat) (s.rp 13 low))
      ∧ PredSet s t 13 s.cur.active (fun _ => co 64 (s.usrc a.toNat) (s.usrc b.toNat) (s.rp 13 low)) := by
  have := plain_uni_pred h q d.toNat 13 (fun t => f 64 (t.usrc a.toNat) (t.usrc b.toNat) (t.rp 13 ((lowestLane t.cur.active).getD 0)))
    (fun t _ => co 64 (t.usrc a.toNat) (t.usrc b.toNat) (t.rp 13 ((lowestLane t.cur.active).getD 0)))
  simp only [hl, Option.getD_some] at this
  exact this

/-- LEA in vector form (R86). -/
theorem lea_vec {k : Nat} {d a b : BitVec 7} {u : Bool} (h : s.Ready (((Uses.rdV a.toNat 2).and (Uses.rdB b u 1)).and (Uses.wrV d.toNat 2))) (q : s.Quiet) :
    PairResult s (s.lea k false d a b u) d.toNat s.cur.active (fun l => s.rv2 a.toNat l + (s.opb b u l).setWidth 64 * BitVec.ofNat 64 k) := by
  have := plain_pair h q d.toNat (fun t l => leaOp k (t.rv2 a.toNat l) ((t.opb b u l).setWidth 64))
  unfold State.lea
  exact this

/-- LEA in uniform form (R86). -/
theorem lea_uni {k : Nat} {d a b : BitVec 7} {u : Bool} (h : s.Ready (usesTwin true d a b u)) (q : s.Quiet) :
    UniResult s (s.lea k true d a b u) d.toNat (s.usrc a.toNat + s.usrc b.toNat * BitVec.ofNat 64 k) := by
  have := plain_uni h q d.toNat (fun t => leaOp k (t.usrc a.toNat) (t.usrc b.toNat))
  unfold State.lea
  exact this

theorem execMov_uni {d b : BitVec 7} {u : Bool} : execMov true d b u s = .next (s.unary (fun _ x => x) true d b) :=
  congrArg Host.Outcome.next (if_neg (by decide))

theorem execSetp_word {p c : BitVec 4} {a b : BitVec 7} {u : Bool} : execSetp 0 p a b u c s =
    .next (s.setPred ((Uses.rdV a.toNat 1).and (Uses.rdB b u 1)) p.toNat (fun t l => cmpCond c.toNat (t.rv a.toNat l) (t.opb b u l))) :=
  congrArg Host.Outcome.next (if_pos rfl)

theorem execSetp_pair {p c : BitVec 4} {a b : BitVec 7} {u : Bool} : execSetp 1 p a b u c s =
    .next (s.setPred ((Uses.rdV a.toNat 2).and (Uses.rdB b u 2)) p.toNat (fun t l => cmpCond c.toNat (t.rv2 a.toNat l) (t.opb2 b u l))) :=
  congrArg Host.Outcome.next (if_neg (by decide))

/-- An instruction that computes a predicate. -/
theorem setPred_result {u : Uses} {p : Nat} {f : State → Nat → Bool} (h : s.Ready (u.and (Uses.wrP p))) (q : s.Quiet) :
    PredResult s (s.setPred u p f) p s.cur.active (f s) := plain_pred h q p f

/-- A twin that gives one function gives an equal one. -/
theorem TwinResult.congr {t : State} {v : Bool} {d : BitVec 7} {f g : Nat → Word} {x y : Word64} (h : TwinResult s t v d f x) (h1 : f = g) (h2 : x = y) :
    TwinResult s t v d g y := by subst h1 h2; exact h

theorem VecResult.congr {t : State} {n : Nat} {m : Mask} {f g : Nat → Word} (h : VecResult s t n m f) (hfg : ∀ l, l < 32 → f l = g l) :
    VecResult s t n m g :=
  ⟨h.kept, h.advanced, fun ph l hl => by rw [h.vec ph l hl, hfg l hl], h.uni, h.pred, h.status⟩

theorem PairResult.congr {t : State} {n : Nat} {m : Mask} {f g : Nat → Word64} (h : PairResult s t n m f) (hfg : ∀ l, l < 32 → f l = g l) :
    PairResult s t n m g :=
  ⟨h.kept, h.advanced, fun ph l hl => by rw [h.vec ph l hl, hfg l hl], h.uni, h.pred, h.status⟩

theorem PredResult.congr {t : State} {n : Nat} {m : Mask} {f g : Nat → Bool} (h : PredResult s t n m f) (hfg : ∀ l, l < 32 → f l = g l) :
    PredResult s t n m g :=
  ⟨h.kept, h.advanced, h.vec, h.uni, fun ph l hl => by rw [h.pred ph l hl, hfg l hl], h.status⟩

theorem UniResult.congr {t : State} {n : Nat} {x y : Word64} (h : UniResult s t n x) (hxy : x = y) : UniResult s t n y := hxy ▸ h

/-- A floating-point instruction that writes one register. -/
theorem plain_fpvec {us : Uses} (h : s.Ready us) (q : s.Quiet) (n : Nat) (f : Nat → Word) (fl : FpFlags) (eff : State → State)
    (he : eff s = (s.wv n s.cur.active f).raise fl) : FpVec s (s.plain us eff) n s.cur.active f fl := by
  rw [plain_ready h, he]
  obtain ⟨h1, h2, h3, h4, h5⟩ := wv_spec (s := s) n s.cur.active f
  obtain ⟨k1, k2, k3, k4, k5⟩ := raise_spec (s := s.wv n s.cur.active f) fl
  obtain ⟨kp, ad, vv, uu, p, st⟩ := finish_of_eff (h1.trans k1) q
  exact ⟨kp, ad, fun ph l hl => by rw [vv ph l hl, k3 ph l hl, h2 ph l hl], fun x => by rw [uu x, k4 x, h3 x],
    fun x l hl => by rw [p x l hl, k5 x l hl, h4 x l hl], by rw [st, k2, h5]⟩

/-- A floating-point instruction that writes a pair. -/
theorem plain_fppair {us : Uses} (h : s.Ready us) (q : s.Quiet) (n : Nat) (f : Nat → Word64) (fl : FpFlags) (eff : State → State)
    (he : eff s = (s.wv2 n s.cur.active f).raise fl) : FpPair s (s.plain us eff) n s.cur.active f fl := by
  rw [plain_ready h, he]
  obtain ⟨h1, h2, h3, h4, h5⟩ := wv2_spec (s := s) n s.cur.active f
  obtain ⟨k1, k2, k3, k4, k5⟩ := raise_spec (s := s.wv2 n s.cur.active f) fl
  obtain ⟨kp, ad, vv, uu, p, st⟩ := finish_of_eff (h1.trans k1) q
  exact ⟨kp, ad, fun ph l hl => by rw [vv ph l hl, k3 ph l hl, h2 ph l hl], fun x => by rw [uu x, k4 x, h3 x],
    fun x l hl => by rw [p x l hl, k5 x l hl, h4 x l hl], by rw [st, k2, h5]⟩

end Machine

end Sys2Proof
end

