-- ==== Sys2Proof/Laws/Control.lean ====
section
/-! SUPPORT. What the end of an issue does after any change of the issuing fibre, and the moves of entries in the frontier. -/

namespace Sys2Proof

namespace Machine

variable {s t : State} {x y : Fibre} {c : Cur}

/-! ### The end of an issue -/

/-- What `issuedOnce` leaves alone. -/
theorem issuedOnce_eq : ∃ l, x.issuedOnce = { x with status := .ready, held := l, pend := x.pend.map (fun p => { p with shadow := p.shadow - 1 }) } := by
  obtain ⟨l, hl⟩ := releaseHeld_eq (x := x.tickShadows)
  refine ⟨l, ?_⟩
  unfold Fibre.issuedOnce
  rw [hl]
  rfl

/-- The end of an issue of a fibre with lanes to run, nothing spilled and nothing due. -/
theorem done_spec (h0 : s.me.hasRun = true) (h1 : s.me.spilled = []) (h3 : ∀ p ∈ s.me.pend, p.arrived = true → 2 ≤ p.shadow) :
    s.done.me = s.me.issuedOnce ∧ s.done.mem = s.mem ∧ Around s s.done ∧ s.done.mySlot = Slot.issued s s.mySlot := by
  obtain ⟨l, hf⟩ := issuedOnce_eq (x := s.me)
  have e1 : (s.modMe Fibre.issuedOnce).fibre s.cur.fib = s.me.issuedOnce := State.modMe_me s Fibre.issuedOnce
  generalize hq : s.modMe Fibre.issuedOnce = q at e1
  have hc : q.cur = s.cur := by rw [← hq]; rfl
  have hk : q.clock = s.clock := by rw [← hq]; rfl
  have e2 : q.settleFrontier s.cur.fib = q := by
    unfold State.settleFrontier
    have : (q.fibre s.cur.fib).spilled = [] := by rw [e1, hf]; exact h1
    simp [this]
  have e3 : q.landDue s.cur.fib = q := by
    unfold State.landDue
    have : (q.fibre s.cur.fib).pend.any Pend.due = false := by
      rw [e1, hf]
      simp only [List.any_map, List.any_eq_false]
      intro p hp
      have := h3 p hp
      simp only [Function.comp, Pend.due, Bool.and_eq_true, beq_iff_eq, not_and]
      intro ha; have := this ha.1; omega
    simp [this]
  have e4 : q.slotOf s.cur.fib = s.slotOf s.cur.fib := by
    unfold State.slotOf
    rw [e1, hf]
    rfl
  have hd : s.done = (q.modSlot (s.slotOf s.cur.fib) (Slot.issued s)).wake := by
    have e5 : (q.modSlot (s.slotOf s.cur.fib) (Slot.issued q)).rest s.cur.fib = q.modSlot (s.slotOf s.cur.fib) (Slot.issued q) :=
      rest_hasRun (by rw [State.modSlot_fibre, e1, hf]; exact h0)
    rw [done_eq]
    unfold State.marked
    rw [hq, e2, e3, e4, e5]
    unfold Slot.issued
    rw [hc, hk]
  have hsl : (q.modSlot (s.slotOf s.cur.fib) (Slot.issued s)).slot (s.slotOf s.cur.fib) = Slot.issued s s.mySlot := by
    rw [State.modSlot_slot_self, ← hq, State.modMe_slot]; rfl
  have hme : s.done.me = s.me.issuedOnce := by
    rw [hd]
    unfold State.me
    simp only [State.wake_cur, State.modSlot_cur, State.wake_fibre, State.modSlot_fibre, hc]
    exact e1
  have hso : s.done.slotOf s.done.cur.fib = s.slotOf s.cur.fib := by
    unfold State.slotOf
    rw [show s.done.fibre s.done.cur.fib = s.me.issuedOnce from hme, hf]
    rfl
  refine ⟨hme, ?_, ?_, ?_⟩
  · rw [hd, ← hq]; simp
  · rw [hd, ← hq]
    refine ⟨?_, ?_, ?_, ?_, ?_, ?_, ?_, ?_, ?_, ?_, ?_, ?_⟩
    · intro f hf'; rw [State.wake_fibre, State.modSlot_fibre, State.modMe_fibre_ne _ _ _ hf']
    · intro k hk'; rw [State.wake_slot, State.modSlot_slot_ne _ _ _ _ hk', State.modMe_slot]
    iterate 10 (· simp)
  · unfold State.mySlot
    rw [hso, hd, State.wake_slot]
    exact hsl

theorem modMe_around (g : Fibre → Fibre) : Around s (s.modMe g) :=
  ⟨fun f hf => State.modMe_fibre_ne s g f hf, fun _ _ => rfl, rfl, rfl, rfl, rfl, rfl, rfl, rfl, rfl, rfl, rfl⟩

theorem modMe_mySlot {g : Fibre → Fibre} (h1 : (g s.me).core = s.me.core) (h2 : (g s.me).slot = s.me.slot) : (s.modMe g).mySlot = s.mySlot := by
  have h := modMe_slotOf_of (s := s) h1 h2
  unfold State.mySlot
  rw [State.modMe_cur, h, State.modMe_slot]

/-- A change of the issuing fibre and the end of the issue: the fibre's new state, with nothing else changed. -/
theorem modMe_done {g : Fibre → Fibre} (h0 : (g s.me).hasRun = true) (hc : (g s.me).core = s.me.core) (hs : (g s.me).slot = s.me.slot) (h1 : (g s.me).spilled = [])
    (h3 : ∀ p ∈ (g s.me).pend, p.arrived = true → 2 ≤ p.shadow) :
    let t := (s.modMe g).done
    t.me = (g s.me).issuedOnce ∧ t.mem = s.mem ∧ Around s t ∧ s.mySlot.Kept t.mySlot ∧ VecKept s t := by
  intro t
  have hme := State.modMe_me s g
  have hsl := modMe_mySlot hc hs
  obtain ⟨a, b, d, e⟩ := done_spec (s := s.modMe g) (by rw [hme]; exact h0) (by rw [hme]; exact h1) (by rw [hme]; exact h3)
  rw [hme] at a
  have ha := modMe_around (s := s) g
  have hso : (s.modMe g).slotOf (s.modMe g).cur.fib = s.slotOf s.cur.fib := modMe_slotOf_of (s := s) hc hs
  have hd' : Around s t := by
    refine ⟨fun f hf => (d.fibres f hf).trans (ha.fibres f hf), fun k hk => (d.slots k ?_).trans (ha.slots k hk), d.cores, d.wgs, d.launches, d.ctxs, d.dev,
      d.agenda, d.cur, d.clock, d.turn, d.tick⟩
    rw [hso]; exact hk
  refine ⟨a, b, hd', ?_, ?_⟩
  · show s.mySlot.Kept (s.modMe g).done.mySlot
    rw [e, hsl]; constructor <;> rfl
  · intro ph l _
    show (s.modMe g).done.mySlot.getV ph l = _
    rw [e, hsl]; rfl

/-- The same, when the change leaves the registers of the fibre alone. -/
theorem modMe_done_still {g : Fibre → Fibre} (h0 : (g s.me).hasRun = true) (hc : (g s.me).core = s.me.core) (hs : (g s.me).slot = s.me.slot) (h1 : (g s.me).spilled = [])
    (h3 : ∀ p ∈ (g s.me).pend, p.arrived = true → 2 ≤ p.shadow) (hu : (g s.me).ureg = s.me.ureg) (hp : (g s.me).pred = s.me.pred)
    (hf : (g s.me).fpstat = s.me.fpstat) : Still s (s.modMe g).done ∧ (s.modMe g).done.me = (g s.me).issuedOnce := by
  obtain ⟨a, b, d, e, v⟩ := modMe_done h0 hc hs h1 h3
  obtain ⟨l, hl⟩ := issuedOnce_eq (x := g s.me)
  refine ⟨⟨b, d, e, v, ?_, ?_, ?_⟩, a⟩
  · intro k; unfold State.ru; rw [a, hl]; exact congrArg _ hu
  · intro k l' _; unfold State.rp State.predMask; rw [a, hl]; simp only [hp]
  · unfold StatusKept; rw [a, hl]; exact hf

/-! ### Entries in the frontier -/

theorem runAt_none {l : List Entry} {pc : Word64} (h : ∀ x ∈ l, x.kind = .run → x.replay = false → x.pc ≠ pc) (hx : x.frontier = l) : x.runAt pc = none := by
  unfold Fibre.runAt
  rw [List.find?_eq_none]
  intro e he
  have := h e (hx ▸ he)
  simp only [Bool.and_eq_true, beq_iff_eq, Bool.not_eq_true', not_and]
  rintro ⟨hk, hr⟩
  exact this hk hr

/-- Lanes that meet no entry form one of their own, at the end. -/
theorem addRun_new {pc : Word64} {p : BitVec 4} {m : Mask} {a : Word} (hm : m ≠ 0) (hl : x.frontier.length < 8)
    (h : ∀ e ∈ x.frontier, e.kind = .run → e.replay = false → e.pc ≠ pc) :
    x.addRun pc p m a = { x with frontier := x.frontier ++ [Entry.at_ pc p m a] } := by
  unfold Fibre.addRun
  rw [if_neg hm, runAt_none h rfl, makeRoom_of_lt hl]
  rfl

theorem and_not_zero (m : Mask) : m &&& ~~~(0 : Mask) = m := by
  rw [show (~~~(0 : Mask)) = BitVec.allOnes 32 from rfl, BitVec.and_allOnes]

/-- The whole entry moves to the next address. -/
theorem advance_at {e : Entry} (he : x.runEntry c.age = some e) (hm : e.mask ≠ 0) (hl : x.frontier.length ≤ 8)
    (h : ∀ z ∈ (x.dropRun c.age).frontier, z.kind = .run → z.replay = false → z.pc ≠ c.npc) :
    x.advance c 0 = { x with frontier := (x.dropRun c.age).frontier ++ [Entry.at_ c.npc e.prio e.mask c.age] } := by
  unfold Fibre.advance
  rw [he]
  have h0 : (0 : Mask) &&& e.mask = 0 := by simp
  have hlt := dropRun_length he
  simp only [h0, if_true, and_not_zero]
  rw [addRun_new hm (by omega) h]
  rfl

/-- The whole entry leaves. -/
theorem leave_all {a : Word} {m : Mask} {e : Entry} (he : x.runEntry a = some e) (h : e.mask &&& ~~~m = 0) : x.leave a m = x.dropRun a := by
  unfold Fibre.leave
  rw [he]
  exact if_pos h

/-- Some lanes leave: the entry stays with the others. -/
theorem leave_some {a : Word} {m : Mask} {e : Entry} (he : x.runEntry a = some e) (h : e.mask &&& ~~~m ≠ 0) :
    x.leave a m = x.putEntry { e with mask := e.mask &&& ~~~m } ∧ (x.leave a m).dropRun a = x.dropRun a
    ∧ (x.leave a m).runEntry a = some { e with mask := e.mask &&& ~~~m } ∧ (x.leave a m).frontier.length = x.frontier.length := by
  obtain ⟨h1, h2, h3⟩ := runEntry_mem he
  have hl : x.leave a m = x.putEntry { e with mask := e.mask &&& ~~~m } := by
    unfold Fibre.leave
    rw [he]
    exact if_neg h
  have key : ∀ l : List Entry, (l.map (fun z => if (z.kind == .run && z.age == e.age) = true then { e with mask := e.mask &&& ~~~m } else z)).filter
      (fun z => !(z.kind == .run && z.age == a)) = l.filter (fun z => !(z.kind == .run && z.age == a)) := by
    intro l
    induction l with
    | nil => rfl
    | cons z l ih =>
      by_cases hz : (z.kind == .run && z.age == e.age) = true
      · rw [List.map_cons, if_pos hz, List.filter_cons, List.filter_cons, ih]
        rw [if_neg (by simp [h2, h3]), if_neg (by rw [h3] at hz; simp [hz])]
      · rw [List.map_cons, if_neg hz, List.filter_cons, List.filter_cons, ih]
  have key2 : ∀ l : List Entry, l.find? (fun z => z.kind == .run && z.age == a) = some e →
      (l.map (fun z => if (z.kind == .run && z.age == e.age) = true then { e with mask := e.mask &&& ~~~m } else z)).find?
        (fun z => z.kind == .run && z.age == a) = some { e with mask := e.mask &&& ~~~m } := by
    intro l
    induction l with
    | nil => simp
    | cons z l ih =>
      intro hz
      by_cases hp : (z.kind == .run && z.age == a) = true
      · rw [List.map_cons, if_pos (by rw [h3]; exact hp)]
        simp [h2, h3]
      · rw [List.find?_cons_of_neg (by simpa using hp)] at hz
        rw [List.map_cons, if_neg (by rw [h3]; exact hp), List.find?_cons_of_neg (by simpa using hp)]
        exact ih hz
  refine ⟨hl, ?_, ?_, ?_⟩
  · rw [hl]
    unfold Fibre.dropRun Fibre.putEntry
    dsimp only
    rw [key]
  · rw [hl]
    exact key2 x.frontier he
  · rw [hl]
    unfold Fibre.putEntry
    dsimp only
    rw [List.length_map]

/-- A branch of the whole entry. -/
theorem branch_all {e : Entry} {p : BitVec 4} {tgt : Word64} (he : x.runEntry c.age = some e) (hm : c.mask ≠ 0) (hl : x.frontier.length ≤ 8)
    (h : ∀ z ∈ (x.dropRun c.age).frontier, z.kind = .run → z.replay = false → z.pc ≠ tgt) :
    x.branch c p [(tgt, c.mask)] = { x with frontier := (x.dropRun c.age).frontier ++ [Entry.at_ tgt p c.mask c.age] } := by
  have hlt := dropRun_length he
  unfold Fibre.branch
  simp only [if_true]
  rw [addRun_new hm (by omega) h]
  rfl

/-- A branch of some lanes. -/
theorem branch_some {e : Entry} {p : BitVec 4} {tgt : Word64} {m : Mask} (he : x.runEntry c.age = some e) (hc : e.mask = c.mask) (hm : m ≠ 0)
    (hn : c.mask &&& ~~~m ≠ 0) (hl : x.frontier.length ≤ 7) (ht : tgt ≠ c.npc)
    (h : ∀ z ∈ (x.dropRun c.age).frontier, z.kind = .run → z.replay = false → z.pc ≠ tgt)
    (h' : ∀ z ∈ (x.dropRun c.age).frontier, z.kind = .run → z.replay = false → z.pc ≠ c.npc) :
    x.branch c p [(tgt, m)] = { x with
      frontier := (x.dropRun c.age).frontier ++ [Entry.at_ c.npc e.prio (c.mask &&& ~~~m) c.age, Entry.at_ tgt p m x.nextAge], nextAge := x.nextAge + 1 } := by
  have hlt := dropRun_length he
  rw [← hc] at hn
  obtain ⟨k1, k2, k3, k4⟩ := leave_some he hn
  have hne : m ≠ c.mask := by
    rintro rfl
    apply hn
    rw [hc]
    apply BitVec.eq_of_getLsbD_eq
    intro i hi
    simp [hi]
  have ha := advance_at (c := c) k3 hn (by omega) (by rw [k2]; exact h')
  have hf : (x.leave c.age m).nextAge = x.nextAge := by rw [k1]; rfl
  unfold Fibre.branch
  simp only [if_neg hne]
  rw [ha, k2]
  unfold Fibre.newRun
  rw [addRun_new hm]
  · rw [k1, ← hc, List.append_assoc]; rfl
  · simp only [List.length_append, List.length_singleton]; omega
  · intro z hz
    simp only [List.mem_append, List.mem_singleton] at hz
    rcases hz with hz | rfl
    · exact h z hz
    · intro _ _ hq; exact ht hq.symm

/-- A taken branch ends the issue: only the frontier, the statuses of the issue and the next creation number have changed. -/
theorem takeBranch_spec {p : BitVec 4} {gs : List (Word64 × Mask)} {l : List Entry} {n : Word} (q : s.Quiet)
    (h : s.me.branch s.cur p gs = { s.me with frontier := l, nextAge := n }) (hl : l.any (fun e => e.kind == .run) = true) :
    Still s (s.takeBranch p gs) ∧ s.me.Kept (s.takeBranch p gs).me ∧ (s.takeBranch p gs).me.frontier = l := by
  obtain ⟨h1, h2⟩ := modMe_done_still (s := s) (g := fun x => x.branch s.cur p gs) (by rw [h]; simp only [Fibre.hasRun, hl, Bool.true_or])
    (by rw [h]) (by rw [h]) (by rw [h]; exact q.1.1) (by rw [h]; exact q.1.2.2)
    (by rw [h]) (by rw [h]) (by rw [h])
  obtain ⟨k, hk⟩ := issuedOnce_eq (x := s.me.branch s.cur p gs)
  unfold State.takeBranch
  refine ⟨h1, ?_, ?_⟩
  · rw [h2, hk, h]; constructor <;> rfl
  · rw [h2, hk, h]

/-- A finish of an entry that meets none: it stands at the next address. -/
theorem finish_at {e : Entry} (q : s.Quiet) (hi : Issuing s e) (h : s.clearAt s.cur.npc) :
    Still s s.finish ∧ s.me.Kept s.finish.me ∧ s.finish.me.frontier = s.others ++ [Entry.at_ s.cur.npc e.prio s.cur.mask s.cur.age] := by
  obtain ⟨k, a, v, u, p, st⟩ := finish_frame q
  refine ⟨⟨k.mem, k.around, k.slot, v, u, p, st⟩, k.fibre, ?_⟩
  rw [a, advance_at hi.entry (by rw [hi.mask]; exact hi.some) (by have := hi.room; omega) h, hi.mask]
  rfl

/-- A quiet finish leaves everything outside the fibre's frontier alone. -/
theorem still_of_finish (q : s.Quiet) : Still s s.finish ∧ s.me.Kept s.finish.me ∧ Advanced s s.finish := by
  obtain ⟨k, a, v, u, p, st⟩ := finish_frame q
  exact ⟨⟨k.mem, k.around, k.slot, v, u, p, st⟩, k.fibre, a⟩

/-- A change of the fibre that keeps its registers, frontier and pending writes, and the finish. -/
theorem modMe_finish {g : Fibre → Fibre} (q : s.Quiet) (hc : (g s.me).core = s.me.core) (hs : (g s.me).slot = s.me.slot) (h1 : (g s.me).spilled = s.me.spilled)
    (h2 : (g s.me).frontier = s.me.frontier) (h3 : (g s.me).pend = s.me.pend) (hu : (g s.me).ureg = s.me.ureg) (hp : (g s.me).pred = s.me.pred)
    (hf : (g s.me).fpstat = s.me.fpstat) : Still s (s.modMe g).finish ∧ Advanced s (s.modMe g).finish ∧ (g s.me).Kept (s.modMe g).finish.me := by
  have hme := State.modMe_me s g
  have q' : (s.modMe g).Quiet := by
    refine quiet_of (s := s) rfl (by rw [hme]; exact h2) ?_ q
    rw [hme]
    exact fun q => ⟨by rw [h1]; exact q.1, by rw [h2]; exact q.2.1, by rw [h3]; exact q.2.2⟩
  obtain ⟨k, a, v, u, p, st⟩ := finish_frame q'
  have hms := modMe_mySlot (s := s) hc hs
  have hso : (s.modMe g).slotOf (s.modMe g).cur.fib = s.slotOf s.cur.fib := modMe_slotOf_of (s := s) hc hs
  have ha := modMe_around (s := s) g
  have d := k.around
  refine ⟨⟨k.mem, ?_, ?_, ?_, ?_, ?_, ?_⟩, ?_, ?_⟩
  · refine ⟨fun f hf => (d.fibres f hf).trans (ha.fibres f hf), fun k hk => (d.slots k ?_).trans (ha.slots k hk), d.cores, d.wgs, d.launches, d.ctxs, d.dev,
      d.agenda, d.cur, d.clock, d.turn, d.tick⟩
    rw [hso]; exact hk
  · have := k.slot; rw [hms] at this; exact this
  · intro ph l hl; rw [v ph l hl, hms]
  · intro n; rw [u n]; unfold State.ru; rw [hme, hu]
  · intro n l hl; rw [p n l hl]; unfold State.rp State.predMask; rw [hme, hp]
  · have := st; unfold StatusKept at this ⊢; rw [this, hme, hf]
  · unfold Advanced at a ⊢; rw [a, hme, State.modMe_cur]; exact advance_frontier h2 (by rw [h2]; exact q.1.2.1)
  · have := k.fibre; rw [hme] at this; exact this

end Machine

end Sys2Proof
end

