-- ==== Sys2Proof/Laws/Integer.lean ====
section
/-! SUPPORT. The integer operations of the machine in the words of R83 to R89: exact products, truncating division, shifts and fields by their bits. -/

namespace Sys2Proof

namespace Machine

variable {w : Nat} (a b d : BitVec w)

theorem mulhU_eq : mulhU w a b = (a.setWidth (2 * w) * b.setWidth (2 * w)).extractLsb' w w := by
  apply BitVec.eq_of_toNat_eq
  have ha := a.isLt
  have hb := b.isLt
  have hp : a.toNat * b.toNat < 2 ^ (2 * w) := by rw [Nat.two_mul, Nat.pow_add]; exact Nat.mul_lt_mul'' ha hb
  have h2 : 2 ^ w ≤ 2 ^ (2 * w) := Nat.pow_le_pow_right (by decide) (by omega)
  simp only [mulhU, BitVec.toNat_ofNat, BitVec.extractLsb'_toNat, BitVec.toNat_mul, BitVec.toNat_setWidth, Nat.shiftRight_eq_div_pow]
  rw [Nat.mod_eq_of_lt (a := a.toNat) (by omega), Nat.mod_eq_of_lt (a := b.toNat) (by omega), Nat.mod_eq_of_lt hp]

theorem ediv_emod_pow (p : Int) (w : Nat) :
    (p / ((2 ^ w : Nat) : Int)) % ((2 ^ w : Nat) : Int) = (p % ((2 ^ (2 * w) : Nat) : Int)) / ((2 ^ w : Nat) : Int) := by
  have h2 : ((2 ^ (2 * w) : Nat) : Int) = ((2 ^ w : Nat) : Int) * ((2 ^ w : Nat) : Int) := by
    rw [Nat.two_mul, Nat.pow_add]; push_cast; rfl
  have hm : ((2 ^ w : Nat) : Int) ≠ 0 := by have := Nat.two_pow_pos w; omega
  have h0 : (0 : Int) ≤ ((2 ^ w : Nat) : Int) := Int.natCast_nonneg _
  rw [h2, Int.emod_def, Int.emod_def, ← Int.ediv_ediv_of_nonneg h0]
  have : p - ((2 ^ w : Nat) : Int) * ((2 ^ w : Nat) : Int) * (p / ((2 ^ w : Nat) : Int) / ((2 ^ w : Nat) : Int))
      = p + ((2 ^ w : Nat) : Int) * (-(((2 ^ w : Nat) : Int) * (p / ((2 ^ w : Nat) : Int) / ((2 ^ w : Nat) : Int)))) := by ring
  rw [this, Int.add_mul_ediv_left _ _ hm]
  ring

theorem mulhS_eq : mulhS w a b = (a.signExtend (2 * w) * b.signExtend (2 * w)).extractLsb' w w := by
  apply BitVec.eq_of_toNat_eq
  have h1 : (a.signExtend (2 * w) * b.signExtend (2 * w)) = BitVec.ofInt (2 * w) (a.toInt * b.toInt) := by
    rw [BitVec.ofInt_mul]; rfl
  rw [h1]
  simp only [mulhS, BitVec.toNat_ofInt, BitVec.extractLsb'_toNat, Nat.shiftRight_eq_div_pow]
  have hp : (0 : Int) < ((2 ^ w : Nat) : Int) := by exact_mod_cast Nat.two_pow_pos w
  have h3 := ediv_emod_pow (a.toInt * b.toInt) w
  have h4 : 0 ≤ (a.toInt * b.toInt) % ((2 ^ (2 * w) : Nat) : Int) := Int.emod_nonneg _ (by have := Nat.two_pow_pos (2 * w); omega)
  have h5 := Int.emod_lt_of_pos (a.toInt * b.toInt) (b := ((2 ^ (2 * w) : Nat) : Int)) (by have := Nat.two_pow_pos (2 * w); omega)
  rw [h3]
  obtain ⟨n, hn⟩ := Int.eq_ofNat_of_zero_le h4
  rw [hn] at h5 ⊢
  have h6 : n / 2 ^ w < 2 ^ w := by
    rw [Nat.div_lt_iff_lt_mul (Nat.two_pow_pos w), ← Nat.pow_add, ← Nat.two_mul]; exact_mod_cast h5
  rw [Int.toNat_natCast, Nat.mod_eq_of_lt h6]
  norm_cast

theorem divS_eq : divS w a b = if b = 0 then BitVec.allOnes w else a.sdiv b := by
  unfold divS
  split
  · rfl
  · apply BitVec.eq_of_toInt_eq
    rw [BitVec.toInt_sdiv, BitVec.toInt_ofInt]

theorem divU_eq : divU w a b = if b = 0 then BitVec.allOnes w else a.udiv b := by
  unfold divU
  split
  · rfl
  · apply BitVec.eq_of_toNat_eq
    rw [BitVec.toNat_ofNat]
    exact Nat.mod_eq_of_lt (Nat.lt_of_le_of_lt (Nat.div_le_self _ _) a.isLt)

theorem remS_eq : remS w a b = if b = 0 then a else a.srem b := by
  unfold remS
  split
  · rfl
  · apply BitVec.eq_of_toInt_eq
    rw [BitVec.toInt_ofInt, ← BitVec.toInt_srem, BitVec.toInt_bmod_cancel]

theorem remU_eq : remU w a b = if b = 0 then a else a.umod b := by
  unfold remU
  split
  · rfl
  · apply BitVec.eq_of_toNat_eq
    rw [BitVec.toNat_ofNat]
    exact Nat.mod_eq_of_lt (Nat.lt_of_le_of_lt (Nat.mod_le _ _) a.isLt)

theorem shlOp_eq (c : Nat) : shlOp w a c = a <<< c := by
  unfold shlOp; split
  · rename_i h; exact (BitVec.shiftLeft_eq_zero h).symm
  · rfl

theorem shrOp_eq (c : Nat) : shrOp w a c = a >>> c := by
  unfold shrOp; split
  · rename_i h; exact (BitVec.ushiftRight_eq_zero h).symm
  · rfl

theorem sarOp_eq (c : Nat) : sarOp w a c = a.sshiftRight c := by
  unfold sarOp; split
  · rename_i h
    apply BitVec.eq_of_getLsbD_eq
    intro i hi
    rw [BitVec.getLsbD_sshiftRight]
    have : ¬ c + i < w := by omega
    split <;> simp_all
  · rfl

theorem rotlOp_eq (c : Nat) : rotlOp w a c = a <<< (c % w) ||| a >>> (w - c % w) := by
  unfold rotlOp BitVec.rotateLeft BitVec.rotateLeftAux
  rw [Nat.mod_mod]

theorem popcOp_eq : popcOp w a = BitVec.ofNat w ((List.range w).countP (fun i => a.getLsbD i)) := by
  unfold popcOp popcount
  rw [List.countP_eq_length_filter]
  rfl

theorem brevOp_eq : brevOp w a = BitVec.ofFnLE (fun i : Fin w => a.getLsbD (w - 1 - i.val)) := by
  apply BitVec.eq_of_getLsbD_eq
  intro i hi
  unfold brevOp
  rw [BitVec.getLsbD_reverse, BitVec.getMsbD_eq_getLsbD, BitVec.getLsbD_ofFnLE]
  simp [hi]

theorem absOp_eq : absOp w a = BitVec.ofInt w a.toInt.natAbs := by
  unfold absOp
  apply BitVec.eq_of_toNat_eq
  rw [BitVec.toNat_ofInt]
  have hp := Nat.two_pow_pos w
  have ha := a.isLt
  by_cases h : a.msb = true
  · have ht : a.toInt = (a.toNat : Int) - ((2 ^ w : Nat) : Int) := by rw [BitVec.toInt_eq_msb_cond, if_pos h]
    have hn : a.toInt.natAbs = 2 ^ w - a.toNat := by omega
    rw [if_pos h, BitVec.toNat_neg, hn]
    norm_cast
  · have ht : a.toInt = (a.toNat : Int) := by rw [BitVec.toInt_eq_msb_cond, if_neg h]
    have hn : a.toInt.natAbs = a.toNat := by omega
    rw [if_neg h, hn]
    norm_cast
    exact (Nat.mod_eq_of_lt ha).symm

theorem takeWhile_range_length (p : Nat → Bool) (n k : Nat) (hk : k < n) (h1 : ∀ i, i < k → p i = true) (h2 : p k = false) :
    ((List.range n).takeWhile p).length = k := by
  have : List.range n = List.range k ++ k :: (List.range (n - k - 1)).map (fun i => k + 1 + i) := by
    apply List.ext_getElem
    · simp; omega
    · intro i hi hj
      simp only [List.getElem_range, List.getElem_append, List.length_range]
      split
      · rfl
      · rename_i h
        rcases Nat.eq_or_lt_of_le (Nat.le_of_not_lt h) with h' | h'
        · subst h'; simp
        · rw [List.getElem_cons]
          split
          · omega
          · simp; omega
  rw [this, List.takeWhile_append_of_pos (fun i hi => h1 i (List.mem_range.mp hi))]
  simp [h2]

theorem clzOp_eq : clzOp w a = BitVec.ofNat w ((List.range w).takeWhile (fun i => !a.getLsbD (w - 1 - i))).length := by
  unfold clzOp
  split
  · rename_i h
    subst h
    rw [List.takeWhile_eq_self_iff.mpr (by simp)]
    simp
  · rename_i h
    have hn : a.toNat ≠ 0 := fun h' => h (BitVec.eq_of_toNat_eq (by simpa using h'))
    have hl : Nat.log2 a.toNat < w := (Nat.log2_lt hn).mpr a.isLt
    congr 1
    symm
    apply takeWhile_range_length
    · omega
    · intro i hi
      simp only [BitVec.getLsbD, Bool.not_eq_true']
      apply Nat.testBit_lt_two_pow
      have : a.toNat < 2 ^ (Nat.log2 a.toNat + 1) := Nat.lt_log2_self
      exact Nat.lt_of_lt_of_le this (Nat.pow_le_pow_right (by decide) (by omega))
    · have : w - 1 - (w - 1 - Nat.log2 a.toNat) = Nat.log2 a.toNat := by omega
      simp only [this, BitVec.getLsbD, Bool.not_eq_false']
      exact Nat.testBit_log2 hn

/-- The carry-out is bit `w` of the exact sum (R82). -/
theorem carryOut_eq (c : Bool) : carryOut w a b c = (a.toNat + b.toNat + c.toNat).testBit w := by
  unfold carryOut
  have hx := a.isLt
  have hy := b.isLt
  have hc := c.toNat_lt
  have : a.toNat + b.toNat + c.toNat < 2 ^ (w + 1) := by rw [Nat.pow_succ]; omega
  by_cases h : 2 ^ w ≤ a.toNat + b.toNat + c.toNat
  · rw [decide_eq_true h, Nat.testBit_of_two_pow_le_and_two_pow_add_one_gt h this]
  · rw [decide_eq_false h, Nat.testBit_lt_two_pow (by omega)]

theorem carryIn_eq (c : Bool) : BitVec.ofNat w c.toNat = (BitVec.ofBool c).setWidth w := by
  apply BitVec.eq_of_toNat_eq; cases c <;> simp

theorem minS_eq : (if b.slt a then b else a) = if a.sle b then a else b := by
  simp only [BitVec.sle_eq_not_slt]
  cases b.slt a <;> simp

theorem minU_eq : (if b.ult a then b else a) = if a.ule b then a else b := by
  simp only [BitVec.ule_eq_not_ult]
  cases b.ult a <;> simp

theorem maxS_eq : (if a.slt b then b else a) = if a.sle b then b else a := by
  by_cases h : a = b
  · subst h; simp
  · rw [BitVec.sle_eq_slt_or_eq]; simp [h]

theorem maxU_eq : (if a.ult b then b else a) = if a.ule b then b else a := by
  by_cases h : a = b
  · subst h; simp
  · have hn : a.toNat ≠ b.toNat := fun h' => h (BitVec.eq_of_toNat_eq h')
    have : a.ule b = a.ult b := by
      simp only [BitVec.ule, BitVec.ult]; by_cases h2 : a.toNat < b.toNat <;> simp [h2] <;> omega
    rw [this]

/-! ### Fields and bytes by their bits -/

theorem bits_testBit (x hi lo i : Nat) : (bits x hi lo).testBit i = (decide (i < hi + 1 - lo) && x.testBit (lo + i)) := by
  unfold bits
  rw [Nat.testBit_mod_two_pow, Nat.testBit_div_two_pow, Nat.add_comm i lo]

theorem bits_lt (x hi lo : Nat) : bits x hi lo < 2 ^ (hi + 1 - lo) := Nat.mod_lt _ (Nat.two_pow_pos _)

theorem bits_eq_extract (x : BitVec w) (pos len : Nat) (h : len ≠ 0) : bits x.toNat (pos + len - 1) pos = (x.extractLsb' pos len).toNat := by
  rw [BitVec.extractLsb'_toNat, Nat.shiftRight_eq_div_pow]
  unfold bits
  congr 2
  omega

theorem toSigned_toNat {n : Nat} (x : BitVec n) : toSigned n x.toNat = x.toInt := by
  unfold toSigned
  rw [Nat.mod_eq_of_lt x.isLt, BitVec.toInt_eq_msb_cond, BitVec.msb_eq_decide]
  by_cases h : x.toNat < 2 ^ (n - 1)
  · rw [if_pos h, if_neg (by simp; omega)]
  · rw [if_neg h, if_pos (by simp; omega)]

theorem bfxOp_signed : bfxOp true w a b =
    (let pos := b.toNat % 256
     let len := min (b.toNat / 256 % 256) (w - pos)
     if len = 0 ∨ w ≤ pos then 0 else (a.extractLsb' pos len).signExtend w) := by
  unfold bfxOp fieldLen fieldPos
  dsimp only
  split
  · rfl
  · rename_i h
    rw [not_or] at h
    rw [if_pos rfl, bits_eq_extract _ _ _ h.1, toSigned_toNat]
    rfl

theorem bfxOp_unsigned : bfxOp false w a b =
    (let pos := b.toNat % 256
     let len := min (b.toNat / 256 % 256) (w - pos)
     if len = 0 ∨ w ≤ pos then 0 else (a.extractLsb' pos len).setWidth w) := by
  unfold bfxOp fieldLen fieldPos
  dsimp only
  split
  · rfl
  · rename_i h
    rw [not_or] at h
    rw [if_neg (by decide), bits_eq_extract _ _ _ h.1]
    apply BitVec.eq_of_toNat_eq
    simp

theorem bfiOp_eq : bfiOp w a b d =
    (let pos := b.toNat % 256
     let len := min (b.toNat / 256 % 256) (w - pos)
     BitVec.ofFnLE (fun i : Fin w => if pos ≤ i.val ∧ i.val < pos + len then a.getLsbD (i.val - pos) else d.getLsbD i.val)) := by
  unfold bfiOp fieldLen fieldPos
  dsimp only
  generalize b.toNat % 256 = pos
  generalize hlen : min (b.toNat / 256 % 256) (w - pos) = len
  apply BitVec.eq_of_getLsbD_eq
  intro i hi
  rw [BitVec.getLsbD_ofFnLE]
  simp only [hi, dite_true]
  split
  · rename_i h
    rw [if_neg]
    rcases h with h | h <;> omega
  · rename_i h
    rw [not_or] at h
    have hsub : d.toNat - bits d.toNat (pos + len - 1) pos * 2 ^ pos + a.toNat % 2 ^ len * 2 ^ pos
        = (d.toNat / 2 ^ (pos + len)) * 2 ^ (pos + len) + ((a.toNat % 2 ^ len) * 2 ^ pos + d.toNat % 2 ^ pos) := by
      have hb : bits d.toNat (pos + len - 1) pos = d.toNat / 2 ^ pos % 2 ^ len := by unfold bits; congr 2; omega
      have h1 := Nat.div_add_mod d.toNat (2 ^ pos)
      have h2 := Nat.div_add_mod (d.toNat / 2 ^ pos) (2 ^ len)
      rw [Nat.div_div_eq_div_mul, ← Nat.pow_add] at h2
      rw [hb]
      generalize d.toNat / 2 ^ pos % 2 ^ len = m at *
      generalize d.toNat / 2 ^ pos = q at *
      generalize d.toNat / 2 ^ (pos + len) = r at *
      generalize d.toNat % 2 ^ pos = z at *
      have h3 : d.toNat = 2 ^ pos * (2 ^ len * r) + m * 2 ^ pos + z := by rw [← h1, ← h2]; ring
      have h4 : r * (2 ^ pos * 2 ^ len) = 2 ^ pos * (2 ^ len * r) := by ring
      rw [Nat.pow_add, h4]
      omega
    rw [hsub]
    have hlt1 : d.toNat % 2 ^ pos < 2 ^ pos := Nat.mod_lt _ (Nat.two_pow_pos _)
    have hlt2 : (a.toNat % 2 ^ len) * 2 ^ pos + d.toNat % 2 ^ pos < 2 ^ (pos + len) := by
      have : a.toNat % 2 ^ len < 2 ^ len := Nat.mod_lt _ (Nat.two_pow_pos _)
      rw [Nat.pow_add, Nat.mul_comm (2 ^ pos)]
      nlinarith [Nat.two_pow_pos pos]
    rw [BitVec.getLsbD_ofNat]
    simp only [hi, decide_true, Bool.true_and]
    rw [Nat.mul_comm (d.toNat / 2 ^ (pos + len)), Nat.testBit_two_pow_mul_add _ hlt2, Nat.mul_comm (a.toNat % 2 ^ len), Nat.testBit_two_pow_mul_add _ hlt1]
    by_cases c1 : i < pos
    · rw [if_pos (by omega), if_pos c1, if_neg (by omega), Nat.testBit_mod_two_pow]
      simp [c1]; rfl
    · by_cases c2 : i < pos + len
      · rw [if_pos c2, if_neg c1, if_pos (by omega), Nat.testBit_mod_two_pow]
        simp [show i - pos < len by omega]; rfl
      · rw [if_neg c2, if_neg (by omega), Nat.testBit_div_two_pow]
        rw [show i - (pos + len) + (pos + len) = i by omega]; rfl

/-- A bit of the number that a list of bytes holds. -/
theorem ofBytes_testBit (l : List Byte) (i : Nat) : (ofBytes l).testBit i = (l.getD (i / 8) 0).getLsbD (i % 8) := by
  induction l generalizing i with
  | nil => simp [ofBytes]
  | cons x l ih =>
    have hx : x.toNat < 2 ^ 8 := x.isLt
    rw [ofBytes, Nat.add_comm, show 256 * ofBytes l = 2 ^ 8 * ofBytes l from rfl, Nat.testBit_two_pow_mul_add _ hx]
    by_cases h : i < 8
    · rw [if_pos h, Nat.div_eq_of_lt h, Nat.mod_eq_of_lt h]; rfl
    · rw [if_neg h, ih, show i / 8 = (i - 8) / 8 + 1 by omega, show (i - 8) % 8 = i % 8 by omega]; rfl

theorem prmtByte_testBit (src : BitVec (2 * w)) (idx : Nat) (sel : BitVec 8) (k : Nat) (hk : k < 8) :
    (prmtByte src.toNat idx sel.toNat).testBit k =
      if sel.getLsbD 4 then false else if sel.getLsbD 5 then (src.extractLsb' (8 * idx) 8).getLsbD 7 else (src.extractLsb' (8 * idx) 8).getLsbD k := by
  unfold prmtByte
  have hb : ∀ j, j < 8 → (src.toNat / 2 ^ (8 * idx) % 256).testBit j = (src.extractLsb' (8 * idx) 8).getLsbD j := by
    intro j hj
    rw [show (256 : Nat) = 2 ^ 8 from rfl, Nat.testBit_mod_two_pow, Nat.testBit_div_two_pow, BitVec.getLsbD_extractLsb', Nat.add_comm]
    rfl
  dsimp only
  rw [hb 7 (by decide)]
  simp only [BitVec.getLsbD]
  split
  · simp
  · split
    · split
      · rename_i h1 h2 h3
        have h4 : Nat.testBit 255 k = true := by
          have : k = 0 ∨ k = 1 ∨ k = 2 ∨ k = 3 ∨ k = 4 ∨ k = 5 ∨ k = 6 ∨ k = 7 := by omega
          rcases this with h | h | h | h | h | h | h | h <;> subst h <;> decide
        rw [h4]; exact h3.symm
      · rename_i h1 h2 h3
        rw [Nat.zero_testBit]; exact (Bool.not_eq_true _ ▸ h3).symm
    · exact hb k hk

theorem prmtOp_eq (h8 : w % 8 = 0) : prmtOp w a b d =
    BitVec.ofFnLE (fun i : Fin w =>
      let sel := d.extractLsb' (8 * (i.val / 8)) 8
      let src := (b ++ a).extractLsb' (8 * (sel.toNat % (w / 4))) 8
      if sel.getLsbD 4 then false else if sel.getLsbD 5 then src.getLsbD 7 else src.getLsbD (i.val % 8)) := by
  have hsrc : a.toNat + b.toNat * 2 ^ w = ((b ++ a).setWidth (2 * w)).toNat := by
    rw [BitVec.toNat_setWidth, BitVec.toNat_append, Nat.mod_eq_of_lt, ← Nat.shiftLeft_add_eq_or_of_lt a.isLt, Nat.shiftLeft_eq, Nat.add_comm]
    rw [← BitVec.toNat_append]
    have := (b ++ a).isLt
    rw [Nat.two_mul]; exact this
  apply BitVec.eq_of_getLsbD_eq
  intro i hi
  rw [BitVec.getLsbD_ofFnLE]
  simp only [hi, dite_true]
  unfold prmtOp
  dsimp only
  rw [BitVec.getLsbD_ofNat, ofBytes_testBit, hsrc]
  have hlt : i / 8 < w / 8 := by omega
  rw [List.getD_eq_getElem?_getD, List.getElem?_map, List.getElem?_range hlt]
  simp only [hi, decide_true, Bool.true_and, Option.map_some, Option.getD_some]
  have hsel : d.toNat / 2 ^ (8 * (i / 8)) % 256 = (d.extractLsb' (8 * (i / 8)) 8).toNat := by
    rw [BitVec.extractLsb'_toNat, Nat.shiftRight_eq_div_pow]
  rw [hsel, BitVec.getLsbD_ofNat, prmtByte_testBit _ _ _ _ (by omega)]
  have hex : ∀ n, ((b ++ a).setWidth (2 * w)).extractLsb' n 8 = (b ++ a).extractLsb' n 8 := by
    intro n
    apply BitVec.eq_of_getLsbD_eq
    intro j hj
    simp only [BitVec.getLsbD_extractLsb', BitVec.getLsbD_setWidth]
    by_cases h : n + j < 2 * w
    · simp [h]
    · rw [BitVec.getLsbD_of_ge (b ++ a) (n + j) (by omega)]; simp
  rw [hex]
  simp [show i % 8 < 8 by omega]

/-! ### Conversion and comparison -/

theorem toSigned_eq (n : Nat) (x : Word64) : toSigned n x.toNat = (x.setWidth n).toInt := by
  rw [← toSigned_toNat, BitVec.toNat_setWidth]
  unfold toSigned
  rw [Nat.mod_mod]

theorem icvtRead_eq (c : BitVec 4) (x : Word64) : icvtRead c.toNat x.toNat = intTypeValue c x := by
  unfold icvtRead intTypeValue icvtSigned icvtWidth
  dsimp only
  by_cases h : c.toNat < 4
  · simp only [h, decide_true, if_true, toSigned_eq _ _]
  · simp only [h, decide_false, if_false, BitVec.toNat_setWidth]; simp

theorem icvtOp_eq (sat : Bool) (src dst : BitVec 4) (x : Word64) : icvtOp sat src.toNat dst.toNat x.toNat = icvtSpec sat src dst x := by
  unfold icvtOp icvtSpec
  dsimp only
  rw [icvtRead_eq src x]
  generalize intTypeValue src x = v
  have hc : dst.toNat % 4 = 0 ∨ dst.toNat % 4 = 1 ∨ dst.toNat % 4 = 2 ∨ dst.toNat % 4 = 3 := by omega
  have key : ∀ y : Int, icvtRead dst.toNat (wrap (icvtWidth dst.toNat) y) = intTypeValue dst (BitVec.ofInt 64 y) := by
    intro y
    rw [← icvtRead_eq]
    have hm : wrap (icvtWidth dst.toNat) y % 2 ^ icvtWidth dst.toNat = (BitVec.ofInt 64 y).toNat % 2 ^ icvtWidth dst.toNat := by
      rw [BitVec.toNat_ofInt]
      unfold wrap icvtWidth
      rcases hc with h | h | h | h <;> rw [h] <;> norm_num <;> omega
    unfold icvtRead toSigned
    rw [hm]
  rw [key]
  congr 3
  cases sat
  · rfl
  · simp only [if_true]
    have hlo : (if icvtSigned dst.toNat = true then -((2 ^ (icvtWidth dst.toNat - 1) : Nat) : Int) else 0)
        = if dst.toNat < 4 then -2 ^ (8 * 2 ^ (dst.toNat % 4) - 1) else 0 := by
      unfold icvtSigned icvtWidth; simp
    have hhi : (if icvtSigned dst.toNat = true then ((2 ^ (icvtWidth dst.toNat - 1) : Nat) : Int) - 1 else ((2 ^ icvtWidth dst.toNat : Nat) : Int) - 1)
        = if dst.toNat < 4 then 2 ^ (8 * 2 ^ (dst.toNat % 4) - 1) - 1 else 2 ^ (8 * 2 ^ (dst.toNat % 4)) - 1 := by
      unfold icvtSigned icvtWidth; simp
    rw [hlo, hhi]
    rcases hc with h | h | h | h <;> rw [h] <;> norm_num <;> split <;> split <;> (try split) <;> omega

theorem cmpCond_eq (c : BitVec 4) : cmpCond c.toNat a b = comparison c a b := by
  unfold cmpCond comparison
  generalize c.toNat = n
  match n with
  | 0 => exact beq_eq_decide a b
  | 1 => simp [bne, beq_eq_decide]
  | 2 | 3 | 4 | 5 | 6 | 7 | 8 | _ + 9 => simp [BitVec.slt, BitVec.sle, BitVec.ult, BitVec.ule]

/-! ### Lanes -/

theorem shflLane_eq (m : BitVec 2) (l : Nat) (k : Word) (hl : l < 32) :
    shflLane m.toNat l k = if 0 ≤ shflSource m l k ∧ shflSource m l k ≤ 31 then some (shflSource m l k).toNat else none := by
  have hk : k.toNat % 32 < 32 := Nat.mod_lt _ (by decide)
  have hx : l ^^^ (k.toNat % 32) < 2 ^ 5 := Nat.xor_lt_two_pow hl hk
  have hm : m.toNat < 4 := m.isLt
  unfold shflLane shflSource
  generalize m.toNat = n at *
  match n with
  | 0 => exact (if_pos (by constructor <;> omega : (0 : Int) ≤ (k.toNat % 32 : Nat) ∧ ((k.toNat % 32 : Nat) : Int) ≤ 31)).symm
  | 1 =>
    have he : (l + k.toNat % 32) % 32 = (l + k.toNat) % 32 := by omega
    rw [← he]
    exact (if_pos (by constructor <;> omega : (0 : Int) ≤ ((l + k.toNat % 32) % 32 : Nat) ∧ (((l + k.toNat % 32) % 32 : Nat) : Int) ≤ 31)).symm
  | 2 => rfl
  | 3 => exact (if_pos (by constructor <;> omega : (0 : Int) ≤ (l ^^^ (k.toNat % 32) : Nat) ∧ ((l ^^^ (k.toNat % 32) : Nat) : Int) ≤ 31)).symm

theorem reduxOp_eq (o : BitVec 3) : reduxOp o.toNat = reduction o := by
  funext x y
  unfold reduxOp reduction
  generalize o.toNat = n
  match n with
  | 0 | 5 | 6 | _ + 7 => rfl
  | 1 => simp only [BitVec.slt, decide_eq_true_eq]; by_cases h : x.toInt ≤ y.toInt <;> simp [h]
  | 2 =>
    simp only [BitVec.slt, decide_eq_true_eq]
    by_cases h : x.toInt ≤ y.toInt
    · simp only [h, if_true]
      split
      · rfl
      · exact BitVec.eq_of_toInt_eq (by omega)
    · simp [h]; omega
  | 3 => simp only [BitVec.ult, decide_eq_true_eq]; by_cases h : x.toNat ≤ y.toNat <;> simp [h]
  | 4 =>
    simp only [BitVec.ult, decide_eq_true_eq]
    by_cases h : x.toNat ≤ y.toNat
    · simp only [h, if_true]
      split
      · rfl
      · exact BitVec.eq_of_toNat_eq (by omega)
    · simp [h]; omega

end Machine

end Sys2Proof
end

