-- ==== Sys2Proof/Laws/Memory.lean ====
section
/-! SUPPORT. Memory: what a read gives after a write, and that every memory operation, and every shared operation of an instruction, keeps the
canonical form. -/

namespace Sys2Proof

namespace Machine

/-! ### Bytes -/

section
variable {m : List Host.Cell} {k j n : Nat} {b : Byte} {l : List Byte}

@[simp] theorem rd8_nil : rd8 [] k = 0 := rfl

theorem rd8_wr8 : rd8 (wr8 m k b) j = if j = k then b else rd8 m j := Sparse.get_set

@[simp] theorem rd8_wr8_self : rd8 (wr8 m k b) k = b := Sparse.get_set_self

theorem rd8_wr8_ne (h : j ≠ k) : rd8 (wr8 m k b) j = rd8 m j := Sparse.get_set_ne h

/-- A read after a write of several bytes: the byte written there, or the old one. -/
theorem rd8_wrBytes : rd8 (wrBytes m k l) j = if k ≤ j ∧ j < k + l.length then l.getD (j - k) 0 else rd8 m j := by
  induction l generalizing m k with
  | nil => simp only [wrBytes, List.length_nil]; rw [if_neg (by omega)]
  | cons b l ih =>
    simp only [wrBytes, ih, List.length_cons]
    by_cases h : j = k
    · subst h; simp
    · by_cases h1 : k + 1 ≤ j ∧ j < k + 1 + l.length
      · rw [if_pos h1, if_pos (by omega), show j - k = (j - (k + 1)) + 1 by omega, List.getD_cons_succ]
      · rw [if_neg h1, if_neg (by omega), rd8_wr8_ne h]

theorem rd8_wrBytes_out (h : j < k ∨ k + l.length ≤ j) : rd8 (wrBytes m k l) j = rd8 m j := by
  rw [rd8_wrBytes, if_neg (by omega)]

/-- Reading back what was written. -/
theorem rdBytes_wrBytes : rdBytes (wrBytes m k l) k l.length = l := by
  apply List.ext_getElem
  · simp [rdBytes]
  · intro i h1 h2
    simp only [rdBytes, List.getElem_map, List.getElem_range, rd8_wrBytes]
    rw [if_pos (by omega), Nat.add_sub_cancel_left, List.getD_eq_getElem _ _ h2]

theorem rdBytes_wrBytes_out (h : j + n ≤ k ∨ k + l.length ≤ j) : rdBytes (wrBytes m k l) j n = rdBytes m j n := by
  apply List.map_congr_left
  intro i hi
  rw [List.mem_range] at hi
  exact rd8_wrBytes_out (by omega)

theorem get_filter {p : Nat → Bool} : Sparse.get (0 : Byte) j (m.filter (fun e => p e.1)) = if p j then Sparse.get 0 j m else 0 := by
  induction m with
  | nil => simp [Sparse.get]
  | cons e m ih =>
    obtain ⟨i, v⟩ := e
    cases h : p i
    · rw [List.filter_cons_of_neg (by simpa using h), ih]
      simp only [Sparse.get]
      by_cases hj : j = i
      · subst hj; simp [h]
      · rw [if_neg hj]
    · rw [List.filter_cons_of_pos (by simpa using h)]
      simp only [Sparse.get]
      by_cases hj : j = i
      · subst hj; simp [h]
      · rw [if_neg hj, if_neg hj]; exact ih

/-- A read after clearing: 0 inside the range, the old byte outside. -/
theorem rd8_clearBytes : rd8 (clearBytes m k n) j = if k ≤ j ∧ j < k + n then 0 else rd8 m j := by
  unfold rd8 clearBytes
  rw [get_filter (p := fun i => decide (i < k) || decide (k + n ≤ i))]
  by_cases h : k ≤ j ∧ j < k + n
  · rw [if_neg (by simp; omega), if_pos h]
  · rw [if_pos (by simp; omega), if_neg h]

/-! ### The canonical form -/

theorem wfFrom_filter {p : Host.Cell → Bool} {lo : Nat} (h : Sparse.wfFrom (0 : Byte) lo m = true) : Sparse.wfFrom (0 : Byte) lo (m.filter p) = true := by
  induction m generalizing lo with
  | nil => rfl
  | cons e m ih =>
    obtain ⟨i, v⟩ := e
    simp only [Sparse.wfFrom, Bool.and_eq_true, decide_eq_true_eq] at h
    rw [List.filter_cons]
    split
    · simp only [Sparse.wfFrom, Bool.and_eq_true, decide_eq_true_eq]
      exact ⟨h.1, ih h.2⟩
    · exact Sparse.wfFrom_mono (ih h.2) (by omega)

/-- Leaving entries out keeps the canonical form. -/
theorem wf_filter {p : Host.Cell → Bool} (h : Memory.wf m = true) : Memory.wf (m.filter p) = true := wfFrom_filter h

theorem wf_wr8 (h : Memory.wf m = true) : Memory.wf (wr8 m k b) = true := Sparse.wf_set h

theorem wf_wrBytes (h : Memory.wf m = true) : Memory.wf (wrBytes m k l) = true := by
  induction l generalizing m k with
  | nil => exact h
  | cons b l ih => exact ih (wf_wr8 h)

theorem wf_clearBytes (h : Memory.wf m = true) : Memory.wf (clearBytes m k n) = true := wf_filter h

theorem wf_outsideMem (h : Memory.wf m = true) : Memory.wf (outsideMem m) = true := wf_filter h

/-- A fold whose every step keeps the canonical form keeps it. -/
theorem wf_foldl {α : Type} {f : List Host.Cell → α → List Host.Cell} {xs : List α} (hf : ∀ a x, Memory.wf a = true → Memory.wf (f a x) = true)
    (h : Memory.wf m = true) : Memory.wf (xs.foldl f m) = true := by
  induction xs generalizing m with
  | nil => exact h
  | cons x xs ih => exact ih (hf m x h)

theorem wf_moveBytes (h : Memory.wf m = true) : Memory.wf (moveBytes m k j n) = true :=
  wf_foldl (fun _ _ h => wf_wr8 h) (wf_clearBytes (wf_clearBytes h))

theorem wf_copyBytes (h : Memory.wf m = true) : Memory.wf (copyBytes m k j n) = true :=
  wf_foldl (fun _ _ h => wf_wr8 h) (wf_clearBytes h)

theorem wf_reset : Memory.wf State.reset.mem = true := rfl

end

/-! ### Writes at the home -/

section
variable {s : State} {k n pasid va : Nat} {data : List Byte}

theorem State.writeSector_wf (h : Memory.wf s.mem = true) : Memory.wf (s.writeSector k data).mem = true := by
  unfold State.writeSector
  split
  · exact h
  · split
    · split
      · exact wf_wrBytes h
      · exact h
    · exact wf_wrBytes h

/-- A peer is out of reach for every byte of a sector or for none. -/
theorem State.peerCut_sector : s.peerCut (64 * (k / 64)) = s.peerCut k := by
  have e : 64 * (k / 64) / 2 ^ 64 = k / 2 ^ 64 := by omega
  unfold State.peerCut isPeer keyOf
  rw [e]

/-- A sector that is not bad lies in memory that can be reached. -/
theorem State.peerCut_good (h : s.sectorBad (sectorOf k) = false) : s.peerCut k = false := by
  unfold State.sectorBad sectorOf at h
  rw [peerCut_sector] at h
  simp_all

/-- A write of one good sector puts its bytes and nothing else. -/
theorem State.writeSector_good (h : s.sectorBad (sectorOf k) = false) : (s.writeSector k data).mem = wrBytes s.mem k data := by
  simp [State.writeSector, h, peerCut_good h]

theorem State.homeWriteN_wf (h : Memory.wf s.mem = true) : Memory.wf (State.homeWriteN n s k data).mem = true := by
  induction n generalizing s k data with
  | zero => exact h
  | succ n ih =>
    unfold State.homeWriteN
    split
    · exact h
    · exact ih (writeSector_wf h)

theorem State.homeWrite_wf (h : Memory.wf s.mem = true) : Memory.wf (s.homeWrite k data).mem = true := homeWriteN_wf h

/-- A write at the home touches no byte outside its range. -/
theorem State.homeWriteN_out {j : Nat} (h : j < k ∨ k + data.length ≤ j) : rd8 (State.homeWriteN n s k data).mem j = rd8 s.mem j := by
  induction n generalizing s k data with
  | zero => rfl
  | succ n ih =>
    unfold State.homeWriteN
    split
    · rfl
    · rename_i hd
      have hk : 64 - k % 64 ≤ 64 := by omega
      have step : rd8 (s.writeSector k (data.take (64 - k % 64))).mem j = rd8 s.mem j := by
        unfold State.writeSector
        have ho : rd8 (wrBytes s.mem k (data.take (64 - k % 64))) j = rd8 s.mem j := rd8_wrBytes_out (by simp [List.length_take]; omega)
        split
        · rfl
        · split
          · split
            · exact ho
            · rfl
          · exact ho
      simp only
      by_cases hl : data.length ≤ 64 - k % 64
      · rw [List.drop_eq_nil_of_le hl, ih (by simp; omega), step]
      · rw [ih (by simp; omega), step]

@[simp] theorem State.logEvent_mem {x : LogKind} {a d : Nat} : (s.logEvent x a d).mem = s.mem := by
  unfold State.logEvent
  dsimp only
  rw [modDev_mem]
  rfl

/-- A fold whose every step leaves memory alone leaves it alone. -/
theorem foldl_mem {α : Type} {g : State → α → State} {xs : List α} (hg : ∀ t x, (g t x).mem = t.mem) : (xs.foldl g s).mem = s.mem := by
  induction xs generalizing s with
  | nil => rfl
  | cons x xs ih => rw [List.foldl_cons, ih, hg]

@[simp] theorem State.send_mem {x : Msg} : (s.send x).mem = s.mem := by
  unfold State.send
  split
  · rfl
  · split
    · rfl
    · split <;> rfl

@[simp] theorem State.reqPeer_mem {code : Nat} : (s.reqPeer code k).mem = s.mem := by
  unfold State.reqPeer
  split
  · exact send_mem
  · rfl

@[simp] theorem State.lockLine_mem {page : Nat} {leaf : Word64} : (s.lockLine page k leaf).mem = s.mem := by
  unfold State.lockLine
  dsimp only
  split
  · rfl
  · split
    · rfl
    · exact logEvent_mem

@[simp] theorem State.noteL2_mem {leaf : Word64} {c : Nat} {w : Bool} : (s.noteL2 leaf c w k n).mem = s.mem := by
  unfold State.noteL2
  split <;> rfl

@[simp] theorem State.touchPage_mem {page c : Nat} {leaf : Word64} {w : Bool} : (s.touchPage page c leaf w k n).mem = s.mem :=
  foldl_mem (fun _ _ => by rw [noteL2_mem, lockLine_mem])

@[simp] theorem State.hubTouch_mem {w : Bool} : (s.hubTouch pasid va w k n).mem = s.mem := by
  unfold State.hubTouch
  split
  · rw [reqPeer_mem, touchPage_mem]
  · rfl

theorem State.hubWrite_wf {t : State} (h : Memory.wf s.mem = true) (e : s.hubWrite pasid va data = some t) : Memory.wf t.mem = true := by
  unfold State.hubWrite at e
  obtain ⟨l, -, rfl⟩ := Option.map_eq_some_iff.mp e
  suffices H : ∀ (l : List (Nat × Nat)) (a : State × List Byte × Nat), Memory.wf a.1.mem = true →
      Memory.wf (l.foldl (fun (a : State × List Byte × Nat) p =>
        ((a.1.homeWrite p.1 (a.2.1.take p.2)).hubTouch pasid a.2.2 true p.1 p.2, a.2.1.drop p.2, a.2.2 + p.2)) a).1.mem = true from H l (s, data, va) h
  intro l
  induction l with
  | nil => exact fun _ h => h
  | cons p l ih => exact fun a h => ih _ (by rw [hubTouch_mem]; exact homeWrite_wf h)

theorem State.ringPut_wf {r r' : Ring} {t : State} (h : Memory.wf s.mem = true) (e : s.ringPut pasid r data = some (t, r')) : Memory.wf t.mem = true := by
  unfold State.ringPut at e
  split at e
  · cases e
  · obtain ⟨u, hu, he⟩ := Option.map_eq_some_iff.mp e
    cases he
    exact hubWrite_wf h hu

end

/-! ### Spans, reserves and packets -/

theorem State.copySpan_wf {s : State} {k j n : Nat} (h : Memory.wf s.mem = true) : Memory.wf (State.copySpan k j n s).mem = true := wf_copyBytes h

theorem State.pinSave_wf {s : State} {n : Nat} (h : Memory.wf s.mem = true) : Memory.wf (s.pinSave n).mem = true := by
  unfold State.pinSave
  split
  · exact h
  · exact copySpan_wf h

theorem State.pinLoad_wf {s : State} {p n : Nat} (h : Memory.wf s.mem = true) : Memory.wf (State.pinLoad p n s).mem = true := by
  unfold State.pinLoad
  dsimp only
  split
  · exact copySpan_wf h
  · exact h

@[simp] theorem State.sendPacket_mem {s : State} {n : Nat} {data : List Byte} : (State.sendPacket n data s).2.mem = s.mem := by
  unfold State.sendPacket
  split <;> rfl

/-- A packet that nothing has spoilt is accepted, and the state stays as it is (R273). -/
theorem State.sendPacket_good {s : State} {n : Nat} {data : List Byte} (h : (s.core n).lost = false) : State.sendPacket n data s = (true, s) := by
  simp [State.sendPacket, h, packetOk]

/-- A packet is accepted under the check value of its own bytes (R272, R273). -/
@[simp] theorem packetOk_crc {data : List Byte} : packetOk data (crc32c data) = true := by simp [packetOk]

/-! ### Operations that leave memory alone -/

section
variable {s : State} {f c w k p va n : Nat}

@[simp] theorem State.pass_mem : (s.pass f).mem = s.mem := rfl

@[simp] theorem State.setStatus_mem {st : FStatus} : (s.setStatus f st).mem = s.mem := rfl

@[simp] theorem State.faultStop_mem : s.faultStop.mem = s.mem := rfl

@[simp] theorem State.stall_mem {x : Wait} : (s.stall x).mem = s.mem := by
  unfold State.stall
  dsimp only
  split <;> rfl

@[simp] theorem State.rest_mem : (s.rest f).mem = s.mem := by
  unfold State.rest
  dsimp only
  split <;> rfl

@[simp] theorem State.leaveFbar_mem : (s.leaveFbar f).mem = s.mem := by
  unfold State.leaveFbar
  dsimp only
  split
  · rw [rest_mem, setStatus_mem]
  · rfl

@[simp] theorem State.fbarCheck_mem : (s.fbarCheck k).mem = s.mem := by
  unfold State.fbarCheck
  dsimp only
  split
  · rw [foldl_mem (fun _ _ => leaveFbar_mem)]; rfl
  · rfl

@[simp] theorem State.landVal_mem {x : PVal} : (State.landVal f s x).mem = s.mem := by
  unfold State.landVal
  split
  · rfl
  · rfl
  · split <;> rfl

@[simp] theorem State.pushDue_mem : (s.pushDue k).mem = s.mem := by
  unfold State.pushDue
  dsimp only
  split
  · rfl
  · suffices H : ∀ (l : List Push) (a : State × List Nat), ((l.foldl (fun (a : State × List Nat) (p : Push) =>
        if a.2.contains p.q || ((a.1.fibre p.fib).pend.any (fun x => x.id < p.bound && !x.vals.isEmpty)) then (a.1, p.q :: a.2)
        else (a.1.modSlot k (fun x => { x with queues := Sparse.modify [] p.q (fun l => l ++ p.data) x.queues, pushes := x.pushes.erase p }), a.2)) a).1).mem
          = a.1.mem from H _ (s, [])
    intro l
    induction l with
    | nil => exact fun _ => rfl
    | cons p l ih =>
      intro a
      rw [List.foldl_cons, ih]
      split <;> rfl

@[simp] theorem State.landDue_mem : (s.landDue f).mem = s.mem := by
  unfold State.landDue
  split
  · dsimp only
    rw [pushDue_mem, modFibre_mem, foldl_mem (fun _ _ => landVal_mem)]
    rfl
  · rfl

@[simp] theorem State.revive_mem : (s.revive f).mem = s.mem := by
  unfold State.revive
  dsimp only
  split <;> rfl

@[simp] theorem State.exitCheck_mem : (s.exitCheck f).mem = s.mem := by
  unfold State.exitCheck
  split
  · rw [fbarCheck_mem, pass_mem, setStatus_mem, landDue_mem]; rfl
  · rfl

@[simp] theorem State.eccClear_mem {u : Uses} : (s.eccClear u).mem = s.mem := rfl

theorem State.ensurePrg_mem {b : Bool} {t : State} (e : s.ensurePrg p n b = some t) : t.mem = s.mem := by
  unfold State.ensurePrg at e
  split at e
  · split at e <;> (cases e; rfl)
  · split at e
    · cases e
    · cases e; rfl

@[simp] theorem State.askHost_mem {b : Bool} : (s.askHost p va b).mem = s.mem := by
  unfold State.askHost
  split
  · split
    · dsimp only
      split
      · split <;> rfl
      · split
        · cases e : s.ensurePrg p (va / 4096) b with
          | none => rfl
          | some t => exact ensurePrg_mem e
        · rfl
    · rfl
  · rfl

@[simp] theorem State.raiseFault_mem : (s.raiseFault p).mem = s.mem := by
  unfold State.raiseFault State.raiseVector
  split <;> rfl

@[simp] theorem State.ringTrouble_mem {r : Nat} {b : Bool} : (s.ringTrouble p r va b).mem = s.mem := by
  unfold State.ringTrouble
  split
  · rfl
  · split
    · exact askHost_mem
    · split
      · rfl
      · rw [modCtx_mem, raiseFault_mem, logEvent_mem, askHost_mem]

@[simp] theorem State.faultRingWaits_mem : (s.faultRingWaits p).mem = s.mem := by
  unfold State.faultRingWaits
  dsimp only
  split
  · rfl
  · exact ringTrouble_mem

@[simp] theorem State.noPark_mem : s.noPark.mem = s.mem := by
  unfold State.noPark
  split
  · rfl
  · simp

@[simp] theorem State.trigger_mem {pc : Word64} : (s.trigger w pc).mem = s.mem := by
  unfold State.trigger
  split <;> rfl

end

/-! ### Shared operations of instructions -/

section
variable {s t : State} {f w k p va n : Nat}

theorem State.settleFrontier_wf (h : Memory.wf s.mem = true) : Memory.wf (s.settleFrontier f).mem = true := by
  unfold State.settleFrontier
  dsimp only
  split
  · exact h
  · exact wf_wrBytes h

theorem State.done_wf (h : Memory.wf s.mem = true) : Memory.wf s.done.mem = true := by
  unfold State.done
  dsimp only
  rw [wake_mem, rest_mem, modSlot_mem, landDue_mem]
  exact settleFrontier_wf h

theorem State.finishWith_wf {m : Mask} {g : Fibre → Fibre} (h : Memory.wf s.mem = true) : Memory.wf (s.finishWith m g).mem = true := done_wf h

theorem State.finishStay_wf {m : Mask} (h : Memory.wf s.mem = true) : Memory.wf (s.finishStay m).mem = true := done_wf h

theorem State.finish_wf (h : Memory.wf s.mem = true) : Memory.wf s.finish.mem = true := finishStay_wf h

theorem State.exitLanes_wf {m : Mask} (h : Memory.wf s.mem = true) : Memory.wf (s.exitLanes f m).mem = true := by
  unfold State.exitLanes
  dsimp only
  rw [exitCheck_mem, rest_mem, revive_mem]
  exact settleFrontier_wf h

theorem State.putRecord_wf {image : Nat} {info : RecInfo} (h : Memory.wf s.mem = true) (e : s.putRecord p image info = some t) : Memory.wf t.mem = true := by
  unfold State.putRecord at e
  dsimp only at e
  split at e
  · cases e
  · rename_i hr
    cases e
    rw [raiseFault_mem]
    have := ringPut_wf h hr
    exact this

theorem State.putOrWait_wf {image : Nat} {info : RecInfo} (h : Memory.wf s.mem = true) : Memory.wf (s.putOrWait p image info).mem = true := by
  unfold State.putOrWait
  split
  · rename_i he
    split at he
    · exact putRecord_wf h he
    · cases he
  · simpa using h

theorem State.report_wf {r : FRec} {info : RecInfo} (h : Memory.wf s.mem = true) : Memory.wf (s.report r info).mem = true := putOrWait_wf h

theorem State.flushWaiting_wf (h : Memory.wf s.mem = true) : Memory.wf (s.flushWaiting p n).mem = true := by
  induction n generalizing s with
  | zero => exact h
  | succ n ih =>
    unfold State.flushWaiting
    split
    · exact h
    · split
      · simpa using h
      · rename_i he
        have := putRecord_wf h he
        exact ih this

theorem State.flushRecords_wf (h : Memory.wf s.mem = true) : Memory.wf (s.flushRecords p).mem = true := flushWaiting_wf h

theorem State.putGroups_wf {pc resume : Word64} {gs : List FGroup} (h : Memory.wf s.mem = true) (e : State.putGroups pc resume k gs s = some t) :
    Memory.wf t.mem = true := by
  induction gs generalizing s with
  | nil => cases e; exact h
  | cons g gs ih =>
    unfold State.putGroups at e
    dsimp only at e
    split at e
    · cases e
    · rename_i hr
      have h1 : Memory.wf s.stamp.2.mem = true := h
      exact ih (putRecord_wf h1 hr) e

theorem State.parkLanes_wf {fs : List LFault} {pc resume : Word64} (h : Memory.wf s.mem = true) (e : s.parkLanes fs pc resume n = some t) :
    Memory.wf t.mem = true := by
  unfold State.parkLanes at e
  dsimp only at e
  split at e
  · cases e
  · rename_i x q _
    have h1 : Memory.wf (s.setFibre s.cur.fib x).mem = true := h
    exact putGroups_wf h1 e

theorem State.parkHeld_wf {fs : List LFault} {u : Uses} (h : Memory.wf s.mem = true) (e : s.parkHeld fs u = some t) : Memory.wf t.mem = true := by
  unfold State.parkHeld at e
  obtain ⟨r, hr, rfl⟩ := Option.map_eq_some_iff.mp e
  have := parkLanes_wf h hr
  exact this

theorem State.noPark_wf (h : Memory.wf s.mem = true) : Memory.wf s.noPark.mem = true := by
  unfold State.noPark
  split <;> simpa using h

theorem State.precise_wf {x : FKind} (h : Memory.wf s.mem = true) : Memory.wf (s.precise x n).mem = true := by
  unfold State.precise
  dsimp only
  split
  · rename_i he
    rw [wake_mem, faultStop_mem]
    exact settleFrontier_wf (parkLanes_wf h he)
  · exact noPark_wf h

theorem State.guardFault_wf {u : Uses} (h : Memory.wf s.mem = true) : Memory.wf (s.guardFault u).mem = true := by
  unfold State.guardFault
  split
  · exact noPark_wf h
  · rename_i he
    exact finish_wf (parkHeld_wf h he)

/-- An instruction that issues keeps the form when its body does. -/
theorem State.issue_wf {u : Uses} {body : State → State} (hb : ∀ t : State, Memory.wf t.mem = true → Memory.wf (body t).mem = true)
    (h : Memory.wf s.mem = true) : Memory.wf (s.issue u body).mem = true := by
  unfold State.issue
  split
  · exact precise_wf h
  · split
    · exact guardFault_wf h
    · split
      · exact finish_wf h
      · split
        · exact h
        · simpa using h
        · split
          · exact hb s h
          · unfold State.eccIssue
            dsimp only
            split
            · exact hb _ h
            · split
              · exact noPark_wf h
              · rename_i he
                split
                · exact finish_wf (parkHeld_wf h he)
                · have := parkHeld_wf h he
                  exact hb _ this

theorem State.issueIf_wf {bad : Option FKind} {u : Uses} {body : State → State} (hb : ∀ t : State, Memory.wf t.mem = true → Memory.wf (body t).mem = true)
    (h : Memory.wf s.mem = true) : Memory.wf (s.issueIf bad u body).mem = true := by
  unfold State.issueIf
  split
  · exact precise_wf h
  · exact issue_wf hb h

theorem State.plain_wf {u : Uses} {eff : State → State} (hb : ∀ t : State, Memory.wf t.mem = true → Memory.wf (eff t).mem = true)
    (h : Memory.wf s.mem = true) : Memory.wf (s.plain u eff).mem = true := issue_wf (fun t ht => finish_wf (hb t ht)) h

theorem State.splitFaults_wf {fs : List LFault} {u : Uses} {eff : Mask → State → State}
    (hb : ∀ m (t : State), Memory.wf t.mem = true → Memory.wf (eff m t).mem = true) (h : Memory.wf s.mem = true) :
    Memory.wf (s.splitFaults fs u eff).mem = true := by
  unfold State.splitFaults
  dsimp only
  split
  · exact finish_wf (hb _ _ h)
  · split
    · rename_i he
      refine finish_wf ?_
      split
      · exact parkHeld_wf h he
      · exact hb _ _ (parkHeld_wf h he)
    · split
      · exact noPark_wf h
      · split
        · rw [faultStop_mem]
          exact finishStay_wf (hb _ _ h)
        · exact finishStay_wf (hb _ _ h)

theorem State.unpark_wf {m : Mask} {dst : Option Word64} (h : Memory.wf s.mem = true) : Memory.wf (s.unpark f n m dst).mem = true := by
  unfold State.unpark
  dsimp only
  split
  · exact h
  · split
    · exact h
    · rw [wake_mem, revive_mem]
      exact settleFrontier_wf h

end

end Machine

end Sys2Proof
end

