-- ==== Sys2Proof/Laws/PerInstr.lean ====
section
/-! SUPPORT. Per instruction: its base word fits 32 bits, is no prefix, and decodes to it with the immediate that a word alone holds. -/

namespace Sys2Proof

namespace Laws

namespace BaseWord

set_option Elab.async false
set_option linter.unusedSimpArgs false
set_option linter.unreachableTactic false
set_option linter.unusedTactic false
set_option linter.unnecessarySeqFocus false

/-- The instruction that a base word without prefix K stands for (R51). -/
def alone : Instr → Instr
  | .addImm v d a i => .addImm v d a (sextField 12 38 i.toNat)
  | .movi v d i => .movi v d (sextField 12 38 i.toNat)
  | .br p c n o => .br p c n (sextField 16 42 o.toNat)
  | .jmp p c n o => .jmp p c n (sextField 16 42 o.toNat)
  | .call p l o => .call p l (sextField 16 42 o.toNat)
  | .ld d b l w o c _ => .ld d b l w o c 0
  | .ldacq d b l w c _ => .ldacq d b l w c 0
  | .st d b l w o c _ => .st d b l w o c 0
  | .strel d b l w c _ => .strel d b l w c 0
  | .lds d b l w k _ => .lds d b l w k 0
  | .sts d b l w k _ => .sts d b l w k 0
  | .ldk d b l w o c _ => .ldk d b l w o c 0
  | .ld6 d b l o c _ => .ld6 d b l o c 0
  | .atom d b l w o x s _ => .atom d b l w o x s 0
  | .atom64 d b l w o x s _ => .atom64 d b l w o x s 0
  | .atomp d b l m o s _ => .atomp d b l m o s 0
  | .red d b l w z r x s _ => .red d b l w z r x s 0
  | .ldfut d b l w _ => .ldfut d b l w 0
  | .stfut d b l w _ => .stfut d b l w 0
  | .stg d b l w _ => .stg d b l w 0
  | i => i

/-- A base word of 32 bits that is no prefix and decodes to its instruction. -/
def Good (w : Nat) (i : Instr) : Prop := w < 2 ^ 32 ∧ bits w 31 26 < 0x3E ∧ decodeBase w = some i

/-- An encoded, well-formed instruction has a good base word; an event has none. -/
def Statement (i : Instr) : Prop :=
  i.isEvent = false → i ≠ .illegalInstruction → i ≠ .instructionFetchFault → WellFormed i = true → Good (encodeBase i) (alone i)

theorem boolNat_le (b : Bool) : b.toNat ≤ 1 := by cases b <;> decide

theorem sext12 (x : Nat) : sextField 12 38 (x % 4096) = sextField 12 38 x := by simp [sextField]

theorem sext16 (x : Nat) : sextField 16 42 (x % 65536) = sextField 16 42 x := by simp [sextField]

theorem boolNat_beq (b : Bool) : (b.toNat == 1) = b := by cases b <;> rfl

theorem at_00 {w : Nat} (h1 : 0 ≤ bits w 31 26) (h2 : bits w 31 26 ≤ 1) : decodeBase w = decodeMajor00 w := by
  unfold decodeBase
  generalize bits w 31 26 = n at *
  interval_cases n <;> rfl

theorem at_02 {w : Nat} (h1 : 2 ≤ bits w 31 26) (h2 : bits w 31 26 ≤ 3) : decodeBase w = decodeMajor02 w := by
  unfold decodeBase
  generalize bits w 31 26 = n at *
  interval_cases n <;> rfl

theorem at_04 {w : Nat} (h1 : 4 ≤ bits w 31 26) (h2 : bits w 31 26 ≤ 5) : decodeBase w = decodeMajor04 w := by
  unfold decodeBase
  generalize bits w 31 26 = n at *
  interval_cases n <;> rfl

theorem at_06 {w : Nat} (h1 : 6 ≤ bits w 31 26) (h2 : bits w 31 26 ≤ 7) : decodeBase w = decodeMajor06 w := by
  unfold decodeBase
  generalize bits w 31 26 = n at *
  interval_cases n <;> rfl

theorem at_08 {w : Nat} (h1 : 8 ≤ bits w 31 26) (h2 : bits w 31 26 ≤ 9) : decodeBase w = decodeMajor08 w := by
  unfold decodeBase
  generalize bits w 31 26 = n at *
  interval_cases n <;> rfl

theorem at_0A {w : Nat} (h1 : 10 ≤ bits w 31 26) (h2 : bits w 31 26 ≤ 11) : decodeBase w = decodeMajor0A w := by
  unfold decodeBase
  generalize bits w 31 26 = n at *
  interval_cases n <;> rfl

theorem at_0C {w : Nat} (h1 : 12 ≤ bits w 31 26) (h2 : bits w 31 26 ≤ 13) : decodeBase w = decodeMajor0C w := by
  unfold decodeBase
  generalize bits w 31 26 = n at *
  interval_cases n <;> rfl

theorem at_0E {w : Nat} (h : bits w 31 26 = 14) : decodeBase w = decodeMajor0E w := by
  unfold decodeBase
  rw [h]
  rfl

theorem at_10 {w : Nat} (h : bits w 31 26 = 16) : decodeBase w = decodeMajor10 w := by
  unfold decodeBase
  rw [h]
  rfl

theorem at_11 {w : Nat} (h : bits w 31 26 = 17) : decodeBase w = decodeMajor11 w := by
  unfold decodeBase
  rw [h]
  rfl

theorem at_12 {w : Nat} (h : bits w 31 26 = 18) : decodeBase w = decodeMajor12 w := by
  unfold decodeBase
  rw [h]
  rfl

theorem at_13 {w : Nat} (h : bits w 31 26 = 19) : decodeBase w = decodeMajor13 w := by
  unfold decodeBase
  rw [h]
  rfl

theorem at_14 {w : Nat} (h : bits w 31 26 = 20) : decodeBase w = decodeMajor14 w := by
  unfold decodeBase
  rw [h]
  rfl

theorem at_15 {w : Nat} (h : bits w 31 26 = 21) : decodeBase w = decodeMajor15 w := by
  unfold decodeBase
  rw [h]
  rfl

theorem at_16 {w : Nat} (h : bits w 31 26 = 22) : decodeBase w = decodeMajor16 w := by
  unfold decodeBase
  rw [h]
  rfl

theorem at_18 {w : Nat} (h : bits w 31 26 = 24) : decodeBase w = decodeMajor18 w := by
  unfold decodeBase
  rw [h]
  rfl

theorem at_19 {w : Nat} (h : bits w 31 26 = 25) : decodeBase w = decodeMajor19 w := by
  unfold decodeBase
  rw [h]
  rfl

theorem at_1A {w : Nat} (h : bits w 31 26 = 26) : decodeBase w = decodeMajor1A w := by
  unfold decodeBase
  rw [h]
  rfl

theorem at_1B {w : Nat} (h : bits w 31 26 = 27) : decodeBase w = decodeMajor1B w := by
  unfold decodeBase
  rw [h]
  rfl

theorem at_1C {w : Nat} (h : bits w 31 26 = 28) : decodeBase w = decodeMajor1C w := by
  unfold decodeBase
  rw [h]
  rfl

theorem at_1D {w : Nat} (h : bits w 31 26 = 29) : decodeBase w = decodeMajor1D w := by
  unfold decodeBase
  rw [h]
  rfl

theorem at_20 {w : Nat} (h1 : 32 ≤ bits w 31 26) (h2 : bits w 31 26 ≤ 39) : decodeBase w = decodeMajor20 w := by
  unfold decodeBase
  generalize bits w 31 26 = n at *
  interval_cases n <;> rfl

theorem at_28 {w : Nat} (h : bits w 31 26 = 40) : decodeBase w = decodeMajor28 w := by
  unfold decodeBase
  rw [h]
  rfl

theorem at_29 {w : Nat} (h : bits w 31 26 = 41) : decodeBase w = decodeMajor29 w := by
  unfold decodeBase
  rw [h]
  rfl

theorem at_2A {w : Nat} (h : bits w 31 26 = 42) : decodeBase w = decodeMajor2A w := by
  unfold decodeBase
  rw [h]
  rfl

theorem at_2C {w : Nat} (h : bits w 31 26 = 44) : decodeBase w = decodeMajor2C w := by
  unfold decodeBase
  rw [h]
  rfl

theorem at_2D {w : Nat} (h : bits w 31 26 = 45) : decodeBase w = decodeMajor2D w := by
  unfold decodeBase
  rw [h]
  rfl

theorem at_2E {w : Nat} (h : bits w 31 26 = 46) : decodeBase w = decodeMajor2E w := by
  unfold decodeBase
  rw [h]
  rfl

theorem at_2F {w : Nat} (h : bits w 31 26 = 47) : decodeBase w = decodeMajor2F w := by
  unfold decodeBase
  rw [h]
  rfl

theorem at_30 {w : Nat} (h : bits w 31 26 = 48) : decodeBase w = decodeMajor30 w := by
  unfold decodeBase
  rw [h]
  rfl

theorem at_31 {w : Nat} (h : bits w 31 26 = 49) : decodeBase w = decodeMajor31 w := by
  unfold decodeBase
  rw [h]
  rfl

theorem at_32 {w : Nat} (h : bits w 31 26 = 50) : decodeBase w = decodeMajor32 w := by
  unfold decodeBase
  rw [h]
  rfl

theorem at_33 {w : Nat} (h : bits w 31 26 = 51) : decodeBase w = decodeMajor33 w := by
  unfold decodeBase
  rw [h]
  rfl

theorem at_34 {w : Nat} (h : bits w 31 26 = 52) : decodeBase w = decodeMajor34 w := by
  unfold decodeBase
  rw [h]
  rfl

theorem at_35 {w : Nat} (h : bits w 31 26 = 53) : decodeBase w = decodeMajor35 w := by
  unfold decodeBase
  rw [h]
  rfl

theorem at_3D {w : Nat} (h : bits w 31 26 = 61) : decodeBase w = decodeMajor3D w := by
  unfold decodeBase
  rw [h]
  rfl

theorem at_36 {w : Nat} (h : bits w 31 26 = 54) : decodeBase w = decodeMajor36 w := by
  unfold decodeBase
  rw [h]
  rfl

theorem at_37 {w : Nat} (h : bits w 31 26 = 55) : decodeBase w = decodeMajor37 w := by
  unfold decodeBase
  rw [h]
  rfl

theorem at_38 {w : Nat} (h : bits w 31 26 = 56) : decodeBase w = decodeMajor38 w := by
  unfold decodeBase
  rw [h]
  rfl

theorem at_39 {w : Nat} (h : bits w 31 26 = 57) : decodeBase w = decodeMajor39 w := by
  unfold decodeBase
  rw [h]
  rfl

theorem at_3A {w : Nat} (h : bits w 31 26 = 58) : decodeBase w = decodeMajor3A w := by
  unfold decodeBase
  rw [h]
  rfl

theorem at_3B {w : Nat} (h : bits w 31 26 = 59) : decodeBase w = decodeMajor3B w := by
  unfold decodeBase
  rw [h]
  rfl

theorem at_3C {w : Nat} (h : bits w 31 26 = 60) : decodeBase w = decodeMajor3C w := by
  unfold decodeBase
  rw [h]
  rfl

theorem layout0 {w k x0 x1 x2 x3 x4 x5 x6 : Nat} (h : w = k + x5 * 2 ^ 26 + x4 * 2 ^ 19 + x3 * 2 ^ 12 + x2 * 2 ^ 5 + x1 * 2 ^ 4) (hk : k = x0 * 1 + x6 * 134217728) (h0 : x0 < 16) (h1 : x1 < 2) (h2 : x2 < 128) (h3 : x3 < 128) (h4 : x4 < 128) (h5 : x5 < 2) (h6 : x6 < 32) :
    w < 4294967296 ∧ bits w 3 0 = x0 ∧ bits w 4 4 = x1 ∧ bits w 11 5 = x2 ∧ bits w 18 12 = x3 ∧ bits w 25 19 = x4 ∧ bits w 26 26 = x5 ∧ bits w 31 26 = x5 + x6 * 2 := by
  simp only [bits]
  omega

theorem layout1 {w k x0 x1 x2 x3 x4 x5 : Nat} (h : w = k + x4 * 2 ^ 19 + x3 * 2 ^ 12 + x2 * 2 ^ 5 + x1 * 2 ^ 4) (hk : k = x0 * 1 + x5 * 67108864) (h0 : x0 < 16) (h1 : x1 < 2) (h2 : x2 < 128) (h3 : x3 < 128) (h4 : x4 < 128) (h5 : x5 < 64) :
    w < 4294967296 ∧ bits w 3 0 = x0 ∧ bits w 4 4 = x1 ∧ bits w 11 5 = x2 ∧ bits w 18 12 = x3 ∧ bits w 25 19 = x4 ∧ bits w 26 26 = x5 / 1 % 2 ∧ bits w 31 26 = x5 := by
  simp only [bits]
  omega

theorem layout2 {w k x0 x1 x2 x3 x4 x5 x6 : Nat} (h : w = k + x5 * 2 ^ 26 + x4 * 2 ^ 19 + x3 * 2 ^ 12 + x1 * 2 ^ 4) (hk : k = x0 * 1 + x2 * 32 + x6 * 134217728) (h0 : x0 < 16) (h1 : x1 < 2) (h2 : x2 < 128) (h3 : x3 < 128) (h4 : x4 < 128) (h5 : x5 < 2) (h6 : x6 < 32) :
    w < 4294967296 ∧ bits w 3 0 = x0 ∧ bits w 4 4 = x1 ∧ bits w 11 5 = x2 ∧ bits w 18 12 = x3 ∧ bits w 25 19 = x4 ∧ bits w 26 26 = x5 ∧ bits w 31 26 = x5 + x6 * 2 := by
  simp only [bits]
  omega

theorem layout3 {w k x0 x1 x2 x3 x4 x5 x6 : Nat} (h : w = k + x5 * 2 ^ 26 + x4 * 2 ^ 19 + x2 * 2 ^ 5 + x1 * 2 ^ 4) (hk : k = x0 * 1 + x3 * 4096 + x6 * 134217728) (h0 : x0 < 16) (h1 : x1 < 2) (h2 : x2 < 128) (h3 : x3 < 128) (h4 : x4 < 128) (h5 : x5 < 2) (h6 : x6 < 32) :
    w < 4294967296 ∧ bits w 3 0 = x0 ∧ bits w 4 4 = x1 ∧ bits w 11 5 = x2 ∧ bits w 18 12 = x3 ∧ bits w 25 19 = x4 ∧ bits w 26 26 = x5 ∧ bits w 31 26 = x5 + x6 * 2 := by
  simp only [bits]
  omega

theorem layout4 {w k x0 x1 x2 x3 x4 : Nat} (h : w = k + x3 * 2 ^ 26 + x2 * 2 ^ 19 + x1 * 2 ^ 12 + x0 * 2 ^ 0) (hk : k = x4 * 134217728) (h0 : x0 < 4096) (h1 : x1 < 128) (h2 : x2 < 128) (h3 : x3 < 2) (h4 : x4 < 32) :
    w < 4294967296 ∧ bits w 11 0 = x0 ∧ bits w 18 12 = x1 ∧ bits w 25 19 = x2 ∧ bits w 26 26 = x3 ∧ bits w 31 26 = x3 + x4 * 2 := by
  simp only [bits]
  omega

theorem layout5 {w k x0 x1 x2 x3 x4 : Nat} (h : w = k + x3 * 2 ^ 26 + x2 * 2 ^ 19 + x0 * 2 ^ 0) (hk : k = x1 * 4096 + x4 * 134217728) (h0 : x0 < 4096) (h1 : x1 < 128) (h2 : x2 < 128) (h3 : x3 < 2) (h4 : x4 < 32) :
    w < 4294967296 ∧ bits w 11 0 = x0 ∧ bits w 18 12 = x1 ∧ bits w 25 19 = x2 ∧ bits w 26 26 = x3 ∧ bits w 31 26 = x3 + x4 * 2 := by
  simp only [bits]
  omega

theorem layout6 {w k x0 x1 x2 x3 x4 x5 : Nat} (h : w = k + x4 * 2 ^ 26 + x3 * 2 ^ 19 + x2 * 2 ^ 12 + x0 * 2 ^ 0) (hk : k = x1 * 64 + x5 * 134217728) (h0 : x0 < 64) (h1 : x1 < 64) (h2 : x2 < 128) (h3 : x3 < 128) (h4 : x4 < 2) (h5 : x5 < 32) :
    w < 4294967296 ∧ bits w 5 0 = x0 ∧ bits w 11 6 = x1 ∧ bits w 18 12 = x2 ∧ bits w 25 19 = x3 ∧ bits w 26 26 = x4 ∧ bits w 31 26 = x4 + x5 * 2 := by
  simp only [bits]
  omega

theorem layout7 {w k x0 x1 x2 x3 x4 x5 x6 x7 : Nat} (h : w = k + x6 * 2 ^ 26 + x5 * 2 ^ 19 + x4 * 2 ^ 12 + x2 * 2 ^ 8 + x1 * 2 ^ 4 + x0 * 2 ^ 0) (hk : k = x3 * 512 + x7 * 134217728) (h0 : x0 < 16) (h1 : x1 < 16) (h2 : x2 < 2) (h3 : x3 < 8) (h4 : x4 < 128) (h5 : x5 < 128) (h6 : x6 < 2) (h7 : x7 < 32) :
    w < 4294967296 ∧ bits w 3 0 = x0 ∧ bits w 7 4 = x1 ∧ bits w 8 8 = x2 ∧ bits w 11 9 = x3 ∧ bits w 18 12 = x4 ∧ bits w 25 19 = x5 ∧ bits w 26 26 = x6 ∧ bits w 31 26 = x6 + x7 * 2 := by
  simp only [bits]
  omega

theorem layout8 {w k x0 x1 x2 x3 x4 x5 : Nat} (h : w = k + x4 * 2 ^ 19 + x3 * 2 ^ 12 + x2 * 2 ^ 5 + x1 * 2 ^ 4 + x0 * 2 ^ 0) (hk : k = x5 * 67108864) (h0 : x0 < 16) (h1 : x1 < 2) (h2 : x2 < 128) (h3 : x3 < 128) (h4 : x4 < 128) (h5 : x5 < 64) :
    w < 4294967296 ∧ bits w 3 0 = x0 ∧ bits w 4 4 = x1 ∧ bits w 11 5 = x2 ∧ bits w 18 12 = x3 ∧ bits w 25 19 = x4 ∧ bits w 31 26 = x5 := by
  simp only [bits]
  omega

theorem layout9 {w k x0 x1 x2 x3 x4 x5 x6 : Nat} (h : w = k + x5 * 2 ^ 23 + x4 * 2 ^ 19 + x3 * 2 ^ 12 + x2 * 2 ^ 5 + x1 * 2 ^ 4 + x0 * 2 ^ 0) (hk : k = x6 * 67108864) (h0 : x0 < 16) (h1 : x1 < 2) (h2 : x2 < 128) (h3 : x3 < 128) (h4 : x4 < 16) (h5 : x5 < 8) (h6 : x6 < 64) :
    w < 4294967296 ∧ bits w 3 0 = x0 ∧ bits w 4 4 = x1 ∧ bits w 11 5 = x2 ∧ bits w 18 12 = x3 ∧ bits w 22 19 = x4 ∧ bits w 25 23 = x5 ∧ bits w 31 26 = x6 := by
  simp only [bits]
  omega

theorem layout10 {w k x0 x1 x2 x3 x4 x5 x6 : Nat} (h : w = k + x5 * 2 ^ 19 + x3 * 2 ^ 12 + x1 * 2 ^ 5) (hk : k = x0 * 1 + x2 * 512 + x4 * 65536 + x6 * 8388608) (h0 : x0 < 32) (h1 : x1 < 16) (h2 : x2 < 8) (h3 : x3 < 16) (h4 : x4 < 8) (h5 : x5 < 16) (h6 : x6 < 512) :
    w < 4294967296 ∧ bits w 4 0 = x0 ∧ bits w 8 5 = x1 ∧ bits w 11 0 = x0 + x1 * 32 + x2 * 512 ∧ bits w 11 9 = x2 ∧ bits w 15 12 = x3 ∧ bits w 18 16 = x4 ∧ bits w 22 19 = x5 ∧ bits w 25 23 = x6 / 1 % 8 ∧ bits w 31 26 = x6 / 8 % 64 := by
  simp only [bits]
  omega

theorem layout11 {w k x0 x1 x2 x3 x4 : Nat} (h : w = k + x3 * 2 ^ 19 + x1 * 2 ^ 12) (hk : k = x0 * 1 + x2 * 65536 + x4 * 8388608) (h0 : x0 < 4096) (h1 : x1 < 16) (h2 : x2 < 8) (h3 : x3 < 16) (h4 : x4 < 512) :
    w < 4294967296 ∧ bits w 4 0 = x0 / 1 % 32 ∧ bits w 8 5 = x0 / 32 % 16 ∧ bits w 11 0 = x0 ∧ bits w 11 9 = x0 / 512 % 8 ∧ bits w 15 12 = x1 ∧ bits w 18 16 = x2 ∧ bits w 22 19 = x3 ∧ bits w 25 23 = x4 / 1 % 8 ∧ bits w 31 26 = x4 / 8 % 64 := by
  simp only [bits]
  omega

theorem layout12 {w k x0 x1 x2 x3 x4 x5 x6 : Nat} (h : w = k + x5 * 2 ^ 19 + x4 * 2 ^ 12 + x3 * 2 ^ 5 + x2 * 2 ^ 4 + x0 * 2 ^ 0) (hk : k = x1 * 4 + x6 * 67108864) (h0 : x0 < 4) (h1 : x1 < 4) (h2 : x2 < 2) (h3 : x3 < 128) (h4 : x4 < 128) (h5 : x5 < 128) (h6 : x6 < 64) :
    w < 4294967296 ∧ bits w 1 0 = x0 ∧ bits w 3 2 = x1 ∧ bits w 4 4 = x2 ∧ bits w 11 5 = x3 ∧ bits w 18 12 = x4 ∧ bits w 25 19 = x5 ∧ bits w 31 26 = x6 := by
  simp only [bits]
  omega

theorem layout13 {w k x0 x1 x2 x3 x4 : Nat} (h : w = k + x3 * 2 ^ 19 + x2 * 2 ^ 12 + x0 * 2 ^ 0) (hk : k = x1 * 4 + x4 * 67108864) (h0 : x0 < 4) (h1 : x1 < 1024) (h2 : x2 < 128) (h3 : x3 < 128) (h4 : x4 < 64) :
    w < 4294967296 ∧ bits w 1 0 = x0 ∧ bits w 11 2 = x1 ∧ bits w 18 12 = x2 ∧ bits w 25 19 = x3 ∧ bits w 31 26 = x4 := by
  simp only [bits]
  omega

theorem layout14 {w k x0 x1 x2 x3 x4 : Nat} (h : w = k + x3 * 2 ^ 19 + x1 * 2 ^ 12) (hk : k = x0 * 1 + x2 * 65536 + x4 * 8388608) (h0 : x0 < 4096) (h1 : x1 < 16) (h2 : x2 < 8) (h3 : x3 < 16) (h4 : x4 < 512) :
    w < 4294967296 ∧ bits w 11 0 = x0 ∧ bits w 15 12 = x1 ∧ bits w 18 16 = x2 ∧ bits w 22 19 = x3 ∧ bits w 25 23 = x4 / 1 % 8 ∧ bits w 31 26 = x4 / 8 % 64 := by
  simp only [bits]
  omega

theorem layout15 {w k x0 x1 x2 x3 x4 : Nat} (h : w = k + x3 * 2 ^ 19 + x1 * 2 ^ 12) (hk : k = x0 * 1 + x2 * 65536 + x4 * 67108864) (h0 : x0 < 4096) (h1 : x1 < 16) (h2 : x2 < 8) (h3 : x3 < 128) (h4 : x4 < 64) :
    w < 4294967296 ∧ bits w 11 0 = x0 ∧ bits w 15 12 = x1 ∧ bits w 18 16 = x2 ∧ bits w 25 19 = x3 ∧ bits w 31 26 = x4 := by
  simp only [bits]
  omega

theorem layout16 {w k x0 x1 x2 x3 x4 : Nat} (h : w = k + x3 * 2 ^ 19 + x2 * 2 ^ 12 + x0 * 2 ^ 0) (hk : k = x1 * 8 + x4 * 67108864) (h0 : x0 < 8) (h1 : x1 < 512) (h2 : x2 < 128) (h3 : x3 < 128) (h4 : x4 < 64) :
    w < 4294967296 ∧ bits w 2 0 = x0 ∧ bits w 11 3 = x1 ∧ bits w 18 12 = x2 ∧ bits w 25 19 = x3 ∧ bits w 31 26 = x4 := by
  simp only [bits]
  omega

theorem layout17 {w k x0 x1 x2 x3 x4 : Nat} (h : w = k + x3 * 2 ^ 19 + x2 * 2 ^ 12 + x1 * 2 ^ 5) (hk : k = x0 * 1 + x4 * 67108864) (h0 : x0 < 32) (h1 : x1 < 128) (h2 : x2 < 128) (h3 : x3 < 128) (h4 : x4 < 64) :
    w < 4294967296 ∧ bits w 4 0 = x0 ∧ bits w 11 5 = x1 ∧ bits w 18 12 = x2 ∧ bits w 25 19 = x3 ∧ bits w 31 26 = x4 := by
  simp only [bits]
  omega

theorem layout18 {w k x0 x1 x2 x3 x4 : Nat} (h : w = k + x3 * 2 ^ 21 + x2 * 2 ^ 17 + x1 * 2 ^ 16 + x0 * 2 ^ 0) (hk : k = x4 * 33554432) (h0 : x0 < 65536) (h1 : x1 < 2) (h2 : x2 < 16) (h3 : x3 < 16) (h4 : x4 < 128) :
    w < 4294967296 ∧ bits w 15 0 = x0 ∧ bits w 16 16 = x1 ∧ bits w 20 17 = x2 ∧ bits w 24 21 = x3 ∧ bits w 25 25 = x4 / 1 % 2 ∧ bits w 31 26 = x4 / 2 % 64 := by
  simp only [bits]
  omega

theorem layout19 {w k x0 x1 x2 x3 : Nat} (h : w = k + x2 * 2 ^ 21 + x1 * 2 ^ 16 + x0 * 2 ^ 0) (hk : k = x3 * 33554432) (h0 : x0 < 65536) (h1 : x1 < 32) (h2 : x2 < 16) (h3 : x3 < 128) :
    w < 4294967296 ∧ bits w 15 0 = x0 ∧ bits w 20 16 = x1 ∧ bits w 24 21 = x2 ∧ bits w 25 25 = x3 / 1 % 2 ∧ bits w 31 26 = x3 / 2 % 64 := by
  simp only [bits]
  omega

theorem layout20 {w k x0 x1 x2 x3 x4 : Nat} (h : w = k + x3 * 2 ^ 12 + x1 * 2 ^ 5) (hk : k = x0 * 1 + x2 * 512 + x4 * 524288) (h0 : x0 < 32) (h1 : x1 < 16) (h2 : x2 < 8) (h3 : x3 < 128) (h4 : x4 < 8192) :
    w < 4294967296 ∧ bits w 4 0 = x0 ∧ bits w 8 5 = x1 ∧ bits w 11 9 = x2 ∧ bits w 18 0 = x0 + x1 * 32 + x2 * 512 + x3 * 4096 ∧ bits w 18 12 = x3 ∧ bits w 21 19 = x4 / 1 % 8 ∧ bits w 25 19 = x4 / 1 % 128 ∧ bits w 25 22 = x4 / 8 % 16 ∧ bits w 31 26 = x4 / 128 % 64 := by
  simp only [bits]
  omega

theorem layout21 {w k x0 : Nat} (h : w = k) (hk : k = x0 * 1) (h0 : x0 < 4294967296) :
    w < 4294967296 ∧ bits w 4 0 = x0 / 1 % 32 ∧ bits w 8 5 = x0 / 32 % 16 ∧ bits w 11 9 = x0 / 512 % 8 ∧ bits w 18 0 = x0 / 1 % 524288 ∧ bits w 18 12 = x0 / 4096 % 128 ∧ bits w 21 19 = x0 / 524288 % 8 ∧ bits w 25 0 = x0 / 1 % 67108864 ∧ bits w 25 19 = x0 / 524288 % 128 ∧ bits w 25 22 = x0 / 4194304 % 16 ∧ bits w 31 26 = x0 / 67108864 % 64 := by
  simp only [bits]
  omega

theorem layout22 {w k x0 x1 x2 : Nat} (h : w = k + x1 * 2 ^ 19) (hk : k = x0 * 1 + x2 * 4194304) (h0 : x0 < 524288) (h1 : x1 < 8) (h2 : x2 < 1024) :
    w < 4294967296 ∧ bits w 4 0 = x0 / 1 % 32 ∧ bits w 8 5 = x0 / 32 % 16 ∧ bits w 11 9 = x0 / 512 % 8 ∧ bits w 18 0 = x0 ∧ bits w 18 12 = x0 / 4096 % 128 ∧ bits w 21 19 = x1 ∧ bits w 25 22 = x2 / 1 % 16 ∧ bits w 31 26 = x2 / 16 % 64 := by
  simp only [bits]
  omega

theorem layout23 {w k x0 x1 : Nat} (h : w = k + x0 * 2 ^ 0) (hk : k = x1 * 64) (h0 : x0 < 64) (h1 : x1 < 67108864) :
    w < 4294967296 ∧ bits w 5 0 = x0 ∧ bits w 25 6 = x1 / 1 % 1048576 ∧ bits w 31 26 = x1 / 1048576 % 64 := by
  simp only [bits]
  omega

theorem layout24 {w k x0 x1 : Nat} (h : w = k + x0 * 2 ^ 0) (hk : k = x1 * 32) (h0 : x0 < 32) (h1 : x1 < 134217728) :
    w < 4294967296 ∧ bits w 4 0 = x0 ∧ bits w 25 5 = x1 / 1 % 2097152 ∧ bits w 31 26 = x1 / 2097152 % 64 := by
  simp only [bits]
  omega

theorem layout25 {w k x0 x1 x2 x3 x4 x5 x6 x7 : Nat} (h : w = k + x6 * 2 ^ 27 + x5 * 2 ^ 26 + x4 * 2 ^ 19 + x3 * 2 ^ 12 + x2 * 2 ^ 5 + x1 * 2 ^ 4) (hk : k = x0 * 1 + x7 * 536870912) (h0 : x0 < 16) (h1 : x1 < 2) (h2 : x2 < 128) (h3 : x3 < 128) (h4 : x4 < 128) (h5 : x5 < 2) (h6 : x6 < 4) (h7 : x7 < 8) :
    w < 4294967296 ∧ bits w 3 0 = x0 ∧ bits w 4 0 = x0 + x1 * 16 ∧ bits w 4 4 = x1 ∧ bits w 11 0 = x0 + x1 * 16 + x2 * 32 ∧ bits w 11 5 = x2 ∧ bits w 18 12 = x3 ∧ bits w 25 19 = x4 ∧ bits w 26 26 = x5 ∧ bits w 28 27 = x6 ∧ bits w 31 26 = x5 + x6 * 2 + x7 * 8 := by
  simp only [bits]
  omega

theorem layout26 {w k x0 x1 x2 x3 x4 x5 : Nat} (h : w = k + x4 * 2 ^ 27 + x3 * 2 ^ 26 + x2 * 2 ^ 19 + x1 * 2 ^ 12) (hk : k = x0 * 1 + x5 * 536870912) (h0 : x0 < 4096) (h1 : x1 < 128) (h2 : x2 < 128) (h3 : x3 < 2) (h4 : x4 < 4) (h5 : x5 < 8) :
    w < 4294967296 ∧ bits w 3 0 = x0 / 1 % 16 ∧ bits w 4 0 = x0 / 1 % 32 ∧ bits w 4 4 = x0 / 16 % 2 ∧ bits w 7 5 = x0 / 32 % 8 ∧ bits w 11 0 = x0 ∧ bits w 11 5 = x0 / 32 % 128 ∧ bits w 11 8 = x0 / 256 % 16 ∧ bits w 18 12 = x1 ∧ bits w 25 19 = x2 ∧ bits w 26 26 = x3 ∧ bits w 28 27 = x4 ∧ bits w 31 26 = x3 + x4 * 2 + x5 * 8 := by
  simp only [bits]
  omega

theorem layout27 {w k x0 x1 x2 x3 : Nat} (h : w = k + x2 * 2 ^ 19 + x1 * 2 ^ 12) (hk : k = x0 * 1 + x3 * 67108864) (h0 : x0 < 4096) (h1 : x1 < 128) (h2 : x2 < 128) (h3 : x3 < 64) :
    w < 4294967296 ∧ bits w 3 0 = x0 / 1 % 16 ∧ bits w 4 0 = x0 / 1 % 32 ∧ bits w 4 4 = x0 / 16 % 2 ∧ bits w 7 5 = x0 / 32 % 8 ∧ bits w 11 0 = x0 ∧ bits w 11 5 = x0 / 32 % 128 ∧ bits w 11 8 = x0 / 256 % 16 ∧ bits w 18 12 = x1 ∧ bits w 25 19 = x2 ∧ bits w 26 26 = x3 / 1 % 2 ∧ bits w 28 27 = x3 / 2 % 4 ∧ bits w 31 26 = x3 := by
  simp only [bits]
  omega

theorem layout28 {w k x0 x1 x2 x3 x4 x5 x6 x7 : Nat} (h : w = k + x6 * 2 ^ 27 + x5 * 2 ^ 26 + x4 * 2 ^ 19 + x3 * 2 ^ 12 + x1 * 2 ^ 5) (hk : k = x0 * 1 + x2 * 256 + x7 * 536870912) (h0 : x0 < 32) (h1 : x1 < 8) (h2 : x2 < 16) (h3 : x3 < 128) (h4 : x4 < 128) (h5 : x5 < 2) (h6 : x6 < 4) (h7 : x7 < 8) :
    w < 4294967296 ∧ bits w 3 0 = x0 / 1 % 16 ∧ bits w 4 0 = x0 ∧ bits w 4 4 = x0 / 16 % 2 ∧ bits w 7 5 = x1 ∧ bits w 11 0 = x0 + x1 * 32 + x2 * 256 ∧ bits w 11 5 = x1 + x2 * 8 ∧ bits w 11 8 = x2 ∧ bits w 18 12 = x3 ∧ bits w 25 19 = x4 ∧ bits w 26 26 = x5 ∧ bits w 28 27 = x6 ∧ bits w 31 26 = x5 + x6 * 2 + x7 * 8 := by
  simp only [bits]
  omega

theorem layout29 {w k x0 x1 x2 x3 x4 x5 x6 : Nat} (h : w = k + x5 * 2 ^ 19 + x4 * 2 ^ 12 + x3 * 2 ^ 11 + x2 * 2 ^ 8 + x1 * 2 ^ 4 + x0 * 2 ^ 0) (hk : k = x6 * 67108864) (h0 : x0 < 16) (h1 : x1 < 16) (h2 : x2 < 8) (h3 : x3 < 2) (h4 : x4 < 128) (h5 : x5 < 128) (h6 : x6 < 64) :
    w < 4294967296 ∧ bits w 3 0 = x0 ∧ bits w 7 4 = x1 ∧ bits w 10 8 = x2 ∧ bits w 11 11 = x3 ∧ bits w 18 12 = x4 ∧ bits w 25 19 = x5 ∧ bits w 31 26 = x6 := by
  simp only [bits]
  omega

theorem layout30 {w k x0 x1 x2 x3 x4 x5 x6 : Nat} (h : w = k + x5 * 2 ^ 19 + x4 * 2 ^ 12 + x3 * 2 ^ 5 + x2 * 2 ^ 4 + x0 * 2 ^ 0) (hk : k = x1 * 4 + x6 * 67108864) (h0 : x0 < 4) (h1 : x1 < 4) (h2 : x2 < 2) (h3 : x3 < 128) (h4 : x4 < 128) (h5 : x5 < 128) (h6 : x6 < 64) :
    w < 4294967296 ∧ bits w 1 0 = x0 ∧ bits w 3 0 = x0 + x1 * 4 ∧ bits w 3 2 = x1 ∧ bits w 4 0 = x0 + x1 * 4 + x2 * 16 ∧ bits w 4 4 = x2 ∧ bits w 11 5 = x3 ∧ bits w 18 12 = x4 ∧ bits w 25 19 = x5 ∧ bits w 31 26 = x6 := by
  simp only [bits]
  omega

theorem layout31 {w k x0 x1 x2 x3 x4 x5 : Nat} (h : w = k + x4 * 2 ^ 19 + x3 * 2 ^ 12 + x2 * 2 ^ 5 + x1 * 2 ^ 4) (hk : k = x0 * 1 + x5 * 67108864) (h0 : x0 < 16) (h1 : x1 < 2) (h2 : x2 < 128) (h3 : x3 < 128) (h4 : x4 < 128) (h5 : x5 < 64) :
    w < 4294967296 ∧ bits w 1 0 = x0 / 1 % 4 ∧ bits w 3 0 = x0 ∧ bits w 3 2 = x0 / 4 % 4 ∧ bits w 4 0 = x0 + x1 * 16 ∧ bits w 4 4 = x1 ∧ bits w 11 5 = x2 ∧ bits w 18 12 = x3 ∧ bits w 25 19 = x4 ∧ bits w 31 26 = x5 := by
  simp only [bits]
  omega

theorem layout32 {w k x0 x1 x2 x3 x4 x5 x6 : Nat} (h : w = k + x5 * 2 ^ 19 + x4 * 2 ^ 12 + x3 * 2 ^ 10 + x1 * 2 ^ 5) (hk : k = x0 * 1 + x2 * 256 + x6 * 67108864) (h0 : x0 < 32) (h1 : x1 < 8) (h2 : x2 < 4) (h3 : x3 < 4) (h4 : x4 < 128) (h5 : x5 < 128) (h6 : x6 < 64) :
    w < 4294967296 ∧ bits w 1 0 = x0 / 1 % 4 ∧ bits w 3 0 = x0 / 1 % 16 ∧ bits w 3 2 = x0 / 4 % 4 ∧ bits w 4 0 = x0 ∧ bits w 4 4 = x0 / 16 % 2 ∧ bits w 7 5 = x1 ∧ bits w 9 8 = x2 ∧ bits w 11 5 = x1 + x2 * 8 + x3 * 32 ∧ bits w 11 10 = x3 ∧ bits w 18 10 = x3 + x4 * 4 ∧ bits w 18 12 = x4 ∧ bits w 25 19 = x5 ∧ bits w 31 26 = x6 := by
  simp only [bits]
  omega

theorem layout33 {w k x0 x1 x2 x3 x4 x5 x6 : Nat} (h : w = k + x5 * 2 ^ 19 + x4 * 2 ^ 12 + x3 * 2 ^ 10 + x2 * 2 ^ 8 + x1 * 2 ^ 5) (hk : k = x0 * 1 + x6 * 67108864) (h0 : x0 < 32) (h1 : x1 < 8) (h2 : x2 < 4) (h3 : x3 < 4) (h4 : x4 < 128) (h5 : x5 < 128) (h6 : x6 < 64) :
    w < 4294967296 ∧ bits w 1 0 = x0 / 1 % 4 ∧ bits w 3 0 = x0 / 1 % 16 ∧ bits w 3 2 = x0 / 4 % 4 ∧ bits w 4 0 = x0 ∧ bits w 4 4 = x0 / 16 % 2 ∧ bits w 7 5 = x1 ∧ bits w 9 8 = x2 ∧ bits w 11 5 = x1 + x2 * 8 + x3 * 32 ∧ bits w 11 10 = x3 ∧ bits w 18 10 = x3 + x4 * 4 ∧ bits w 18 12 = x4 ∧ bits w 25 19 = x5 ∧ bits w 31 26 = x6 := by
  simp only [bits]
  omega

theorem layout34 {w k x0 x1 x2 x3 x4 x5 : Nat} (h : w = k + x4 * 2 ^ 19 + x2 * 2 ^ 8 + x1 * 2 ^ 5) (hk : k = x0 * 1 + x3 * 1024 + x5 * 67108864) (h0 : x0 < 32) (h1 : x1 < 8) (h2 : x2 < 4) (h3 : x3 < 512) (h4 : x4 < 128) (h5 : x5 < 64) :
    w < 4294967296 ∧ bits w 1 0 = x0 / 1 % 4 ∧ bits w 3 0 = x0 / 1 % 16 ∧ bits w 3 2 = x0 / 4 % 4 ∧ bits w 4 0 = x0 ∧ bits w 4 4 = x0 / 16 % 2 ∧ bits w 7 5 = x1 ∧ bits w 9 8 = x2 ∧ bits w 11 10 = x3 / 1 % 4 ∧ bits w 18 10 = x3 ∧ bits w 18 12 = x3 / 4 % 128 ∧ bits w 25 19 = x4 ∧ bits w 31 26 = x5 := by
  simp only [bits]
  omega

theorem layout35 {w k x0 x1 x2 x3 x4 x5 x6 x7 : Nat} (h : w = k + x6 * 2 ^ 19 + x5 * 2 ^ 12 + x4 * 2 ^ 8 + x3 * 2 ^ 5 + x1 * 2 ^ 3 + x0 * 2 ^ 0) (hk : k = x2 * 16 + x7 * 67108864) (h0 : x0 < 8) (h1 : x1 < 2) (h2 : x2 < 2) (h3 : x3 < 8) (h4 : x4 < 16) (h5 : x5 < 128) (h6 : x6 < 128) (h7 : x7 < 64) :
    w < 4294967296 ∧ bits w 2 0 = x0 ∧ bits w 3 3 = x1 ∧ bits w 4 3 = x1 + x2 * 2 ∧ bits w 4 4 = x2 ∧ bits w 7 5 = x3 ∧ bits w 11 8 = x4 ∧ bits w 18 12 = x5 ∧ bits w 25 19 = x6 ∧ bits w 31 26 = x7 := by
  simp only [bits]
  omega

theorem layout36 {w k x0 x1 x2 x3 x4 x5 x6 : Nat} (h : w = k + x5 * 2 ^ 19 + x4 * 2 ^ 12 + x3 * 2 ^ 8 + x2 * 2 ^ 5 + x0 * 2 ^ 0) (hk : k = x1 * 8 + x6 * 67108864) (h0 : x0 < 8) (h1 : x1 < 4) (h2 : x2 < 8) (h3 : x3 < 16) (h4 : x4 < 128) (h5 : x5 < 128) (h6 : x6 < 64) :
    w < 4294967296 ∧ bits w 2 0 = x0 ∧ bits w 3 3 = x1 / 1 % 2 ∧ bits w 4 3 = x1 ∧ bits w 4 4 = x1 / 2 % 2 ∧ bits w 7 5 = x2 ∧ bits w 11 8 = x3 ∧ bits w 18 12 = x4 ∧ bits w 25 19 = x5 ∧ bits w 31 26 = x6 := by
  simp only [bits]
  omega

theorem layout37 {w k x0 x1 x2 x3 x4 x5 x6 : Nat} (h : w = k + x5 * 2 ^ 19 + x4 * 2 ^ 12 + x3 * 2 ^ 8 + x2 * 2 ^ 5 + x0 * 2 ^ 0) (hk : k = x1 * 2 + x6 * 67108864) (h0 : x0 < 2) (h1 : x1 < 16) (h2 : x2 < 8) (h3 : x3 < 16) (h4 : x4 < 128) (h5 : x5 < 128) (h6 : x6 < 64) :
    w < 4294967296 ∧ bits w 0 0 = x0 ∧ bits w 4 1 = x1 ∧ bits w 7 5 = x2 ∧ bits w 11 8 = x3 ∧ bits w 18 12 = x4 ∧ bits w 25 19 = x5 ∧ bits w 31 26 = x6 := by
  simp only [bits]
  omega

theorem layout38 {w k x0 x1 x2 x3 x4 x5 x6 : Nat} (h : w = k + x5 * 2 ^ 19 + x4 * 2 ^ 12 + x3 * 2 ^ 8 + x2 * 2 ^ 5 + x1 * 2 ^ 3 + x0 * 2 ^ 0) (hk : k = x6 * 67108864) (h0 : x0 < 8) (h1 : x1 < 4) (h2 : x2 < 8) (h3 : x3 < 16) (h4 : x4 < 128) (h5 : x5 < 128) (h6 : x6 < 64) :
    w < 4294967296 ∧ bits w 2 0 = x0 ∧ bits w 4 3 = x1 ∧ bits w 7 5 = x2 ∧ bits w 11 8 = x3 ∧ bits w 18 12 = x4 ∧ bits w 25 19 = x5 ∧ bits w 31 26 = x6 := by
  simp only [bits]
  omega

theorem layout39 {w k x0 x1 x2 x3 x4 x5 x6 : Nat} (h : w = k + x5 * 2 ^ 19 + x4 * 2 ^ 12 + x3 * 2 ^ 8 + x1 * 2 ^ 3 + x0 * 2 ^ 0) (hk : k = x2 * 32 + x6 * 67108864) (h0 : x0 < 8) (h1 : x1 < 4) (h2 : x2 < 8) (h3 : x3 < 16) (h4 : x4 < 128) (h5 : x5 < 128) (h6 : x6 < 64) :
    w < 4294967296 ∧ bits w 2 0 = x0 ∧ bits w 4 3 = x1 ∧ bits w 7 5 = x2 ∧ bits w 11 8 = x3 ∧ bits w 18 12 = x4 ∧ bits w 25 19 = x5 ∧ bits w 31 26 = x6 := by
  simp only [bits]
  omega

theorem layout40 {w k x0 x1 x2 x3 x4 x5 x6 x7 : Nat} (h : w = k + x6 * 2 ^ 19 + x5 * 2 ^ 12 + x4 * 2 ^ 8 + x3 * 2 ^ 5 + x2 * 2 ^ 3 + x1 * 2 ^ 2 + x0 * 2 ^ 0) (hk : k = x7 * 67108864) (h0 : x0 < 4) (h1 : x1 < 2) (h2 : x2 < 4) (h3 : x3 < 8) (h4 : x4 < 16) (h5 : x5 < 128) (h6 : x6 < 128) (h7 : x7 < 64) :
    w < 4294967296 ∧ bits w 1 0 = x0 ∧ bits w 2 2 = x1 ∧ bits w 4 3 = x2 ∧ bits w 7 5 = x3 ∧ bits w 11 8 = x4 ∧ bits w 18 12 = x5 ∧ bits w 25 19 = x6 ∧ bits w 31 26 = x7 := by
  simp only [bits]
  omega

theorem layout41 {w k x0 x1 x2 x3 x4 x5 x6 x7 x8 : Nat} (h : w = k + x7 * 2 ^ 19 + x6 * 2 ^ 12 + x5 * 2 ^ 8 + x3 * 2 ^ 5 + x2 * 2 ^ 3 + x0 * 2 ^ 0) (hk : k = x1 * 4 + x4 * 64 + x8 * 67108864) (h0 : x0 < 4) (h1 : x1 < 2) (h2 : x2 < 4) (h3 : x3 < 2) (h4 : x4 < 4) (h5 : x5 < 16) (h6 : x6 < 128) (h7 : x7 < 128) (h8 : x8 < 64) :
    w < 4294967296 ∧ bits w 1 0 = x0 ∧ bits w 2 2 = x1 ∧ bits w 4 3 = x2 ∧ bits w 5 5 = x3 ∧ bits w 7 5 = x3 + x4 * 2 ∧ bits w 7 6 = x4 ∧ bits w 11 8 = x5 ∧ bits w 18 12 = x6 ∧ bits w 25 19 = x7 ∧ bits w 31 26 = x8 := by
  simp only [bits]
  omega

theorem layout42 {w k x0 x1 x2 x3 x4 x5 x6 x7 x8 : Nat} (h : w = k + x7 * 2 ^ 19 + x6 * 2 ^ 12 + x5 * 2 ^ 8 + x4 * 2 ^ 5 + x3 * 2 ^ 4 + x2 * 2 ^ 3 + x1 * 2 ^ 2 + x0 * 2 ^ 0) (hk : k = x8 * 67108864) (h0 : x0 < 4) (h1 : x1 < 2) (h2 : x2 < 2) (h3 : x3 < 2) (h4 : x4 < 8) (h5 : x5 < 16) (h6 : x6 < 128) (h7 : x7 < 128) (h8 : x8 < 64) :
    w < 4294967296 ∧ bits w 1 0 = x0 ∧ bits w 2 2 = x1 ∧ bits w 3 3 = x2 ∧ bits w 4 4 = x3 ∧ bits w 7 5 = x4 ∧ bits w 11 8 = x5 ∧ bits w 18 12 = x6 ∧ bits w 25 19 = x7 ∧ bits w 31 26 = x8 := by
  simp only [bits]
  omega

theorem layout43 {w k x0 x1 x2 x3 x4 x5 x6 : Nat} (h : w = k + x5 * 2 ^ 19 + x4 * 2 ^ 12 + x3 * 2 ^ 8 + x1 * 2 ^ 5) (hk : k = x0 * 1 + x2 * 64 + x6 * 67108864) (h0 : x0 < 32) (h1 : x1 < 2) (h2 : x2 < 4) (h3 : x3 < 16) (h4 : x4 < 128) (h5 : x5 < 128) (h6 : x6 < 64) :
    w < 4294967296 ∧ bits w 4 0 = x0 ∧ bits w 5 5 = x1 ∧ bits w 7 6 = x2 ∧ bits w 11 8 = x3 ∧ bits w 18 12 = x4 ∧ bits w 25 19 = x5 ∧ bits w 31 26 = x6 := by
  simp only [bits]
  omega

theorem layout44 {w k x0 x1 x2 x3 x4 x5 : Nat} (h : w = k + x4 * 2 ^ 19 + x3 * 2 ^ 12 + x2 * 2 ^ 8 + x1 * 2 ^ 5) (hk : k = x0 * 1 + x5 * 67108864) (h0 : x0 < 32) (h1 : x1 < 8) (h2 : x2 < 16) (h3 : x3 < 128) (h4 : x4 < 128) (h5 : x5 < 64) :
    w < 4294967296 ∧ bits w 4 0 = x0 ∧ bits w 7 5 = x1 ∧ bits w 11 8 = x2 ∧ bits w 18 12 = x3 ∧ bits w 25 19 = x4 ∧ bits w 31 26 = x5 := by
  simp only [bits]
  omega

theorem layout45 {w k x0 x1 x2 x3 : Nat} (h : w = k + x2 * 2 ^ 19 + x1 * 2 ^ 12) (hk : k = x0 * 1 + x3 * 4194304) (h0 : x0 < 4096) (h1 : x1 < 128) (h2 : x2 < 8) (h3 : x3 < 1024) :
    w < 4294967296 ∧ bits w 11 0 = x0 ∧ bits w 18 12 = x1 ∧ bits w 21 19 = x2 ∧ bits w 25 22 = x3 / 1 % 16 ∧ bits w 31 26 = x3 / 16 % 64 := by
  simp only [bits]
  omega

theorem layout46 {w k x0 x1 x2 x3 x4 : Nat} (h : w = k + x3 * 2 ^ 19 + x1 * 2 ^ 12) (hk : k = x0 * 1 + x2 * 32768 + x4 * 67108864) (h0 : x0 < 4096) (h1 : x1 < 8) (h2 : x2 < 16) (h3 : x3 < 128) (h4 : x4 < 64) :
    w < 4294967296 ∧ bits w 11 0 = x0 ∧ bits w 14 12 = x1 ∧ bits w 18 12 = x1 + x2 * 8 ∧ bits w 18 15 = x2 ∧ bits w 25 19 = x3 ∧ bits w 31 26 = x4 := by
  simp only [bits]
  omega

theorem layout47 {w k x0 x1 x2 x3 x4 : Nat} (h : w = k + x3 * 2 ^ 14 + x2 * 2 ^ 12 + x1 * 2 ^ 8) (hk : k = x0 * 1 + x4 * 131072) (h0 : x0 < 256) (h1 : x1 < 16) (h2 : x2 < 4) (h3 : x3 < 8) (h4 : x4 < 32768) :
    w < 4294967296 ∧ bits w 7 0 = x0 ∧ bits w 11 8 = x1 ∧ bits w 13 12 = x2 ∧ bits w 16 14 = x3 ∧ bits w 18 18 = x4 / 2 % 2 ∧ bits w 20 19 = x4 / 4 % 4 ∧ bits w 25 17 = x4 / 1 % 512 ∧ bits w 25 19 = x4 / 4 % 128 ∧ bits w 25 21 = x4 / 16 % 32 ∧ bits w 31 26 = x4 / 512 % 64 := by
  simp only [bits]
  omega

theorem layout48 {w k x0 x1 x2 x3 x4 : Nat} (h : w = k + x3 * 2 ^ 19 + x1 * 2 ^ 8) (hk : k = x0 * 1 + x2 * 4096 + x4 * 67108864) (h0 : x0 < 256) (h1 : x1 < 16) (h2 : x2 < 128) (h3 : x3 < 128) (h4 : x4 < 64) :
    w < 4294967296 ∧ bits w 7 0 = x0 ∧ bits w 11 8 = x1 ∧ bits w 12 12 = x2 / 1 % 2 ∧ bits w 13 12 = x2 / 1 % 4 ∧ bits w 16 14 = x2 / 4 % 8 ∧ bits w 17 12 = x2 / 1 % 64 ∧ bits w 18 12 = x2 ∧ bits w 18 13 = x2 / 2 % 64 ∧ bits w 18 18 = x2 / 64 % 2 ∧ bits w 25 12 = x2 + x3 * 128 ∧ bits w 25 19 = x3 ∧ bits w 31 26 = x4 := by
  simp only [bits]
  omega

theorem layout49 {w k x0 x1 x2 : Nat} (h : w = k + x1 * 2 ^ 8) (hk : k = x0 * 1 + x2 * 4096) (h0 : x0 < 256) (h1 : x1 < 16) (h2 : x2 < 1048576) :
    w < 4294967296 ∧ bits w 7 0 = x0 ∧ bits w 11 8 = x1 ∧ bits w 12 12 = x2 / 1 % 2 ∧ bits w 13 12 = x2 / 1 % 4 ∧ bits w 16 14 = x2 / 4 % 8 ∧ bits w 17 12 = x2 / 1 % 64 ∧ bits w 18 12 = x2 / 1 % 128 ∧ bits w 18 13 = x2 / 2 % 64 ∧ bits w 18 18 = x2 / 64 % 2 ∧ bits w 20 19 = x2 / 128 % 4 ∧ bits w 25 12 = x2 / 1 % 16384 ∧ bits w 25 17 = x2 / 32 % 512 ∧ bits w 25 19 = x2 / 128 % 128 ∧ bits w 25 21 = x2 / 512 % 32 ∧ bits w 31 26 = x2 / 16384 % 64 := by
  simp only [bits]
  omega

theorem layout50 {w k x0 x1 x2 x3 x4 x5 : Nat} (h : w = k + x4 * 2 ^ 19 + x2 * 2 ^ 12 + x1 * 2 ^ 8) (hk : k = x0 * 1 + x3 * 8192 + x5 * 67108864) (h0 : x0 < 256) (h1 : x1 < 16) (h2 : x2 < 2) (h3 : x3 < 64) (h4 : x4 < 128) (h5 : x5 < 64) :
    w < 4294967296 ∧ bits w 7 0 = x0 ∧ bits w 11 8 = x1 ∧ bits w 12 12 = x2 ∧ bits w 16 14 = x3 / 2 % 8 ∧ bits w 18 12 = x2 + x3 * 2 ∧ bits w 18 13 = x3 ∧ bits w 18 18 = x3 / 32 % 2 ∧ bits w 25 12 = x2 + x3 * 2 + x4 * 128 ∧ bits w 25 19 = x4 ∧ bits w 31 26 = x5 := by
  simp only [bits]
  omega

theorem layout51 {w k x0 x1 x2 x3 x4 : Nat} (h : w = k + x3 * 2 ^ 19 + x2 * 2 ^ 12 + x1 * 2 ^ 8) (hk : k = x0 * 1 + x4 * 67108864) (h0 : x0 < 256) (h1 : x1 < 16) (h2 : x2 < 128) (h3 : x3 < 128) (h4 : x4 < 64) :
    w < 4294967296 ∧ bits w 7 0 = x0 ∧ bits w 11 8 = x1 ∧ bits w 18 12 = x2 ∧ bits w 25 12 = x2 + x3 * 128 ∧ bits w 25 19 = x3 ∧ bits w 31 26 = x4 := by
  simp only [bits]
  omega

theorem layout52 {w k x0 x1 x2 x3 x4 x5 : Nat} (h : w = k + x4 * 2 ^ 19 + x3 * 2 ^ 18 + x2 * 2 ^ 12 + x1 * 2 ^ 8) (hk : k = x0 * 1 + x5 * 2097152) (h0 : x0 < 256) (h1 : x1 < 16) (h2 : x2 < 64) (h3 : x3 < 2) (h4 : x4 < 4) (h5 : x5 < 2048) :
    w < 4294967296 ∧ bits w 7 0 = x0 ∧ bits w 11 8 = x1 ∧ bits w 17 12 = x2 ∧ bits w 18 12 = x2 + x3 * 64 ∧ bits w 18 18 = x3 ∧ bits w 20 19 = x4 ∧ bits w 25 21 = x5 / 1 % 32 ∧ bits w 31 26 = x5 / 32 % 64 := by
  simp only [bits]
  omega

theorem layout53 {w k x0 x1 x2 x3 x4 : Nat} (h : w = k + x3 * 2 ^ 19 + x1 * 2 ^ 8) (hk : k = x0 * 1 + x2 * 4096 + x4 * 67108864) (h0 : x0 < 256) (h1 : x1 < 16) (h2 : x2 < 128) (h3 : x3 < 128) (h4 : x4 < 64) :
    w < 4294967296 ∧ bits w 7 0 = x0 ∧ bits w 11 8 = x1 ∧ bits w 16 12 = x2 / 1 % 32 ∧ bits w 18 12 = x2 ∧ bits w 25 19 = x3 ∧ bits w 31 26 = x4 := by
  simp only [bits]
  omega

theorem layout54 {w k x0 x1 x2 x3 : Nat} (h : w = k + x2 * 2 ^ 12 + x1 * 2 ^ 8) (hk : k = x0 * 1 + x3 * 131072) (h0 : x0 < 256) (h1 : x1 < 16) (h2 : x2 < 32) (h3 : x3 < 32768) :
    w < 4294967296 ∧ bits w 7 0 = x0 ∧ bits w 11 8 = x1 ∧ bits w 16 12 = x2 ∧ bits w 25 17 = x3 / 1 % 512 ∧ bits w 25 19 = x3 / 4 % 128 ∧ bits w 31 26 = x3 / 512 % 64 := by
  simp only [bits]
  omega

theorem layout55 {w k x0 x1 x2 x3 x4 : Nat} (h : w = k + x3 * 2 ^ 19 + x2 * 2 ^ 12 + x1 * 2 ^ 8) (hk : k = x0 * 1 + x4 * 67108864) (h0 : x0 < 256) (h1 : x1 < 16) (h2 : x2 < 128) (h3 : x3 < 128) (h4 : x4 < 64) :
    w < 4294967296 ∧ bits w 7 0 = x0 ∧ bits w 11 8 = x1 ∧ bits w 18 12 = x2 ∧ bits w 25 19 = x3 ∧ bits w 31 26 = x4 := by
  simp only [bits]
  omega

theorem layout56 {w k x0 x1 x2 x3 : Nat} (h : w = k + x2 * 2 ^ 12 + x1 * 2 ^ 8) (hk : k = x0 * 1 + x3 * 524288) (h0 : x0 < 256) (h1 : x1 < 16) (h2 : x2 < 128) (h3 : x3 < 8192) :
    w < 4294967296 ∧ bits w 7 0 = x0 ∧ bits w 11 8 = x1 ∧ bits w 18 12 = x2 ∧ bits w 25 19 = x3 / 1 % 128 ∧ bits w 31 26 = x3 / 128 % 64 := by
  simp only [bits]
  omega

theorem layout57 {w k x0 x1 x2 x3 x4 : Nat} (h : w = k + x3 * 2 ^ 19 + x1 * 2 ^ 8) (hk : k = x0 * 1 + x2 * 4096 + x4 * 67108864) (h0 : x0 < 256) (h1 : x1 < 16) (h2 : x2 < 128) (h3 : x3 < 128) (h4 : x4 < 64) :
    w < 4294967296 ∧ bits w 7 0 = x0 ∧ bits w 11 8 = x1 ∧ bits w 18 12 = x2 ∧ bits w 25 19 = x3 ∧ bits w 31 26 = x4 := by
  simp only [bits]
  omega

theorem layout58 {w k x0 x1 x2 x3 x4 : Nat} (h : w = k + x3 * 2 ^ 19 + x1 * 2 ^ 8) (hk : k = x0 * 1 + x2 * 4096 + x4 * 67108864) (h0 : x0 < 256) (h1 : x1 < 16) (h2 : x2 < 128) (h3 : x3 < 128) (h4 : x4 < 64) :
    w < 4294967296 ∧ bits w 7 0 = x0 ∧ bits w 11 0 = x0 + x1 * 256 ∧ bits w 11 8 = x1 ∧ bits w 18 12 = x2 ∧ bits w 25 12 = x2 + x3 * 128 ∧ bits w 25 19 = x3 ∧ bits w 31 26 = x4 := by
  simp only [bits]
  omega

theorem layout59 {w k x0 x1 x2 : Nat} (h : w = k + x1 * 2 ^ 8) (hk : k = x0 * 1 + x2 * 4096) (h0 : x0 < 256) (h1 : x1 < 16) (h2 : x2 < 1048576) :
    w < 4294967296 ∧ bits w 7 0 = x0 ∧ bits w 11 0 = x0 + x1 * 256 ∧ bits w 11 8 = x1 ∧ bits w 18 12 = x2 / 1 % 128 ∧ bits w 25 12 = x2 / 1 % 16384 ∧ bits w 25 19 = x2 / 128 % 128 ∧ bits w 31 26 = x2 / 16384 % 64 := by
  simp only [bits]
  omega

theorem layout60 {w k x0 x1 x2 x3 x4 : Nat} (h : w = k + x3 * 2 ^ 19 + x2 * 2 ^ 12 + x1 * 2 ^ 8) (hk : k = x0 * 1 + x4 * 67108864) (h0 : x0 < 256) (h1 : x1 < 16) (h2 : x2 < 128) (h3 : x3 < 128) (h4 : x4 < 64) :
    w < 4294967296 ∧ bits w 7 0 = x0 ∧ bits w 11 0 = x0 + x1 * 256 ∧ bits w 11 8 = x1 ∧ bits w 18 12 = x2 ∧ bits w 25 12 = x2 + x3 * 128 ∧ bits w 25 19 = x3 ∧ bits w 31 26 = x4 := by
  simp only [bits]
  omega

theorem layout61 {w k x0 x1 x2 x3 : Nat} (h : w = k + x2 * 2 ^ 19 + x1 * 2 ^ 12) (hk : k = x0 * 1 + x3 * 67108864) (h0 : x0 < 4096) (h1 : x1 < 128) (h2 : x2 < 128) (h3 : x3 < 64) :
    w < 4294967296 ∧ bits w 7 0 = x0 / 1 % 256 ∧ bits w 11 0 = x0 ∧ bits w 11 8 = x0 / 256 % 16 ∧ bits w 18 12 = x1 ∧ bits w 25 12 = x1 + x2 * 128 ∧ bits w 25 19 = x2 ∧ bits w 31 26 = x3 := by
  simp only [bits]
  omega

theorem layout62 {w k x0 x1 x2 x3 : Nat} (h : w = k + x2 * 2 ^ 12 + x1 * 2 ^ 8) (hk : k = x0 * 1 + x3 * 524288) (h0 : x0 < 256) (h1 : x1 < 16) (h2 : x2 < 128) (h3 : x3 < 8192) :
    w < 4294967296 ∧ bits w 7 0 = x0 ∧ bits w 11 0 = x0 + x1 * 256 ∧ bits w 11 8 = x1 ∧ bits w 18 12 = x2 ∧ bits w 25 19 = x3 / 1 % 128 ∧ bits w 31 26 = x3 / 128 % 64 := by
  simp only [bits]
  omega

theorem add (v : Bool) (d : BitVec 7) (a : BitVec 7) (b : BitVec 7) (u : Bool) : Statement (.add v d a b u) := by
  intro _ _ _ wf
  obtain ⟨hb, e0, e1, e2, e3, e4, e5, e6⟩ := @layout0 (encodeBase (.add v d a b u)) 0 0 (u.toNat) (b.toNat) (a.toNat) (d.toNat) (v.toNat) 0 rfl rfl (by decide) (Nat.lt_succ_of_le (boolNat_le u)) b.isLt a.isLt d.isLt (Nat.lt_succ_of_le (boolNat_le v)) (by decide)
  generalize encodeBase (.add v d a b u) = ww at *
  have b_v := boolNat_le v
  refine ⟨hb, by omega, ?_⟩
  rw [at_00 (by omega) (by omega)]
  simp [decodeMajor00, alone, e0, e1, e2, e3, e4, e5, e6, boolNat_beq]

theorem addc (v : Bool) (d : BitVec 7) (a : BitVec 7) (b : BitVec 7) (u : Bool) : Statement (.addc v d a b u) := by
  intro _ _ _ wf
  obtain ⟨hb, e0, e1, e2, e3, e4, e5, e6⟩ := @layout0 (encodeBase (.addc v d a b u)) 1 1 (u.toNat) (b.toNat) (a.toNat) (d.toNat) (v.toNat) 0 rfl rfl (by decide) (Nat.lt_succ_of_le (boolNat_le u)) b.isLt a.isLt d.isLt (Nat.lt_succ_of_le (boolNat_le v)) (by decide)
  generalize encodeBase (.addc v d a b u) = ww at *
  have b_v := boolNat_le v
  refine ⟨hb, by omega, ?_⟩
  rw [at_00 (by omega) (by omega)]
  simp [decodeMajor00, alone, e0, e1, e2, e3, e4, e5, e6, boolNat_beq]

theorem sub (v : Bool) (d : BitVec 7) (a : BitVec 7) (b : BitVec 7) (u : Bool) : Statement (.sub v d a b u) := by
  intro _ _ _ wf
  obtain ⟨hb, e0, e1, e2, e3, e4, e5, e6⟩ := @layout0 (encodeBase (.sub v d a b u)) 2 2 (u.toNat) (b.toNat) (a.toNat) (d.toNat) (v.toNat) 0 rfl rfl (by decide) (Nat.lt_succ_of_le (boolNat_le u)) b.isLt a.isLt d.isLt (Nat.lt_succ_of_le (boolNat_le v)) (by decide)
  generalize encodeBase (.sub v d a b u) = ww at *
  have b_v := boolNat_le v
  refine ⟨hb, by omega, ?_⟩
  rw [at_00 (by omega) (by omega)]
  simp [decodeMajor00, alone, e0, e1, e2, e3, e4, e5, e6, boolNat_beq]

theorem subb (v : Bool) (d : BitVec 7) (a : BitVec 7) (b : BitVec 7) (u : Bool) : Statement (.subb v d a b u) := by
  intro _ _ _ wf
  obtain ⟨hb, e0, e1, e2, e3, e4, e5, e6⟩ := @layout0 (encodeBase (.subb v d a b u)) 3 3 (u.toNat) (b.toNat) (a.toNat) (d.toNat) (v.toNat) 0 rfl rfl (by decide) (Nat.lt_succ_of_le (boolNat_le u)) b.isLt a.isLt d.isLt (Nat.lt_succ_of_le (boolNat_le v)) (by decide)
  generalize encodeBase (.subb v d a b u) = ww at *
  have b_v := boolNat_le v
  refine ⟨hb, by omega, ?_⟩
  rw [at_00 (by omega) (by omega)]
  simp [decodeMajor00, alone, e0, e1, e2, e3, e4, e5, e6, boolNat_beq]

theorem mul (v : Bool) (d : BitVec 7) (a : BitVec 7) (b : BitVec 7) (u : Bool) : Statement (.mul v d a b u) := by
  intro _ _ _ wf
  obtain ⟨hb, e0, e1, e2, e3, e4, e5, e6⟩ := @layout0 (encodeBase (.mul v d a b u)) 4 4 (u.toNat) (b.toNat) (a.toNat) (d.toNat) (v.toNat) 0 rfl rfl (by decide) (Nat.lt_succ_of_le (boolNat_le u)) b.isLt a.isLt d.isLt (Nat.lt_succ_of_le (boolNat_le v)) (by decide)
  generalize encodeBase (.mul v d a b u) = ww at *
  have b_v := boolNat_le v
  refine ⟨hb, by omega, ?_⟩
  rw [at_00 (by omega) (by omega)]
  simp [decodeMajor00, alone, e0, e1, e2, e3, e4, e5, e6, boolNat_beq]

theorem mulhiI (v : Bool) (d : BitVec 7) (a : BitVec 7) (b : BitVec 7) (u : Bool) : Statement (.mulhiI v d a b u) := by
  intro _ _ _ wf
  obtain ⟨hb, e0, e1, e2, e3, e4, e5, e6⟩ := @layout0 (encodeBase (.mulhiI v d a b u)) 5 5 (u.toNat) (b.toNat) (a.toNat) (d.toNat) (v.toNat) 0 rfl rfl (by decide) (Nat.lt_succ_of_le (boolNat_le u)) b.isLt a.isLt d.isLt (Nat.lt_succ_of_le (boolNat_le v)) (by decide)
  generalize encodeBase (.mulhiI v d a b u) = ww at *
  have b_v := boolNat_le v
  refine ⟨hb, by omega, ?_⟩
  rw [at_00 (by omega) (by omega)]
  simp [decodeMajor00, alone, e0, e1, e2, e3, e4, e5, e6, boolNat_beq]

theorem mulhiN (v : Bool) (d : BitVec 7) (a : BitVec 7) (b : BitVec 7) (u : Bool) : Statement (.mulhiN v d a b u) := by
  intro _ _ _ wf
  obtain ⟨hb, e0, e1, e2, e3, e4, e5, e6⟩ := @layout0 (encodeBase (.mulhiN v d a b u)) 6 6 (u.toNat) (b.toNat) (a.toNat) (d.toNat) (v.toNat) 0 rfl rfl (by decide) (Nat.lt_succ_of_le (boolNat_le u)) b.isLt a.isLt d.isLt (Nat.lt_succ_of_le (boolNat_le v)) (by decide)
  generalize encodeBase (.mulhiN v d a b u) = ww at *
  have b_v := boolNat_le v
  refine ⟨hb, by omega, ?_⟩
  rw [at_00 (by omega) (by omega)]
  simp [decodeMajor00, alone, e0, e1, e2, e3, e4, e5, e6, boolNat_beq]

theorem mad (v : Bool) (d : BitVec 7) (a : BitVec 7) (b : BitVec 7) (u : Bool) : Statement (.mad v d a b u) := by
  intro _ _ _ wf
  obtain ⟨hb, e0, e1, e2, e3, e4, e5, e6⟩ := @layout0 (encodeBase (.mad v d a b u)) 7 7 (u.toNat) (b.toNat) (a.toNat) (d.toNat) (v.toNat) 0 rfl rfl (by decide) (Nat.lt_succ_of_le (boolNat_le u)) b.isLt a.isLt d.isLt (Nat.lt_succ_of_le (boolNat_le v)) (by decide)
  generalize encodeBase (.mad v d a b u) = ww at *
  have b_v := boolNat_le v
  refine ⟨hb, by omega, ?_⟩
  rw [at_00 (by omega) (by omega)]
  simp [decodeMajor00, alone, e0, e1, e2, e3, e4, e5, e6, boolNat_beq]

theorem madWI (d : BitVec 7) (a : BitVec 7) (b : BitVec 7) (u : Bool) : Statement (.madWI d a b u) := by
  intro _ _ _ wf
  obtain ⟨hb, e0, e1, e2, e3, e4, e5, e6⟩ := @layout1 (encodeBase (.madWI d a b u)) 8 8 (u.toNat) (b.toNat) (a.toNat) (d.toNat) 0 rfl rfl (by decide) (Nat.lt_succ_of_le (boolNat_le u)) b.isLt a.isLt d.isLt (by decide)
  generalize encodeBase (.madWI d a b u) = ww at *
  refine ⟨hb, by omega, ?_⟩
  rw [at_00 (by omega) (by omega)]
  simp [decodeMajor00, alone, e0, e1, e2, e3, e4, e5, e6, boolNat_beq]

theorem madWN (d : BitVec 7) (a : BitVec 7) (b : BitVec 7) (u : Bool) : Statement (.madWN d a b u) := by
  intro _ _ _ wf
  obtain ⟨hb, e0, e1, e2, e3, e4, e5, e6⟩ := @layout1 (encodeBase (.madWN d a b u)) 9 9 (u.toNat) (b.toNat) (a.toNat) (d.toNat) 0 rfl rfl (by decide) (Nat.lt_succ_of_le (boolNat_le u)) b.isLt a.isLt d.isLt (by decide)
  generalize encodeBase (.madWN d a b u) = ww at *
  refine ⟨hb, by omega, ?_⟩
  rw [at_00 (by omega) (by omega)]
  simp [decodeMajor00, alone, e0, e1, e2, e3, e4, e5, e6, boolNat_beq]

theorem divI (v : Bool) (d : BitVec 7) (a : BitVec 7) (b : BitVec 7) (u : Bool) : Statement (.divI v d a b u) := by
  intro _ _ _ wf
  obtain ⟨hb, e0, e1, e2, e3, e4, e5, e6⟩ := @layout0 (encodeBase (.divI v d a b u)) 10 10 (u.toNat) (b.toNat) (a.toNat) (d.toNat) (v.toNat) 0 rfl rfl (by decide) (Nat.lt_succ_of_le (boolNat_le u)) b.isLt a.isLt d.isLt (Nat.lt_succ_of_le (boolNat_le v)) (by decide)
  generalize encodeBase (.divI v d a b u) = ww at *
  have b_v := boolNat_le v
  refine ⟨hb, by omega, ?_⟩
  rw [at_00 (by omega) (by omega)]
  simp [decodeMajor00, alone, e0, e1, e2, e3, e4, e5, e6, boolNat_beq]

theorem divN (v : Bool) (d : BitVec 7) (a : BitVec 7) (b : BitVec 7) (u : Bool) : Statement (.divN v d a b u) := by
  intro _ _ _ wf
  obtain ⟨hb, e0, e1, e2, e3, e4, e5, e6⟩ := @layout0 (encodeBase (.divN v d a b u)) 11 11 (u.toNat) (b.toNat) (a.toNat) (d.toNat) (v.toNat) 0 rfl rfl (by decide) (Nat.lt_succ_of_le (boolNat_le u)) b.isLt a.isLt d.isLt (Nat.lt_succ_of_le (boolNat_le v)) (by decide)
  generalize encodeBase (.divN v d a b u) = ww at *
  have b_v := boolNat_le v
  refine ⟨hb, by omega, ?_⟩
  rw [at_00 (by omega) (by omega)]
  simp [decodeMajor00, alone, e0, e1, e2, e3, e4, e5, e6, boolNat_beq]

theorem remI (v : Bool) (d : BitVec 7) (a : BitVec 7) (b : BitVec 7) (u : Bool) : Statement (.remI v d a b u) := by
  intro _ _ _ wf
  obtain ⟨hb, e0, e1, e2, e3, e4, e5, e6⟩ := @layout0 (encodeBase (.remI v d a b u)) 12 12 (u.toNat) (b.toNat) (a.toNat) (d.toNat) (v.toNat) 0 rfl rfl (by decide) (Nat.lt_succ_of_le (boolNat_le u)) b.isLt a.isLt d.isLt (Nat.lt_succ_of_le (boolNat_le v)) (by decide)
  generalize encodeBase (.remI v d a b u) = ww at *
  have b_v := boolNat_le v
  refine ⟨hb, by omega, ?_⟩
  rw [at_00 (by omega) (by omega)]
  simp [decodeMajor00, alone, e0, e1, e2, e3, e4, e5, e6, boolNat_beq]

theorem remN (v : Bool) (d : BitVec 7) (a : BitVec 7) (b : BitVec 7) (u : Bool) : Statement (.remN v d a b u) := by
  intro _ _ _ wf
  obtain ⟨hb, e0, e1, e2, e3, e4, e5, e6⟩ := @layout0 (encodeBase (.remN v d a b u)) 13 13 (u.toNat) (b.toNat) (a.toNat) (d.toNat) (v.toNat) 0 rfl rfl (by decide) (Nat.lt_succ_of_le (boolNat_le u)) b.isLt a.isLt d.isLt (Nat.lt_succ_of_le (boolNat_le v)) (by decide)
  generalize encodeBase (.remN v d a b u) = ww at *
  have b_v := boolNat_le v
  refine ⟨hb, by omega, ?_⟩
  rw [at_00 (by omega) (by omega)]
  simp [decodeMajor00, alone, e0, e1, e2, e3, e4, e5, e6, boolNat_beq]

theorem add64 (d : BitVec 7) (a : BitVec 7) (b : BitVec 7) (u : Bool) : Statement (.add64 d a b u) := by
  intro _ _ _ wf
  obtain ⟨hb, e0, e1, e2, e3, e4, e5, e6⟩ := @layout1 (encodeBase (.add64 d a b u)) 14 14 (u.toNat) (b.toNat) (a.toNat) (d.toNat) 0 rfl rfl (by decide) (Nat.lt_succ_of_le (boolNat_le u)) b.isLt a.isLt d.isLt (by decide)
  generalize encodeBase (.add64 d a b u) = ww at *
  refine ⟨hb, by omega, ?_⟩
  rw [at_00 (by omega) (by omega)]
  simp [decodeMajor00, alone, e0, e1, e2, e3, e4, e5, e6, boolNat_beq]

theorem sub64 (d : BitVec 7) (a : BitVec 7) (b : BitVec 7) (u : Bool) : Statement (.sub64 d a b u) := by
  intro _ _ _ wf
  obtain ⟨hb, e0, e1, e2, e3, e4, e5, e6⟩ := @layout1 (encodeBase (.sub64 d a b u)) 15 15 (u.toNat) (b.toNat) (a.toNat) (d.toNat) 0 rfl rfl (by decide) (Nat.lt_succ_of_le (boolNat_le u)) b.isLt a.isLt d.isLt (by decide)
  generalize encodeBase (.sub64 d a b u) = ww at *
  refine ⟨hb, by omega, ?_⟩
  rw [at_00 (by omega) (by omega)]
  simp [decodeMajor00, alone, e0, e1, e2, e3, e4, e5, e6, boolNat_beq]

theorem and (v : Bool) (d : BitVec 7) (a : BitVec 7) (b : BitVec 7) (u : Bool) : Statement (.and v d a b u) := by
  intro _ _ _ wf
  obtain ⟨hb, e0, e1, e2, e3, e4, e5, e6⟩ := @layout0 (encodeBase (.and v d a b u)) 134217728 0 (u.toNat) (b.toNat) (a.toNat) (d.toNat) (v.toNat) 1 rfl rfl (by decide) (Nat.lt_succ_of_le (boolNat_le u)) b.isLt a.isLt d.isLt (Nat.lt_succ_of_le (boolNat_le v)) (by decide)
  generalize encodeBase (.and v d a b u) = ww at *
  have b_v := boolNat_le v
  refine ⟨hb, by omega, ?_⟩
  rw [at_02 (by omega) (by omega)]
  simp [decodeMajor02, alone, e0, e1, e2, e3, e4, e5, e6, boolNat_beq]

theorem or (v : Bool) (d : BitVec 7) (a : BitVec 7) (b : BitVec 7) (u : Bool) : Statement (.or v d a b u) := by
  intro _ _ _ wf
  obtain ⟨hb, e0, e1, e2, e3, e4, e5, e6⟩ := @layout0 (encodeBase (.or v d a b u)) 134217729 1 (u.toNat) (b.toNat) (a.toNat) (d.toNat) (v.toNat) 1 rfl rfl (by decide) (Nat.lt_succ_of_le (boolNat_le u)) b.isLt a.isLt d.isLt (Nat.lt_succ_of_le (boolNat_le v)) (by decide)
  generalize encodeBase (.or v d a b u) = ww at *
  have b_v := boolNat_le v
  refine ⟨hb, by omega, ?_⟩
  rw [at_02 (by omega) (by omega)]
  simp [decodeMajor02, alone, e0, e1, e2, e3, e4, e5, e6, boolNat_beq]

theorem xor (v : Bool) (d : BitVec 7) (a : BitVec 7) (b : BitVec 7) (u : Bool) : Statement (.xor v d a b u) := by
  intro _ _ _ wf
  obtain ⟨hb, e0, e1, e2, e3, e4, e5, e6⟩ := @layout0 (encodeBase (.xor v d a b u)) 134217730 2 (u.toNat) (b.toNat) (a.toNat) (d.toNat) (v.toNat) 1 rfl rfl (by decide) (Nat.lt_succ_of_le (boolNat_le u)) b.isLt a.isLt d.isLt (Nat.lt_succ_of_le (boolNat_le v)) (by decide)
  generalize encodeBase (.xor v d a b u) = ww at *
  have b_v := boolNat_le v
  refine ⟨hb, by omega, ?_⟩
  rw [at_02 (by omega) (by omega)]
  simp [decodeMajor02, alone, e0, e1, e2, e3, e4, e5, e6, boolNat_beq]

theorem andn (v : Bool) (d : BitVec 7) (a : BitVec 7) (b : BitVec 7) (u : Bool) : Statement (.andn v d a b u) := by
  intro _ _ _ wf
  obtain ⟨hb, e0, e1, e2, e3, e4, e5, e6⟩ := @layout0 (encodeBase (.andn v d a b u)) 134217731 3 (u.toNat) (b.toNat) (a.toNat) (d.toNat) (v.toNat) 1 rfl rfl (by decide) (Nat.lt_succ_of_le (boolNat_le u)) b.isLt a.isLt d.isLt (Nat.lt_succ_of_le (boolNat_le v)) (by decide)
  generalize encodeBase (.andn v d a b u) = ww at *
  have b_v := boolNat_le v
  refine ⟨hb, by omega, ?_⟩
  rw [at_02 (by omega) (by omega)]
  simp [decodeMajor02, alone, e0, e1, e2, e3, e4, e5, e6, boolNat_beq]

theorem shl (v : Bool) (d : BitVec 7) (a : BitVec 7) (b : BitVec 7) (u : Bool) : Statement (.shl v d a b u) := by
  intro _ _ _ wf
  obtain ⟨hb, e0, e1, e2, e3, e4, e5, e6⟩ := @layout0 (encodeBase (.shl v d a b u)) 134217732 4 (u.toNat) (b.toNat) (a.toNat) (d.toNat) (v.toNat) 1 rfl rfl (by decide) (Nat.lt_succ_of_le (boolNat_le u)) b.isLt a.isLt d.isLt (Nat.lt_succ_of_le (boolNat_le v)) (by decide)
  generalize encodeBase (.shl v d a b u) = ww at *
  have b_v := boolNat_le v
  refine ⟨hb, by omega, ?_⟩
  rw [at_02 (by omega) (by omega)]
  simp [decodeMajor02, alone, e0, e1, e2, e3, e4, e5, e6, boolNat_beq]

theorem shr (v : Bool) (d : BitVec 7) (a : BitVec 7) (b : BitVec 7) (u : Bool) : Statement (.shr v d a b u) := by
  intro _ _ _ wf
  obtain ⟨hb, e0, e1, e2, e3, e4, e5, e6⟩ := @layout0 (encodeBase (.shr v d a b u)) 134217733 5 (u.toNat) (b.toNat) (a.toNat) (d.toNat) (v.toNat) 1 rfl rfl (by decide) (Nat.lt_succ_of_le (boolNat_le u)) b.isLt a.isLt d.isLt (Nat.lt_succ_of_le (boolNat_le v)) (by decide)
  generalize encodeBase (.shr v d a b u) = ww at *
  have b_v := boolNat_le v
  refine ⟨hb, by omega, ?_⟩
  rw [at_02 (by omega) (by omega)]
  simp [decodeMajor02, alone, e0, e1, e2, e3, e4, e5, e6, boolNat_beq]

theorem sar (v : Bool) (d : BitVec 7) (a : BitVec 7) (b : BitVec 7) (u : Bool) : Statement (.sar v d a b u) := by
  intro _ _ _ wf
  obtain ⟨hb, e0, e1, e2, e3, e4, e5, e6⟩ := @layout0 (encodeBase (.sar v d a b u)) 134217734 6 (u.toNat) (b.toNat) (a.toNat) (d.toNat) (v.toNat) 1 rfl rfl (by decide) (Nat.lt_succ_of_le (boolNat_le u)) b.isLt a.isLt d.isLt (Nat.lt_succ_of_le (boolNat_le v)) (by decide)
  generalize encodeBase (.sar v d a b u) = ww at *
  have b_v := boolNat_le v
  refine ⟨hb, by omega, ?_⟩
  rw [at_02 (by omega) (by omega)]
  simp [decodeMajor02, alone, e0, e1, e2, e3, e4, e5, e6, boolNat_beq]

theorem rotl (v : Bool) (d : BitVec 7) (a : BitVec 7) (b : BitVec 7) (u : Bool) : Statement (.rotl v d a b u) := by
  intro _ _ _ wf
  obtain ⟨hb, e0, e1, e2, e3, e4, e5, e6⟩ := @layout0 (encodeBase (.rotl v d a b u)) 134217735 7 (u.toNat) (b.toNat) (a.toNat) (d.toNat) (v.toNat) 1 rfl rfl (by decide) (Nat.lt_succ_of_le (boolNat_le u)) b.isLt a.isLt d.isLt (Nat.lt_succ_of_le (boolNat_le v)) (by decide)
  generalize encodeBase (.rotl v d a b u) = ww at *
  have b_v := boolNat_le v
  refine ⟨hb, by omega, ?_⟩
  rw [at_02 (by omega) (by omega)]
  simp [decodeMajor02, alone, e0, e1, e2, e3, e4, e5, e6, boolNat_beq]

theorem popc (v : Bool) (d : BitVec 7) (a : BitVec 7) (u : Bool) : Statement (.popc v d a u) := by
  intro _ _ _ wf
  obtain ⟨hb, e0, e1, e2, e3, e4, e5, e6⟩ := @layout2 (encodeBase (.popc v d a u)) 134217736 8 (u.toNat) 0 (a.toNat) (d.toNat) (v.toNat) 1 rfl rfl (by decide) (Nat.lt_succ_of_le (boolNat_le u)) (by decide) a.isLt d.isLt (Nat.lt_succ_of_le (boolNat_le v)) (by decide)
  generalize encodeBase (.popc v d a u) = ww at *
  have b_v := boolNat_le v
  refine ⟨hb, by omega, ?_⟩
  rw [at_02 (by omega) (by omega)]
  simp [decodeMajor02, alone, e0, e1, e2, e3, e4, e5, e6, boolNat_beq]

theorem clz (v : Bool) (d : BitVec 7) (a : BitVec 7) (u : Bool) : Statement (.clz v d a u) := by
  intro _ _ _ wf
  obtain ⟨hb, e0, e1, e2, e3, e4, e5, e6⟩ := @layout2 (encodeBase (.clz v d a u)) 134217737 9 (u.toNat) 0 (a.toNat) (d.toNat) (v.toNat) 1 rfl rfl (by decide) (Nat.lt_succ_of_le (boolNat_le u)) (by decide) a.isLt d.isLt (Nat.lt_succ_of_le (boolNat_le v)) (by decide)
  generalize encodeBase (.clz v d a u) = ww at *
  have b_v := boolNat_le v
  refine ⟨hb, by omega, ?_⟩
  rw [at_02 (by omega) (by omega)]
  simp [decodeMajor02, alone, e0, e1, e2, e3, e4, e5, e6, boolNat_beq]

theorem brev (v : Bool) (d : BitVec 7) (a : BitVec 7) (u : Bool) : Statement (.brev v d a u) := by
  intro _ _ _ wf
  obtain ⟨hb, e0, e1, e2, e3, e4, e5, e6⟩ := @layout2 (encodeBase (.brev v d a u)) 134217738 10 (u.toNat) 0 (a.toNat) (d.toNat) (v.toNat) 1 rfl rfl (by decide) (Nat.lt_succ_of_le (boolNat_le u)) (by decide) a.isLt d.isLt (Nat.lt_succ_of_le (boolNat_le v)) (by decide)
  generalize encodeBase (.brev v d a u) = ww at *
  have b_v := boolNat_le v
  refine ⟨hb, by omega, ?_⟩
  rw [at_02 (by omega) (by omega)]
  simp [decodeMajor02, alone, e0, e1, e2, e3, e4, e5, e6, boolNat_beq]

theorem minI (v : Bool) (d : BitVec 7) (a : BitVec 7) (b : BitVec 7) (u : Bool) : Statement (.minI v d a b u) := by
  intro _ _ _ wf
  obtain ⟨hb, e0, e1, e2, e3, e4, e5, e6⟩ := @layout0 (encodeBase (.minI v d a b u)) 134217739 11 (u.toNat) (b.toNat) (a.toNat) (d.toNat) (v.toNat) 1 rfl rfl (by decide) (Nat.lt_succ_of_le (boolNat_le u)) b.isLt a.isLt d.isLt (Nat.lt_succ_of_le (boolNat_le v)) (by decide)
  generalize encodeBase (.minI v d a b u) = ww at *
  have b_v := boolNat_le v
  refine ⟨hb, by omega, ?_⟩
  rw [at_02 (by omega) (by omega)]
  simp [decodeMajor02, alone, e0, e1, e2, e3, e4, e5, e6, boolNat_beq]

theorem minN (v : Bool) (d : BitVec 7) (a : BitVec 7) (b : BitVec 7) (u : Bool) : Statement (.minN v d a b u) := by
  intro _ _ _ wf
  obtain ⟨hb, e0, e1, e2, e3, e4, e5, e6⟩ := @layout0 (encodeBase (.minN v d a b u)) 134217740 12 (u.toNat) (b.toNat) (a.toNat) (d.toNat) (v.toNat) 1 rfl rfl (by decide) (Nat.lt_succ_of_le (boolNat_le u)) b.isLt a.isLt d.isLt (Nat.lt_succ_of_le (boolNat_le v)) (by decide)
  generalize encodeBase (.minN v d a b u) = ww at *
  have b_v := boolNat_le v
  refine ⟨hb, by omega, ?_⟩
  rw [at_02 (by omega) (by omega)]
  simp [decodeMajor02, alone, e0, e1, e2, e3, e4, e5, e6, boolNat_beq]

theorem maxI (v : Bool) (d : BitVec 7) (a : BitVec 7) (b : BitVec 7) (u : Bool) : Statement (.maxI v d a b u) := by
  intro _ _ _ wf
  obtain ⟨hb, e0, e1, e2, e3, e4, e5, e6⟩ := @layout0 (encodeBase (.maxI v d a b u)) 134217741 13 (u.toNat) (b.toNat) (a.toNat) (d.toNat) (v.toNat) 1 rfl rfl (by decide) (Nat.lt_succ_of_le (boolNat_le u)) b.isLt a.isLt d.isLt (Nat.lt_succ_of_le (boolNat_le v)) (by decide)
  generalize encodeBase (.maxI v d a b u) = ww at *
  have b_v := boolNat_le v
  refine ⟨hb, by omega, ?_⟩
  rw [at_02 (by omega) (by omega)]
  simp [decodeMajor02, alone, e0, e1, e2, e3, e4, e5, e6, boolNat_beq]

theorem maxN (v : Bool) (d : BitVec 7) (a : BitVec 7) (b : BitVec 7) (u : Bool) : Statement (.maxN v d a b u) := by
  intro _ _ _ wf
  obtain ⟨hb, e0, e1, e2, e3, e4, e5, e6⟩ := @layout0 (encodeBase (.maxN v d a b u)) 134217742 14 (u.toNat) (b.toNat) (a.toNat) (d.toNat) (v.toNat) 1 rfl rfl (by decide) (Nat.lt_succ_of_le (boolNat_le u)) b.isLt a.isLt d.isLt (Nat.lt_succ_of_le (boolNat_le v)) (by decide)
  generalize encodeBase (.maxN v d a b u) = ww at *
  have b_v := boolNat_le v
  refine ⟨hb, by omega, ?_⟩
  rw [at_02 (by omega) (by omega)]
  simp [decodeMajor02, alone, e0, e1, e2, e3, e4, e5, e6, boolNat_beq]

theorem abs (v : Bool) (d : BitVec 7) (a : BitVec 7) (u : Bool) : Statement (.abs v d a u) := by
  intro _ _ _ wf
  obtain ⟨hb, e0, e1, e2, e3, e4, e5, e6⟩ := @layout2 (encodeBase (.abs v d a u)) 134217743 15 (u.toNat) 0 (a.toNat) (d.toNat) (v.toNat) 1 rfl rfl (by decide) (Nat.lt_succ_of_le (boolNat_le u)) (by decide) a.isLt d.isLt (Nat.lt_succ_of_le (boolNat_le v)) (by decide)
  generalize encodeBase (.abs v d a u) = ww at *
  have b_v := boolNat_le v
  refine ⟨hb, by omega, ?_⟩
  rw [at_02 (by omega) (by omega)]
  simp [decodeMajor02, alone, e0, e1, e2, e3, e4, e5, e6, boolNat_beq]

theorem bfxI (v : Bool) (d : BitVec 7) (a : BitVec 7) (b : BitVec 7) (u : Bool) : Statement (.bfxI v d a b u) := by
  intro _ _ _ wf
  obtain ⟨hb, e0, e1, e2, e3, e4, e5, e6⟩ := @layout0 (encodeBase (.bfxI v d a b u)) 268435456 0 (u.toNat) (b.toNat) (a.toNat) (d.toNat) (v.toNat) 2 rfl rfl (by decide) (Nat.lt_succ_of_le (boolNat_le u)) b.isLt a.isLt d.isLt (Nat.lt_succ_of_le (boolNat_le v)) (by decide)
  generalize encodeBase (.bfxI v d a b u) = ww at *
  have b_v := boolNat_le v
  refine ⟨hb, by omega, ?_⟩
  rw [at_04 (by omega) (by omega)]
  simp [decodeMajor04, alone, e0, e1, e2, e3, e4, e5, e6, boolNat_beq]

theorem bfxN (v : Bool) (d : BitVec 7) (a : BitVec 7) (b : BitVec 7) (u : Bool) : Statement (.bfxN v d a b u) := by
  intro _ _ _ wf
  obtain ⟨hb, e0, e1, e2, e3, e4, e5, e6⟩ := @layout0 (encodeBase (.bfxN v d a b u)) 268435457 1 (u.toNat) (b.toNat) (a.toNat) (d.toNat) (v.toNat) 2 rfl rfl (by decide) (Nat.lt_succ_of_le (boolNat_le u)) b.isLt a.isLt d.isLt (Nat.lt_succ_of_le (boolNat_le v)) (by decide)
  generalize encodeBase (.bfxN v d a b u) = ww at *
  have b_v := boolNat_le v
  refine ⟨hb, by omega, ?_⟩
  rw [at_04 (by omega) (by omega)]
  simp [decodeMajor04, alone, e0, e1, e2, e3, e4, e5, e6, boolNat_beq]

theorem bfi (v : Bool) (d : BitVec 7) (a : BitVec 7) (b : BitVec 7) (u : Bool) : Statement (.bfi v d a b u) := by
  intro _ _ _ wf
  obtain ⟨hb, e0, e1, e2, e3, e4, e5, e6⟩ := @layout0 (encodeBase (.bfi v d a b u)) 268435458 2 (u.toNat) (b.toNat) (a.toNat) (d.toNat) (v.toNat) 2 rfl rfl (by decide) (Nat.lt_succ_of_le (boolNat_le u)) b.isLt a.isLt d.isLt (Nat.lt_succ_of_le (boolNat_le v)) (by decide)
  generalize encodeBase (.bfi v d a b u) = ww at *
  have b_v := boolNat_le v
  refine ⟨hb, by omega, ?_⟩
  rw [at_04 (by omega) (by omega)]
  simp [decodeMajor04, alone, e0, e1, e2, e3, e4, e5, e6, boolNat_beq]

theorem prmt (v : Bool) (d : BitVec 7) (a : BitVec 7) (b : BitVec 7) (u : Bool) : Statement (.prmt v d a b u) := by
  intro _ _ _ wf
  obtain ⟨hb, e0, e1, e2, e3, e4, e5, e6⟩ := @layout0 (encodeBase (.prmt v d a b u)) 268435459 3 (u.toNat) (b.toNat) (a.toNat) (d.toNat) (v.toNat) 2 rfl rfl (by decide) (Nat.lt_succ_of_le (boolNat_le u)) b.isLt a.isLt d.isLt (Nat.lt_succ_of_le (boolNat_le v)) (by decide)
  generalize encodeBase (.prmt v d a b u) = ww at *
  have b_v := boolNat_le v
  refine ⟨hb, by omega, ?_⟩
  rw [at_04 (by omega) (by omega)]
  simp [decodeMajor04, alone, e0, e1, e2, e3, e4, e5, e6, boolNat_beq]

theorem mov (v : Bool) (d : BitVec 7) (b : BitVec 7) (u : Bool) : Statement (.mov v d b u) := by
  intro _ _ _ wf
  obtain ⟨hb, e0, e1, e2, e3, e4, e5, e6⟩ := @layout3 (encodeBase (.mov v d b u)) 268435460 4 (u.toNat) (b.toNat) 0 (d.toNat) (v.toNat) 2 rfl rfl (by decide) (Nat.lt_succ_of_le (boolNat_le u)) b.isLt (by decide) d.isLt (Nat.lt_succ_of_le (boolNat_le v)) (by decide)
  generalize encodeBase (.mov v d b u) = ww at *
  have b_v := boolNat_le v
  refine ⟨hb, by omega, ?_⟩
  rw [at_04 (by omega) (by omega)]
  simp [decodeMajor04, alone, e0, e1, e2, e3, e4, e5, e6, boolNat_beq]

theorem lea1 (v : Bool) (d : BitVec 7) (a : BitVec 7) (b : BitVec 7) (u : Bool) : Statement (.lea1 v d a b u) := by
  intro _ _ _ wf
  obtain ⟨hb, e0, e1, e2, e3, e4, e5, e6⟩ := @layout0 (encodeBase (.lea1 v d a b u)) 268435461 5 (u.toNat) (b.toNat) (a.toNat) (d.toNat) (v.toNat) 2 rfl rfl (by decide) (Nat.lt_succ_of_le (boolNat_le u)) b.isLt a.isLt d.isLt (Nat.lt_succ_of_le (boolNat_le v)) (by decide)
  generalize encodeBase (.lea1 v d a b u) = ww at *
  have b_v := boolNat_le v
  refine ⟨hb, by omega, ?_⟩
  rw [at_04 (by omega) (by omega)]
  simp [decodeMajor04, alone, e0, e1, e2, e3, e4, e5, e6, boolNat_beq]

theorem lea2 (v : Bool) (d : BitVec 7) (a : BitVec 7) (b : BitVec 7) (u : Bool) : Statement (.lea2 v d a b u) := by
  intro _ _ _ wf
  obtain ⟨hb, e0, e1, e2, e3, e4, e5, e6⟩ := @layout0 (encodeBase (.lea2 v d a b u)) 268435462 6 (u.toNat) (b.toNat) (a.toNat) (d.toNat) (v.toNat) 2 rfl rfl (by decide) (Nat.lt_succ_of_le (boolNat_le u)) b.isLt a.isLt d.isLt (Nat.lt_succ_of_le (boolNat_le v)) (by decide)
  generalize encodeBase (.lea2 v d a b u) = ww at *
  have b_v := boolNat_le v
  refine ⟨hb, by omega, ?_⟩
  rw [at_04 (by omega) (by omega)]
  simp [decodeMajor04, alone, e0, e1, e2, e3, e4, e5, e6, boolNat_beq]

theorem lea4 (v : Bool) (d : BitVec 7) (a : BitVec 7) (b : BitVec 7) (u : Bool) : Statement (.lea4 v d a b u) := by
  intro _ _ _ wf
  obtain ⟨hb, e0, e1, e2, e3, e4, e5, e6⟩ := @layout0 (encodeBase (.lea4 v d a b u)) 268435463 7 (u.toNat) (b.toNat) (a.toNat) (d.toNat) (v.toNat) 2 rfl rfl (by decide) (Nat.lt_succ_of_le (boolNat_le u)) b.isLt a.isLt d.isLt (Nat.lt_succ_of_le (boolNat_le v)) (by decide)
  generalize encodeBase (.lea4 v d a b u) = ww at *
  have b_v := boolNat_le v
  refine ⟨hb, by omega, ?_⟩
  rw [at_04 (by omega) (by omega)]
  simp [decodeMajor04, alone, e0, e1, e2, e3, e4, e5, e6, boolNat_beq]

theorem lea8 (v : Bool) (d : BitVec 7) (a : BitVec 7) (b : BitVec 7) (u : Bool) : Statement (.lea8 v d a b u) := by
  intro _ _ _ wf
  obtain ⟨hb, e0, e1, e2, e3, e4, e5, e6⟩ := @layout0 (encodeBase (.lea8 v d a b u)) 268435464 8 (u.toNat) (b.toNat) (a.toNat) (d.toNat) (v.toNat) 2 rfl rfl (by decide) (Nat.lt_succ_of_le (boolNat_le u)) b.isLt a.isLt d.isLt (Nat.lt_succ_of_le (boolNat_le v)) (by decide)
  generalize encodeBase (.lea8 v d a b u) = ww at *
  have b_v := boolNat_le v
  refine ⟨hb, by omega, ?_⟩
  rw [at_04 (by omega) (by omega)]
  simp [decodeMajor04, alone, e0, e1, e2, e3, e4, e5, e6, boolNat_beq]

theorem addImm (v : Bool) (d : BitVec 7) (a : BitVec 7) (i : BitVec 38) : Statement (.addImm v d a i) := by
  intro _ _ _ wf
  obtain ⟨hb, e0, e1, e2, e3, e4⟩ := @layout4 (encodeBase (.addImm v d a i)) 402653184 (i.toNat % 4096) (a.toNat) (d.toNat) (v.toNat) 3 rfl rfl (Nat.mod_lt _ (by decide)) a.isLt d.isLt (Nat.lt_succ_of_le (boolNat_le v)) (by decide)
  generalize encodeBase (.addImm v d a i) = ww at *
  have b_v := boolNat_le v
  refine ⟨hb, by omega, ?_⟩
  rw [at_06 (by omega) (by omega)]
  simp [decodeMajor06, alone, e0, e1, e2, e3, e4, boolNat_beq]
  rw [sext12]

theorem movi (v : Bool) (d : BitVec 7) (i : BitVec 38) : Statement (.movi v d i) := by
  intro _ _ _ wf
  obtain ⟨hb, e0, e1, e2, e3, e4⟩ := @layout5 (encodeBase (.movi v d i)) 536870912 (i.toNat % 4096) 0 (d.toNat) (v.toNat) 4 rfl rfl (Nat.mod_lt _ (by decide)) (by decide) d.isLt (Nat.lt_succ_of_le (boolNat_le v)) (by decide)
  generalize encodeBase (.movi v d i) = ww at *
  have b_v := boolNat_le v
  refine ⟨hb, by omega, ?_⟩
  rw [at_08 (by omega) (by omega)]
  simp [decodeMajor08, alone, e0, e1, e2, e3, e4, boolNat_beq]
  rw [sext12]

theorem shlImm (v : Bool) (d : BitVec 7) (a : BitVec 7) (c : BitVec 6) : Statement (.shlImm v d a c) := by
  intro _ _ _ wf
  obtain ⟨hb, e0, e1, e2, e3, e4, e5⟩ := @layout6 (encodeBase (.shlImm v d a c)) 671088640 (c.toNat) 0 (a.toNat) (d.toNat) (v.toNat) 5 rfl rfl c.isLt (by decide) a.isLt d.isLt (Nat.lt_succ_of_le (boolNat_le v)) (by decide)
  generalize encodeBase (.shlImm v d a c) = ww at *
  have b_v := boolNat_le v
  refine ⟨hb, by omega, ?_⟩
  rw [at_0A (by omega) (by omega)]
  simp [decodeMajor0A, alone, e0, e1, e2, e3, e4, e5, boolNat_beq]

theorem shrImm (v : Bool) (d : BitVec 7) (a : BitVec 7) (c : BitVec 6) : Statement (.shrImm v d a c) := by
  intro _ _ _ wf
  obtain ⟨hb, e0, e1, e2, e3, e4, e5⟩ := @layout6 (encodeBase (.shrImm v d a c)) 671088896 (c.toNat) 4 (a.toNat) (d.toNat) (v.toNat) 5 rfl rfl c.isLt (by decide) a.isLt d.isLt (Nat.lt_succ_of_le (boolNat_le v)) (by decide)
  generalize encodeBase (.shrImm v d a c) = ww at *
  have b_v := boolNat_le v
  refine ⟨hb, by omega, ?_⟩
  rw [at_0A (by omega) (by omega)]
  simp [decodeMajor0A, alone, e0, e1, e2, e3, e4, e5, boolNat_beq]

theorem sarImm (v : Bool) (d : BitVec 7) (a : BitVec 7) (c : BitVec 6) : Statement (.sarImm v d a c) := by
  intro _ _ _ wf
  obtain ⟨hb, e0, e1, e2, e3, e4, e5⟩ := @layout6 (encodeBase (.sarImm v d a c)) 671089152 (c.toNat) 8 (a.toNat) (d.toNat) (v.toNat) 5 rfl rfl c.isLt (by decide) a.isLt d.isLt (Nat.lt_succ_of_le (boolNat_le v)) (by decide)
  generalize encodeBase (.sarImm v d a c) = ww at *
  have b_v := boolNat_le v
  refine ⟨hb, by omega, ?_⟩
  rw [at_0A (by omega) (by omega)]
  simp [decodeMajor0A, alone, e0, e1, e2, e3, e4, e5, boolNat_beq]

theorem rotlImm (v : Bool) (d : BitVec 7) (a : BitVec 7) (c : BitVec 6) : Statement (.rotlImm v d a c) := by
  intro _ _ _ wf
  obtain ⟨hb, e0, e1, e2, e3, e4, e5⟩ := @layout6 (encodeBase (.rotlImm v d a c)) 671089408 (c.toNat) 12 (a.toNat) (d.toNat) (v.toNat) 5 rfl rfl c.isLt (by decide) a.isLt d.isLt (Nat.lt_succ_of_le (boolNat_le v)) (by decide)
  generalize encodeBase (.rotlImm v d a c) = ww at *
  have b_v := boolNat_le v
  refine ⟨hb, by omega, ?_⟩
  rw [at_0A (by omega) (by omega)]
  simp [decodeMajor0A, alone, e0, e1, e2, e3, e4, e5, boolNat_beq]

theorem icvt (v : Bool) (d : BitVec 7) (a : BitVec 7) (s : Bool) (x : BitVec 4) (y : BitVec 4) : Statement (.icvt v d a s x y) := by
  intro _ _ _ wf
  obtain ⟨hb, e0, e1, e2, e3, e4, e5, e6, e7⟩ := @layout7 (encodeBase (.icvt v d a s x y)) 805306368 (y.toNat) (x.toNat) (s.toNat) 0 (a.toNat) (d.toNat) (v.toNat) 6 rfl rfl y.isLt x.isLt (Nat.lt_succ_of_le (boolNat_le s)) (by decide) a.isLt d.isLt (Nat.lt_succ_of_le (boolNat_le v)) (by decide)
  generalize encodeBase (.icvt v d a s x y) = ww at *
  have b_v := boolNat_le v
  refine ⟨hb, by omega, ?_⟩
  rw [at_0C (by omega) (by omega)]
  simp [decodeMajor0C, alone, e0, e1, e2, e3, e4, e5, e6, e7, boolNat_beq]

theorem sel (d : BitVec 7) (a : BitVec 7) (b : BitVec 7) (u : Bool) (p : BitVec 4) : Statement (.sel d a b u p) := by
  intro _ _ _ wf
  obtain ⟨hb, e0, e1, e2, e3, e4, e5⟩ := @layout8 (encodeBase (.sel d a b u p)) 939524096 (p.toNat) (u.toNat) (b.toNat) (a.toNat) (d.toNat) 14 rfl rfl p.isLt (Nat.lt_succ_of_le (boolNat_le u)) b.isLt a.isLt d.isLt (by decide)
  generalize encodeBase (.sel d a b u p) = ww at *
  refine ⟨hb, by omega, ?_⟩
  rw [at_0E e5]
  simp [decodeMajor0E, alone, e0, e1, e2, e3, e4, e5, boolNat_beq]

theorem setp (w : BitVec 3) (p : BitVec 4) (a : BitVec 7) (b : BitVec 7) (u : Bool) (c : BitVec 4) : Statement (.setp w p a b u c) := by
  intro _ _ _ wf
  obtain ⟨hb, e0, e1, e2, e3, e4, e5, e6⟩ := @layout9 (encodeBase (.setp w p a b u c)) 1073741824 (c.toNat) (u.toNat) (b.toNat) (a.toNat) (p.toNat) (w.toNat) 16 rfl rfl c.isLt (Nat.lt_succ_of_le (boolNat_le u)) b.isLt a.isLt p.isLt w.isLt (by decide)
  generalize encodeBase (.setp w p a b u c) = ww at *
  refine ⟨hb, by omega, ?_⟩
  rw [at_10 e6]
  simp [decodeMajor10, alone, e0, e1, e2, e3, e4, e5, e6, boolNat_beq]

theorem pand (d : BitVec 4) (a : BitVec 4) (b : BitVec 4) : Statement (.pand d a b) := by
  intro _ _ _ wf
  obtain ⟨hb, e0, e1, e2, e3, e4, e5, e6, e7, e8⟩ := @layout10 (encodeBase (.pand d a b)) 1140850688 0 (b.toNat) 0 (a.toNat) 0 (d.toNat) 136 rfl rfl (by decide) b.isLt (by decide) a.isLt (by decide) d.isLt (by decide)
  have hw : encodeBase (.pand d a b) = put b.toNat 5 (put a.toNat 12 (put d.toNat 19 0x44000000)) := rfl
  generalize encodeBase (.pand d a b) = ww at *
  refine ⟨hb, by omega, ?_⟩
  rw [at_11 e8]
  simp [decodeMajor11, alone, e0, e1, e2, e3, e4, e5, e6, e7, e8, boolNat_beq] <;> repeat rw [if_neg (by first | omega | (simp only [bits, put] at *; omega))]

theorem por (d : BitVec 4) (a : BitVec 4) (b : BitVec 4) : Statement (.por d a b) := by
  intro _ _ _ wf
  obtain ⟨hb, e0, e1, e2, e3, e4, e5, e6, e7, e8⟩ := @layout10 (encodeBase (.por d a b)) 1140850689 1 (b.toNat) 0 (a.toNat) 0 (d.toNat) 136 rfl rfl (by decide) b.isLt (by decide) a.isLt (by decide) d.isLt (by decide)
  have hw : encodeBase (.por d a b) = put b.toNat 5 (put a.toNat 12 (put d.toNat 19 0x44000001)) := rfl
  generalize encodeBase (.por d a b) = ww at *
  refine ⟨hb, by omega, ?_⟩
  rw [at_11 e8]
  simp [decodeMajor11, alone, e0, e1, e2, e3, e4, e5, e6, e7, e8, boolNat_beq] <;> repeat rw [if_neg (by first | omega | (simp only [bits, put] at *; omega))]

theorem pxor (d : BitVec 4) (a : BitVec 4) (b : BitVec 4) : Statement (.pxor d a b) := by
  intro _ _ _ wf
  obtain ⟨hb, e0, e1, e2, e3, e4, e5, e6, e7, e8⟩ := @layout10 (encodeBase (.pxor d a b)) 1140850690 2 (b.toNat) 0 (a.toNat) 0 (d.toNat) 136 rfl rfl (by decide) b.isLt (by decide) a.isLt (by decide) d.isLt (by decide)
  have hw : encodeBase (.pxor d a b) = put b.toNat 5 (put a.toNat 12 (put d.toNat 19 0x44000002)) := rfl
  generalize encodeBase (.pxor d a b) = ww at *
  refine ⟨hb, by omega, ?_⟩
  rw [at_11 e8]
  simp [decodeMajor11, alone, e0, e1, e2, e3, e4, e5, e6, e7, e8, boolNat_beq] <;> repeat rw [if_neg (by first | omega | (simp only [bits, put] at *; omega))]

theorem pnot (d : BitVec 4) (a : BitVec 4) : Statement (.pnot d a) := by
  intro _ _ _ wf
  obtain ⟨hb, e0, e1, e2, e3, e4, e5, e6, e7, e8⟩ := @layout11 (encodeBase (.pnot d a)) 1140850691 3 (a.toNat) 0 (d.toNat) 136 rfl rfl (by decide) a.isLt (by decide) d.isLt (by decide)
  generalize encodeBase (.pnot d a) = ww at *
  refine ⟨hb, by omega, ?_⟩
  rw [at_11 e8]
  simp [decodeMajor11, alone, e0, e1, e2, e3, e4, e5, e6, e7, e8, boolNat_beq]

theorem pmov (d : BitVec 4) (a : BitVec 4) : Statement (.pmov d a) := by
  intro _ _ _ wf
  obtain ⟨hb, e0, e1, e2, e3, e4, e5, e6, e7, e8⟩ := @layout11 (encodeBase (.pmov d a)) 1140850692 4 (a.toNat) 0 (d.toNat) 136 rfl rfl (by decide) a.isLt (by decide) d.isLt (by decide)
  generalize encodeBase (.pmov d a) = ww at *
  refine ⟨hb, by omega, ?_⟩
  rw [at_11 e8]
  simp [decodeMajor11, alone, e0, e1, e2, e3, e4, e5, e6, e7, e8, boolNat_beq]

theorem shfl (d : BitVec 7) (a : BitVec 7) (b : BitVec 7) (u : Bool) (m : BitVec 2) : Statement (.shfl d a b u m) := by
  intro _ _ _ wf
  obtain ⟨hb, e0, e1, e2, e3, e4, e5, e6⟩ := @layout12 (encodeBase (.shfl d a b u m)) 1207959552 (m.toNat) 0 (u.toNat) (b.toNat) (a.toNat) (d.toNat) 18 rfl rfl m.isLt (by decide) (Nat.lt_succ_of_le (boolNat_le u)) b.isLt a.isLt d.isLt (by decide)
  generalize encodeBase (.shfl d a b u m) = ww at *
  refine ⟨hb, by omega, ?_⟩
  rw [at_12 e6]
  simp [decodeMajor12, alone, e0, e1, e2, e3, e4, e5, e6, boolNat_beq]

theorem qswap (d : BitVec 7) (a : BitVec 7) (m : BitVec 2) : Statement (.qswap d a m) := by
  intro _ _ _ wf
  obtain ⟨hb, e0, e1, e2, e3, e4⟩ := @layout13 (encodeBase (.qswap d a m)) 1275068416 (m.toNat) 0 (a.toNat) (d.toNat) 19 rfl rfl m.isLt (by decide) a.isLt d.isLt (by decide)
  generalize encodeBase (.qswap d a m) = ww at *
  refine ⟨hb, by omega, ?_⟩
  rw [at_13 e4]
  simp [decodeMajor13, alone, e0, e1, e2, e3, e4, boolNat_beq]

theorem voteAll (d : BitVec 4) (a : BitVec 4) : Statement (.voteAll d a) := by
  intro _ _ _ wf
  obtain ⟨hb, e0, e1, e2, e3, e4, e5⟩ := @layout14 (encodeBase (.voteAll d a)) 1342177280 0 (a.toNat) 0 (d.toNat) 160 rfl rfl (by decide) a.isLt (by decide) d.isLt (by decide)
  generalize encodeBase (.voteAll d a) = ww at *
  refine ⟨hb, by omega, ?_⟩
  rw [at_14 e5]
  simp [decodeMajor14, alone, e0, e1, e2, e3, e4, e5, boolNat_beq]

theorem voteAny (d : BitVec 4) (a : BitVec 4) : Statement (.voteAny d a) := by
  intro _ _ _ wf
  obtain ⟨hb, e0, e1, e2, e3, e4, e5⟩ := @layout14 (encodeBase (.voteAny d a)) 1342177281 1 (a.toNat) 0 (d.toNat) 160 rfl rfl (by decide) a.isLt (by decide) d.isLt (by decide)
  generalize encodeBase (.voteAny d a) = ww at *
  refine ⟨hb, by omega, ?_⟩
  rw [at_14 e5]
  simp [decodeMajor14, alone, e0, e1, e2, e3, e4, e5, boolNat_beq]

theorem voteBallot (d : BitVec 7) (a : BitVec 4) : Statement (.voteBallot d a) := by
  intro _ _ _ wf
  obtain ⟨hb, e0, e1, e2, e3, e4⟩ := @layout15 (encodeBase (.voteBallot d a)) 1342177282 2 (a.toNat) 0 (d.toNat) 20 rfl rfl (by decide) a.isLt (by decide) d.isLt (by decide)
  generalize encodeBase (.voteBallot d a) = ww at *
  refine ⟨hb, by omega, ?_⟩
  rw [at_14 e4]
  simp [decodeMajor14, alone, e0, e1, e2, e3, e4, boolNat_beq]

theorem redux (d : BitVec 7) (a : BitVec 7) (o : BitVec 3) : Statement (.redux d a o) := by
  intro _ _ _ wf
  obtain ⟨hb, e0, e1, e2, e3, e4⟩ := @layout16 (encodeBase (.redux d a o)) 1409286144 (o.toNat) 0 (a.toNat) (d.toNat) 21 rfl rfl o.isLt (by decide) a.isLt d.isLt (by decide)
  generalize encodeBase (.redux d a o) = ww at *
  refine ⟨hb, by omega, ?_⟩
  rw [at_15 e4]
  simp [decodeMajor15, alone, e0, e1, e2, e3, e4, boolNat_beq]

theorem rdlane (d : BitVec 7) (a : BitVec 7) (b : BitVec 7) : Statement (.rdlane d a b) := by
  intro _ _ _ wf
  obtain ⟨hb, e0, e1, e2, e3, e4⟩ := @layout17 (encodeBase (.rdlane d a b)) 1476395024 16 (b.toNat) (a.toNat) (d.toNat) 22 rfl rfl (by decide) b.isLt a.isLt d.isLt (by decide)
  generalize encodeBase (.rdlane d a b) = ww at *
  refine ⟨hb, by omega, ?_⟩
  rw [at_16 e4]
  simp [decodeMajor16, alone, e0, e1, e2, e3, e4, boolNat_beq]

theorem wrlane (d : BitVec 7) (a : BitVec 7) (b : BitVec 7) : Statement (.wrlane d a b) := by
  intro _ _ _ wf
  obtain ⟨hb, e0, e1, e2, e3, e4⟩ := @layout17 (encodeBase (.wrlane d a b)) 1476395025 17 (b.toNat) (a.toNat) (d.toNat) 22 rfl rfl (by decide) b.isLt a.isLt d.isLt (by decide)
  generalize encodeBase (.wrlane d a b) = ww at *
  refine ⟨hb, by omega, ?_⟩
  rw [at_16 e4]
  simp [decodeMajor16, alone, e0, e1, e2, e3, e4, boolNat_beq]

theorem br (p : BitVec 4) (c : BitVec 4) (n : Bool) (o : BitVec 42) : Statement (.br p c n o) := by
  intro _ _ _ wf
  obtain ⟨hb, e0, e1, e2, e3, e4, e5⟩ := @layout18 (encodeBase (.br p c n o)) 1610612736 (o.toNat % 65536) (n.toNat) (c.toNat) (p.toNat) 48 rfl rfl (Nat.mod_lt _ (by decide)) (Nat.lt_succ_of_le (boolNat_le n)) c.isLt p.isLt (by decide)
  generalize encodeBase (.br p c n o) = ww at *
  refine ⟨hb, by omega, ?_⟩
  rw [at_18 e5]
  simp [decodeMajor18, alone, e0, e1, e2, e3, e4, e5, boolNat_beq]
  rw [sext16]

theorem jmp (p : BitVec 4) (c : BitVec 4) (n : Bool) (o : BitVec 42) : Statement (.jmp p c n o) := by
  intro _ _ _ wf
  obtain ⟨hb, e0, e1, e2, e3, e4, e5⟩ := @layout18 (encodeBase (.jmp p c n o)) 1644167168 (o.toNat % 65536) (n.toNat) (c.toNat) (p.toNat) 49 rfl rfl (Nat.mod_lt _ (by decide)) (Nat.lt_succ_of_le (boolNat_le n)) c.isLt p.isLt (by decide)
  generalize encodeBase (.jmp p c n o) = ww at *
  refine ⟨hb, by omega, ?_⟩
  rw [at_18 e5]
  simp [decodeMajor18, alone, e0, e1, e2, e3, e4, e5, boolNat_beq]
  rw [sext16]

theorem call (p : BitVec 4) (l : BitVec 5) (o : BitVec 42) : Statement (.call p l o) := by
  intro _ _ _ wf
  obtain ⟨hb, e0, e1, e2, e3, e4⟩ := @layout19 (encodeBase (.call p l o)) 1677721600 (o.toNat % 65536) (l.toNat) (p.toNat) 50 rfl rfl (Nat.mod_lt _ (by decide)) l.isLt p.isLt (by decide)
  generalize encodeBase (.call p l o) = ww at *
  refine ⟨hb, by omega, ?_⟩
  rw [at_19 e4]
  simp [decodeMajor19, alone, e0, e1, e2, e3, e4, boolNat_beq]
  rw [sext16]

theorem brx (a : BitVec 7) (p : BitVec 4) : Statement (.brx a p) := by
  intro _ _ _ wf
  obtain ⟨hb, e0, e1, e2, e3, e4, e5, e6, e7, e8⟩ := @layout20 (encodeBase (.brx a p)) 1744830464 0 (p.toNat) 0 (a.toNat) 3328 rfl rfl (by decide) p.isLt (by decide) a.isLt (by decide)
  have hw : encodeBase (.brx a p) = put p.toNat 5 (put a.toNat 12 0x68000000) := rfl
  generalize encodeBase (.brx a p) = ww at *
  refine ⟨hb, by omega, ?_⟩
  rw [at_1A e8]
  simp [decodeMajor1A, alone, e0, e1, e2, e3, e4, e5, e6, e7, e8, boolNat_beq] <;> repeat rw [if_neg (by first | omega | (simp only [bits, put] at *; omega))]

theorem ret (a : BitVec 7) (p : BitVec 4) : Statement (.ret a p) := by
  intro _ _ _ wf
  obtain ⟨hb, e0, e1, e2, e3, e4, e5, e6, e7, e8⟩ := @layout20 (encodeBase (.ret a p)) 1744830465 1 (p.toNat) 0 (a.toNat) 3328 rfl rfl (by decide) p.isLt (by decide) a.isLt (by decide)
  have hw : encodeBase (.ret a p) = put p.toNat 5 (put a.toNat 12 0x68000001) := rfl
  generalize encodeBase (.ret a p) = ww at *
  refine ⟨hb, by omega, ?_⟩
  rw [at_1A e8]
  simp [decodeMajor1A, alone, e0, e1, e2, e3, e4, e5, e6, e7, e8, boolNat_beq] <;> repeat rw [if_neg (by first | omega | (simp only [bits, put] at *; omega))]

theorem exit : Statement (.exit) := by
  intro _ _ _ wf
  obtain ⟨hb, e0, e1, e2, e3, e4, e5, e6, e7, e8, e9⟩ := @layout21 (encodeBase (.exit)) 1744830466 1744830466 rfl rfl (by decide)
  generalize encodeBase (.exit) = ww at *
  refine ⟨hb, by omega, ?_⟩
  rw [at_1A e9]
  simp [decodeMajor1A, alone, e0, e1, e2, e3, e4, e5, e6, e7, e8, e9, boolNat_beq]

theorem nop : Statement (.nop) := by
  intro _ _ _ wf
  obtain ⟨hb, e0, e1, e2, e3, e4, e5, e6, e7, e8, e9⟩ := @layout21 (encodeBase (.nop)) 1744830467 1744830467 rfl rfl (by decide)
  generalize encodeBase (.nop) = ww at *
  refine ⟨hb, by omega, ?_⟩
  rw [at_1A e9]
  simp [decodeMajor1A, alone, e0, e1, e2, e3, e4, e5, e6, e7, e8, e9, boolNat_beq]

theorem fsw : Statement (.fsw) := by
  intro _ _ _ wf
  obtain ⟨hb, e0, e1, e2, e3, e4, e5, e6, e7, e8, e9⟩ := @layout21 (encodeBase (.fsw)) 1744830468 1744830468 rfl rfl (by decide)
  generalize encodeBase (.fsw) = ww at *
  refine ⟨hb, by omega, ?_⟩
  rw [at_1A e9]
  simp [decodeMajor1A, alone, e0, e1, e2, e3, e4, e5, e6, e7, e8, e9, boolNat_beq]

theorem fbar : Statement (.fbar) := by
  intro _ _ _ wf
  obtain ⟨hb, e0, e1, e2, e3, e4, e5, e6, e7, e8, e9⟩ := @layout21 (encodeBase (.fbar)) 1744830469 1744830469 rfl rfl (by decide)
  generalize encodeBase (.fbar) = ww at *
  refine ⟨hb, by omega, ?_⟩
  rw [at_1A e9]
  simp [decodeMajor1A, alone, e0, e1, e2, e3, e4, e5, e6, e7, e8, e9, boolNat_beq]

theorem jen (j : BitVec 3) : Statement (.jen j) := by
  intro _ _ _ wf
  obtain ⟨hb, e0, e1, e2, e3, e4, e5, e6, e7⟩ := @layout22 (encodeBase (.jen j)) 1744830470 6 (j.toNat) 416 rfl rfl (by decide) j.isLt (by decide)
  have hw : encodeBase (.jen j) = put j.toNat 19 0x68000006 := rfl
  generalize encodeBase (.jen j) = ww at *
  refine ⟨hb, by omega, ?_⟩
  rw [at_1A e7]
  simp [decodeMajor1A, alone, e0, e1, e2, e3, e4, e5, e6, e7, boolNat_beq] <;> repeat rw [if_neg (by first | omega | (simp only [bits, put] at *; omega))]

theorem jwt (j : BitVec 3) : Statement (.jwt j) := by
  intro _ _ _ wf
  obtain ⟨hb, e0, e1, e2, e3, e4, e5, e6, e7⟩ := @layout22 (encodeBase (.jwt j)) 1744830471 7 (j.toNat) 416 rfl rfl (by decide) j.isLt (by decide)
  have hw : encodeBase (.jwt j) = put j.toNat 19 0x68000007 := rfl
  generalize encodeBase (.jwt j) = ww at *
  refine ⟨hb, by omega, ?_⟩
  rw [at_1A e7]
  simp [decodeMajor1A, alone, e0, e1, e2, e3, e4, e5, e6, e7, boolNat_beq] <;> repeat rw [if_neg (by first | omega | (simp only [bits, put] at *; omega))]

theorem jstr (j : BitVec 3) : Statement (.jstr j) := by
  intro _ _ _ wf
  obtain ⟨hb, e0, e1, e2, e3, e4, e5, e6, e7⟩ := @layout22 (encodeBase (.jstr j)) 1744830472 8 (j.toNat) 416 rfl rfl (by decide) j.isLt (by decide)
  have hw : encodeBase (.jstr j) = put j.toNat 19 0x68000008 := rfl
  generalize encodeBase (.jstr j) = ww at *
  refine ⟨hb, by omega, ?_⟩
  rw [at_1A e7]
  simp [decodeMajor1A, alone, e0, e1, e2, e3, e4, e5, e6, e7, boolNat_beq] <;> repeat rw [if_neg (by first | omega | (simp only [bits, put] at *; omega))]

theorem wbase (b : BitVec 6) : Statement (.wbase b) := by
  intro _ _ _ wf
  obtain ⟨hb, e0, e1, e2⟩ := @layout23 (encodeBase (.wbase b)) 1811939328 (b.toNat) 28311552 rfl rfl b.isLt (by decide)
  generalize encodeBase (.wbase b) = ww at *
  refine ⟨hb, by omega, ?_⟩
  rw [at_1B e2]
  simp [decodeMajor1B, alone, e0, e1, e2, boolNat_beq]

theorem grow (n : BitVec 5) : Statement (.grow n) := by
  intro _ _ _ wf
  obtain ⟨hb, e0, e1, e2⟩ := @layout24 (encodeBase (.grow n)) 1879048192 (n.toNat) 58720256 rfl rfl n.isLt (by decide)
  generalize encodeBase (.grow n) = ww at *
  refine ⟨hb, by omega, ?_⟩
  rw [at_1C e2]
  simp [decodeMajor1C, alone, e0, e1, e2, boolNat_beq]

theorem shrink (n : BitVec 5) : Statement (.shrink n) := by
  intro _ _ _ wf
  obtain ⟨hb, e0, e1, e2⟩ := @layout24 (encodeBase (.shrink n)) 1946157056 (n.toNat) 60817408 rfl rfl n.isLt (by decide)
  generalize encodeBase (.shrink n) = ww at *
  refine ⟨hb, by omega, ?_⟩
  rw [at_1D e2]
  simp [decodeMajor1D, alone, e0, e1, e2, boolNat_beq]

theorem fadd (t : BitVec 2) (r : Bool) (d : BitVec 7) (a : BitVec 7) (b : BitVec 7) (u : Bool) : Statement (.fadd t r d a b u) := by
  intro _ _ _ wf
  obtain ⟨hb, e0, e1, e2, e3, e4, e5, e6, e7, e8, e9⟩ := @layout25 (encodeBase (.fadd t r d a b u)) 2147483648 0 (u.toNat) (b.toNat) (a.toNat) (d.toNat) (r.toNat) (t.toNat) 4 rfl rfl (by decide) (Nat.lt_succ_of_le (boolNat_le u)) b.isLt a.isLt d.isLt (Nat.lt_succ_of_le (boolNat_le r)) t.isLt (by decide)
  have hw : encodeBase (.fadd t r d a b u) = put u.toNat 4 (put b.toNat 5 (put a.toNat 12 (put d.toNat 19 (put r.toNat 26 (put t.toNat 27 0x80000000))))) := rfl
  generalize encodeBase (.fadd t r d a b u) = ww at *
  have b_t := t.isLt
  have b_r := boolNat_le r
  refine ⟨hb, by omega, ?_⟩
  rw [at_20 (by omega) (by omega)]
  simp [decodeMajor20, alone, e0, e1, e2, e3, e4, e5, e6, e7, e8, e9, boolNat_beq] <;> repeat rw [if_neg (by first | omega | (simp only [bits, put] at *; omega))]

theorem fsub (t : BitVec 2) (r : Bool) (d : BitVec 7) (a : BitVec 7) (b : BitVec 7) (u : Bool) : Statement (.fsub t r d a b u) := by
  intro _ _ _ wf
  obtain ⟨hb, e0, e1, e2, e3, e4, e5, e6, e7, e8, e9⟩ := @layout25 (encodeBase (.fsub t r d a b u)) 2147483649 1 (u.toNat) (b.toNat) (a.toNat) (d.toNat) (r.toNat) (t.toNat) 4 rfl rfl (by decide) (Nat.lt_succ_of_le (boolNat_le u)) b.isLt a.isLt d.isLt (Nat.lt_succ_of_le (boolNat_le r)) t.isLt (by decide)
  have hw : encodeBase (.fsub t r d a b u) = put u.toNat 4 (put b.toNat 5 (put a.toNat 12 (put d.toNat 19 (put r.toNat 26 (put t.toNat 27 0x80000001))))) := rfl
  generalize encodeBase (.fsub t r d a b u) = ww at *
  have b_t := t.isLt
  have b_r := boolNat_le r
  refine ⟨hb, by omega, ?_⟩
  rw [at_20 (by omega) (by omega)]
  simp [decodeMajor20, alone, e0, e1, e2, e3, e4, e5, e6, e7, e8, e9, boolNat_beq] <;> repeat rw [if_neg (by first | omega | (simp only [bits, put] at *; omega))]

theorem fmul (t : BitVec 2) (r : Bool) (d : BitVec 7) (a : BitVec 7) (b : BitVec 7) (u : Bool) : Statement (.fmul t r d a b u) := by
  intro _ _ _ wf
  obtain ⟨hb, e0, e1, e2, e3, e4, e5, e6, e7, e8, e9⟩ := @layout25 (encodeBase (.fmul t r d a b u)) 2147483650 2 (u.toNat) (b.toNat) (a.toNat) (d.toNat) (r.toNat) (t.toNat) 4 rfl rfl (by decide) (Nat.lt_succ_of_le (boolNat_le u)) b.isLt a.isLt d.isLt (Nat.lt_succ_of_le (boolNat_le r)) t.isLt (by decide)
  have hw : encodeBase (.fmul t r d a b u) = put u.toNat 4 (put b.toNat 5 (put a.toNat 12 (put d.toNat 19 (put r.toNat 26 (put t.toNat 27 0x80000002))))) := rfl
  generalize encodeBase (.fmul t r d a b u) = ww at *
  have b_t := t.isLt
  have b_r := boolNat_le r
  refine ⟨hb, by omega, ?_⟩
  rw [at_20 (by omega) (by omega)]
  simp [decodeMajor20, alone, e0, e1, e2, e3, e4, e5, e6, e7, e8, e9, boolNat_beq] <;> repeat rw [if_neg (by first | omega | (simp only [bits, put] at *; omega))]

theorem fma (t : BitVec 2) (r : Bool) (d : BitVec 7) (a : BitVec 7) (b : BitVec 7) (u : Bool) : Statement (.fma t r d a b u) := by
  intro _ _ _ wf
  obtain ⟨hb, e0, e1, e2, e3, e4, e5, e6, e7, e8, e9⟩ := @layout25 (encodeBase (.fma t r d a b u)) 2147483651 3 (u.toNat) (b.toNat) (a.toNat) (d.toNat) (r.toNat) (t.toNat) 4 rfl rfl (by decide) (Nat.lt_succ_of_le (boolNat_le u)) b.isLt a.isLt d.isLt (Nat.lt_succ_of_le (boolNat_le r)) t.isLt (by decide)
  have hw : encodeBase (.fma t r d a b u) = put u.toNat 4 (put b.toNat 5 (put a.toNat 12 (put d.toNat 19 (put r.toNat 26 (put t.toNat 27 0x80000003))))) := rfl
  generalize encodeBase (.fma t r d a b u) = ww at *
  have b_t := t.isLt
  have b_r := boolNat_le r
  refine ⟨hb, by omega, ?_⟩
  rw [at_20 (by omega) (by omega)]
  simp [decodeMajor20, alone, e0, e1, e2, e3, e4, e5, e6, e7, e8, e9, boolNat_beq] <;> repeat rw [if_neg (by first | omega | (simp only [bits, put] at *; omega))]

theorem fmin (t : BitVec 2) (r : Bool) (d : BitVec 7) (a : BitVec 7) (b : BitVec 7) (u : Bool) : Statement (.fmin t r d a b u) := by
  intro _ _ _ wf
  obtain ⟨hb, e0, e1, e2, e3, e4, e5, e6, e7, e8, e9⟩ := @layout25 (encodeBase (.fmin t r d a b u)) 2147483652 4 (u.toNat) (b.toNat) (a.toNat) (d.toNat) (r.toNat) (t.toNat) 4 rfl rfl (by decide) (Nat.lt_succ_of_le (boolNat_le u)) b.isLt a.isLt d.isLt (Nat.lt_succ_of_le (boolNat_le r)) t.isLt (by decide)
  have hw : encodeBase (.fmin t r d a b u) = put u.toNat 4 (put b.toNat 5 (put a.toNat 12 (put d.toNat 19 (put r.toNat 26 (put t.toNat 27 0x80000004))))) := rfl
  generalize encodeBase (.fmin t r d a b u) = ww at *
  have b_t := t.isLt
  have b_r := boolNat_le r
  refine ⟨hb, by omega, ?_⟩
  rw [at_20 (by omega) (by omega)]
  simp [decodeMajor20, alone, e0, e1, e2, e3, e4, e5, e6, e7, e8, e9, boolNat_beq] <;> repeat rw [if_neg (by first | omega | (simp only [bits, put] at *; omega))]

theorem fmax (t : BitVec 2) (r : Bool) (d : BitVec 7) (a : BitVec 7) (b : BitVec 7) (u : Bool) : Statement (.fmax t r d a b u) := by
  intro _ _ _ wf
  obtain ⟨hb, e0, e1, e2, e3, e4, e5, e6, e7, e8, e9⟩ := @layout25 (encodeBase (.fmax t r d a b u)) 2147483653 5 (u.toNat) (b.toNat) (a.toNat) (d.toNat) (r.toNat) (t.toNat) 4 rfl rfl (by decide) (Nat.lt_succ_of_le (boolNat_le u)) b.isLt a.isLt d.isLt (Nat.lt_succ_of_le (boolNat_le r)) t.isLt (by decide)
  have hw : encodeBase (.fmax t r d a b u) = put u.toNat 4 (put b.toNat 5 (put a.toNat 12 (put d.toNat 19 (put r.toNat 26 (put t.toNat 27 0x80000005))))) := rfl
  generalize encodeBase (.fmax t r d a b u) = ww at *
  have b_t := t.isLt
  have b_r := boolNat_le r
  refine ⟨hb, by omega, ?_⟩
  rw [at_20 (by omega) (by omega)]
  simp [decodeMajor20, alone, e0, e1, e2, e3, e4, e5, e6, e7, e8, e9, boolNat_beq] <;> repeat rw [if_neg (by first | omega | (simp only [bits, put] at *; omega))]

theorem fdiv (t : BitVec 2) (r : Bool) (d : BitVec 7) (a : BitVec 7) (b : BitVec 7) (u : Bool) : Statement (.fdiv t r d a b u) := by
  intro _ _ _ wf
  obtain ⟨hb, e0, e1, e2, e3, e4, e5, e6, e7, e8, e9⟩ := @layout25 (encodeBase (.fdiv t r d a b u)) 2147483654 6 (u.toNat) (b.toNat) (a.toNat) (d.toNat) (r.toNat) (t.toNat) 4 rfl rfl (by decide) (Nat.lt_succ_of_le (boolNat_le u)) b.isLt a.isLt d.isLt (Nat.lt_succ_of_le (boolNat_le r)) t.isLt (by decide)
  have hw : encodeBase (.fdiv t r d a b u) = put u.toNat 4 (put b.toNat 5 (put a.toNat 12 (put d.toNat 19 (put r.toNat 26 (put t.toNat 27 0x80000006))))) := rfl
  generalize encodeBase (.fdiv t r d a b u) = ww at *
  have b_t := t.isLt
  have b_r := boolNat_le r
  refine ⟨hb, by omega, ?_⟩
  rw [at_20 (by omega) (by omega)]
  simp [decodeMajor20, alone, e0, e1, e2, e3, e4, e5, e6, e7, e8, e9, boolNat_beq] <;> repeat rw [if_neg (by first | omega | (simp only [bits, put] at *; omega))]

theorem frcp (t : BitVec 2) (r : Bool) (d : BitVec 7) (a : BitVec 7) : Statement (.frcp t r d a) := by
  intro _ _ _ wf
  obtain ⟨hb, e0, e1, e2, e3, e4, e5, e6, e7, e8, e9, e10, e11⟩ := @layout26 (encodeBase (.frcp t r d a)) 2147483655 7 (a.toNat) (d.toNat) (r.toNat) (t.toNat) 4 rfl rfl (by decide) a.isLt d.isLt (Nat.lt_succ_of_le (boolNat_le r)) t.isLt (by decide)
  generalize encodeBase (.frcp t r d a) = ww at *
  have b_t := t.isLt
  have b_r := boolNat_le r
  refine ⟨hb, by omega, ?_⟩
  rw [at_20 (by omega) (by omega)]
  simp [decodeMajor20, alone, e0, e1, e2, e3, e4, e5, e6, e7, e8, e9, e10, e11, boolNat_beq]

theorem frsq (d : BitVec 7) (a : BitVec 7) : Statement (.frsq d a) := by
  intro _ _ _ wf
  obtain ⟨hb, e0, e1, e2, e3, e4, e5, e6, e7, e8, e9, e10, e11⟩ := @layout27 (encodeBase (.frsq d a)) 2147483656 8 (a.toNat) (d.toNat) 32 rfl rfl (by decide) a.isLt d.isLt (by decide)
  generalize encodeBase (.frsq d a) = ww at *
  refine ⟨hb, by omega, ?_⟩
  rw [at_20 (by omega) (by omega)]
  simp [decodeMajor20, alone, e0, e1, e2, e3, e4, e5, e6, e7, e8, e9, e10, e11, boolNat_beq]

theorem fsqrt (t : BitVec 2) (r : Bool) (d : BitVec 7) (a : BitVec 7) : Statement (.fsqrt t r d a) := by
  intro _ _ _ wf
  obtain ⟨hb, e0, e1, e2, e3, e4, e5, e6, e7, e8, e9, e10, e11⟩ := @layout26 (encodeBase (.fsqrt t r d a)) 2147483657 9 (a.toNat) (d.toNat) (r.toNat) (t.toNat) 4 rfl rfl (by decide) a.isLt d.isLt (Nat.lt_succ_of_le (boolNat_le r)) t.isLt (by decide)
  generalize encodeBase (.fsqrt t r d a) = ww at *
  have b_t := t.isLt
  have b_r := boolNat_le r
  refine ⟨hb, by omega, ?_⟩
  rw [at_20 (by omega) (by omega)]
  simp [decodeMajor20, alone, e0, e1, e2, e3, e4, e5, e6, e7, e8, e9, e10, e11, boolNat_beq]

theorem fexp2 (d : BitVec 7) (a : BitVec 7) : Statement (.fexp2 d a) := by
  intro _ _ _ wf
  obtain ⟨hb, e0, e1, e2, e3, e4, e5, e6, e7, e8, e9, e10, e11⟩ := @layout27 (encodeBase (.fexp2 d a)) 2147483658 10 (a.toNat) (d.toNat) 32 rfl rfl (by decide) a.isLt d.isLt (by decide)
  generalize encodeBase (.fexp2 d a) = ww at *
  refine ⟨hb, by omega, ?_⟩
  rw [at_20 (by omega) (by omega)]
  simp [decodeMajor20, alone, e0, e1, e2, e3, e4, e5, e6, e7, e8, e9, e10, e11, boolNat_beq]

theorem flog2 (d : BitVec 7) (a : BitVec 7) : Statement (.flog2 d a) := by
  intro _ _ _ wf
  obtain ⟨hb, e0, e1, e2, e3, e4, e5, e6, e7, e8, e9, e10, e11⟩ := @layout27 (encodeBase (.flog2 d a)) 2147483659 11 (a.toNat) (d.toNat) 32 rfl rfl (by decide) a.isLt d.isLt (by decide)
  generalize encodeBase (.flog2 d a) = ww at *
  refine ⟨hb, by omega, ?_⟩
  rw [at_20 (by omega) (by omega)]
  simp [decodeMajor20, alone, e0, e1, e2, e3, e4, e5, e6, e7, e8, e9, e10, e11, boolNat_beq]

theorem fsinpi (d : BitVec 7) (a : BitVec 7) : Statement (.fsinpi d a) := by
  intro _ _ _ wf
  obtain ⟨hb, e0, e1, e2, e3, e4, e5, e6, e7, e8, e9, e10, e11⟩ := @layout27 (encodeBase (.fsinpi d a)) 2147483660 12 (a.toNat) (d.toNat) 32 rfl rfl (by decide) a.isLt d.isLt (by decide)
  generalize encodeBase (.fsinpi d a) = ww at *
  refine ⟨hb, by omega, ?_⟩
  rw [at_20 (by omega) (by omega)]
  simp [decodeMajor20, alone, e0, e1, e2, e3, e4, e5, e6, e7, e8, e9, e10, e11, boolNat_beq]

theorem fcospi (d : BitVec 7) (a : BitVec 7) : Statement (.fcospi d a) := by
  intro _ _ _ wf
  obtain ⟨hb, e0, e1, e2, e3, e4, e5, e6, e7, e8, e9, e10, e11⟩ := @layout27 (encodeBase (.fcospi d a)) 2147483661 13 (a.toNat) (d.toNat) 32 rfl rfl (by decide) a.isLt d.isLt (by decide)
  generalize encodeBase (.fcospi d a) = ww at *
  refine ⟨hb, by omega, ?_⟩
  rw [at_20 (by omega) (by omega)]
  simp [decodeMajor20, alone, e0, e1, e2, e3, e4, e5, e6, e7, e8, e9, e10, e11, boolNat_beq]

theorem fclass (t : BitVec 2) (r : Bool) (d : BitVec 7) (a : BitVec 7) : Statement (.fclass t r d a) := by
  intro _ _ _ wf
  obtain ⟨hb, e0, e1, e2, e3, e4, e5, e6, e7, e8, e9, e10, e11⟩ := @layout26 (encodeBase (.fclass t r d a)) 2147483662 14 (a.toNat) (d.toNat) (r.toNat) (t.toNat) 4 rfl rfl (by decide) a.isLt d.isLt (Nat.lt_succ_of_le (boolNat_le r)) t.isLt (by decide)
  generalize encodeBase (.fclass t r d a) = ww at *
  have b_t := t.isLt
  have b_r := boolNat_le r
  refine ⟨hb, by omega, ?_⟩
  rw [at_20 (by omega) (by omega)]
  simp [decodeMajor20, alone, e0, e1, e2, e3, e4, e5, e6, e7, e8, e9, e10, e11, boolNat_beq]

theorem frnd (t : BitVec 2) (r : Bool) (d : BitVec 7) (a : BitVec 7) (m : BitVec 3) : Statement (.frnd t r d a m) := by
  intro _ _ _ wf
  obtain ⟨hb, e0, e1, e2, e3, e4, e5, e6, e7, e8, e9, e10, e11⟩ := @layout28 (encodeBase (.frnd t r d a m)) 2147483663 15 (m.toNat) 0 (a.toNat) (d.toNat) (r.toNat) (t.toNat) 4 rfl rfl (by decide) m.isLt (by decide) a.isLt d.isLt (Nat.lt_succ_of_le (boolNat_le r)) t.isLt (by decide)
  have hw : encodeBase (.frnd t r d a m) = put m.toNat 5 (put a.toNat 12 (put d.toNat 19 (put r.toNat 26 (put t.toNat 27 0x8000000F)))) := rfl
  generalize encodeBase (.frnd t r d a m) = ww at *
  have b_t := t.isLt
  have b_r := boolNat_le r
  refine ⟨hb, by omega, ?_⟩
  rw [at_20 (by omega) (by omega)]
  simp [decodeMajor20, alone, e0, e1, e2, e3, e4, e5, e6, e7, e8, e9, e10, e11, boolNat_beq] <;> repeat rw [if_neg (by first | omega | (simp only [bits, put] at *; omega))]

theorem fsetp (w : BitVec 3) (p : BitVec 4) (a : BitVec 7) (b : BitVec 7) (u : Bool) (c : BitVec 4) : Statement (.fsetp w p a b u c) := by
  intro _ _ _ wf
  obtain ⟨hb, e0, e1, e2, e3, e4, e5, e6⟩ := @layout9 (encodeBase (.fsetp w p a b u c)) 2684354560 (c.toNat) (u.toNat) (b.toNat) (a.toNat) (p.toNat) (w.toNat) 40 rfl rfl c.isLt (Nat.lt_succ_of_le (boolNat_le u)) b.isLt a.isLt p.isLt w.isLt (by decide)
  generalize encodeBase (.fsetp w p a b u c) = ww at *
  refine ⟨hb, by omega, ?_⟩
  rw [at_28 e6]
  simp [decodeMajor28, alone, e0, e1, e2, e3, e4, e5, e6, boolNat_beq]

theorem fcvt (d : BitVec 7) (a : BitVec 7) (s : Bool) (r : BitVec 3) (x : BitVec 4) (y : BitVec 4) : Statement (.fcvt d a s r x y) := by
  intro _ _ _ wf
  obtain ⟨hb, e0, e1, e2, e3, e4, e5, e6⟩ := @layout29 (encodeBase (.fcvt d a s r x y)) 2751463424 (y.toNat) (x.toNat) (r.toNat) (s.toNat) (a.toNat) (d.toNat) 41 rfl rfl y.isLt x.isLt r.isLt (Nat.lt_succ_of_le (boolNat_le s)) a.isLt d.isLt (by decide)
  generalize encodeBase (.fcvt d a s r x y) = ww at *
  refine ⟨hb, by omega, ?_⟩
  rw [at_29 e6]
  simp [decodeMajor29, alone, e0, e1, e2, e3, e4, e5, e6, boolNat_beq]

theorem dot4 (d : BitVec 7) (a : BitVec 7) (b : BitVec 7) (u : Bool) (t : BitVec 2) : Statement (.dot4 d a b u t) := by
  intro _ _ _ wf
  obtain ⟨hb, e0, e1, e2, e3, e4, e5, e6, e7, e8⟩ := @layout30 (encodeBase (.dot4 d a b u t)) 2818572288 (t.toNat) 0 (u.toNat) (b.toNat) (a.toNat) (d.toNat) 42 rfl rfl t.isLt (by decide) (Nat.lt_succ_of_le (boolNat_le u)) b.isLt a.isLt d.isLt (by decide)
  have hw : encodeBase (.dot4 d a b u t) = put t.toNat 0 (put u.toNat 4 (put b.toNat 5 (put a.toNat 12 (put d.toNat 19 0xA8000000)))) := rfl
  generalize encodeBase (.dot4 d a b u t) = ww at *
  refine ⟨hb, by omega, ?_⟩
  rw [at_2A e8]
  simp [decodeMajor2A, alone, e0, e1, e2, e3, e4, e5, e6, e7, e8, boolNat_beq] <;> repeat rw [if_neg (by first | omega | (simp only [bits, put] at *; omega))]

theorem dot8 (d : BitVec 7) (a : BitVec 7) (b : BitVec 7) (u : Bool) (t : BitVec 2) : Statement (.dot8 d a b u t) := by
  intro _ _ _ wf
  obtain ⟨hb, e0, e1, e2, e3, e4, e5, e6, e7, e8⟩ := @layout30 (encodeBase (.dot8 d a b u t)) 2818572292 (t.toNat) 1 (u.toNat) (b.toNat) (a.toNat) (d.toNat) 42 rfl rfl t.isLt (by decide) (Nat.lt_succ_of_le (boolNat_le u)) b.isLt a.isLt d.isLt (by decide)
  have hw : encodeBase (.dot8 d a b u t) = put t.toNat 0 (put u.toNat 4 (put b.toNat 5 (put a.toNat 12 (put d.toNat 19 0xA8000004)))) := rfl
  have ht : t.toNat ≤ 2 := by simp [WellFormed] at wf; exact wf.1
  generalize encodeBase (.dot8 d a b u t) = ww at *
  refine ⟨hb, by omega, ?_⟩
  rw [at_2A e8]
  simp [decodeMajor2A, alone, e0, e1, e2, e3, e4, e5, e6, e7, e8, boolNat_beq] <;> repeat rw [if_neg (by first | omega | (simp only [bits, put] at *; omega))]

theorem wring (d : BitVec 7) (a : BitVec 7) (b : BitVec 7) (u : Bool) : Statement (.wring d a b u) := by
  intro _ _ _ wf
  obtain ⟨hb, e0, e1, e2, e3, e4, e5, e6, e7, e8⟩ := @layout31 (encodeBase (.wring d a b u)) 2818572295 7 (u.toNat) (b.toNat) (a.toNat) (d.toNat) 42 rfl rfl (by decide) (Nat.lt_succ_of_le (boolNat_le u)) b.isLt a.isLt d.isLt (by decide)
  have hw : encodeBase (.wring d a b u) = put u.toNat 4 (put b.toNat 5 (put a.toNat 12 (put d.toNat 19 0xA8000007))) := rfl
  generalize encodeBase (.wring d a b u) = ww at *
  refine ⟨hb, by omega, ?_⟩
  rw [at_2A e8]
  simp [decodeMajor2A, alone, e0, e1, e2, e3, e4, e5, e6, e7, e8, boolNat_beq] <;> repeat rw [if_neg (by first | omega | (simp only [bits, put] at *; omega))]

theorem scl (d : BitVec 7) (a : BitVec 7) (s : BitVec 2) (f : BitVec 3) : Statement (.scl d a s f) := by
  intro _ _ _ wf
  obtain ⟨hb, e0, e1, e2, e3, e4, e5, e6, e7, e8, e9, e10, e11, e12⟩ := @layout32 (encodeBase (.scl d a s f)) 2818572296 8 (f.toNat) 0 (s.toNat) (a.toNat) (d.toNat) 42 rfl rfl (by decide) f.isLt (by decide) s.isLt a.isLt d.isLt (by decide)
  generalize encodeBase (.scl d a s f) = ww at *
  refine ⟨hb, by omega, ?_⟩
  rw [at_2A e12]
  simp [decodeMajor2A, alone, e0, e1, e2, e3, e4, e5, e6, e7, e8, e9, e10, e11, e12, boolNat_beq]

theorem qnt (d : BitVec 7) (a : BitVec 7) (s : BitVec 2) (l : BitVec 2) (f : BitVec 3) : Statement (.qnt d a s l f) := by
  intro _ _ _ wf
  obtain ⟨hb, e0, e1, e2, e3, e4, e5, e6, e7, e8, e9, e10, e11, e12⟩ := @layout33 (encodeBase (.qnt d a s l f)) 2818572297 9 (f.toNat) (l.toNat) (s.toNat) (a.toNat) (d.toNat) 42 rfl rfl (by decide) f.isLt l.isLt s.isLt a.isLt d.isLt (by decide)
  generalize encodeBase (.qnt d a s l f) = ww at *
  refine ⟨hb, by omega, ?_⟩
  rw [at_2A e12]
  simp [decodeMajor2A, alone, e0, e1, e2, e3, e4, e5, e6, e7, e8, e9, e10, e11, e12, boolNat_beq]

theorem dqnt (d : BitVec 7) (a : BitVec 7) (s : BitVec 2) (f : BitVec 3) : Statement (.dqnt d a s f) := by
  intro _ _ _ wf
  obtain ⟨hb, e0, e1, e2, e3, e4, e5, e6, e7, e8, e9, e10, e11, e12⟩ := @layout32 (encodeBase (.dqnt d a s f)) 2818572298 10 (f.toNat) 0 (s.toNat) (a.toNat) (d.toNat) 42 rfl rfl (by decide) f.isLt (by decide) s.isLt a.isLt d.isLt (by decide)
  generalize encodeBase (.dqnt d a s f) = ww at *
  refine ⟨hb, by omega, ?_⟩
  rw [at_2A e12]
  simp [decodeMajor2A, alone, e0, e1, e2, e3, e4, e5, e6, e7, e8, e9, e10, e11, e12, boolNat_beq]

theorem p6x (d : BitVec 7) (r : BitVec 2) (f : BitVec 3) : Statement (.p6x d r f) := by
  intro _ _ _ wf
  obtain ⟨hb, e0, e1, e2, e3, e4, e5, e6, e7, e8, e9, e10, e11⟩ := @layout34 (encodeBase (.p6x d r f)) 2818572299 11 (f.toNat) (r.toNat) 0 (d.toNat) 42 rfl rfl (by decide) f.isLt r.isLt (by decide) d.isLt (by decide)
  generalize encodeBase (.p6x d r f) = ww at *
  refine ⟨hb, by omega, ?_⟩
  rw [at_2A e11]
  simp [decodeMajor2A, alone, e0, e1, e2, e3, e4, e5, e6, e7, e8, e9, e10, e11, boolNat_beq]

theorem ld (d : BitVec 7) (b : BitVec 7) (l : BitVec 4) (w : BitVec 3) (o : Bool) (c : BitVec 3) (ofs : BitVec 26) : Statement (.ld d b l w o c ofs) := by
  intro _ _ _ wf
  obtain ⟨hb, e0, e1, e2, e3, e4, e5, e6, e7, e8⟩ := @layout35 (encodeBase (.ld d b l w o c ofs)) 2952790016 (c.toNat) (o.toNat) 0 (w.toNat) (l.toNat) (b.toNat) (d.toNat) 44 rfl rfl c.isLt (Nat.lt_succ_of_le (boolNat_le o)) (by decide) w.isLt l.isLt b.isLt d.isLt (by decide)
  generalize encodeBase (.ld d b l w o c ofs) = ww at *
  refine ⟨hb, by omega, ?_⟩
  rw [at_2C e8]
  simp [decodeMajor2C, alone, e0, e1, e2, e3, e4, e5, e6, e7, e8, boolNat_beq]
  have := boolNat_le o
  omega

theorem ldacq (d : BitVec 7) (b : BitVec 7) (l : BitVec 4) (w : BitVec 3) (c : BitVec 3) (ofs : BitVec 26) : Statement (.ldacq d b l w c ofs) := by
  intro _ _ _ wf
  obtain ⟨hb, e0, e1, e2, e3, e4, e5, e6, e7, e8⟩ := @layout36 (encodeBase (.ldacq d b l w c ofs)) 2952790032 (c.toNat) 2 (w.toNat) (l.toNat) (b.toNat) (d.toNat) 44 rfl rfl c.isLt (by decide) w.isLt l.isLt b.isLt d.isLt (by decide)
  generalize encodeBase (.ldacq d b l w c ofs) = ww at *
  refine ⟨hb, by omega, ?_⟩
  rw [at_2C e8]
  simp [decodeMajor2C, alone, e0, e1, e2, e3, e4, e5, e6, e7, e8, boolNat_beq]

theorem st (d : BitVec 7) (b : BitVec 7) (l : BitVec 4) (w : BitVec 3) (o : Bool) (c : BitVec 3) (ofs : BitVec 26) : Statement (.st d b l w o c ofs) := by
  intro _ _ _ wf
  obtain ⟨hb, e0, e1, e2, e3, e4, e5, e6, e7, e8⟩ := @layout35 (encodeBase (.st d b l w o c ofs)) 3019898880 (c.toNat) (o.toNat) 0 (w.toNat) (l.toNat) (b.toNat) (d.toNat) 45 rfl rfl c.isLt (Nat.lt_succ_of_le (boolNat_le o)) (by decide) w.isLt l.isLt b.isLt d.isLt (by decide)
  generalize encodeBase (.st d b l w o c ofs) = ww at *
  refine ⟨hb, by omega, ?_⟩
  rw [at_2D e8]
  simp [decodeMajor2D, alone, e0, e1, e2, e3, e4, e5, e6, e7, e8, boolNat_beq]
  have := boolNat_le o
  omega

theorem strel (d : BitVec 7) (b : BitVec 7) (l : BitVec 4) (w : BitVec 3) (c : BitVec 3) (ofs : BitVec 26) : Statement (.strel d b l w c ofs) := by
  intro _ _ _ wf
  obtain ⟨hb, e0, e1, e2, e3, e4, e5, e6, e7, e8⟩ := @layout36 (encodeBase (.strel d b l w c ofs)) 3019898904 (c.toNat) 3 (w.toNat) (l.toNat) (b.toNat) (d.toNat) 45 rfl rfl c.isLt (by decide) w.isLt l.isLt b.isLt d.isLt (by decide)
  generalize encodeBase (.strel d b l w c ofs) = ww at *
  refine ⟨hb, by omega, ?_⟩
  rw [at_2D e8]
  simp [decodeMajor2D, alone, e0, e1, e2, e3, e4, e5, e6, e7, e8, boolNat_beq]

theorem lds (d : BitVec 7) (b : BitVec 7) (l : BitVec 4) (w : BitVec 3) (k : Bool) (ofs : BitVec 26) : Statement (.lds d b l w k ofs) := by
  intro _ _ _ wf
  obtain ⟨hb, e0, e1, e2, e3, e4, e5, e6⟩ := @layout37 (encodeBase (.lds d b l w k ofs)) 3087007744 (k.toNat) 0 (w.toNat) (l.toNat) (b.toNat) (d.toNat) 46 rfl rfl (Nat.lt_succ_of_le (boolNat_le k)) (by decide) w.isLt l.isLt b.isLt d.isLt (by decide)
  generalize encodeBase (.lds d b l w k ofs) = ww at *
  refine ⟨hb, by omega, ?_⟩
  rw [at_2E e6]
  simp [decodeMajor2E, alone, e0, e1, e2, e3, e4, e5, e6, boolNat_beq]

theorem sts (d : BitVec 7) (b : BitVec 7) (l : BitVec 4) (w : BitVec 3) (k : Bool) (ofs : BitVec 26) : Statement (.sts d b l w k ofs) := by
  intro _ _ _ wf
  obtain ⟨hb, e0, e1, e2, e3, e4, e5, e6⟩ := @layout37 (encodeBase (.sts d b l w k ofs)) 3154116608 (k.toNat) 0 (w.toNat) (l.toNat) (b.toNat) (d.toNat) 47 rfl rfl (Nat.lt_succ_of_le (boolNat_le k)) (by decide) w.isLt l.isLt b.isLt d.isLt (by decide)
  generalize encodeBase (.sts d b l w k ofs) = ww at *
  refine ⟨hb, by omega, ?_⟩
  rw [at_2F e6]
  simp [decodeMajor2F, alone, e0, e1, e2, e3, e4, e5, e6, boolNat_beq]

theorem ldk (d : BitVec 7) (b : BitVec 7) (l : BitVec 4) (w : BitVec 3) (o : BitVec 2) (c : BitVec 3) (ofs : BitVec 26) : Statement (.ldk d b l w o c ofs) := by
  intro _ _ _ wf
  obtain ⟨hb, e0, e1, e2, e3, e4, e5, e6⟩ := @layout38 (encodeBase (.ldk d b l w o c ofs)) 3221225472 (c.toNat) (o.toNat) (w.toNat) (l.toNat) (b.toNat) (d.toNat) 48 rfl rfl c.isLt o.isLt w.isLt l.isLt b.isLt d.isLt (by decide)
  generalize encodeBase (.ldk d b l w o c ofs) = ww at *
  refine ⟨hb, by omega, ?_⟩
  rw [at_30 e6]
  simp [decodeMajor30, alone, e0, e1, e2, e3, e4, e5, e6, boolNat_beq]

theorem ld6 (d : BitVec 7) (b : BitVec 7) (l : BitVec 4) (o : BitVec 2) (c : BitVec 3) (ofs : BitVec 26) : Statement (.ld6 d b l o c ofs) := by
  intro _ _ _ wf
  obtain ⟨hb, e0, e1, e2, e3, e4, e5, e6⟩ := @layout39 (encodeBase (.ld6 d b l o c ofs)) 3288334336 (c.toNat) (o.toNat) 0 (l.toNat) (b.toNat) (d.toNat) 49 rfl rfl c.isLt o.isLt (by decide) l.isLt b.isLt d.isLt (by decide)
  generalize encodeBase (.ld6 d b l o c ofs) = ww at *
  refine ⟨hb, by omega, ?_⟩
  rw [at_31 e6]
  simp [decodeMajor31, alone, e0, e1, e2, e3, e4, e5, e6, boolNat_beq]

theorem atom (d : BitVec 7) (b : BitVec 7) (l : BitVec 4) (w : BitVec 3) (o : BitVec 2) (x : Bool) (s : BitVec 2) (ofs : BitVec 26) : Statement (.atom d b l w o x s ofs) := by
  intro _ _ _ wf
  obtain ⟨hb, e0, e1, e2, e3, e4, e5, e6, e7⟩ := @layout40 (encodeBase (.atom d b l w o x s ofs)) 3355443200 (s.toNat) (x.toNat) (o.toNat) (w.toNat) (l.toNat) (b.toNat) (d.toNat) 50 rfl rfl s.isLt (Nat.lt_succ_of_le (boolNat_le x)) o.isLt w.isLt l.isLt b.isLt d.isLt (by decide)
  generalize encodeBase (.atom d b l w o x s ofs) = ww at *
  refine ⟨hb, by omega, ?_⟩
  rw [at_32 e7]
  simp [decodeMajor32, alone, e0, e1, e2, e3, e4, e5, e6, e7, boolNat_beq]

theorem atom64 (d : BitVec 7) (b : BitVec 7) (l : BitVec 4) (w : BitVec 3) (o : BitVec 2) (x : Bool) (s : BitVec 2) (ofs : BitVec 26) : Statement (.atom64 d b l w o x s ofs) := by
  intro _ _ _ wf
  obtain ⟨hb, e0, e1, e2, e3, e4, e5, e6, e7⟩ := @layout40 (encodeBase (.atom64 d b l w o x s ofs)) 3422552064 (s.toNat) (x.toNat) (o.toNat) (w.toNat) (l.toNat) (b.toNat) (d.toNat) 51 rfl rfl s.isLt (Nat.lt_succ_of_le (boolNat_le x)) o.isLt w.isLt l.isLt b.isLt d.isLt (by decide)
  generalize encodeBase (.atom64 d b l w o x s ofs) = ww at *
  refine ⟨hb, by omega, ?_⟩
  rw [at_33 e7]
  simp [decodeMajor33, alone, e0, e1, e2, e3, e4, e5, e6, e7, boolNat_beq]
  simp [WellFormed, atomCode] at wf
  simp only [bits, put] at *
  rintro rfl
  simp at wf
  omega

theorem atomp (d : BitVec 7) (b : BitVec 7) (l : BitVec 4) (m : Bool) (o : BitVec 2) (s : BitVec 2) (ofs : BitVec 26) : Statement (.atomp d b l m o s ofs) := by
  intro _ _ _ wf
  obtain ⟨hb, e0, e1, e2, e3, e4, e5, e6, e7, e8, e9⟩ := @layout41 (encodeBase (.atomp d b l m o s ofs)) 3422552196 (s.toNat) 1 (o.toNat) (m.toNat) 2 (l.toNat) (b.toNat) (d.toNat) 51 rfl rfl s.isLt (by decide) o.isLt (Nat.lt_succ_of_le (boolNat_le m)) (by decide) l.isLt b.isLt d.isLt (by decide)
  generalize encodeBase (.atomp d b l m o s ofs) = ww at *
  refine ⟨hb, by omega, ?_⟩
  rw [at_33 e9]
  simp [decodeMajor33, alone, e0, e1, e2, e3, e4, e5, e6, e7, e8, e9, boolNat_beq]

theorem red (d : BitVec 7) (b : BitVec 7) (l : BitVec 4) (w : BitVec 3) (z : Bool) (r : Bool) (x : Bool) (s : BitVec 2) (ofs : BitVec 26) : Statement (.red d b l w z r x s ofs) := by
  intro _ _ _ wf
  obtain ⟨hb, e0, e1, e2, e3, e4, e5, e6, e7, e8⟩ := @layout42 (encodeBase (.red d b l w z r x s ofs)) 3489660928 (s.toNat) (x.toNat) (r.toNat) (z.toNat) (w.toNat) (l.toNat) (b.toNat) (d.toNat) 52 rfl rfl s.isLt (Nat.lt_succ_of_le (boolNat_le x)) (Nat.lt_succ_of_le (boolNat_le r)) (Nat.lt_succ_of_le (boolNat_le z)) w.isLt l.isLt b.isLt d.isLt (by decide)
  generalize encodeBase (.red d b l w z r x s ofs) = ww at *
  refine ⟨hb, by omega, ?_⟩
  rw [at_34 e8]
  simp [decodeMajor34, alone, e0, e1, e2, e3, e4, e5, e6, e7, e8, boolNat_beq]

theorem ldfut (d : BitVec 7) (b : BitVec 7) (l : BitVec 4) (w : Bool) (ofs : BitVec 26) : Statement (.ldfut d b l w ofs) := by
  intro _ _ _ wf
  obtain ⟨hb, e0, e1, e2, e3, e4, e5, e6⟩ := @layout43 (encodeBase (.ldfut d b l w ofs)) 3556769856 0 (w.toNat) 1 (l.toNat) (b.toNat) (d.toNat) 53 rfl rfl (by decide) (Nat.lt_succ_of_le (boolNat_le w)) (by decide) l.isLt b.isLt d.isLt (by decide)
  generalize encodeBase (.ldfut d b l w ofs) = ww at *
  refine ⟨hb, by omega, ?_⟩
  rw [at_35 e6]
  simp [decodeMajor35, alone, e0, e1, e2, e3, e4, e5, e6, boolNat_beq]

theorem stfut (d : BitVec 7) (b : BitVec 7) (l : BitVec 4) (w : Bool) (ofs : BitVec 26) : Statement (.stfut d b l w ofs) := by
  intro _ _ _ wf
  obtain ⟨hb, e0, e1, e2, e3, e4, e5, e6⟩ := @layout43 (encodeBase (.stfut d b l w ofs)) 3556769864 8 (w.toNat) 1 (l.toNat) (b.toNat) (d.toNat) 53 rfl rfl (by decide) (Nat.lt_succ_of_le (boolNat_le w)) (by decide) l.isLt b.isLt d.isLt (by decide)
  generalize encodeBase (.stfut d b l w ofs) = ww at *
  refine ⟨hb, by omega, ?_⟩
  rw [at_35 e6]
  simp [decodeMajor35, alone, e0, e1, e2, e3, e4, e5, e6, boolNat_beq]

theorem stg (d : BitVec 7) (b : BitVec 7) (l : BitVec 4) (w : BitVec 3) (ofs : BitVec 26) : Statement (.stg d b l w ofs) := by
  intro _ _ _ wf
  obtain ⟨hb, e0, e1, e2, e3, e4, e5⟩ := @layout44 (encodeBase (.stg d b l w ofs)) 4093640704 0 (w.toNat) (l.toNat) (b.toNat) (d.toNat) 61 rfl rfl (by decide) w.isLt l.isLt b.isLt d.isLt (by decide)
  generalize encodeBase (.stg d b l w ofs) = ww at *
  refine ⟨hb, by omega, ?_⟩
  rw [at_3D e5]
  simp [decodeMajor3D, alone, e0, e1, e2, e3, e4, e5, boolNat_beq]

theorem qpush (q : BitVec 3) (a : BitVec 7) : Statement (.qpush q a) := by
  intro _ _ _ wf
  obtain ⟨hb, e0, e1, e2, e3, e4⟩ := @layout45 (encodeBase (.qpush q a)) 3623878656 0 (a.toNat) (q.toNat) 864 rfl rfl (by decide) a.isLt q.isLt (by decide)
  generalize encodeBase (.qpush q a) = ww at *
  refine ⟨hb, by omega, ?_⟩
  rw [at_36 e4]
  simp [decodeMajor36, alone, e0, e1, e2, e3, e4, boolNat_beq]

theorem qpop (d : BitVec 7) (q : BitVec 3) : Statement (.qpop d q) := by
  intro _ _ _ wf
  obtain ⟨hb, e0, e1, e2, e3, e4, e5⟩ := @layout46 (encodeBase (.qpop d q)) 3623878657 1 (q.toNat) 0 (d.toNat) 54 rfl rfl (by decide) q.isLt (by decide) d.isLt (by decide)
  generalize encodeBase (.qpop d q) = ww at *
  refine ⟨hb, by omega, ?_⟩
  rw [at_36 e5]
  simp [decodeMajor36, alone, e0, e1, e2, e3, e4, e5, boolNat_beq]

theorem qlen (d : BitVec 7) (q : BitVec 3) : Statement (.qlen d q) := by
  intro _ _ _ wf
  obtain ⟨hb, e0, e1, e2, e3, e4, e5⟩ := @layout46 (encodeBase (.qlen d q)) 3623878658 2 (q.toNat) 0 (d.toNat) 54 rfl rfl (by decide) q.isLt (by decide) d.isLt (by decide)
  generalize encodeBase (.qlen d q) = ww at *
  refine ⟨hb, by omega, ?_⟩
  rw [at_36 e5]
  simp [decodeMajor36, alone, e0, e1, e2, e3, e4, e5, boolNat_beq]

theorem fence (p : BitVec 3) (k : BitVec 2) (l : BitVec 4) : Statement (.fence p k l) := by
  intro _ _ _ wf
  obtain ⟨hb, e0, e1, e2, e3, e4, e5, e6, e7, e8, e9⟩ := @layout47 (encodeBase (.fence p k l)) 3690987520 0 (l.toNat) (k.toNat) (p.toNat) 28160 rfl rfl (by decide) l.isLt k.isLt p.isLt (by decide)
  generalize encodeBase (.fence p k l) = ww at *
  refine ⟨hb, by omega, ?_⟩
  rw [at_37 e9]
  simp [decodeMajor37, alone, e0, e1, e2, e3, e4, e5, e6, e7, e8, e9, boolNat_beq]

theorem acqr (s : BitVec 7) (l : BitVec 4) : Statement (.acqr s l) := by
  intro _ _ _ wf
  obtain ⟨hb, e0, e1, e2, e3, e4, e5, e6, e7, e8, e9, e10, e11⟩ := @layout48 (encodeBase (.acqr s l)) 3690987521 1 (l.toNat) 0 (s.toNat) 55 rfl rfl (by decide) l.isLt (by decide) s.isLt (by decide)
  generalize encodeBase (.acqr s l) = ww at *
  refine ⟨hb, by omega, ?_⟩
  rw [at_37 e11]
  simp [decodeMajor37, alone, e0, e1, e2, e3, e4, e5, e6, e7, e8, e9, e10, e11, boolNat_beq]

theorem cinv (l : BitVec 4) : Statement (.cinv l) := by
  intro _ _ _ wf
  obtain ⟨hb, e0, e1, e2, e3, e4, e5, e6, e7, e8, e9, e10, e11, e12, e13, e14⟩ := @layout49 (encodeBase (.cinv l)) 3690987522 2 (l.toNat) 901120 rfl rfl (by decide) l.isLt (by decide)
  generalize encodeBase (.cinv l) = ww at *
  refine ⟨hb, by omega, ?_⟩
  rw [at_37 e14]
  simp [decodeMajor37, alone, e0, e1, e2, e3, e4, e5, e6, e7, e8, e9, e10, e11, e12, e13, e14, boolNat_beq]

theorem pref (s : BitVec 7) (v : Bool) (l : BitVec 4) : Statement (.pref s v l) := by
  intro _ _ _ wf
  obtain ⟨hb, e0, e1, e2, e3, e4, e5, e6, e7, e8, e9⟩ := @layout50 (encodeBase (.pref s v l)) 3690987523 3 (l.toNat) (v.toNat) 0 (s.toNat) 55 rfl rfl (by decide) l.isLt (Nat.lt_succ_of_le (boolNat_le v)) (by decide) s.isLt (by decide)
  generalize encodeBase (.pref s v l) = ww at *
  refine ⟨hb, by omega, ?_⟩
  rw [at_37 e9]
  simp [decodeMajor37, alone, e0, e1, e2, e3, e4, e5, e6, e7, e8, e9, boolNat_beq]

theorem alloc (s : BitVec 7) (d : BitVec 7) (l : BitVec 4) : Statement (.alloc s d l) := by
  intro _ _ _ wf
  obtain ⟨hb, e0, e1, e2, e3, e4, e5⟩ := @layout51 (encodeBase (.alloc s d l)) 3690987524 4 (l.toNat) (d.toNat) (s.toNat) 55 rfl rfl (by decide) l.isLt d.isLt s.isLt (by decide)
  generalize encodeBase (.alloc s d l) = ww at *
  refine ⟨hb, by omega, ?_⟩
  rw [at_37 e5]
  simp [decodeMajor37, alone, e0, e1, e2, e3, e4, e5, boolNat_beq]

theorem sig (s : BitVec 7) (l : BitVec 4) : Statement (.sig s l) := by
  intro _ _ _ wf
  obtain ⟨hb, e0, e1, e2, e3, e4, e5, e6, e7, e8, e9, e10, e11⟩ := @layout48 (encodeBase (.sig s l)) 3690987525 5 (l.toNat) 0 (s.toNat) 55 rfl rfl (by decide) l.isLt (by decide) s.isLt (by decide)
  generalize encodeBase (.sig s l) = ww at *
  refine ⟨hb, by omega, ?_⟩
  rw [at_37 e11]
  simp [decodeMajor37, alone, e0, e1, e2, e3, e4, e5, e6, e7, e8, e9, e10, e11, boolNat_beq]

theorem cwait (c : BitVec 2) (q : Bool) (n : BitVec 6) (l : BitVec 4) : Statement (.cwait c q n l) := by
  intro _ _ _ wf
  obtain ⟨hb, e0, e1, e2, e3, e4, e5, e6, e7⟩ := @layout52 (encodeBase (.cwait c q n l)) 3690987526 6 (l.toNat) (n.toNat) (q.toNat) (c.toNat) 1760 rfl rfl (by decide) l.isLt n.isLt (Nat.lt_succ_of_le (boolNat_le q)) c.isLt (by decide)
  generalize encodeBase (.cwait c q n l) = ww at *
  refine ⟨hb, by omega, ?_⟩
  rw [at_37 e7]
  simp [decodeMajor37, alone, e0, e1, e2, e3, e4, e5, e6, e7, boolNat_beq]

theorem spres (s : BitVec 7) (d : BitVec 7) (l : BitVec 4) : Statement (.spres s d l) := by
  intro _ _ _ wf
  obtain ⟨hb, e0, e1, e2, e3, e4, e5⟩ := @layout51 (encodeBase (.spres s d l)) 3690987527 7 (l.toNat) (d.toNat) (s.toNat) 55 rfl rfl (by decide) l.isLt d.isLt s.isLt (by decide)
  generalize encodeBase (.spres s d l) = ww at *
  refine ⟨hb, by omega, ?_⟩
  rw [at_37 e5]
  simp [decodeMajor37, alone, e0, e1, e2, e3, e4, e5, boolNat_beq]

theorem gath (s : BitVec 7) (d : BitVec 7) (l : BitVec 4) : Statement (.gath s d l) := by
  intro _ _ _ wf
  obtain ⟨hb, e0, e1, e2, e3, e4, e5⟩ := @layout51 (encodeBase (.gath s d l)) 3690987528 8 (l.toNat) (d.toNat) (s.toNat) 55 rfl rfl (by decide) l.isLt d.isLt s.isLt (by decide)
  generalize encodeBase (.gath s d l) = ww at *
  refine ⟨hb, by omega, ?_⟩
  rw [at_37 e5]
  simp [decodeMajor37, alone, e0, e1, e2, e3, e4, e5, boolNat_beq]

theorem tld (s : BitVec 7) (l : BitVec 4) : Statement (.tld s l) := by
  intro _ _ _ wf
  obtain ⟨hb, e0, e1, e2, e3, e4, e5⟩ := @layout53 (encodeBase (.tld s l)) 3758096384 0 (l.toNat) 0 (s.toNat) 56 rfl rfl (by decide) l.isLt (by decide) s.isLt (by decide)
  generalize encodeBase (.tld s l) = ww at *
  refine ⟨hb, by omega, ?_⟩
  rw [at_38 e5]
  simp [decodeMajor38, alone, e0, e1, e2, e3, e4, e5, boolNat_beq]

theorem tst (s : BitVec 7) (l : BitVec 4) : Statement (.tst s l) := by
  intro _ _ _ wf
  obtain ⟨hb, e0, e1, e2, e3, e4, e5⟩ := @layout53 (encodeBase (.tst s l)) 3758096385 1 (l.toNat) 0 (s.toNat) 56 rfl rfl (by decide) l.isLt (by decide) s.isLt (by decide)
  generalize encodeBase (.tst s l) = ww at *
  refine ⟨hb, by omega, ?_⟩
  rw [at_38 e5]
  simp [decodeMajor38, alone, e0, e1, e2, e3, e4, e5, boolNat_beq]

theorem tzero (t : BitVec 5) (l : BitVec 4) : Statement (.tzero t l) := by
  intro _ _ _ wf
  obtain ⟨hb, e0, e1, e2, e3, e4, e5⟩ := @layout54 (encodeBase (.tzero t l)) 3758096386 2 (l.toNat) (t.toNat) 28672 rfl rfl (by decide) l.isLt t.isLt (by decide)
  generalize encodeBase (.tzero t l) = ww at *
  refine ⟨hb, by omega, ?_⟩
  rw [at_38 e5]
  simp [decodeMajor38, alone, e0, e1, e2, e3, e4, e5, boolNat_beq]

theorem mma (s : BitVec 7) (l : BitVec 4) : Statement (.mma s l) := by
  intro _ _ _ wf
  obtain ⟨hb, e0, e1, e2, e3, e4, e5⟩ := @layout53 (encodeBase (.mma s l)) 3758096387 3 (l.toNat) 0 (s.toNat) 56 rfl rfl (by decide) l.isLt (by decide) s.isLt (by decide)
  generalize encodeBase (.mma s l) = ww at *
  refine ⟨hb, by omega, ?_⟩
  rw [at_38 e5]
  simp [decodeMajor38, alone, e0, e1, e2, e3, e4, e5, boolNat_beq]

theorem mmaj (s : BitVec 7) (l : BitVec 4) : Statement (.mmaj s l) := by
  intro _ _ _ wf
  obtain ⟨hb, e0, e1, e2, e3, e4, e5⟩ := @layout53 (encodeBase (.mmaj s l)) 3758096388 4 (l.toNat) 0 (s.toNat) 56 rfl rfl (by decide) l.isLt (by decide) s.isLt (by decide)
  generalize encodeBase (.mmaj s l) = ww at *
  refine ⟨hb, by omega, ?_⟩
  rw [at_38 e5]
  simp [decodeMajor38, alone, e0, e1, e2, e3, e4, e5, boolNat_beq]

theorem ald (s : BitVec 7) (l : BitVec 4) : Statement (.ald s l) := by
  intro _ _ _ wf
  obtain ⟨hb, e0, e1, e2, e3, e4, e5⟩ := @layout53 (encodeBase (.ald s l)) 3758096389 5 (l.toNat) 0 (s.toNat) 56 rfl rfl (by decide) l.isLt (by decide) s.isLt (by decide)
  generalize encodeBase (.ald s l) = ww at *
  refine ⟨hb, by omega, ?_⟩
  rw [at_38 e5]
  simp [decodeMajor38, alone, e0, e1, e2, e3, e4, e5, boolNat_beq]

theorem ast (s : BitVec 7) (l : BitVec 4) : Statement (.ast s l) := by
  intro _ _ _ wf
  obtain ⟨hb, e0, e1, e2, e3, e4, e5⟩ := @layout53 (encodeBase (.ast s l)) 3758096390 6 (l.toNat) 0 (s.toNat) 56 rfl rfl (by decide) l.isLt (by decide) s.isLt (by decide)
  generalize encodeBase (.ast s l) = ww at *
  refine ⟨hb, by omega, ?_⟩
  rw [at_38 e5]
  simp [decodeMajor38, alone, e0, e1, e2, e3, e4, e5, boolNat_beq]

theorem aq (s : BitVec 7) (l : BitVec 4) : Statement (.aq s l) := by
  intro _ _ _ wf
  obtain ⟨hb, e0, e1, e2, e3, e4, e5⟩ := @layout53 (encodeBase (.aq s l)) 3758096391 7 (l.toNat) 0 (s.toNat) 56 rfl rfl (by decide) l.isLt (by decide) s.isLt (by decide)
  generalize encodeBase (.aq s l) = ww at *
  refine ⟨hb, by omega, ?_⟩
  rw [at_38 e5]
  simp [decodeMajor38, alone, e0, e1, e2, e3, e4, e5, boolNat_beq]

theorem azero (a : BitVec 5) (l : BitVec 4) : Statement (.azero a l) := by
  intro _ _ _ wf
  obtain ⟨hb, e0, e1, e2, e3, e4, e5⟩ := @layout54 (encodeBase (.azero a l)) 3758096392 8 (l.toNat) (a.toNat) 28672 rfl rfl (by decide) l.isLt a.isLt (by decide)
  generalize encodeBase (.azero a l) = ww at *
  refine ⟨hb, by omega, ?_⟩
  rw [at_38 e5]
  simp [decodeMajor38, alone, e0, e1, e2, e3, e4, e5, boolNat_beq]

theorem cpy (s : BitVec 7) (b : BitVec 7) (l : BitVec 4) : Statement (.cpy s b l) := by
  intro _ _ _ wf
  obtain ⟨hb, e0, e1, e2, e3, e4⟩ := @layout55 (encodeBase (.cpy s b l)) 3825205248 0 (l.toNat) (b.toNat) (s.toNat) 57 rfl rfl (by decide) l.isLt b.isLt s.isLt (by decide)
  generalize encodeBase (.cpy s b l) = ww at *
  refine ⟨hb, by omega, ?_⟩
  rw [at_39 e4]
  simp [decodeMajor39, alone, e0, e1, e2, e3, e4, boolNat_beq]

theorem cpyt (s : BitVec 7) (b : BitVec 7) (l : BitVec 4) : Statement (.cpyt s b l) := by
  intro _ _ _ wf
  obtain ⟨hb, e0, e1, e2, e3, e4⟩ := @layout55 (encodeBase (.cpyt s b l)) 3825205249 1 (l.toNat) (b.toNat) (s.toNat) 57 rfl rfl (by decide) l.isLt b.isLt s.isLt (by decide)
  generalize encodeBase (.cpyt s b l) = ww at *
  refine ⟨hb, by omega, ?_⟩
  rw [at_39 e4]
  simp [decodeMajor39, alone, e0, e1, e2, e3, e4, boolNat_beq]

theorem barr (b : BitVec 7) (l : BitVec 4) : Statement (.barr b l) := by
  intro _ _ _ wf
  obtain ⟨hb, e0, e1, e2, e3, e4⟩ := @layout56 (encodeBase (.barr b l)) 3892314112 0 (l.toNat) (b.toNat) 7424 rfl rfl (by decide) l.isLt b.isLt (by decide)
  generalize encodeBase (.barr b l) = ww at *
  refine ⟨hb, by omega, ?_⟩
  rw [at_3A e4]
  simp [decodeMajor3A, alone, e0, e1, e2, e3, e4, boolNat_beq]

theorem bexp (s : BitVec 7) (b : BitVec 7) (l : BitVec 4) : Statement (.bexp s b l) := by
  intro _ _ _ wf
  obtain ⟨hb, e0, e1, e2, e3, e4⟩ := @layout55 (encodeBase (.bexp s b l)) 3892314113 1 (l.toNat) (b.toNat) (s.toNat) 58 rfl rfl (by decide) l.isLt b.isLt s.isLt (by decide)
  generalize encodeBase (.bexp s b l) = ww at *
  refine ⟨hb, by omega, ?_⟩
  rw [at_3A e4]
  simp [decodeMajor3A, alone, e0, e1, e2, e3, e4, boolNat_beq]

theorem bwait (b : BitVec 7) (l : BitVec 4) : Statement (.bwait b l) := by
  intro _ _ _ wf
  obtain ⟨hb, e0, e1, e2, e3, e4⟩ := @layout56 (encodeBase (.bwait b l)) 3892314114 2 (l.toNat) (b.toNat) 7424 rfl rfl (by decide) l.isLt b.isLt (by decide)
  generalize encodeBase (.bwait b l) = ww at *
  refine ⟨hb, by omega, ?_⟩
  rw [at_3A e4]
  simp [decodeMajor3A, alone, e0, e1, e2, e3, e4, boolNat_beq]

theorem btry (b : BitVec 7) (l : BitVec 4) : Statement (.btry b l) := by
  intro _ _ _ wf
  obtain ⟨hb, e0, e1, e2, e3, e4⟩ := @layout56 (encodeBase (.btry b l)) 3892314115 3 (l.toNat) (b.toNat) 7424 rfl rfl (by decide) l.isLt b.isLt (by decide)
  generalize encodeBase (.btry b l) = ww at *
  refine ⟨hb, by omega, ?_⟩
  rw [at_3A e4]
  simp [decodeMajor3A, alone, e0, e1, e2, e3, e4, boolNat_beq]

theorem ssld (s : BitVec 7) (l : BitVec 4) : Statement (.ssld s l) := by
  intro _ _ _ wf
  obtain ⟨hb, e0, e1, e2, e3, e4⟩ := @layout57 (encodeBase (.ssld s l)) 3959422976 0 (l.toNat) 0 (s.toNat) 59 rfl rfl (by decide) l.isLt (by decide) s.isLt (by decide)
  generalize encodeBase (.ssld s l) = ww at *
  refine ⟨hb, by omega, ?_⟩
  rw [at_3B e4]
  simp [decodeMajor3B, alone, e0, e1, e2, e3, e4, boolNat_beq]

theorem ssst (s : BitVec 7) (l : BitVec 4) : Statement (.ssst s l) := by
  intro _ _ _ wf
  obtain ⟨hb, e0, e1, e2, e3, e4⟩ := @layout57 (encodeBase (.ssst s l)) 3959422977 1 (l.toNat) 0 (s.toNat) 59 rfl rfl (by decide) l.isLt (by decide) s.isLt (by decide)
  generalize encodeBase (.ssst s l) = ww at *
  refine ⟨hb, by omega, ?_⟩
  rw [at_3B e4]
  simp [decodeMajor3B, alone, e0, e1, e2, e3, e4, boolNat_beq]

theorem ssnap (s : BitVec 7) (l : BitVec 4) : Statement (.ssnap s l) := by
  intro _ _ _ wf
  obtain ⟨hb, e0, e1, e2, e3, e4⟩ := @layout57 (encodeBase (.ssnap s l)) 3959422978 2 (l.toNat) 0 (s.toNat) 59 rfl rfl (by decide) l.isLt (by decide) s.isLt (by decide)
  generalize encodeBase (.ssnap s l) = ww at *
  refine ⟨hb, by omega, ?_⟩
  rw [at_3B e4]
  simp [decodeMajor3B, alone, e0, e1, e2, e3, e4, boolNat_beq]

theorem ssrb (s : BitVec 7) (l : BitVec 4) : Statement (.ssrb s l) := by
  intro _ _ _ wf
  obtain ⟨hb, e0, e1, e2, e3, e4⟩ := @layout57 (encodeBase (.ssrb s l)) 3959422979 3 (l.toNat) 0 (s.toNat) 59 rfl rfl (by decide) l.isLt (by decide) s.isLt (by decide)
  generalize encodeBase (.ssrb s l) = ww at *
  refine ⟨hb, by omega, ?_⟩
  rw [at_3B e4]
  simp [decodeMajor3B, alone, e0, e1, e2, e3, e4, boolNat_beq]

theorem sscopy (s : BitVec 7) (l : BitVec 4) : Statement (.sscopy s l) := by
  intro _ _ _ wf
  obtain ⟨hb, e0, e1, e2, e3, e4⟩ := @layout57 (encodeBase (.sscopy s l)) 3959422980 4 (l.toNat) 0 (s.toNat) 59 rfl rfl (by decide) l.isLt (by decide) s.isLt (by decide)
  generalize encodeBase (.sscopy s l) = ww at *
  refine ⟨hb, by omega, ?_⟩
  rw [at_3B e4]
  simp [decodeMajor3B, alone, e0, e1, e2, e3, e4, boolNat_beq]

theorem ssqry (s : BitVec 7) (d : BitVec 7) (l : BitVec 4) : Statement (.ssqry s d l) := by
  intro _ _ _ wf
  obtain ⟨hb, e0, e1, e2, e3, e4⟩ := @layout55 (encodeBase (.ssqry s d l)) 3959422981 5 (l.toNat) (d.toNat) (s.toNat) 59 rfl rfl (by decide) l.isLt d.isLt s.isLt (by decide)
  generalize encodeBase (.ssqry s d l) = ww at *
  refine ⟨hb, by omega, ?_⟩
  rw [at_3B e4]
  simp [decodeMajor3B, alone, e0, e1, e2, e3, e4, boolNat_beq]

theorem ssfree (s : BitVec 7) (l : BitVec 4) : Statement (.ssfree s l) := by
  intro _ _ _ wf
  obtain ⟨hb, e0, e1, e2, e3, e4⟩ := @layout57 (encodeBase (.ssfree s l)) 3959422982 6 (l.toNat) 0 (s.toNat) 59 rfl rfl (by decide) l.isLt (by decide) s.isLt (by decide)
  generalize encodeBase (.ssfree s l) = ww at *
  refine ⟨hb, by omega, ?_⟩
  rw [at_3B e4]
  simp [decodeMajor3B, alone, e0, e1, e2, e3, e4, boolNat_beq]

theorem tkspawn (s : BitVec 7) (l : BitVec 4) : Statement (.tkspawn s l) := by
  intro _ _ _ wf
  obtain ⟨hb, e0, e1, e2, e3, e4, e5, e6⟩ := @layout58 (encodeBase (.tkspawn s l)) 4026531840 0 (l.toNat) 0 (s.toNat) 60 rfl rfl (by decide) l.isLt (by decide) s.isLt (by decide)
  generalize encodeBase (.tkspawn s l) = ww at *
  refine ⟨hb, by omega, ?_⟩
  rw [at_3C e6]
  simp [decodeMajor3C, alone, e0, e1, e2, e3, e4, e5, e6, boolNat_beq]

theorem tkend (l : BitVec 4) : Statement (.tkend l) := by
  intro _ _ _ wf
  obtain ⟨hb, e0, e1, e2, e3, e4, e5, e6⟩ := @layout59 (encodeBase (.tkend l)) 4026531841 1 (l.toNat) 983040 rfl rfl (by decide) l.isLt (by decide)
  generalize encodeBase (.tkend l) = ww at *
  refine ⟨hb, by omega, ?_⟩
  rw [at_3C e6]
  simp [decodeMajor3C, alone, e0, e1, e2, e3, e4, e5, e6, boolNat_beq]

theorem tksplit (l : BitVec 4) : Statement (.tksplit l) := by
  intro _ _ _ wf
  obtain ⟨hb, e0, e1, e2, e3, e4, e5, e6⟩ := @layout59 (encodeBase (.tksplit l)) 4026531842 2 (l.toNat) 983040 rfl rfl (by decide) l.isLt (by decide)
  generalize encodeBase (.tksplit l) = ww at *
  refine ⟨hb, by omega, ?_⟩
  rw [at_3C e6]
  simp [decodeMajor3C, alone, e0, e1, e2, e3, e4, e5, e6, boolNat_beq]

theorem tkinfo (s : BitVec 7) (d : BitVec 7) (l : BitVec 4) : Statement (.tkinfo s d l) := by
  intro _ _ _ wf
  obtain ⟨hb, e0, e1, e2, e3, e4, e5, e6⟩ := @layout60 (encodeBase (.tkinfo s d l)) 4026531843 3 (l.toNat) (d.toNat) (s.toNat) 60 rfl rfl (by decide) l.isLt d.isLt s.isLt (by decide)
  have hw : encodeBase (.tkinfo s d l) = put l.toNat 8 (put d.toNat 12 (put s.toNat 19 0xF0000003)) := rfl
  generalize encodeBase (.tkinfo s d l) = ww at *
  refine ⟨hb, by omega, ?_⟩
  rw [at_3C e6]
  simp [decodeMajor3C, alone, e0, e1, e2, e3, e4, e5, e6, boolNat_beq] <;> repeat rw [if_neg (by first | omega | (simp only [bits, put] at *; omega))]

theorem salloc (s : BitVec 7) (l : BitVec 4) : Statement (.salloc s l) := by
  intro _ _ _ wf
  obtain ⟨hb, e0, e1, e2, e3, e4, e5, e6⟩ := @layout58 (encodeBase (.salloc s l)) 4026531844 4 (l.toNat) 0 (s.toNat) 60 rfl rfl (by decide) l.isLt (by decide) s.isLt (by decide)
  generalize encodeBase (.salloc s l) = ww at *
  refine ⟨hb, by omega, ?_⟩
  rw [at_3C e6]
  simp [decodeMajor3C, alone, e0, e1, e2, e3, e4, e5, e6, boolNat_beq]

theorem sfree (s : BitVec 7) (l : BitVec 4) : Statement (.sfree s l) := by
  intro _ _ _ wf
  obtain ⟨hb, e0, e1, e2, e3, e4, e5, e6⟩ := @layout58 (encodeBase (.sfree s l)) 4026531845 5 (l.toNat) 0 (s.toNat) 60 rfl rfl (by decide) l.isLt (by decide) s.isLt (by decide)
  generalize encodeBase (.sfree s l) = ww at *
  refine ⟨hb, by omega, ?_⟩
  rw [at_3C e6]
  simp [decodeMajor3C, alone, e0, e1, e2, e3, e4, e5, e6, boolNat_beq]

theorem fpqry (s : BitVec 7) (d : BitVec 7) (l : BitVec 4) : Statement (.fpqry s d l) := by
  intro _ _ _ wf
  obtain ⟨hb, e0, e1, e2, e3, e4, e5, e6⟩ := @layout60 (encodeBase (.fpqry s d l)) 4026531848 8 (l.toNat) (d.toNat) (s.toNat) 60 rfl rfl (by decide) l.isLt d.isLt s.isLt (by decide)
  have hw : encodeBase (.fpqry s d l) = put l.toNat 8 (put d.toNat 12 (put s.toNat 19 0xF0000008)) := rfl
  generalize encodeBase (.fpqry s d l) = ww at *
  refine ⟨hb, by omega, ?_⟩
  rw [at_3C e6]
  simp [decodeMajor3C, alone, e0, e1, e2, e3, e4, e5, e6, boolNat_beq] <;> repeat rw [if_neg (by first | omega | (simp only [bits, put] at *; omega))]

theorem fpdon (s : BitVec 7) (l : BitVec 4) : Statement (.fpdon s l) := by
  intro _ _ _ wf
  obtain ⟨hb, e0, e1, e2, e3, e4, e5, e6⟩ := @layout58 (encodeBase (.fpdon s l)) 4026531849 9 (l.toNat) 0 (s.toNat) 60 rfl rfl (by decide) l.isLt (by decide) s.isLt (by decide)
  generalize encodeBase (.fpdon s l) = ww at *
  refine ⟨hb, by omega, ?_⟩
  rw [at_3C e6]
  simp [decodeMajor3C, alone, e0, e1, e2, e3, e4, e5, e6, boolNat_beq]

theorem fpvoid (s : BitVec 7) (l : BitVec 4) : Statement (.fpvoid s l) := by
  intro _ _ _ wf
  obtain ⟨hb, e0, e1, e2, e3, e4, e5, e6⟩ := @layout58 (encodeBase (.fpvoid s l)) 4026531850 10 (l.toNat) 0 (s.toNat) 60 rfl rfl (by decide) l.isLt (by decide) s.isLt (by decide)
  generalize encodeBase (.fpvoid s l) = ww at *
  refine ⟨hb, by omega, ?_⟩
  rw [at_3C e6]
  simp [decodeMajor3C, alone, e0, e1, e2, e3, e4, e5, e6, boolNat_beq]

theorem succ (l : BitVec 4) : Statement (.succ l) := by
  intro _ _ _ wf
  obtain ⟨hb, e0, e1, e2, e3, e4, e5, e6⟩ := @layout59 (encodeBase (.succ l)) 4026531851 11 (l.toNat) 983040 rfl rfl (by decide) l.isLt (by decide)
  generalize encodeBase (.succ l) = ww at *
  refine ⟨hb, by omega, ?_⟩
  rw [at_3C e6]
  simp [decodeMajor3C, alone, e0, e1, e2, e3, e4, e5, e6, boolNat_beq]

theorem wpred (l : BitVec 4) : Statement (.wpred l) := by
  intro _ _ _ wf
  obtain ⟨hb, e0, e1, e2, e3, e4, e5, e6⟩ := @layout59 (encodeBase (.wpred l)) 4026531852 12 (l.toNat) 983040 rfl rfl (by decide) l.isLt (by decide)
  generalize encodeBase (.wpred l) = ww at *
  refine ⟨hb, by omega, ?_⟩
  rw [at_3C e6]
  simp [decodeMajor3C, alone, e0, e1, e2, e3, e4, e5, e6, boolNat_beq]

theorem svc (s : BitVec 7) (x : BitVec 7) : Statement (.svc s x) := by
  intro _ _ _ wf
  obtain ⟨hb, e0, e1, e2, e3, e4, e5, e6⟩ := @layout61 (encodeBase (.svc s x)) 4026531856 16 (x.toNat) (s.toNat) 60 rfl rfl (by decide) x.isLt s.isLt (by decide)
  generalize encodeBase (.svc s x) = ww at *
  refine ⟨hb, by omega, ?_⟩
  rw [at_3C e6]
  simp [decodeMajor3C, alone, e0, e1, e2, e3, e4, e5, e6, boolNat_beq]

theorem brk (c : BitVec 7) (l : BitVec 4) : Statement (.brk c l) := by
  intro _ _ _ wf
  obtain ⟨hb, e0, e1, e2, e3, e4, e5⟩ := @layout62 (encodeBase (.brk c l)) 4026531857 17 (l.toNat) (c.toNat) 7680 rfl rfl (by decide) l.isLt c.isLt (by decide)
  generalize encodeBase (.brk c l) = ww at *
  refine ⟨hb, by omega, ?_⟩
  rw [at_3C e5]
  simp [decodeMajor3C, alone, e0, e1, e2, e3, e4, e5, boolNat_beq]

theorem trap (c : BitVec 7) (l : BitVec 4) : Statement (.trap c l) := by
  intro _ _ _ wf
  obtain ⟨hb, e0, e1, e2, e3, e4, e5⟩ := @layout62 (encodeBase (.trap c l)) 4026531858 18 (l.toNat) (c.toNat) 7680 rfl rfl (by decide) l.isLt c.isLt (by decide)
  generalize encodeBase (.trap c l) = ww at *
  refine ⟨hb, by omega, ?_⟩
  rw [at_3C e5]
  simp [decodeMajor3C, alone, e0, e1, e2, e3, e4, e5, boolNat_beq]

theorem rdsrVector (d : BitVec 7) (x : BitVec 7) : Statement (.rdsrVector d x) := by
  intro _ _ _ wf
  obtain ⟨hb, e0, e1, e2, e3, e4, e5, e6⟩ := @layout61 (encodeBase (.rdsrVector d x)) 4026531859 19 (x.toNat) (d.toNat) 60 rfl rfl (by decide) x.isLt d.isLt (by decide)
  generalize encodeBase (.rdsrVector d x) = ww at *
  refine ⟨hb, by omega, ?_⟩
  rw [at_3C e6]
  simp [decodeMajor3C, alone, e0, e1, e2, e3, e4, e5, e6, boolNat_beq]

theorem rdsrUniform (d : BitVec 7) (x : BitVec 7) : Statement (.rdsrUniform d x) := by
  intro _ _ _ wf
  obtain ⟨hb, e0, e1, e2, e3, e4, e5, e6⟩ := @layout61 (encodeBase (.rdsrUniform d x)) 4026531860 20 (x.toNat) (d.toNat) 60 rfl rfl (by decide) x.isLt d.isLt (by decide)
  generalize encodeBase (.rdsrUniform d x) = ww at *
  refine ⟨hb, by omega, ?_⟩
  rw [at_3C e6]
  simp [decodeMajor3C, alone, e0, e1, e2, e3, e4, e5, e6, boolNat_beq]

theorem wrsr (s : BitVec 7) (x : BitVec 7) : Statement (.wrsr s x) := by
  intro _ _ _ wf
  obtain ⟨hb, e0, e1, e2, e3, e4, e5, e6⟩ := @layout61 (encodeBase (.wrsr s x)) 4026531861 21 (x.toNat) (s.toNat) 60 rfl rfl (by decide) x.isLt s.isLt (by decide)
  generalize encodeBase (.wrsr s x) = ww at *
  refine ⟨hb, by omega, ?_⟩
  rw [at_3C e6]
  simp [decodeMajor3C, alone, e0, e1, e2, e3, e4, e5, e6, boolNat_beq]

theorem sleep (s : BitVec 7) (l : BitVec 4) : Statement (.sleep s l) := by
  intro _ _ _ wf
  obtain ⟨hb, e0, e1, e2, e3, e4, e5, e6⟩ := @layout58 (encodeBase (.sleep s l)) 4026531862 22 (l.toNat) 0 (s.toNat) 60 rfl rfl (by decide) l.isLt (by decide) s.isLt (by decide)
  generalize encodeBase (.sleep s l) = ww at *
  refine ⟨hb, by omega, ?_⟩
  rw [at_3C e6]
  simp [decodeMajor3C, alone, e0, e1, e2, e3, e4, e5, e6, boolNat_beq]

theorem sleepExpire (f : Nat) : Statement (.sleepExpire f) := fun h => by cases h

theorem loadDataArrival (f : Nat) (p : Nat) : Statement (.loadDataArrival f p) := fun h => by cases h

theorem writeAcknowledge (c : Nat) (i : Nat) : Statement (.writeAcknowledge c i) := fun h => by cases h

theorem redPerformed (c : Nat) (i : Nat) : Statement (.redPerformed c i) := fun h => by cases h

theorem translationWalkDone (c : Nat) (i : Nat) : Statement (.translationWalkDone c i) := fun h => by cases h

theorem copySectorArrival (c : Nat) (i : Nat) (n : Nat) : Statement (.copySectorArrival c i n) := fun h => by cases h

theorem engineOpComplete (c : Nat) (i : Nat) : Statement (.engineOpComplete c i) := fun h => by cases h

theorem barrierByteEvaluation (c : Nat) (b : Nat) : Statement (.barrierByteEvaluation c b) := fun h => by cases h

theorem workgroupEnd (w : Nat) : Statement (.workgroupEnd w) := fun h => by cases h

theorem offcoreMove (f : Nat) : Statement (.offcoreMove f) := fun h => by cases h

theorem offcoreReturn (f : Nat) : Statement (.offcoreReturn f) := fun h => by cases h

theorem svcReply (p : Nat) : Statement (.svcReply p) := fun h => by cases h

theorem svcReplyTailWrite (p : Nat) (tail : Word64) : Statement (.svcReplyTailWrite p tail) := fun h => by cases h

theorem launch (q : Nat) : Statement (.launch q) := fun h => by cases h

theorem graphLoad (q : Nat) : Statement (.graphLoad q) := fun h => by cases h

theorem graphRun (q : Nat) : Statement (.graphRun q) := fun h => by cases h

theorem graphUnload (q : Nat) : Statement (.graphUnload q) := fun h => by cases h

theorem graphNode (g : Nat) : Statement (.graphNode g) := fun h => by cases h

theorem tasks (q : Nat) : Statement (.tasks q) := fun h => by cases h

theorem wait (q : Nat) : Statement (.wait q) := fun h => by cases h

theorem signalAdd (q : Nat) : Statement (.signalAdd q) := fun h => by cases h

theorem signalWrite (q : Nat) : Statement (.signalWrite q) := fun h => by cases h

theorem lgive (q : Nat) : Statement (.lgive q) := fun h => by cases h

theorem ltake (q : Nat) : Statement (.ltake q) := fun h => by cases h

theorem footprintQuery (q : Nat) : Statement (.footprintQuery q) := fun h => by cases h

theorem footprintVoid (q : Nat) : Statement (.footprintVoid q) := fun h => by cases h

theorem footprintDonate (q : Nat) : Statement (.footprintDonate q) := fun h => by cases h

theorem footprintResetAll (q : Nat) : Statement (.footprintResetAll q) := fun h => by cases h

theorem copy (q : Nat) : Statement (.copy q) := fun h => by cases h

theorem marker (q : Nat) : Statement (.marker q) := fun h => by cases h

theorem doorbell (q : Nat) (wi : Word) : Statement (.doorbell q wi) := fun h => by cases h

theorem queueEnable (q : Nat) : Statement (.queueEnable q) := fun h => by cases h

theorem queueDisable (q : Nat) : Statement (.queueDisable q) := fun h => by cases h

theorem queueMap (q : Nat) : Statement (.queueMap q) := fun h => by cases h

theorem queueQuantumExpiry (q : Nat) : Statement (.queueQuantumExpiry q) := fun h => by cases h

theorem launchAdmission (l : Nat) : Statement (.launchAdmission l) := fun h => by cases h

theorem workgroupDispatch (l : Nat) (c : Nat) : Statement (.workgroupDispatch l c) := fun h => by cases h

theorem launchConfirm (l : Nat) : Statement (.launchConfirm l) := fun h => by cases h

theorem darningStart (l : Nat) : Statement (.darningStart l) := fun h => by cases h

theorem taskDispatch (p : Nat) (c : Nat) : Statement (.taskDispatch p c) := fun h => by cases h

theorem taskCommit (w : Nat) : Statement (.taskCommit w) := fun h => by cases h

theorem taskTimeExpiry (w : Nat) : Statement (.taskTimeExpiry w) := fun h => by cases h

theorem taskUnpick (w : Nat) : Statement (.taskUnpick w) := fun h => by cases h

theorem batchIteration (p : Nat) : Statement (.batchIteration p) := fun h => by cases h

theorem batchCommit (p : Nat) : Statement (.batchCommit p) := fun h => by cases h

theorem roleMonitorWindow (c : Nat) (t : Nat) : Statement (.roleMonitorWindow c t) := fun h => by cases h

theorem forwardProgressSwap (c : Nat) : Statement (.forwardProgressSwap c) := fun h => by cases h

theorem swapReadmit (w : Nat) (c : Nat) : Statement (.swapReadmit w c) := fun h => by cases h

theorem serviceReplay (p : Nat) : Statement (.serviceReplay p) := fun h => by cases h

theorem serviceSkip (p : Nat) : Statement (.serviceSkip p) := fun h => by cases h

theorem serviceEndLanes (p : Nat) : Statement (.serviceEndLanes p) := fun h => by cases h

theorem serviceExtract (p : Nat) : Statement (.serviceExtract p) := fun h => by cases h

theorem serviceRestore (p : Nat) : Statement (.serviceRestore p) := fun h => by cases h

theorem serviceReplaySectors (p : Nat) : Statement (.serviceReplaySectors p) := fun h => by cases h

theorem serviceEndWorkgroup (p : Nat) : Statement (.serviceEndWorkgroup p) := fun h => by cases h

theorem serviceRespawn (p : Nat) : Statement (.serviceRespawn p) := fun h => by cases h

theorem serviceDiscard (p : Nat) : Statement (.serviceDiscard p) := fun h => by cases h

theorem serviceEndContext (p : Nat) : Statement (.serviceEndContext p) := fun h => by cases h

theorem pageRequestResponse (p : Nat) (prg : Nat) (ok : Bool) : Statement (.pageRequestResponse p prg ok) := fun h => by cases h

theorem atsInvalidation (p : Nat) (lo : Nat) (hi : Nat) : Statement (.atsInvalidation p lo hi) := fun h => by cases h

theorem translationInvalidate (p : Nat) (lo : Nat) (hi : Nat) : Statement (.translationInvalidate p lo hi) := fun h => by cases h

theorem ringDescriptorWrite (p : Nat) (r : Nat) (base : Word64) (size : Word) : Statement (.ringDescriptorWrite p r base size) := fun h => by cases h

theorem hangWatchdogExpiry (q : Nat) : Statement (.hangWatchdogExpiry q) := fun h => by cases h

theorem saveWatchdogExpiry (p : Nat) : Statement (.saveWatchdogExpiry p) := fun h => by cases h

theorem preemptPasid (p : Nat) : Statement (.preemptPasid p) := fun h => by cases h

theorem resumePasid (p : Nat) : Statement (.resumePasid p) := fun h => by cases h

theorem seizePod (pod : Nat) (nonce : Word64) (sig : Nat) : Statement (.seizePod pod nonce sig) := fun h => by cases h

theorem seizeRequestMessage (pod : Nat) (nonce : Word64) (sig : Nat) : Statement (.seizeRequestMessage pod nonce sig) := fun h => by cases h

theorem releasePod : Statement (.releasePod) := fun h => by cases h

theorem discardFrozen (p : Nat) (consent : Nat) : Statement (.discardFrozen p consent) := fun h => by cases h

theorem teardownPasid (p : Nat) : Statement (.teardownPasid p) := fun h => by cases h

theorem readSensors : Statement (.readSensors) := fun h => by cases h

theorem readEventLog (idx : Nat) (restore : Bool) : Statement (.readEventLog idx restore) := fun h => by cases h

theorem stageImage (kind : Nat) (version : Nat) (rollback : Nat) (sig : Nat) : Statement (.stageImage kind version rollback sig) := fun h => by cases h

theorem activateImage (kind : Nat) : Statement (.activateImage kind) := fun h => by cases h

theorem egressLock : Statement (.egressLock) := fun h => by cases h

theorem hostCounterWrite (pf : Bool) (i : Nat) (v : Word64) : Statement (.hostCounterWrite pf i v) := fun h => by cases h

theorem registerWrite (vf : Nat) (off : Nat) (v : Word64) : Statement (.registerWrite vf off v) := fun h => by cases h

theorem functionLevelReset : Statement (.functionLevelReset) := fun h => by cases h

theorem hostPostedWrite (port : Nat) (a : Nat) (data : List Byte) : Statement (.hostPostedWrite port a data) := fun h => by cases h

theorem hostAtomicOp (op : Nat) (wide : Bool) (a : Nat) (x : Word64) (y : Word64) : Statement (.hostAtomicOp op wide a x y) := fun h => by cases h

theorem getVersion : Statement (.getVersion) := fun h => by cases h

theorem getCapabilities : Statement (.getCapabilities) := fun h => by cases h

theorem negotiateAlgorithms (offer : Nat) : Statement (.negotiateAlgorithms offer) := fun h => by cases h

theorem getDigests : Statement (.getDigests) := fun h => by cases h

theorem getCertificate (off : Nat) (len : Nat) : Statement (.getCertificate off len) := fun h => by cases h

theorem challenge (nonce : Nat) : Statement (.challenge nonce) := fun h => by cases h

theorem getMeasurements (idx : Nat) : Statement (.getMeasurements idx) := fun h => by cases h

theorem mctpSensorRead (smbus : Bool) : Statement (.mctpSensorRead smbus) := fun h => by cases h

theorem fabricFlit (link : Nat) (flit : List Byte) : Statement (.fabricFlit link flit) := fun h => by cases h

theorem linkSilenceTimeout (link : Nat) : Statement (.linkSilenceTimeout link) := fun h => by cases h

theorem idleFlitTimer (link : Nat) : Statement (.idleFlitTimer link) := fun h => by cases h

theorem peerHeartbeatTimeout (m : Nat) : Statement (.peerHeartbeatTimeout m) := fun h => by cases h

theorem linkEventBroadcast (m : Nat) (link : Nat) (hung : Bool) : Statement (.linkEventBroadcast m link hung) := fun h => by cases h

theorem cpHeartbeatTimeout : Statement (.cpHeartbeatTimeout) := fun h => by cases h

theorem cpTakeover : Statement (.cpTakeover) := fun h => by cases h

theorem sensorSample (vals : List Nat) : Statement (.sensorSample vals) := fun h => by cases h

theorem powerLimitExcess : Statement (.powerLimitExcess) := fun h => by cases h

theorem thermalTrip : Statement (.thermalTrip) := fun h => by cases h

theorem scrub (sector : Nat) (ecc : Nat) : Statement (.scrub sector ecc) := fun h => by cases h

theorem powerOn (failed : Nat) : Statement (.powerOn failed) := fun h => by cases h

theorem deviceReset : Statement (.deviceReset) := fun h => by cases h

theorem managementCoreReset : Statement (.managementCoreReset) := fun h => by cases h

theorem illegalInstruction : Statement (.illegalInstruction) := fun _ h _ _ => absurd rfl h

theorem instructionFetchFault : Statement (.instructionFetchFault) := fun _ _ h _ => absurd rfl h

theorem l1SectorEviction (c : Nat) (sector : Nat) : Statement (.l1SectorEviction c sector) := fun h => by cases h

theorem atsTranslationCompletion (c : Nat) (p : Nat) (vpn : Nat) (present : Bool) (frame : Nat) : Statement (.atsTranslationCompletion c p vpn present frame) := fun h => by cases h

theorem eccError (unit : Nat) (c : Nat) (k : Nat) (correctable : Bool) : Statement (.eccError unit c k correctable) := fun h => by cases h

theorem powerLoss : Statement (.powerLoss) := fun h => by cases h

end BaseWord

end Laws

end Sys2Proof
end

