-- ==== Sys2Proof/Tests/Slice0.lean ====
section
/-! SUPPORT. Tests: words of the spec decode to their instruction, each check of WellFormed refuses a term, worked examples of the spec, and for every
statement a state that meets its hypotheses. Expected results are the spec's own words and numbers. -/

namespace Sys2Proof

namespace Tests

open Machine

set_option Elab.async false

/-! ### A small state, and how a state is shown to meet a hypothesis -/

/-- Fibre 32 on core 0 at address 0, all lanes active, 128 registers, page 0 of context 1 readable and writable, and an instruction of one word latched. -/
def w0 : State := { State.reset.place 32 0 with cur := ⟨32, 0, 0, 4, allLanes, allLanes, 0, Attr.none, false⟩ }

/-- The same with another fibre state. -/
def wMe (g : Fibre → Fibre) : State := w0.modMe g

def readyB (s : State) (u : Uses) : Bool := !s.outside u && s.cur.active != 0 && s.hazard u == none && (s.core s.me.core).ecc == [] && !s.cur.gbad

theorem ready_ok {s : State} {u : Uses} (h : readyB s u = true) : s.Ready u := by
  simp only [readyB, Bool.and_eq_true, Bool.not_eq_true', bne_iff_ne, beq_iff_eq] at h
  exact ⟨h.1.1.1.1, h.1.1.1.2, h.1.1.2, h.1.2, h.2⟩

def quietB (s : State) : Bool := s.me.spilled == [] && decide (s.me.frontier.length ≤ 8) && s.me.pend.all (fun p => !p.arrived || decide (2 ≤ p.shadow))
  && (match s.me.runEntry s.cur.age with | some e => e.mask != 0 | none => false)

theorem quiet_ok {s : State} (h : quietB s = true) : s.Quiet := by
  simp only [quietB, Bool.and_eq_true, beq_iff_eq, decide_eq_true_eq, List.all_eq_true, Bool.or_eq_true, Bool.not_eq_true'] at h
  refine ⟨⟨h.1.1.1, h.1.1.2, fun p hp ha => (h.1.2 p hp).resolve_left (by simp [ha])⟩, ?_⟩
  have h2 := h.2
  split at h2
  · next e he => exact ⟨e, he, by simpa using h2⟩
  · simp at h2

def clearB (s : State) (pc : Word64) : Bool := s.others.all (fun x => x.kind != .run || x.replay || x.pc != pc)

theorem clear_ok {s : State} {pc : Word64} (h : clearB s pc = true) : s.clearAt pc := by
  intro x hx h1 h2
  have h3 := List.all_eq_true.mp h x hx
  simpa [h1, h2] using h3

theorem passes_ok {s : State} {kind acc n al : Nat} {sup : Word64 → Bool} {va : Nat → Nat} {lanes : List Nat} {oks : List (Nat × List (Nat × Nat × Word64))}
    (h1 : s.access s.me.core s.myPasid acc n al sup va lanes = ⟨oks, [], []⟩) (h2 : s.holdAny kind va oks = none) (h3 : s.places s.me.core (placesOf oks) = true) :
    s.Passes kind acc n al sup va lanes oks := ⟨h1, h2, h3⟩
/-! ### Words of the spec decode to their instruction -/

/-- The words hold the instruction, under no attribute. -/
def reads (l : List Nat) (i : Instr) : Bool := decide (decodeWords l = .ok ⟨Attr.none, i, l.length⟩)

/-- Majors 0x00 to 0x11 (R57 to R59): words of the programs of the spec, and of R51's own example. -/
theorem test_decode_integer : reads [0x0020201E] (.add64 4 2 0 true) ∧ reads [0x0CA142B1] (.or true 20 20 21 true) ∧ reads [0x18081FFF] (.addImm false 1 1 (-1))
    ∧ reads [0xF8000123, 0x24280456] (.movi true 5 0x123456) ∧ reads [0x2CA95023] (.shlImm true 21 21 35) ∧ reads [0x40081810] (.setp 0 1 1 64 true 0)
    ∧ reads [0x40080026] (.setp 0 1 0 1 false 6) := by decide

/-- Major 0x15 (R59). -/
theorem test_decode_lanes : reads [0x54083000] (.redux 1 3 0) := by decide

/-- Majors 0x18 to 0x1A (R98): the words of the loop example, and FBAR. -/
theorem test_decode_control : reads [0x60220008] (.br 1 1 false 8) ∧ reads [0x627EFFFA] (.jmp 3 15 false (-6)) ∧ reads [0x68000006] (.jen 0)
    ∧ reads [0x68000005] .fbar := by decide

/-- Majors 0x20 and 0x29 (R61, R137): the words of the examples of R69 and R137. -/
theorem test_decode_float : reads [0x80201043] (.fma 0 false 4 1 2 false) ∧ reads [0xA4286413] (.fcvt 5 6 false 4 1 3) := by decide

/-- Majors 0x2C to 0x32 (R64, R65): the words of R155 to R159 and R170. -/
theorem test_decode_memory : reads [0xB0382240] (.ld 7 2 2 2 false 0 0) ∧ reads [0xB4084040] (.st 1 4 0 2 false 0 0) ∧ reads [0xB0082052] (.ldacq 1 2 0 2 2 0)
    ∧ reads [0xB408405C] (.strel 1 4 0 2 4 0) ∧ reads [0xB8383041] (.lds 7 3 0 2 true 0) ∧ reads [0xBC485040] (.sts 9 5 0 2 false 0)
    ∧ reads [0xC8184001] (.atom 3 4 0 0 0 false 1 0) := by decide

/-- Majors 0x36 to 0x3B (R66, R67): the words of R175 and of the sparse program. -/
theorem test_decode_engine : reads [0xD8009000] (.qpush 0 9) ∧ reads [0xD8300001] (.qpop 6 0) ∧ reads [0xD8100002] (.qlen 2 0) ∧ reads [0xE0A00003] (.mma 20 0)
    ∧ reads [0xE0A00007] (.aq 20 0) ∧ reads [0xE4400001] (.cpyt 8 0 0) ∧ reads [0xE0900000] (.tld 18 0) := by decide

/-- Major 0x3C (R67). -/
theorem test_decode_system : reads [0xF0100016] (.sleep 2 0) ∧ reads [0xF0A03013] (.rdsrVector 20 0x13 ) = false ∧ reads [0xF0A03013] (.rdsrVector 20 3) := by decide

/-- Prefixes X and K (R49, R51): `[sos g2] lds.b32 v7, [s3] !la3`, and the guarded loads of the programs. -/
theorem test_decode_prefixes : decodeWords [0xFE800000, 0xB8383341] = .ok ⟨⟨true, 2, false, false, false, 0⟩, .lds 7 3 3 2 true 0, 2⟩
    ∧ decodeWords [0xFE590000, 0xF8000008, 0xB0184148] = .ok ⟨⟨true, 1, false, true, true, 2⟩, .ld 3 4 1 2 true 0 8, 3⟩
    ∧ decodeWords [0xFC118000, 0xD8B00001] = .ok ⟨⟨false, 0, false, true, false, 3⟩, .qpop 22 0, 2⟩ := by decide

/-- The encoder gives the spec's words back (R49, R51). -/
theorem test_encode : encode ⟨true, 1, false, true, true, 2⟩ (.ld 3 4 1 2 true 0 8) = [0xFE590000, 0xF8000008, 0xB0184148]
    ∧ encode Attr.none (.movi true 5 0x123456) = [0xF8000123, 0x24280456] := by decide

/-! ### Every check of WellFormed refuses a term -/

/-- Sources and destinations out of range (R33, R47). -/
theorem test_illformed_ranges : WellFormed (.add true 1 2 66 true) = false ∧ WellFormed (.add true 64 2 3 true) = false ∧ WellFormed (.movi true 64 0) = false
    ∧ WellFormed (.fadd 0 false 1 2 70 true) = false ∧ WellFormed (.redux 64 1 0) = false ∧ WellFormed (.dot4 1 2 64 true 0) = false ∧ WellFormed (.wrlane 1 66 0) = false
    ∧ WellFormed (.mov false 1 66 true) = false ∧ WellFormed (.shfl 1 2 66 true 0) = false ∧ WellFormed (.sel 1 2 66 true 0) = false ∧ WellFormed (.acqr 66 0) = false := by decide

/-- Operand classes and alignment (R48, R57, R155). -/
theorem test_illformed_groups : WellFormed (.add true 1 2 3 false) = false ∧ WellFormed (.abs false 1 2 true) = false ∧ WellFormed (.add64 1 2 4 false) = false
    ∧ WellFormed (.lea1 false 1 2 4 false) = false ∧ WellFormed (.madWI 1 2 3 false) = false ∧ WellFormed (.fadd 1 false 1 2 4 false) = false
    ∧ WellFormed (.brx 1 0) = false ∧ WellFormed (.ld 2 2 0 4 false 0 0) = false ∧ WellFormed (.ld 1 2 0 3 false 0 0) = false ∧ WellFormed (.atom64 1 2 0 0 0 false 0 0) = false
    ∧ WellFormed (.wring 1 2 3 false) = false ∧ WellFormed (.svc 1 4) = false ∧ WellFormed (.p6x 2 0 2) = false := by decide

/-- Codes that name nothing (R57 to R68). -/
theorem test_illformed_codes : WellFormed (.ld 1 2 0 7 false 0 0) = false ∧ WellFormed (.st 1 2 0 5 false 0 0) = false ∧ WellFormed (.icvt false 1 2 false 8 0) = false
    ∧ WellFormed (.setp 1 2 1 2 false 0) = false ∧ WellFormed (.qswap 1 2 3) = false ∧ WellFormed (.fdiv 2 false 1 2 3 false) = false
    ∧ WellFormed (.frnd 0 false 1 2 4) = false ∧ WellFormed (.fcvt 1 2 false 0 3 3) = false ∧ WellFormed (.dot8 1 2 3 false 3) = false ∧ WellFormed (.scl 1 1 0 0) = false
    ∧ WellFormed (.qnt 4 5 0 0 0) = false ∧ WellFormed (.fence 5 1 0) = false ∧ WellFormed (.fence 1 0 0) = false ∧ WellFormed (.wrsr 1 0) = false
    ∧ WellFormed (.rdsrUniform 1 0) = false ∧ WellFormed (.rdsrVector 1 0x17) = false := by decide

/-- Counts and blocks that run off the file (R58, R189, R215). -/
theorem test_illformed_blocks : WellFormed (.shlImm false 1 2 32) = false ∧ WellFormed (.alloc 63 1 0) = false ∧ WellFormed (.cpy 61 0 0) = false
    ∧ WellFormed (.ssqry 1 60 0) = false ∧ WellFormed (.tkinfo 66 1 0) = false := by decide

/-! ### Worked examples of the spec, one instruction each -/

/-- Lane 0 of a register after an instruction over registers of lane 0, in the machine just reset. -/
def lane0 (i : Instr) (regs : List (Nat × Word)) (d : Nat) : Option Word :=
  match exec i (w0.modSlot 0 (fun x => { x with vreg := regs.map (fun p => (32 * p.1, p.2)) })) with
  | .next t => some (t.rv d 0)
  | _ => none

/-- R87. -/
theorem test_prmt : lane0 (.prmt false 3 1 2 false) [(1, 0x44332211), (2, 0x88776655), (3, 0x27040100)] 3 = some 0xFF552211
    ∧ lane0 (.prmt false 3 1 2 false) [(1, 0x44332211), (2, 0x88776655), (3, 0x10040100)] 3 = some 0x00552211 := by decide

/-- R89. -/
theorem test_icvt : lane0 (.icvt false 1 2 true 2 4) [(2, 0xFFFFFFFB)] 1 = some 0 ∧ lane0 (.icvt false 1 2 false 2 0) [(2, 200)] 1 = some 0xFFFFFFC8 := by decide

/-- R140. -/
theorem test_dot4 : lane0 (.dot4 3 1 2 false 2) [(1, 0x04030201), (2, 0xFFFFFFFF), (3, 10)] 3 = some 0
    ∧ lane0 (.dot4 3 1 2 false 3) [(1, 0x04030201), (2, 0xFFFFFFFF), (3, 10)] 3 = some 2560 := by decide

/-- R121: the rounding of f32 to bf16, by the modes 0 to 3. -/
theorem test_rounding : (List.range 4).map (fun m => lane0 (.fcvt 5 6 false (BitVec.ofNat 3 m) 1 3) [(6, 0x3F818000)] 5) = [some 0x3F82, some 0x3F81, some 0x3F82, some 0x3F81]
    ∧ (List.range 4).map (fun m => lane0 (.fcvt 5 6 false (BitVec.ofNat 3 m) 1 3) [(6, 0xBF818000)] 5) = [some 0xBF82, some 0xBF81, some 0xBF81, some 0xBF82] := by decide

/-- R130: +0 × −3 + (−0) is −0, +0 × 3 + (−0) is +0. -/
theorem test_fma_zero : lane0 (.fma 0 false 4 1 2 false) [(2, 0xC0400000), (4, 0x80000000)] 4 = some 0x80000000
    ∧ lane0 (.fma 0 false 4 1 2 false) [(2, 0x40400000), (4, 0x80000000)] 4 = some 0 := by decide

/-- R94: SLIDE and ROT by −1, with the lane number in v2. -/
theorem test_shfl : lane0 (.shfl 1 2 65 true 2) [(2, 0), (1, 99)] 1 = some 99 := by decide

/-- The next step runs the word that was placed (R44): `sleep s2` with s2 zero, in the machine just reset. -/
theorem test_step : (match step (State.reset.withFetchWord 32 0xF0100016) with | .next t => t.me.frontier.map (·.pc) | _ => []) = [4] := by decide

/-! ### The hypotheses of the statements are met -/

theorem test_meets_IntegerArithmetic :
    w0.Quiet
    ∧ w0.Ready (usesTwin false 127 126 0 false)
    ∧ w0.Ready (usesTwin true 63 69 0 true)
    ∧ w0.Ready (usesTwin3 false 0 127 64 true)
    ∧ w0.Ready (usesTwin3 true 0 63 1 true)
    ∧ w0.Ready (usesWide 126 0 127 false) :=
  ⟨quiet_ok (by decide),
  ready_ok (by decide),
  ready_ok (by decide),
  ready_ok (by decide),
  ready_ok (by decide),
  ready_ok (by decide)⟩

theorem test_meets_IntegerArithmetic_2 :
    w0.Ready (usesPair 126 124 0 true)
    ∧ w0.Ready (usesCarry false 0 1 127 false)
    ∧ w0.Ready (usesCarry true 63 0 64 true)
    ∧ lowestLane w0.cur.active = some 0 :=
  ⟨ready_ok (by decide),
  ready_ok (by decide),
  ready_ok (by decide),
  by decide⟩

theorem test_meets_LogicShiftMinMax :
    w0.Quiet
    ∧ w0.Ready (usesTwin false 0 0 0 false)
    ∧ w0.Ready (usesTwin true 0 63 70 true)
    ∧ w0.Ready (usesTwin1 false 127 0)
    ∧ w0.Ready (usesTwin1 true 0 64) :=
  ⟨quiet_ok (by decide),
  ready_ok (by decide),
  ready_ok (by decide),
  ready_ok (by decide),
  ready_ok (by decide)⟩

theorem test_meets_FieldsAndAddresses :
    w0.Quiet
    ∧ w0.Ready (usesTwin false 1 2 3 false)
    ∧ w0.Ready (usesTwin3 false 127 0 3 false)
    ∧ w0.Ready (usesTwin3 true 63 0 3 true)
    ∧ w0.Ready ((Uses.rdB 70 true 1).and (Uses.wrV 127 1))
    ∧ w0.Ready (usesTwin1 true 63 70) :=
  ⟨quiet_ok (by decide),
  ready_ok (by decide),
  ready_ok (by decide),
  ready_ok (by decide),
  ready_ok (by decide),
  ready_ok (by decide)⟩

theorem test_meets_FieldsAndAddresses_2 :
    w0.Ready (((Uses.rdV 126 2).and (Uses.rdB 0 false 1)).and (Uses.wrV 124 2))
    ∧ w0.Ready (usesTwin true 1 2 3 true) :=
  ⟨ready_ok (by decide),
  ready_ok (by decide)⟩

theorem test_meets_ImmediatesAndConversion :
    w0.Quiet
    ∧ w0.Ready (usesTwin1 false 127 0)
    ∧ w0.Ready (usesTwin1 true 63 0)
    ∧ w0.Ready (Uses.wrV 127 1)
    ∧ w0.Ready (Uses.wrU 63)
    ∧ (7 : BitVec 4).toNat < 8 :=
  ⟨quiet_ok (by decide),
  ready_ok (by decide),
  ready_ok (by decide),
  ready_ok (by decide),
  ready_ok (by decide),
  by decide⟩

theorem test_meets_ImmediatesAndConversion_2 :
    w0.Ready ((Uses.rdV 126 2).and (Uses.wrV 124 2))
    ∧ w0.Ready ((Uses.rdV 127 1).and (Uses.wrV 0 1)) :=
  ⟨ready_ok (by decide),
  ready_ok (by decide)⟩

theorem test_meets_SelectAndPredicates :
    w0.Quiet
    ∧ w0.Ready ((((Uses.rdV 3 1).and (Uses.rdB 64 true 1)).and (Uses.rdP 15)).and (Uses.wrV 127 1))
    ∧ (9 : BitVec 4).toNat ≤ 9
    ∧ w0.Ready (((Uses.rdV 0 1).and (Uses.rdB 1 false 1)).and (Uses.wrP 15))
    ∧ w0.Ready (((Uses.rdV 126 2).and (Uses.rdB 0 true 2)).and (Uses.wrP 0))
    ∧ w0.Ready (((Uses.rdP 14).and (Uses.rdP 13)).and (Uses.wrP 15)) :=
  ⟨quiet_ok (by decide),
  ready_ok (by decide),
  by decide,
  ready_ok (by decide),
  ready_ok (by decide),
  ready_ok (by decide)⟩

theorem test_meets_SelectAndPredicates_2 :
    w0.Ready ((Uses.rdP 0).and (Uses.wrP 14))
    ∧ w0.Ready ((Uses.rdP 0).and (Uses.wrU 63)) :=
  ⟨ready_ok (by decide),
  ready_ok (by decide)⟩

theorem test_meets_LaneExchange :
    w0.Quiet
    ∧ w0.Ready ((((Uses.allV 127).and (Uses.rdB 0 false 1)).and (Uses.rdV 0 1)).and (Uses.wrV 0 1))
    ∧ (2 : BitVec 2).toNat ≤ 2
    ∧ w0.Ready ((Uses.allV 0).and (Uses.wrV 127 1))
    ∧ w0.Ready ((Uses.rdV 0 1).and (Uses.wrU 63))
    ∧ lanesOf w0.cur.active = 0 :: (List.range' 1 31) :=
  ⟨quiet_ok (by decide),
  ready_ok (by decide),
  by decide,
  ready_ok (by decide),
  ready_ok (by decide),
  by decide⟩

theorem test_meets_LaneExchange_2 :
    w0.Ready (((Uses.allV 127).and (Uses.rdU 63)).and (Uses.wrU 0))
    ∧ w0.Ready ((((Uses.rdU 70).and (Uses.rdU 0)).and (Uses.allV 127)).and (Uses.wrV 127 1)) :=
  ⟨ready_ok (by decide),
  ready_ok (by decide)⟩

/-- An entry of sixteen lanes at 0 and one at 64; p1 is true in four of the lanes, and lanes 0 to 7 hold 128 in v2. -/
def e16 : Entry := ⟨.run, 0, 0, 2, 0xFFFF, 0, false, 0, 0, false, 0⟩
def wBr : State :=
  ({ wMe (fun x => { x with frontier := [e16, ⟨.run, 64, 0, 1, 0xFF0000, 5, false, 0, 0, false, 0⟩], nextAge := 6, pred := [(1, 0xF)] }) with
      cur := ⟨32, 0, 0, 4, 0xFFFF, 0xFF, 2, Attr.none, false⟩ } : State).modSlot 0 (fun x => { x with vreg := (List.range 32).map (fun l => (64 + l, 128)) })

theorem test_meets_BranchesMoveLanes :
    wBr.Quiet
    ∧ Issuing wBr e16
    ∧ wBr.clearAt wBr.cur.npc
    ∧ wBr.Ready (Uses.rdP 1)
    ∧ wBr.clearAt (0 + 4 * (10 : BitVec 42).signExtend 64)
    ∧ (0 + 4 * (10 : BitVec 42).signExtend 64 : Word64) ≠ wBr.cur.npc :=
  ⟨quiet_ok (by decide),
  ⟨by decide, by decide, by decide, by decide, by decide⟩,
  clear_ok (by decide),
  ready_ok (by decide),
  clear_ok (by decide),
  by decide⟩

theorem test_meets_BranchesMoveLanes_2 :
    maskOf ((lanesOf wBr.cur.mask).filter (fun l => wBr.rp 1 l)) = 0xF
    ∧ maskOf ((lanesOf wBr.cur.mask).filter (fun l => wBr.rp 15 l)) = wBr.cur.mask
    ∧ maskOf ((lanesOf wBr.cur.mask).filter (fun l => wBr.rp 15 l ^^ true)) = 0
    ∧ lowestLane wBr.cur.mask = some 0
    ∧ wBr.Ready (Uses.wrV (2 * 31) 2)
    ∧ wBr.Ready (Uses.rdV 2 2) :=
  ⟨by decide,
  by decide,
  by decide,
  by decide,
  ready_ok (by decide),
  ready_ok (by decide)⟩

theorem test_meets_BranchesMoveLanes_3 :
    wBr.clearAt 128
    ∧ wBr.cur.active &&& wBr.cur.mask = wBr.cur.active
    ∧ (∀ l ∈ lanesOf wBr.cur.active, wBr.rv2 2 l &&& ~~~(3 : Word64) = 128) :=
  ⟨clear_ok (by decide),
  by decide,
  by decide⟩

/-- The issuing lanes 0 to 7 of `wBr` under a rejoin mask. -/
def wJ (r : Rejoin) : State := wBr.modMe (fun x => { x with masks := [(2, r)] })

theorem test_meets_ExitAndSlotPass :
    w0.Quiet
    ∧ w0.Ready Uses.none
    ∧ Issuing wBr e16
    ∧ wBr.Quiet
    ∧ wBr.Ready Uses.none
    ∧ wBr.clearAt wBr.cur.npc :=
  ⟨quiet_ok (by decide),
  ready_ok (by decide),
  ⟨by decide, by decide, by decide, by decide, by decide⟩,
  quiet_ok (by decide),
  ready_ok (by decide),
  clear_ok (by decide)⟩

theorem test_meets_ExitAndSlotPass_2 :
    wBr.me.masks = []
    ∧ wBr.mySlot.fbarIn = []
    ∧ wBr.cur.active &&& wBr.cur.mask = wBr.cur.active
    ∧ (∀ x ∈ wBr.others, x.mask &&& wBr.cur.active = 0 ∧ x.mask ≠ 0)
    ∧ wBr.me.pend = []
    ∧ (∃ f ∈ (w0.slotFibres 0).filter (fun f => (w0.fibre f).status != .exited), f ∉ (w0.slot 0).fbarIn) :=
  ⟨by decide,
  by decide,
  by decide,
  by decide,
  by decide,
  by decide⟩

theorem test_meets_ExitAndSlotPass_3 :
    (w0.modSlot 0 (fun x => { x with fbarIn := [32] })).slotFibres 0 = [32]
    ∧ (∀ f ∈ (w0.slotFibres 0).filter (fun f => (w0.fibre f).status != .exited), f ∈ ((w0.modSlot 0 (fun x => { x with fbarIn := [32] })).slot 0).fbarIn)
    ∧ (wBr.me.resident = true ∧ wBr.me.extracted = false ∧ (∀ p ∈ wBr.me.pend, p.arrived = false))
    ∧ (wJ ⟨0xF0F, 0xF00, 0, 8, 3⟩).me.masks = [(2, ⟨0xF0F, 0xF00, 0, 8, 3⟩)]
    ∧ (0xF00 : Mask) &&& (wJ ⟨0xF0F, 0xF00, 0, 8, 3⟩).cur.active = 0
    ∧ (0xF0F : Mask) &&& (wJ ⟨0xF0F, 0xF00, 0, 8, 3⟩).cur.active ≠ 0 :=
  ⟨by decide,
  by decide,
  by decide,
  by decide,
  by decide,
  by decide⟩

theorem test_meets_ExitAndSlotPass_4 :
    (0xF0F : Mask) &&& ~~~(wJ ⟨0xF0F, 0xF00, 0, 8, 3⟩).cur.active = 0xF00
    ∧ (∀ x ∈ (wJ ⟨0xF0F, 0xF00, 0, 8, 3⟩).others ++ [Entry.at_ 4 2 0xFF00 0], x.kind = .run → x.replay = false → x.pc ≠ 8)
    ∧ w0.partsOf 0 ≠ []
    ∧ (w0.modSlot 0 (fun x => { x with fbarIn := [32] })).partsOf 0 = [32]
    ∧ (∃ f ∈ w0.partsOf 0, f ∉ (w0.slot 0).fbarIn) :=
  ⟨by decide,
  by decide,
  by decide,
  by decide,
  by decide⟩

theorem test_meets_RejoinMasks :
    (wJ ⟨0xF00, 0, 0, 0, 0⟩).Quiet
    ∧ (wJ ⟨0xF00, 0, 0, 0, 0⟩).Ready Uses.none
    ∧ (wJ ⟨0xF00, 0, 0, 0, 0⟩).cur.active &&& 0xF00 = 0
    ∧ Issuing (wJ ⟨0xF3, 0, 0, 0, 0⟩) e16
    ∧ (wJ ⟨0xF3, 0, 0, 0, 0⟩).clearAt 4
    ∧ (wJ ⟨0xF3, 0, 0, 0, 0⟩).cur.active &&& 0xF3 ≠ 0 :=
  ⟨quiet_ok (by decide),
  ready_ok (by decide),
  by decide,
  ⟨by decide, by decide, by decide, by decide, by decide⟩,
  clear_ok (by decide),
  by decide⟩

theorem test_meets_RejoinMasks_2 :
    (0xF3 : Mask) &&& (wJ ⟨0xFF3, 0, 0, 0, 0⟩).cur.active ≠ 0xFF3
    ∧ (∀ x ∈ (wJ ⟨0xF0F, 0xF00, 0, 8, 3⟩).others ++ [Entry.at_ 4 2 0xFFF0 0], x.kind = .run → x.replay = false → x.pc ≠ 8)
    ∧ (wJ ⟨0xF0F, 0xF00, 0, 8, 3⟩).cur.active &&& 0xF0F ≠ 0
    ∧ (0xF00 : Mask) &&& ~~~(wJ ⟨0xF0F, 0xF00, 0, 8, 3⟩).cur.active = 0xF0F &&& ~~~(wJ ⟨0xF0F, 0xF00, 0, 8, 3⟩).cur.active
    ∧ (∀ x ∈ (wJ ⟨0xF0F, 0xF00, 0, 8, 3⟩).others ++ [Entry.at_ 4 2 0xFFFF 0], x.kind = .run → x.replay = false → x.pc ≠ 8)
    ∧ ((0xF0F : Mask) ||| 0xF00) &&& (wJ ⟨0xF0F, 0xF00, 0, 8, 3⟩).cur.active ≠ 0 :=
  ⟨by decide,
  by decide,
  by decide,
  by decide,
  by decide,
  by decide⟩

theorem test_meets_RejoinMasks_3 :
    (wJ ⟨0xF3, 0xF0, 0x100, 0x104, 2⟩).cur.pc ≠ 0x100
    ∧ ((wJ ⟨0xFF3, 0, 0, 0, 0⟩).me.resident = true ∧ (wJ ⟨0xFF3, 0, 0, 0, 0⟩).me.extracted = false) :=
  ⟨by decide,
  by decide⟩

/-- A window of six granules of seven granted. -/
def wWin : State := wMe (fun x => { x with size := 6, granted := granules 0 7 })

/-- The fibre of `wWin` beside one that holds the granules 7 to 9. -/
def wFull : State := wWin.modFibre 33 (fun x => { x with resident := true, status := .ready, granted := granules 7 3, size := 3, base := 7 })

theorem test_meets_WindowControl :
    wWin.Quiet
    ∧ wWin.Ready Uses.none
    ∧ (1 : BitVec 6).toNat + wWin.me.size ≤ 64
    ∧ granules 1 wWin.me.size &&& ~~~wWin.me.granted = 0
    ∧ 64 < (59 : BitVec 6).toNat + wWin.me.size
    ∧ granules 2 wWin.me.size &&& ~~~wWin.me.granted ≠ 0 :=
  ⟨quiet_ok (by decide),
  ready_ok (by decide),
  by decide,
  by decide,
  by decide,
  by decide⟩

theorem test_meets_WindowControl_2 :
    wWin.me.size + (10 : BitVec 5).toNat ≤ 16
    ∧ wWin.me.base + wWin.me.size + 10 ≤ 64
    ∧ wWin.myWg.isTask = false
    ∧ (∀ g ∈ (List.range 10).map (fun i => wWin.me.base + wWin.me.size + i), wWin.me.granted.getLsbD g = true ∨ wWin.granuleFree (wWin.slotOf wWin.cur.fib) g = true)
    ∧ (6 : BitVec 5).toNat ≤ wWin.me.size
    ∧ 16 < wWin.me.size + (11 : BitVec 5).toNat :=
  ⟨by decide,
  by decide,
  by decide,
  by decide,
  by decide,
  by decide⟩

theorem test_meets_WindowControl_3 :
    wWin.me.size < (7 : BitVec 5).toNat
    ∧ wFull.me.deadlock = false
    ∧ wFull.myWg.isTask = false
    ∧ (∃ i, i < (10 : BitVec 5).toNat ∧ wFull.me.granted.getLsbD (wFull.me.base + wFull.me.size + i) = false ∧ wFull.granuleFree (wFull.slotOf wFull.cur.fib) (wFull.me.base + wFull.me.size + i) = false)
    ∧ bestEntry Entry.before ((wFull.fibre 32).frontier.filter (fun e => e.kind == .run)) ≠ none :=
  ⟨by decide,
  by decide,
  by decide,
  by decide,
  by decide⟩

theorem test_meets_FloatingPoint :
    w0.Quiet
    ∧ w0.Ready (usesFp true true 1 true 126 124 122 false)
    ∧ w0.Ready (usesFp true false 0 false 127 0 63 true)
    ∧ w0.Ready (usesFp false false 2 false 0 127 0 true)
    ∧ w0.Ready (usesFp true false 3 true 0 127 1 false)
    ∧ w0.Ready ((Uses.rdV 126 2).and (Uses.wrV 127 1)) :=
  ⟨quiet_ok (by decide),
  ready_ok (by decide),
  ready_ok (by decide),
  ready_ok (by decide),
  ready_ok (by decide),
  ready_ok (by decide)⟩

theorem test_meets_RoundingModes :
    (0 : Int) < 1
    ∧ (65535 : Nat) < 65536
    ∧ Fmt.e4m3.decode Fmt.e4m3.maxBits = .fin false 14 5
    ∧ Fmt.f32 ∈ [Fmt.f64, .f32, .f16, .bf16, .e4m3, .e5m2, .e3m2, .e2m3, .e2m1] :=
  ⟨by decide,
  by decide,
  by decide,
  by decide⟩

theorem test_meets_FloatSpecials :
    Fmt.f32 ∈ [Fmt.f64, .f32, .f16, .bf16]
    ∧ (Fmt.f32.decode 0x7FC00000).isNan = true
    ∧ Fmt.f32.decode 0xFF800000 = .inf true
    ∧ Fmt.f32.decode 0x7F800000 = .inf false
    ∧ Fmt.f16.decode 0x8000 = .fin true 0 (-24)
    ∧ Fmt.bf16.decode 0 = .fin false 0 (-133) :=
  ⟨by decide,
  by decide,
  by decide,
  by decide,
  by decide,
  by decide⟩

theorem test_meets_FloatSpecials_2 :
    Fmt.f32.decode 0x3F800000 = .fin false 0x800000 (-23)
    ∧ (Fmt.f32.decode 0xBF800000).neg = true
    ∧ (Fmt.f32.decode 0xBF800000).isZero = false
    ∧ (Fmt.f32.decode 0x3F800000).isNan = false
    ∧ (Fmt.f32.decode 0x7F800001).isSig = true
    ∧ Fmt.f32.decode 0x80000000 = .fin true 0 (-149) :=
  ⟨by decide,
  by decide,
  by decide,
  by decide,
  by decide,
  by decide⟩

theorem test_meets_FloatSpecials_3 :
    (0x800000 : Nat) % 2 ^ (-(-23 : Int)).toNat = 0
    ∧ Fmt.f64.decode 0x4340000000000000 = .fin false (2 ^ 52) 1 :=
  ⟨by decide,
  by decide⟩

theorem test_meets_ConversionAndDot :
    w0.Quiet
    ∧ w0.Ready (((Uses.rdV 126 2).and (Uses.rdB 62 true 2)).and (Uses.wrP 15))
    ∧ w0.Ready (((Uses.rdV 127 1).and (Uses.rdB 0 false 1)).and (Uses.wrP 0))
    ∧ w0.Ready (((Uses.rdV 126 2).and (Uses.rounds true)).and (Uses.wrV 0 2))
    ∧ w0.Ready (((Uses.rdV 127 1).and (Uses.rounds false)).and (Uses.wrV 0 1))
    ∧ w0.Ready ((((Uses.rdV 1 1).and (Uses.rdB 2 false 1)).and (Uses.rdV 3 1)).and (Uses.wrV 3 1)) :=
  ⟨quiet_ok (by decide),
  ready_ok (by decide),
  ready_ok (by decide),
  ready_ok (by decide),
  ready_ok (by decide),
  ready_ok (by decide)⟩

theorem test_meets_ConversionAndDot_2 :
    w0.Ready (((Uses.rdV 1 1).and (Uses.rdB 126 false 2)).and (Uses.wrV 3 1))
    ∧ CvtTy.read (.flt .f32) 0x7FC00000 = .nan false
    ∧ CvtTy.read (.flt .f32) 0xFF800000 = .inf true
    ∧ CvtTy.read (.flt .f32) 0xBF800000 = .fin true 0x800000 (-23)
    ∧ CvtTy.read (.int 32 true) 3 = .fin false 3 0
    ∧ CvtTy.read .e8m0 255 = .nan false :=
  ⟨ready_ok (by decide),
  by decide,
  by decide,
  by decide,
  by decide,
  by decide⟩

theorem test_meets_ConversionAndDot_3 :
    (Fmt.e4m3.w * 4 = 32 ∧ Fmt.e5m2.w * 4 = 32 ∧ Fmt.e2m1.w * 8 = 32)
    ∧ (Fmt.e5m2.decode 0x7C = .inf false ∧ Fmt.e5m2.decode 0xFC = .inf true ∧ Fmt.e5m2.decode 0x80 = .fin true 0 (-16))
    ∧ ((Fmt.e5m2.decode 0x7C).mul (Fmt.e5m2.decode 0x3C)).1 = .inf false :=
  ⟨by decide,
  by decide,
  by decide⟩

theorem test_meets_BlockScales :
    w0.Quiet
    ∧ w0.Ready (((Uses.scales 4 127).and (Uses.rdV 0 1)).and (Uses.wrV 0 1))
    ∧ w0.Ready (Uses.qnt 4 120 127)
    ∧ w0.Ready (Uses.dqnt 0 0 127)
    ∧ w0.Ready ((Uses.rdV 124 4).and (Uses.wrV 124 3))
    ∧ w0.Ready ((Uses.rdV 124 3).and (Uses.wrV 124 4)) :=
  ⟨quiet_ok (by decide),
  ready_ok (by decide),
  ready_ok (by decide),
  ready_ok (by decide),
  ready_ok (by decide),
  ready_ok (by decide)⟩

/-- Lanes 0 and 2 active; lane addresses 256 and 64 in v2, 32 in s2, data in v4 and v5; some bytes in memory. -/
def wM : State :=
  ({ wMe (fun x => { x with ureg := [(2, 32), (4, 0x123456789)] }) with
      cur := ⟨32, 0, 0, 4, allLanes, 0x5, 0, Attr.none, false⟩, mem := wrBytes [] 64 (toBytes 16 0x80918283848586878899AABBCCDDEEFF) } : State).modSlot 0
    (fun x => { x with vreg := [(64, 256), (66, 64), (128, 7), (130, 0xFFFFFFFE), (160, 1), (162, 2)] })
/-- The parts of an access of `n` bytes of those lanes. -/
def okM (n : Nat) : List (Nat × List (Nat × Nat × Word64)) := [(0, [(256, n, 0xF)]), (2, [(64, n, 0xF)])]

theorem test_meets_LoadsLeavePendingWrites :
    wM.NoAcquire
    ∧ wM.meetsWrites (okM 4) = false
    ∧ wM.Passes 0 accRead 4 4 (fun _ => true) (fun l => (wM.rv2 2 l + (0 : BitVec 26).signExtend 64).toNat) (lanesOf wM.cur.active) (okM 4)
    ∧ wM.Passes 3 accRead 4 4 (fun _ => true) (fun l => (wM.rv2 2 l + (0 : BitVec 26).signExtend 64).toNat) (lanesOf wM.cur.active) (okM 4)
    ∧ wM.Ready { (Uses.rdV 2 2).and (Uses.wrV 4 1) with la := 3 }
    ∧ wM.Passes 0 accRead 16 16 (fun _ => true) (fun l => (wM.rv2 2 l + (0 : BitVec 26).signExtend 64).toNat) (lanesOf wM.cur.active) (okM 16) :=
  ⟨by rfl,
  by decide,
  passes_ok (by decide) (by decide) (by decide),
  passes_ok (by decide) (by decide) (by decide),
  ready_ok (by decide),
  passes_ok (by decide) (by decide) (by decide)⟩

theorem test_meets_LoadsLeavePendingWrites_2 :
    wM.Ready { (Uses.rdV 2 2).and (Uses.wrV 124 4) with la := 0 }
    ∧ wM.Passes 0 accRead 12 4 (fun _ => true) (fun l => (wM.rv2 2 l + (0 : BitVec 26).signExtend 64).toNat) (lanesOf wM.cur.active) (okM 12)
    ∧ wM.Ready { (Uses.rdV 2 2).and (Uses.wrV 125 3) with la := 15 }
    ∧ (36 : Nat) = (wM.usrc 2 + (4 : BitVec 26).signExtend 64).toNat
    ∧ wM.Passes 0 accRead 4 4 (fun _ => true) (fun _ => 36) [0] [(0, [(36, 4, 0xF)])]
    ∧ wM.Ready { (Uses.rdU 2).and (Uses.wrU 63) with la := 1 } :=
  ⟨ready_ok (by decide),
  passes_ok (by decide) (by decide) (by decide),
  ready_ok (by decide),
  by decide,
  passes_ok (by decide) (by decide) (by decide),
  ready_ok (by decide)⟩

theorem test_meets_LoadsLeavePendingWrites_3 :
    wM.GoodSector 64 16
    ∧ wM.Unwatched wM.me.wg :=
  ⟨⟨by decide, by decide, by decide⟩,
  by unfold State.Unwatched; decide⟩

/-- A write buffer entry and a reduction of core 0. -/
def wBuf (fut spad : Bool) : State := wM.modCore 0 (fun c => { c with wbuf := [⟨5, 32, 1, 66, [1, 2, 3, 4], 66, fut, spad, true, 691047668⟩], reds := [⟨6, 32, 1, 9, 72, 72, 0, true, 5, true, 3825814976⟩], nextId := 7 })

theorem test_meets_StoresChangeMemoryWhenPerformed :
    wM.markedTask = false
    ∧ wM.Ready ((Uses.rdV 2 2).and (Uses.rdV 4 1))
    ∧ wM.Passes 1 accWrite 4 4 (fun _ => true) (wM.ea 2 0) (lanesOf wM.doers) (okM 4)
    ∧ wM.CanRelease 2
    ∧ (wM.didRelease wM.cur.fib).Passes 1 accWrite 4 4 (fun _ => true) ((wM.didRelease wM.cur.fib).ea 2 0) (lanesOf (wM.didRelease wM.cur.fib).doers) (okM 4)
    ∧ (toBytes 4 7).length = 4 :=
  ⟨by decide,
  ready_ok (by decide),
  passes_ok (by decide) (by decide) (by decide),
  ⟨by decide, by decide, by decide⟩,
  passes_ok (by decide) (by decide) (by decide),
  by decide⟩

theorem test_meets_StoresChangeMemoryWhenPerformed_2 :
    ((wBuf true false).core 0).wbuf.find? (fun x => x.id == 5) = some ⟨5, 32, 1, 66, [1, 2, 3, 4], 66, true, false, true, 691047668⟩
    ∧ packetOk [1, 2, 3, 4] 691047668 = true
    ∧ packetOk [1, 2, 3, 5] 691047668 = false
    ∧ (∀ x ∈ ((wBuf true false).core 0).wbuf, x.id < 5 → overlaps 66 4 x.key x.data.length = false)
    ∧ (∀ x ∈ ((wBuf true false).core 0).reds, x.id < 5 → overlaps 66 4 x.key (if x.wide then 8 else 4) = false)
    ∧ (wBuf true false).GoodSector 66 4 :=
  ⟨by decide,
  by decide +kernel,
  by decide +kernel,
  by decide,
  by decide,
  ⟨by decide, by decide, by decide⟩⟩

theorem test_meets_StoresChangeMemoryWhenPerformed_3 :
    (wBuf true false).Unwatched 1
    ∧ isDevice 66 = true :=
  ⟨by unfold State.Unwatched; decide,
  by decide⟩

/-- Lanes 0 and 2 active; v6 holds an address of the workgroup's own scratchpad in lane 0 and one of core 1's in lane 2, s4 another; the lines are present. -/
def wSp : State :=
  (wM.setWg 2 { loadedWg with core := 1 }).modSlot 0 (fun x => { x with vreg := [(64, 256), (128, 7), (130, 0xFFFFFFFE), (192, 0x84), (194, 0xA00088)] })
/-- The workgroup that each lane addresses. -/
def tgSp (l : Nat) : Nat := if l = 2 then 2 else 1
def keySp (l : Nat) : Nat := if l = 2 then spadKey 1 0x88 else spadKey 0 0x84
/-- A buffer entry of a remote scratchpad store. -/
def wSb : State := wM.modCore 0 (fun c => { c with wbuf := [⟨5, 32, 1, spadKey 1 0x88, [1, 2, 3, 4], 0xA00088, false, true, false, 691047668⟩] })

theorem test_meets_ScratchpadAccess :
    (∀ l ∈ lanesOf wSp.cur.active, (wSp.rv 6 l).toNat % 4 = 0 ∧ (wSp.rv 6 l).toNat < 2 ^ 24 ∧ wSp.spadTarget 1 (wSp.rv 6 l).toNat = some (tgSp l) ∧ (wSp.rv 6 l).toNat % 2 ^ 21 + 4 ≤ (wSp.wg (tgSp l)).ssize ∧ (wSp.core (wSp.wg (tgSp l)).core).present ((wSp.wg (tgSp l)).sbase + (wSp.rv 6 l).toNat % 2 ^ 21) = true)
    ∧ wSp.me.wg = 1
    ∧ lanesOf wSp.doers = [0, 2]
    ∧ wSp.Ready { (if false then Uses.rdU 6 else Uses.rdV 6 1).and (Uses.wrV 4 1) with la := 2 }
    ∧ wSp.NoAcquire
    ∧ wSp.places wSp.me.core 2 = true :=
  ⟨by decide,
  by decide,
  by decide,
  ready_ok (by decide),
  by rfl,
  by decide⟩

theorem test_meets_ScratchpadAccess_2 :
    (∀ l ∈ lanesOf wSp.cur.active, (wSp.core wSp.me.core).unacked (keySp l) 4 = false)
    ∧ wSp.Ready ((if true then Uses.rdU 2 else Uses.rdV 2 1).and (Uses.rdV 4 1))
    ∧ (0xA00088 : Nat) / 2 ^ 23 % 2 = 1
    ∧ wSp.spadTarget 1 0xA00088 = some 2
    ∧ (0x84 : Nat) / 2 ^ 23 % 2 = 0
    ∧ ((wSb).core 0).wbuf.find? (fun x => x.id == 5) = some ⟨5, 32, 1, spadKey 1 0x88, [1, 2, 3, 4], 0xA00088, false, true, false, 691047668⟩ :=
  ⟨by decide,
  ready_ok (by decide),
  by decide,
  by decide,
  by decide,
  by decide⟩

theorem test_meets_ScratchpadAccess_3 :
    (∀ x ∈ (wSb.core 0).wbuf, x.id < 5 → overlaps (spadKey 1 0x88) 4 x.key x.data.length = false)
    ∧ (∀ x ∈ (wSb.core 0).reds, x.id < 5 → overlaps (spadKey 1 0x88) 4 x.key (if x.wide then 8 else 4) = false) :=
  ⟨by decide,
  by decide⟩

/-- A pending write of two words of lane 2, in the shadow or out of it. -/
def wPd (sh : Nat) : State :=
  wMe (fun x => { x with pend := [⟨3, 9, 2, [⟨.v 8, 2, 77⟩, ⟨.u 5, 0, 0x1234567890⟩, ⟨.p 14, 2, 1⟩], sh, false, none, none, true, false, false, 0x4, 1, 64, 0, 4⟩] })
def xPd (sh : Nat) : Pend := ⟨3, 9, 2, [⟨.v 8, 2, 77⟩, ⟨.u 5, 0, 0x1234567890⟩, ⟨.p 14, 2, 1⟩], sh, false, none, none, true, false, false, 0x4, 1, 64, 0, 4⟩

theorem test_meets_LoadArrival :
    ((wPd 1).fibre 32).pend.find? (fun p => p.id == 3 && !p.arrived && p.fut.isNone && p.eng.isNone) = some (xPd 1)
    ∧ ((wPd 0).fibre 32).pend.find? (fun p => p.id == 3 && !p.arrived && p.fut.isNone && p.eng.isNone) = some (xPd 0)
    ∧ (xPd 0).bad = false
    ∧ (∀ p ∈ ((wPd 0).fibre 32).pend, p.id = 3 → p = xPd 0)
    ∧ (∀ p ∈ ((wPd 0).fibre 32).pend, p ≠ xPd 0 → p.due = false)
    ∧ ((xPd 0).vals.map (fun v => (v.reg, v.lane))).Nodup :=
  ⟨by decide,
  by decide,
  by decide,
  by decide,
  by decide,
  by decide⟩

theorem test_meets_LoadArrival_2 :
    (∀ v ∈ (xPd 0).vals, v.lane < 32)
    ∧ (∀ v ∈ (xPd 0).vals, (∃ n, v.reg = .u n) → v.lane = 0) :=
  ⟨by decide,
  by intro v hv; simp only [xPd, List.mem_cons, List.not_mem_nil, or_false] at hv; rcases hv with rfl | rfl | rfl <;> simp⟩

theorem test_meets_AtomicsAtIssue :
    wM.markedTask = false
    ∧ ((∃ w x, Instr.atom 4 2 3 1 0 true 2 0 = .atom 4 2 3 w 0 x 2 0 ∧ 9 = 8 * x.toNat + BitVec.toNat w ∧ 4 = 4))
    ∧ ((∃ w x, Instr.atom64 4 2 3 3 3 false 2 0 = .atom64 4 2 3 w 3 x 2 0 ∧ 3 = 8 * x.toNat + BitVec.toNat w ∧ 8 = 8))
    ∧ ((∃ m : Bool, Instr.atomp 4 2 3 true 1 0 0 = .atomp 4 2 3 m 1 0 0 ∧ 13 = 12 + m.toNat ∧ 8 = 8))
    ∧ wM.NoAcquire
    ∧ wM.Ready { ((Uses.rdV 2 2).and (Uses.rdV 4 (if 9 = 9 then 2 * (4 / 4) else 4 / 4))).and (Uses.wrV 4 (4 / 4)) with la := 3 } :=
  ⟨by decide,
  ⟨1, true, rfl, rfl, rfl⟩,
  ⟨3, false, rfl, rfl, rfl⟩,
  ⟨true, rfl, rfl, rfl⟩,
  by rfl,
  ready_ok (by decide)⟩

theorem test_meets_AtomicsAtIssue_2 :
    wM.Ready { ((Uses.rdV 2 2).and (Uses.rdV 4 2)).and (Uses.wrV 4 2) with la := 3 }
    ∧ wM.CanRelease (atomScope 2)
    ∧ wM.Passes 2 accRmw 4 4 (atomSup 9) (wM.ea 2 0) (lanesOf wM.doers) (okM 4)
    ∧ (wM.didRelease wM.cur.fib).Passes 2 accRmw 8 8 (atomSup 3) ((wM.didRelease wM.cur.fib).ea 2 0) (lanesOf (wM.didRelease wM.cur.fib).doers) (okM 8)
    ∧ (wM.didRelease wM.cur.fib).meetsWrites (okM 8) = false
    ∧ wM.Ready ((Uses.rdV 2 2).and (Uses.rdV 4 (8 / 4))) :=
  ⟨ready_ok (by decide),
  ⟨by decide, by decide, by decide⟩,
  passes_ok (by decide) (by decide) (by decide),
  passes_ok (by decide) (by decide) (by decide),
  by decide,
  ready_ok (by decide)⟩

theorem test_meets_AtomicsAtIssue_3 :
    wM.Passes 2 accRmw 8 8 (atomSup 12) (wM.ea 2 0) (lanesOf wM.doers) (okM 8)
    ∧ wM.me.count .coll < 63
    ∧ okM 8 ≠ [] :=
  ⟨passes_ok (by decide) (by decide) (by decide),
  by decide,
  by decide⟩

theorem test_meets_AtomicAtHome :
    (4 = 4 ∨ 4 = 8)
    ∧ (wM.core wM.me.core).lost = false
    ∧ wM.GoodSector 64 4
    ∧ wM.Unwatched wM.me.wg
    ∧ ((wBuf true false).core 0).reds.find? (fun x => x.id == 6) = some ⟨6, 32, 1, 9, 72, 72, 0, true, 5, true, 3825814976⟩
    ∧ packetOk (toBytes 8 (5 : Word64).toNat) 3825814976 = true :=
  ⟨by decide,
  by decide,
  ⟨by decide, by decide, by decide⟩,
  by unfold State.Unwatched; decide,
  by decide,
  by decide +kernel⟩

theorem test_meets_AtomicAtHome_2 :
    (∀ x ∈ ((wBuf true false).core 0).wbuf, x.id < 6 → overlaps 72 8 x.key x.data.length = false)
    ∧ (∀ x ∈ ((wBuf true false).core 0).reds, x.id < 6 → overlaps 72 8 x.key (if x.wide then 8 else 4) = false)
    ∧ (wBuf true false).GoodSector 72 8
    ∧ (wBuf true false).Unwatched 1
    ∧ 0 < 32
    ∧ 5 < 2 ^ 32 :=
  ⟨by decide,
  by decide,
  ⟨by decide, by decide, by decide⟩,
  by unfold State.Unwatched; decide,
  by decide,
  by decide⟩

/-- The granule at 64 is set, the one at 256 is not. -/
def wF : State := wM.modDev (fun d => { d with fut := [(8, true)] })
/-- The sector of 256 is poisoned. -/
def wFx : State := wF.modDev (fun d => { d with poison := [(4, true)] })
/-- Lane 2 of the fibre waits for granule 32, and an STFUT of it is in the buffer. -/
def wFh : State := (State.ldfutLane 3 9 2 4 (fun _ => 256) wF (2, [(256, 8, 0xF)])).modCore 0 (fun c => { c with wbuf := [⟨5, 32, 1, 256, [1, 2, 3, 4, 5, 6, 7, 8], 256, true, false, true, 1183391617⟩] })

theorem test_meets_FuturesHoldAndAnswer :
    wFx.sectorBad (sectorOf 256) = true
    ∧ wF.sectorBad (sectorOf 256) = false
    ∧ (∀ x ∈ (wF.modDev (fun d => { d with defer := List.replicate 256 ⟨33, 32, 9⟩ })).dev.defer, x.granule ≠ 32)
    ∧ (wFh.core 0).wbuf.find? (fun x => x.id == 5) = some ⟨5, 32, 1, 256, [1, 2, 3, 4, 5, 6, 7, 8], 256, true, false, true, 1183391617⟩
    ∧ (∀ x ∈ (wFh.core 0).wbuf, x.id < 5 → overlaps 256 8 x.key x.data.length = false)
    ∧ (∀ x ∈ (wFh.core 0).reds, x.id < 5 → overlaps 256 8 x.key (if x.wide then 8 else 4) = false) :=
  ⟨by decide,
  by decide,
  by intro x hx; rw [(List.mem_replicate.mp hx).2]; decide,
  by decide,
  by decide,
  by decide⟩

theorem test_meets_FuturesHoldAndAnswer_2 :
    packetOk [1, 2, 3, 4, 5, 6, 7, 8] 1183391617 = true
    ∧ wFh.holds 1 1 256 256 = none
    ∧ wFh.GoodSector 256 8
    ∧ wFh.Unwatched 1
    ∧ (∃ x ∈ wFh.dev.defer, x.granule = 32)
    ∧ (∃ p ∈ (wFh.fibre 32).pend, p.fut = some 32 ∧ p.vals = heldVals 0 4 2 2) :=
  ⟨by decide +kernel,
  by decide,
  ⟨by decide, by decide, by decide⟩,
  by unfold State.Unwatched; decide,
  ⟨⟨32, 32, 9⟩, by decide +kernel, rfl⟩,
  by decide +kernel⟩

theorem test_meets_FuturesHoldAndAnswer_3 :
    wF.NoAcquire
    ∧ wF.Ready { ((Uses.rdV 2 2).and (Uses.wrV 4 2)).and (Uses.wrP 14) with la := 3 }
    ∧ wF.Passes 2 accRead 8 8 futSup (wF.ea 2 0) (lanesOf wF.cur.active) (okM 8)
    ∧ wF.meetsWrites (okM 8) = false
    ∧ wF.markedTask = false
    ∧ wF.CanRelease 2 :=
  ⟨by rfl,
  ready_ok (by decide),
  passes_ok (by decide) (by decide) (by decide),
  by decide,
  by decide,
  ⟨by decide, by decide, by decide⟩⟩

theorem test_meets_FuturesHoldAndAnswer_4 :
    wF.Ready ((Uses.rdV 2 2).and (Uses.rdV 4 2))
    ∧ (wF.didRelease wF.cur.fib).Passes 2 accWrite 8 8 futSup ((wF.didRelease wF.cur.fib).ea 2 0) (lanesOf (wF.didRelease wF.cur.fib).doers) (okM 8)
    ∧ Sparse.get false (64 / 8) wF.dev.fut = true
    ∧ Sparse.get false (256 / 8) wF.dev.fut = false
    ∧ wF.defersAt (sliceOf 256) < 256
    ∧ 256 ≤ (wF.modDev (fun d => { d with defer := List.replicate 256 ⟨33, 32, 9⟩ })).defersAt (sliceOf 256) :=
  ⟨ready_ok (by decide),
  passes_ok (by decide) (by decide) (by decide),
  by decide,
  by decide,
  by decide,
  by set_option maxRecDepth 8000 in decide⟩

/-- Lanes 0 and 2 active, queue 3 with two elements or full. -/
def wQ (l : List Word) : State := wM.modSlot 0 (fun x => { x with queues := [(3, l)] })

theorem test_meets_ChannelQueues :
    (wQ [1]).Quiet
    ∧ (wQ [1]).Ready (Uses.rdV 4 1)
    ∧ 64 < (wQ (List.replicate 63 1)).mySlot.qused 3 + ((lanesOf (wQ []).cur.active).map ((wQ []).rv 4)).length
    ∧ (wQ (List.replicate 62 1)).mySlot.qused 3 + ((lanesOf (wQ []).cur.active).map ((wQ []).rv 4)).length ≤ 64
    ∧ (wQ [1]).me.pend = []
    ∧ (wQ [1]).mySlot.pushes = [] :=
  ⟨quiet_ok (by decide),
  ready_ok (by decide),
  by decide,
  by decide,
  by decide,
  by decide⟩

theorem test_meets_ChannelQueues_2 :
    (wQ [1]).Ready (Uses.wrV 4 1)
    ∧ ((wQ [1]).mySlot.qget 3).length < (lanesOf (wQ [1]).cur.active).length
    ∧ (lanesOf (wQ [1, 2]).cur.active).length ≤ ((wQ [1, 2]).mySlot.qget 3).length
    ∧ (wQ [1]).Ready (Uses.wrU 5) :=
  ⟨ready_ok (by decide),
  by decide,
  by decide,
  ready_ok (by decide)⟩

/-- `wM` with a store of its fibre in the buffer, a load on its way and copies outstanding. -/
def wO : State := (wBuf false false).modMe (fun x => { x with pend := [xPd 1], outst := [⟨.copy, 1, false⟩, ⟨.copy, 2, false⟩] })
/-- An operation of the engine that read a bad word. -/
def wBk : State := wM.modCore 0 (fun c => { c with eng := [⟨9, 32, 1, .tzero, [], [], [], [], [], [], [], [], none, none, false, 0, 0, 0, false, true, false⟩] })

theorem test_meets_ReleaseAndAcquireOrder :
    wM.Ready Uses.none
    ∧ (2 : BitVec 2).getLsbD 1 = true
    ∧ wM.CanRelease 4
    ∧ (wBuf false false).released 32 2 = false
    ∧ (1 : BitVec 2).getLsbD 0 = true
    ∧ wO.me.loadsBack = false :=
  ⟨ready_ok (by decide),
  by decide,
  ⟨by decide, by decide, by decide⟩,
  by decide,
  by decide,
  by decide⟩

theorem test_meets_ReleaseAndAcquireOrder_2 :
    wO.Ready Uses.none
    ∧ wM.me.loadsBack = true
    ∧ wM.me.acqs = []
    ∧ ((wM.modCore 0 (fun c => { c with posted := [(32, true)] })).core 0).posted.any (fun e => e.1 == 32) = true
    ∧ (∃ e ∈ ((wBk).core wBk.me.core).eng, e.fib = wBk.cur.fib ∧ e.broken = true)
    ∧ wO.me.count .copy ≤ (2 : BitVec 6).toNat :=
  ⟨ready_ok (by decide),
  by decide,
  by decide,
  by decide,
  ⟨_, List.mem_cons_self .., rfl, rfl⟩,
  by decide⟩

theorem test_meets_ReleaseAndAcquireOrder_3 :
    (1 : BitVec 6).toNat < wO.me.count .copy
    ∧ wM.Ready (Uses.rdU 2)
    ∧ wM.checkPart wM.me.core wM.myPasid accRead (fun _ => true) (wM.usrc 2).toNat = .ok [(32, 0, 0xF)]
    ∧ isDevice 32 = true
    ∧ wM.checkPart wM.me.core wM.myPasid accRead (fun leaf => fieldB leaf 5 4 == 0 || fieldB leaf 5 4 == 3) (wM.usrc 2).toNat = .ok [(32, 0, 0xF)]
    ∧ l1Page 0xF = true :=
  ⟨by decide,
  ready_ok (by decide),
  by decide,
  by decide,
  by decide,
  by decide⟩

theorem test_meets_ReleaseAndAcquireOrder_4 :
    wM.places wM.me.core 1 = true
    ∧ (∀ x ∈ ((wM.modDev (fun d => { d with lastWriter := [(0, 2)] })).core 1).wbuf, ((wM.modDev (fun d => { d with lastWriter := [(0, 2)] })).core 1).rel ≤ x.id)
    ∧ wM.sectorBad (32 / 512 * 8 + 7) = false :=
  ⟨by decide,
  by decide,
  by decide⟩

/-- Heap descriptor at 64 through s2, s3: next 0x1001, limit 0x1100; gather block in s4, s5 with elements of v6 at 32. -/
def wH : State :=
  (({ wM with mem := wrBytes [] 64 (toBytes 8 0x1001 ++ toBytes 8 0x1100) } : State).modMe (fun x => { x with ureg := [(2, 64), (3, 0x4 * 2 ^ 32 + 0x30), (4, 32), (5, 6 + 128)] })).modSlot 0
    (fun x => { x with vreg := x.vreg ++ [(192, 3), (194, 10), (224, 1), (226, 2)] })
/-- The same in a task of 4,096 staging bytes. -/
def wT : State := wM.modWg 1 (fun x => { x with isTask := true, stageSize := 4096 })
/-- Element addresses of the gather. -/
def vaG (m : Nat) : Nat := (fieldB (wH.ru 4) 56 0 + (wH.rv (6 + m / 32) (m % 32)).toNat * (4 * 1)) % 2 ^ 64
def okG : List (Nat × List (Nat × Nat × Word64)) := [(0, [(44, 4, 0xF)]), (2, [(72, 4, 0xF)]), (32, [(36, 4, 0xF)]), (34, [(40, 4, 0xF)])]

theorem test_meets_HeapGatherStage :
    wH.Ready { ((Uses.rdU 2).and (Uses.rdU 3)).and (Uses.wrU 9) with la := 2 }
    ∧ wH.NoAcquire
    ∧ fieldB (wH.ru 2) 63 57 = 0
    ∧ fieldB (wH.ru 3) 63 36 = 0
    ∧ fieldB (wH.ru 3) 35 32 ≤ 12
    ∧ wH.places wH.me.core 1 = true :=
  ⟨ready_ok (by decide),
  by rfl,
  by decide,
  by decide,
  by decide,
  by decide⟩

theorem test_meets_HeapGatherStage_2 :
    4 ≤ fieldB (wH.ru 3) 35 32
    ∧ wH.doers ≠ 0
    ∧ wH.Passes 2 accRmw 16 16 heapSup (fun _ => fieldB (wH.ru 2) 56 0) [0] [(0, [(64, 16, 0xF)])]
    ∧ wH.meetsWrites [(0, [(64, 16, 0xF)])] = false
    ∧ wH.GoodSector 64 16
    ∧ (wH.core wH.me.core).lost = false :=
  ⟨by decide,
  by decide,
  passes_ok (by decide) (by decide) (by decide),
  by decide,
  ⟨by decide, by decide, by decide⟩,
  by decide⟩

theorem test_meets_HeapGatherStage_3 :
    wH.Unwatched wH.me.wg
    ∧ ((0x1001 ≤ 0x1010 ∧ 0x1010 + 0x30 ≤ 0x1100))
    ∧ (¬(0x1001 ≤ 0x1010 ∧ 0x1010 + 0xF1 ≤ 0x1100))
    ∧ wH.Ready { (Uses.rdU 2).and (Uses.wrU 9) with la := 2 }
    ∧ ((wH.usrc 2).setWidth 32).toNat < 2 ^ 24
    ∧ wH.Ready { (Uses.rdU 4).and (Uses.rdU 5) with win := [(10, 1)], la := 2 } :=
  ⟨by unfold State.Unwatched; decide,
  by decide,
  by decide,
  ready_ok (by decide),
  by decide,
  ready_ok (by decide)⟩

theorem test_meets_HeapGatherStage_4 :
    wH.Ready { (Uses.rdV 6 2).and (Uses.wrV 10 2) with la := 2 }
    ∧ fieldB (wH.ru 5) 63 11 = 0
    ∧ (¬(6 < 10 + 2 * 1 ∧ 10 < 6 + 2))
    ∧ wH.me.count .gath < 63
    ∧ wH.access wH.me.core wH.myPasid accRead 4 4 (fun _ => true) vaG ((List.range 2).flatMap (fun j => (lanesOf wH.cur.active).map (fun ln => 32 * j + ln))) = ⟨okG, [], []⟩
    ∧ wH.holdAny 0 vaG okG = none :=
  ⟨ready_ok (by decide),
  by decide,
  by decide,
  by decide,
  by decide,
  by decide⟩

theorem test_meets_HeapGatherStage_5 :
    wH.places wH.me.core (gathPlaces okG) = true
    ∧ okG ≠ []
    ∧ wH.meetsWrites okG = false
    ∧ ((∀ j, j < 2 → wH.GoodSector (if j = 0 then 72 else 40) (4 * 1) ∧ okG.find? (fun o => o.1 == 32 * j + 2) = some (32 * j + 2, [((if j = 0 then 72 else 40), 4 * 1, 0xF)])))
    ∧ wT.inTask = true
    ∧ wT.Ready ((Uses.rdV 2 2).and (Uses.rdV 4 1)) :=
  ⟨by decide,
  by decide,
  by decide,
  by intro j hj; rcases (by omega : j = 0 ∨ j = 1) with rfl | rfl <;> exact ⟨⟨by decide, by decide, by decide⟩, by decide⟩,
  by decide,
  ready_ok (by decide)⟩

theorem test_meets_HeapGatherStage_6 :
    (∀ ln ∈ lanesOf wT.doers, wT.ea 2 0 ln % 4 = 0)
    ∧ wT.myWg.stagedUsed + (lanesOf wT.doers).length * 16 ≤ wT.myWg.stageSize
    ∧ (wT.modWg 1 (fun x => { x with stagedUsed := 4080 })).myWg.stageSize < 4080 + (lanesOf wT.doers).length * 16 :=
  ⟨by decide,
  by decide,
  by decide⟩

/-- Counter 3 is granted to context 1; s2 adds at device scope, s3 is the operand. -/
def wSg : State := (wM.modMe (fun x => { x with ureg := [(2, 3), (3, 5)] })).modDev (fun d => { d with ctrGrant := [(3, 1)], counters := [(3, 10)] })

theorem test_meets_SignalsUpdateCounters :
    wSg.Ready ((Uses.rdU 2).and (Uses.rdU 3))
    ∧ fieldB (wSg.ru 2) 63 15 = 0
    ∧ fieldB (wSg.ru 2) 13 12 < 2
    ∧ wSg.doers ≠ 0
    ∧ wSg.ctrOk wSg.myPasid 3 = true
    ∧ ((wSg.modWg 1 (fun x => { x with launch := some 4 })).modLaunch 4 (fun l => { l with wasEarly := true })).myWg.launch = some 4 :=
  ⟨ready_ok (by decide),
  by decide,
  by decide,
  by decide,
  by decide,
  by decide⟩

theorem test_meets_SignalsUpdateCounters_2 :
    (((wSg.modWg 1 (fun x => { x with launch := some 4 })).modLaunch 4 (fun l => { l with wasEarly := true })).launch 4).wasEarly = true
    ∧ (wSg.launchOf wSg.me.wg).wasEarly = false
    ∧ wSg.CanRelease 2
    ∧ wSg.markedTask = false
    ∧ ((wSg.didRelease 32).launchOf 1).wasEarly = false
    ∧ (wSg.modWg 1 (fun x => { x with isTask := true })).inTask = true :=
  ⟨by decide,
  by decide,
  ⟨by decide, by decide, by decide⟩,
  by decide,
  by decide,
  by decide⟩

theorem test_meets_SignalsUpdateCounters_3 :
    (wSg.counter 3).toNat + (5 : Word64).toNat < 2 ^ 64
    ∧ 2 ^ 64 ≤ (wSg.counter 3).toNat + (BitVec.allOnes 64 : Word64).toNat
    ∧ wSg.counter 3 ≤ 10
    ∧ (9 : Word64) < wSg.counter 3 :=
  ⟨by decide,
  by decide,
  by decide,
  by decide⟩

/-- A parameter block in s2, s3. -/
def wB2 (a x : Nat) : State := wM.modMe (fun f => { f with ureg := [(2, BitVec.ofNat 64 a), (3, BitVec.ofNat 64 x)] })

theorem test_meets_TileIssue :
    (wB2 64 (3 + 16 * 2 ^ 32)).me.count .mat < 63
    ∧ (wB2 64 (3 + 16 * 2 ^ 32)).Ready (Uses.block 2 2)
    ∧ bits 64 63 57 = 0
    ∧ bits (3 + 16 * 2 ^ 32) 5 5 = 0
    ∧ bits (3 + 16 * 2 ^ 32) 31 26 = 0
    ∧ (bits (3 + 16 * 2 ^ 32) 15 6 + 1) * ((bits (3 + 16 * 2 ^ 32) 25 16 + 1) * 16) ≤ 16384 :=
  ⟨by decide,
  ready_ok (by decide),
  by decide,
  by decide,
  by decide,
  by decide⟩

theorem test_meets_TileIssue_2 :
    bits (3 + 16 * 2 ^ 32) 57 32 % 16 = 0
    ∧ (wB2 64 (3 + 16 * 2 ^ 32)).tileOf (bits (3 + 16 * 2 ^ 32) 4 0) = some 3
    ∧ (wB2 64 3).inTask = false
    ∧ (wB2 64 3).doers ≠ 0
    ∧ bits (2 + 127 * 2 ^ 21) 8 6 < 5
    ∧ bits (2 + 127 * 2 ^ 21) 13 13 = 0 :=
  ⟨by decide,
  by decide,
  by decide,
  by decide,
  by decide,
  by decide⟩

theorem test_meets_TileIssue_3 :
    (wB2 64 (2 + 127 * 2 ^ 21)).accOf (bits (2 + 127 * 2 ^ 21) 4 0) = some 2
    ∧ bits (2 + 127 * 2 ^ 21) 20 14 + bits (2 + 127 * 2 ^ 21) 27 21 + 1 ≤ 128
    ∧ bits (2 + 127 * 2 ^ 21) 63 42 % mtSize (bits (2 + 127 * 2 ^ 21) 8 6) = 0
    ∧ bits (2 + 127 * 2 ^ 21) 12 9 = 0
    ∧ (wB2 64 3).Ready Uses.none
    ∧ (31 : BitVec 5).toNat < (wB2 64 3).myWg.ntile :=
  ⟨by decide,
  by decide,
  by decide,
  by decide,
  ready_ok (by decide),
  by decide⟩

theorem test_meets_TileIssue_4 :
    (23 : BitVec 5).toNat < (wB2 64 3).myWg.nacc
    ∧ (wB2 64 3).myWg.nacc ≤ (24 : BitVec 5).toNat
    ∧ ((wB2 64 3).modWg 1 (fun w => { w with ntile := 31 })).myWg.ntile ≤ (31 : BitVec 5).toNat :=
  ⟨by decide,
  by decide,
  by decide⟩

/-- Products: bf16, e4m3 with scales in v8 and v12, a sparse one, an illegal one; and an AQ block. -/
def xBf : Nat := 1 * 2 ^ 5 + 2 * 2 ^ 10
def xMx : Nat := xBf + 2 * 2 ^ 15 + 2 * 2 ^ 19 + 8 * 2 ^ 24 + 12 * 2 ^ 31
def xSp : Nat := xMx + 2 ^ 38 + 20 * 2 ^ 39
def xAq : Nat := 3 + 5 * 2 ^ 5 + 16 * 2 ^ 15

theorem test_meets_ProductIssue :
    (wB2 xBf 0).Ready (Uses.block 2 1)
    ∧ mIllegal (xBf + 2 ^ 19) = true
    ∧ (wB2 xBf 0).myWg.cgSize ≠ 4
    ∧ mIllegal (xBf + 22 * 2 ^ 10) = false
    ∧ (wB2 (xBf + 22 * 2 ^ 10) 0).mOutside (xBf + 22 * 2 ^ 10) 1 = true
    ∧ mIllegal xSp = false :=
  ⟨ready_ok (by decide),
  by decide,
  by decide,
  by decide,
  by decide,
  by decide⟩

theorem test_meets_ProductIssue_2 :
    (wB2 xSp 0).me.count .mat < 63
    ∧ (wB2 xSp 0).Ready ((List.range 4).foldl (fun u g => (u.and (Uses.allV (8 + g))).and (Uses.allV (12 + g))) (Uses.block 20 4))
    ∧ (wB2 xSp 0).mOutside xSp 1 = false
    ∧ ((wB2 xSp 0).modWg 1 (fun w => { w with cgSize := 4 })).myWg.cgSize = 4
    ∧ ((wB2 xSp 0).modWg 1 (fun w => { w with cgSize := 4 })).mOutside xSp 4 = false
    ∧ bits xAq 12 10 < 5 :=
  ⟨by decide,
  ready_ok (by decide),
  by decide,
  by decide,
  by decide,
  by decide⟩

theorem test_meets_ProductIssue_3 :
    bits xAq 63 23 = 0
    ∧ bits xAq 22 22 = 0
    ∧ (wB2 xAq 0).accOf (bits xAq 4 0) = some 3
    ∧ (wB2 xAq 0).tileOf (bits xAq 9 5) = some 5
    ∧ bits xAq 21 15 + 4 ≤ 8 * (wB2 xAq 0).me.size
    ∧ (wB2 xAq 0).Ready { (List.range 4).foldl (fun u g => u.and (Uses.allV (16 + g))) Uses.none with win := [], wr := Uses.grp 16 4, la := 2 } :=
  ⟨by decide,
  by decide,
  by decide,
  by decide,
  by decide,
  ready_ok (by decide)⟩

/-- One operation in the engines of core 0. -/
def oEng (k : EngK) (blk reads writes due : List Nat) : EngOp := ⟨4, 32, 1, k, blk, [], [], [], reads, writes, due, [], none, none, false, 0, 1, 0, false, false, false⟩
def wE (o : EngOp) : State := wM.modCore 0 (fun c => { c with eng := [o], nextId := 5 })

def oSt : EngOp := oEng .ast [64, 3 + 16 * 2 ^ 32] [] [35] [0]
def rSt : Xfer × State := (wE oSt).xferCheck 0 1 32 4 1 ((oSt.pieces.zipIdx.filter (fun x => oSt.due.contains (secNo (oSt.pieces.headD ⟨0, 0, 16⟩).len x.2))).map (fun x => ⟨x.2, x.1.va % 2 ^ 64, x.1.len⟩))
theorem pieces_oSt : oSt.pieces = oSt.rows := List.mergeSort_of_pairwise (by decide)

/-- A cluster group of four on cores 0 to 3, each with its MMAJ. -/
def oJ (k : Nat) : EngOp := { oEng .mmaj [xBf] [0, 1] [34, 35, 36, 37] [] with fib := 32 * (k + 1), wg := k + 1, left := 4 }
def wMj : State := [0, 1, 2, 3].foldl (fun t k =>
  (t.modCore k (fun c => { c with eng := [oJ k] })).modWg (k + 1) (fun w => { w with id := k + 1, pasid := 1, core := k, cg := 1, cgSize := 4 })) wM

def wEe : State := (wE (oEng .tst [64, 2] [2] [] [0])).modCore 0 (fun c => { c with ecc := [.tile 2] })

/-- A state-store operation on quadrant 1 of accumulator 2 with entry 0, which the core holds. -/
def oSs (k : EngK) (ent : Option Nat) : EngOp := { oEng k [2 ^ 45] (if k = .ssst then [34] else []) (if k = .ssld then [34] else []) [0] with ent := ent }
def wSo (k : EngK) (ent : Option Nat) : State := (wE (oSs k ent)).modCore 0 (fun c => { c with ss := [⟨7, 0, false, 0, 0, [], 0⟩] })

theorem test_meets_EnginePerforms :
    (wE (oEng .tzero [] [] [2] [])).MayPerform 0 4 (oEng .tzero [] [] [2] [])
    ∧ (wE (oEng .azero [] [] [34] [])).MayPerform 0 4 (oEng .azero [] [] [34] [])
    ∧ (wE (oEng .mma [xBf] [0, 1] [34] [])).MayPerform 0 4 (oEng .mma [xBf] [0, 1] [34] [])
    ∧ (wE (oEng .tld [64, 3] [] [3] [0])).MayPerform 0 4 (oEng .tld [64, 3] [] [3] [0])
    ∧ oSt.onSpad = false
    ∧ rSt.1.wait = [] :=
  ⟨⟨by decide, by decide, by decide, by decide, by decide⟩,
  ⟨by decide, by decide, by decide, by decide, by decide⟩,
  ⟨by decide, by decide, by decide, by decide, by decide⟩,
  ⟨by decide, by decide, by decide, by decide, by decide⟩,
  by decide,
  by unfold rSt; rw [pieces_oSt]; decide +kernel⟩

theorem test_meets_EnginePerforms_2 :
    rSt.1.bad = []
    ∧ wMj.MayPerform 0 4 (oJ 0)
    ∧ ((List.range 4).filterMap (fun p => wMj.mmajPeer (oJ 0) p)).length = 4
    ∧ (∀ p ∈ (List.range 4).filterMap (fun p => wMj.mmajPeer (oJ 0) p), (wMj.core p.1).tileReady p.2.id (p.2.readsB wMj) [] = true)
    ∧ (oJ 0).done = false
    ∧ (wEe.core 0).eng.find? (fun x => x.id == 4) = some (oEng .tst [64, 2] [2] [] [0]) :=
  ⟨by unfold rSt; rw [pieces_oSt]; decide +kernel,
  ⟨by decide, by decide, by decide, by decide, by decide⟩,
  by decide,
  by decide,
  by decide,
  by decide⟩

theorem test_meets_EnginePerforms_3 :
    (wEe.core 0).tileReady 4 [2] [] = true
    ∧ (wEe.core 0).engBad (oEng .tst [64, 2] [2] [] [0]) = true
    ∧ EngK.ast ∈ [EngK.tld, .tst, .ald, .ast]
    ∧ (wE (oEng .aq [xAq] [35] [5] [])).MayPerform 0 4 (oEng .aq [xAq] [35] [5] [])
    ∧ EngK.ssfree ∈ [EngK.ssld, .ssfree]
    ∧ EngK.ssnap ∈ [EngK.ssnap, .ssrb, .ssqry, .ssfree] :=
  ⟨by decide,
  by decide,
  by decide,
  ⟨by decide, by decide, by decide, by decide, by decide⟩,
  by decide,
  by decide⟩

theorem test_meets_EnginePerforms_4 :
    (wSo .ssld none).MayPerform 0 4 (oSs .ssld none)
    ∧ ((wSo .ssld none).core 0).ssOf none = none
    ∧ (wSo .ssld (some 7)).MayPerform 0 4 (oSs .ssld (some 7))
    ∧ ((wSo .ssld (some 7)).core 0).ssOf (some 7) = some ⟨7, 0, false, 0, 0, [], 0⟩
    ∧ 2 + 9 * 0 / 4 < 23
    ∧ (wSo .ssst (some 7)).MayPerform 0 4 (oSs .ssst (some 7)) :=
  ⟨⟨by decide, by decide, by decide, by decide, by decide⟩,
  by decide,
  ⟨by decide, by decide, by decide, by decide, by decide⟩,
  by decide,
  by decide,
  ⟨by decide, by decide, by decide, by decide, by decide⟩⟩

theorem test_meets_EnginePerforms_5 :
    (oSs .ssst (some 7)).created = false
    ∧ ((wSo .ssst (some 7)).core 0).ssOf (some 7) = some ⟨7, 0, false, 0, 0, [], 0⟩
    ∧ (wE oSt).GoodSector 64 16
    ∧ (wE oSt).Unwatched 1
    ∧ ((wE oSt).core 0).lost = false
    ∧ (∀ p ∈ (List.range 4).filterMap (fun p => wMj.mmajPeer (oJ 0) p), ∀ k, Ecc.tile k ∈ (wMj.core p.1).ecc → resTile k ∉ p.2.readsB wMj) :=
  ⟨by decide,
  by decide,
  ⟨by decide, by decide, by decide⟩,
  by unfold State.Unwatched; decide,
  by decide,
  by intro p hp k hk; have h : ∀ p ∈ (List.range 4).filterMap (fun p => wMj.mmajPeer (oJ 0) p), (wMj.core p.1).ecc = [] := (by decide); rw [h p hp] at hk; cases hk⟩

theorem test_meets_EnginePerforms_6 :
    (oJ 0).tileA wMj < 32
    ∧ (∀ p ∈ (List.range 4).filterMap (fun p => wMj.mmajPeer (oJ 0) p), p.2.tileB wMj < 32)
    ∧ (oJ 0).acc0 wMj + 4 ≤ 24
    ∧ [0] ≠ ([] : List Nat)
    ∧ ((wM.modCore 0 (fun c => { c with eng := [{ oEng .tzero [] [] [2] [] with id := 3 }, oEng .tld [64, 2] [] [2] [0]] })).core 0).tileReady 4 [] [2] = false :=
  ⟨by decide,
  by decide,
  by decide,
  by decide,
  by decide⟩

/-- A parameter block from `b`; one of a copy of 144 bytes from 64; one of five dimensions. -/
def wCp (b : Nat) (l : List Nat) : State := wM.modMe (fun f => { f with ureg := l.zipIdx.map (fun p => (b + p.2, BitVec.ofNat 64 p.1)) })
def bCp (dst : Nat) : List Nat := [64, dst, 144, 0]
def bC5 : List Nat := [64, 64 + 4 * 2 ^ 32, 16 + 2 * 2 ^ 32 + 2 ^ 48, 2 + 3 * 2 ^ 16, 32, 64, 128, 256]
/-- A copy in flight to scratchpad offset 256, and a machine with it. -/
def oCp : CopyOp := ⟨4, 32, 1, false, 64, [144], [], spadKey 0 256, 0, 1, 256, 5, 144, [0, 2], [], false, 0⟩
def wCo (o : CopyOp) : State := wM.modCore 0 (fun c => { c with copies := [o], nextId := 5 })

theorem test_meets_CopiesBySector :
    (wCp 2 (bCp 0x1F7F70)).Ready (Uses.block 2 4)
    ∧ bits 64 63 57 = 0
    ∧ (127 : BitVec 7).toNat < (wCp 2 (bCp 0x1F7F70)).myWg.nbar
    ∧ (wCp 2 (bCp 0x1F7F70)).doers ≠ 0
    ∧ [144].headD 0 % 16 = 0
    ∧ 0x1F7F70 % 16 = 0 :=
  ⟨ready_ok (by decide),
  by decide,
  by decide,
  by decide,
  by decide,
  by decide⟩

theorem test_meets_CopiesBySector_2 :
    (wCp 2 (bCp 0x1F7F70)).me.count .copy < 63
    ∧ bits 0x1F7F70 23 23 = 0
    ∧ (bits 0x1F7F70 31 24 = 0 ∧ bits 0x1F7F70 20 0 + 144 ≤ (wCp 2 (bCp 0x1F7F70)).myWg.ssize ∧ (wCp 2 (bCp 0x1F7F70)).myWg.core = (wCp 2 (bCp 0x1F7F70)).me.core)
    ∧ (bits (31 * 2 ^ 14 + 0x3F70) 31 19 = 0 ∧ bits (31 * 2 ^ 14 + 0x3F70) 18 14 < (wCp 2 (bCp (31 * 2 ^ 14 + 0x3F70))).myWg.ntile ∧ bits (31 * 2 ^ 14 + 0x3F70) 13 0 + 144 ≤ 16384)
    ∧ (wCp 56 bC5).Ready (Uses.block 56 4)
    ∧ (wCp 56 bC5).Ready (Uses.block 56 8) :=
  ⟨by decide,
  by decide,
  by decide,
  by decide,
  ready_ok (by decide),
  ready_ok (by decide)⟩

theorem test_meets_CopiesBySector_3 :
    (∀ v ∈ [32, 64, 128, 256], bits v 63 57 = 0 ∧ v % 16 = 0)
    ∧ 64 * 2 < oCp.total
    ∧ (rdBytes wM.mem 192 16).length = min 64 (oCp.total - 64 * 2)
    ∧ ((wCo oCp).core 0).copies.find? (fun x => x.id == 4) = some oCp
    ∧ 2 ∈ oCp.due
    ∧ 0 < Config.cores :=
  ⟨by decide,
  by decide,
  by decide,
  by decide,
  by decide,
  by decide⟩

theorem test_meets_CopiesBySector_4 :
    (∀ m ∈ ({ oCp with due := [2, 3], ordered := true } : CopyOp).due, 2 ≤ m)
    ∧ (wCo oCp).stsUnderWay oCp 2 = false
    ∧ ((({ oCp with due := [2] } : CopyOp).tile = false ∧ ((wCo { oCp with due := [2] }).deliver 0 { oCp with due := [2] } 2 (rdBytes wM.mem 192 16)).owed 0 3 = false))
    ∧ ({ oCp with due := [2] } : CopyOp).due.filter (· != 2) = []
    ∧ (((wCo oCp).modCore 0 (fun c => { c with tlb := [⟨1, 0, .ok, 0x9, 0⟩] })).xferCheck 0 1 32 4 0 ((oCp.chunks 2).zipIdx.map (fun x => ⟨x.2, x.1.1, 16⟩))).1.wait = []
    ∧ (((wCo oCp).modCore 0 (fun c => { c with tlb := [⟨1, 0, .ok, 0x9, 0⟩] })).xferCheck 0 1 32 4 0 ((oCp.chunks 2).zipIdx.map (fun x => ⟨x.2, x.1.1, 16⟩))).1.bad ≠ [] :=
  ⟨by decide,
  by decide,
  by decide +kernel,
  by decide,
  by decide,
  by decide⟩

theorem test_meets_CopiesBySector_5 :
    ((wCo { oCp with tile := true, off := 7 }).core 0).tileReady 4 [] [resTile 7] = true
    ∧ ((wCo { oCp with src := 4096 - 128 }).xferCheck 0 1 32 4 0 (({ oCp with src := 4096 - 128 } : CopyOp).chunks 2 |>.zipIdx.map (fun x => ⟨x.2, x.1.1, 16⟩))).1.wait ≠ [] :=
  ⟨by decide,
  by decide⟩

/-- Barrier 127 of core 0 in a phase. -/
def wBa (p : Bool) : State := wM.modCore 0 (fun c => { c with barriers := [(127, ⟨64, 64, 2, 1, p⟩)], evals := [3, 127] })

def wBw : State := (wBa true).modMe (fun y => { y with bwait := some (127, 0, 0, true), waitPhase := 0x80000000000000000000000000000000 })

def wBc : State := wBw.modCore 0 (fun c => { c with barriers := [(127, ⟨0, 0, 1, 1, true⟩)] })

theorem test_meets_NamedBarriers :
    ((⟨64, 65, 1, 1, true⟩ : Barrier).atgt ≤ (⟨64, 65, 1, 1, true⟩ : Barrier).agot ∧ (⟨64, 65, 1, 1, true⟩ : Barrier).bexp ≤ (⟨64, 65, 1, 1, true⟩ : Barrier).bgot)
    ∧ ((wBa true).modWg 1 (fun w => { w with nbar := 127 })).myWg.nbar ≤ (127 : BitVec 7).toNat
    ∧ (127 : BitVec 7).toNat < (wBa true).myWg.nbar
    ∧ (wBa true).Ready Uses.none
    ∧ (wBa true).CanRelease 0
    ∧ (wBa true).Ready (Uses.rdU 2) :=
  ⟨by decide,
  by decide,
  by decide,
  ready_ok (by decide),
  ⟨by decide, by decide, by decide⟩,
  ready_ok (by decide)⟩

theorem test_meets_NamedBarriers_2 :
    ((wBa false).barrier 0 127).phase = (wBa false).me.waitPhase.getLsbD 127
    ∧ (∀ e ∈ ((wBa false).core 0).eng, e.broken = false)
    ∧ ((wBa true).barrier 0 127).phase ≠ (wBa true).me.waitPhase.getLsbD 127
    ∧ (wBa false).me.bwait ≠ some (127, (wBa false).cur.age, (wBa false).cur.pc, true)
    ∧ (wBw.barrier 0 127).phase = wBw.me.waitPhase.getLsbD 127
    ∧ wBw.me.bwait = some (127, wBw.cur.age, wBw.cur.pc, true) :=
  ⟨by decide,
  by decide,
  by decide,
  by decide,
  by decide,
  by decide⟩

theorem test_meets_NamedBarriers_3 :
    (∃ e ∈ (wBk.core 0).eng, e.wg = wBk.me.wg ∧ e.broken = true)
    ∧ (wBa true).mySlot.pushes = []
    ∧ wO.me.loadsBack = false
    ∧ (∀ q ∈ wO.me.pend, q.id < ((wO.modMe (fun x => { x with nextId := 9 })).me).nextId)
    ∧ (wBc.barrier 0 127).eval ≠ wBc.barrier 0 127
    ∧ (wBc.fibre 32).bwait = some (127, 0, 0, true) :=
  ⟨⟨_, List.mem_cons_self .., rfl, rfl⟩,
  by decide,
  by decide,
  by decide,
  by decide,
  by decide⟩

theorem test_meets_NamedBarriers_4 :
    (wBc.wg (wBc.fibre 32).wg).bbase + 127 = 127
    ∧ (wBa true).me.loadsBack = true
    ∧ (wBa true).me.acqs = []
    ∧ (wBa true).Quiet
    ∧ (wBa true).Ready { Uses.wrP 14 with la := 3 }
    ∧ (wBa false).Ready { Uses.wrP 14 with la := 0 } :=
  ⟨by decide,
  by decide,
  by decide,
  quiet_ok (by decide),
  ready_ok (by decide),
  ready_ok (by decide)⟩

theorem test_meets_NamedBarriers_5 :
    ((wBa true).core 0).evals.contains 127 = true
    ∧ ((wBa true).barrier 0 127).bexp ≠ 0 :=
  ⟨by decide,
  by decide⟩

/-- The state store of core 0 with room for two entries; a parameter block in s2, s3. -/
def wSs (l : List SSEntry) (x y : Nat) : State := ((wB2 x y).modCore 0 (fun c => { c with ss := l, nextId := 5 })).modDev (fun d => { d with cfg := { d.cfg with cores := [(0, { CoreCfg.zero with g := 5 })] } })
def eSs : SSEntry := ⟨1, 0, false, 9, 7, [], 0⟩
def xSs : Nat := 9 + 7 * 2 ^ 24

theorem test_meets_StateStoreIssue :
    (wSs [eSs] (xSs + 23 * 2 ^ 40) 4096).me.count .mat < 63
    ∧ bits (xSs + 23 * 2 ^ 40) 63 47 = 0
    ∧ (wSs [eSs] (xSs + 23 * 2 ^ 40) 4096).accOf (bits (xSs + 23 * 2 ^ 40) 44 40) = some 23
    ∧ (wSs [eSs] (xSs + 23 * 2 ^ 40) 4096).Ready (Uses.block 2 1)
    ∧ (wSs [eSs] (xSs + 23 * 2 ^ 40) 4096).Ready (Uses.block 2 2)
    ∧ (bits 4096 63 57 = 0 ∧ bits 4096 56 0 % 256 = 0) :=
  ⟨by decide,
  by decide,
  by decide,
  ready_ok (by decide),
  ready_ok (by decide),
  by decide⟩

theorem test_meets_StateStoreIssue_2 :
    ((wSs [eSs] xSs 4096).core 0).ssFind 9 7 ≠ none
    ∧ ((wSs [{ eSs with dead := true }] xSs 4096).core 0).ssFind 9 7 = none
    ∧ (wSs [{ eSs with dead := true }] xSs 4096).ssFree 0 = some 0
    ∧ (wSs [eSs, { eSs with idx := 1, sslot := 8 }] (xSs + 2 ^ 24) 4096).ssFree 0 = none
    ∧ bits xSs 46 40 = 0
    ∧ bits (xSs + 2 ^ 47) 63 47 ≠ 0 :=
  ⟨by decide,
  by decide,
  by decide,
  by decide,
  by decide,
  by decide⟩

theorem test_meets_StateStoreIssue_3 :
    bits (xSs + 2 ^ 40) 63 40 ≠ 0
    ∧ (bits (xSs + 2 ^ 47) 63 47 ≠ 0 ∨ bits 4096 63 57 ≠ 0)
    ∧ (bits xSs 63 40 ≠ 0 ∨ bits (2 ^ 32) 63 32 ≠ 0)
    ∧ (bits xSs 63 40 ≠ 0 ∨ bits (2 ^ 24) 63 24 ≠ 0)
    ∧ bits 64 56 0 % 256 ≠ 0
    ∧ bits 8 63 24 = 0 :=
  ⟨by decide,
  by decide,
  by decide,
  by decide,
  by decide,
  by decide⟩

theorem test_meets_StateStoreIssue_4 :
    bits 8 23 0 ≠ bits xSs 23 0
    ∧ ((wSs [eSs, { eSs with idx := 1, sslot := 8 }] xSs 8).core 0).ssFind (bits 8 23 0) 7 ≠ none
    ∧ ((wSs [eSs] xSs 8).core 0).ssFind (bits 8 23 0) 7 = none
    ∧ (wSs [eSs] xSs 8).ssFree 0 = some 1
    ∧ (wSs [eSs] xSs 8).Ready { (Uses.block 2 2).and (Uses.wrP 14) with la := 3 }
    ∧ (wSs [eSs] xSs 8).Ready { (Uses.block 2 1).and ((List.range 5).foldl (fun u i => u.and (Uses.wrU (59 + i))) Uses.none) with la := 2 } :=
  ⟨by decide,
  by decide,
  by decide,
  by decide,
  ready_ok (by decide),
  ready_ok (by decide)⟩

/-- Page tables of context 1 that map a gigabyte of device memory at 0, in the pages 0x10 to 0x12. -/
def tables (m : List Host.Cell) : List Host.Cell := wrBytes (wrBytes (wrBytes m 0x10000 (toBytes 8 0x11001)) 0x11000 (toBytes 8 0x12001)) 0x12000 (toBytes 8 0xF)
/-- A task record at 128 whose kernel stands at 256, s2 naming it, and a task pool of four places. -/
def rTk : Nat := 256 + 2 ^ 57 + 8 * 2 ^ 192 + 2 ^ 208 + 2 ^ 224
def wTk (r : Nat) (g : Workgroup → Workgroup) : State :=
  ((({ wM with mem := tables (wrBytes (wrBytes wM.mem 128 (toBytes 64 r)) 256 (toBytes 64 (2 ^ 71))) } : State).modMe (fun f => { f with ureg := [(2, 128)] })).modWg 1 g).modCtx 1
    (fun c => { c with root := 0x10000, taskPlaces := 4 })
def inTask (w : Workgroup) : Workgroup := { w with isTask := true, stageSize := 4096, stagedUsed := 4032, task := rTk }

/-- The record's kernel stands in a host page that ATS has not answered for. -/
def rHost : Nat := rTk - 256 + 2 ^ 30
def wHost : State := { wTk rHost id with mem := wrBytes (wTk rHost id).mem 0x12008 (toBytes 8 0x4F) }

theorem test_meets_TaskInstructions :
    (wTk rTk id).Ready (Uses.rdU 2)
    ∧ fieldB ((wTk rTk id).usrc 2) 63 57 = 0
    ∧ (wTk rTk id).doers ≠ 0
    ∧ (wTk rTk id).access 0 (wTk rTk id).myPasid accRead 64 64 (fun _ => true) (fun _ => 128) [0] = ⟨[(0, [(128, 64, 0xF)])], [], []⟩
    ∧ (wTk rTk id).meetsWrites [(0, [(128, 64, 0xF)])] = false
    ∧ (∀ p ∈ [(128, 64, (0xF : Word64))], (wTk rTk id).rangeBad p.1 p.2.1 = false) :=
  ⟨ready_ok (by decide),
  by decide +kernel,
  by decide +kernel,
  by decide +kernel,
  by decide +kernel,
  by decide +kernel⟩

theorem test_meets_TaskInstructions_2 :
    ofBytes ([(128, 64, (0xF : Word64))].flatMap (fun p => rdBytes (wTk rTk id).mem p.1 p.2.1)) = rTk
    ∧ (wTk rTk id).recordWaits 1 rTk = false
    ∧ (wTk rTk id).recordOk 1 rTk = true
    ∧ wHost.recordWaits 1 rHost = true
    ∧ (wTk (rTk + 2 ^ 63) id).recordOk 1 (rTk + 2 ^ 63) = false
    ∧ ((wTk rTk inTask).inTask = true ∧ (wTk rTk inTask).myWg.stagedUsed + 64 ≤ (wTk rTk inTask).myWg.stageSize) :=
  ⟨by decide +kernel,
  by decide +kernel,
  by decide +kernel,
  by decide +kernel,
  by decide +kernel,
  by decide +kernel⟩

theorem test_meets_TaskInstructions_3 :
    ((wTk rTk inTask).modWg 1 (fun w => { w with stagedUsed := 4096 })).myWg.stageSize < ((wTk rTk inTask).modWg 1 (fun w => { w with stagedUsed := 4096 })).myWg.stagedUsed + 64
    ∧ (wTk rTk id).inTask = false
    ∧ (wTk rTk id).CanRelease 2
    ∧ ((wTk rTk id).didRelease 32).poolRoom 1 1 = true
    ∧ (((wTk rTk id).modCtx 1 (fun c => { c with taskPlaces := 0 })).didRelease 32).poolRoom 1 1 = false
    ∧ (wTk rTk inTask).Ready Uses.none :=
  ⟨by decide +kernel,
  by decide +kernel,
  ⟨by decide, by decide, by decide⟩,
  by decide +kernel,
  by decide +kernel,
  ready_ok (by decide)⟩

theorem test_meets_TaskInstructions_4 :
    parks (wTk rTk inTask).myWg.task = false
    ∧ parks ((wTk rTk inTask).modWg 1 (fun w => { w with task := rTk + 2 ^ 58 })).myWg.task = true
    ∧ ((wTk rTk inTask).wg 1).state = .running
    ∧ (wTk rTk inTask).Quiet
    ∧ (wTk rTk inTask).Ready { (Uses.rdU 2).and (Uses.wrU 5) with la := 15 }
    ∧ (wTk rTk inTask).Ready { (Uses.rdU 2).and (Uses.wrU 5) with la := 0 } :=
  ⟨by decide +kernel,
  by decide +kernel,
  by decide +kernel,
  quiet_ok (by decide),
  ready_ok (by decide),
  ready_ok (by decide)⟩

theorem test_meets_TaskInstructions_5 :
    (wTk rTk inTask).mySlot.pushes = []
    ∧ 10 ≤ ((wTk rTk inTask).usrc 2).toNat
    ∧ (((wTk rTk inTask).modMe (fun f => { f with ureg := [(2, 9)] })).usrc 2).toNat < 10 :=
  ⟨by decide +kernel,
  by decide +kernel,
  by decide +kernel⟩

/-- s2 names a range of the scratchpad. -/
def wSr (x : Nat) : State := (wM.modMe (fun f => { f with ureg := [(2, BitVec.ofNat 64 x)] })).modWg 1 (fun w => { w with ssize := 0x1000 })

theorem test_meets_ScratchpadRanges :
    (wSr (0xF80 + 128 * 2 ^ 32)).Ready (Uses.rdU 2)
    ∧ fieldB ((wSr (2 ^ 53)).usrc 2) 63 53 ≠ 0
    ∧ (fieldB ((wSr 64).usrc 2) 63 53 = 0 ∧ fieldB ((wSr 64).usrc 2) 20 0 % 128 ≠ 0)
    ∧ (fieldB ((wSr (2 ^ 23)).usrc 2) 31 23 ≠ 0 ∧ fieldB ((wSr (2 ^ 23)).usrc 2) 20 0 % 128 = 0 ∧ fieldB ((wSr (2 ^ 23)).usrc 2) 52 32 % 128 = 0)
    ∧ (wSr (0xF80 + 256 * 2 ^ 32)).myWg.ssize < fieldB ((wSr (0xF80 + 256 * 2 ^ 32)).usrc 2) 20 0 + fieldB ((wSr (0xF80 + 256 * 2 ^ 32)).usrc 2) 52 32
    ∧ fieldB ((wSr (0xF80 + 128 * 2 ^ 32)).usrc 2) 20 0 + fieldB ((wSr (0xF80 + 128 * 2 ^ 32)).usrc 2) 52 32 ≤ (wSr (0xF80 + 128 * 2 ^ 32)).myWg.ssize :=
  ⟨ready_ok (by decide),
  by decide,
  by decide,
  by decide,
  by decide,
  by decide⟩

theorem test_meets_ScratchpadRanges_2 :
    (wSr (0xF80 + 128 * 2 ^ 32)).myWg.sbase % 128 = 0 :=
  by decide

/-- Key (0x4000, 7) has a record in one state at its first place; s2 to s5 name it, and a key of context 1 or 2; launch 3 is early on a list. -/
def rFp (st : FpState) : FpRec := { FpRec.zero with kern := 0x4000, hash := 7, state := st, reason := 4, voids := 5, read := [⟨0, 1, 2⟩], write := [⟨1, 3, 4⟩], perm := st == .void }
def wFp (st : FpState) (early : List Nat) (y : Nat) : State :=
  ((((wB2 0x4000 7).modMe (fun f => { f with ureg := [(2, 0x4000), (3, 7), (4, 0x5000), (5, BitVec.ofNat 64 y)] })).modWg 1 (fun w => { w with launch := some 3 })).setLaunch 3 { Launch.zero with early := early, queue := 1 }).modCtx 1
    (fun c => { c with fp := [(fpPlace0 0x4000 7, rFp st)] })

theorem test_meets_FootprintInstructions :
    ((wFp .valid [] 8).launchOf 1).early = []
    ∧ (wFp .valid [] 8).Quiet
    ∧ (wFp .valid [] 8).Ready ((Uses.block 2 2).and { Uses.wrU 9 with la := 0 })
    ∧ (wFp .valid [] 8).mySlot.pushes = []
    ∧ (wFp .valid [2] 8).Ready ((Uses.block 2 2).and { Uses.wrU 9 with la := 4 })
    ∧ (wFp .valid [] 8).Ready ((Uses.block 2 2).and Uses.none) :=
  ⟨by decide,
  quiet_ok (by decide),
  ready_ok (by decide),
  by decide,
  ready_ok (by decide),
  ready_ok (by decide)⟩

theorem test_meets_FootprintInstructions_2 :
    (wFp .valid [] 8).Ready ((Uses.block 2 4).and Uses.none)
    ∧ fpKeyBad ((wFp .valid [] 8).block 2 2) = false
    ∧ (fpKeyBad ((wFp .valid [] 8).block 2 4) = false ∧ bits (((wFp .valid [] 8).block 2 4).getD 2 0) 63 57 = 0 ∧ bits (((wFp .valid [] 8).block 2 4).getD 3 0) 63 53 = 0)
    ∧ (wFp .valid [] (2 ^ 52 + 2 * 2 ^ 32)).dev.donGrant.contains (1, 2) = false
    ∧ ((wFp .valid [] 8).modDev (fun d => { d with donGrant := [(1, 2)] })).dev.donGrant.contains (1, 2) = true
    ∧ ((wFp .valid [2] 8).launchOf 1).early ≠ [] :=
  ⟨ready_ok (by decide),
  by decide,
  by decide,
  by decide,
  by decide,
  by decide⟩

theorem test_meets_FootprintInstructions_3 :
    ((wFp .valid [] 8).ctx 1).fpFind 0x4000 7 = some (fpPlace0 0x4000 7)
    ∧ ((wFp .valid [] 8).ctx 1).fpFind 0x5000 8 = none
    ∧ ((((wFp .valid [] 8).ctx 1).fpAt (fpPlace0 0x4000 7)).read.length < 64 ∧ (((wFp .valid [] 8).ctx 1).fpAt (fpPlace0 0x4000 7)).write.length < 64)
    ∧ ((wFp .valid [] 8).ctx 1).fpEnter 0x4000 7 = some (fpPlace0 0x4000 7)
    ∧ ((wFp .valid [] 8).ctx 1).fpEnter 0x5000 8 = some (fpPlace0 0x5000 8)
    ∧ (((wFp .valid [] 8).ctx 1).fpAt (fpPlace0 0x4000 7)).state = .valid :=
  ⟨by decide,
  by decide,
  by decide,
  by decide,
  by decide,
  by decide⟩

theorem test_meets_FootprintInstructions_4 :
    (((wFp .void [] 8).ctx 1).fpAt (fpPlace0 0x4000 7)).state ≠ .valid
    ∧ (wFp .valid [] 8).Ready Uses.none
    ∧ (wFp .valid [] 8).predsOut = false
    ∧ (wFp .valid [] 8).me.loadsBack = true
    ∧ (wFp .valid [] 8).me.acqs = []
    ∧ ((wFp .valid [] 8).setLaunch 2 { Launch.zero with queue := 1 }).predsOut = true :=
  ⟨by decide,
  ready_ok (by decide),
  by decide,
  by decide,
  by decide,
  by decide⟩

/-- Context 1 with page tables, and with request and fault rings of four places at 0x2000 and 0x3000, of which two are taken. -/
def wRg (vec : Word64) : State :=
  ({ wM with mem := tables wM.mem } : State).modCtx 1 (fun c => { c with root := 0x10000, reqRing := ⟨0x2000, 4, 3, 1⟩, faultRing := ⟨0x3000, 4, 3, 0⟩, vectors := vec, callCtr := 0xFFFFFFFF, calls := [⟨0xFFFFFFFF, 33, 0, 1, 0⟩] })
def esSv : List (List Byte) := (lanesOf 5).zipIdx.map (fun ln => svcEntry ((3 + ln.2) % 2 ^ 64) 32 1 0 ln.1 0 ((List.range 8).map (fun i => (wRg 0).rv (8 + i) ln.1)))

theorem test_meets_ServiceCalls :
    (wRg 0).Ready ((Uses.rdU 2).and (Uses.rdV 8 8))
    ∧ (wRg 0).doers = 5
    ∧ (wRg 0).me.freePark = some 0
    ∧ (wRg 0).CanRelease 4
    ∧ nextTag ((wRg 0).ctx 1).calls (((wRg 0).ctx 1).calls.length + 2) ((wRg 0).ctx 1).callCtr = 1
    ∧ (((wRg 0).didRelease 32).ringPutAll 1 ((wRg 0).ctx 1).reqRing esSv).isSome = true :=
  ⟨ready_ok (by decide),
  by decide,
  by decide,
  ⟨by decide, by decide, by decide⟩,
  by decide,
  by decide +kernel⟩

theorem test_meets_ServiceCalls_2 :
    ((wRg 0).modMe (fun x => { x with helper := 5 })).doers = 0
    ∧ ((wRg 0).modMe (fun x => { x with frontier := (List.range 4).map (fun i => ⟨.parked, 0, 0, 0, 0x100, 0, false, 0, i, false, 0⟩) })).me.freePark = none
    ∧ ({ wBuf false false with mem := tables [] }).me.freePark ≠ none
    ∧ (wBuf false false).released 32 4 = false
    ∧ ((wRg 0).ctx 1).calls.length < 2 ^ 31 :=
  ⟨by decide,
  by decide,
  by decide,
  by decide,
  by decide⟩

theorem test_meets_BreakpointsAndTraps :
    (wRg 0).Ready Uses.none
    ∧ (wRg 0).RingRoom (wRg 0).myPasid
    ∧ ((wRg 0).me.leave (wRg 0).cur.age (wRg 0).cur.active).parkedAt (wRg 0).cur.pc (wRg 0).cur.pc = none
    ∧ ((wRg 0).me.leave (wRg 0).cur.age (wRg 0).cur.active).parkedAt (wRg 0).cur.pc (wRg 0).cur.npc = none
    ∧ ((wRg 0).me.leave (wRg 0).cur.age (wRg 0).cur.active).freePark = some 0 :=
  ⟨ready_ok (by decide),
  ⟨by decide, by decide +kernel⟩,
  by decide,
  by decide,
  by decide⟩

theorem test_meets_SpecialRegisters :
    (wRg 0).flagsOut = false
    ∧ (wRg 0).Quiet
    ∧ (wRg 0).Ready (Uses.wrV 126 2)
    ∧ (wRg 0).Ready (Uses.wrV 127 1)
    ∧ (wRg 0).Ready (Uses.wrU 63)
    ∧ (wE (oEng .mma [] [] [] [])).flagsOut = true :=
  ⟨by decide,
  quiet_ok (by decide),
  ready_ok (by decide),
  ready_ok (by decide),
  ready_ok (by decide),
  by decide⟩

theorem test_meets_SpecialRegisters_2 :
    (wE (oEng .mma [] [] [] [])).Ready (Uses.wrV 3 1)
    ∧ (wE (oEng .mma [] [] [] [])).Ready (Uses.wrU 3)
    ∧ (wRg 0).Ready (Uses.rdU 2)
    ∧ (min ((wRg 0).usrc 64).toNat (2 ^ 32 - 1) = 0 ∧ min ((wRg 0).usrc 65).toNat (2 ^ 32 - 1) ≠ 0)
    ∧ (wRg 0).Ready (Uses.rdU 65)
    ∧ (((wRg 0).modMe (fun x => { x with status := .sleeping, sleep := 0 })).me.status = .sleeping ∧ ((wRg 0).modMe (fun x => { x with status := .sleeping, sleep := 0 })).me.sleep ≤ (wRg 0).clock) :=
  ⟨ready_ok (by decide),
  ready_ok (by decide),
  ready_ok (by decide),
  by decide,
  ready_ok (by decide),
  by decide⟩

theorem test_meets_SpecialRegisters_3 :
    (wRg 0).clock < ((wRg 0).modMe (fun x => { x with status := .sleeping, sleep := 1 })).me.sleep :=
  by decide

/-- Queue 3 of context 1 at its first packet `n`, with page tables, grants, a counter and a link. -/
def wQu (g : Queue → Queue) (n : Nat) : State :=
  ((({ w0 with mem := tables (wrBytes [] 0x4000 (toBytes 64 n)) } : State).modCtx 1 (fun c => { c with root := 0x10000, taskPlaces := 4, nextLaunch := 6 })).modDev (fun d =>
    { d with queues := [(3, g { Queue.zero with en := true, mapped := true, state := .mapped, pasid := 1, ring := 0x4000, lsize := 2, wi := 1 })], ctrGrant := [(3, 1)],
             counters := [(3, 10)], links := [(2, ⟨3, 4, 5⟩)], linkGrant := [(2, 1)], graphGrant := [(1, 1)] }))
def toIdle (x : Queue) : Queue := { x with mapped := false, state := .idle }
/-- 64 mapped queues and a waiting one. -/
def wQ64 : State := (wQu id 0).modDev (fun d => { d with queues := (List.range 64).map (fun i => (i, { Queue.zero with en := true, mapped := true, state := .mapped, pasid := 1, wi := 1 })) ++ [(64, { Queue.zero with en := true, state := .idle, pasid := 1, wi := 1 })] })

theorem test_meets_QueuesMapAndUnmap :
    ((wQu id 0).modDev (fun d => { d with mgmt := { d.mgmt with takeover := true } })).dev.mgmt.takeover = true
    ∧ (wQu id 0).dev.mgmt.takeover = false
    ∧ ((4 : Word) - ((wQu id 0).queue 3).ri).toNat ≤ 2 ^ ((wQu id 0).queue 3).lsize.toNat
    ∧ 2 ^ ((wQu id 0).queue 3).lsize.toNat < ((5 : Word) - ((wQu id 0).queue 3).ri).toNat
    ∧ ((wQu (fun x => { x with state := .disabled }) 0).queue 3).state = .disabled
    ∧ ((wQu id 0).queue 3).state ≠ .disabled :=
  ⟨by decide,
  by decide,
  by decide,
  by decide,
  by decide,
  by decide⟩

theorem test_meets_QueuesMapAndUnmap_2 :
    (bestQueue (wQu toIdle 0).runnables).map (·.1) = some 3
    ∧ (wQu toIdle 0).mappedQueues.length < 64
    ∧ (bestQueue (wQu id 0).runnables).map (·.1) ≠ some 3
    ∧ ((wQ64.queue 63).mapped = true ∧ 64 ≤ wQ64.mappedQueues.length)
    ∧ (∃ e ∈ wQ64.runnables, (wQ64.queue 63).qprio ≤ e.2.qprio)
    ∧ (((wQu id 0).queue 3).mapped = true ∧ (wQu id 0).mappedQueues.length < 64) :=
  ⟨by decide,
  by decide,
  by decide,
  ⟨by decide, by decide +kernel⟩,
  by decide +kernel,
  by decide⟩

theorem test_meets_QueuesMapAndUnmap_3 :
    bestQueue [(1, { Queue.zero with qprio := 3 }), (2, { Queue.zero with qprio := 4 })] = some (2, { Queue.zero with qprio := 4 })
    ∧ (wQu id 0).PacketAt 3 0
    ∧ (wQu id 11).PacketAt 3 11
    ∧ (Instr.wait 3 ∈ [Instr.wait 3, .ltake 3] ∧ Instr.ltake 3 ∈ [Instr.wait 3, .ltake 3])
    ∧ (bits 0 7 0 = 0 ∧ 10 < bits 11 7 0) :=
  ⟨by decide,
  ⟨by decide, by decide, by decide, by decide, by decide, by decide, by decide +kernel⟩,
  ⟨by decide, by decide, by decide, by decide, by decide, by decide, by decide +kernel⟩,
  by decide,
  by decide⟩

/-- Packets: WAIT of counter 3, SIGNAL of it, LGIVE and LTAKE of link 2, MARKER. -/
def nWait (v : Nat) : Nat := 4 + 3 * 2 ^ 64 + v * 2 ^ 128
def nSig (op v : Nat) : Nat := 5 + 9 * 2 ^ 32 + 3 * 2 ^ 64 + op * 2 ^ 76 + 2 ^ 78 + v * 2 ^ 128
def nGive (k : Nat) : Nat := 6 + 2 * 2 ^ 64 + k * 2 ^ 128
def nTake (k : Nat) : Nat := 7 + 2 * 2 ^ 64 + k * 2 ^ 128
def wTake (k : Nat) : State := (wQu id (nTake k)).modDev (fun d => { d with links := [(2, ⟨4, 3, 5⟩)] })
def wPark (st : QState) (c : Nat) (v : Word64) : State := (wQu (fun x => { x with state := st, waitCtr := c, waitThr := v, mapped := false, open_ := [8, 9] }) 0).modDev (fun d => { d with links := [(2, ⟨4, 3, 5⟩)] })

theorem test_meets_CounterAndLinkPackets :
    (wQu id (nWait 10)).PacketAt 3 (nWait 10)
    ∧ Packet (nWait 10) 4 false
    ∧ (bits (nWait 10) 127 76 = 0 ∧ bits (nWait 10) 511 192 = 0)
    ∧ (wQu id (nWait 10)).ctrOk ((wQu id (nWait 10)).queuePasid 3) (bits (nWait 10) 75 64) = true
    ∧ BitVec.ofNat 64 (bits (nWait 10) 191 128) ≤ (wQu id (nWait 10)).counter 3
    ∧ (wQu id (nWait 11)).counter 3 < BitVec.ofNat 64 (bits (nWait 11) 191 128) :=
  ⟨⟨by decide, by decide, by decide, by decide, by decide, by decide, by decide +kernel⟩,
  ⟨by decide, by decide, by decide⟩,
  by decide,
  by decide,
  by decide,
  by decide⟩

theorem test_meets_CounterAndLinkPackets_2 :
    (wQu id (nSig 1 11)).PacketAt 3 (nSig 1 11)
    ∧ Packet (nSig 1 11) 5 false
    ∧ (wQu id (nSig 1 11)).allDone 3 = true
    ∧ (bits (nSig 1 11) 127 79 = 0 ∧ bits (nSig 1 11) 511 192 = 0 ∧ bits (nSig 1 11) 77 76 = 1 ∧ bits (nSig 0 11) 77 76 = 0)
    ∧ (wQu id (nGive 0xFFFFFFFA)).PacketAt 3 (nGive 0xFFFFFFFA)
    ∧ Packet (nGive 0xFFFFFFFA) 6 false :=
  ⟨⟨by decide, by decide, by decide, by decide, by decide, by decide, by decide +kernel⟩,
  ⟨by decide, by decide, by decide⟩,
  by decide,
  by decide,
  ⟨by decide, by decide, by decide, by decide, by decide, by decide, by decide +kernel⟩,
  ⟨by decide, by decide, by decide⟩⟩

theorem test_meets_CounterAndLinkPackets_3 :
    linkReserved (nGive 0xFFFFFFFA) = false
    ∧ ((wQu id 0).link 2).giver.toNat = 3
    ∧ (wQu id 0).linkOk 1 2 = true
    ∧ ((wQu id 0).queue ((wQu id 0).link 2).taker.toNat).state ≠ .onLtake
    ∧ ((2 ^ 32 ≤ ((wQu id 0).link 2).tokens.toNat + bits (nGive 0xFFFFFFFF) 159 128 ∧ bits (nGive 0xFFFFFFFF) 7 0 = 6))
    ∧ ((wQu id 0).link 2).tokens.toNat + bits (nGive 0xFFFFFFFA) 159 128 < 2 ^ 32 :=
  ⟨by decide,
  by decide,
  by decide,
  by decide,
  by decide,
  by decide⟩

theorem test_meets_CounterAndLinkPackets_4 :
    (wTake 5).PacketAt 3 (nTake 5)
    ∧ Packet (nTake 5) 7 false
    ∧ (linkReserved (nTake 5) = false ∧ ((wTake 5).link 2).taker.toNat = 3 ∧ (wTake 5).linkOk 1 2 = true)
    ∧ bits (nTake 5) 159 128 ≤ ((wTake 5).link 2).tokens.toNat
    ∧ ((wTake 6).link 2).tokens.toNat < bits (nTake 6) 159 128
    ∧ (wQu id 10).PacketAt 3 10 :=
  ⟨⟨by decide, by decide, by decide, by decide, by decide, by decide, by decide +kernel⟩,
  ⟨by decide, by decide, by decide⟩,
  by decide,
  by decide,
  by decide,
  ⟨by decide, by decide, by decide, by decide, by decide, by decide, by decide +kernel⟩⟩

theorem test_meets_CounterAndLinkPackets_5 :
    Packet 10 10 false
    ∧ (wQu id 10).allDone 3 = true
    ∧ (bits 10 511 121 = 0 ∧ bits 10 120 64 = 0)
    ∧ (wQu id (10 + 0x6000 * 2 ^ 64)).PacketAt 3 (10 + 0x6000 * 2 ^ 64)
    ∧ (State.hubPut 1 0x6000 (toBytes 16 5) (wQu id (10 + 0x6000 * 2 ^ 64))).isSome = true
    ∧ ((wPark .onLtake 2 5).queue ((wPark .onLtake 2 5).link 2).taker.toNat).state = .onLtake :=
  ⟨⟨by decide, by decide, by decide⟩,
  by decide,
  by decide,
  ⟨by decide, by decide, by decide, by decide, by decide, by decide, by decide +kernel⟩,
  by decide +kernel,
  by decide⟩

theorem test_meets_CounterAndLinkPackets_6 :
    (((wPark .onLtake 2 5).queue 3).waitCtr = 2 ∧ ((wPark .onLtake 2 5).queue 3).waitThr.toNat ≤ ((wPark .onLtake 2 5).link 2).tokens.toNat)
    ∧ Sparse.wf Queue.zero (wPark .onWait 3 11).dev.queues = true
    ∧ (((wPark .onWait 3 11).queue 3).state = .onWait ∧ ((wPark .onWait 3 11).queue 3).waitCtr = 3)
    ∧ (((wPark .onWait 3 11).queue 3).waitThr ≤ 11 ∧ 10 < ((wPark .onWait 3 11).queue 3).waitThr) :=
  ⟨by decide,
  by decide,
  by decide,
  by decide⟩

/-- Queue 3 at packet `n`, with `m` of 64 bytes at 0x5000 and more at the addresses after it. -/
def wQm (n : Nat) (l : List Nat) : State := { wQu id n with mem := tables ((l.zipIdx).foldl (fun m p => wrBytes m (0x5000 + 64 * p.2) (toBytes 64 p.1)) (wrBytes [] 0x4000 (toBytes 64 n))) }
/-- A launch of the kernel at 0x5000 with its argument block at 0x6000, two workgroups, hints; kernels of 32 lanes and of too many accumulators. -/
def nLau : Nat := 1 + 2 ^ 8 + 5 * 2 ^ 32 + 0x5000 * 2 ^ 64 + 0x6000 * 2 ^ 128 + 2 ^ 192
def kOk : Nat := 0x100 + 31 * 2 ^ 111
/-- Graph packets of slot 1: load two nodes from 0x5000, run, unload; nodes. -/
def nGr (op : Nat) : Nat := 2 + op * 2 ^ 64 + 2 ^ 68 + (if op = 0 then 2 ^ 72 + 0x5000 * 2 ^ 128 else 0)
def nodeL : Nat := 1 + 2 ^ 16 + 0x5000 * 2 ^ 64 + 0x6000 * 2 ^ 128
def nodeC (kind : Nat) : Nat := kind + 256 * 2 ^ 16 + 0x5004 * 2 ^ 64
def nodeS : Nat := 4 + 256 * 2 ^ 16 + 3 * 2 ^ 64 + 7 * 2 ^ 128
def wGr (n : Nat) (l : List Nat) (g : Graph) : State := (wQm n l).modDev (fun d => { d with graphs := [(1, g)] })
/-- A running graph of one node, whose condition word is `v`. -/
def wRun (node : Nat) (act : List Nat) (v : Nat) : State := wGr 0 [v * 2 ^ 32] { Graph.zero with owner := some 1, nodes := [node], running := some 3, active := act, pidx := 7, user := 9 }

theorem test_meets_LaunchAndGraphPackets :
    (wQm nLau [kOk]).PacketAt 3 nLau
    ∧ Packet nLau 1 true
    ∧ (wQm nLau [kOk]).othersDone 3 = true
    ∧ (lReserved nLau = false ∧ lReserved (nLau + 2 ^ 223) = true)
    ∧ (lIllegal nLau = false ∧ lIllegal (nLau + 3 <<< 268) = true ∧ lArgs nLau % 8 = 0)
    ∧ (wQm nLau [kOk]).hubNum 1 (lDesc nLau) 64 = some kOk :=
  ⟨⟨by decide, by decide, by decide, by decide, by decide, by decide, by decide +kernel⟩,
  ⟨by decide, by decide, by decide⟩,
  by decide,
  by decide,
  by decide,
  by decide +kernel⟩

theorem test_meets_LaunchAndGraphPackets_2 :
    (kBad kOk = false ∧ kBad (kOk + 2 ^ 63) = true)
    ∧ (wQm nLau [kOk]).hubNum 1 (kArgmap kOk) (2 * kNargs kOk) = some 0
    ∧ ((wQm nLau [kOk]).hubGet 1 0x6000 (8 * kNargs kOk)).isSome = true
    ∧ (wQm nLau [kOk]).neverFits kOk nLau = false
    ∧ (wQm nLau [kOk]).neverFits kOk (nLau + 2 ^ 192 + 1 <<< 272) = true
    ∧ (lSop nLau = 0 ∧ lSop (nLau + 1 <<< 268) ≠ 0 ∧ (wQm nLau [kOk]).ctrOk 1 (lSctr (nLau + 1 <<< 268)) = false) :=
  ⟨by decide,
  by decide +kernel,
  by decide +kernel,
  by decide +kernel,
  by decide +kernel,
  by decide⟩

theorem test_meets_LaunchAndGraphPackets_3 :
    (wGr (nGr 0) [nodeL, nodeS] Graph.zero).PacketAt 3 (nGr 0)
    ∧ Packet (nGr 0) 2 true
    ∧ (wGr (nGr 0) [nodeL, nodeS] Graph.zero).allDone 3 = true
    ∧ (bits (nGr 0) 127 80 = 0 ∧ bits (nGr 0) 511 185 = 0 ∧ bits (nGr 0) 67 64 = 0 ∧ bits (nGr 0) 184 128 % 64 = 0)
    ∧ ((wGr (nGr 0) [nodeL, nodeS] Graph.zero).graphOk 1 1 = true ∧ ((wGr (nGr 0) [nodeL, nodeS] Graph.zero).graph 1).running = none)
    ∧ (List.range 2).mapM (fun i => (wGr (nGr 0) [nodeL, nodeS] Graph.zero).hubNum 1 (0x5000 + 64 * i) 64) = some [nodeL, nodeS] :=
  ⟨⟨by decide, by decide, by decide, by decide, by decide, by decide, by decide +kernel⟩,
  ⟨by decide, by decide, by decide⟩,
  by decide,
  by decide,
  by decide,
  by decide +kernel⟩

theorem test_meets_LaunchAndGraphPackets_4 :
    ([nodeL, nodeS].any (nodeBad 1) = false ∧ [nodeL, nodeS + 2 ^ 25].any (nodeBad 1) = true)
    ∧ (wGr (nGr 1) [] Graph.zero).PacketAt 3 (nGr 1)
    ∧ (wGr (nGr 2) [] Graph.zero).PacketAt 3 (nGr 2)
    ∧ (bits (nGr 1) 67 64 = 1 ∧ bits (nGr 2) 67 64 = 2)
    ∧ (((wRun nodeL [] 0).graph 1).nodes ≠ [] ∧ ((wGr (nGr 1) [] Graph.zero).graph 1).nodes = [])
    ∧ (((wRun nodeL [] 0).graph 1).running = some 3 ∧ ((wRun nodeL [] 0).graph 1).nodes[((wRun nodeL [] 0).graph 1).node]? = some nodeL) :=
  ⟨by decide +kernel,
  ⟨by decide, by decide, by decide, by decide, by decide, by decide, by decide +kernel⟩,
  ⟨by decide, by decide, by decide, by decide, by decide, by decide, by decide +kernel⟩,
  by decide,
  by decide,
  by decide +kernel⟩

theorem test_meets_LaunchAndGraphPackets_5 :
    ((wRun nodeL [] 0).ctx ((wRun nodeL [] 0).queuePasid 3)).state = .active
    ∧ (((wRun (nodeC 2) [] 0).graph 1).active.contains 0 = false ∧ ((wRun (nodeC 2) [0] 0).graph 1).active.contains 0 = true)
    ∧ (∀ e ∈ (wRun (nodeC 3) [] 0).launches, e.2.graph ≠ some 1)
    ∧ (wRun (nodeC 3) [] 5).hubNum 1 (bits (nodeC 3) 120 64) 4 = some 5
    ∧ (wRun (nodeC 3) [] 0).hubNum 1 (bits (nodeC 3) 120 64) 4 = some 0
    ∧ (bits nodeS 7 0 = 4 ∧ (wRun nodeS [] 0).ctrOk 1 (bits nodeS 75 64) = true) :=
  ⟨by decide,
  by decide,
  by decide,
  by decide +kernel,
  by decide +kernel,
  by decide⟩

theorem test_meets_LaunchAndGraphPackets_6 :
    ¬∀ e ∈ ((wRun nodeS [] 0).setLaunch 2 { Launch.zero with graph := some 1 }).launches, e.2.graph ≠ some 1 :=
  by decide

/-- TASKS of two records at 0x5000, with kernels at 0x100; FOOTPRINT operations on (0x4000, 7); a COPY of 80 bytes. -/
def rT2 : Nat := rTk - 256 + 0x5080
def nTasks (k : Nat) : Nat := 3 + 4 * 2 ^ 32 + 0x5000 * 2 ^ 64 + k * 2 ^ 128 + 2 ^ 160
def rBig : Nat := rT2 + 2016 <<< 344 + 1 <<< 364
def wTs (k : Nat) (l : List Nat) : State := wQm (nTasks k) (l ++ [2 ^ 71])
def nFp (o : Nat) : Nat := 8 + o * 2 ^ 64 + 0x4000 * 2 ^ 128 + 7 * 2 ^ 192 + 0x5000 * 2 ^ 256 + 8 <<< 320 + 0x6000 <<< 384
def wFq (n : Nat) : State := (wQm n []).modCtx 1 (fun c => { c with fp := [(fpPlace0 0x4000 7, rFp .valid)] })
def nCp : Nat := 9 + 0x5000 * 2 ^ 64 + 0x5FF0 * 2 ^ 128 + 80 * 2 ^ 192 + 3 <<< 384 + 1 <<< 396 + 5 <<< 448
def oHc (done : Nat) (fin : Bool) : HubCopy := ⟨5, 3, 0, 0, 1, 0x5000, 0x5FF0, 80, 0, 0, 3, 1, false, 5, done, fin, false, 0, 0, 0⟩
def wHc (done : Nat) (fin : Bool) : State := (wQm 0 [0x0102030405060708090A0B0C0D0E0F10]).modDev (fun d => { d with copies := [oHc done fin], nextId := 6 })

theorem test_meets_TaskFootprintCopyPackets :
    (wTs 2 [rT2, rT2 - 2 ^ 57]).PacketAt 3 (nTasks 2)
    ∧ (wTs 2 [rT2, rT2 - 2 ^ 57]).allDone 3 = true
    ∧ Packet (nTasks 2) 3 false
    ∧ (wTs 2 [rT2, rT2 - 2 ^ 57]).dev.tasks.find? (fun x => x.queue == 3) = none
    ∧ (bits (nTasks 2) 127 121 = 0 ∧ bits (nTasks 2) 511 161 = 0 ∧ bits (nTasks 2) 120 64 % 64 = 0)
    ∧ (wTs 2 [rT2, rT2 - 2 ^ 57]).readRecords 1 0x5000 2 = some [rT2, rT2 - 2 ^ 57] :=
  ⟨⟨by decide, by decide, by decide, by decide, by decide, by decide, by decide +kernel⟩,
  by decide +kernel,
  ⟨by decide, by decide, by decide⟩,
  by decide +kernel,
  by decide,
  by decide +kernel⟩

theorem test_meets_TaskFootprintCopyPackets_2 :
    (∀ r ∈ [rT2, rT2 - 2 ^ 57], (wTs 2 [rT2, rT2 - 2 ^ 57]).recordWaits 1 r = false)
    ∧ (∀ r ∈ [rT2, rT2 - 2 ^ 57], (wTs 2 [rT2, rT2 - 2 ^ 57]).recordOk 1 r = true)
    ∧ (∀ r ∈ [rT2, rT2 - 2 ^ 57], (wTs 2 [rT2, rT2 - 2 ^ 57]).taskNeverFits 1 r = false)
    ∧ (wTs 2 [rT2, rBig]).readRecords 1 0x5000 2 = some [rT2, rBig]
    ∧ (∀ r ∈ [rT2, rBig], (wTs 2 [rT2, rBig]).recordOk 1 r = true)
    ∧ (∃ r ∈ [rT2, rBig], (wTs 2 [rT2, rBig]).taskNeverFits 1 r = true) :=
  ⟨by decide +kernel,
  by decide +kernel,
  by decide +kernel,
  by decide +kernel,
  by decide +kernel,
  by decide +kernel⟩

theorem test_meets_TaskFootprintCopyPackets_3 :
    (wTs 2 [rT2, rT2 + 2 ^ 63]).readRecords 1 0x5000 2 = some [rT2, rT2 + 2 ^ 63]
    ∧ (∃ r ∈ [rT2, rT2 + 2 ^ 63], (wTs 2 [rT2, rT2 + 2 ^ 63]).recordOk 1 r = false)
    ∧ (wFq (nFp 0)).PacketAt 3 (nFp 0)
    ∧ (wFq (nFp 1)).PacketAt 3 (nFp 1)
    ∧ (wFq (nFp 2)).PacketAt 3 (nFp 2)
    ∧ (wFq (nFp 3)).PacketAt 3 (nFp 3) :=
  ⟨by decide +kernel,
  by decide +kernel,
  ⟨by decide, by decide, by decide, by decide, by decide, by decide, by decide +kernel⟩,
  ⟨by decide, by decide, by decide, by decide, by decide, by decide, by decide +kernel⟩,
  ⟨by decide, by decide, by decide, by decide, by decide, by decide, by decide +kernel⟩,
  ⟨by decide, by decide, by decide, by decide, by decide, by decide, by decide +kernel⟩⟩

theorem test_meets_TaskFootprintCopyPackets_4 :
    (wFq (nFp 4)).PacketAt 3 (nFp 4)
    ∧ Packet (nFp 4) 8 false
    ∧ (bits (nFp 3) 127 68 = 0 ∧ bits (nFp 3) 191 185 = 0 ∧ bits (nFp 3) 255 224 = 0 ∧ bits (nFp 3) 319 313 = 0 ∧ bits (nFp 3) 383 373 = 0 ∧ bits (nFp 3) 511 441 = 0)
    ∧ (State.hubPut 1 0x6000 (rFp .valid).bytes (wFq (nFp 0))).isSome = true
    ∧ ((wFq (nFp 2 + 1 <<< 372 + 1 <<< 353)).dev.donGrant.contains (1, 2) = false ∧ bits (nFp 2 + 1 <<< 372 + 1 <<< 353) 371 352 = 2)
    ∧ ((wFq (nFp 2 + 1 <<< 372 + 1 <<< 353)).modDev (fun d => { d with donGrant := [(1, 2)] })).dev.donGrant.contains (1, 2) = true :=
  ⟨⟨by decide, by decide, by decide, by decide, by decide, by decide, by decide +kernel⟩,
  ⟨by decide, by decide, by decide⟩,
  by decide,
  by decide +kernel,
  by decide,
  by decide⟩

theorem test_meets_TaskFootprintCopyPackets_5 :
    (wQm nCp []).PacketAt 3 nCp
    ∧ Packet nCp 9 false
    ∧ (wQm nCp []).dev.copies.find? (fun o => o.queue == 3) = none
    ∧ (bits nCp 127 121 = 0 ∧ bits nCp 191 185 = 0 ∧ bits nCp 255 232 = 0 ∧ bits nCp 319 313 = 0 ∧ bits nCp 447 399 = 0 ∧ bits nCp 397 396 = 1 ∧ bits nCp 312 256 = 0)
    ∧ (wQm nCp []).ctrOk 1 (bits nCp 395 384) = true
    ∧ (wTs 2 []).poolRoom 1 1 = true :=
  ⟨⟨by decide, by decide, by decide, by decide, by decide, by decide, by decide +kernel⟩,
  ⟨by decide, by decide, by decide⟩,
  by decide,
  by decide,
  by decide,
  by decide +kernel⟩

theorem test_meets_TaskFootprintCopyPackets_6 :
    ((wTs 2 []).modCtx 1 (fun c => { c with taskPlaces := 0 })).poolRoom 1 1 = false
    ∧ ((wTs 2 []).modDev (fun d => { d with tasks := [⟨3, 0, 1, [rT2], false⟩] })).dev.tasks.find? (fun x => x.queue == 3) = some ⟨3, 0, 1, [rT2], false⟩
    ∧ (wHc 16 false).dev.copies.find? (fun o => o.queue == 3) = some (oHc 16 false)
    ∧ (wHc 80 true).dev.copies.find? (fun o => o.queue == 3) = some (oHc 80 true)
    ∧ ((wHc 0 false).ctx (oHc 0 false).pasid).state = .active
    ∧ ((oHc 0 false).finished = false ∧ (oHc 0 false).done < (oHc 0 false).len) :=
  ⟨by decide +kernel,
  by decide +kernel,
  by decide,
  by decide,
  by decide,
  by decide⟩

theorem test_meets_TaskFootprintCopyPackets_7 :
    ((wHc 0 false).hubFault 1 0x5000 false = none ∧ (wHc 0 false).hubFault 1 0x5FF0 true = none)
    ∧ ((wHc 0 false).hubKey 1 0x5000 false = some 0x5000 ∧ (wHc 0 false).hubKey 1 0x5FF0 true = some 0x5FF0)
    ∧ ((wHc 0 false).rangeBad 0x5000 16 = false ∧ (wHc 0 false).rangeBad 0x5FF0 16 = false) :=
  ⟨by decide +kernel,
  by decide +kernel,
  by decide⟩

/-- Launches of context 1 in stream order; one of a kernel of one tracked argument, whose record reads tiles 1 and 2 and writes tile 20, and earlier ones. -/
def wLa (l : List (Nat × Launch)) : State := { (wQm 0 []).modCtx 1 (fun c => { c with fp := [(fpPlace0 0x5000 0, { FpRec.zero with kern := 0x5000, hash := 0, state := .valid, read := [⟨0, 1, 2⟩], write := [⟨0, 20, 1⟩] })] }) with launches := l }
def kTr : Nat := kOk + 2 ^ 96 + 2 ^ 192
def xLa : Launch := { Launch.zero with id := 4, pasid := 1, queue := 3, desc := 0x5000, args := 0x6000, kern := kTr, launchid := 9, nx := 1 }
def xPr : Launch := { xLa with id := 3, admitted := true, started := true, fp := .checked, wset := [(3, 17)], rset := [(19, 1)], tag := 5 }
def xLate : Launch := { xPr with rset := [(20, 1)] }
def xGo : Launch := { xLa with admitted := true, started := true, kern := kOk, begun := 1 }
def xEnd : Launch := { xGo with begun := 2, ended := 2 }
/-- Workgroup 1 of launch 4 in its last state, and with a load still out. -/
def wEx (st : FStatus) : State := ((wLa [(4, xGo)]).modWg 1 (fun w => { w with launch := some 4 })).modMe (fun f => { f with status := st })
def wOut (st : WgState) : State := ((wEx .exited).modWg 1 (fun w => { w with state := st })).modMe (fun f => { f with pend := [xPd 1] })

theorem test_meets_LaunchLife :
    (wLa [(4, xLa)]).launches.any (fun e => e.1 == 4) = true
    ∧ (((wLa [(4, xLa)]).ctx ((wLa [(4, xLa)]).launch 4).pasid).state = .active ∧ ((wLa [(4, xLa)]).launch 4).started = false)
    ∧ (((wLa [(4, { xLa with admitted := true })]).launch 4).admitted = true ∧ ((wLa [(4, { xLa with admitted := true })]).launch 4).started = false)
    ∧ (∃ e ∈ (wLa [(3, { xPr with started := false }), (4, xLa)]).predsOf 4, e.2.started = false)
    ∧ (∀ e ∈ (wLa [(3, xPr), (4, xLa)]).predsOf 4, e.2.started = true)
    ∧ (wLa [(3, xPr), (4, xLa)]).freeTag = some 0 :=
  ⟨by decide,
  by decide,
  by decide,
  by decide,
  by decide,
  by decide⟩

theorem test_meets_LaunchLife_2 :
    (wLa [(4, xLa)]).predsOf 4 = []
    ∧ (((wLa [(3, xPr), (4, xLa)]).modLaunch 4 (fun x => { x with admitted := true, tag := BitVec.ofNat 8 0 })).admitRecord 4).predsOf 4 ≠ []
    ∧ (((wLa [(3, xPr), (4, xLa)]).modLaunch 4 (fun x => { x with admitted := true, tag := BitVec.ofNat 8 0 })).admitRecord 4).earlyTest 4 = true
    ∧ ((((wLa [(3, xLate), (4, xLa)]).modLaunch 4 (fun x => { x with admitted := true, tag := BitVec.ofNat 8 0 })).admitRecord 4).predsOf 4 ≠ [])
    ∧ ((((wLa [(3, xLate), (4, xLa)]).modLaunch 4 (fun x => { x with admitted := true, tag := BitVec.ofNat 8 0 })).admitRecord 4).earlyTest 4) = false
    ∧ ((((wLa [(3, xLate), (4, xLa)]).modLaunch 4 (fun x => { x with admitted := true, tag := BitVec.ofNat 8 0 })).admitRecord 4).hintTest 4) = false :=
  ⟨by decide,
  by decide +kernel,
  by decide +kernel,
  by decide +kernel,
  by decide +kernel,
  by decide +kernel⟩

theorem test_meets_LaunchLife_3 :
    ((wLa [(4, xGo)]).launches.any (fun e => e.1 == 4) = true ∧ xGo.started = true ∧ xGo.failed = false ∧ xGo.begun < xGo.total)
    ∧ (∀ w ∈ (wLa [(4, xGo)]).wgs, w.2.pasid = 1 → w.2.state ≠ .swapped)
    ∧ ((wLa [(4, xGo)]).dispatch 4 143).isSome = true
    ∧ (31 < ({ Workgroup.zero with nfib := 32 } : Workgroup).nfib ∧ 15 ∈ (⟨[3, 15], 0, 0, 0, 0⟩ : Place).slots)
    ∧ (((wEx .exited).wg 1).launch = some 4 ∧ ((wEx .exited).wg 1).state = .running)
    ∧ ((wEx .exited).allExited 1 = true ∧ (wEx .exited).wgQuiet 1 = true) :=
  ⟨by decide,
  by decide,
  by decide +kernel,
  by decide,
  by decide,
  by decide⟩

theorem test_meets_LaunchLife_4 :
    (wEx .ready).allExited 1 = false
    ∧ ((wEx .exited).wgLanded 1 = true ∧ (wOut .running).wgLanded 1 = false ∧ (wOut .running).allExited 1 = true ∧ (wOut .running).wgQuiet 1 = true)
    ∧ (((wOut .ended).wg 1).state = .ended ∧ (wOut .ended).wgs.any (fun e => e.1 == 1) = true ∧ ((wOut .ended).wg 1).launch = some 4)
    ∧ (wLa [(4, xEnd)]).mayConfirm 4 = true
    ∧ (wLa [(4, { xGo with failed := true, ended := 1 })]).mayConfirm 4 = true
    ∧ (wLa [(3, xPr), (4, xEnd)]).mayConfirm 4 = false :=
  ⟨by decide,
  by decide,
  by decide,
  by decide,
  by decide,
  by decide⟩

theorem test_meets_LaunchLife_5 :
    (((wLa [(4, xEnd)]).launch 4).failed = false ∧ ((wLa [(4, xEnd)]).launch 4).sigs = [] ∧ ((wLa [(4, xEnd)]).launch 4).sop = 0)
    ∧ (((wLa [(4, { xEnd with darnMarked := true })]).launch 4).completed = true ∧ (wLa [(4, { xEnd with darnMarked := true })]).predsOf 4 = [] ∧ ((wLa [(4, { xEnd with darnMarked := true })]).launch 4).darnMarked = true)
    ∧ ((wLa [(4, xEnd)]).launch 4).darnMarked = false :=
  ⟨by decide,
  by decide,
  by decide⟩

/-- A pool of two records of context 1, in memory with a kernel of one fibre at 0x5080. -/
def wPl (l : List PoolRec) : State := (wQm 0 [0, 0, 2 ^ 71 + 31 * 2 ^ 111]).modCtx 1 (fun c => { c with pool := l, taskPlaces := 8 })
/-- A counter block of one arrival at 0x5000 that names a record, with a task record and its kernel after it, and a host page without an answer at 0x40000000. -/
def wHo (rec_ : Nat) : State := let s := wQm 0 [1 + rec_ <<< 64, rT2, 2 ^ 71 + 31 * 2 ^ 111]; { s with mem := wrBytes s.mem 0x12008 (toBytes 8 0x4000004F) }
/-- Workgroup 1 as a task in a step of its commit, with fibre 32 in one status. -/
def tkW (g : Workgroup → Workgroup) (st : FStatus) : State := ((wPl []).modWg 1 (fun w => g { w with isTask := true, task := rT2, place := 2, tkend := true, stageSize := 4096 })).modMe (fun f => { f with status := st })

theorem test_meets_TaskLife :
    nextTask [⟨0, rT2⟩, ⟨1, rT2 + 255 <<< 416⟩] = some ⟨1, rT2 + 255 <<< 416⟩
    ∧ (∀ w ∈ (wPl [⟨0, rT2⟩]).wgs, w.2.pasid = 1 → w.2.state ≠ .swapped)
    ∧ nextTask ((wPl [⟨0, rT2⟩]).ctx 1).pool = some ⟨0, rT2⟩
    ∧ ((wPl [⟨0, rT2⟩]).ctx 1).state = .active
    ∧ (wPl [⟨0, rT2⟩]).hubNum 1 (tEntry rT2) 64 = some (2 ^ 71 + 31 * 2 ^ 111)
    ∧ (kBad (2 ^ 71 + 31 * 2 ^ 111) = false ∧ kTask (2 ^ 71 + 31 * 2 ^ 111) = true ∧ kTask (31 * 2 ^ 111) = false) :=
  ⟨by decide +kernel,
  by decide +kernel,
  by decide +kernel,
  by decide +kernel,
  by decide +kernel,
  by decide +kernel⟩

theorem test_meets_TaskLife_2 :
    (wPl [⟨0, rT2⟩]).hubNum 1 (kArgmap (2 ^ 71 + 31 * 2 ^ 111)) (2 * kNargs (2 ^ 71 + 31 * 2 ^ 111)) = some 0
    ∧ ((wPl [⟨0, rT2⟩]).hubGet 1 (tArgs rT2) (8 * kNargs (2 ^ 71 + 31 * 2 ^ 111))).isSome = true
    ∧ (wPl [⟨0, rT2⟩]).taskNeverFits 1 rT2 = false
    ∧ ((wPl [⟨0, rBig⟩]).taskNeverFits 1 rBig = true ∧ nextTask ((wPl [⟨0, rBig⟩]).ctx 1).pool = some ⟨0, rBig⟩)
    ∧ ((wPl [⟨0, rT2⟩]).placeOn 143 1 1 (2016 * 1024) 0 0 0).isSome = true
    ∧ ((wPl []).ctx 1).pool = [] :=
  ⟨by decide +kernel,
  by decide +kernel,
  by decide +kernel,
  by decide +kernel,
  by decide +kernel,
  by decide⟩

theorem test_meets_TaskLife_3 :
    ((wPl [⟨0, rT2⟩]).splitRoom 1 = true ∧ ((wPl [⟨0, rT2⟩]).modCtx 1 (fun c => { c with taskPlaces := 2 })).splitRoom 1 = false)
    ∧ (((tkW id .exited).wg 1).isTask = true ∧ (tkW id .exited).allExited 1 = true ∧ ((tkW id .exited).wg 1).waits = false ∧ ((tkW id .exited).wg 1).state = .running)
    ∧ (((tkW id .exited).wg 1).tkend = true ∧ (tkW id .exited).wgLoadsBack 1 = true ∧ (tkW id .exited).wgQuiet 1 = true)
    ∧ (((tkW (fun w => { w with tkend := false, state := .committing }) .exited).wg 1).tkend = false ∧ ((tkW (fun w => { w with tkend := false, state := .committing }) .exited).wg 1).state = .committing)
    ∧ (¬(((wBuf false false).wgLoadsBack 1 = true ∧ (wBuf false false).wgQuiet 1 = true)))
    ∧ ((tkW (fun w => { w with step := 1, staged := [⟨0x5FFE, [1, 2], 0⟩] }) .exited).check 0 1 accWrite 2 1 (fun _ => true) 0x5FFE) = .miss 5 :=
  ⟨by decide +kernel,
  by decide,
  by decide,
  by decide,
  by decide,
  by decide⟩

theorem test_meets_TaskLife_4 :
    (((tkW (fun w => { w with step := 1, staged := [⟨0x0FFE, [1, 2], 0⟩] }) .exited).check 0 1 accWrite 2 1 (fun _ => true) 0x0FFE)) = .ok [(0xFFE, 2, 0xF)]
    ∧ (tkW (fun w => { w with step := 1, staged := [⟨0x0FFE, [1, 2], 0⟩] }) .exited).rangeBad 0x0FFE 2 = false
    ∧ (tkW (fun w => { w with step := 3, stagedRecs := [rT2] }) .exited).poolRoom 1 1 = true
    ∧ (((tkW (fun w => { w with step := 2 }) .exited).wg 1).step = 2 ∧ ((tkW (fun w => { w with step := 2 }) .exited).wg 1).sigs = [])
    ∧ tSucc ((tkW id .exited).wg 1).task = 0
    ∧ (bits (rdNum (wBuf false false).mem 0x900 16) 31 0 = 0 ∧ bits (rdNum (wQm 0 [2]).mem 0x5000 16) 31 0 ≠ 0 ∧ bits (rdNum (wQm 0 [2]).mem 0x5000 16) 31 0 ≠ 1) :=
  ⟨by decide,
  by decide,
  by decide +kernel,
  by decide,
  by decide +kernel,
  by decide +kernel⟩

theorem test_meets_TaskLife_5 :
    (bits (rdNum (wQm 0 [1 + 64 * 2 ^ 64]).mem 0x5000 16) 31 0 = 1 ∧ bits (rdNum (wQm 0 [1 + 64 * 2 ^ 64]).mem 0x5000 16) 120 64 ≠ 0 ∧ ((wQm 0 [1 + 64 * 2 ^ 64]).modCtx 1 (fun c => { c with taskPlaces := 0 })).poolRoom 1 1 = false)
    ∧ (bits (rdNum (wHo 0x40000000).mem 0x5000 16) 31 0 = 1 ∧ bits (rdNum (wHo 0x40000000).mem 0x5000 16) 120 64 = 0x40000000)
    ∧ (wHo 0x40000000).hubFault 1 0x40000000 false = some (.translation, 2)
    ∧ ((wHo 0x5040).hubFault 1 0x5040 false ≠ some (.translation, 2) ∧ (wHo 0x5040).hubNum 1 0x5040 64 = some rT2)
    ∧ ((wHo 0x5040).recordWaits 1 rT2 = false ∧ (wHo 0x5040).recordOk 1 rT2 = true)
    ∧ (tTime ((tkW (fun w => { w with task := rT2 + 1 <<< 320, timeAcc := 1024 }) .ready).wg 1).task ≠ 0 ∧ tTime ((tkW (fun w => { w with task := rT2 + 1 <<< 320, timeAcc := 1024 }) .ready).wg 1).task ≤ (tkW (fun w => { w with task := rT2 + 1 <<< 320, timeAcc := 1024 }) .ready).timeUsed ((tkW (fun w => { w with task := rT2 + 1 <<< 320, timeAcc := 1024 }) .ready).wg 1)) :=
  ⟨by decide +kernel,
  by decide +kernel,
  by decide +kernel,
  by decide +kernel,
  by decide +kernel,
  by decide +kernel⟩

theorem test_meets_TaskLife_6 :
    (tkW id .ready).allExited 1 = false
    ∧ (tkW (fun w => { w with timeAcc := 1023 }) .ready).timeUsed ((tkW (fun w => { w with timeAcc := 1023 }) .ready).wg 1) < tTime (rT2 + 1 <<< 320)
    ∧ (((tkW (fun w => { w with state := .unpicking }) .ready).wg 1).waits = false ∧ ((tkW (fun w => { w with state := .unpicking }) .ready).wg 1).state = .unpicking ∧ (tkW (fun w => { w with state := .unpicking }) .ready).wgLoadsBack 1 = true ∧ (tkW (fun w => { w with state := .unpicking }) .ready).wgQuiet 1 = true)
    ∧ (parks ((tkW id .ready).wg 1).task = false ∧ splitDim ((tkW id .ready).wg 1).task = some 0 ∧ parks (rT2 + 2 ^ 58) = true)
    ∧ (tDepth (rT2 + 14 * 2 ^ 252) < 15 ∧ tPos rT2 0 + tExt rT2 0 < 65536) :=
  ⟨by decide,
  by decide +kernel,
  by decide,
  by decide +kernel,
  by decide +kernel⟩

/-- Fibre 32 has one parked entry of call 1; its off-core place is at 0x100000; reply ring of four places at 0x2000 with the reply `n`. -/
def wOf (n : Nat) (res : Bool) : State :=
  (({ wM with mem := tables (wrBytes [] 0x20C0 (toBytes 64 n)) } : State).modMe (fun f => { f with frontier := [⟨.parked, 0, 4, 0, 5, 0, true, 1, 0, false, 0⟩], resident := res, imageAt := 0x100000 })).modCtx 1
    (fun c => { c with root := 0x10000, offcore := 0x100000, repRing := ⟨0x2000, 4, 4, 3⟩, calls := [⟨1, 32, 8, 5, if res then 0 else 5⟩] })
/-- The reply to lane 2 of call 1, and the fibre away with its image in its place. -/
def nRp : Nat := 1 + 2 * 2 ^ 32 + 0xABCD * 2 ^ 256 + 0x1234 <<< 480
def wAw : State := { wOf 0 false with mem := [(0, 1), (2, 1), (16, 255), (17, 255), (25, 4), (26, 1), (0x602, 16), (0x608, 255), (0x609, 255), (508, 58), (509, 222), (510, 220), (511, 137)].foldl (fun m p => wr8 m (0x100000 + p.1) (BitVec.ofNat 8 p.2)) (tables []) }
/-- The same with its place in a host page that ATS has not answered for. -/
def wOh : State := let s := (wOf 0 true).modCtx 1 (fun c => { c with offcore := 0x40000000 }); { s with mem := wrBytes s.mem 0x12008 (toBytes 8 0x4000004F) }

/-! #### Reading the image of `wAw`, and writing one of `wOf`. -/

/-- The first 512 bytes of the image: format 1, PASID 1, granules granted, the window, and their check value. -/
def hdAw : List Byte := toBytes 32 (1 + 2 ^ 16 + 0xFFFF <<< 128 + 16 <<< 198 + 2 ^ 208)

/-- CRC-32C over zero bits, as a number that is evaluated at each of them. -/
def zeroBits : Nat → Nat → Nat
  | 0, c => c
  | n + 1, 0 => zeroBits n 0
  | n + 1, c + 1 => zeroBits n ((c + 1) / 2 ^^^ (c + 1) % 2 * 0x82F63B78)

theorem crcBit_toNat (c : Word) : (crcBit c).toNat = c.toNat / 2 ^^^ c.toNat % 2 * 0x82F63B78 := by
  unfold crcBit
  have b : c.getLsbD 0 = true ↔ c.toNat % 2 = 1 := by simp [BitVec.getLsbD, Nat.testBit_zero]
  split
  · next h => rw [b.mp h, BitVec.toNat_xor, BitVec.toNat_ushiftRight, Nat.shiftRight_one]; rfl
  · next h => rw [show c.toNat % 2 = 0 by have := mt b.mpr h; omega, BitVec.toNat_ushiftRight, Nat.shiftRight_one]; simp

theorem zeroBits_succ (n c : Nat) : zeroBits (n + 1) c = zeroBits n (c / 2 ^^^ c % 2 * 0x82F63B78) := by
  cases c <;> rfl

theorem zeros_crc (n : Nat) : ∀ c : Word, (List.replicate n (0 : Byte)).foldl crcByte c = BitVec.ofNat 32 (zeroBits (8 * n) c.toNat) := by
  induction n with
  | zero => intro c; simp [zeroBits]
  | succ n ih =>
    intro c
    rw [List.replicate_succ, List.foldl_cons, ih, Nat.mul_add]
    simp only [crcByte, Nat.mul_one, zeroBits_succ, ← crcBit_toNat]
    simp

theorem aw_crc : crc32c (hdAw ++ List.replicate 476 0) = 0x89DCDE3A := by
  unfold crc32c
  rw [List.foldl_append, show List.foldl crcByte (BitVec.ofNat 32 0xFFFFFFFF) hdAw = (0x89011398 : Word) from by decide +kernel, zeros_crc]
  decide +kernel

/-- A state whose memory holds such an image at 0x100000, all its other bytes but the fibre's control zero, in pages that the hub die reads. -/
structure Imaged (s : State) : Prop where
  page : ∀ va ∈ [0x100000, 0x101000, 0x102000, 0x103000, 0x104000, 0x105000], s.hubKey 1 va false 4096 = some va
  pasid : (s.wg (s.fibre 32).wg).pasid = 1
  head : rdBytes s.mem 0x100000 512 = hdAw ++ (List.replicate 476 0 ++ [58, 222, 220, 137])
  low : ∀ e ∈ s.mem, e.1 < 0x100200 ∨ (0x100600 ≤ e.1 ∧ e.1 < 0x100700) ∨ 0x106000 ≤ e.1

/-- The bytes of the image. -/
def pagesAw (s : State) : List Byte := rdBytes s.mem 0x100000 4096 ++ (rdBytes s.mem 0x101000 4096 ++ (rdBytes s.mem 0x102000 4096
    ++ (rdBytes s.mem 0x103000 4096 ++ (rdBytes s.mem 0x104000 4096 ++ (rdBytes s.mem 0x105000 4096 ++ [])))))

theorem Imaged.get {s : State} (h : Imaged s) : s.hubGet 1 0x100000 24576 = some (pagesAw s) := by
  have k := h.page
  simp only [List.mem_cons, List.not_mem_nil, or_false, forall_eq_or_imp, forall_eq] at k
  obtain ⟨a0, a1, a2, a3, a4, a5⟩ := k
  simp [pagesAw, State.hubGet, State.hubGetN, a0, a1, a2, a3, a4, a5]

theorem rdBytes_append (m : List Host.Cell) (k a b : Nat) : rdBytes m k (a + b) = rdBytes m k a ++ rdBytes m (k + a) b := by
  simp [rdBytes, List.range_add, Nat.add_assoc, Function.comp_def]

theorem pagesAw_eq (s : State) : pagesAw s = rdBytes s.mem 0x100000 24576 := by
  rw [show 24576 = 4096 + (4096 + (4096 + (4096 + (4096 + 4096)))) from rfl]
  simp only [pagesAw, rdBytes_append, List.append_nil]

theorem take_drop_rdBytes (m : List Host.Cell) {k n i j : Nat} (h : i + j ≤ n) : ((rdBytes m k n).drop i).take j = rdBytes m (k + i) j := by
  obtain ⟨c, rfl⟩ := Nat.exists_eq_add_of_le h
  rw [Nat.add_assoc, rdBytes_append, List.drop_append_of_le_length (by simp [rdBytes]), List.drop_of_length_le (by simp [rdBytes]), List.nil_append, rdBytes_append,
    List.take_append_of_le_length (by simp [rdBytes]), List.take_of_length_le (by simp [rdBytes])]

theorem rd8_absent {k : Nat} : ∀ {m : List Host.Cell}, (∀ e ∈ m, e.1 ≠ k) → rd8 m k = 0
  | [], _ => rfl
  | e :: m, h => by
    rw [rd8, Sparse.get, if_neg (by simpa using Ne.symm (h e (by simp)))]
    exact rd8_absent fun x hx => h x (by simp [hx])

theorem Imaged.zero {s : State} (h : Imaged s) {i j : Nat} (a : 512 ≤ i) (b : i + j ≤ 24576) (c : i + j ≤ 0x600 ∨ 0x700 ≤ i) : ((pagesAw s).drop i).take j = List.replicate j 0 := by
  rw [pagesAw_eq, take_drop_rdBytes _ b]
  refine List.eq_replicate_iff.mpr ⟨by simp [rdBytes], fun x hx => ?_⟩
  obtain ⟨q, hq, rfl⟩ := List.mem_map.mp hx
  have := List.mem_range.mp hq
  exact rd8_absent fun e he => by have := h.low e he; omega

theorem ofBytes_zero (n : Nat) : ofBytes (List.replicate n 0) = 0 := by
  induction n with
  | zero => rfl
  | succ n ih => rw [List.replicate_succ, ofBytes, ih]; rfl

theorem Imaged.first {s : State} (h : Imaged s) : (pagesAw s).take 508 = hdAw ++ List.replicate 476 0 := by
  have e := congrArg (List.take 508) h.head
  rw [show rdBytes s.mem 0x100000 512 = ((rdBytes s.mem 0x100000 24576).drop 0).take 512 from (take_drop_rdBytes s.mem (k := 0x100000) (n := 24576) (i := 0) (j := 512) (by omega)).symm, List.drop_zero, List.take_take] at e
  rw [pagesAw_eq, show 508 = min 508 512 from rfl, e]
  decide +kernel

theorem Imaged.check {s : State} (h : Imaged s) : ofBytes (((pagesAw s).drop 508).take 4) = (crc32c ((pagesAw s).take 508)).toNat := by
  have e : ((rdBytes s.mem 0x100000 512).drop 508).take 4 = _ := congrArg (fun l => (List.drop 508 l).take 4) h.head
  rw [take_drop_rdBytes _ (by decide)] at e
  rw [h.first, aw_crc, pagesAw_eq, take_drop_rdBytes _ (by decide), e]
  decide +kernel

theorem Imaged.bits {s : State} (h : Imaged s) : let n := ofBytes ((pagesAw s).take 508)
    bits n 15 0 = 1 ∧ bits n 35 16 = 1 ∧ bits n 191 128 = 0xFFFF ∧ bits n 197 192 = 0 ∧ bits n 202 198 = 16 := by
  rw [h.first]
  decide +kernel

theorem Imaged.units {s : State} (h : Imaged s) {a k n : Nat} (ha : 512 ≤ a) (hb : a + k * n ≤ 24576) (hc : a + k * n ≤ 0x600 ∨ 0x700 ≤ a) : ∀ x ∈ unpack (pagesAw s) a k n, x = 0 := by
  intro x hx
  obtain ⟨q, hq, rfl⟩ := List.mem_map.mp hx
  have := List.mem_range.mp hq
  have : k * (q + 1) ≤ k * n := Nat.mul_le_mul_left k this
  rw [Nat.mul_add] at this
  rw [h.zero (by omega) (by omega) (by omega), ofBytes_zero]

theorem filterMap_none {α β : Type} {f : α → Option β} : ∀ {l : List α}, (∀ x ∈ l, f x = none) → l.filterMap f = [] := by
  intro l h
  exact List.filterMap_eq_nil_iff.mpr h

/-- The image is read; no lane is in it, and only a fibre with another window finds it bad. -/
theorem Imaged.ok {s : State} (h : Imaged s) : ∃ b d, s.hubGet 1 0x100000 24576 = some b ∧ ofBytes ((b.drop 508).take 4) = (crc32c (b.take 508)).toNat
    ∧ s.readImage 32 0x100000 = some d ∧ d.size = 16
    ∧ (rdBytes s.mem 0x100601 255 = ((s.fibre 32).control 0).drop 1 → (s.fibre 32).lookahead = List.replicate 4096 0 → (s.fibre 32).granted = 0xFFFF → (s.fibre 32).base = 0 → (s.fibre 32).size = 16 → s.imageBad 32 b d = false) := by
  obtain ⟨f, p, g, base, size⟩ := h.bits
  have fr : (unpack (pagesAw s) 0x500 32 8).filterMap (Entry.ofImage (s.fibre 32).frontier) = [] :=
    filterMap_none fun x hx => by rw [h.units (by decide) (by decide) (by decide) x hx]; rfl
  have sp : (unpack (pagesAw s) 0x800 16 32).filterMap spillOf = [] := filterMap_none fun x hx => by rw [h.units (by decide) (by decide) (by decide) x hx]; rfl
  obtain ⟨d, e, e1, e2, e3, e4, e5⟩ : ∃ d, s.readImage 32 0x100000 = some d ∧ d.size = 16 ∧ d.granted = 0xFFFF ∧ d.base = 0 ∧ d.frontier = [] ∧ d.spilled = [] := by
    unfold State.readImage
    simp only [h.pasid, h.get]
    rw [if_neg (by rw [h.check, f, p]; simp)]
    exact ⟨_, rfl, size, by rw [g]; rfl, base, fr, sp⟩
  refine ⟨pagesAw s, d, h.get, h.check, e, e1, fun k l a b c => ?_⟩
  simp only [State.imageBad, e1, e2, e3, e4, e5, a, b, c]
  rw [h.zero (i := 0x1000) (j := 4096) (by omega) (by omega) (by omega), l, pagesAw_eq, take_drop_rdBytes _ (by omega), ← k]
  simp [lanesIn]

theorem aw_imaged : Imaged wAw := ⟨by decide +kernel, by decide, by decide +kernel, by decide⟩

theorem aw_image : (wAw.readImage 32 (wAw.offPlace 32)).isSome = true := by
  obtain ⟨b, d, -, -, h, -⟩ := aw_imaged.ok
  rw [show wAw.offPlace 32 = 0x100000 from by decide, h]
  rfl

/-- Page tables of context 1 as `tables` writes them: one leaf for the first 2^30 bytes. -/
structure Tabled (t : State) : Prop where
  root : (t.ctx 1).root = 0x10000
  sound : leafBad t.dev.cfg (BitVec.ofNat 64 0xF) 30 = false
  top : rdNum t.mem 0x10000 8 = 0x11001
  mid : rdNum t.mem 0x11000 8 = 0x12001
  leaf : rdNum t.mem 0x12000 8 = 0xF

theorem writeSector_rest (s : State) (k : Nat) (d : List Byte) : (s.writeSector k d).ctxs = s.ctxs ∧ (s.writeSector k d).dev.cfg = s.dev.cfg := by
  unfold State.writeSector
  repeat' split
  all_goals exact ⟨rfl, rfl⟩

theorem homeWriteN_rest (n : Nat) : ∀ (s : State) (k : Nat) (d : List Byte), (State.homeWriteN n s k d).ctxs = s.ctxs ∧ (State.homeWriteN n s k d).dev.cfg = s.dev.cfg := by
  induction n with
  | zero => exact fun s k d => ⟨rfl, rfl⟩
  | succ n ih =>
    intro s k d
    unfold State.homeWriteN
    split
    · exact ⟨rfl, rfl⟩
    · obtain ⟨a, b⟩ := ih (s.writeSector k (d.take (64 - k % 64))) (k + (64 - k % 64)) (d.drop (64 - k % 64))
      obtain ⟨a', b'⟩ := writeSector_rest s k (d.take (64 - k % 64))
      exact ⟨a.trans a', b.trans b'⟩

theorem rdNum_homeWrite {s : State} {k a : Nat} (d : List Byte) (h : a + 8 ≤ k) : rdNum (s.homeWrite k d).mem a 8 = rdNum s.mem a 8 := by
  unfold rdNum rdBytes
  congr 1
  exact List.map_congr_left fun i hi => State.homeWriteN_out (Or.inl (by have := List.mem_range.mp hi; omega))

/-- Translation and configuration are the same. -/
def SameMap (s t : State) : Prop := t.ctxs = s.ctxs ∧ t.dev.cfg = s.dev.cfg

theorem SameMap.trans {a b c : State} (h : SameMap a b) (g : SameMap b c) : SameMap a c := ⟨g.1.trans h.1, g.2.trans h.2⟩

theorem roomL2_cfg (d : Dev) (l : Nat) : (d.roomL2 l).cfg = d.cfg := by
  unfold Dev.roomL2
  dsimp only
  repeat' split
  all_goals rfl

theorem touchL2_rest (s : State) (c : Nat) (w : Bool) (k n : Nat) : SameMap s (s.touchL2 c w k n) := by
  refine ⟨rfl, ?_⟩
  show (if _ then _ else _ : Dev).cfg = _
  split
  · exact roomL2_cfg _ _
  · rfl

theorem modDev_rest (s : State) (f : Dev → Dev) (h : ∀ d, (f d).cfg = d.cfg) : SameMap s (s.modDev f) := ⟨rfl, h _⟩

theorem logEvent_rest (s : State) (x : LogKind) (a d : Nat) : SameMap s (s.logEvent x a d) := by
  unfold State.logEvent
  exact modDev_rest { s with tick := s.tick + 1 } _ fun _ => rfl

theorem lockLine_rest (s : State) (page k : Nat) (leaf : Word64) : SameMap s (s.lockLine page k leaf) := by
  unfold State.lockLine
  dsimp only
  split
  · exact ⟨rfl, rfl⟩
  · split
    · exact ⟨rfl, rfl⟩
    · exact logEvent_rest _ _ _ _

theorem noteL2_rest (s : State) (leaf : Word64) (c : Nat) (w : Bool) (k n : Nat) : SameMap s (s.noteL2 leaf c w k n) := by
  unfold State.noteL2
  split
  · exact touchL2_rest _ _ _ _ _
  · exact ⟨rfl, rfl⟩

theorem touchPage_rest (s : State) (page c : Nat) (leaf : Word64) (w : Bool) (k n : Nat) : SameMap s (s.touchPage page c leaf w k n) := by
  unfold State.touchPage
  generalize lineParts k n = l
  induction l generalizing s with
  | nil => exact ⟨rfl, rfl⟩
  | cons p l ih => exact SameMap.trans (SameMap.trans (lockLine_rest s page p.1 leaf) (noteL2_rest _ leaf c w p.1 p.2)) (ih _)

theorem reqPeer_rest (s : State) (c k : Nat) : SameMap s (s.reqPeer c k) := by
  unfold State.reqPeer State.send
  repeat' split
  all_goals exact ⟨rfl, rfl⟩

theorem hubTouch_rest (s : State) (p va : Nat) (w : Bool) (k n : Nat) : SameMap s (s.hubTouch p va w k n) := by
  unfold State.hubTouch
  split
  · exact SameMap.trans (touchPage_rest s _ _ _ w k n) (reqPeer_rest _ _ _)
  · exact ⟨rfl, rfl⟩

theorem Tabled.touch {t : State} (m : Tabled t) (va : Nat) (w : Bool) (k n : Nat) : Tabled (t.hubTouch 1 va w k n) := by
  obtain ⟨a, b⟩ := hubTouch_rest t 1 va w k n
  have c : (t.hubTouch 1 va w k n).mem = t.mem := State.hubTouch_mem
  exact ⟨(by unfold State.ctx; rw [a]; exact m.root), (by rw [b]; exact m.sound), (by rw [c]; exact m.top), (by rw [c]; exact m.mid), (by rw [c]; exact m.leaf)⟩

theorem Tabled.write {t : State} (m : Tabled t) (k : Nat) (d : List Byte) (h : 0x12008 ≤ k) : Tabled (t.homeWrite k d) := by
  obtain ⟨a, b⟩ := homeWriteN_rest (d.length / 64 + 2) t k d
  exact ⟨(by unfold State.ctx State.homeWrite; rw [a]; exact m.root), (by unfold State.homeWrite; rw [b]; exact m.sound), (rdNum_homeWrite d (by omega)).trans m.top,
    (rdNum_homeWrite d (by omega)).trans m.mid, (rdNum_homeWrite d (by omega)).trans m.leaf⟩

theorem Tabled.walk {t : State} (m : Tabled t) {v : Nat} (hv : v < 512 ^ 2) : t.walk 1 v = (.ok, BitVec.ofNat 64 0xF, v) := by
  obtain ⟨r, l, a, b, e⟩ := m
  have z : v % 512 ^ 2 = v := Nat.mod_eq_of_lt hv
  have z4 : v / 512 ^ 4 % 512 = 0 := by omega
  have z3 : v / 512 ^ 3 % 512 = 0 := by omega
  have z2 : v / 512 ^ 2 % 512 = 0 := by omega
  unfold State.walk
  rw [r, walkFrom, z4, show 0x10000 + 8 * 0 = 0x10000 from rfl, a, if_neg (by decide), if_pos (by decide), if_neg (by decide), show fieldB (BitVec.ofNat 64 0x11001) 51 12 * 4096 = 0x11000 from by decide,
    walkFrom, z3, show 0x11000 + 8 * 0 = 0x11000 from rfl, b, if_neg (by decide), if_pos (by decide), if_neg (by decide), show fieldB (BitVec.ofNat 64 0x12001) 51 12 * 4096 = 0x12000 from by decide,
    walkFrom, z2, show 0x12000 + 8 * 0 = 0x12000 from rfl, e, if_neg (by decide), if_neg (by decide), if_neg (by decide), if_neg (by rw [show 12 + 9 * 2 = 30 from rfl, l]; decide), z]
  simp [fieldB, bits]

theorem Tabled.place {t : State} (m : Tabled t) {va : Nat} (h : va < 2 ^ 30) (w : Bool) (n : Nat) : t.hubPlace 1 va w n = some va := by
  unfold State.hubPlace
  rw [if_neg (by omega), m.walk (by omega)]
  cases w <;> simp [Dev.pageKey, fieldB, bits] <;> omega

theorem Tabled.key {t : State} (m : Tabled t) {va : Nat} (h : va < 2 ^ 30) (n : Nat) (g : t.rangeBad va n = false) : t.hubKey 1 va false n = some va := by
  unfold State.hubKey
  rw [m.place h]
  simp [g]

/-- The state whose fibre is about to leave its place. -/
def wLv : State := (wOf 0 true).modFibre 32 (fun y => { y with home := 0, imageAt := 0x100000 })

theorem Tabled.put (n : Nat) : ∀ (i : Nat) (d : List Byte) (t : State), Tabled t → d.length ≤ 4096 * (6 - i) → (State.hubWriteN 1 true n (0x100000 + 4096 * i) d t).isSome = true := by
  induction n with
  | zero => exact fun i d t m h => rfl
  | succ n ih =>
    intro i d t m h
    unfold State.hubWriteN
    split
    · rfl
    · rename_i hd
      have hl : 0 < d.length := by cases d with | nil => simp at hd | cons b l => simp
      have hi : i < 6 := by omega
      have hr : 4096 - (0x100000 + 4096 * i) % 4096 = 4096 := by omega
      simp only [m.place (show 0x100000 + 4096 * i < 2 ^ 30 by omega), hr]
      rw [show 0x100000 + 4096 * i + 4096 = 0x100000 + 4096 * (i + 1) from by omega]
      exact ih (i + 1) _ _ ((m.write _ _ (by omega)).touch _ _ _ _) (by simp; omega)

theorem toBytes_length (n x : Nat) : (toBytes n x).length = n := by simp [toBytes]

theorem packBytes_length (k : Nat) (l : List Nat) : (packBytes k l).length = k * l.length := by
  simp [packBytes, List.length_flatMap, toBytes_length, Nat.mul_comm]

theorem lv_length : ((wLv.imageLow 32) ++ (wLv.imageHigh 32)).length ≤ 24576 := by
  have s : (wLv.fibre 32).spilled = [] := by decide
  have z : (wLv.fibre 32).size = 16 := by decide
  have c : ((wLv.fibre 32).control (wLv.fibreClock 32)).length = 256 := by decide +kernel
  have l : (wLv.fibre 32).lookahead.length = 4096 := by decide +kernel
  simp [State.imageLow, State.imageHead, State.imageHigh, toBytes_length, packBytes_length, s, z, c, l, List.length_flatMap]
  rw [show (fun a => List.length _) = fun _ : Nat => 128 from funext fun a => by split <;> simp [packBytes_length, toBytes_length]]
  simp

theorem lv_image : (wLv.writeImage 32 0x100000).isSome = true := by
  have p : (wLv.wg (wLv.fibre 32).wg).pasid = 1 := by decide
  unfold State.writeImage State.hubPut
  rw [p]
  exact Tabled.put _ 0 _ wLv ⟨by decide, by decide +kernel, by decide +kernel, by decide +kernel, by decide +kernel⟩ lv_length

theorem test_meets_OffCoreAndReplies :
    (wOh.unasked 1 (wOh.placeNo 32).2 24576 = some 0x40000000 ∧ wOh.sharesGranule 32 = false)
    ∧ ((wOf 0 true).modFibre 32 (fun x => { x with status := .atFbar })).me.status = .atFbar
    ∧ (∀ k ∈ ((wOf nRp true).ctx 1).calls, k.tag.toNat = bits nRp 31 0 → ((wOf nRp true).fibre k.fib).resident = true ∧ ((wOf nRp true).fibre k.fib).extracted = false)
    ∧ ((wOf nRp true).wg ((wOf nRp true).fibre 32).wg).state ≠ .swapped
    ∧ (((wOf 0 true).fibre 32).resident = true ∧ ((wOf 0 true).fibre 32).status ≠ .exited ∧ ((wOf 0 true).fibre 32).noMove = false ∧ ((wOf 0 true).fibre 32).noRun = true)
    ∧ (((wOf 0 true).fibre 32).frontier.any (fun e => e.svc) = true ∧ ((wOf 0 true).fibre 32).outst = [] ∧ ((wOf 0 true).fibre 32).loadsBack = true) :=
  ⟨by decide +kernel,
  by decide,
  by decide,
  by decide,
  by decide,
  by decide⟩

theorem test_meets_OffCoreAndReplies_2 :
    (((wOf 0 true).wg 1).state = .running ∧ ((wOf 0 true).ctx 1).state = .active ∧ (wOf 0 true).placeTaken 32 = false)
    ∧ (wOf 0 true).sharesGranule 32 = false
    ∧ ((wOf 0 true).setFibre 33 { (wOf 0 true).me with pos := 1 }).sharesGranule 32 = true
    ∧ ((wOf 0 true).unasked 1 ((wOf 0 true).placeNo 32).2 24576 = none ∧ wAw.unasked 1 (wAw.offPlace 32) 24576 = none)
    ∧ (wLv.writeImage 32 0x100000).isSome = true
    ∧ (((wOf 0 false).fibre 40).resident = false ∧ ∀ e ∈ ((wOf 0 false).fibre 40).frontier, e.svc = false) :=
  ⟨by decide,
  by decide,
  by decide,
  by decide +kernel,
  lv_image,
  by decide⟩

theorem test_meets_OffCoreAndReplies_3 :
    (({ wOf 0 false with ctxs := [] } : State).ctx 1).calls = []
    ∧ ((wAw.fibre 32).resident = false ∧ (wAw.fibre 32).status ≠ .exited ∧ (wAw.fibre 32).extracted = false ∧ (wAw.ctx 1).state = .active)
    ∧ (wAw.ctx 1).calls.find? (fun k => k.fib == 32 && k.answered == k.lanes) = some ⟨1, 32, 8, 5, 5⟩
    ∧ wAw.returnPlace 32 = some (0, 0)
    ∧ (wAw.readImage 32 (wAw.offPlace 32)).isSome = true
    ∧ (((wOf nRp true).ctx 1).repRing.head ≠ ((wOf nRp true).ctx 1).repRing.tail ∧ ((wOf nRp true).ctx 1).repRing.size ≠ 0) :=
  ⟨by decide,
  by decide,
  by decide,
  by decide,
  aw_image,
  by decide⟩

theorem test_meets_OffCoreAndReplies_4 :
    ((wQu id 0).ctx 1).repRing.head = ((wQu id 0).ctx 1).repRing.tail
    ∧ (wOf nRp true).hubNum 1 (((wOf nRp true).ctx 1).repRing.place ((wOf nRp true).ctx 1).repRing.head.toNat) 64 = some nRp
    ∧ ((wOf nRp true).ctx 1).calls.find? (fun k => k.tag.toNat == bits nRp 31 0) = some ⟨1, 32, 8, 5, 0⟩
    ∧ ((5 : Mask).getLsbD (bits nRp 36 32) = true ∧ (0 : Mask).getLsbD (bits nRp 36 32) = false ∧ bits nRp 39 37 = 0 ∧ bits nRp 255 40 = 0)
    ∧ (((wOf nRp true).fibre 32).extracted = false ∧ (0 : Mask) ||| maskOf [bits nRp 36 32] ≠ 5)
    ∧ (∀ k ∈ ((wOf nRp true).ctx 1).calls, k.tag.toNat ≠ bits (nRp + 1) 31 0) :=
  ⟨by decide,
  by decide +kernel,
  by decide,
  by decide,
  by decide,
  by decide⟩

/-- A batching table of two entries at 0x5000, the template at 0x5100 and its kernel at 0x5140, and the snapshot buffer at 0x6000. -/
def nTem : Nat := 1 + 2 ^ 8 + 7 * 2 ^ 32 + 0x5140 * 2 ^ 64
def wBt (g : Batch → Batch) : State := (wQm 0 [2 + 2 ^ 152, 0, 3 + 2 ^ 152, 0, nTem, kOk]).modCtx 1 (fun c => { c with batch := g ⟨0x5000, 2, 0x6000, 0x5100, 3, 3, none, [], 0⟩ })
/-- An iteration ended whose results lie in a host page without an answer. -/
def wBn : State := let s := wBt (fun b => { b with launch := some 9, included := [(0, 2)], snap := 0x40000000 }); { s with mem := wrBytes s.mem 0x12008 (toBytes 8 0x4000004F) }
/-- The monitor of slot 0 is on for workgroup 1 of launch 4; two fibres with roles 0 and 1. -/
def wMo (lo hi : Bool) (clock start : Nat) : State :=
  { ((((wLa [(4, { xGo with men := true, lw := 2, hw := 5, wlog := 6 })]).modWg 1 (fun w => { w with launch := some 4 })).modMe (fun f => { f with role := 1 })).setFibre 33 { (wM.fibre 32) with pos := 1, role := 0 }).modSlot 0 (fun x => { x with wg := some 1, monLow := lo, monHigh := hi, monStart := start }) with clock := clock }
/-- Workgroup 1 is blocked on GROW and a launch waits; a workgroup put aside. -/
def wSw : State := { ((wLa [(4, { xGo with nx := 3 })]).modMe (fun f => { f with status := .blocked (.grow 2) })) with clock := 70000, stalled := [32], mem := [] }
/-- The same with an operation that cannot be finished and a walk that waits for the host. -/
def wSk : State := wSw.modCore 0 (fun c => { c with eng := [{ oEng .tld [64, 3] [] [3] [0] with broken := true }], walks := [⟨1, 0x40000, 1, false⟩] })
def tSw : State := ((wSw.groupOf (wSw.wg 1)).foldl (fun t y => (t.swapImage y.id).putAside y.id .swapped) (wSw.quiesceAll [1])).pinsIdle 1
def wAs : State := { (wLa []) with wgs := [(1, { loadedWg with id := 1, core := 200, home := 0, state := .swapped, timeSince := 5, ntile := 1, nacc := 0, nbar := 1, ssize := 1024 })] }
/-- Both fibres have role 0, and every sample was low and high. -/
def wM2 : State := (wMo true true 64 0).modMe (fun f => { f with role := 0 })
/-- An entry in iteration 5 with a delivery ring of four places at 0x7000, its result record, and memory with both. -/
def nEn : Nat := 2 + 9 * 2 ^ 64 + 2 ^ 152 + 5 * 2 ^ 160 + 0x7000 <<< 384
def rRs : Nat := 77 + 2 ^ 32 + 123 * 2 ^ 64
def wBc2 : State := let s := wBt (fun b => { b with launch := some 9, included := [(0, 2)] }); { s with mem := wrBytes (wrBytes (wrBytes s.mem 0x5000 (toBytes 128 nEn)) 0x6088 (toBytes 16 rRs)) 0x7000 (toBytes 64 (0x7100 + 4 * 2 ^ 64)) }
/-- The workgroup put aside, with an image that no page holds. -/
def wAx : State := ({ wAs with wgs := [(1, { wAs.wg 1 with image := 144 })] } : State).modCtx 1 (fun c => { c with save := 0x10000000000 })

/-! #### An image of a swap that no page takes. -/

theorem noKey {s : State} (h : s.mem = []) (p va : Nat) (w : Bool) (n : Nat) : s.hubPlace p va w n = none := by
  have z : ∀ a, rdNum s.mem a 8 = 0 := fun a => by
    unfold rdNum rdBytes
    rw [h, show (List.range 8).map (fun i => rd8 [] (a + i)) = List.replicate 8 0 from rfl, ofBytes_zero]
  unfold State.hubPlace State.walk walkFrom
  simp [z]

theorem noPut {s : State} (h : s.mem = []) (p va : Nat) (d : List Byte) : (s.hubPut p va d).getD s = s := by
  unfold State.hubPut State.hubWriteN
  split
  · rfl
  · simp [noKey h]

theorem noImage {s : State} (h : s.mem = []) (a c p i : Nat) (o : Option Nat) : s.writeCoreImage a c p i o = s := by
  unfold State.writeCoreImage
  generalize _ ++ s.coreImage a c p o = l
  induction l with
  | nil => rfl
  | cons x l ih => rw [List.foldl_cons, noPut h, ih]

theorem noSwap {s : State} (h : s.mem = []) {w : Nat} (e : (s.wgs.map (·.2)).filter (fun y => y.pasid == (s.wg w).pasid && y.state == .swapped) = []) :
    s.swapImage w = s.modWg w (fun y => { y with image := 144 }) := by
  unfold State.swapImage
  simp only [noImage h, e]
  rfl

theorem tSw_eq : tSw = (((wSw.quiesceAll [1]).modWg 1 (fun y => { y with image := 144 })).putAside 1 .swapped).pinsIdle 1 := by
  unfold tSw
  rw [show wSw.groupOf (wSw.wg 1) = [wSw.wg 1] from by decide +kernel, List.foldl_cons, List.foldl_nil, show (wSw.wg 1).id = 1 from by decide,
    noSwap (by decide +kernel) (by decide +kernel)]

theorem tSw_admits : ((tSw.pinsIn 1).admitWaiting 1 0 []).isSome = true := by
  rw [tSw_eq]
  decide +kernel

/-- The page of the image's head is not mapped, so the image is not whole. -/
theorem bad_swap : wAx.swapsOk (wAx.wg 1) = false := by
  have k : wAx.hubKey 1 (wAx.imageAddr 1 144) false 4096 = none := by decide +kernel
  have n : wAx.soundPages 1 (imageBytes / 4096) (wAx.imageAddr 1 144) = false := by
    rw [show imageBytes / 4096 = imageBytes / 4096 - 1 + 1 from by decide]
    unfold State.soundPages
    rw [k]
    rfl
  unfold State.swapsOk State.imageOk
  rw [show wAx.groupOf (wAx.wg 1) = [wAx.wg 1] from by decide +kernel]
  simp only [List.all_cons, List.all_nil, show (wAx.wg 1).image = 144 from by decide, show (wAx.wg 1).pasid = 1 from by decide, n]
  decide

theorem test_meets_BatchesRolesSwaps :
    (((wBt id).ctx 1).batch.count ≠ 0 ∧ ((wBt id).ctx 1).batch.launch = none ∧ ((wBt id).ctx 1).state = .active)
    ∧ (((wBt id).queue 3).en = true ∧ ((wBt id).queue 3).pasid.toNat = 1 ∧ ((wBt id).queue 3).state ≠ .error ∧ ((wBt id).queue 3).state ≠ .disabled ∧ (wBt id).dev.mgmt.takeover = false)
    ∧ (wBt id).snapshot 1 ((wBt id).ctx 1).batch 2 = some [(0, 2 + 2 ^ 152)]
    ∧ (wBt id).hubNum 1 0x5100 64 = some nTem
    ∧ (State.hubPut 1 0x6000 (snapBytes [(0, 2 + 2 ^ 152)]) (wBt id)).isSome = true
    ∧ (bits nTem 7 0 = 1 ∧ bits nTem 31 10 = 0) :=
  ⟨by decide,
  by decide,
  by decide +kernel,
  by decide +kernel,
  by decide +kernel,
  by decide⟩

theorem test_meets_BatchesRolesSwaps_2 :
    (match State.hubPut 1 0x6000 (snapBytes [(0, 2 + 2 ^ 152)]) (wBt id) with | some t => (match t.beginLaunch 3 0 7 true false nTem 0x6000 none with | .ok _ _ => true | _ => false) | none => false) = true
    ∧ ((wBt (fun b => { b with count := 0 })).ctx 1).batch.count = 0
    ∧ (((wBt (fun b => { b with launch := some 9 })).ctx 1).batch.launch = some 9 ∧ ∀ e ∈ (wBt (fun b => { b with launch := some 9 })).launches, e.1 ≠ 9)
    ∧ ((wBt id).othersDone 3 = true ∧ ((wBt id).queue 3).state ≠ .onWait ∧ ((wBt id).queue 3).state ≠ .onLtake)
    ∧ (((wBt (fun b => { b with launch := some 9 })).commitFrom 1 ((wBt id).ctx 1).batch 0 0).2 = true ∧ ((wBt (fun b => { b with launch := some 9 })).ctx 1).batch.included = [])
    ∧ (((wBn.commitFrom 1 (wBn.ctx 1).batch 1 0)).2 = false ∧ (wBn.ctx 1).batch.included.length = 1) :=
  ⟨by decide +kernel,
  by decide,
  by decide,
  by decide,
  by decide,
  by decide +kernel⟩

theorem test_meets_BatchesRolesSwaps_3 :
    ((wLa [(4, xGo)]).launches.any (fun e => e.1 == 4)) = true
    ∧ ((wBt (fun b => { b with launch := some 9, included := [(0, 2)] })).counter 3 + 1 = 11 ∧ (((wBt (fun b => { b with launch := some 9, included := [(0, 2)] })).commitFrom 1 ((wBt (fun b => { b with launch := some 9, included := [(0, 2)] })).ctx 1).batch 1 0)).1.counter 3 = 10)
    ∧ ((wBc2.hubNum 1 (0x6000 + 8 + 128 * 1 + 16 * 0) 16 = some rRs ∧ wBc2.hubNum 1 0x5000 128 = some nEn))
    ∧ (rRs.testBit 32 = true ∧ bits rRs 63 34 = 0 ∧ bReserved nEn = false ∧ bVersion nEn = 2 ∧ bReserved (nEn + 2 ^ 224) = true)
    ∧ (wBc2.hubPut 1 0x5000 (toBytes 68 nEn)).isSome = true
    ∧ (match wBc2.memRing 1 (bDring nEn) (toBytes 16 (bRid nEn + 77 * 2 ^ 64 + bPos nEn * 2 ^ 96)) with | .ok _ => true | _ => false) = true :=
  ⟨by decide,
  by decide +kernel,
  by decide +kernel,
  by decide +kernel,
  by decide +kernel,
  by decide +kernel⟩

theorem test_meets_BatchesRolesSwaps_4 :
    (((wM2).slot 0).monLow = true ∧ wM2.roleFibre 0 1 true = none ∧ (wM2.slot 0).monHigh = true ∧ wM2.roleFibre 0 0 false = some 33 ∧ (wM2.fibre 33).roleAt ≠ wM2.clock)
    ∧ ((∀ x ∈ wAs.groupOf (wAs.wg 1), x.image = 0) ∧ wAs.swapsOk (wAs.wg 1) = true)
    ∧ ((wBt id).hubNum 1 (0x6000 + 8 + 128 * 1 + 16 * 0) 16 = some 0 ∧ (wBt id).hubNum 1 (Batch.entry ⟨0x5000, 2, 0x6000, 0x5100, 3, 3, none, [], 0⟩ 0) 128 = some (2 + 2 ^ 152))
    ∧ (bVersion (2 + 2 ^ 152) = 2 ∧ bVersion (2 + 2 ^ 152) ≠ (4 : Word64).toNat)
    ∧ (wBt id).monitorOf 0 = none
    ∧ ((wMo true false 64 0).monitorOf 0).map (·.wlog) = some 6 :=
  ⟨by decide,
  by decide +kernel,
  by decide +kernel,
  by decide,
  by decide,
  by decide⟩

theorem test_meets_BatchesRolesSwaps_5 :
    (wMo true false 63 0).clock < ((wMo true false 63 0).slot 0).monStart + 2 ^ 6
    ∧ ((wMo true false 64 0).slot 0).monStart + 2 ^ 6 ≤ (wMo true false 64 0).clock
    ∧ (((wMo true false 64 0).slot 0).monLow = true ∧ (wMo true false 64 0).roleFibre 0 1 true = some 32)
    ∧ (((wMo true false 64 0).fibre 32).roleAt ≠ 64 ∧ ((wMo false true 64 0).fibre 33).roleAt ≠ 64)
    ∧ (((wMo false true 64 0).slot 0).monHigh = true ∧ (wMo false true 64 0).roleFibre 0 0 false = some 33)
    ∧ (wSw.swapDue 0 = true ∧ (wSw.swapVictim 0).map (·.id) = some 1 ∧ wSw.waiting 1 = true ∧ (wSw.ctx 1).state = .active) :=
  ⟨by decide,
  by decide,
  by decide,
  by decide,
  by decide,
  by decide +kernel⟩

theorem test_meets_BatchesRolesSwaps_6 :
    ((wBt id).swapVictim 0 = none ∧ (wBt id).swapDue 0 = false)
    ∧ ((wSw.quiesceAll [1]).opsAsk [1] = false ∧ (wSk.quiesceAll [1]).opsAsk [1] = true)
    ∧ ((tSw.pinsIn 1).admitWaiting 1 0 []).isSome = true
    ∧ (wSk.swapDue 0 = true ∧ (wSk.swapVictim 0).map (·.id) = some 1 ∧ wSk.waiting 1 = true ∧ (wSk.ctx 1).state = .active)
    ∧ (wSw.wg 1).state ≠ .swapped
    ∧ ((wAs.wg 1).state = .swapped ∧ (wAs.ctx (wAs.wg 1).pasid).state = .active ∧ (wAs.nextSwapped 1).map (·.id) = some 1) :=
  ⟨by decide +kernel,
  by decide +kernel,
  tSw_admits,
  by decide +kernel,
  by decide,
  by decide⟩

theorem test_meets_BatchesRolesSwaps_7 :
    ((wAs.pinsIn 1).readmit (wAs.wg 1) 3).isSome = true
    ∧ (wAs.pinsIn 1).readmit (wAs.wg 1) 144 = none
    ∧ ((wAx.wg 1).state = .swapped ∧ (wAx.nextSwapped (wAx.wg 1).pasid).map (·.id) = some 1)
    ∧ wAx.swapsOk (wAx.wg 1) = false
    ∧ (oldestSwap [wAs.wg 1, { wAs.wg 1 with timeSince := 4 }]).map (·.timeSince) = some 4 :=
  ⟨by decide +kernel,
  by decide +kernel,
  by decide,
  bad_swap,
  by decide⟩

/-- The service ring holds at 0x20C0 the entry `n` for record 9, `i`, of fibre 32's parked lanes 0 and 2; a task record at 0x5000 and its kernel at 0x5080. -/
def nSe (op a lanes : Nat) : Nat := 9 + op * 2 ^ 64 + a * 2 ^ 128 + lanes * 2 ^ 192
def iSe : RecInfo := { RecInfo.zero with ridx := 9, kind := 2, fib := 32, wg := 1, resume := 4, lanes := 5, left := 5, place := 1 }
def wSe (n : Nat) (i : RecInfo) : State :=
  (({ wM with mem := tables (wrBytes (wrBytes (wrBytes [] 0x20C0 (toBytes 64 n)) 0x5000 (toBytes 64 rT2)) 0x5080 (toBytes 64 (2 ^ 71))) } : State).modMe
    (fun f => { f with frontier := [⟨.parked, 0, 4, 0, 5, 0, false, 0, 1, false, 0⟩, ⟨.run, 64, 0, 0, 0xFA, 1, false, 0, 0, false, 0⟩] })).modCtx 1
    (fun c => { c with root := 0x10000, serviceRing := ⟨0x2000, 4, 4, 3⟩, recs := [i], parked := [⟨6, rT2⟩], taskPlaces := 8, pool := [⟨7, rT2⟩] })
def iEn (what : Nat) : RecInfo := { iSe with what := what, op := 4 }
def iEn4 : RecInfo := { iEn 4 with place := 6, page := 1 }
def iPk : RecInfo := { iSe with what := 3, kind := FKind.taskRecord.code, place := 6 }
/-- Fibre 32 extracted, its image in `wAw`'s place. -/
def wEr (b : Bool) : State := (({ wAw with mem := wrBytes wAw.mem 0x20C0 (toBytes 64 (nSe 5 0x100000 0)) } : State).modMe (fun f => { f with extracted := true, resident := true, size := if b then 6 else f.size })).modCtx 1 (fun c => { c with serviceRing := ⟨0x2000, 4, 4, 3⟩, recs := [iSe] })

theorem er_imaged (b : Bool) : Imaged (wEr b) := by
  cases b <;> exact ⟨by decide +kernel, by decide, by decide +kernel, by decide +kernel⟩

theorem toBytes_zero (n : Nat) : toBytes n 0 = List.replicate n 0 := by
  refine List.eq_replicate_iff.mpr ⟨toBytes_length n 0, fun x hx => ?_⟩
  obtain ⟨i, -, rfl⟩ := List.mem_map.mp hx
  simp

theorem look_none {x : Fibre} (h : x.pend = []) : x.lookahead = List.replicate 4096 0 := by
  have e : x.arrivedVals = [] := by unfold Fibre.arrivedVals; rw [h]; rfl
  unfold Fibre.lookahead
  rw [e]
  simp only [List.map_nil, List.eraseDups_nil, List.foldl_nil, List.nil_append, List.length_nil, Nat.sub_zero]
  exact toBytes_zero _

theorem er_look (b : Bool) : ((wEr b).fibre 32).lookahead = List.replicate 4096 0 := look_none (by cases b <;> decide)

theorem er_image : ∃ b d, (wEr false).hubGet 1 0x100000 24576 = some b ∧ ofBytes ((b.drop 508).take 4) = (crc32c (b.take 508)).toNat ∧ (wEr false).readImage 32 0x100000 = some d
    ∧ (wEr false).imageBad 32 b d = false ∧ (wEr false).me.resident = true := by
  obtain ⟨b, d, h1, h2, h3, -, h5⟩ := (er_imaged false).ok
  exact ⟨b, d, h1, h2, h3, h5 (by decide +kernel) (er_look false) (by decide) (by decide) (by decide), by decide⟩

theorem er_bad : ∃ b d, (wEr true).hubGet 1 0x100000 24576 = some b ∧ ofBytes ((b.drop 508).take 4) = (crc32c (b.take 508)).toNat ∧ (wEr true).readImage 32 0x100000 = some d
    ∧ (wEr true).imageBad 32 b d = true := by
  obtain ⟨b, d, h1, h2, h3, h4, -⟩ := (er_imaged true).ok
  refine ⟨b, d, h1, h2, h3, ?_⟩
  simp only [State.imageBad]
  rw [h4, show ((wEr true).fibre 32).size = 6 from by decide]
  simp


theorem test_meets_ServiceEntries :
    (((wSe (nSe 1 0 0) iSe).ctx 1).serviceRing.head ≠ ((wSe (nSe 1 0 0) iSe).ctx 1).serviceRing.tail ∧ ((wSe (nSe 1 0 0) iSe).ctx 1).serviceRing.size ≠ 0 ∧ ((wSe (nSe 1 0 0) iSe).ctx 1).state = .active)
    ∧ (wSe (nSe 1 0 0) iSe).hubNum 1 (((wSe (nSe 1 0 0) iSe).ctx 1).serviceRing.place ((wSe (nSe 1 0 0) iSe).ctx 1).serviceRing.head.toNat) 64 = some (nSe 1 0 0)
    ∧ ((wSe (nSe 2 0x41 4) iSe).hubNum 1 0x20C0 64 = some (nSe 2 0x41 4) ∧ (wSe (nSe 3 0 1) iSe).hubNum 1 0x20C0 64 = some (nSe 3 0 1))
    ∧ ((wSe (nSe 4 0x100000 0) iSe).hubNum 1 0x20C0 64 = some (nSe 4 0x100000 0) ∧ (wSe (nSe 6 0 0) (iEn 2)).hubNum 1 0x20C0 64 = some (nSe 6 0 0))
    ∧ ((wSe (nSe 7 0 0) (iEn 1)).hubNum 1 0x20C0 64 = some (nSe 7 0 0) ∧ (wSe (nSe 8 0x5000 0) iPk).hubNum 1 0x20C0 64 = some (nSe 8 0x5000 0))
    ∧ ((wSe (nSe 9 0 0) iPk).hubNum 1 0x20C0 64 = some (nSe 9 0 0) ∧ (wSe (nSe 10 0 0) iSe).hubNum 1 0x20C0 64 = some (nSe 10 0 0)) :=
  ⟨by decide,
  by decide +kernel,
  by decide +kernel,
  by decide +kernel,
  by decide +kernel,
  by decide +kernel⟩

theorem test_meets_ServiceEntries_2 :
    (((wSe (nSe 1 0 0) iSe).ctx 1).recs.find? (fun i => i.ridx.toNat == bits (nSe 1 0 0) 63 0) = some iSe ∧ iSe.served = false ∧ (4 : Mask) &&& ~~~iSe.lanes = 0 ∧ iSe.left &&& 4 ≠ 0)
    ∧ ((wSe (nSe 1 0 0) iSe).laneRecOk iSe = true ∧ bits (nSe 2 0x41 4) 71 64 = 2 ∧ bits (nSe 2 0x41 4) 223 192 = 4)
    ∧ (bits (nSe 1 0 0) 127 72 = 0 ∧ bits (nSe 1 0 0) 191 185 = 0 ∧ bits (nSe 1 0 0) 511 224 = 0 ∧ (0 : Mask) = 0 ∧ iSe.left &&& 4 ≠ 0)
    ∧ (bits (nSe 1 0 0 + 2 ^ 127) 127 72 ≠ 0 ∧ bits (nSe 1 0 0 + 2 ^ 191) 191 185 ≠ 0 ∧ bits (nSe 1 0 0 + 2 ^ 511) 511 224 ≠ 0)
    ∧ ((wSe (nSe 1 0 0 + 2 ^ 511) iSe).hubNum 1 0x20C0 64 = some (nSe 1 0 0 + 2 ^ 511) ∧ bits (nSe 1 0 0 + 2 ^ 511) 71 64 = 1)
    ∧ ((wSe (nSe 4 0x100000 0) iSe).modMe (fun f => { f with outst := [⟨.copy, 1, false⟩] })).me.outst ≠ [] :=
  ⟨by decide,
  by decide,
  by decide,
  by decide,
  by decide +kernel,
  by decide⟩

theorem test_meets_ServiceEntries_3 :
    ((wSe (nSe 4 0x100000 0) iSe).me.resident = true ∧ (wSe (nSe 4 0x100000 0) iSe).me.outst = [] ∧ (wSe (nSe 4 0x100000 0) iSe).me.loadsBack = true)
    ∧ (∀ j, j < 6 → (wSe (nSe 4 0x100000 0) iSe).hubFault 1 (0x100000 + 4096 * j) true 4096 = none)
    ∧ ((wEr false).fibreRecOk iSe = true ∧ (wEr false).me.extracted = true)
    ∧ (∀ j, j < 6 → (wEr false).hubFault 1 (0x100000 + 4096 * j) false = none)
    ∧ ((wEr false).modDev (fun d => { d with poison := [(0x4002, true)] })).hubGet 1 0x100000 24576 = none
    ∧ (∃ b d, (wEr false).hubGet 1 0x100000 24576 = some b ∧ ofBytes ((b.drop 508).take 4) = (crc32c (b.take 508)).toNat ∧ (wEr false).readImage 32 0x100000 = some d ∧ (wEr false).imageBad 32 b d = false ∧ (wEr false).me.resident = true) :=
  ⟨by decide,
  by decide +kernel,
  by decide,
  by decide +kernel,
  by decide +kernel,
  er_image⟩

theorem test_meets_ServiceEntries_4 :
    (∃ b d, (wEr true).hubGet 1 0x100000 24576 = some b ∧ ofBytes ((b.drop 508).take 4) = (crc32c (b.take 508)).toNat ∧ (wEr true).readImage 32 0x100000 = some d ∧ (wEr true).imageBad 32 b d = true)
    ∧ ((wSe (nSe 6 0 0) (iEn 1)).engineRecOk (iEn 1) = true ∧ (wSe (nSe 6 0 0) (iEn 2)).engineRecOk (iEn 2) = true)
    ∧ ((wSe (nSe 7 0 0) (iEn 1)).modWg 1 (fun w => { w with launch := some 4 })).wgs.any (fun e => e.1 == 1 && (e.2.state == .running || e.2.state == .swapped || e.2.state == .saved)) = true
    ∧ ((wSe (nSe 7 0 0) (iEn 1)).modWg 1 (fun w => { w with launch := some 4, state := .swapped })).wgs.any (fun e => e.1 == 1 && (e.2.state == .running || e.2.state == .swapped || e.2.state == .saved)) = true
    ∧ ((wSe (nSe 6 0 0) iEn4).engineRecOk iEn4 = true ∧ iEn4.what = 4 ∧ State.parkedRecOk 1 (wSe (nSe 9 1 0) iPk) iPk = true ∧ bits (nSe 9 1 0) 184 128 = 1)
    ∧ State.parkedRecOk 1 (wSe (nSe 8 0x5000 0) iPk) iPk = true :=
  ⟨er_bad,
  by decide,
  by decide,
  by decide,
  by decide,
  by decide⟩

theorem test_meets_ServiceEntries_5 :
    ((wSe (nSe 8 0x5000 0) iPk).hubNum 1 0x5000 64 = some rT2 ∧ (wSe (nSe 8 0x5000 0) iPk).recordWaits 1 rT2 = false ∧ (wSe (nSe 8 0x5000 0) iPk).recordOk 1 rT2 = true)
    ∧ (∀ i ∈ ((wSe (nSe 1 0 0) { iSe with ridx := 10 }).ctx 1).recs, i.ridx.toNat ≠ bits (nSe 1 0 0) 63 0)
    ∧ ((wEr false).wg ((wEr false).fibre iSe.fib).wg).state ≠ .swapped
    ∧ ((wSe (nSe 11 0 0) iSe).hubNum 1 0x20C0 64 = some (nSe 11 0 0) ∧ 10 < bits (nSe 11 0 0) 71 64 ∧ (wSe (nSe 3 0 8) iSe).hubNum 1 0x20C0 64 = some (nSe 3 0 8) ∧ (8 : Mask) &&& ~~~iSe.lanes ≠ 0)
    ∧ ((wSe (nSe 4 0 4) { iSe with left := 1 }).hubNum 1 0x20C0 64 = some (nSe 4 0 4) ∧ (4 : Mask) ≠ 0 ∧ (1 : Mask) &&& 4 = 0 ∧ ({ iSe with served := true } : RecInfo).served = true)
    ∧ ((wSe (nSe 5 0 0) iSe).hubNum 1 0x20C0 64 = some (nSe 5 0 0) ∧ ((wSe (nSe 5 0 0) iSe).fibreRecOk iSe && ((wSe (nSe 5 0 0) iSe).fibre 32).extracted) = false ∧ (wSe (nSe 8 0 0) iSe).hubNum 1 0x20C0 64 = some (nSe 8 0 0) ∧ State.parkedRecOk 1 (wSe (nSe 8 0 0) iSe) iSe = false ∧ (wSe (nSe 8 0 0) iSe).engineRecOk iSe = false) :=
  ⟨by decide +kernel,
  by decide,
  by decide,
  by decide +kernel,
  by decide +kernel,
  by decide +kernel⟩

theorem test_meets_ServiceEntries_6 :
    (((wSe (nSe 1 0 0) iSe).nextEntry 1).ctx 1).serviceRing.head = (((wSe (nSe 1 0 0) iSe).nextEntry 1).ctx 1).serviceRing.tail :=
  by decide

/-- Walks of core 0 for device page 5, host page 0x40000 and a page without a translation; answers of ATS; translations held; page request 3 of context 1. -/
def wWk (ats : List (Nat × Nat)) : State :=
  (({ wM with mem := tables (wrBytes wM.mem 0x12008 (toBytes 8 0x4000004F)) } : State).modCore 0 (fun c => { c with tlb := c.tlb ++ [⟨1, 0x40000, .absent, 0x4000004F, 0⟩, ⟨1, 0x40001, .ok, 0x4000004F, 9⟩, ⟨2, 0x40000, .ok, 15, 0⟩], walks := [⟨1, 5, 0, false⟩, ⟨1, 0x40000, 0, false⟩, ⟨1, 0x80000, 0, true⟩, ⟨1, 0x40002, 1, false⟩], l1 := [(4, [1]), (5, [7])] })).modCtx 1
    (fun c => { c with root := 0x10000, ats := ats, prgs := [⟨3, 0x40000, false, false⟩], ringBad := [0, 1], faultRing := ⟨0x3000, 4, 3, 0⟩, serviceRing := ⟨0x2000, 4, 4, 3⟩ })
/-- A store of an early launch that finds no pre-image. -/
def wHi : State := (((wBuf false false).modWg 1 (fun w => { w with launch := some 4 })).setLaunch 4 { Launch.zero with early := [3], pasid := 1, wset := [(0, 1)] }).modCtx 1 (fun c => { c with preUnits := 0 })
def wWs (st : CtxState) : State := (wWk []).modCtx 1 (fun c => { c with state := st })

theorem test_meets_PagesAndRings :
    (((wWk []).core 0).walks[0]? = some ⟨1, 5, 0, false⟩ ∧ ((wWk []).core 0).walks[1]? = some ⟨1, 0x40000, 0, false⟩ ∧ ((wWk []).core 0).walks[2]? = some ⟨1, 0x80000, 0, true⟩)
    ∧ ((wWk []).walk 1 0x80000).1 ≠ .ok
    ∧ (((wWk []).walk 1 5).1 = .ok ∧ fieldB ((wWk []).walk 1 5).2.1 7 6 ≠ 1)
    ∧ (((wWk []).walk 1 0x40000).1 = .ok ∧ fieldB ((wWk []).walk 1 0x40000).2.1 7 6 = 1 ∧ Sparse.get 0 0x40000 ((wWk []).ctx 1).ats = 0)
    ∧ (Sparse.get 0 0x40000 ((wWk [(0x40000, 1)]).ctx 1).ats = 1 ∧ Sparse.get 0 0x40000 ((wWk [(0x40000, 2)]).ctx 1).ats = 2)
    ∧ (((wWk []).ctx 1).state ≠ .ended ∧ ((wWk []).ctx 1).waiting = []) :=
  ⟨by decide,
  by decide +kernel,
  by decide +kernel,
  by decide +kernel,
  by decide,
  by decide⟩

theorem test_meets_PagesAndRings_2 :
    (∀ c, ((wWk []).core c).wbuf = [] ∧ ((wWk []).core c).reds = [])
    ∧ ((wWk []).invalidate 1 0x40000 0x40001).2 = true
    ∧ (wHi.invalidate 1 0 0).2 = false
    ∧ (((wWk []).ctx 1).prgs.find? (fun r => r.idx == 3) = some ⟨3, 0x40000, false, false⟩ ∧ ((wWk []).ctx 1).state = .active ∧ ∀ y ∈ ((wWk []).ctx 1).recs, y.prg ≠ some 3)
    ∧ (((wWs .preempted).ctx 1).state = .preempted ∧ ((wWs .saving).ctx 1).state = .saving ∧ ((wWs .frozen).ctx 1).state = .frozen)
    ∧ (∀ r ∈ ((wWk []).ctx 1).prgs, r.idx ≠ 4) :=
  ⟨fun c => by rcases c with _ | c <;> exact ⟨rfl, rfl⟩,
  by decide +kernel,
  by decide +kernel,
  by decide,
  by decide,
  by decide⟩

/-- A safe machine; context 1 in one state with workgroup 1, or with none; a task in a step of its commit; queue 3 of it. -/
def wSf : State := wM.modMgmt (fun m => { m with safe := true })
def wCx (st : CtxState) (w : List (Nat × Workgroup)) : State := { ((wQu id 0).modCtx 1 (fun c => { c with state := st, deferred := [.pageRequestResponse 1 3 true], pool := [⟨0, 1⟩], recs := [RecInfo.zero] })) with wgs := w, launches := [(4, { Launch.zero with pasid := 1 }), (5, { Launch.zero with pasid := 2 })] }
def wSv (st : WgState) : List (Nat × Workgroup) := [(1, { loadedWg with state := st })]
/-- Context 1 preempted, with the image of a small workgroup in its save area. -/
def wIm : State := let s := (wCx .preempted [(1, { loadedWg with state := .saved, ssize := 64, ntile := 0, nacc := 0, nbar := 0 })]).modCtx 1 (fun c => { c with save := 0x20000000 })
  { s with mem := wrBytes (wrBytes s.mem 0x20000000 (toBytes 12 (1 + 2 ^ 64))) 0x20000FFC (toBytes 4 0x4355C809) }
/-- Queue 3 mapped, at the clock at which its hang period has passed, and one clock after it made progress. -/
def wHg : State := { wCx .active [] with clock := 1 + Config.hangClocks (wCx .active []).dev.cfg.hang.toNat }
def wHn : State := { (wCx .active []).modQueue 3 (fun x => { x with progress := 1 }) with clock := 0 }

/-! #### The image of `wIm` is whole. -/

theorem no_range {s : State} (p : s.dev.poison = []) (c : s.dev.chk = []) {k n : Nat} (h : k + n ≤ 2 ^ 30) : s.rangeBad k n = false := by
  unfold State.rangeBad
  rw [List.any_eq_false]
  intro i hi
  have b := List.mem_range.mp hi
  have l : 64 * (k / 64 + i) < 2 ^ 64 := by omega
  have e : isPeer (64 * (k / 64 + i)) = false := by unfold isPeer keyOf; rw [Nat.div_eq_of_lt l]; rfl
  simp [State.sectorBad, State.peerCut, p, c, e]

theorem Tabled.soundPages {t : State} (m : Tabled t) (z : ∀ k n, k + n ≤ 2 ^ 30 → t.rangeBad k n = false) (n : Nat) : ∀ va, va + 4096 * n ≤ 2 ^ 30 → t.soundPages 1 n va = true := by
  induction n with
  | zero => exact fun va h => rfl
  | succ n ih =>
    intro va h
    have a : va < 2 ^ 30 := by omega
    have b := ih (va + 4096) (by omega)
    have g := z va 4096 (Nat.le_trans (Nat.add_le_add_left (Nat.le_mul_of_pos_right 4096 (Nat.succ_pos n)) va) h)
    have k := m.key a 4096 g
    unfold State.soundPages
    rw [k, b]
    dsimp only
    rw [g]
    rfl

theorem rdBytes_zero {m : List Host.Cell} {k n : Nat} (h : ∀ e ∈ m, e.1 < k ∨ k + n ≤ e.1) : rdBytes m k n = List.replicate n 0 := by
  refine List.eq_replicate_iff.mpr ⟨by simp [rdBytes], fun x hx => ?_⟩
  obtain ⟨q, hq, rfl⟩ := List.mem_map.mp hx
  have := List.mem_range.mp hq
  exact rd8_absent fun e he => by have := h e he; omega

theorem ofBytes_zeros (l : List Byte) (n : Nat) : ofBytes (l ++ List.replicate n 0) = ofBytes l := by
  induction l with
  | nil => exact ofBytes_zero n
  | cons b l ih => rw [List.cons_append, ofBytes, ofBytes, ih]

theorem im_tabled : Tabled wIm := ⟨by decide, by decide +kernel, by decide +kernel, by decide +kernel, by decide +kernel⟩

/-- The page of the image's head: a number of twelve bytes, zeros, and the check value. -/
def imA : List Byte := toBytes 12 (1 + 2 ^ 64)
def imZ : List Byte := List.replicate 4080 0
def imC : List Byte := toBytes 4 0x4355C809

theorem im_page : wIm.hubGet 1 0x20000000 4096 = some (imA ++ (imZ ++ imC)) := by
  have z : wIm.rangeBad 0x20000000 4096 = false := no_range rfl rfl (by omega)
  have e : rdBytes wIm.mem 0x20000000 (12 + (4080 + 4)) = imA ++ (imZ ++ imC) := by
    rw [rdBytes_append, rdBytes_append, rdBytes_zero (k := 0x20000000 + 12) (n := 4080) (by decide +kernel)]
    rw [show rdBytes wIm.mem 0x20000000 12 = imA from by decide +kernel, show rdBytes wIm.mem (0x20000000 + 12 + 4080) 4 = imC from by decide +kernel]
    rfl
  rw [← e]
  simp [State.hubGet, State.hubGetN, im_tabled.key, z]

theorem cut (a b c : List Byte) : (a ++ (b ++ c)).drop (a.length + b.length) = c ∧ (a ++ (b ++ c)).take (a.length + b.length) = a ++ b := by
  rw [← List.append_assoc, ← List.length_append]
  exact ⟨List.drop_left, List.take_left⟩

theorem im_ok : wIm.imagesOk 1 = true := by
  have c : crc32c (imA ++ imZ) = 0x4355C809 := by
    unfold crc32c imZ
    rw [List.foldl_append, zeros_crc]
    decide +kernel
  have d : ofBytes (imA ++ imZ) = 1 + 2 ^ 64 := by
    unfold imZ
    rw [ofBytes_zeros]
    decide +kernel
  have n : imA.length + imZ.length = 4092 := by rw [imA, imZ, toBytes_length, List.length_replicate]
  obtain ⟨a, b⟩ := cut imA imZ imC
  rw [n] at a b
  unfold State.imagesOk
  rw [show ((wIm.savedWgs 1).map (fun x => (x.image, x.home))).eraseDups = [(0, 0)] from by decide +kernel]
  simp only [List.all_cons, List.all_nil, Bool.and_true, State.imageOk]
  rw [show wIm.imageAddr 1 0 = 0x20000000 from by decide, im_tabled.soundPages (fun _ _ h => no_range rfl rfl h) _ _ (by decide), im_page]
  simp only [a, b, c, d]
  decide +kernel

theorem test_meets_ContextLife :
    wHn.clock < wHn.progressAt 3 + Config.hangClocks wHn.dev.cfg.hang.toNat
    ∧ ((wHg.queue 3).mapped = true ∧ (wHg.ctx (wHg.queuePasid 3)).state ≠ .saving)
    ∧ wHg.progressAt 3 + Config.hangClocks wHg.dev.cfg.hang.toNat ≤ wHg.clock
    ∧ (((wEx .ready).slot 0).wg = some 1 ∧ ((wEx .ready).wg 1).launch = some 4 ∧ ∃ e ∈ (wEx .ready).launches, e.1 = 4 ∧ e.2.queue = 3)
    ∧ (wSf.dev.mgmt.safe = true ∧ (wCx .active []).dev.mgmt.safe = false)
    ∧ (((wCx .active []).ctx 1).state = .active ∧ (wCx .active []).wgsOn 1 = []) :=
  ⟨by rw [show wHn.progressAt 3 = 1 from by decide, show wHn.clock = 0 from rfl]; omega,
  by decide,
  by rw [show wHg.progressAt 3 = 0 from by decide, show wHg.clock = 1 + Config.hangClocks wHg.dev.cfg.hang.toNat from rfl]; omega,
  ⟨by decide, by decide, ⟨_, List.mem_cons_self .., rfl, by decide⟩⟩,
  by decide,
  by decide⟩

theorem test_meets_ContextLife_2 :
    ((∀ e ∈ (wCx .active []).launches, e.2.pasid = 1 → (wCx .active []).mayConfirm e.1 = false) ∧ ∀ e ∈ (wCx .active []).dev.pinOwner, e.2 ≠ 1 + 1)
    ∧ (∃ x ∈ ((tkW (fun w => { w with state := .committing }) .exited).wgsOn 1), (tkW (fun w => { w with state := .committing }) .exited).midCommit x = true)
    ∧ ((wIm.ctx 1).state = .preempted ∧ (wIm.wg 1).state = .saved ∧ (wIm.wg 1).pasid = 1)
    ∧ wIm.imagesOk 1 = true
    ∧ ((wCx .preempted (wSv .saved)).modDev (fun d => { d with poison := [(0, true)] })).imagesOk 1 = false
    ∧ ((wCx .ended []).ctx 1).state = .ended :=
  ⟨by decide,
  by decide,
  by decide,
  im_ok,
  by decide +kernel,
  by decide⟩

theorem test_meets_ContextLife_3 :
    (∀ w ∈ (wCx .active []).wgs, w.2.pasid ≠ 1)
    ∧ (((wCx .active []).queue 3).pasid.toNat = 1 ∧ (wCx .active []).queue 3 ≠ Queue.zero ∧ ∀ o ∈ (wCx .active []).dev.copies, o.pasid ≠ 1)
    ∧ ((wQu toIdle 0).queue 3).mapped = false
    ∧ (((wCx .active []).queue 3).mapped = true ∧ ((wCx .active []).ctx ((wCx .active []).queuePasid 3)).state ≠ .saving)
    ∧ (((wCx .saving (wSv .running)).ctx 1).state = .saving ∧ ((wCx .saving (wSv .running)).wgsOn 1).map (·.core) = [0]) :=
  ⟨by decide,
  by decide,
  by decide,
  by decide,
  by decide⟩

/-- A pod at nonce 7, armed or not; links 0 and 15, one of them down; module 2 hung. -/
def wPo (armed : Bool) (g : Mgmt → Mgmt) : State :=
  ((wCx .active []).modDev (fun d => { d with flinks := [(0, ⟨false, 5, 6, 7, [⟨0, 2, 0x40, 3, 9⟩, ⟨1, 2, 0x80, 3, 9⟩, ⟨0, 2, 0, 4, 1⟩], [(0, 9)], []⟩), (15, ⟨true, 0, 0, 0, [], [], []⟩)], cfg := { d.cfg with pressSize := if armed then 2 ^ 60 else 0, routes := [(2, 0x10000)], peers := 6 } })).modMgmt (fun m => g { m with nonce := 7 })
/-- A write of a line, and an addition to it. -/
def fmW : FabricMsg := ⟨.write, 0x4040, 2 ^ 64 - 1, 1, 3, toBytes 64 (7 + 2 ^ 500), true⟩
def fmA : FabricMsg := { fmW with kind := .atomic 0 true 5 0, addr := 0x4000 }
def flK : List Byte := toBytes 256 (3 * 2 ^ 18 + 4 * 2 ^ 34)

theorem test_meets_PressAndFabric :
    ((wPo true id).dev.mgmt.safe = false ∧ (wPo true id).armed = true ∧ (wPo false id).armed = false)
    ∧ ((wPo true id).dev.mgmt.nonce < 8 ∧ (7 : Word64) ≤ (wPo true id).dev.mgmt.nonce)
    ∧ ((∀ p n x, Config.seizeOk p n x = true ∨ Config.seizeOk p n x = false) ∧ (∀ p x, Config.consentOk p x = true ∨ Config.consentOk p x = false) ∧ ∀ x, Config.linkCheckOk x = true ∨ Config.linkCheckOk x = false)
    ∧ wSf.dev.mgmt.safe = true
    ∧ ((wPo true id).dev.mgmt.seized = false ∧ (wPo true id).dev.mgmt.frozen = [])
    ∧ ((wPo true (fun m => { m with seized := true })).dev.mgmt.seized = true ∧ (wPo true (fun m => { m with seized := true })).dev.mgmt.frozen = []) :=
  ⟨by decide +kernel,
  by decide,
  ⟨fun _ _ _ => Bool.eq_false_or_eq_true _, fun _ _ => Bool.eq_false_or_eq_true _, fun _ => Bool.eq_false_or_eq_true _⟩,
  by decide,
  by decide,
  by decide⟩

theorem test_meets_PressAndFabric_2 :
    (wPo true (fun m => { m with frozen := [1] })).dev.mgmt.frozen ≠ []
    ∧ (((wPo true id).ctx 1).state ≠ .frozen ∧ ((wCx .frozen []).ctx 1).state = .frozen)
    ∧ (((wPo true id).flink 15).down = true ∧ ((wPo true id).flink 0).down = false)
    ∧ (flK.length = 256 ∧ ([] : List Byte).length ≠ 256)
    ∧ (((wPo true id).flink 1).fails + 1 < 8 ∧ 8 ≤ ((wPo true id).flink 0).fails + 1)
    ∧ (fmW.sound = true ∧ fmW.kind = .write ∧ fmW.addr < deviceBytes ∧ fmW.data.length = 64 ∧ fmW.mask = 2 ^ 64 - 1) :=
  ⟨by decide,
  by decide,
  by decide,
  ⟨toBytes_length _ _, by decide⟩,
  by decide,
  ⟨rfl, rfl, by decide, by decide, rfl⟩⟩

theorem test_meets_PressAndFabric_3 :
    (wPo true id).sectorBad (sectorOf fmW.addr) = false
    ∧ (({ fmW with sound := false } : FabricMsg).sound = false ∧ ({ fmW with kind := FabricKind.read } : FabricMsg).kind = .read ∧ fmA.kind = .atomic 0 true 5 0 ∧ fmA.addr + 8 ≤ deviceBytes ∧ fmA.addr % 8 = 0)
    ∧ (wPo true id).dev.cfg.peers.getLsbD 7 = false
    ∧ ((wPo true id).dev.cfg.peers.getLsbD 2 = true ∧ linkFor ((wPo true id).linksTo 2) 0x40 = some 0)
    ∧ (0 < Sparse.get linkCredits 1 ((wPo true id).flink 0).credits ∧ ∀ z ∈ ((wPo true id).flink 0).waiting, z.vc ≠ 1)
    ∧ (Sparse.get linkCredits 1 ({ ((wPo true id).flink 0) with credits := [(1, 0)] } : FLink).credits = 0 ∧ ∃ z ∈ ({ ((wPo true id).flink 0) with waiting := [⟨1, 2, 0x40, 5, 1⟩] } : FLink).waiting, z.vc = 1) :=
  ⟨by decide,
  ⟨rfl, rfl, rfl, by decide, by decide⟩,
  by decide,
  by decide,
  by decide,
  ⟨by decide, ⟨_, List.mem_cons_self .., rfl⟩⟩⟩

theorem test_meets_PressAndFabric_4 :
    ((wPo true id).dev.cfg.modIdx.toNat = 0 ∧ linkCount ≤ 16)
    ∧ bits (0x43210 : BitVec 19).toNat 18 16 ≤ 4
    ∧ ((wPo true (fun m => { m with hung := [2] })).dev.mgmt.hung.contains 2 = true ∧ (wPo true id).dev.mgmt.hung.contains 2 = false) :=
  ⟨by decide,
  by decide,
  by decide⟩

/-- Counter 3 at 10 with nobody waiting, owned by context 1, or by nobody; link 2; VF 5 owns counter 3. -/
def wHx : State := (wQu id 0).modDev (fun d => { d with vfCtr := [(3, 5)] })
def wHw : State := (wQu (fun x => { x with state := .onWait, waitCtr := 3, waitThr := 11, mapped := false }) 0).modDev (fun d => { d with vfCtr := [(3, 5)] })
def wNo : State := wHx.modDev (fun d => { d with ctrGrant := [] })

theorem test_meets_HostAccess :
    (wHx.counter 3 ≤ 10 ∧ (9 : Word64) < wHx.counter 3)
    ∧ ((∀ e ∈ wHx.dev.queues, ¬(e.2.state = .onWait ∧ e.2.waitCtr = 3)) ∧ wHx.ctrOwner 3 = 1 ∧ wNo.ctrOwner 3 = 0)
    ∧ (wHx.dev.mgmt.safe = false ∧ wHx.dev.mgmt.tested = true ∧ wHx.dev.mgmt.takeover = false ∧ wSf.dev.mgmt.safe = true)
    ∧ (Sparse.get 0 3 wHx.dev.vfCtr = 5 ∧ Sparse.get 0 4095 wHx.dev.vfCtr ≠ 5)
    ∧ ((∃ e ∈ wHw.dev.queues, e.2.state = .onWait ∧ e.2.waitCtr = 3) ∧ (9 : Word64) < wHw.counter 3)
    ∧ ((16 : Nat) < 17 ∧ (0x40000 : Nat) < 0x50000 ∧ (0x70060 : Nat) < 0x70080) :=
  ⟨by decide,
  by decide,
  by decide,
  by decide,
  by decide,
  by decide⟩

theorem test_meets_HostAccess_2 :
    ((0x3FFC0 : Nat) = 64 * 4095 ∧ 0x3FFD0 = 64 * 4095 + 16 ∧ 0x47FF8 = 0x40000 + 8 * 4095 ∧ 0x48FF0 = 0x48000 + 16 * 255)
    ∧ ((1 : Word64).getLsbD 0 = true ∧ (1024 : Word64).toNat = 1024 ∧ (0x1000000 : Word64).toNat = 2 ^ 24 ∧ ¬(1024 ≤ (1023 : Word64).toNat))
    ∧ (deviceBytes - 4 + ([1, 2, 3, 4] : List Byte).length ≤ deviceBytes ∧ deviceBytes < deviceBytes - 3 + ([1, 2, 3, 4] : List Byte).length)
    ∧ (wHx.rangeBad (deviceBytes - 4) 4 = false ∧ wHx.hidden = false ∧ wSf.hidden = true)
    ∧ 512 < (List.replicate 513 (0 : Byte)).length
    ∧ ((2 : Nat) < 3 ∧ 65 % 8 ≠ 0 ∧ deviceBytes < deviceBytes - 7 + 8) :=
  ⟨by decide,
  by decide,
  by decide +kernel,
  by decide +kernel,
  by rw [List.length_replicate]; decide,
  by decide +kernel⟩

theorem test_meets_HostAccess_3 :
    ((deviceBytes - 8) % 8 = 0 ∧ deviceBytes - 8 + 8 ≤ deviceBytes ∧ wHx.sectorBad (sectorOf 64) = false ∧ (wHx.modDev (fun d => { d with poison := [(1, true)] })).sectorBad (sectorOf 64) = true) :=
  by decide +kernel

/-- A management core with images staged and activated, and readings. -/
def mbM : Mailbox := { Mailbox.zero with req := [(0, 8), (12, 3), (17, 0x70)] }
def wMg (g : Mgmt → Mgmt) : State := wHx.modMgmt (fun m => g { m with sensors := [40, 50, 60], log := [⟨1, 1, 2, 3, 4⟩, ⟨2, 1, 2, 3, 5⟩], staged := [⟨0, 5, 4, 6⟩, ⟨2, 5, 3, 6⟩], images := [⟨1, 1, 1, 1⟩], fusedMin := 4 })

theorem test_meets_ManagementCommands :
    ((wMg id).dev.mgmt.log.length ≤ 16384 ∧ 0 < ((wMg id).dev.mgmt.readings.flatMap (toBytes 4)).length)
    ∧ ((wMg id).dev.mbox.mirror = none ∧ ((wMg id).modDev (fun d => { d with mbox := mbM })).dev.mbox.mirror = some 0x7000)
    ∧ (∀ i, i < sensorCount → ∀ x y, Config.sensorCrossing i x y = 0 ∨ Config.sensorCrossing i x y ≠ 0)
    ∧ ((wMg id).dev.mgmt.staged.find? (fun i => i.kind == 1) = none ∧ (wMg id).dev.mgmt.staged.find? (fun i => i.kind == 0) = some ⟨0, 5, 4, 6⟩ ∧ (wMg id).dev.mgmt.staged.find? (fun i => i.kind == 2) = some ⟨2, 5, 3, 6⟩)
    ∧ (3 < (wMg id).dev.mgmt.fusedMin ∧ (wMg id).dev.mgmt.fusedMin ≤ 4 ∧ 2 < 3)
    ∧ (∀ i : Image, Config.imageOk i.signed = true ∨ Config.imageOk i.signed = false) :=
  ⟨by decide +kernel,
  by decide +kernel,
  fun i _ x y => Decidable.em _,
  by decide,
  by decide,
  fun i => Bool.eq_false_or_eq_true _⟩

/-- A takeover is pending, with an image activated for the command processors or none. -/
def wTo (l : List Image) : State := wMg (fun m => { m with takeover := true, activated := l })

theorem test_meets_DeviceLife :
    ((wMg id).dev.mgmt.takeover = false ∧ (wTo []).dev.mgmt.takeover = true ∧ (∀ e ∈ (wTo []).ctxs, e.2.batch.launch = none) ∧ (wTo []).dev.mgmt.latched = [])
    ∧ ((wTo []).dev.mgmt.activated.find? (fun i => i.kind == 0) = none ∧ (wTo [⟨0, 5, 4, 6⟩]).dev.mgmt.activated.find? (fun i => i.kind == 0) = some ⟨0, 5, 4, 6⟩)
    ∧ (∀ v, Config.knowsTable v = true ∨ Config.knowsTable v = false)
    ∧ (((wMg id).modDev (fun d => { d with l2 := [(1, 0x200)] })).dev.dirtyL2 9 = true ∧ (wMg id).dev.dirtyL2 9 = false)
    ∧ ((wMg id).dev.mgmt.failedUnit = 0 ∧ 2 ≤ (wMg (fun m => { m with failedUnit := 2 })).dev.mgmt.failedUnit)
    ∧ ((wTo [⟨2, 5, 4, 6⟩]).dev.mgmt.activated.find? (fun i => i.kind == 2) = some ⟨2, 5, 4, 6⟩ ∧ (wTo []).dev.mgmt.activated.find? (fun i => i.kind == 2) = none) :=
  ⟨by decide,
  by decide,
  fun v => Bool.eq_false_or_eq_true _,
  by decide,
  by decide,
  by decide⟩

/-- All lanes of an entry at 0 with room for its record; a parked entry of it; four parked entries; a full ring; an entry beyond the addresses; a held destination. -/
def pkE (k : Nat) : Entry := ⟨.parked, 4 * BitVec.ofNat 64 k, 4 * BitVec.ofNat 64 k, 0, 1, BitVec.ofNat 32 k, false, 0, k, false, 0⟩
def wPk (l : List Entry) : State := (wRg 0).modMe (fun f => { f with frontier := f.frontier ++ l, nextAge := 9 })
def wFl : State := (wPk []).modCtx 1 (fun c => { c with faultRing := ⟨0x3000, 4, 4, 0⟩ })
def wFf : State := { wPk [] with cur := { (wPk []).cur with pc := 2 ^ 57, npc := 2 ^ 57 } }
def wHd : State := (wPk []).modMe (fun f => { f with held := [⟨7, [.v 8], 0, 0⟩] })
/-- Fibre 32 has lanes 0 and 2 parked at place 1 and other lanes in a run entry. -/
def wUn (st : FStatus) : State := wMe (fun f => { f with frontier := [⟨.parked, 0, 4, 3, 5, 0, false, 0, 1, false, 6⟩, ⟨.run, 64, 0, 0, 0xFA, 1, false, 0, 0, false, 0⟩], nextAge := 2, status := st })
def rFi : FRec := { kind := .translation, src := 3, acc := 3, sub := 15, pasid := 2 ^ 20 - 1, park := 3, slot := 15, queue := 65535, detail := 2 ^ 64 - 1 }

theorem test_meets_FaultsAndReplays :
    ((wPk []).cur.mask ≠ 0 ∧ (wPk []).me.parkedAt (wPk []).cur.pc (wPk []).cur.pc = none ∧ (wPk []).me.freePark = some 0)
    ∧ (wPk [pkE 1, pkE 2, { pkE 0 with pc := 12 }]).me.freePark = some 3
    ∧ ((wPk []).me.spilled = [] ∧ ((wPk []).me.leave (wPk []).cur.age (wPk []).cur.mask).frontier.length ≤ 7 ∧ wFf.me.spilled = [] ∧ (wFf.me.leave wFf.cur.age wFf.cur.mask).frontier.length ≤ 7 ∧ (wPk [pkE 0]).me.spilled = [])
    ∧ (wPk []).RingRoom (wPk []).myPasid
    ∧ ((wPk [pkE 1, pkE 2, pkE 3, { pkE 0 with pc := 16 }]).me.freePark = none ∧ (wPk [pkE 1, pkE 2, pkE 3, { pkE 0 with pc := 16 }]).me.parkedAt 0 0 = none)
    ∧ (wFl.me.freePark = some 0 ∧ (wFl.ctx wFl.myPasid).faultRing.full = true) :=
  ⟨by decide,
  by decide,
  by decide,
  ⟨by decide +kernel, by decide +kernel⟩,
  by decide,
  by decide⟩

theorem test_meets_FaultsAndReplays_2 :
    (wPk [pkE 0]).me.parkedAt (wPk [pkE 0]).cur.pc (wPk [pkE 0]).cur.pc = some (pkE 0)
    ∧ (wPk [pkE 0]).RingRoom (wPk [pkE 0]).myPasid
    ∧ ((wFf.fetchWords wFf.me.core wFf.myPasid 3 wFf.cur.pc.toNat).2 = some (.bad .instructionFetch 0, 2 ^ 57) ∧ wFf.me.parkedAt wFf.cur.pc wFf.cur.pc = none ∧ wFf.me.freePark = some 0)
    ∧ wFf.RingRoom wFf.myPasid
    ∧ (([0, 2] : List Nat) ≠ [] ∧ (∀ l ∈ ([0, 2] : List Nat), (0x80000000 + 8 * l) / 4096 = 0x80000) ∧ (usesTwin false 1 2 3 false).wr ≠ [] ∧ (wPk []).replayHold = 0 ∧ (wPk []).me.parkedAt (wPk []).cur.pc (wPk []).cur.npc = none)
    ∧ ((usesTwin false 8 2 3 false).wr ≠ [] ∧ wHd.outside (usesTwin false 8 2 3 false) = false ∧ wHd.cur.active ≠ 0) :=
  ⟨by decide,
  ⟨by decide +kernel, by decide +kernel⟩,
  by decide +kernel,
  ⟨by decide +kernel, by decide +kernel⟩,
  by decide,
  by decide⟩

theorem test_meets_FaultsAndReplays_3 :
    (∃ h ∈ wHd.me.held, h.shadow = 0 ∧ h.id ≠ wHd.replayHold ∧ ∃ r ∈ ((usesTwin false 8 2 3 false).rd ++ (usesTwin false 8 2 3 false).wr).map (Reg.phys wHd.me.base), r ∈ h.regs)
    ∧ (((wUn .ready).fibre 32).spilled = [] ∧ ((wUn .ready).fibre 32).frontier.length ≤ 7)
    ∧ (((wUn .ready).fibre 32).frontier.find? (fun z => z.kind == .parked && z.park == 1) = some ⟨.parked, 0, 4, 3, 5, 0, false, 0, 1, false, 6⟩ ∧ (5 : Mask) &&& 1 ≠ 0)
    ∧ ((∀ z ∈ ((wUn .ready).fibre 32).frontier, z.kind = .run → z.replay = false → z.pc ≠ 4) ∧ ((wUn .faultStopped).fibre 32).status = .faultStopped)
    ∧ rFi.Fits :=
  ⟨by decide,
  by decide,
  by decide,
  by decide,
  by constructor <;> decide⟩

theorem test_meets_EncodingRoundTrip :
    ((Instr.fma 127 false 126 0 127 false).isEvent = false ∧ WellFormed (Instr.add true 63 0 5 true) = true ∧ (⟨true, 14, true, true, true, 15⟩ : Attr).wf = true)
    ∧ ((Instr.br 3 14 true (-2)) ≠ .illegalInstruction ∧ WellFormed (Instr.br 3 14 true (-2)) = true ∧ isFormatB (Instr.br 3 14 true (-2)) = true ∧ (Attr.none).ge = false ∧ (Attr.none).wf = true) :=
  ⟨by decide,
  by decide⟩

/-- The words of a program placed at 0; guarded by p1, with a write of p1 on its way or held; an entry out of the addresses; no translation. -/
def wSt (n w : Nat) (g : Fibre → Fibre) : State := (State.reset.place n w).modFibre 32 g
def eAt (pc : Word64) : Entry := ⟨.run, pc, 0, 0, allLanes, 0, false, 0, 0, false, 0⟩
def aGd : Attr := ⟨false, 0, false, true, false, 1⟩
def gPd (f : Fibre) : Fibre := { f with pend := [{ xPd 0 with vals := [⟨.p 1, 2, 1⟩] }] }
def gHd (f : Fibre) : Fibre := { f with held := [⟨7, [.p 1], 0, 0⟩] }
def gFa (f : Fibre) : Fibre := { f with frontier := [eAt (2 ^ 57)] }
def gMi (f : Fibre) : Fibre := { f with frontier := [eAt 4096] }
def wEp : State := (wSt 64 0xFC108000 id).modCore 0 (fun c => { c with ecc := [.prd 32 1] })
/-- An odd clock, with a sleeping fibre. -/
def wOd : State := { (wSt 32 0 (fun f => { f with status := .sleeping })) with clock := 1 }

theorem test_meets_StepRunsTheDecodedInstruction :
    (wSt 32 0 id).Issues 0 32 (eAt 0)
    ∧ (((wSt 32 0 id).fetchWords 0 1 3 0).2 = none ∧ decodeWords (((wSt 32 0 id).fetchWords 0 1 3 0).1.map (·.1)) = .ok ⟨Attr.none, .add false 0 0 0 false, 1⟩)
    ∧ (((wSt 32 0x3C000000 id).fetchWords 0 1 3 0).2 = none ∧ decodeWords (((wSt 32 0x3C000000 id).fetchWords 0 1 3 0).1.map (·.1)) = .error .unassigned)
    ∧ (wSt 64 0xFC108000 id).Issues 0 32 (eAt 0)
    ∧ (((wSt 64 0xFC108000 id).fetchWords 0 1 3 0).2 = none ∧ decodeWords (((wSt 64 0xFC108000 id).fetchWords 0 1 3 0).1.map (·.1)) = .ok ⟨aGd, .add false 0 0 0 false, 2⟩)
    ∧ ((∀ d : Decoded, d = ⟨aGd, .add false 0 0 0 false, 2⟩ → ((wSt 64 0xFC108000 id).latched 0 32 (eAt 0) ((wSt 64 0xFC108000 id).fetchWords 0 1 3 0).1 d).hazard (Uses.rdP 1) = none ∧ ((wSt 64 0xFC108000 id).latched 0 32 (eAt 0) ((wSt 64 0xFC108000 id).fetchWords 0 1 3 0).1 d).eccLanes (Uses.rdP 1) = 0)) :=
  ⟨⟨by decide, .inl (by decide), by decide +kernel, by decide⟩,
  by decide +kernel,
  by decide +kernel,
  ⟨by decide, .inl (by decide), by decide +kernel, by decide⟩,
  by decide +kernel,
  fun d h => by subst h; decide +kernel⟩

theorem test_meets_StepRunsTheDecodedInstruction_2 :
    ((wSt 64 0xFC108000 gPd).Issues 0 32 (eAt 0) ∧ (wSt 64 0xFC108000 gHd).Issues 0 32 (eAt 0))
    ∧ ((wSt 64 0xFC108000 gPd).latched 0 32 (eAt 0) ((wSt 64 0xFC108000 gPd).fetchWords 0 1 3 0).1 ⟨aGd, .add false 0 0 0 false, 2⟩).hazard (Uses.rdP 1) = some false
    ∧ ((wSt 64 0xFC108000 gHd).latched 0 32 (eAt 0) ((wSt 64 0xFC108000 gHd).fetchWords 0 1 3 0).1 ⟨aGd, .add false 0 0 0 false, 2⟩).hazard (Uses.rdP 1) = some true
    ∧ wEp.Issues 0 32 (eAt 0)
    ∧ ((wEp.latched 0 32 (eAt 0) (wEp.fetchWords 0 1 3 0).1 ⟨aGd, .add false 0 0 0 false, 2⟩).hazard (Uses.rdP 1) = none ∧ (wEp.latched 0 32 (eAt 0) (wEp.fetchWords 0 1 3 0).1 ⟨aGd, .add false 0 0 0 false, 2⟩).eccLanes (Uses.rdP 1) ≠ 0)
    ∧ ((wSt 32 0 gFa).Issues 0 32 (eAt (2 ^ 57)) ∧ (wSt 32 0 gMi).Issues 0 32 (eAt 4096)) :=
  ⟨⟨⟨by decide, .inl (by decide), by decide +kernel, by decide⟩, ⟨by decide, .inl (by decide), by decide +kernel, by decide⟩⟩,
  by decide +kernel,
  by decide +kernel,
  ⟨by decide, .inl (by decide), by decide +kernel, by decide⟩,
  by decide +kernel,
  ⟨⟨by decide, .inl (by decide), by decide +kernel, by decide⟩, ⟨by decide, .inl (by decide), by decide +kernel, by decide⟩⟩⟩

theorem test_meets_StepRunsTheDecodedInstruction_3 :
    (((wSt 32 0 gFa).fetchWords 0 1 3 (2 ^ 57)).2 = some (.bad .instructionFetch 0, 2 ^ 57) ∧ ((wSt 32 0 gMi).fetchWords 0 1 3 4096).2 = some (.miss 1, 4096))
    ∧ (({ State.reset with agenda := [.doorbell 3 1] } : State).agenda = [.doorbell 3 1] ∧ (Instr.doorbell 3 1).isEvent = true)
    ∧ (wOd.agenda = [] ∧ wOd.clock % 2 = 1 ∧ wOd.nextEvent.isSome = true)
    ∧ (({ wSt 32 0 id with clock := 1 } : State)).Issues 0 32 (eAt 0)
    ∧ (State.reset.agenda = [] ∧ State.reset.issueNext.isNone = true ∧ State.reset.nextEvent.isNone = true)
    ∧ (∃ t, exec .illegalInstruction (wSt 32 0 id) = .next t) :=
  ⟨by decide +kernel,
  by decide,
  by decide +kernel,
  ⟨by decide, .inr (by decide +kernel), by decide +kernel, by decide⟩,
  by decide +kernel,
  ⟨_, rfl⟩⟩

theorem test_meets_MemoryKept :
    (Memory.wf State.reset.mem = true ∧ ∃ t, step State.reset = .next t)
    ∧ (Memory.wf (wSt 32 0 id).mem = true ∧ ∃ t, step (wSt 32 0 id) = .next t) :=
  ⟨⟨by decide, _, rfl⟩,
  ⟨by decide +kernel, _, rfl⟩⟩

end Tests

end Sys2Proof
end

section
/-! SUPPORT. An instruction of each shape gives its function: from the operation of the machine to the operation of the spec, on operands read before
anything is written (R81). -/

namespace Sys2Proof

namespace Machine

variable {s : State} {i : Instr} {v u : Bool} {d a b : BitVec 7}

/-! ### Instructions by their shape -/

theorem GivesTwin.of_binary {f g : BinOp} (hi : exec i s = .next (s.binary f v d a b u)) (h : s.Ready (usesTwin v d a b u)) (q : s.Quiet)
    (hfg : ∀ w (x y : BitVec w), f w x y = g w x y) : GivesTwin i v d a b u g s :=
  ⟨_, hi, (binary_result h q).congr (funext fun _ => hfg ..) (hfg ..)⟩

/-- The operations are compared at widths of whole bytes, which 32 and 64 are. -/
theorem GivesTwin3.of_ternary {f g : TriOp} (hi : exec i s = .next (s.ternary f v d a b u)) (h : s.Ready (usesTwin3 v d a b u)) (q : s.Quiet)
    (hfg : ∀ w (x y z : BitVec w), w % 8 = 0 → f w x y z = g w x y z) : GivesTwin3 i v d a b u g s :=
  ⟨_, hi, (ternary_result h q).congr (funext fun _ => hfg _ _ _ _ rfl) (hfg _ _ _ _ rfl)⟩

theorem GivesTwin1.of_unary {f g : UnOp} (hi : exec i s = .next (s.unary f v d a)) (h : s.Ready (usesTwin1 v d a)) (q : s.Quiet)
    (hfg : ∀ w (x : BitVec w), f w x = g w x) : GivesTwin1 i v d a g s :=
  ⟨_, hi, (unary_result h q).congr (funext fun _ => hfg ..) (hfg ..)⟩

theorem GivesPair.of_pairBinary {f : Word64 → Word64 → Word64} {g : Nat → Word64} (hi : exec i s = .next (s.pairBinary f d a b u))
    (h : s.Ready (usesPair d a b u)) (q : s.Quiet) (hfg : ∀ l, f (s.rv2 a.toNat l) (s.opb2 b u l) = g l) : GivesPair i d g s :=
  ⟨_, hi, (pairBinary_result h q).congr fun l _ => hfg l⟩

theorem GivesPair.of_pairMad {f : Word → Word → Word64 → Word64} {g : Nat → Word64} (hi : exec i s = .next (s.pairMad f d a b u))
    (h : s.Ready (usesWide d a b u)) (q : s.Quiet) (hfg : ∀ l, f (s.rv a.toNat l) (s.opb b u l) (s.rv2 d.toNat l) = g l) : GivesPair i d g s :=
  ⟨_, hi, (pairMad_result h q).congr fun l _ => hfg l⟩

theorem GivesPair.of_lea {k : Nat} (hi : exec i s = .next (s.lea k false d a b u))
    (h : s.Ready (((Uses.rdV a.toNat 2).and (Uses.rdB b u 1)).and (Uses.wrV d.toNat 2))) (q : s.Quiet) :
    GivesPair i d (fun l => s.rv2 a.toNat l + (s.opb b u l).setWidth 64 * BitVec.ofNat 64 k) s :=
  ⟨_, hi, lea_vec h q⟩

theorem GivesUni.of_lea {k : Nat} (hi : exec i s = .next (s.lea k true d a b u)) (h : s.Ready (usesTwin true d a b u)) (q : s.Quiet) :
    GivesUni i d (s.usrc a.toNat + s.usrc b.toNat * BitVec.ofNat 64 k) s :=
  ⟨_, hi, lea_uni h q⟩

theorem GivesPred.of_setPred {us : Uses} {p : BitVec 4} {f : State → Nat → Bool} {g : Nat → Bool} (hi : exec i s = .next (s.setPred us p.toNat f))
    (h : s.Ready (us.and (Uses.wrP p.toNat))) (q : s.Quiet) (hfg : ∀ l, f s l = g l) : GivesPred i p g s :=
  ⟨_, hi, (setPred_result h q).congr fun l _ => hfg l⟩

/-! ### Votes -/

theorem getLsbD_votes (n l : Nat) : (s.votes n).getLsbD l = (s.cur.active.getLsbD l && s.rp n l) := BitVec.getLsbD_and

/-- The lanes that vote for a predicate are the active lanes in which it holds (R96). -/
theorem votes_eq_maskOf (n : Nat) : s.votes n = maskOf ((lanesOf s.cur.active).filter (fun k => s.rp n k)) := by
  apply BitVec.eq_of_getLsbD_eq
  intro l hl
  rw [getLsbD_votes, getLsbD_maskOf (fun k hk => (mem_lanesOf.mp (List.mem_filter.mp hk).1).1) l hl]
  simp [List.mem_filter, mem_lanesOf, hl]

/-- Every active lane votes for a predicate when it holds in each of them (R96). -/
theorem votes_beq_active (n : Nat) : (s.votes n == s.cur.active) = (lanesOf s.cur.active).all (fun k => s.rp n k) := by
  rw [Bool.eq_iff_iff, beq_iff_eq, List.all_eq_true]
  constructor
  · intro hv l hl
    have hb := getLsbD_votes (s := s) n l
    rw [hv, (mem_lanesOf.mp hl).2, Bool.true_and] at hb
    exact hb.symm
  · intro hall
    apply BitVec.eq_of_getLsbD_eq
    intro l hl
    rw [getLsbD_votes]
    cases ha : s.cur.active.getLsbD l
    · rfl
    · exact hall l (mem_lanesOf.mpr ⟨hl, ha⟩)

/-- Some active lane votes for a predicate when it holds in one of them (R96). -/
theorem votes_bne_zero (n : Nat) : (s.votes n != 0) = (lanesOf s.cur.active).any (fun k => s.rp n k) := by
  rw [Bool.eq_iff_iff, bne_iff_ne, List.any_eq_true]
  constructor
  · intro hv
    by_contra hnone
    refine hv (BitVec.eq_of_getLsbD_eq fun l hl => (Bool.eq_false_iff.mpr fun hb => ?_).trans BitVec.getLsbD_zero.symm)
    rw [getLsbD_votes, Bool.and_eq_true] at hb
    exact hnone ⟨l, mem_lanesOf.mpr ⟨hl, hb.1⟩, hb.2⟩
  · rintro ⟨l, hl, hp⟩ hv
    have hb : (s.votes n).getLsbD l = true := by rw [getLsbD_votes, (mem_lanesOf.mp hl).2, hp, Bool.and_self]
    rw [hv] at hb
    exact absurd (BitVec.getLsbD_zero.symm.trans hb) Bool.false_ne_true

end Machine

end Sys2Proof
end

section
/-! The integer, field, selection and predicate instructions (R81 to R92, R96). -/

open Sys2Proof Sys2Proof.Machine

/-- Settles O1: each instruction has one of the shared shapes, and the laws of the integer operations give its result in the words of R82 to R84. -/
theorem integerArithmetic : Obligations.IntegerArithmetic := by
  unfold Obligations.IntegerArithmetic
  refine ⟨?twins, ?mad, ?wide, ?pairs, ?carryVector, ?carryUniform⟩
  case twins =>
    intro v d a b u s h q
    exact ⟨.of_binary rfl h q fun _ _ _ => rfl,
      .of_binary rfl h q fun _ _ _ => rfl,
      .of_binary rfl h q fun _ _ _ => rfl,
      .of_binary rfl h q fun _ => mulhS_eq,
      .of_binary rfl h q fun _ => mulhU_eq,
      .of_binary rfl h q fun _ => divS_eq,
      .of_binary rfl h q fun _ => divU_eq,
      .of_binary rfl h q fun _ => remS_eq,
      .of_binary rfl h q fun _ => remU_eq⟩
  case mad =>
    intro v d a b u s h q
    exact .of_ternary rfl h q fun _ _ _ _ _ => rfl
  case wide =>
    intro d a b u s h q
    exact ⟨.of_pairMad rfl h q fun _ => rfl, .of_pairMad rfl h q fun _ => rfl⟩
  case pairs =>
    intro d a b u s h q
    exact ⟨.of_pairBinary rfl h q fun _ => rfl, .of_pairBinary rfl h q fun _ => rfl⟩
  case carryVector =>
    intro d a b u s h q
    simp only [← carryIn_eq, ← carryOut_eq]
    exact ⟨⟨_, rfl, carryOp_vec h q⟩, ⟨_, rfl, carryOp_vec h q⟩⟩
  case carryUniform =>
    intro d a b u low s h q hlow
    simp only [← carryIn_eq, ← carryOut_eq]
    exact ⟨⟨_, rfl, carryOp_uni h q hlow⟩, ⟨_, rfl, carryOp_uni h q hlow⟩⟩

/-- Settles O2: the twins of majors 0x02 and 0x03, by the laws that say each operation by its bits or its order (R85). -/
theorem logicShiftMinMax : Obligations.LogicShiftMinMax := by
  unfold Obligations.LogicShiftMinMax
  refine ⟨?twoSources, ?oneSource⟩
  case twoSources =>
    intro v d a b u s h q
    exact ⟨.of_binary rfl h q fun _ _ _ => rfl,
      .of_binary rfl h q fun _ _ _ => rfl,
      .of_binary rfl h q fun _ _ _ => rfl,
      .of_binary rfl h q fun _ _ _ => rfl,
      .of_binary rfl h q fun _ x y => shlOp_eq x y.toNat,
      .of_binary rfl h q fun _ x y => shrOp_eq x y.toNat,
      .of_binary rfl h q fun _ x y => sarOp_eq x y.toNat,
      .of_binary rfl h q fun _ x y => rotlOp_eq x y.toNat,
      .of_binary rfl h q fun _ => minS_eq,
      .of_binary rfl h q fun _ => minU_eq,
      .of_binary rfl h q fun _ => maxS_eq,
      .of_binary rfl h q fun _ => maxU_eq⟩
  case oneSource =>
    intro v d a u s h q
    exact ⟨.of_unary rfl h q fun _ => popcOp_eq,
      .of_unary rfl h q fun _ => clzOp_eq,
      .of_unary rfl h q fun _ => brevOp_eq,
      .of_unary rfl h q fun _ => absOp_eq⟩

/-- Settles O3: fields and bytes by their bits (R86, R87), moves, and scaled addresses for each of the four scales. -/
theorem fieldsAndAddresses : Obligations.FieldsAndAddresses := by
  unfold Obligations.FieldsAndAddresses
  refine ⟨?extract, ?insertPermute, fun d a b u s q => ⟨?movVector, ?movUniform, ?leaVector, ?leaUniform⟩⟩
  case extract =>
    intro v d a b u s h q
    exact ⟨.of_binary rfl h q fun _ => bfxOp_signed, .of_binary rfl h q fun _ => bfxOp_unsigned⟩
  case insertPermute =>
    intro v d a b u s h q
    exact ⟨.of_ternary rfl h q fun _ x y z _ => bfiOp_eq x y z, .of_ternary rfl h q fun _ x y z h8 => prmtOp_eq x y z h8⟩
  case movVector =>
    intro h
    exact ⟨_, rfl, plain_vec h q d.toNat fun t l => t.opb b u l⟩
  case movUniform =>
    intro h
    exact ⟨_, execMov_uni, unary_result h q⟩
  case leaVector =>
    intro h
    exact ⟨.of_lea rfl h q, .of_lea rfl h q, .of_lea rfl h q, .of_lea rfl h q⟩
  case leaUniform =>
    intro h
    exact ⟨.of_lea rfl h q, .of_lea rfl h q, .of_lea rfl h q, .of_lea rfl h q⟩

/-- Settles O5: selection writes a vector register, a ballot a uniform register, and every other instruction of R91, R92 and R96 a predicate. -/
theorem selectAndPredicates : Obligations.SelectAndPredicates := by
  unfold Obligations.SelectAndPredicates
  refine ⟨?select, ?compare, ?logic, ?oneSource, ?ballot⟩
  case select =>
    intro d a b u p s q h
    exact ⟨_, rfl, plain_vec h q d.toNat fun t l => if t.rp p.toNat l then t.rv a.toNat l else t.opb b u l⟩
  case compare =>
    intro p c a b u s q _
    constructor
    · intro h
      exact .of_setPred execSetp_word h q fun l => cmpCond_eq _ _ c
    · intro h
      exact .of_setPred execSetp_pair h q fun l => cmpCond_eq _ _ c
  case logic =>
    intro d a b s q h
    exact ⟨.of_setPred rfl h q fun _ => rfl, .of_setPred rfl h q fun _ => rfl, .of_setPred rfl h q fun _ => rfl⟩
  case oneSource =>
    intro d a s q h
    exact ⟨.of_setPred rfl h q fun _ => rfl,
      .of_setPred rfl h q fun _ => rfl,
      .of_setPred rfl h q fun _ => votes_beq_active a.toNat,
      .of_setPred rfl h q fun _ => votes_bne_zero a.toNat⟩
  case ballot =>
    intro d a s q h
    rw [← votes_eq_maskOf]
    exact ⟨_, rfl, plain_uni h q d.toNat fun t => (t.votes a.toNat).setWidth 64⟩

end
